-- ==== Sys2Proof/Word.lean ====
section
/-!
DEFINITION. The 32-bit word, and the checked word: 32 data bits with a 4-bit residue field (R11, R15).
-/

namespace Sys2Proof

/-- A 32-bit data word. -/
abbrev Word := BitVec 32

/-- A 55-bit code or data address (R18, R37). -/
abbrev Addr := BitVec 55

/-- The sum of the base-16 digits of `n`, `k` of them (the nibbles counted by `res`, R11). -/
def nibbleSum : Nat → Nat → Nat
  | 0, _ => 0
  | k + 1, n => n % 16 + nibbleSum k (n / 16)

/-- `res(x)`: the sum of the eight nibbles of a word modulo 15 (R11). -/
def res (w : Word) : BitVec 4 := BitVec.ofNat 4 (nibbleSum 8 w.toNat % 15)

/-- A checked word: data and residue field (R15). The field 15 is the poison marker. -/
structure CWord where
  data : Word
  tag  : BitVec 4
  deriving DecidableEq, Repr

/-- The word with a generated residue (R109). -/
def CWord.gen (d : Word) : CWord := ⟨d, res d⟩

/-- The launch value of a register: data 0, residue 0 (R18). -/
def CWord.zero : CWord := ⟨0, 0⟩

/-- The poison marker (R15). -/
def CWord.poisoned (w : CWord) : Bool := w.tag == 15

/-- A well-formed word: its field equals `res(data)` (R15). -/
def CWord.wellFormed (w : CWord) : Bool := w.tag == res w.data

/-- A mismatch: a field from 0 to 14 that differs from `res(data)` (R15). -/
def CWord.mismatched (w : CWord) : Bool := !w.poisoned && !w.wellFormed

/-- The word with the poison marker, its data kept (R114). -/
def CWord.poison (w : CWord) : CWord := ⟨w.data, 15⟩

/-- A word that leaves a place where no instruction consumes it: with the poison marker if its residue does not match (R114). -/
def CWord.sound (w : CWord) : CWord := if w.mismatched then w.poison else w

/-- Bits `[lo + n - 1 : lo]` of a natural number read as a field (R7). -/
def bitsOf (x lo n : Nat) : Nat := x / 2 ^ lo % 2 ^ n

/-- Bit `k` of a natural number read as a word (R7). -/
def bitAt (x k : Nat) : Bool := x.testBit k

end Sys2Proof
end

