-- ==== Sys2Proof/Syntax.lean ====
section
/-!
DEFINITION. The instructions and events of Zelram: one constructor of `Instr` for each row of the opcode table
(R136, R131, R134, R141 and the events of spec/95). An F64 or F96 instruction carries its fields by their names of
R125; the sub-codes inside `m` are named by each instruction's meaning.
-/

namespace Sys2Proof

/-- The format an instruction's fields came from (R122). `f32` marks the expansion of a compact form (R130). -/
inductive Fmt where
  | f32
  | f64
  | f96 (lit : Word)
  deriving DecidableEq, Repr

/-- The fields of an F64 or F96 instruction (R125): S, G, D9, A9, B9, C9 and M11. -/
structure Fields where
  fmt : Fmt
  s   : Bool
  g   : BitVec 4
  d   : BitVec 9
  a   : BitVec 9
  b   : BitVec 9
  c   : BitVec 9
  m   : BitVec 11
  deriving DecidableEq, Repr

/-- The fields of an F32 instruction (R129). -/
structure Compact where
  s  : Bool
  g  : BitVec 4
  d7 : BitVec 7
  a7 : BitVec 7
  m3 : BitVec 3
  deriving DecidableEq, Repr

/-- The fields of a clause header (R134). -/
structure Header where
  cnt   : BitVec 4
  eng   : BitVec 3
  wmask : BitVec 16
  deriving DecidableEq, Repr

/-- An encoding that is not an instruction, with what `tinfo` says of it (R141, R142). `cmp` is 1 for F32. -/
structure Illegal where
  why : BitVec 4
  fmt : BitVec 2
  op  : BitVec 10
  cmp : Bool
  deriving DecidableEq, Repr

/-- The block a device-register write names: a pitch register block (R381) or the mailbox (R468). -/
inductive RegBlock where
  | pitch (p : Nat)
  | mailbox
  deriving DecidableEq, Repr

/-- One sample of every sensor (R470): package power in W; islands as mV, 10 mA and 1/16 degree; thermal sensors. -/
structure Sample where
  power   : Nat
  islands : List (Nat × Nat × Nat)
  thermal : List Nat
  deriving DecidableEq, Repr

/-- The F64 opcodes of R136, by mnemonic. `MST` and `MST.BANK` share an OP10, as do the three `CGEN` forms. -/
inductive Op where
  | add
  | sub
  | addc
  | subb
  | neg
  | absI
  | minI
  | maxI
  | mul
  | mulh
  | mad
  | madh
  | mulw
  | madw
  | sad
  | idp4
  | add64
  | sub64
  | neg64
  | mul64
  | lea
  | lea64
  | clamp
  | avg
  | imad24
  | andB
  | orB
  | xorB
  | notB
  | andn
  | bitfn
  | shl
  | shr
  | rol
  | shl64
  | shr64
  | bfx
  | bfi
  | popc
  | clz
  | brev
  | mov
  | movw
  | sel
  | ext
  | bsel
  | mov64
  | cmp
  | cmp64
  | cmpFloat
  | classF
  | pcomb
  | pmov
  | pset
  | addFloat
  | subFloat
  | mulFloat
  | fma
  | minFloat
  | maxFloat
  | absFloat
  | negFloat
  | scaleb
  | rnd
  | dot2
  | cpys
  | frc
  | lerp
  | fmac
  | cvt
  | cvtf
  | cvtx
  | cvtb
  | pack
  | unpk
  | rcp
  | rsq
  | sqrt
  | exp2
  | log2
  | sin
  | cos
  | tanh
  | sigm
  | erf
  | sinpi
  | cospi
  | expm1
  | log1p
  | macq
  | mrel
  | mlds
  | mswap
  | mmul
  | mcnt
  | cdrain
  | cmerge
  | cclr
  | mdrain
  | mst
  | mstBank
  | mlda
  | mzero
  | mwait
  | mchk
  | mrd
  | mwr
  | crd
  | msave
  | mrest
  | vote
  | shfl
  | red
  | scan
  | matchL
  | elect
  | setpart
  | bra
  | brc
  | brx
  | call
  | calli
  | ret
  | exitT
  | meet
  | nop
  | prefi
  | launch
  | yield
  | brcx
  | bari
  | bara
  | bars
  | barx
  | post
  | waitC
  | trap
  | tret
  | sysr
  | sysw
  | tinv
  | cgenReg
  | cgenLive
  | cgenDrop
  | ld
  | st
  | lds
  | sts
  | ldr
  | str
  | ldp
  | stp
  | fence
  | cmo
  | hbind
  | stm
  | gath
  | pref
  | rlck
  | rlrel
  | ldu
  | atom
  | cas
  | atoms
  | cass
  | radd
  | raddg
  | acc
  | kick
  | cancel
  deriving DecidableEq, Repr

/-- The compact opcodes of R131. -/
inductive COp where
  | addCompact
  | subCompact
  | negCompact
  | minCompact
  | maxCompact
  | mulCompact
  | andCompact
  | orCompact
  | xorCompact
  | notCompact
  | shlCompact
  | shrCompact
  | popcCompact
  | movCompact
  | addFloatCompact
  | subFloatCompact
  | mulFloatCompact
  | minFloatCompact
  | maxFloatCompact
  | absFloatCompact
  | negFloatCompact
  | rcpCompact
  | rsqCompact
  | exp2Compact
  | log2Compact
  deriving DecidableEq, Repr

/-- Every row of the opcode table (rows without operands last). -/
inductive Instr where
  /-- R163. Integer add of A and B, wrapped or saturated to TYPE. -/
  | add (f : Fields)
  /-- R131. F32 compact form of integer ADD, D := D + A. -/
  | addCompact (c : Compact)
  /-- R163. Integer subtract A minus B under TYPE. -/
  | sub (f : Fields)
  /-- R131. F32 compact form of integer SUB. -/
  | subCompact (c : Compact)
  /-- R164. 32-bit add with carry in and carry out through predicates. -/
  | addc (f : Fields)
  /-- R164. 32-bit subtract with borrow in and borrow out through predicates. -/
  | subb (f : Fields)
  /-- R163. Integer negation under TYPE. -/
  | neg (f : Fields)
  /-- R131. F32 compact form of integer NEG. -/
  | negCompact (c : Compact)
  /-- R163. Integer absolute value, optionally saturated. -/
  | absI (f : Fields)
  /-- R163. Integer minimum of A and B. -/
  | minI (f : Fields)
  /-- R131. F32 compact form of integer MIN. -/
  | minCompact (c : Compact)
  /-- R163. Integer maximum of A and B. -/
  | maxI (f : Fields)
  /-- R131. F32 compact form of integer MAX. -/
  | maxCompact (c : Compact)
  /-- R165. Integer multiply written by R158. -/
  | mul (f : Fields)
  /-- R131. F32 compact form of integer MUL. -/
  | mulCompact (c : Compact)
  /-- R165. High word of a 32-bit product. -/
  | mulh (f : Fields)
  /-- R165. Integer multiply-add a × b + c. -/
  | mad (f : Fields)
  /-- R165. High word of a × b + c. -/
  | madh (f : Fields)
  /-- R165. Full 64-bit product into a register pair. -/
  | mulw (f : Fields)
  /-- R165. 64-bit product plus a 64-bit addend into a pair. -/
  | madw (f : Fields)
  /-- R163. Sum of absolute difference |a − b| + c. -/
  | sad (f : Fields)
  /-- R165. Four-byte integer dot product plus C. -/
  | idp4 (f : Fields)
  /-- R168. 64-bit pair add. -/
  | add64 (f : Fields)
  /-- R168. 64-bit pair subtract. -/
  | sub64 (f : Fields)
  /-- R168. 64-bit pair negation. -/
  | neg64 (f : Fields)
  /-- R168. Low 64 bits of a 64-bit product. -/
  | mul64 (f : Fields)
  /-- R169. 32-bit add of a scaled index. -/
  | lea (f : Fields)
  /-- R169. 64-bit add of a scaled, sign- or zero-extended index. -/
  | lea64 (f : Fields)
  /-- R163. Integer clamp min(max(a, b), c). -/
  | clamp (f : Fields)
  /-- R163. Integer average, rounded up or truncated. -/
  | avg (f : Fields)
  /-- R167. Deprecated 24-bit signed multiply with 32-bit add, counted in depcnt. -/
  | imad24 (f : Fields)
  /-- R170. Bitwise AND. -/
  | andB (f : Fields)
  /-- R131. F32 compact form of AND. -/
  | andCompact (c : Compact)
  /-- R170. Bitwise OR. -/
  | orB (f : Fields)
  /-- R131. F32 compact form of OR. -/
  | orCompact (c : Compact)
  /-- R170. Bitwise XOR. -/
  | xorB (f : Fields)
  /-- R131. F32 compact form of XOR. -/
  | xorCompact (c : Compact)
  /-- R170. Bitwise complement. -/
  | notB (f : Fields)
  /-- R131. F32 compact form of NOT. -/
  | notCompact (c : Compact)
  /-- R170. A AND NOT B. -/
  | andn (f : Fields)
  /-- R171. Arbitrary three-input bitwise function from an 8-bit table. -/
  | bitfn (f : Fields)
  /-- R172. Logical shift left. -/
  | shl (f : Fields)
  /-- R131. F32 compact form of SHL. -/
  | shlCompact (c : Compact)
  /-- R172. Arithmetic or logical shift right. -/
  | shr (f : Fields)
  /-- R131. F32 compact form of SHR. -/
  | shrCompact (c : Compact)
  /-- R172. Rotate left by n mod 32. -/
  | rol (f : Fields)
  /-- R172. 64-bit pair shift left. -/
  | shl64 (f : Fields)
  /-- R172. 64-bit pair shift right. -/
  | shr64 (f : Fields)
  /-- R173. Bitfield extract. -/
  | bfx (f : Fields)
  /-- R173. Bitfield insert. -/
  | bfi (f : Fields)
  /-- R174. Population count. -/
  | popc (f : Fields)
  /-- R131. F32 compact form of POPC. -/
  | popcCompact (c : Compact)
  /-- R174. Leading-zero count. -/
  | clz (f : Fields)
  /-- R174. Bit reverse. -/
  | brev (f : Fields)
  /-- R175. Register or immediate move. -/
  | mov (f : Fields)
  /-- R131. F32 compact form of MOV. -/
  | movCompact (c : Compact)
  /-- R175. Per-lane indexed read of a uniform register. -/
  | movw (f : Fields)
  /-- R175. Select A or B by a predicate. -/
  | sel (f : Fields)
  /-- R175. Sign or zero extension from 8 or 16 bits. -/
  | ext (f : Fields)
  /-- R176. Byte select from eight source bytes. -/
  | bsel (f : Fields)
  /-- R175. 64-bit pair move. -/
  | mov64 (f : Fields)
  /-- R177. Integer compare writing a predicate pair. -/
  | cmp (f : Fields)
  /-- R177. 64-bit pair compare writing a predicate pair. -/
  | cmp64 (f : Fields)
  /-- R190. Float compare with ordered and unordered conditions. -/
  | cmpFloat (f : Fields)
  /-- R191. Test the float class of A against a mask. -/
  | classF (f : Fields)
  /-- R178. Three-input predicate function from an 8-bit table. -/
  | pcomb (f : Fields)
  /-- R179. Move predicates to or from a register. -/
  | pmov (f : Fields)
  /-- R180. Set a predicate pair from one bit of A. -/
  | pset (f : Fields)
  /-- R185. Float add with one rounding. -/
  | addFloat (f : Fields)
  /-- R131. F32 compact form of float ADD. -/
  | addFloatCompact (c : Compact)
  /-- R185. Float subtract with one rounding. -/
  | subFloat (f : Fields)
  /-- R131. F32 compact form of float SUB. -/
  | subFloatCompact (c : Compact)
  /-- R185. Float multiply with one rounding. -/
  | mulFloat (f : Fields)
  /-- R131. F32 compact form of float MUL. -/
  | mulFloatCompact (c : Compact)
  /-- R185. Fused multiply-add with one rounding. -/
  | fma (f : Fields)
  /-- R186. Float minimum, NaN-ignoring or NaN-propagating. -/
  | minFloat (f : Fields)
  /-- R131. F32 compact form of float MIN. -/
  | minFloatCompact (c : Compact)
  /-- R186. Float maximum, NaN-ignoring or NaN-propagating. -/
  | maxFloat (f : Fields)
  /-- R131. F32 compact form of float MAX. -/
  | maxFloatCompact (c : Compact)
  /-- R187. Clear the float sign bit. -/
  | absFloat (f : Fields)
  /-- R131. F32 compact form of float ABS. -/
  | absFloatCompact (c : Compact)
  /-- R187. Flip the float sign bit. -/
  | negFloat (f : Fields)
  /-- R131. F32 compact form of float NEG. -/
  | negFloatCompact (c : Compact)
  /-- R185. Scale a float by a power of two. -/
  | scaleb (f : Fields)
  /-- R188. Round a float to an integral value. -/
  | rnd (f : Fields)
  /-- R185. Two-element packed dot product plus binary32 C. -/
  | dot2 (f : Fields)
  /-- R187. Magnitude of A with the sign of B. -/
  | cpys (f : Fields)
  /-- R188. Fractional part of a float. -/
  | frc (f : Fields)
  /-- R185. Linear interpolation a + c(b − a) with one rounding. -/
  | lerp (f : Fields)
  /-- R189. Deprecated two-rounding multiply-add, emulated through Rennet. -/
  | fmac (f : Fields)
  /-- R193. Convert between integer and IEEE types. -/
  | cvt (f : Fields)
  /-- R195. Convert a bare element between two format slots. -/
  | cvtf (f : Fields)
  /-- R196. Decode one slot element with scale and bias into binary32. -/
  | cvtx (f : Fields)
  /-- R197. Write a whole 32-element block with a chosen scale, as a warp meeting point. -/
  | cvtb (f : Fields)
  /-- R194. Convert two binary32 values into a packed 16-bit pair. -/
  | pack (f : Fields)
  /-- R194. Widen one half of a packed pair to binary32. -/
  | unpk (f : Fields)
  /-- R199. SFU reciprocal. -/
  | rcp (f : Fields)
  /-- R131. F32 compact form of RCP. -/
  | rcpCompact (c : Compact)
  /-- R199. SFU reciprocal square root. -/
  | rsq (f : Fields)
  /-- R131. F32 compact form of RSQ. -/
  | rsqCompact (c : Compact)
  /-- R199. SFU correctly rounded square root. -/
  | sqrt (f : Fields)
  /-- R199. SFU base-2 exponential. -/
  | exp2 (f : Fields)
  /-- R131. F32 compact form of EXP2. -/
  | exp2Compact (c : Compact)
  /-- R199. SFU base-2 logarithm. -/
  | log2 (f : Fields)
  /-- R131. F32 compact form of LOG2. -/
  | log2Compact (c : Compact)
  /-- R199. SFU sine in radians. -/
  | sin (f : Fields)
  /-- R199. SFU cosine in radians. -/
  | cos (f : Fields)
  /-- R199. SFU hyperbolic tangent. -/
  | tanh (f : Fields)
  /-- R199. SFU logistic sigmoid. -/
  | sigm (f : Fields)
  /-- R199. SFU error function. -/
  | erf (f : Fields)
  /-- R199. SFU sin(πa). -/
  | sinpi (f : Fields)
  /-- R199. SFU cos(πa). -/
  | cospi (f : Fields)
  /-- R199. SFU e^a − 1. -/
  | expm1 (f : Fields)
  /-- R199. SFU ln(1 + a). -/
  | log1p (f : Fields)
  /-- R275. Try to acquire the core's matrix engine and report success in a predicate pair. -/
  | macq (f : Fields)
  /-- R276. End the holding and queue the engine's release. -/
  | mrel (f : Fields)
  /-- R278. Queue a load of the shadow plane from a handle. -/
  | mlds (f : Fields)
  /-- R279. Queue an exchange of active and shadow planes. -/
  | mswap (f : Fields)
  /-- R280. Queue a multiply-mode stream of one slab per quarter. -/
  | mmul (f : Fields)
  /-- R280. Queue a curd-mode counting stream of one half per quarter. -/
  | mcnt (f : Fields)
  /-- R286. Queue a drain of every bank into a tile. -/
  | cdrain (f : Fields)
  /-- R288. Queue an exact merge of a bank image into the bank set. -/
  | cmerge (f : Fields)
  /-- R286. Queue emptying of every bank and reset of the bank-set format. -/
  | cclr (f : Fields)
  /-- R290. Queue a tile store followed by zeroing of the tile. -/
  | mdrain (f : Fields)
  /-- R290. Queue a write of a tile to a tensor. -/
  | mst (f : Fields)
  /-- R287. Queue a write of the bank set to a scratchpad image. -/
  | mstBank (f : Fields)
  /-- R289. Queue a load of a tile from a tensor. -/
  | mlda (f : Fields)
  /-- R289. Queue zeroing of a tile. -/
  | mzero (f : Fields)
  /-- R302. Wait for queued engine entries and their writes at a scope. -/
  | mwait (f : Fields)
  /-- R297. Queue a full residue check of engine state, returning SUS. -/
  | mchk (f : Fields)
  /-- R291. Queue a per-lane read of a tile word. -/
  | mrd (f : Fields)
  /-- R291. Queue a per-lane write of a tile word. -/
  | mwr (f : Fields)
  /-- R287. Queue a per-lane read of a bank-set word. -/
  | crd (f : Fields)
  /-- R304. Privileged save of engine state to memory. -/
  | msave (f : Fields)
  /-- R304. Privileged restore of engine state from memory. -/
  | mrest (f : Fields)
  /-- R218. Vote a predicate over the member lanes. -/
  | vote (f : Fields)
  /-- R219. Shuffle a register value between lanes of a tile. -/
  | shfl (f : Fields)
  /-- R220. Reduce a value over the member lanes. -/
  | red (f : Fields)
  /-- R220. Inclusive or exclusive prefix combination over lanes. -/
  | scan (f : Fields)
  /-- R221. Mask of member lanes holding the same value. -/
  | matchL (f : Fields)
  /-- R221. Elect the lowest non-excluded member lane. -/
  | elect (f : Fields)
  /-- R222. Warp-wide meeting point that writes the tile size in wpart. -/
  | setpart (f : Fields)
  /-- R206. Unconditional branch with optional mr write. -/
  | bra (f : Fields)
  /-- R206. Conditional branch on a predicate with optional mr write. -/
  | brc (f : Fields)
  /-- R206. Indirect branch through a per-lane or uniform address pair. -/
  | brx (f : Fields)
  /-- R211. Call pushing a return entry with the saved mr. -/
  | call (f : Fields)
  /-- R212. Indirect call forming callee groups run in target-address order. -/
  | calli (f : Fields)
  /-- R213. Pop a return entry, restore mr and return. -/
  | ret (f : Fields)
  /-- R206. End the thread and discard its return entries. -/
  | exitT (f : Fields)
  /-- R206. Set or clear mr and continue at the next instruction. -/
  | meet (f : Fields)
  /-- R208. No operation. -/
  | nop (f : Fields)
  /-- R231. Request instruction cache lines, dropped silently on failure. -/
  | prefi (f : Fields)
  /-- R230. Enqueue a launch record from device code and return a status. -/
  | launch (f : Fields)
  /-- R208. Make the bundle not ready until another bundle issues or 32 cycles pass. -/
  | yield (f : Fields)
  /-- R206. Deprecated conditional branch that sets mr, emulated by Rennet slot 14. -/
  | brcx (f : Fields)
  /-- R224. Initialise a barrier object's count as a release. -/
  | bari (f : Fields)
  /-- R225. Arrive at a barrier object without waiting. -/
  | bara (f : Fields)
  /-- R225. Arrive at a barrier object and wait for its next zero event. -/
  | bars (f : Fields)
  /-- R227. Deprecated workgroup barrier with implicit arrival count. -/
  | barx (f : Fields)
  /-- R228. Post event bits to a gang member's event set after earlier stores. -/
  | post (f : Fields)
  /-- R229. Wait on the conditions of a wait record with a time-out. -/
  | waitC (f : Fields)
  /-- R233. Raise SWTRAP with a code in each guarded lane. -/
  | trap (f : Fields)
  /-- R234. Return the lanes of a trap group to tpc and restore mr. -/
  | tret (f : Fields)
  /-- R235. Read a special register. -/
  | sysr (f : Fields)
  /-- R235. Write a special register. -/
  | sysw (f : Fields)
  /-- R237. Privileged invalidation of the context's translations. -/
  | tinv (f : Fields)
  /-- R238. Register a code range as a new code generation. -/
  | cgenReg (f : Fields)
  /-- R238. Return the live count of a code generation. -/
  | cgenLive (f : Fields)
  /-- R238. Deregister a code generation whose live count is zero. -/
  | cgenDrop (f : Fields)
  /-- R243. Global load. -/
  | ld (f : Fields)
  /-- R244. Global store. -/
  | st (f : Fields)
  /-- R243. Own-scratchpad load, waiting on empty lines. -/
  | lds (f : Fields)
  /-- R244. Own-scratchpad store setting full bits. -/
  | sts (f : Fields)
  /-- R241. Load from a gang member's scratchpad. -/
  | ldr (f : Fields)
  /-- R246. Store to a gang member's scratchpad, carrying the allocation generation. -/
  | str (f : Fields)
  /-- R241. Load through a buffer record of the pool. -/
  | ldp (f : Fields)
  /-- R241. Store through a buffer record of the pool. -/
  | stp (f : Fields)
  /-- R255. Acquire, release or sequentially consistent fence at a scope. -/
  | fence (f : Fields)
  /-- R257. Clean, invalidate or empty lines over a range. -/
  | cmo (f : Fields)
  /-- R258. Bind a tile handle to a checked tensor descriptor. -/
  | hbind (f : Fields)
  /-- R247. Multicast store to several gang members' scratchpads. -/
  | stm (f : Fields)
  /-- R264. Gather one element per lane into scratchpad through the ladle. -/
  | gath (f : Fields)
  /-- R249. Prefetch lines into L1 or L2 without faults. -/
  | pref (f : Fields)
  /-- R267. Take a range-lock entry over a range. -/
  | rlck (f : Fields)
  /-- R267. Free a range-lock entry. -/
  | rlrel (f : Fields)
  /-- R248. Deprecated uniform load of one word. -/
  | ldu (f : Fields)
  /-- R251. Global atomic read-modify-write at the home slice. -/
  | atom (f : Fields)
  /-- R252. Global compare and swap. -/
  | cas (f : Fields)
  /-- R251. Scratchpad atomic read-modify-write. -/
  | atoms (f : Fields)
  /-- R252. Scratchpad compare and swap. -/
  | cass (f : Fields)
  /-- R253. Rescaled remote add into a gang member's scratchpad. -/
  | radd (f : Fields)
  /-- R253. Rescaled remote add into global memory at the home slice. -/
  | raddg (f : Fields)
  /-- R254. Ladle accumulation of one tensor into another. -/
  | acc (f : Fields)
  /-- R260. Check and accept copy request records onto ladle channels. -/
  | kick (f : Fields)
  /-- R263. Cancel the workgroup's requests on a ladle channel. -/
  | cancel (f : Fields)
  /-- R135. H64 header that waits on result classes and opens an issue window. -/
  | clauseHeader (h : Header)
  /-- R55. Every 4 cycles ready threads with equal PC are formed into bundles. -/
  | regroupPoint (wid : Nat)
  /-- R208. A yielded bundle becomes ready again after 32 cycles. -/
  | yieldExpiry (wid : Nat)
  /-- R65. A waiting bundle re-evaluates its conditions on a change or every 4 ticks. -/
  | waitEvaluation (wid bid : Nat)
  /-- R65. A WAIT whose deadline passes completes with TO set. -/
  | waitTimeout (wid bid : Nat)
  /-- R337. A handler budget of 65,536 ticks expires and deferred pre-emption proceeds. -/
  | handlerBudgetExpiry (wid gid : Nat)
  /-- R462. An emulation group without TRET after 65,536 ticks kills the context. -/
  | emulationTimeout (wid gid : Nat)
  /-- R243. A load's data returns, is checked and written to its register. -/
  | loadReturn (wid n : Nat)
  /-- R203. A queued SFU result is checked and written back with its flags. -/
  | sfuWriteBack (core : Nat)
  /-- R273. The matrix engine performs the next queue entry or fused pass. -/
  | engineEntryPerform (core : Nat)
  /-- R261. The ladle delivers a 4 KiB chunk of a request and counts it on the barrier. -/
  | copyChunk (core ch : Nat)
  /-- R123. A demand instruction fetch completes or faults at the instruction. -/
  | instructionFetch (wid bid : Nat)
  /-- R415. A page walk ends, installing a translation or reporting a fault. -/
  | pageWalk (core ctx : Nat) (va : Addr) (code : Bool)
  /-- R426. A packet arrives at its destination endpoint and is accepted, dropped or refused. -/
  | packetAccept (n : Nat)
  /-- R426. An acknowledgement releases a packet from the source's retry buffer. -/
  | packetAck (n : Nat)
  /-- R423. A flit fails its link CRC and is resent on that link. -/
  | flitCrcFailure (link : Nat)
  /-- R428. A link dies and the routing version advances with replay. -/
  | linkDeath (tether : Bool) (lost : List Nat)
  /-- R430. Packets to an unreachable Tether device complete with an error after 100,000 ticks. -/
  | routeLossTimeout (dst : Nat)
  /-- R321. A host write enters device memory with generated residues. -/
  | hostWrite (pitch off : Nat) (ws : List Word)
  /-- R321. A host read of device memory is served, checking residues at egress. -/
  | hostRead (pitch off n : Nat)
  /-- R321. A PCIe completion for a device access to host memory returns. -/
  | hostCompletion (pa : Nat) (ws : List Word) (error : Bool)
  /-- R365. A sweep of an old allocation generation completes when every core answers. -/
  | generationSweep (core slot : Nat)
  /-- R388. Arbitration reads a launch record and admits or refuses it. -/
  | admission (rcb : Nat)
  /-- R391. The arbiter and dispatcher place a workgroup or whole gang on cores. -/
  | workgroupPlacement (pitch : Nat)
  /-- R70. A grid completes and its completion word and vector are written. -/
  | gridCompletion (grid : Nat)
  /-- R338. UCERR, asynchronous PAGE or PREEMPT enters a whole warp at a bundle boundary. -/
  | asyncEntry (wid : Nat)
  /-- R384. Link a region control block into the pitch tree. -/
  | rlink (pitch : Nat) (v : BitVec 64)
  /-- R384. Reload a linked region control block's fields. -/
  | rsync (pitch : Nat) (v : BitVec 64)
  /-- R384. Unlink an idle region control block. -/
  | runlink (pitch : Nat) (v : BitVec 64)
  /-- R386. Host queue doorbell releasing newly enqueued launch records. -/
  | qdoor (pitch : Nat) (v : BitVec 64)
  /-- R387. Host event doorbell posting event bits 8–15 to the region's workgroups. -/
  | edoor (pitch : Nat) (v : BitVec 64)
  /-- R340. pcreq operation 1: stop and save a context. -/
  | preempt (pitch : Nat)
  /-- R347. pcreq operation 2: kill a context and retire its ctx.id. -/
  | kill (pitch : Nat)
  /-- R345. pcreq operation 3: restore a saved context from the save area. -/
  | resume (pitch : Nat)
  /-- R340. Every engine unit has acknowledged stop and save; DONE is set and resources freed. -/
  | preemptionDone (pitch : Nat)
  /-- R347. Every retirement point has acknowledged the retired ctx.id; DONE is set. -/
  | killDone (ctx : Nat)
  /-- R345. Every restored workgroup is placed and running; DONE is set. -/
  | resumptionDone (pitch : Nat)
  /-- R418. Host-side invalidation of a context's translations. -/
  | tlbinv (pitch : Nat) (v : BitVec 64)
  /-- R443. cxcmd bind: make a ctx.id a context of the pitch. -/
  | contextBind (pitch : Nat)
  /-- R443. cxcmd release: end a context's binding. -/
  | contextRelease (pitch : Nat)
  /-- R443. cxcmd write: replace a context's ptroot, tvec and HQPRIV. -/
  | contextWrite (pitch : Nat)
  /-- R443. cxcmd read: copy a context's ptroot, tvec and HQPRIV into registers. -/
  | contextRead (pitch : Nat)
  /-- R372. Write of aperture registers, with EN changes completing staged writes. -/
  | apertureWrite (pitch n word : Nat) (v : BitVec 64)
  /-- R9. Write of a device register that has no behaviour row of its own. -/
  | registerWrite (block : RegBlock) (off : Nat) (v : BitVec 64)
  /-- R474. SPDM request answered with signed firmware and configuration measurements. -/
  | getMeasurements (index : Nat)
  /-- R471. Every 100 ticks Lantern samples sensors and adjusts island frequency steps. -/
  | sensorSample (sample : Sample)
  /-- R454. A frozen pitch's dump finishes and the pitch is held dumped. -/
  | dumpComplete (pitch : Nat)
  /-- R141. A bundle decodes an encoding that is not an instruction (unassigned opcode, reserved guard, malformed F96 or H64) and takes ILLEGAL at decode, unless a Rennet slot claims it. -/
  | notAnInstruction (e : Illegal)
  /-- R444. The scrub of a pitch's stacks ends, frames that fail read-back are retired, and the partition command that started it finishes with its STATUS and mailbox DONE. -/
  | scrubComplete (bad : List Nat)
  /-- R392. A new 100-tick budget period begins and stalled activities retry. -/
  | budgetPeriod
  /-- R445. Partition command 1: create a pitch from free units. -/
  | pitchCreate
  /-- R445. Partition command 2: add free units to a pitch. -/
  | pitchAddUnits
  /-- R445. Partition command 3: drain, scrub and remove units from a pitch. -/
  | pitchRemoveUnits
  /-- R445. The TMO drain limit of a unit removal expires with STATUS 4. -/
  | drainTimeout
  /-- R445. Partition command 4: kill every context and reset a pitch. -/
  | pitchReset
  /-- R445. Partition command 5: reset with scrub and free the pitch's units. -/
  | pitchDestroy
  /-- R466. Mailbox command 2: verify and load a signed Rennet image. -/
  | rennetImageLoad
  /-- R473. Mailbox command 3: verify a firmware image and write the inactive bank. -/
  | firmwareUpdate
  /-- R470. Mailbox command 4: write the latest sensor sample to the host buffer. -/
  | sensorSnapshot
  /-- R472. Mailbox command 5: copy the newest event-log records to the host. -/
  | logRead
  /-- R475. Main rails good: Lantern runs the bring-up sequence. -/
  | bringUp
  /-- R472. Power is lost; Lantern stops and pending log records are lost. -/
  | powerLoss
  deriving DecidableEq, Repr

/-- The instruction with an opcode and its fields. -/
def Op.instr : Op → Fields → Instr
  | .add => .add
  | .sub => .sub
  | .addc => .addc
  | .subb => .subb
  | .neg => .neg
  | .absI => .absI
  | .minI => .minI
  | .maxI => .maxI
  | .mul => .mul
  | .mulh => .mulh
  | .mad => .mad
  | .madh => .madh
  | .mulw => .mulw
  | .madw => .madw
  | .sad => .sad
  | .idp4 => .idp4
  | .add64 => .add64
  | .sub64 => .sub64
  | .neg64 => .neg64
  | .mul64 => .mul64
  | .lea => .lea
  | .lea64 => .lea64
  | .clamp => .clamp
  | .avg => .avg
  | .imad24 => .imad24
  | .andB => .andB
  | .orB => .orB
  | .xorB => .xorB
  | .notB => .notB
  | .andn => .andn
  | .bitfn => .bitfn
  | .shl => .shl
  | .shr => .shr
  | .rol => .rol
  | .shl64 => .shl64
  | .shr64 => .shr64
  | .bfx => .bfx
  | .bfi => .bfi
  | .popc => .popc
  | .clz => .clz
  | .brev => .brev
  | .mov => .mov
  | .movw => .movw
  | .sel => .sel
  | .ext => .ext
  | .bsel => .bsel
  | .mov64 => .mov64
  | .cmp => .cmp
  | .cmp64 => .cmp64
  | .cmpFloat => .cmpFloat
  | .classF => .classF
  | .pcomb => .pcomb
  | .pmov => .pmov
  | .pset => .pset
  | .addFloat => .addFloat
  | .subFloat => .subFloat
  | .mulFloat => .mulFloat
  | .fma => .fma
  | .minFloat => .minFloat
  | .maxFloat => .maxFloat
  | .absFloat => .absFloat
  | .negFloat => .negFloat
  | .scaleb => .scaleb
  | .rnd => .rnd
  | .dot2 => .dot2
  | .cpys => .cpys
  | .frc => .frc
  | .lerp => .lerp
  | .fmac => .fmac
  | .cvt => .cvt
  | .cvtf => .cvtf
  | .cvtx => .cvtx
  | .cvtb => .cvtb
  | .pack => .pack
  | .unpk => .unpk
  | .rcp => .rcp
  | .rsq => .rsq
  | .sqrt => .sqrt
  | .exp2 => .exp2
  | .log2 => .log2
  | .sin => .sin
  | .cos => .cos
  | .tanh => .tanh
  | .sigm => .sigm
  | .erf => .erf
  | .sinpi => .sinpi
  | .cospi => .cospi
  | .expm1 => .expm1
  | .log1p => .log1p
  | .macq => .macq
  | .mrel => .mrel
  | .mlds => .mlds
  | .mswap => .mswap
  | .mmul => .mmul
  | .mcnt => .mcnt
  | .cdrain => .cdrain
  | .cmerge => .cmerge
  | .cclr => .cclr
  | .mdrain => .mdrain
  | .mst => .mst
  | .mstBank => .mstBank
  | .mlda => .mlda
  | .mzero => .mzero
  | .mwait => .mwait
  | .mchk => .mchk
  | .mrd => .mrd
  | .mwr => .mwr
  | .crd => .crd
  | .msave => .msave
  | .mrest => .mrest
  | .vote => .vote
  | .shfl => .shfl
  | .red => .red
  | .scan => .scan
  | .matchL => .matchL
  | .elect => .elect
  | .setpart => .setpart
  | .bra => .bra
  | .brc => .brc
  | .brx => .brx
  | .call => .call
  | .calli => .calli
  | .ret => .ret
  | .exitT => .exitT
  | .meet => .meet
  | .nop => .nop
  | .prefi => .prefi
  | .launch => .launch
  | .yield => .yield
  | .brcx => .brcx
  | .bari => .bari
  | .bara => .bara
  | .bars => .bars
  | .barx => .barx
  | .post => .post
  | .waitC => .waitC
  | .trap => .trap
  | .tret => .tret
  | .sysr => .sysr
  | .sysw => .sysw
  | .tinv => .tinv
  | .cgenReg => .cgenReg
  | .cgenLive => .cgenLive
  | .cgenDrop => .cgenDrop
  | .ld => .ld
  | .st => .st
  | .lds => .lds
  | .sts => .sts
  | .ldr => .ldr
  | .str => .str
  | .ldp => .ldp
  | .stp => .stp
  | .fence => .fence
  | .cmo => .cmo
  | .hbind => .hbind
  | .stm => .stm
  | .gath => .gath
  | .pref => .pref
  | .rlck => .rlck
  | .rlrel => .rlrel
  | .ldu => .ldu
  | .atom => .atom
  | .cas => .cas
  | .atoms => .atoms
  | .cass => .cass
  | .radd => .radd
  | .raddg => .raddg
  | .acc => .acc
  | .kick => .kick
  | .cancel => .cancel

/-- The instruction with a compact opcode and its fields. -/
def COp.instr : COp → Compact → Instr
  | .addCompact => .addCompact
  | .subCompact => .subCompact
  | .negCompact => .negCompact
  | .minCompact => .minCompact
  | .maxCompact => .maxCompact
  | .mulCompact => .mulCompact
  | .andCompact => .andCompact
  | .orCompact => .orCompact
  | .xorCompact => .xorCompact
  | .notCompact => .notCompact
  | .shlCompact => .shlCompact
  | .shrCompact => .shrCompact
  | .popcCompact => .popcCompact
  | .movCompact => .movCompact
  | .addFloatCompact => .addFloatCompact
  | .subFloatCompact => .subFloatCompact
  | .mulFloatCompact => .mulFloatCompact
  | .minFloatCompact => .minFloatCompact
  | .maxFloatCompact => .maxFloatCompact
  | .absFloatCompact => .absFloatCompact
  | .negFloatCompact => .negFloatCompact
  | .rcpCompact => .rcpCompact
  | .rsqCompact => .rsqCompact
  | .exp2Compact => .exp2Compact
  | .log2Compact => .log2Compact

/-- How a row of the table is reached: an F64 or F96 encoding, an F32 encoding, a clause header, or none (an event). -/
inductive View where
  | full (op : Op) (f : Fields)
  | compact (op : COp) (c : Compact)
  | header (h : Header)
  | event
  deriving DecidableEq, Repr

/-- The encoded shape of an instruction; an event has none. -/
def Instr.view : Instr → View
  | .add f => .full .add f
  | .addCompact c => .compact .addCompact c
  | .sub f => .full .sub f
  | .subCompact c => .compact .subCompact c
  | .addc f => .full .addc f
  | .subb f => .full .subb f
  | .neg f => .full .neg f
  | .negCompact c => .compact .negCompact c
  | .absI f => .full .absI f
  | .minI f => .full .minI f
  | .minCompact c => .compact .minCompact c
  | .maxI f => .full .maxI f
  | .maxCompact c => .compact .maxCompact c
  | .mul f => .full .mul f
  | .mulCompact c => .compact .mulCompact c
  | .mulh f => .full .mulh f
  | .mad f => .full .mad f
  | .madh f => .full .madh f
  | .mulw f => .full .mulw f
  | .madw f => .full .madw f
  | .sad f => .full .sad f
  | .idp4 f => .full .idp4 f
  | .add64 f => .full .add64 f
  | .sub64 f => .full .sub64 f
  | .neg64 f => .full .neg64 f
  | .mul64 f => .full .mul64 f
  | .lea f => .full .lea f
  | .lea64 f => .full .lea64 f
  | .clamp f => .full .clamp f
  | .avg f => .full .avg f
  | .imad24 f => .full .imad24 f
  | .andB f => .full .andB f
  | .andCompact c => .compact .andCompact c
  | .orB f => .full .orB f
  | .orCompact c => .compact .orCompact c
  | .xorB f => .full .xorB f
  | .xorCompact c => .compact .xorCompact c
  | .notB f => .full .notB f
  | .notCompact c => .compact .notCompact c
  | .andn f => .full .andn f
  | .bitfn f => .full .bitfn f
  | .shl f => .full .shl f
  | .shlCompact c => .compact .shlCompact c
  | .shr f => .full .shr f
  | .shrCompact c => .compact .shrCompact c
  | .rol f => .full .rol f
  | .shl64 f => .full .shl64 f
  | .shr64 f => .full .shr64 f
  | .bfx f => .full .bfx f
  | .bfi f => .full .bfi f
  | .popc f => .full .popc f
  | .popcCompact c => .compact .popcCompact c
  | .clz f => .full .clz f
  | .brev f => .full .brev f
  | .mov f => .full .mov f
  | .movCompact c => .compact .movCompact c
  | .movw f => .full .movw f
  | .sel f => .full .sel f
  | .ext f => .full .ext f
  | .bsel f => .full .bsel f
  | .mov64 f => .full .mov64 f
  | .cmp f => .full .cmp f
  | .cmp64 f => .full .cmp64 f
  | .cmpFloat f => .full .cmpFloat f
  | .classF f => .full .classF f
  | .pcomb f => .full .pcomb f
  | .pmov f => .full .pmov f
  | .pset f => .full .pset f
  | .addFloat f => .full .addFloat f
  | .addFloatCompact c => .compact .addFloatCompact c
  | .subFloat f => .full .subFloat f
  | .subFloatCompact c => .compact .subFloatCompact c
  | .mulFloat f => .full .mulFloat f
  | .mulFloatCompact c => .compact .mulFloatCompact c
  | .fma f => .full .fma f
  | .minFloat f => .full .minFloat f
  | .minFloatCompact c => .compact .minFloatCompact c
  | .maxFloat f => .full .maxFloat f
  | .maxFloatCompact c => .compact .maxFloatCompact c
  | .absFloat f => .full .absFloat f
  | .absFloatCompact c => .compact .absFloatCompact c
  | .negFloat f => .full .negFloat f
  | .negFloatCompact c => .compact .negFloatCompact c
  | .scaleb f => .full .scaleb f
  | .rnd f => .full .rnd f
  | .dot2 f => .full .dot2 f
  | .cpys f => .full .cpys f
  | .frc f => .full .frc f
  | .lerp f => .full .lerp f
  | .fmac f => .full .fmac f
  | .cvt f => .full .cvt f
  | .cvtf f => .full .cvtf f
  | .cvtx f => .full .cvtx f
  | .cvtb f => .full .cvtb f
  | .pack f => .full .pack f
  | .unpk f => .full .unpk f
  | .rcp f => .full .rcp f
  | .rcpCompact c => .compact .rcpCompact c
  | .rsq f => .full .rsq f
  | .rsqCompact c => .compact .rsqCompact c
  | .sqrt f => .full .sqrt f
  | .exp2 f => .full .exp2 f
  | .exp2Compact c => .compact .exp2Compact c
  | .log2 f => .full .log2 f
  | .log2Compact c => .compact .log2Compact c
  | .sin f => .full .sin f
  | .cos f => .full .cos f
  | .tanh f => .full .tanh f
  | .sigm f => .full .sigm f
  | .erf f => .full .erf f
  | .sinpi f => .full .sinpi f
  | .cospi f => .full .cospi f
  | .expm1 f => .full .expm1 f
  | .log1p f => .full .log1p f
  | .macq f => .full .macq f
  | .mrel f => .full .mrel f
  | .mlds f => .full .mlds f
  | .mswap f => .full .mswap f
  | .mmul f => .full .mmul f
  | .mcnt f => .full .mcnt f
  | .cdrain f => .full .cdrain f
  | .cmerge f => .full .cmerge f
  | .cclr f => .full .cclr f
  | .mdrain f => .full .mdrain f
  | .mst f => .full .mst f
  | .mstBank f => .full .mstBank f
  | .mlda f => .full .mlda f
  | .mzero f => .full .mzero f
  | .mwait f => .full .mwait f
  | .mchk f => .full .mchk f
  | .mrd f => .full .mrd f
  | .mwr f => .full .mwr f
  | .crd f => .full .crd f
  | .msave f => .full .msave f
  | .mrest f => .full .mrest f
  | .vote f => .full .vote f
  | .shfl f => .full .shfl f
  | .red f => .full .red f
  | .scan f => .full .scan f
  | .matchL f => .full .matchL f
  | .elect f => .full .elect f
  | .setpart f => .full .setpart f
  | .bra f => .full .bra f
  | .brc f => .full .brc f
  | .brx f => .full .brx f
  | .call f => .full .call f
  | .calli f => .full .calli f
  | .ret f => .full .ret f
  | .exitT f => .full .exitT f
  | .meet f => .full .meet f
  | .nop f => .full .nop f
  | .prefi f => .full .prefi f
  | .launch f => .full .launch f
  | .yield f => .full .yield f
  | .brcx f => .full .brcx f
  | .bari f => .full .bari f
  | .bara f => .full .bara f
  | .bars f => .full .bars f
  | .barx f => .full .barx f
  | .post f => .full .post f
  | .waitC f => .full .waitC f
  | .trap f => .full .trap f
  | .tret f => .full .tret f
  | .sysr f => .full .sysr f
  | .sysw f => .full .sysw f
  | .tinv f => .full .tinv f
  | .cgenReg f => .full .cgenReg f
  | .cgenLive f => .full .cgenLive f
  | .cgenDrop f => .full .cgenDrop f
  | .ld f => .full .ld f
  | .st f => .full .st f
  | .lds f => .full .lds f
  | .sts f => .full .sts f
  | .ldr f => .full .ldr f
  | .str f => .full .str f
  | .ldp f => .full .ldp f
  | .stp f => .full .stp f
  | .fence f => .full .fence f
  | .cmo f => .full .cmo f
  | .hbind f => .full .hbind f
  | .stm f => .full .stm f
  | .gath f => .full .gath f
  | .pref f => .full .pref f
  | .rlck f => .full .rlck f
  | .rlrel f => .full .rlrel f
  | .ldu f => .full .ldu f
  | .atom f => .full .atom f
  | .cas f => .full .cas f
  | .atoms f => .full .atoms f
  | .cass f => .full .cass f
  | .radd f => .full .radd f
  | .raddg f => .full .raddg f
  | .acc f => .full .acc f
  | .kick f => .full .kick f
  | .cancel f => .full .cancel f
  | .clauseHeader h => .header h
  | .regroupPoint _ => .event
  | .yieldExpiry _ => .event
  | .waitEvaluation _ _ => .event
  | .waitTimeout _ _ => .event
  | .budgetPeriod => .event
  | .handlerBudgetExpiry _ _ => .event
  | .emulationTimeout _ _ => .event
  | .loadReturn _ _ => .event
  | .sfuWriteBack _ => .event
  | .engineEntryPerform _ => .event
  | .copyChunk _ _ => .event
  | .instructionFetch _ _ => .event
  | .pageWalk _ _ _ _ => .event
  | .packetAccept _ => .event
  | .packetAck _ => .event
  | .flitCrcFailure _ => .event
  | .linkDeath _ _ => .event
  | .routeLossTimeout _ => .event
  | .hostWrite _ _ _ => .event
  | .hostRead _ _ _ => .event
  | .hostCompletion _ _ _ => .event
  | .generationSweep _ _ => .event
  | .admission _ => .event
  | .workgroupPlacement _ => .event
  | .gridCompletion _ => .event
  | .asyncEntry _ => .event
  | .rlink _ _ => .event
  | .rsync _ _ => .event
  | .runlink _ _ => .event
  | .qdoor _ _ => .event
  | .edoor _ _ => .event
  | .preempt _ => .event
  | .kill _ => .event
  | .resume _ => .event
  | .preemptionDone _ => .event
  | .killDone _ => .event
  | .resumptionDone _ => .event
  | .tlbinv _ _ => .event
  | .contextBind _ => .event
  | .contextRelease _ => .event
  | .contextWrite _ => .event
  | .contextRead _ => .event
  | .apertureWrite _ _ _ _ => .event
  | .registerWrite _ _ _ => .event
  | .pitchCreate => .event
  | .pitchAddUnits => .event
  | .pitchRemoveUnits => .event
  | .drainTimeout => .event
  | .pitchReset => .event
  | .pitchDestroy => .event
  | .rennetImageLoad => .event
  | .firmwareUpdate => .event
  | .sensorSnapshot => .event
  | .logRead => .event
  | .getMeasurements _ => .event
  | .sensorSample _ => .event
  | .dumpComplete _ => .event
  | .bringUp => .event
  | .powerLoss => .event
  | .notAnInstruction _ => .event
  | .scrubComplete _ => .event

/-- An event row: no instruction encodes it (spec/95). -/
def Instr.isEvent (i : Instr) : Bool := i.view == .event

end Sys2Proof
end

