-- ==== Sys2Proof/Machine/Legal.lean ====
section
/-!
DEFINITION. The encoding tables (R131, R136) and the checks of R141 that an encoding alone decides: each `WHY` an
instruction's fields give, by the form of its opcode. The checks that need the thread (WHY 5 and 8 against N, WHY 9,
some of WHY 10) are made when the instruction issues.
-/

namespace Sys2Proof

/-- The OP10 of an opcode (R136). -/
def Op.code : Op → Nat
  | .add => 0x000
  | .sub => 0x001
  | .addc => 0x002
  | .subb => 0x003
  | .neg => 0x004
  | .absI => 0x005
  | .minI => 0x006
  | .maxI => 0x007
  | .mul => 0x008
  | .mulh => 0x009
  | .mad => 0x00A
  | .madh => 0x00B
  | .mulw => 0x00C
  | .madw => 0x00D
  | .sad => 0x00E
  | .idp4 => 0x00F
  | .add64 => 0x010
  | .sub64 => 0x011
  | .neg64 => 0x012
  | .mul64 => 0x013
  | .lea => 0x014
  | .lea64 => 0x015
  | .clamp => 0x016
  | .avg => 0x017
  | .imad24 => 0x018
  | .andB => 0x0C0
  | .orB => 0x0C1
  | .xorB => 0x0C2
  | .notB => 0x0C3
  | .andn => 0x0C4
  | .bitfn => 0x0C5
  | .shl => 0x0C6
  | .shr => 0x0C7
  | .rol => 0x0C8
  | .shl64 => 0x0C9
  | .shr64 => 0x0CA
  | .bfx => 0x0CB
  | .bfi => 0x0CC
  | .popc => 0x0CD
  | .clz => 0x0CE
  | .brev => 0x0CF
  | .mov => 0x0D0
  | .movw => 0x0D1
  | .sel => 0x0D2
  | .ext => 0x0D3
  | .bsel => 0x0D4
  | .mov64 => 0x0D5
  | .cmp => 0x140
  | .cmp64 => 0x141
  | .cmpFloat => 0x142
  | .classF => 0x143
  | .pcomb => 0x144
  | .pmov => 0x145
  | .pset => 0x146
  | .addFloat => 0x180
  | .subFloat => 0x181
  | .mulFloat => 0x182
  | .fma => 0x183
  | .minFloat => 0x184
  | .maxFloat => 0x185
  | .absFloat => 0x186
  | .negFloat => 0x187
  | .scaleb => 0x188
  | .rnd => 0x189
  | .dot2 => 0x18A
  | .cpys => 0x18B
  | .frc => 0x18C
  | .lerp => 0x18D
  | .fmac => 0x190
  | .cvt => 0x220
  | .cvtf => 0x221
  | .cvtx => 0x222
  | .cvtb => 0x223
  | .pack => 0x224
  | .unpk => 0x225
  | .rcp => 0x280
  | .rsq => 0x281
  | .sqrt => 0x282
  | .exp2 => 0x283
  | .log2 => 0x284
  | .sin => 0x285
  | .cos => 0x286
  | .tanh => 0x287
  | .sigm => 0x288
  | .erf => 0x289
  | .sinpi => 0x28A
  | .cospi => 0x28B
  | .expm1 => 0x28C
  | .log1p => 0x28D
  | .macq => 0x2A0
  | .mrel => 0x2A1
  | .mlds => 0x2A2
  | .mswap => 0x2A3
  | .mmul => 0x2A4
  | .mcnt => 0x2A5
  | .cdrain => 0x2A6
  | .cmerge => 0x2A7
  | .cclr => 0x2A8
  | .mdrain => 0x2A9
  | .mst => 0x2AA
  | .mstBank => 0x2AA
  | .mlda => 0x2AB
  | .mzero => 0x2AC
  | .mwait => 0x2AD
  | .mchk => 0x2AE
  | .mrd => 0x2AF
  | .mwr => 0x2B0
  | .crd => 0x2B1
  | .msave => 0x2B2
  | .mrest => 0x2B3
  | .vote => 0x2C0
  | .shfl => 0x2C1
  | .red => 0x2C2
  | .scan => 0x2C3
  | .matchL => 0x2C4
  | .elect => 0x2C5
  | .setpart => 0x2C6
  | .bra => 0x300
  | .brc => 0x301
  | .brx => 0x302
  | .call => 0x303
  | .calli => 0x304
  | .ret => 0x305
  | .exitT => 0x306
  | .meet => 0x307
  | .nop => 0x308
  | .prefi => 0x309
  | .launch => 0x30A
  | .yield => 0x30B
  | .brcx => 0x30C
  | .bari => 0x340
  | .bara => 0x342
  | .bars => 0x341
  | .barx => 0x345
  | .post => 0x344
  | .waitC => 0x343
  | .trap => 0x3F0
  | .tret => 0x3F1
  | .sysr => 0x3F2
  | .sysw => 0x3F3
  | .tinv => 0x3F4
  | .cgenReg => 0x3F5
  | .cgenLive => 0x3F5
  | .cgenDrop => 0x3F5
  | .ld => 0x380
  | .st => 0x381
  | .lds => 0x382
  | .sts => 0x383
  | .ldr => 0x384
  | .str => 0x385
  | .ldp => 0x386
  | .stp => 0x387
  | .fence => 0x388
  | .cmo => 0x389
  | .hbind => 0x38A
  | .stm => 0x38B
  | .gath => 0x38C
  | .pref => 0x38D
  | .rlck => 0x38E
  | .rlrel => 0x38F
  | .ldu => 0x390
  | .atom => 0x3C0
  | .cas => 0x3C1
  | .atoms => 0x3C2
  | .cass => 0x3C3
  | .radd => 0x3C4
  | .raddg => 0x3C5
  | .acc => 0x3C6
  | .kick => 0x3E0
  | .cancel => 0x3E1

/-- The OP8 of a compact opcode (R131). -/
def COp.code : COp → Nat
  | .addCompact => 0x01
  | .subCompact => 0x02
  | .negCompact => 0x0C
  | .minCompact => 0x03
  | .maxCompact => 0x04
  | .mulCompact => 0x05
  | .andCompact => 0x06
  | .orCompact => 0x07
  | .xorCompact => 0x08
  | .notCompact => 0x0B
  | .shlCompact => 0x09
  | .shrCompact => 0x0A
  | .popcCompact => 0x0E
  | .movCompact => 0x0D
  | .addFloatCompact => 0x10
  | .subFloatCompact => 0x11
  | .mulFloatCompact => 0x12
  | .minFloatCompact => 0x13
  | .maxFloatCompact => 0x14
  | .absFloatCompact => 0x16
  | .negFloatCompact => 0x15
  | .rcpCompact => 0x18
  | .rsqCompact => 0x19
  | .exp2Compact => 0x1A
  | .log2Compact => 0x1B

/-- The F64 opcode a compact opcode stands for (R131). -/
def COp.op : COp → Op
  | .addCompact => .add
  | .subCompact => .sub
  | .negCompact => .neg
  | .minCompact => .minI
  | .maxCompact => .maxI
  | .mulCompact => .mul
  | .andCompact => .andB
  | .orCompact => .orB
  | .xorCompact => .xorB
  | .notCompact => .notB
  | .shlCompact => .shl
  | .shrCompact => .shr
  | .popcCompact => .popc
  | .movCompact => .mov
  | .addFloatCompact => .addFloat
  | .subFloatCompact => .subFloat
  | .mulFloatCompact => .mulFloat
  | .minFloatCompact => .minFloat
  | .maxFloatCompact => .maxFloat
  | .absFloatCompact => .absFloat
  | .negFloatCompact => .negFloat
  | .rcpCompact => .rcp
  | .rsqCompact => .rsq
  | .exp2Compact => .exp2
  | .log2Compact => .log2

/-- A unary compact opcode, which has its own source field (R130, R131). -/
def COp.unary : COp → Bool
  | .addCompact => false
  | .subCompact => false
  | .negCompact => true
  | .minCompact => false
  | .maxCompact => false
  | .mulCompact => false
  | .andCompact => false
  | .orCompact => false
  | .xorCompact => false
  | .notCompact => true
  | .shlCompact => false
  | .shrCompact => false
  | .popcCompact => true
  | .movCompact => true
  | .addFloatCompact => false
  | .subFloatCompact => false
  | .mulFloatCompact => false
  | .minFloatCompact => false
  | .maxFloatCompact => false
  | .absFloatCompact => true
  | .negFloatCompact => true
  | .rcpCompact => true
  | .rsqCompact => true
  | .exp2Compact => true
  | .log2Compact => true

/-- The fields of the F64 form that a compact form has the effect of (R130). -/
def Compact.expand (unary : Bool) (c : Compact) : Fields :=
  { fmt := .f32, s := c.s, g := c.g, d := c.d7.zeroExtend 9,
    a := if unary then c.a7.zeroExtend 9 else c.d7.zeroExtend 9,
    b := if unary then 0 else c.a7.zeroExtend 9,
    c := 0, m := c.m3.zeroExtend 11 <<< 5 }

/-- What a form does with one 9-bit field. -/
inductive Use where
  /-- not used: must be 0 (WHY 6) -/
  | none
  /-- names `n` consecutive registers, the first a multiple of `n` (WHY 8) -/
  | reg (n : Nat)
  /-- an even predicate 0–10 with bits [8:4] zero (WHY 10) -/
  | pred
  /-- as `pred`, where bits [8:4] are unused bits (WHY 6, R270) -/
  | predM
  /-- only the low `n` bits are used (WHY 6) -/
  | part (n : Nat)
  /-- every bit is used, as the entry gives -/
  | any
  deriving DecidableEq, Repr

/-- The form of an opcode: the use of D, A, B and C; the U and IM bits (UA, UB, UC, IM, UD from bit 0) that it allows
and requires; those its range names (a set bit it does not allow is WHY 7 if named, else WHY 1); the immediate slot
(0 none, 1 A, 2 B); and the other bits of M11 that it uses. -/
structure Form where
  d : Use := .none
  a : Use := .none
  b : Use := .none
  c : Use := .none
  may   : BitVec 5 := 0
  must  : BitVec 5 := 0
  named : BitVec 5 := 0b11111
  slot  : Nat := 0
  mm    : BitVec 11 := 0
  deriving DecidableEq, Repr

namespace Fields

/-- UA (R126). -/
def ua (f : Fields) : Bool := f.m.getLsbD 0
/-- UB (R126). -/
def ub (f : Fields) : Bool := f.m.getLsbD 1
/-- UC (R126). -/
def uc (f : Fields) : Bool := f.m.getLsbD 2
/-- IM (R126). -/
def im (f : Fields) : Bool := f.m.getLsbD 3
/-- UD (R126). -/
def ud (f : Fields) : Bool := f.m.getLsbD 4
/-- OPM, instruction bits [63:58] (R126). -/
def opm (f : Fields) : BitVec 6 := f.m.extractLsb' 5 6
/-- TYPE of the integer range (R127). -/
def ty (f : Fields) : Nat := (f.m.extractLsb' 5 3).toNat
/-- `.SAT` of the integer range (R127). -/
def sat (f : Fields) : Bool := f.m.getLsbD 8
/-- OPM[4]. -/
def opm4 (f : Fields) : Bool := f.m.getLsbD 9
/-- OPM[5]. -/
def opm5 (f : Fields) : Bool := f.m.getLsbD 10
/-- TYPE of the float range (R127). -/
def fty (f : Fields) : Nat := (f.m.extractLsb' 5 2).toNat
/-- RM of the float range (R127). -/
def rm (f : Fields) : Nat := (f.m.extractLsb' 7 2).toNat
/-- MRM, instruction bits [55:54] (R204). -/
def mrm (f : Fields) : Nat := (f.m.extractLsb' 1 2).toNat
/-- MRH, instruction bits [63:57] (R204). -/
def mrh (f : Fields) : BitVec 7 := f.m.extractLsb' 4 7
/-- SUB, instruction bits [59:58] (R215, R232). -/
def sub (f : Fields) : Nat := (f.m.extractLsb' 5 2).toNat
/-- SP, instruction bits [63:60] (R215). -/
def sp (f : Fields) : Nat := (f.m.extractLsb' 7 4).toNat
/-- SCOPE of the synchronisation and atomic opcodes, instruction bits [60:58] (R223, R250). -/
def scope (f : Fields) : Nat := (f.m.extractLsb' 5 3).toNat
/-- X, instruction bit [61] (R223). -/
def x (f : Fields) : Bool := f.m.getLsbD 8
/-- SZ, instruction bits [60:58] (R239). -/
def sz (f : Fields) : Nat := (f.m.extractLsb' 5 3).toNat
/-- PIX, instruction bits [63:61] (R239). -/
def pix (f : Fields) : Nat := (f.m.extractLsb' 8 3).toNat
/-- ORD of the atomics, instruction bits [62:61] (R250). -/
def ord (f : Fields) : Nat := (f.m.extractLsb' 8 2).toNat
/-- NR, instruction bit [63] (R250). -/
def nr (f : Fields) : Bool := f.m.getLsbD 10
/-- DIR or CV, instruction bit [58] (R271). -/
def dirCv (f : Fields) : Bool := f.m.getLsbD 5
/-- RB, instruction bit [59] (R271). -/
def rb (f : Fields) : Bool := f.m.getLsbD 6
/-- SCOPE of `MWAIT`, instruction bits [62:60] (R271). -/
def mscope (f : Fields) : Nat := (f.m.extractLsb' 7 3).toNat
/-- TS, instruction bit [63] (R271). -/
def ts (f : Fields) : Bool := f.m.getLsbD 10
/-- The F96 literal, if there is one (R122). -/
def lit (f : Fields) : Option Word := match f.fmt with | .f96 l => some l | _ => none
/-- C9 as a number. -/
def cN (f : Fields) : Nat := f.c.toNat
/-- C9[2:0], SCOPE of the load and store forms and of `FENCE` (R240, R255). -/
def cScope (f : Fields) : Nat := f.c.toNat % 8
/-- C9[4:3], ORD of the load and store forms and the kind of `FENCE` (R240, R255). -/
def cOrd (f : Fields) : Nat := f.c.toNat / 8 % 4
/-- C9[6:5], CH (R240). -/
def cCh (f : Fields) : Nat := f.c.toNat / 32 % 4

end Fields

/-- The bytes of an access by SZ (R239). -/
def szBytes : Nat → Nat
  | 0 | 1 => 1
  | 2 | 3 => 2
  | 4 => 4
  | 5 => 8
  | _ => 16

/-- The registers an access of size SZ names (R240). -/
def szRegs : Nat → Nat
  | 5 => 2
  | 6 => 4
  | _ => 1

/-- A 64-bit atomic operation (R251). -/
def aop64 (n : Nat) : Bool := n == 17 || n == 18

/-- The special registers of R236 and R464, by number: width in words, or none. -/
def sysRegWords (n : Nat) : Option Nat :=
  if n ≤ 0x06 then some 1
  else if 0x08 ≤ n ∧ n ≤ 0x0A then some 1
  else if 0x0C ≤ n ∧ n ≤ 0x0E then some 1
  else if 0x10 ≤ n ∧ n ≤ 0x16 then some 1
  else if 0x18 ≤ n ∧ n ≤ 0x1B then some 2
  else if n = 0x1C then some 1
  else if 0x20 ≤ n ∧ n ≤ 0x24 then some 1
  else if n = 0x25 ∨ n = 0x26 then some 2
  else if 0x28 ≤ n ∧ n ≤ 0x2D then some 1
  else if 0x30 ≤ n ∧ n ≤ 0x5F then some 1
  else if n = 0x60 then some 2
  else if n = 0x61 then some 1
  else if 0x62 ≤ n ∧ n ≤ 0x64 then some 2
  else if n = 0x68 then some 1
  else if n = 0x69 then some 2
  else if n = 0x6A then some 1
  else if n = 0x6B then some 2
  else none

/-- A one-source ALU form (R126). -/
def Form.un (n : Nat) (mm : BitVec 11) : Form :=
  { d := .reg n, a := .reg n, may := 0b11001, slot := 1, mm := mm }
/-- A two-source ALU form (R126). -/
def Form.bin (mm : BitVec 11) : Form :=
  { d := .reg 1, a := .reg 1, b := .reg 1, may := 0b11011, slot := 2, mm := mm }
/-- A three-source ALU form (R126). -/
def Form.tern (mm : BitVec 11) : Form :=
  { d := .reg 1, a := .reg 1, b := .reg 1, c := .reg 1, may := 0b11111, slot := 2, mm := mm }
/-- A compare form, which writes a predicate pair (R177, R190). -/
def Form.cmp (n : Nat) (mm : BitVec 11) : Form :=
  { d := .pred, a := .reg n, b := .reg n, may := 0b01011, slot := 2, mm := mm }
/-- A form with no operand at all. -/
def Form.bare : Form := {}

/-- OPM whole. -/
def mmOpm : BitVec 11 := 0b11111100000
/-- SCOPE, three bits (R223). -/
def mmScope : BitVec 11 := 0b00011100000

/-- The source type codes of `CVT` that are pairs (R192). -/
def cvtWords (code : Nat) : Nat := if code = 6 ∨ code = 7 then 2 else 1

/-- The form of each opcode (the entry of each in its chapter). -/
def Op.form (op : Op) (f : Fields) : Form :=
  match op with
  | .add | .sub | .minI | .maxI | .mul | .mulh | .avg => .bin mmOpm
  | .neg | .absI => .un 1 mmOpm
  | .mad | .madh | .sad | .idp4 | .clamp | .imad24 => .tern mmOpm
  | .addc | .subb => { Form.bin mmOpm with c := .part 8, may := 0b11011 }
  | .mulw => { Form.bin mmOpm with d := .reg 2 }
  | .madw => { Form.tern mmOpm with d := .reg 2, c := .reg 2 }
  | .add64 | .sub64 | .mul64 => { Form.bin mmOpm with d := .reg 2, a := .reg 2, b := .reg 2 }
  | .neg64 => .un 2 mmOpm
  | .lea => .bin mmOpm
  | .lea64 => { Form.bin mmOpm with d := .reg 2, a := .reg 2 }
  | .andB | .orB | .xorB | .andn | .shl | .shr | .rol | .bfx => .bin mmOpm
  | .notB | .popc | .clz | .brev | .mov | .ext => .un 1 mmOpm
  | .bitfn => { Form.bin mmOpm with c := .any }
  | .shl64 | .shr64 => { Form.bin mmOpm with d := .reg 2, a := .reg 2 }
  | .bfi | .bsel => .tern mmOpm
  | .movw => { Form.un 1 mmOpm with may := 0b11000 }
  | .sel => { Form.bin mmOpm with c := .part 4 }
  | .mov64 => .un 2 mmOpm
  | .cmp => .cmp 1 mmOpm
  | .cmp64 => .cmp 2 mmOpm
  | .cmpFloat | .classF | .pset => .cmp 1 mmOpm
  | .pcomb => { d := .part 4, a := .part 8, b := .part 8, c := .part 4, mm := mmOpm }
  | .pmov =>
      if f.opm4 then { a := .reg 1, may := 0b01001, slot := 1, mm := mmOpm }
      else { d := .reg 1, may := 0b10000, mm := mmOpm }
  | .addFloat | .subFloat | .mulFloat | .minFloat | .maxFloat | .scaleb | .cpys | .pack => .bin mmOpm
  | .fma | .dot2 | .lerp | .fmac => .tern mmOpm
  | .absFloat | .negFloat | .rnd | .frc | .unpk => .un 1 mmOpm
  | .cvt => { d := .reg (cvtWords (f.cN / 16 % 16)), a := .reg (cvtWords (f.cN % 16)), c := .part 8,
              may := 0b11001, slot := 1, mm := mmOpm }
  | .cvtf | .cvtb => .bin mmOpm
  | .cvtx => .tern mmOpm
  | .rcp | .rsq | .sqrt | .exp2 | .log2 | .sin | .cos | .tanh | .sigm | .erf | .sinpi | .cospi | .expm1 | .log1p =>
      .un 1 mmOpm
  -- matrix (R270): unnamed bits of M11 are WHY 1
  | .macq | .mchk => { d := .predM, named := 0 }
  | .mrel | .mswap => { named := 0 }
  | .mlds => { a := .part 4, b := .reg 1, c := .reg 1, may := 0b00110, named := 0 }
  | .mmul => { d := .part 4, a := .part 4, b := .reg 1, c := .reg 1, may := 0b00110, named := 0, mm := 0b10000100000 }
  | .mcnt => { d := .part 1, a := .part 4, b := .reg 1, c := .reg 1, may := 0b00110, named := 0, mm := 0b10000100000 }
  | .cdrain => { d := .part 2, named := 0, mm := 0b10000000000 }
  | .cmerge => { b := .reg 1, may := 0b00010, named := 0, mm := 0b10000000000 }
  | .cclr | .mzero => { d := .part 2, named := 0 }
  | .mdrain | .mst => { d := .part 2, a := .part 4, b := .reg 1, c := .reg 1, may := 0b00110, named := 0, mm := 0b00001100000 }
  | .mstBank => { d := .part 3, b := .reg 1, may := 0b00010, named := 0 }
  | .mlda => { d := .part 2, a := .part 4, b := .reg 1, c := .reg 1, may := 0b00110, named := 0, mm := 0b00000100000 }
  | .mwait => { named := 0, mm := 0b01110000000 }
  | .mrd => { d := .reg 1, a := .part 2, b := .reg 1, may := 0b10010, named := 0 }
  | .mwr => { a := .part 2, b := .reg 1, c := .reg 1, may := 0b00110, named := 0 }
  | .crd => { d := .reg 1, b := .reg 1, may := 0b10010, named := 0 }
  | .msave | .mrest => { b := .reg 2, may := 0b00010, named := 0 }
  -- lane (R215)
  | .vote => { d := if f.sub = 3 then .reg 1 else .pred, a := .part 4, c := .any,
               may := if f.sub = 3 then 0b10000 else 0, named := 0b11011, mm := mmOpm }
  | .shfl => { d := .reg 1, a := .reg 1, b := .reg 1, c := .any, may := 0b11011, named := 0b11011, slot := 2, mm := mmOpm }
  | .red | .scan => { d := .reg 1, a := .reg 1, b := .part 4, c := .any, may := 0b10001, named := 0b11011, mm := mmOpm }
  | .matchL => { d := .reg 1, a := .reg (if f.sub = 1 then 2 else 1), c := .any, may := 0b10001, named := 0b11011, mm := mmOpm }
  | .elect => { d := .pred, c := .any, named := 0b11011, mm := mmOpm }
  | .setpart => { a := .part 3, named := 0b11011, mm := 0b11111111011 }
  -- control (R204)
  | .bra | .call => { d := .any, b := .any, c := .any, named := 0b00001, mm := 0b11111110110 }
  | .brc | .brcx => { d := .any, a := .part 4, b := .any, c := .any, named := 0b00001, mm := 0b11111110110 }
  | .brx | .calli => { d := .any, a := .reg 2, may := 0b00001, named := 0b00001, mm := 0b11111110110 }
  | .meet => { d := .any, named := 0b00001, mm := 0b11111110110 }
  | .ret | .exitT | .nop | .yield | .barx | .tret => { mm := 0b11111111111 }
  | .prefi => { d := .part 4, b := .any, c := .any, named := 0b00001, mm := 0b11111110110 }
  | .launch => { d := .reg 1, a := .reg 2, b := .reg 2, may := 0b10011, must := 0b10011 }
  -- synchronisation (R223)
  | .bari => { a := .reg 1, b := .reg 1, may := 0b01011, must := 0b00001, slot := 2, mm := mmScope }
  | .bara | .bars => { a := .reg 1, b := .reg 1, c := if f.x then .reg 1 else .none,
                       may := if f.x then 0b01111 else 0b01011, must := if f.x then 0b00101 else 0b00001,
                       slot := 2, mm := 0b00111100000 }
  | .post => { a := .reg 1, b := .reg 1, may := 0b01011, slot := 2, mm := mmScope }
  | .waitC => { d := .reg 1, a := .reg 1, b := .reg 1, may := 0b11011, must := 0b00001, slot := 2, mm := 0b00111100000 }
  -- system (R232)
  | .trap => { a := .any }
  | .sysr => { d := .reg ((sysRegWords f.b.toNat).getD 1), b := .any, may := 0b10000 }
  | .sysw => { a := .reg ((sysRegWords f.b.toNat).getD 1), b := .any, may := 0b01001, slot := 1 }
  | .tinv => { a := .reg 2, b := .reg 1, may := 0b00011, must := 0b00011 }
  | .cgenReg => { d := .reg 1, a := .reg 2, b := .reg 1, c := .reg 1, may := 0b10111, must := 0b10111, mm := 0b00001100000 }
  | .cgenLive | .cgenDrop => { d := .reg 1, a := .reg 1, c := .reg 1, may := 0b10101, must := 0b10101, mm := 0b00001100000 }
  -- memory (R239, R240)
  | .ld | .st => { d := .reg (szRegs f.sz), a := .reg 2, b := .reg 1, c := .part 7, may := 0b11011, named := 0b11011,
                   slot := 2, mm := mmScope }
  | .lds | .sts | .ldr | .str =>
      { d := .reg (szRegs f.sz), a := .reg 1, b := .reg 1, c := .part 7, may := 0b11011, named := 0b11011,
        slot := 2, mm := mmScope }
  | .ldp | .stp => { d := .reg (szRegs f.sz), a := .any, b := .reg 1, c := .part 7, may := 0b11010, named := 0b11011,
                     slot := 2, mm := 0b11111100000 }
  | .fence => { c := .part 5, named := 0 }
  | .cmo => { a := .reg (if f.cN % 4 = 3 then 1 else 2), b := .reg 1, c := .part 4, may := 0b01011, must := 0b00001, slot := 2 }
  | .hbind => { d := .part 4, a := .reg (if f.cN % 2 = 1 then 1 else 2), c := .part 1, may := 0b00001, must := 0b00001 }
  | .stm => { d := .reg (szRegs f.sz), a := .reg 1, b := .reg 1, c := .part 6, may := 0b11011, named := 0b11011,
              slot := 2, mm := mmScope }
  | .gath => { d := .reg 1, a := .reg 2, b := .part 3, c := .reg 1, may := 0b10100, must := 0b10100 }
  | .pref => { d := .part 2, a := .reg 2, b := .reg 1, may := 0b01011, named := 0b11011, slot := 2, mm := mmScope }
  | .rlck => { d := .reg 1, a := .reg (if f.cN / 2 % 2 = 1 then 1 else 2), b := .reg 1, c := .part 2,
               may := 0b11011, must := 0b10001, slot := 2 }
  | .rlrel => { a := .reg 1, may := 0b01001, slot := 1 }
  | .ldu => { d := .reg 1, a := .reg 2, b := .reg 1, c := .any, may := 0b11011, must := 0b10001, named := 0b11011,
              slot := 2, mm := mmScope }
  -- atomics (R250)
  | .atom => { d := if f.nr then .none else .reg (if aop64 (f.cN % 32) then 2 else 1), a := .reg 2,
               b := .reg (if aop64 (f.cN % 32) then 2 else 1), c := .part 5, may := 0b11011, slot := 2, mm := mmOpm }
  | .atoms => { d := if f.nr then .none else .reg (if aop64 (f.cN % 32) then 2 else 1), a := .reg 1,
                b := .reg (if aop64 (f.cN % 32) then 2 else 1), c := .part 5, may := 0b11011, slot := 2, mm := mmOpm }
  | .cas => { d := if f.nr then .none else .reg (if f.im then 2 else 1), a := .reg 2, b := .reg (if f.im then 2 else 1),
              c := .reg (if f.im then 2 else 1), may := 0b11111, mm := mmOpm }
  | .cass => { d := if f.nr then .none else .reg (if f.im then 2 else 1), a := .reg 1, b := .reg (if f.im then 2 else 1),
               c := .reg (if f.im then 2 else 1), may := 0b11111, mm := mmOpm }
  | .radd => { d := if f.ud then .reg 1 else .any, a := .reg 1, b := .reg (if f.cN % 8 = 4 then 2 else 1), c := .any,
               may := 0b11011, slot := 2, mm := 0b01111100000 }
  | .raddg => { d := if f.ud then .reg 1 else .any, a := .reg 2, b := .reg (if f.cN % 8 = 4 then 2 else 1), c := .any,
                may := 0b11011, slot := 2, mm := 0b01111100000 }
  | .acc => { d := .part 4, a := .part 4, b := .part 2, c := .reg 1, may := 0b00100, must := 0b00100, mm := 0b11111111011 }
  | .kick => { d := .reg 1, a := .reg 1, b := .reg 1, may := 0b11011, must := 0b10001, slot := 2 }
  | .cancel => { d := .reg 1, a := .part 2, may := 0b11000, must := 0b11000 }

/-- `[w]` when the condition holds: one failed check. -/
def failsIf (c : Bool) (w : Nat) : List Nat := if c then [w] else []

/-- The U or IM bit set for a field, by the field's place (0 A, 1 B, 2 C, 4 D). -/
def uBit (f : Fields) (k : Nat) : Bool := f.m.getLsbD k

/-- The checks of one field (WHY 5, 6, 8, 10), `imm` when the field is the immediate slot in use. -/
def fieldWhys (u : Use) (x : BitVec 9) (uni imm : Bool) : List Nat :=
  match u with
  | .none => failsIf (x != 0) 6
  | .reg n =>
      if imm then [] else
        failsIf (uni && x.toNat / 64 != 0) 5 ++ failsIf (x.toNat % n != 0) 8
  | .pred => failsIf (x.toNat > 10 || x.toNat % 2 != 0) 10
  | .predM => failsIf (x.toNat / 16 != 0) 6 ++ failsIf (x.toNat % 16 > 10 || x.toNat % 2 != 0) 10
  | .part n => failsIf (x.toNat / 2 ^ n != 0) 6
  | .any => []

/-- An even predicate code or 15 for none (R164, R215). -/
def evenOrNone (n : Nat) : Bool := n == 15 || (n % 2 == 0 && n ≤ 10)

/-- The opcodes that accept F96 with a literal of their entry's use (the asterisks of R136). -/
def Op.star : Op → Bool
  | .bra | .brc | .call | .prefi | .ld | .st | .lds | .sts | .ldp | .stp | .pref => true
  | _ => false

/-- The control forms whose literal is the target offset (R204). -/
def Op.litIsTarget : Op → Bool
  | .bra | .brc | .call | .prefi => true
  | _ => false

/-- The privileged opcodes of R136 (R137). -/
def Op.privileged : Op → Bool
  | .msave | .mrest | .tinv | .cgenReg | .cgenLive | .cgenDrop => true
  | _ => false

/-- F96 acceptance (R128, R141 WHY 3). -/
def f96Whys (op : Op) (fm : Form) (f : Fields) : List Nat :=
  match f.fmt with
  | .f96 _ =>
      if op.litIsTarget then failsIf (f.b != 0 || f.c != 0) 6
      else if op.code < 0x2A0 || op.star then
        failsIf (!f.im) 3 ++ failsIf (f.im && ((fm.slot == 1 && f.a != 0) || (fm.slot == 2 && f.b != 0))) 3
      else [3]
  | _ => []

/-- A scope and order pair of the load and store forms (R240). -/
def ordWhys (f : Fields) (pad : Bool) : List Nat :=
  failsIf (f.cScope == 7) 1 ++ failsIf (f.cOrd ≥ 2) 1 ++ failsIf (f.cOrd == 0 && f.cScope != 0) 1 ++
    failsIf (f.cCh == 3 || (pad && f.cCh != 0)) 1

/-- SCOPE and ORD of the atomics (R250). -/
def atomWhys (f : Fields) : List Nat :=
  failsIf (f.scope == 7) 1 ++ failsIf (f.ord == 0 && f.scope != 0) 1 ++
    failsIf (f.nr && (f.d != 0 || f.ud)) 6

/-- SP and the member mask of the lane instructions (R215). -/
def laneWhys (f : Fields) : List Nat :=
  failsIf (!evenOrNone f.sp) 10 ++
    failsIf (f.c.getLsbD 8 && f.cN % 256 != 0) 6 ++ failsIf (!f.c.getLsbD 8 && f.cN / 64 != 0) 5

/-- MRM and the meeting offset of the control forms (R204). -/
def mrmWhys (f : Fields) : List Nat :=
  failsIf (f.mrm == 3) 1 ++ failsIf (f.mrm != 2 && (f.d != 0 || f.mrh != 0)) 6

/-- An operand B that must be uniform or an immediate (WHY 7). -/
def uniOrImm (f : Fields) : List Nat := failsIf (!f.ub && !f.im) 7

/-- The checks that each entry adds to its form. -/
def Op.extra (op : Op) (f : Fields) : List Nat :=
  let t := f.ty
  let o := f.opm.toNat
  match op with
  | .add | .sub | .neg | .sad | .mul | .mad => failsIf (t > 5 || o / 16 != 0) 1
  | .minI | .maxI | .clamp => failsIf (t > 5 || o / 8 != 0) 1
  | .absI => failsIf (t % 2 != 0 || t > 4 || o / 16 != 0) 1
  | .avg => failsIf (t > 5 || f.sat || f.opm5) 1
  | .addc | .subb =>
      failsIf (o != 1) 1 ++ failsIf (f.ud && f.cN / 16 % 16 != 15) 7 ++
        failsIf (12 ≤ f.cN % 16 && f.cN % 16 ≤ 14) 10 ++ failsIf (!evenOrNone (f.cN / 16 % 16)) 10
  | .mulh | .madh | .mulw | .madw => failsIf (t > 1 || f.sat || f.opm5 || (f.opm4 && t == 1)) 1
  | .idp4 => failsIf ((t != 4 && t != 5) || f.opm5 || (f.opm4 && t == 5)) 1
  | .imad24 => failsIf (o != 0) 1
  | .add64 | .sub64 | .neg64 => failsIf (t > 1 || o / 16 != 0) 1
  | .mul64 | .cmp64 => failsIf (t > 1 || (op == .mul64 && o / 8 != 0) || (op == .cmp64 && o / 8 > 5)) 1
  | .lea => failsIf (o / 8 != 0) 1
  | .lea64 => failsIf (f.sat || f.opm5) 1
  | .andB | .orB | .xorB | .notB | .andn | .shl | .rol | .shl64 | .bfi | .popc | .clz | .brev | .mov | .movw
  | .bsel | .mov64 | .pset => failsIf (o != 0) 1
  | .shr | .shr64 | .bfx => failsIf (o > 1) 1
  | .bitfn => []
  | .sel => failsIf (o != 0) 1 ++ failsIf (f.cN % 16 > 11) 10
  | .ext => failsIf (t < 2 || t > 5 || o / 8 != 0) 1
  | .cmp => failsIf (t > 5 || o / 8 > 5) 1
  | .pcomb =>
      failsIf (o != 0 && o != 16) 6 ++ failsIf (f.d.toNat % 16 > 11 || (f.opm4 && f.d.toNat % 2 != 0)) 10 ++
        failsIf ([f.a, f.b, f.c].any fun x => 12 ≤ x.toNat % 16 && x.toNat % 16 ≤ 14) 10
  | .pmov => failsIf (o != 0 && o != 16) 1
  | .addFloat | .subFloat | .mulFloat | .fma => failsIf (o / 16 != 0) 1
  | .minFloat | .maxFloat => failsIf f.opm5 1
  | .absFloat | .negFloat | .cpys => failsIf (o / 16 != 0) 1
  | .scaleb | .lerp | .frc => failsIf (f.fty == 3 || o / 16 != 0) 1
  | .rnd => failsIf (f.fty == 3 || f.opm5) 1
  | .dot2 => failsIf (f.fty < 2 || o / 16 != 0) 1
  | .fmac => failsIf (f.fty != 0 || o / 16 != 0) 1
  | .cmpFloat => failsIf (f.fty == 3 || (f.opm5 && [1, 6, 7].contains (o / 4 % 8))) 1
  | .classF => failsIf (f.fty == 3 || o / 4 != 0) 1
  | .cvt =>
      failsIf (o / 8 != 0 || f.cN % 16 > 10 || f.cN / 16 % 16 > 10 ||
        (o / 4 % 2 == 1 && f.cN % 16 ≥ 8 && f.cN / 16 % 16 < 8)) 1
  | .cvtf => []
  | .cvtx => failsIf f.opm5 1
  | .cvtb => failsIf (o / 8 != 0) 1 ++ uniOrImm f
  | .pack => failsIf (f.fty == 0 || f.fty == 3 || f.opm5) 1
  | .unpk => failsIf (f.fty == 0 || f.fty == 3 || f.rm != 0 || f.opm5) 1
  | .sqrt => failsIf (f.fty == 3 || o / 16 != 0) 1
  | .rcp | .rsq | .exp2 | .log2 | .sin | .cos | .tanh | .sigm | .erf | .sinpi | .cospi | .expm1 | .log1p =>
      failsIf (f.fty == 3 || o / 4 != 0) 1
  | .macq | .mchk | .mrel | .mswap | .mlds | .mmul | .mcnt | .cdrain | .cmerge | .cclr | .mzero | .mdrain | .mst
  | .mlda | .mrd | .mwr | .crd | .msave | .mrest => []
  | .mstBank => failsIf (f.d.toNat % 4 != 0 || !f.d.getLsbD 2) 1
  | .mwait => failsIf (f.mscope < 2 || f.mscope == 7) 1
  | .vote => failsIf (f.a.toNat % 16 > 11) 10 ++ laneWhys f
  | .shfl => laneWhys f
  | .red => failsIf (f.b.toNat % 16 > 10 || f.sub != 0) 1 ++ laneWhys f
  | .scan => failsIf (f.b.toNat % 16 > 10 || f.sub > 1) 1 ++ laneWhys f
  | .matchL => failsIf (f.sub > 1) 1 ++ laneWhys f
  | .elect => failsIf (f.sub != 0) 1 ++ laneWhys f
  | .setpart =>
      failsIf (f.m != 0) 6 ++ failsIf (f.g != 15 && f.g.toNat < 12) 10 ++
        failsIf (f.a.toNat % 8 == 0 || f.a.toNat % 8 > 5) 10
  | .bra | .call | .brx | .calli => mrmWhys f
  | .brc => mrmWhys f ++ failsIf (f.a.toNat % 16 > 11) 10
  | .brcx => failsIf (f.mrm != 0) 1 ++ failsIf (f.a.toNat % 16 > 11) 10
  | .meet => failsIf (f.mrm == 0) 1 ++ mrmWhys f
  | .prefi => failsIf (f.mrm != 0 || f.mrh != 0) 6
  | .ret | .exitT | .nop | .yield | .barx => failsIf (f.m != 0) 6
  | .tret => failsIf (f.m != 0) 6 ++ failsIf (f.g != 15 && f.g.toNat < 12) 10
  | .launch => []
  | .bari => failsIf (f.scope == 7) 1 ++ uniOrImm f
  | .bara | .bars => failsIf (f.scope == 7 || f.scope < 2) 1
  | .post => failsIf (f.scope == 7 || f.scope < 3) 1
  | .waitC => failsIf (f.scope == 7) 1 ++ uniOrImm f
  | .trap => []
  | .sysr | .sysw => failsIf ((sysRegWords f.b.toNat).isNone) 10
  | .tinv => []
  | .cgenReg => failsIf (f.sub != 0) 1
  | .cgenLive => failsIf (f.sub != 1) 1
  | .cgenDrop => failsIf (f.sub != 2) 1
  | .ld | .ldp => failsIf (f.sz == 7) 1 ++ ordWhys f false
  | .lds | .ldr => failsIf (f.sz == 7) 1 ++ ordWhys f true
  | .st | .stp => failsIf (f.sz == 7 || f.sz == 1 || f.sz == 3) 1 ++ ordWhys f false
  | .sts | .str => failsIf (f.sz == 7 || f.sz == 1 || f.sz == 3) 1 ++ ordWhys f true
  | .stm => failsIf (f.sz == 7 || f.sz == 1 || f.sz == 3) 1 ++ failsIf (f.cN / 64 != 0) 5
  | .fence => failsIf (f.cScope == 7) 1
  | .cmo =>
      failsIf (f.cN / 4 % 4 == 3 || (f.cN % 4 == 0 && f.cN / 4 % 4 == 0) || (f.cN % 4 == 3 && f.cN / 4 % 4 != 0)) 1 ++
        uniOrImm f
  | .hbind | .gath => []
  | .pref => failsIf (f.d.toNat % 4 ≥ 2 || f.sz != 0) 1
  | .rlck => uniOrImm f
  | .rlrel => failsIf (!f.ua && !f.im) 7
  | .ldu => failsIf (f.sz != 4 || f.c != 0) 1
  | .atom => failsIf (f.cN % 32 > 18) 1 ++ atomWhys f
  | .atoms => failsIf (f.cN % 32 > 18) 1 ++ failsIf (aop64 (f.cN % 32) && f.a.toNat % 2 != 0) 8 ++ atomWhys f
  | .cas | .cass => atomWhys f
  | .radd | .raddg =>
      failsIf (f.scope == 7 || (f.ord == 0 && f.scope != 0) || f.ord % 2 == 1 || f.cN > 4) 1 ++
        failsIf (!f.ud && (f.d == 256 || ((f.cN == 0 || f.cN == 4) && f.d != 0))) 10
  | .acc => failsIf (f.m &&& 0b11111111011 != 0) 6
  | .kick => uniOrImm f
  | .cancel => []

/-- The U bits (A, B, C, D from bit 0) for which an entry below `0x2A0` itself names WHY 7, which then applies in place of the other
rows (R141): R160, R164, R171, R175, R178, R192. -/
def Op.ownSeven (op : Op) : BitVec 4 :=
  match op with
  | .addc | .subb | .bitfn | .sel | .cvt => 0b0100
  | .movw => 0b0001
  | .pcomb => 0b1111
  | .cmp | .cmp64 | .cmpFloat | .classF | .pset => 0b1000
  | _ => 0

/-- A field whose U bit is set names a uniform register in the layout tables (R126, R215, R223, R232, R239, R250, R271), whether or
not the form uses it: its bits [8:6] must be 0 (WHY 5; DEDUCED, log 102). Not so in the control forms, where the layout names none,
and in those whose entry names another WHY for every other field. -/
def uniformWhys (op : Op) (f : Fields) : List Nat :=
  if (op.code / 16 == 0x30 && op != .launch) || op == .setpart || op == .barx || op == .tret || op == .acc then []
  else
    let own (k : Nat) : Bool := op.ownSeven.getLsbD k
    failsIf ((f.ua && !own 0 && f.a.toNat / 64 != 0) || (f.ub && !own 1 && f.b.toNat / 64 != 0) ||
      (f.uc && !own 2 && f.c.toNat / 64 != 0) || (f.ud && !own 3 && f.d.toNat / 64 != 0)) 5

/-- Every `WHY` of R141 that an F64 or F96 encoding gives by itself. -/
def Fields.whys (op : Op) (f : Fields) : List Nat :=
  let fm := op.form f
  let u : BitVec 5 := f.m.extractLsb' 0 5
  failsIf (12 ≤ f.g.toNat && f.g.toNat ≤ 14) 2 ++ f96Whys op fm f ++
    failsIf ((u &&& ~~~fm.may &&& ~~~fm.named).zeroExtend 11 &&& ~~~fm.mm != 0) 1 ++
    failsIf ((u &&& ~~~fm.may &&& fm.named).zeroExtend 11 &&& ~~~fm.mm != 0) 7 ++
    failsIf (fm.must &&& ~~~u != 0) 7 ++
    failsIf (f.m &&& ~~~fm.mm &&& 0b11111100000 != 0) 1 ++
    failsIf (f.im && ((fm.slot == 1 && f.ua) || (fm.slot == 2 && f.ub)) && fm.may.getLsbD 3) 7 ++
    fieldWhys fm.d f.d f.ud false ++ fieldWhys fm.a f.a (f.ua && op != .movw) (fm.slot == 1 && f.im) ++
    fieldWhys fm.b f.b f.ub (fm.slot == 2 && f.im) ++ fieldWhys fm.c f.c f.uc false ++
    uniformWhys op f ++ op.extra f

/-- The lowest of a list of WHY codes (R142). -/
def lowest : List Nat → Option Nat
  | [] => none
  | w :: ws => some ((lowest ws).elim w (min w))

/-- The lowest `WHY` of an F64 or F96 encoding, or none: it is an instruction (R141, R142). -/
def Fields.why (op : Op) (f : Fields) : Option Nat := lowest (f.whys op)

/-- The lowest `WHY` of an F32 encoding: that of the F64 form it stands for (R130). -/
def Compact.why (op : COp) (c : Compact) : Option Nat := (c.expand op.unary).why op.op

/-- The lowest `WHY` of a clause header (R134, R141). Bits [63:25] are the decoder's to check. -/
def Header.why (h : Header) : Option Nat := lowest (failsIf (h.eng.toNat > 4 || h.wmask.toNat ≥ 256) 4)

end Sys2Proof
end

