-- ==== Sys2Proof/WellFormed.lean ====
section
/-!
DEFINITION. Well-formed instructions: those that no check of R141 on the encoding refuses.
-/

namespace Sys2Proof

/-- A well-formed instruction: one that decoding can give. An event is well-formed as it stands. -/
def Instr.wf (i : Instr) : Bool :=
  match i.view with
  | .full op f => f.fmt != .f32 && (f.why op).isNone
  | .compact op c => (c.why op).isNone
  | .header h => h.why.isNone
  | .event => true

end Sys2Proof
end

