-- ==== Sys2Proof/Decode.lean ====
section
/-!
DEFINITION. The decoder, total on any words, and the encoder (R122–R136, R141). What is not an instruction decodes to
`notAnInstruction` with the reason code of R142.
-/

namespace Sys2Proof

/-- Part 1 of `Op.table`. -/
def Op.table1 : List Op :=
  [.add, .sub, .addc, .subb, .neg, .absI, .minI, .maxI,
   .mul, .mulh, .mad, .madh, .mulw, .madw, .sad, .idp4,
   .add64, .sub64, .neg64, .mul64, .lea, .lea64, .clamp, .avg]

/-- Part 2 of `Op.table`. -/
def Op.table2 : List Op :=
  [.imad24, .andB, .orB, .xorB, .notB, .andn, .bitfn, .shl,
   .shr, .rol, .shl64, .shr64, .bfx, .bfi, .popc, .clz,
   .brev, .mov, .movw, .sel, .ext, .bsel, .mov64, .cmp]

/-- Part 3 of `Op.table`. -/
def Op.table3 : List Op :=
  [.cmp64, .cmpFloat, .classF, .pcomb, .pmov, .pset, .addFloat, .subFloat,
   .mulFloat, .fma, .minFloat, .maxFloat, .absFloat, .negFloat, .scaleb, .rnd,
   .dot2, .cpys, .frc, .lerp, .fmac, .cvt, .cvtf, .cvtx]

/-- Part 4 of `Op.table`. -/
def Op.table4 : List Op :=
  [.cvtb, .pack, .unpk, .rcp, .rsq, .sqrt, .exp2, .log2,
   .sin, .cos, .tanh, .sigm, .erf, .sinpi, .cospi, .expm1,
   .log1p, .macq, .mrel, .mlds, .mswap, .mmul, .mcnt, .cdrain]

/-- Part 5 of `Op.table`. -/
def Op.table5 : List Op :=
  [.cmerge, .cclr, .mdrain, .mst, .mstBank, .mlda, .mzero, .mwait,
   .mchk, .mrd, .mwr, .crd, .msave, .mrest, .vote, .shfl,
   .red, .scan, .matchL, .elect, .setpart, .bra, .brc, .brx]

/-- Part 6 of `Op.table`. -/
def Op.table6 : List Op :=
  [.call, .calli, .ret, .exitT, .meet, .nop, .prefi, .launch,
   .yield, .brcx, .bari, .bara, .bars, .barx, .post, .waitC,
   .trap, .tret, .sysr, .sysw, .tinv, .cgenReg, .cgenLive, .cgenDrop]

/-- Part 7 of `Op.table`. -/
def Op.table7 : List Op :=
  [.ld, .st, .lds, .sts, .ldr, .str, .ldp, .stp,
   .fence, .cmo, .hbind, .stm, .gath, .pref, .rlck, .rlrel,
   .ldu, .atom, .cas, .atoms, .cass, .radd, .raddg, .acc]

/-- Part 8 of `Op.table`. -/
def Op.table8 : List Op :=
  [.kick, .cancel]

/-- Every opcode of R136. -/
def Op.table : List Op := Op.table1 ++ Op.table2 ++ Op.table3 ++ Op.table4 ++ Op.table5 ++ Op.table6 ++ Op.table7 ++ Op.table8

/-- Part 1 of `COp.table`. -/
def COp.table1 : List COp :=
  [.addCompact, .subCompact, .negCompact, .minCompact, .maxCompact, .mulCompact, .andCompact, .orCompact,
   .xorCompact, .notCompact, .shlCompact, .shrCompact, .popcCompact, .movCompact, .addFloatCompact, .subFloatCompact,
   .mulFloatCompact, .minFloatCompact, .maxFloatCompact, .absFloatCompact, .negFloatCompact, .rcpCompact, .rsqCompact, .exp2Compact]

/-- Part 2 of `COp.table`. -/
def COp.table2 : List COp :=
  [.log2Compact]

/-- Every compact opcode of R131. -/
def COp.table : List COp := COp.table1 ++ COp.table2

/-- The form that shares an OP10 with others: bank `MST` by D9[2] (R304), the three `CGEN` forms by SUB (R238). -/
def Op.picks (op : Op) (f : Fields) : Bool :=
  match op with
  | .mst => !f.d.getLsbD 2
  | .mstBank => f.d.getLsbD 2
  | .cgenReg => f.sub == 0 || f.sub == 3
  | .cgenLive => f.sub == 1
  | .cgenDrop => f.sub == 2
  | _ => true

/-- The opcode with an OP10 (R136), or none: the OP10 is unassigned. -/
def opOf (code : Nat) (f : Fields) : Option Op := Op.table.find? fun op => op.code == code && op.picks f

/-- The compact opcode with an OP8 (R131), or none. -/
def copOf (code : Nat) : Option COp := COp.table.find? fun op => op.code == code

/-- The length in words by bits [1:0] of the first word (R122). -/
def wordsIn (lo : BitVec 2) : Nat :=
  match lo.toNat with
  | 0 => 1
  | 2 => 3
  | _ => 2

/-- The fields of an F64 or F96 encoding (R125). -/
def fieldsOf (v : BitVec 96) : Fields :=
  { fmt := if v.getLsbD 1 then .f96 (v.extractLsb' 64 32) else .f64
    s := v.getLsbD 2
    g := v.extractLsb' 3 4
    d := v.extractLsb' 17 9
    a := v.extractLsb' 26 9
    b := v.extractLsb' 35 9
    c := v.extractLsb' 44 9
    m := v.extractLsb' 53 11 }

/-- The fields of an F32 encoding (R129). -/
def compactOf (v : BitVec 96) : Compact :=
  { s := v.getLsbD 2
    g := v.extractLsb' 3 4
    d7 := v.extractLsb' 15 7
    a7 := v.extractLsb' 22 7
    m3 := v.extractLsb' 29 3 }

/-- The fields of a clause header (R134). -/
def headerOf (v : BitVec 96) : Header :=
  { cnt := v.extractLsb' 2 4, eng := v.extractLsb' 6 3, wmask := v.extractLsb' 9 16 }

/-- FMT of R142. -/
def Fmt.code : Fmt → BitVec 2
  | .f32 => 0
  | .f64 => 1
  | .f96 _ => 2

/-- Decoding of an F64 or F96 encoding with its OP10. -/
def decodeFull (code : BitVec 10) (f : Fields) : Instr :=
  match opOf code.toNat f with
  | none => .notAnInstruction ⟨0, f.fmt.code, code, false⟩
  | some op =>
    match f.why op with
    | none => op.instr f
    | some w => .notAnInstruction ⟨BitVec.ofNat 4 w, f.fmt.code, code, false⟩

/-- Decoding of an F32 encoding with its OP8: OP of R142 is the OP10 of the form it stands for, else OP8. -/
def decodeCompact (code : BitVec 8) (c : Compact) : Instr :=
  match copOf code.toNat with
  | none => .notAnInstruction ⟨0, 0, code.zeroExtend 10, true⟩
  | some op =>
    match c.why op with
    | none => op.instr c
    | some w => .notAnInstruction ⟨BitVec.ofNat 4 w, 0, BitVec.ofNat 10 op.op.code, true⟩

/-- Decoding of a clause header; `high` is bits [63:25], which must be zero (R134). The OP of R142 is filled in where
the trap is taken (log 13). -/
def decodeHeader (h : Header) (high : BitVec 39) : Instr :=
  if high != 0 || h.why.isSome then .notAnInstruction ⟨4, 3, 0, false⟩ else .clauseHeader h

/-- The instruction in 96 bits from its first word up (R122); bits past its length are ignored. -/
def decode (v : BitVec 96) : Instr :=
  match (v.extractLsb' 0 2).toNat with
  | 0 => decodeCompact (v.extractLsb' 7 8) (compactOf v)
  | 3 => decodeHeader (headerOf v) (v.extractLsb' 25 39)
  | _ => decodeFull (v.extractLsb' 7 10) (fieldsOf v)

/-- Words in address order as bits, the first word lowest; words that are absent read 0. -/
def bitsOfWords : List Word → BitVec 96
  | w0 :: w1 :: w2 :: _ => w2 ++ w1 ++ w0
  | [w0, w1] => (0 : Word) ++ w1 ++ w0
  | [w0] => (0 : Word) ++ (0 : Word) ++ w0
  | [] => 0

/-- A little-endian word from the four bytes at its address (R7). -/
def wordOfBytes : List (BitVec 8) → Word
  | b0 :: b1 :: b2 :: b3 :: _ => b3 ++ b2 ++ b1 ++ b0
  | _ => 0

/-- The four bytes of a word, lowest address first (R7). -/
def bytesOfWord (w : Word) : List (BitVec 8) :=
  [w.extractLsb' 0 8, w.extractLsb' 8 8, w.extractLsb' 16 8, w.extractLsb' 24 8]

/-- The instruction in the bytes at an address: up to three words (R122, R123). -/
def decodeBytes (bs : List (BitVec 8)) : Instr :=
  decode (bitsOfWords [wordOfBytes bs, wordOfBytes (bs.drop 4), wordOfBytes (bs.drop 8)])

/-- The 64 bits of an F64 or F96 encoding with LEN and OP10 (R125). -/
def packFull (len : BitVec 2) (code : BitVec 10) (f : Fields) : BitVec 64 :=
  f.m ++ f.c ++ f.b ++ f.a ++ f.d ++ code ++ f.g ++ BitVec.ofBool f.s ++ len

/-- The 32 bits of an F32 encoding with its OP8 (R129). -/
def packCompact (code : BitVec 8) (c : Compact) : BitVec 32 :=
  c.m3 ++ c.a7 ++ c.d7 ++ code ++ c.g ++ BitVec.ofBool c.s ++ (0b00 : BitVec 2)

/-- The 64 bits of a clause header (R134). -/
def packHeader (h : Header) : BitVec 64 :=
  (0 : BitVec 39) ++ h.wmask ++ h.eng ++ h.cnt ++ (0b11 : BitVec 2)

/-- The bits of an instruction, its first word lowest (R122, R125, R129, R134); an event has none. -/
def encodeBits (i : Instr) : BitVec 96 :=
  match i.view with
  | .full op f =>
    match f.fmt with
    | .f96 l => l ++ packFull 0b10 (BitVec.ofNat 10 op.code) f
    | _ => (0 : Word) ++ packFull 0b01 (BitVec.ofNat 10 op.code) f
  | .compact op c => (0 : BitVec 64) ++ packCompact (BitVec.ofNat 8 op.code) c
  | .header h => (0 : Word) ++ packHeader h
  | .event => 0

/-- The words of an instruction in address order (R122). -/
def encode (i : Instr) : List Word :=
  let v := encodeBits i
  (List.range (wordsIn (v.extractLsb' 0 2))).map fun k => v.extractLsb' (32 * k) 32

/-- What the decoder reads from an instruction whose bits are `w`, numbered as the opcode table numbers them. -/
def decodeTableWord (nbits w : Nat) : Option Instr :=
  match decodeBytes ((List.range 12).map fun k => BitVec.ofNat 8 (w % 2 ^ nbits / 2 ^ (8 * k))) with
  | .notAnInstruction _ => none
  | i => some i

end Sys2Proof
end

