-- ==== Sys2Proof/Config.lean ====
section
/-!
DEFINITION. What the manual leaves to the implementation, as constants without a value (free values), and the few
fixed numbers of the device. Nothing in Lean can evaluate an `opaque` constant here: a claim holds for every value.
-/

namespace Sys2Proof.Config

/-- DESIGN CHOICE (log 10): the bits of a special-function result that R199 bounds and does not fix: a function of
the opcode's OP10, the TYPE code and the operand alone (R199, R105). -/
opaque sfuValue : Nat → Nat → Word → Word

/-- DESIGN CHOICE (log 7): a value the manual leaves open, by a running number. -/
opaque freeWord : Nat → Word

/-- DESIGN CHOICE (log 7): the sum of a `RED.ADD.F32` that combines no lane, of the mask it names (R105, R220). -/
opaque emptySum : Word → Word

/-- DESIGN CHOICE (log 33): `tinfo` of a cause for which the manual gives none, at a `taddr`. -/
opaque trapInfo : Nat → BitVec 64 → Word

/-- DESIGN CHOICE (log 13): OP in `tinfo` of `ILLEGAL` at a clause header, which has no OP10 (R142). -/
opaque headerOp : BitVec 10

/-- DESIGN CHOICE (log 11): whether an image's ECDSA P-521 signature verifies against the fused key (R465, R466, R473).
The key is not in the manual. -/
opaque signatureVerifies : List (BitVec 8) → Bool

/-- DESIGN CHOICE (log 11): the SHA-512 digest of a byte string (R466, R474), uninterpreted. -/
opaque digest : List (BitVec 8) → BitVec 512

/-- DESIGN CHOICE (log 12): the device revision of images (R465) and the image revision of save areas (R304, R343). -/
opaque deviceRevision : Word

/-- DESIGN CHOICE (log 12): the revision word of save areas and bank control blocks (R304, R343). -/
opaque imageRevision : Word

/-- DESIGN CHOICE (log 12): the fuse configuration reported by SPDM (R474). -/
opaque fuseConfiguration : BitVec 512

/-- DESIGN CHOICE (log 12): the measurement of the device firmware set (R474, index 2). -/
opaque firmwareSet : BitVec 512

/-- DESIGN CHOICE (log 12): SEQ of the boot Rennet image (R464, R467). -/
opaque bootSeq : Word

/-- DESIGN CHOICE (log 107): the Tether port, modulo 18, by which the routing tables of a version send packets to a peer device
(R427, R431). -/
opaque tetherRoute : Nat → Nat → Nat

/-- DESIGN CHOICE (log 107): the residue carriage to which bring-up trains a Tether port (R432, R475). -/
opaque carriage : Nat → Bool

/-- DESIGN CHOICE (log 107): the endpoints or peer devices that a set of dead links leaves without a route (R430). -/
opaque cutOff : List Nat → List Nat

/-- Ticks of a handler budget and of an emulation (R337, R462). -/
def handlerBudget : Nat := 65536

/-- Ticks of a budget period (R392) and of a sensor sample (R470). -/
def periodTicks : Nat := 100

/-- Ticks after a loss of route until retained Tether packets complete with an error (R430). -/
def routeLossTicks : Nat := 100000

end Sys2Proof.Config
end

