-- ==== Sys2Proof/Machine/KMap.lean ====
section
/-!
DEFINITION. Sparse tables by number, as plain data: a list of keys and values, the keys strictly rising. Every table of
the state is one of these, so equal tables are equal lists.
-/

namespace Sys2Proof.Machine

/-- A table by number. -/
abbrev KMap (α : Type) := List (Nat × α)

/-- The value at a key, if listed. -/
def KMap.get? {α : Type} : KMap α → Nat → Option α
  | [], _ => none
  | (j, v) :: m, k => if j = k then some v else KMap.get? m k

/-- The value at a key, or a default. -/
def KMap.getD {α : Type} (m : KMap α) (k : Nat) (d : α) : α := (m.get? k).getD d

/-- The table with a value at a key; the keys keep rising. -/
def KMap.put {α : Type} : KMap α → Nat → α → KMap α
  | [], k, v => [(k, v)]
  | (j, w) :: m, k, v =>
    if k < j then (k, v) :: (j, w) :: m
    else if j = k then (k, v) :: m
    else (j, w) :: KMap.put m k v

/-- The table without a key. -/
def KMap.erase {α : Type} (m : KMap α) (k : Nat) : KMap α := m.filter fun e => e.1 != k

/-- The table with a value at a key, where a default value is not listed. -/
def KMap.set {α : Type} [DecidableEq α] (m : KMap α) (k : Nat) (v d : α) : KMap α :=
  if v = d then m.erase k else m.put k v

/-- The values changed by a function of key and value. -/
def KMap.mapv {α β : Type} (m : KMap α) (f : Nat → α → β) : KMap β := m.map fun e => (e.1, f e.1 e.2)

/-- The keys rise strictly. -/
def KMap.sorted {α : Type} : KMap α → Bool
  | [] => true
  | [_] => true
  | (j, _) :: (k, w) :: m => decide (j < k) && KMap.sorted ((k, w) :: m)

/-- Canonical form where a default value is not listed. -/
def KMap.canonical {α : Type} [DecidableEq α] (m : KMap α) (d : α) : Bool :=
  m.sorted && m.all fun e => decide (e.2 ≠ d)

/-- The first free key from `k` up, trying at most `n` keys. -/
def KMap.fresh {α : Type} (m : KMap α) (k : Nat) : Nat → Option Nat
  | 0 => none
  | n + 1 => if (m.get? k).isNone then some k else KMap.fresh m (k + 1) n

end Sys2Proof.Machine
end

