-- ==== Sys2Proof/Machine/State.lean ====
section
/-!
DEFINITION. The state of a Zelram device: everything the manual gives the machine, as plain data, and the state right
after device reset. INVENTORY.md lists every piece with its rule.
-/

namespace Sys2Proof.Machine

/-- Bytes and residues of an address space. An unlisted byte is 0; `tags` lists the words whose residue field differs
from `res(data)` (R15): a mismatch, or the poison marker 15. -/
structure Mem where
  bytes : List Host.Cell
  tags  : KMap (BitVec 4)
  deriving DecidableEq, Repr

/-- A cause with the values a trap group takes from it (R326, R329). -/
structure Trap where
  cause : Nat
  info  : Word
  addr  : BitVec 64
  deriving DecidableEq, Repr

/-- A return entry: RA, and MA with its valid bit (R209). -/
structure RetEntry where
  ra : Addr
  ma : Option Addr
  deriving DecidableEq, Repr

/-- A membership of a `CALLI` callee group: the call, the group's place in it, and the depth of the pushed entry (R212). -/
structure Callee where
  call  : Nat
  group : Nat
  depth : Nat
  deriving DecidableEq, Repr

/-- A waiting `WAIT` (R62–R67, R229). -/
structure WaitInfo where
  off      : BitVec 32
  deadline : Option Nat
  all      : Bool
  /-- the deadline had passed when the warp was resumed (R67) -/
  late     : Bool
  scope    : Nat
  seen     : BitVec 4
  uni      : Bool
  dst      : Nat
  deriving DecidableEq, Repr

/-- What a thread waits for, if anything (R55, R68). -/
inductive Status where
  /-- in a bundle, ready to issue unless held (R57) -/
  | ready
  /-- ready; joins a bundle at the next regroup point (R55) -/
  | joining
  /-- exited (R68) -/
  | exited
  /-- parked by a switch marker (R133) -/
  | parked
  /-- after a `YIELD`: the core's issue count and the cycle then (R208) -/
  | yielded (issued since : Nat)
  /-- a later callee group of a `CALLI` (R212) -/
  | callee (call group : Nat)
  /-- arrived at a lane instruction (R216, R198, R222) -/
  | arrived
  /-- in a `WAIT`; `writes` when the lane's guard is true (R229) -/
  | waiting (w : WaitInfo) (writes : Bool)
  /-- in a `BARS` on an object, until its zero event (R225) -/
  | barrier (off : Nat) (scope : Nat)
  /-- in a `BARX` (R227); `counts` when the lane's guard is true (R139) -/
  | barx (counts : Bool)
  /-- in an `MWAIT` for the entries numbered below `upto` (R302) -/
  | mwait (upto : Nat) (scope : Nat)
  deriving DecidableEq, Repr

/-- What an emulation group keeps of the encoding it stands for (R461, R464). -/
structure Emulation where
  slot  : Nat
  key   : BitVec 64
  lit   : Word
  rnmr  : BitVec 64
  addr  : Addr
  dep   : Bool
  /-- the group entered from lanes in handler mode (R461) -/
  inner : Bool
  deriving DecidableEq, Repr

/-- The condition a lane returns to after an asynchronous entry (R338). -/
structure Resume where
  pc     : Addr
  hi     : BitVec 9
  bid    : Nat
  parks  : Bool
  status : Status
  deriving DecidableEq, Repr

/-- The trap-group values of one lane of a group (R27, R328–R333). -/
structure Frame where
  gid    : Nat
  tfm    : Word
  tam    : Word
  tcause : BitVec 16
  tinfo  : Word
  tpc    : BitVec 64
  taddr  : BitVec 64
  mr     : Option Addr
  /-- time at entry, for the handler budget (R337) -/
  since  : Nat
  emu    : Option Emulation
  async  : Option Resume
  /-- the handler has written `tpc` -/
  wrote  : Bool
  /-- the engine entry whose access is tried again at `TRET` (R300) -/
  entry  : Option Nat
  deriving DecidableEq, Repr

/-- A lane's last arrival at the lane instruction of an address (R216, R198, R222): the instruction, its guard, the
lanes it names, its captured sources A, B and predicate, an injection to strike its result (R120: bit, field, after the
write), and the lanes that have executed there since. -/
structure Arrival where
  op    : Op
  f     : Fields
  guard : Bool
  mask  : Word
  a     : List CWord
  b     : Word
  p     : Bool
  flip  : Option (Nat × Bool × Bool)
  used  : Word
  deriving DecidableEq, Repr

/-- A pending engine trap of a lane (R296): `entry` numbers a queue entry that a translation fault holds (R300). -/
structure EngineTrap where
  trap  : Trap
  entry : Option Nat
  deriving DecidableEq, Repr

/-- A thread (R18, R24, R209). -/
structure Thread where
  status   : Status
  pc       : Addr
  /-- bits [63:55] of the address the lane goes on at: nonzero only after a `TRET` to such an address (R420, KIND 6) -/
  hi       : BitVec 9
  bid      : Nat
  regs     : KMap CWord
  preds    : BitVec 12
  /-- the second copy of each predicate (R22) -/
  preds'   : BitVec 12
  mr       : Option Addr
  csp      : BitVec 64
  /-- on-chip return entries, newest first (R209) -/
  rstack   : List RetEntry
  spl      : Nat
  fflags   : BitVec 5
  /-- instructions left in the clause window, and result classes it waits for (R135) -/
  window   : Nat
  wmask    : BitVec 16
  /-- when the thread last became ready (R394) -/
  age      : Nat
  /-- a switch marker parks the thread when its wait is over (R133) -/
  parks    : Bool
  frames   : List Frame
  callees  : List Callee
  arrivals : KMap Arrival
  engTraps : List EngineTrap
  /-- failed SFU write-backs not yet taken: the SFU instruction's address (R203) -/
  sfuFails : List Addr
  /-- entries of the rewrite body at the lane's PC that it has completed (R459) -/
  body     : Nat
  deriving DecidableEq, Repr

/-- A destination register: a vector register of the lane or a uniform register. -/
structure Dest where
  uni : Bool
  reg : Nat
  deriving DecidableEq, Repr

/-- Where an outstanding load reads (R245). -/
inductive Place where
  | pad (wg : Nat) (off : Nat)
  | global (va : BitVec 64) (pa : Nat)
  deriving DecidableEq, Repr

/-- An armed injection that fires: its lane, bit, field, and whether it flips after the write (R119, R120). -/
structure Inj where
  lane  : Nat
  bit   : Nat
  rfld  : Bool
  after : Bool
  deriving DecidableEq, Repr

/-- A load that has issued and not returned (R243, R245): what each lane reads, the size code, the destination and the
address of the load. -/
structure Load where
  lanes : List (Nat × Place)
  sz    : Nat
  dst   : Dest
  pc    : Addr
  /-- scope of its acquire, or 0 -/
  acq   : Nat
  /-- the injection that it took when it issued (R120) -/
  flip  : Option Inj := none
  deriving DecidableEq, Repr

/-- A whole-warp entry that is due (R338). -/
structure Async where
  cause : Nat
  info  : Word
  addr  : BitVec 64
  deriving DecidableEq, Repr

/-- A warp (R18, R25–R27). -/
structure Warp where
  lanes   : List Thread
  wregs   : KMap CWord
  wpart   : BitVec 3
  tmask   : Word
  loads   : KMap Load
  asyncs  : List Async
  /-- the next bundle, group, call or load number -/
  next    : Nat
  deriving DecidableEq, Repr

/-- One rank of a gang map (R364). -/
structure GangEntry where
  key : Nat
  gen : Nat
  deriving DecidableEq, Repr

/-- A workgroup on a core; its key is core × 16 + slot. -/
structure Workgroup where
  grid    : Nat
  ctx     : Nat
  linear  : Nat
  warps   : Nat
  nreg    : Nat
  spad    : Nat
  pad     : Mem
  full    : BitVec 4096
  handles : KMap (BitVec 512)
  events  : BitVec 16
  mstat   : Word
  copyq   : Nat
  gang    : List GangEntry
  view    : List Word
  /-- every warp has retired; the workgroup waits for its engines or its gang (R52, R69) -/
  ended   : Bool
  deriving DecidableEq, Repr

/-- A grid: what its launch record gave (R385). -/
structure Grid where
  ctx     : Nat
  region  : Nat
  qidx    : Nat
  entry   : Addr
  pool    : BitVec 64
  pooln   : Nat
  nwg     : List Nat
  ntid    : List Nat
  gang    : Nat
  nreg    : Nat
  slines  : Nat
  copyq   : Nat
  serial  : Bool
  priv    : Bool
  cirq    : Bool
  slots   : List (BitVec 16)
  stack   : BitVec 64
  sstr    : Nat
  caddr   : BitVec 64
  placed  : Nat
  ended   : Nat
  killed  : Bool
  /-- register-bank rotation, a timing hint (R145, R395) -/
  brot    : Nat
  /-- resolved fields of the region and its ancestors as they apply to this grid (R44) -/
  fields  : KMap (List Nat)
  /-- RESV of the pitch's regions as it applies to this grid (R44, R391) -/
  resv    : KMap Nat
  deriving DecidableEq, Repr

/-- A bound register (R34): ACT and HIT of its control word, and the bounds. -/
structure Bound where
  lo  : Word
  hi  : Word
  ctl : Word
  deriving DecidableEq, Repr

/-- A code generation (R214, R238): base, length, and the spilled entries that name it. -/
structure CodeGen where
  base    : Nat
  len     : Nat
  spilled : Nat
  deriving DecidableEq, Repr

/-- A context (R40, R443). -/
structure Context where
  pitch   : Nat
  ptroot  : BitVec 64
  tvec    : BitVec 64
  hqpriv  : Bool
  bounds  : KMap Bound
  depcnt  : BitVec 64
  depctl  : Word
  gens    : KMap CodeGen
  /-- retired by a kill (R347) -/
  retired : Bool
  /-- arbitration places none of its workgroups (R340) -/
  stopped : Bool
  deriving DecidableEq, Repr

/-- A cached translation (R414): page size in bytes, page address, frame, and W, X, U. -/
structure Tlb where
  ctx  : Nat
  va   : Nat
  big  : Bool
  pa   : Nat
  w    : Bool
  x    : Bool
  u    : Bool
  deriving DecidableEq, Repr

/-- A non-leaf entry in a walker's cache (R414): the span of addresses that it serves, the physical address it was read
from, and its value. -/
structure WalkEntry where
  ctx  : Nat
  va   : Nat
  size : Nat
  at_  : Nat
  e    : BitVec 64
  deriving DecidableEq, Repr

/-- A dirty L1 word of a core (R361, R363). -/
structure Dirty where
  word : CWord
  ctx  : Nat
  va   : BitVec 64
  wid  : Nat
  deriving DecidableEq, Repr

/-- A range-lock entry (R401): OWNER 0 copy or `ACC`, 1 `GATH`, 2 matrix, 3 `RLCK`; `req` names the request or entry;
`bad`: its two copies disagree (R404). -/
structure Lock where
  ctx   : Nat
  slot  : Nat
  pad   : Bool
  lo    : Nat
  hi    : Nat
  write : Bool
  owner : Nat
  ch    : Nat
  req   : Nat
  bad   : Bool
  deriving DecidableEq, Repr

/-- What a ladle request does: a copy record (R259); an `ACC` with its handles, formats and bound register, and the lanes
and address of the instruction (R254); a `GATH` with lane, address and physical address of each element (R264). -/
inductive Work where
  | copy (src dst : Nat) (ssp dsp : Nat) (srank : Nat) (dmask : BitVec 16)
  | acc (src dst : BitVec 512) (sfmt dfmt : BitVec 16) (bound : Nat × Bound) (lanes : Word) (pc : Addr)
  | gath (size : Nat) (dst : Nat) (src : List (Nat × BitVec 64 × Nat))
  deriving DecidableEq, Repr

/-- A ladle request (R397). -/
structure Request where
  id     : Nat
  wg     : Nat
  wid    : Nat
  ctx    : Nat
  work   : Work
  len    : Nat
  /-- bytes of the whole chunks delivered, and of the chunk under way (R261) -/
  done   : Nat
  part   : Nat
  /-- a word of the chunk under way has been dropped (R246) -/
  disc   : Bool
  /-- the PRIO hint (R259, R398) -/
  prio   : Nat
  /-- `CANCEL` waits for the end of the chunk under way (R263) -/
  stop   : Bool
  /-- when it was accepted (R393) -/
  since  : Nat
  bar    : Option Nat
  event  : Option Nat
  gang   : List GangEntry
  priv   : Bool
  deriving DecidableEq, Repr

/-- An SFU result in the queue (R201, R408): one lane of one instruction, with the operand that the queue retains
(R203) and the injected flip of the word after it is written (R120). -/
structure SfuEntry where
  id    : Nat
  wid   : Nat
  lane  : Nat
  dst   : Dest
  op    : Op
  ty    : Nat
  rm    : Nat
  src   : CWord
  value : CWord
  flags : BitVec 5
  pc    : Addr
  /-- the uniform destination takes this lane's value (R26) -/
  write : Bool
  after : Option (Nat × Bool)
  deriving DecidableEq, Repr

/-- A stationary plane (R268, R277, R278): codes and scales by linear index, the slot, the header bias and SLAY; the residues of its
words (R292), and for each of its rows in each direction the residue of its sum and its code histogram with the scale weights
(R118). -/
structure Plane where
  valid  : Bool
  codes  : KMap Nat
  scales : KMap Nat
  slot   : BitVec 16
  bias   : Int
  slay   : Nat
  tags   : KMap (BitVec 4)
  sums   : KMap Nat
  hists  : KMap (List Nat)
  deriving DecidableEq, Repr

/-- A 24-bit counter with its residue (R117). -/
structure Counter where
  value : BitVec 24
  tag   : BitVec 4
  deriving DecidableEq, Repr

/-- A bank (R284, R287). -/
structure Bank where
  cnt  : KMap Counter
  tag  : Int
  e    : Bool
  nan  : Bool
  nb   : Nat
  smax : Int
  deriving DecidableEq, Repr

/-- An accumulator tile (R268, R269) with its result bias. -/
structure Tile where
  words : KMap CWord
  rb    : Option Int
  deriving DecidableEq, Repr

/-- An engine queue entry, as captured at issue (R272, R273, R31, R36). -/
structure Entry where
  id    : Nat
  op    : Op
  f     : Fields
  wid   : Nat
  lanes : Word
  pc    : Addr
  hdl   : BitVec 512
  slot  : BitVec 16
  bound : Nat × Bound
  x     : BitVec 64
  y     : Word
  /-- operands of a lane unit: lane, index, value -/
  args  : List (Nat × Nat × CWord)
  /-- the entry waits for its trap group's `TRET` (R300) -/
  stuck : Bool
  /-- made in privileged mode (R298, R413) -/
  priv  : Bool
  /-- when it was issued (R393) -/
  since : Nat
  /-- its pass has begun with that of a partner, and has been charged (R282, R406) -/
  paid  : Bool
  /-- words of its operand that the fetcher has read ahead, by address (R298, R407) -/
  ahead : KMap CWord
  deriving DecidableEq, Repr

/-- The matrix engine of a core (R268). -/
structure Engine where
  holder : Option Nat
  active : Plane
  shadow : Plane
  tiles  : KMap Tile
  banks  : KMap Bank
  column : KMap Nat
  fmt    : Nat
  bias   : Option Int
  drain  : Nat
  queue  : List Entry
  deriving DecidableEq, Repr

/-- What a bundle's instruction takes of an issue cycle (R395): its port, the registers that it reads of each bank, and whether it
holds the SFU port for two cycles. -/
structure PortUse where
  port  : Nat
  banks : List Nat
  long  : Bool
  deriving DecidableEq, Repr

/-- A sweep of a slot's old allocation generation (R365): it ends when every remote scratchpad write numbered below `upto` that a
core of the die sent has been applied or dropped. -/
structure Sweep where
  slot : Nat
  gen  : Nat
  upto : Nat
  deriving DecidableEq, Repr

/-- A core (R27, R119, R364, R397, R401, R408, R414). -/
structure Core where
  cwp    : List Word
  /-- the channel that the ladle served last (R398) -/
  served : Nat
  /-- the next ladle request's number -/
  nreq   : Nat
  finj   : BitVec 64
  queues : List (List Request)
  locks  : KMap Lock
  sfu    : List SfuEntry
  engine : Engine
  dtlb   : List Tlb
  itlb   : List Tlb
  /-- the instruction cache: line numbers with their words, most recently used first (R366) -/
  icache : List (Nat × List CWord)
  /-- L1: its dirty words, its valid clean words, the lines it holds with the most recently used first, those that a failed
  write-back keeps from replacement (R256), and the set of each line pinned for a slot's scratchpad (R359–R361) -/
  dirty  : KMap Dirty
  clean  : KMap CWord
  lines  : List Nat
  held   : List Nat
  pins   : KMap (List Nat)
  gens   : List Nat
  /-- sweeps running (R365) -/
  sweeps : List Sweep
  /-- bundles issued, for `YIELD` (R208) -/
  issued : Nat
  /-- what the instruction in the first issue slot of the cycle takes, and 32-lane SFU instructions just before it (R394, R395) -/
  taken  : List PortUse
  /-- frequency step of the island (R471) -/
  step   : Nat
  deriving DecidableEq, Repr

/-- What a packet does at its destination (R422, R424). -/
inductive PktOp where
  /-- words of a remote scratchpad: offset, size in bytes, source words -/
  | store (wg gen off size : Nat) (ws : List CWord)
  /-- a remote add to a scratchpad -/
  | padAdd (wg gen off : Nat) (op : Nat) (b : List CWord) (e : Int)
  /-- a remote add to global memory -/
  | memAdd (pa : Nat) (va : BitVec 64) (op : Nat) (b : List CWord) (e : Int)
  /-- posted events -/
  | post (wg : Nat) (bits : BitVec 8)
  deriving DecidableEq, Repr

/-- A packet in its source's retry buffer (R424, R426): its endpoints, of which `dst` is the Tether port of a packet to a peer
device. -/
structure Packet where
  id    : Nat
  src   : Nat
  dst   : Nat
  peer  : Option Nat
  seq   : Nat
  ver   : Nat
  ctx   : Nat
  pitch : Nat
  wid   : Nat
  lane  : Nat
  /-- the grid that issued it (R70) -/
  grid  : Nat
  op    : PktOp
  /-- accepted at the destination; the acknowledgement has not returned -/
  done  : Bool
  /-- a copy of the packet is on its way to the destination -/
  sent  : Bool
  deriving DecidableEq, Repr

/-- A Tether port after its link training: trained, and with residues carried or not (R432, R475). -/
structure Port where
  up       : Bool
  carriage : Bool
  deriving DecidableEq, Repr

/-- The fabric (R422–R433). -/
structure Fabric where
  packets : List Packet
  nextId  : Nat
  nextSeq : KMap Nat
  expect  : KMap Nat
  gver    : Nat
  tver    : Nat
  nadv    : Nat
  /-- peer devices without a route, and the tick of the advance that left none (R430) -/
  lost    : KMap Nat
  /-- the Tether ports that have been trained, by number 0–17 (R431, R432) -/
  ports   : KMap Port
  /-- link CRC failures in a row of one flit, by link, and the dead links (R428) -/
  crc     : KMap Nat
  dead    : List Nat
  deriving DecidableEq, Repr

/-- A linked region control block (R382, R384): its own fields, its resolved fields and the units used this period. -/
structure Region where
  pitch    : Nat
  parent   : Nat
  level    : Nat
  devq     : Bool
  imask    : Word
  qbase    : Nat
  qlog     : Nat
  qhead    : Nat
  qtail    : Nat
  own      : List Nat
  resolved : List Nat
  /-- budget units charged this period, and those of them that the last period's excess left (R393) -/
  used     : List Nat
  carried  : List Nat
  deriving DecidableEq, Repr

/-- An aperture (R372). -/
structure Aperture where
  buf  : Nat
  md   : Nat
  len  : Nat
  en   : Bool
  xf   : Nat
  esz  : Nat
  rows : Nat
  cols : Nat
  deriving DecidableEq, Repr

/-- A pitch and its registers (R339, R381, R418, R433, R442, R443, R452, R454). -/
structure Pitch where
  units   : BitVec 16
  ctxLo   : Nat
  ctxN    : Nat
  rlstat  : Word
  pcsave  : BitVec 64
  pcsize  : Word
  pcreq   : Word
  pcstat  : Word
  apert   : KMap Aperture
  tlbBusy : Bool
  twbase  : BitVec 64
  tibase  : BitVec 64
  twcnt   : Word
  tctx    : Word
  erbase  : BitVec 64
  erptr   : BitVec 64
  dmpbase : BitVec 64
  dmpstat : Word
  cxcmd   : Word
  cxstat  : Word
  cxroot  : BitVec 64
  cxvec   : BitVec 64
  cxflags : Word
  /-- frozen by an uncontained error; held dumped (R453) -/
  frozen  : Bool
  dumped  : Bool
  /-- units on which placement has stopped (R445) -/
  closed  : BitVec 16
  /-- the grid of each priority served last, for round-robin arbitration (R46, R391) -/
  turns   : KMap Nat
  deriving DecidableEq, Repr

/-- A Rennet slot (R455). -/
structure Slot where
  match_  : BitVec 64
  mask    : BitVec 64
  prio    : Nat
  kind    : Nat
  act     : Nat
  dep     : Bool
  anyc    : Bool
  ctx     : Nat
  cause   : Nat
  pmask   : BitVec 16
  fcause  : Nat
  nseq    : Nat
  routine : Nat
  sel     : List (BitVec 13)
  body    : List (BitVec 96)
  /-- the model's own mark: the routine is a boot routine, whose effect R467 gives and whose code it does not (log 21) -/
  ofBoot  : Bool
  deriving DecidableEq, Repr

/-- Rennet (R455, R461, R464–R467). The routine store is 256 KiB of checked words. -/
structure Rennet where
  slots   : List Slot
  store   : Mem
  seq     : Word
  digest  : BitVec 512
  /-- an image that waits to be written (R466): its SMASK and its slots -/
  loading : Option (Word × List Slot)
  deriving DecidableEq, Repr

/-- An error or event record (R452, R472). -/
structure Record where
  cls    : Nat
  sev    : Nat
  ctx    : Nat
  unit   : Nat
  flags  : BitVec 5
  pa     : Nat
  time   : Nat
  endpt  : Nat
  l2set  : Nat
  way    : Nat
  deriving DecidableEq, Repr

/-- A running partition command (R444, R445). -/
structure Partition where
  op    : Nat
  pitch : Nat
  units : BitVec 16
  tmo   : Nat
  since : Nat
  /-- the stacks are scrubbed -/
  scrub : Bool
  deriving DecidableEq, Repr

/-- Lantern, its mailbox, its sensors and the module flash (R468–R476). -/
structure Lantern where
  mbaddr    : BitVec 64
  mbcmd     : BitVec 64
  mbstat    : Word
  pwrlim    : Word
  partition : Option Partition
  sample    : Sample
  sampleAt  : Nat
  powers    : List Nat
  /-- frequency steps of the islands, by number -/
  steps     : KMap Nat
  /-- module flash: the active bank (0 A, 1 B), the banks, the SEQ floors, retired frames, the event log (newest first) -/
  bank      : Nat
  banks     : List (List (BitVec 8))
  floor     : Word
  fwFloor   : Word
  frames    : List Nat
  /-- retired frames scrubbed since they entered the table: poisoned from then on (R451) -/
  dead      : List Nat
  log       : List Record
  running   : Nat
  deriving DecidableEq, Repr

/-- What leaves the device: interrupts, AER messages, host data. -/
inductive Report where
  /-- an MSI-X vector of a pitch's function (R396) -/
  | irq (pitch vector : Nat)
  /-- an AER message: 0 correctable, 1 non-fatal, 2 fatal (R447, R448) -/
  | aer (pitch sev : Nat)
  /-- the mailbox completion vector (R468) -/
  | mailbox
  /-- data of a host read; the EP bit for poisoned data (R321, R109) -/
  | read (pitch : Nat) (ws : List Word) (ep : Bool)
  /-- a register of the mailbox as the host reads it (R468) -/
  | mailValue (v : BitVec 64)
  /-- a word written to host memory with the EP bit (R109) -/
  | poisonedWrite (pitch pa : Nat)
  /-- a request completed with Unsupported Request (R436) -/
  | unsupported (pitch : Nat)
  /-- the completion of a peer device's access: an error, or the words that it asked for (R434) -/
  | peerReply (dev pitch : Nat) (ok : Bool) (ws : List CWord)
  /-- SPDM measurement (R474) -/
  | measurement (index : Nat) (value : BitVec 512)
  deriving DecidableEq, Repr

/-- A context stopped and saved (R340–R343): its workgroups, warps and engine work, with the save area's address. -/
structure Saved where
  base    : BitVec 64
  pitch   : Nat
  wgs     : KMap Workgroup
  warps   : KMap Warp
  engines : KMap Engine
  reqs    : List (Nat × Request)
  locks   : List (Nat × Lock)
  views   : KMap (List Word)
  /-- the count of entries of each workgroup's core at the save: its entries and requests are numbered below it -/
  counts  : KMap Nat
  deriving DecidableEq, Repr

/-- A line in an L2 slice (R368, R369): its number, its way, and if it is dirty its owner tag and the words that HBM4
holds. -/
structure L2Line where
  line  : Nat
  way   : Nat
  dirty : Option (Nat × List CWord)
  deriving DecidableEq, Repr

/-- A view's line in an L2 slice (R371, R373): its words, those of them that are newer than the buffer, and the tag of the context
that wrote them. -/
structure View where
  words : List CWord
  mask  : BitVec 32
  dirty : Option Nat
  deriving DecidableEq, Repr

/-- An entry of a slice's metadata cache (R377): its address, its words, and the tag of the context whose write made it dirty. -/
structure MetaEntry where
  pos   : Nat
  words : List CWord
  dirty : Option Nat
  deriving DecidableEq, Repr

/-- What a peer device asks of this one through an inbound window (R433): words read or written, a remote add, an atomic, a
compare and swap. -/
inductive PeerOp where
  | read (n : Nat)
  | write (ws : List CWord)
  | add (code : Nat) (b : List CWord) (e : Int)
  | atom (code : Nat) (b : List CWord)
  | cas (b c : List CWord)
  deriving DecidableEq, Repr

/-- Which agent moves next, where the manual leaves the order open (DESIGN CHOICE, log 2). -/
inductive Pick where
  /-- a bundle issues its next instruction -/
  | issue (wid bid : Nat)
  /-- an event of the opcode table -/
  | event (i : Instr)
  /-- cycles pass -/
  | elapse (n : Nat)
  /-- a core writes a dirty L1 line back, or drops a clean word (R361, R313) -/
  | evict (core pa : Nat)
  /-- a slice writes the dirty words of a view's line to the buffer and drops its copy (R368, R373) -/
  | viewOut (key : Nat)
  /-- a router finds a bad header word and discards the packet (R424) -/
  | badHeader (packet : Nat)
  /-- a source endpoint replays the packets of its retry buffer (R424, R428) -/
  | replay (src : Nat)
  /-- a flit crosses a link without a failure (R428) -/
  | flitPassed (link : Nat)
  /-- a Tether port trains its link with the carriage that each end sets (R432) -/
  | trainPort (port : Nat) (own peer : Bool)
  /-- an access of a pitch of a peer device arrives at a Tether port for a pitch of this one (R433, R434) -/
  | peerAccess (port dev src p iwin off : Nat) (op : PeerOp)
  /-- a peer device changes its own memory, which this one sees through an outbound window (R433) -/
  | peerMemory (pa : Nat) (ws : List CWord)
  /-- a write of some bytes of an 8-byte register of a pitch (R9) -/
  | regBytes (p off : Nat) (v : BitVec 64) (bytes : BitVec 8)
  /-- the operation that a register write has set off runs (R381, R418) -/
  | regRun (p off : Nat) (v : BitVec 64)
  /-- the host reads an 8-byte register of a pitch through BAR0 (R381) -/
  | regRead (p off : Nat)
  /-- the host reads an 8-byte register of the mailbox (R468) -/
  | mailRead (off : Nat)
  /-- the matrix engine's fetcher reads the operand of a queued entry (R407) -/
  | fetchAhead (core id : Nat)
  /-- a memory error of a class of R447 (1, 2, 3 or 10) at a physical address, or 4: a word whose residue does not match in an
  L2 line whose code is good (R370); `ctx` is the context that reads, on `core` -/
  | upset (cls core ctx pa : Nat)
  /-- the oldest SFU result of a core fails its check twice (R203) -/
  | sfuFault (core : Nat)
  /-- the two copies of a range-lock entry of a core come to disagree (R404) -/
  | lockUpset (core entry : Nat)
  /-- the second copy of a predicate of a thread flips (R22) -/
  | predUpset (wid lane p : Nat)
  deriving DecidableEq, Repr

/-- The bundle that issues: its warp, its active lanes and its PC (R53–R55). -/
structure Bundle where
  wid  : Nat
  mask : Word
  pc   : Addr
  deriving DecidableEq, Repr

/-- Where the device is between reset, bring-up and loss of power (R472, R475). -/
inductive Life where
  | reset
  | up
  | dead
  /-- a step of bring-up has failed: the host link stays down (R475) -/
  | dark
  deriving DecidableEq, Repr

/-- The ordering codes (R2). -/
inductive Code where
  | zlm8P
  | zlm8M
  | zlm4P
  deriving DecidableEq, Repr

/-- The state of the device. -/
structure State where
  /-- which device it is; no step changes it -/
  code    : Code
  life    : Life
  cycle   : Nat
  agenda  : List Pick
  /-- what was due when a step last chose by itself, in the order of its turns (R71) -/
  rota    : List Pick
  cur     : Bundle
  free    : Nat
  warps   : KMap Warp
  wgs     : KMap Workgroup
  grids   : KMap Grid
  ctxs    : KMap Context
  cores   : KMap Core
  mem     : Mem
  /-- words of host memory whose last completion was an error (R262) -/
  hostErrs : List Nat
  /-- the lines in the L2 slices, most recently used first (R368) -/
  l2      : List L2Line
  /-- L2 copies of lines of apertures that are not compressed, by pitch and line (R371, R323) -/
  views   : KMap View
  /-- the metadata cache of each slice, most recently used first (R377) -/
  metas   : KMap (List MetaEntry)
  /-- the cache of each die's page walker, the newest entry first (R414) -/
  walkers : KMap (List WalkEntry)
  units   : KMap Nat
  pitches : KMap Pitch
  regions : KMap Region
  fabric  : Fabric
  rennet  : Rennet
  lantern : Lantern
  saved   : KMap Saved
  /-- errors reported; quarantined ways by slice (R370) -/
  quar    : KMap (List (Nat × Nat))
  reports : List Report
  deriving DecidableEq, Repr

/-- Why a run stops. -/
inductive Fault where
  /-- Raised by `step` when the device has no power (R472, R475): nothing moves until power returns, which is outside
  this machine. Safe: the device does nothing either. -/
  | noPower
  deriving DecidableEq, Repr

/-- Why an instruction has no meaning here. -/
inductive Refusal where
  /-- Raised by the dispatcher for an instruction without a meaning in this model. Safe: the run stops. -/
  | notModelled (mnemonic : String)
  deriving DecidableEq, Repr

/-- No byte listed: every byte 0 with residue 0 (R444). -/
def Mem.empty : Mem := ⟨[], []⟩

/-- A plane that holds nothing (R268). -/
def Plane.empty : Plane := ⟨false, [], [], 0, 0, 0, [], [], []⟩

/-- The engine state after a successful `MACQ` (R268), without a holder. -/
def Engine.empty : Engine := ⟨none, .empty, .empty, [], [], [], 0, none, 0, []⟩

/-- An empty bank (R287). -/
def Bank.empty : Bank := ⟨[], 0, true, false, 0, -512⟩

/-- A tile of +0 with RB unset (R268). -/
def Tile.zero : Tile := ⟨[], none⟩

/-- A core right after reset (R27, R119); DESIGN CHOICE (log 5): the counts, locks and generations the manual gives no
reset value for are 0 or empty. -/
def Core.reset : Core :=
  { cwp := [0, 0, 0, 0], served := 3, nreq := 0, finj := 0, queues := [[], [], [], []], locks := [], sfu := [], engine := .empty,
    dtlb := [], itlb := [], icache := [], dirty := [], clean := [], lines := [], held := [], pins := [],
    gens := List.replicate 16 0, sweeps := [], issued := 0, taken := [], step := 0 }

/-- A lane that is not there: exited, every register at its launch value (R18, R49). -/
def Thread.absent : Thread :=
  { status := .exited, pc := 0, hi := 0, bid := 0, regs := [], preds := 0, preds' := 0, mr := .none, csp := 0, rstack := [],
    spl := 0, fflags := 0, window := 0, wmask := 0, age := 0, parks := false, frames := [], callees := [], arrivals := [],
    engTraps := [], sfuFails := [], body := 0 }

/-- A warp that is not there. -/
def Warp.absent : Warp := ⟨[], [], 0b101, 0, [], [], 0⟩

/-- A workgroup that is not there. -/
def Workgroup.absent : Workgroup :=
  { grid := 0, ctx := 0, linear := 0, warps := 0, nreg := 0, spad := 0, pad := .empty, full := 0, handles := [],
    events := 0, mstat := 0, copyq := 0, gang := [], view := [0, 0, 0, 0], ended := true }

/-- A grid that is not there. -/
def Grid.absent : Grid :=
  { ctx := 0, region := 0, qidx := 0, entry := 0, pool := 0, pooln := 0, nwg := [1, 1, 1], ntid := [1, 1, 1],
    gang := 1, nreg := 16, slines := 0, copyq := 0, serial := false, priv := false, cirq := false, slots := [],
    stack := 0, sstr := 0, caddr := 0, placed := 0, ended := 0, killed := false,
    brot := 0, fields := [], resv := [] }

/-- A context as bound, with no table (R443, R34). -/
def Context.absent : Context :=
  { pitch := 0, ptroot := 0, tvec := 0, hqpriv := false, bounds := [], depcnt := 0, depctl := 0, gens := [],
    retired := false, stopped := false }

/-- A bound register's reset value: −∞, +∞ and ACT 0 (R34). -/
def Bound.reset : Bound := ⟨0xFF800000, 0x7F800000, 0⟩

/-- A pitch's registers at their reset values (R339, R372, R381, R418, R433, R442, R443, R452, R454). -/
def Pitch.reset : Pitch :=
  { units := 0, ctxLo := 0, ctxN := 0, rlstat := 0, pcsave := 0, pcsize := 0, pcreq := 0, pcstat := 0, apert := [],
    tlbBusy := false, twbase := 0, tibase := 0, twcnt := 0, tctx := 0, erbase := 0, erptr := 0, dmpbase := 0,
    dmpstat := 0, cxcmd := 0, cxstat := 0, cxroot := 0, cxvec := 0, cxflags := 0, frozen := false, dumped := false,
    closed := 0, turns := [] }

/-- An unused slot (R455). -/
def Slot.unused : Slot :=
  { match_ := 0, mask := 0, prio := 0, kind := 0, act := 0, dep := false, anyc := false, ctx := 0, cause := 0,
    pmask := 0, fcause := 0, nseq := 0, routine := 0, sel := [0, 0, 0, 0], body := [0, 0, 0, 0],
    ofBoot := false }

/-- A disabled aperture (R372). -/
def Aperture.off : Aperture := ⟨0, 0, 0, false, 0, 0, 0, 0⟩

/-- Lantern before bring-up; `pwrlim` is the package limit of R4 (R468). DESIGN CHOICE (log 6): module flash holds bank
A as the active bank, SEQ floors 0, no retired frame and an empty log. -/
def Lantern.reset : Lantern :=
  { mbaddr := 0, mbcmd := 0, mbstat := 0, pwrlim := 6500, partition := .none, sample := ⟨0, [], []⟩, sampleAt := 0,
    powers := [], steps := [], bank := 0, banks := [[], []], floor := 0, fwFloor := 0, frames := [], dead := [], log := [],
    running := 0 }

/-- The device right after reset: power is good, bring-up has not run (R475), no pitch, context or work exists. -/
def State.reset : State :=
  { code := .zlm8P, life := .reset, cycle := 0, agenda := [], rota := [], cur := ⟨0, 0, 0⟩, free := 0, warps := [],
    wgs := [], grids := [], ctxs := [], cores := [], mem := .empty, hostErrs := [], l2 := [], views := [], metas := [], walkers := [],
    units := [], pitches := [], regions := [],
    fabric := ⟨[], 0, [], [], 0, 0, 0, [], [], [], []⟩,
    rennet := ⟨List.replicate 16 .unused, .empty, 0, 0, none⟩, lantern := .reset, saved := [], quar := [], reports := [] }

end Sys2Proof.Machine
end

