-- ==== Sys2Proof/Machine/Memory.lean ====
section
/-!
DEFINITION. Bytes and checked words of one address space (R7, R15, R17), and the checks of a word read (R110).
-/

namespace Sys2Proof.Machine

/-- The byte at an address. -/
def Mem.byte (m : Mem) (a : Nat) : BitVec 8 := KMap.getD m.bytes a 0

/-- The data of the word at `a`, little-endian (R7). -/
def Mem.data (m : Mem) (a : Nat) : Word := m.byte (a + 3) ++ m.byte (a + 2) ++ m.byte (a + 1) ++ m.byte a

/-- The checked word at `a` (R15): its field is the listed one, else `res(data)`. -/
def Mem.word (m : Mem) (a : Nat) : CWord := ⟨m.data a, KMap.getD m.tags a (res (m.data a))⟩

/-- The bytes with a word's data at `a`. -/
def setBytes (b : List Host.Cell) (a : Nat) (w : Word) : List Host.Cell :=
  KMap.set (KMap.set (KMap.set (KMap.set b a (w.extractLsb' 0 8) 0) (a + 1) (w.extractLsb' 8 8) 0)
    (a + 2) (w.extractLsb' 16 8) 0) (a + 3) (w.extractLsb' 24 8) 0

/-- The memory with a checked word at `a`. -/
def Mem.setWord (m : Mem) (a : Nat) (w : CWord) : Mem :=
  ⟨setBytes m.bytes a w.data, KMap.set m.tags a w.tag (res w.data)⟩

/-- The `n` words from `a` up. -/
def Mem.words (m : Mem) (a n : Nat) : List CWord := (List.range n).map fun k => m.word (a + 4 * k)

/-- The memory with words from `a` up. -/
def Mem.setWords (m : Mem) (a : Nat) : List CWord → Mem
  | [] => m
  | w :: ws => Mem.setWords (m.setWord a w) (a + 4) ws

/-- The form of a memory: rising addresses, no listed zero byte; residues listed for aligned words only, each other
than `res(data)`. -/
def Mem.wf (m : Mem) : Bool :=
  KMap.canonical m.bytes 0 && KMap.sorted m.tags &&
    m.tags.all fun e => e.1 % 4 == 0 && e.2 != res (m.data e.1)

/-- Bytes `k` to `k + n − 1` of a word. -/
def partOf (w : Word) (k n : Nat) : Word := (w >>> (8 * k)) &&& BitVec.ofNat 32 (2 ^ (8 * n) - 1)

/-- A word with bytes `k` to `k + n − 1` replaced. -/
def withPart (w : Word) (k n : Nat) (v : Word) : Word :=
  let mask := BitVec.ofNat 32 (2 ^ (8 * n) - 1)
  (w &&& ~~~(mask <<< (8 * k))) ||| ((v &&& mask) <<< (8 * k))

/-- The sub-word store of `n` bytes at byte `k` of a word: its residue by the last row of R108 (R244). A poisoned word
stays poisoned (R115). -/
def storePart (w : CWord) (k n : Nat) (v : Word) : CWord :=
  let d := withPart w.data k n v
  if w.poisoned then ⟨d, 15⟩
  else ⟨d, BitVec.ofNat 4 ((w.tag.toNat + 15 - (res (partOf w.data k n)).toNat + (res (partOf v 0 n)).toNat) % 15)⟩

/-- Words in a run of checked words as one 64-bit value, the low word first (R17). -/
def pairOf : List CWord → BitVec 64
  | a :: b :: _ => b.data ++ a.data
  | [a] => (0 : Word) ++ a.data
  | [] => 0

/-- The two checked words of a 64-bit value with generated residues (R17). -/
def ofPair (v : BitVec 64) : List CWord := [.gen (v.extractLsb' 0 32), .gen (v.extractLsb' 32 32)]

/-- Sign extension of the low `n` bits to an integer. -/
def sextN (n x : Nat) : Int := if 2 ^ (n - 1) ≤ x % 2 ^ n then (x % 2 ^ n : Int) - 2 ^ n else x % 2 ^ n

end Sys2Proof.Machine
end

