-- ==== Sys2Proof/Machine/Flags.lean ====
section
/-!
DEFINITION. What arithmetic computes beside its result: the typed integers of R158 with their wrap and saturation,
carries and borrows, the residue predictions of R108, and the bits of `fflags` (R98).
-/

namespace Sys2Proof.Machine

/-! ## Typed integers (R127, R158) -/

/-- The width of a TYPE code. -/
def tyWidth (t : Nat) : Nat := if t / 2 = 0 then 32 else if t / 2 = 1 then 16 else 8
/-- A TYPE code is signed. -/
def tySigned (t : Nat) : Bool := t % 2 == 0
/-- `ext(x)` of R158: the operand as an exact integer. -/
def tyExt (t : Nat) (x : Word) : Int :=
  if tySigned t then sextN (tyWidth t) x.toNat else (x.toNat % 2 ^ tyWidth t : Nat)
/-- The bounds of a TYPE. -/
def tyMin (t : Nat) : Int := if tySigned t then -(2 ^ (tyWidth t - 1)) else 0
/-- The bounds of a TYPE. -/
def tyMax (t : Nat) : Int := if tySigned t then 2 ^ (tyWidth t - 1) - 1 else 2 ^ tyWidth t - 1
/-- `sat(y, TYPE)` (R11). -/
def clampInt (lo hi y : Int) : Int := if y < lo then lo else if hi < y then hi else y
/-- `wrap(y)` of R158. -/
def tyWrap (t : Nat) (y : Int) : Word := BitVec.ofInt 32 (tyExt t (BitVec.ofInt 32 (y % 2 ^ tyWidth t)))
/-- `satw(y)` of R158. -/
def tySat (t : Nat) (y : Int) : Word := BitVec.ofInt 32 (clampInt (tyMin t) (tyMax t) y)
/-- What R158 writes: saturated when OPM[3] is 1. -/
def tyWrite (t : Nat) (sat : Bool) (y : Int) : Word := if sat then tySat t y else tyWrap t y

/-- A pair as an integer, signed for TYPE 0 (R168). -/
def ext64 (signed : Bool) (v : BitVec 64) : Int := if signed then v.toInt else v.toNat
/-- An integer written to a pair, clamped with `.SAT` (R168). -/
def write64 (signed sat : Bool) (y : Int) : BitVec 64 :=
  BitVec.ofInt 64 (if sat then (if signed then clampInt (-(2 ^ 63)) (2 ^ 63 - 1) y else clampInt 0 (2 ^ 64 - 1) y) else y)

/-! ## Carries -/

/-- The carry out of `a + b + ci` (R164). -/
def carryOut (a b : Word) (ci : Bool) : Bool := 2 ^ 32 ≤ a.toNat + b.toNat + ci.toNat
/-- The borrow out of `a − b − ci` (R164). -/
def borrowOut (a b : Word) (ci : Bool) : Bool := a.toNat < b.toNat + ci.toNat

/-! ## Residue predictions (R106, R108)

The predictor path forms the residue of a class-P result from the residues of its sources and from side values of the datapath.
A row is a function of checked words; the forms below chain them. -/

/-- A residue: the class of an integer modulo 15. -/
def mod15 (x : Int) : BitVec 4 := BitVec.ofNat 4 (x % 15).toNat
/-- The residue of a word as an integer: that of a side value, or of a duplicate circuit. -/
def resI (w : Word) : Int := (res w).toNat
/-- The residue that a source word brings. -/
def srcRes (w : CWord) : Int := w.tag.toNat
/-- `inv2(n)`: the inverse of 2^n (R106). -/
def inv2 (n : Nat) : Int := 2 ^ ((4 - n % 4) % 4)
/-- The low `n` bits of a word. -/
def lowBits (n : Nat) (w : Word) : Word := w &&& BitVec.ofNat 32 (2 ^ n - 1)
/-- The add row, with carry in. -/
def predictAdd (a b : CWord) (ci : Bool) : BitVec 4 :=
  mod15 (srcRes a + srcRes b + ci.toNat - (carryOut a.data b.data ci).toNat)
/-- The subtract row, with borrow in. -/
def predictSub (a b : CWord) (ci : Bool) : BitVec 4 :=
  mod15 (srcRes a - srcRes b - ci.toNat + (borrowOut a.data b.data ci).toNat)
/-- The bits that a shift left by `n` below 32 moves out of a word. -/
def shiftedOut (a : Word) (n : Nat) : Word := if n = 0 then 0 else a >>> (32 - n)
/-- The shift-left row, `n` below 32. -/
def predictShl (a : CWord) (n : Nat) : BitVec 4 := mod15 (2 ^ n * srcRes a - resI (shiftedOut a.data n))
/-- The logical shift-right row, `n` below 32. -/
def predictShr (a : CWord) (n : Nat) : BitVec 4 := mod15 (inv2 n * (srcRes a - resI (lowBits n a.data)))
/-- The arithmetic shift-right row, `n` below 32. -/
def predictSar (a : CWord) (n : Nat) : BitVec 4 :=
  mod15 (inv2 n * (srcRes a - resI (lowBits n a.data)) + a.data.msb.toNat * (1 - inv2 n))
/-- The rotate row. -/
def predictRol (a : CWord) (n : Nat) : BitVec 4 := mod15 (2 ^ n * srcRes a)
/-- The OR row, with the duplicated AND. -/
def predictOr (a b : CWord) : BitVec 4 := mod15 (srcRes a + srcRes b - resI (a.data &&& b.data))
/-- The XOR row, with the duplicated AND. -/
def predictXor (a b : CWord) : BitVec 4 := mod15 (srcRes a + srcRes b - 2 * resI (a.data &&& b.data))
/-- The NOT row. -/
def predictNot (a : CWord) : BitVec 4 := mod15 (15 - srcRes a)
/-- The extension row of a TYPE: the source's own residue at 32 bits; the sign fill adds none. -/
def predictExt (t : Nat) (w : CWord) : BitVec 4 := if tyWidth t = 32 then w.tag else res (lowBits (tyWidth t) w.data)

/-- A word of the AND row: the residue of a duplicated circuit. -/
def andWord (a b : CWord) : CWord := .gen (a.data &&& b.data)
/-- A word of the OR row. -/
def orWord (a b : CWord) : CWord := ⟨a.data ||| b.data, predictOr a b⟩
/-- A word of the XOR row. -/
def xorWord (a b : CWord) : CWord := ⟨a.data ^^^ b.data, predictXor a b⟩
/-- A word of the NOT row. -/
def notWord (a : CWord) : CWord := ⟨~~~a.data, predictNot a⟩
/-- A word of the add row. -/
def addWord (a b : CWord) : CWord := ⟨a.data + b.data, predictAdd a b false⟩
/-- A word of the shift-left row; an amount that leaves only zeros has residue 0. -/
def shlWord (a : CWord) (n : Nat) : CWord := ⟨a.data <<< n, if n < 32 then predictShl a n else 0⟩
/-- A word of the shift-right rows; an amount that leaves only zeros or sign bits has residue 0. -/
def shrWord (signed : Bool) (a : CWord) (n : Nat) : CWord :=
  if signed then ⟨a.data.sshiftRight n, if n < 32 then predictSar a n else 0⟩
  else ⟨a.data >>> n, if n < 32 then predictShr a n else 0⟩
/-- A word of the extension row. -/
def extWord (t : Nat) (w : CWord) : CWord := ⟨tyWrap t (tyExt t w.data), predictExt t w⟩

/-- An exact integer on the datapath and the residue that the predictor path forms for it (R162, R166). -/
structure Exact where
  val : Int
  pre : Int
  deriving DecidableEq, Repr

/-- A constant of the fixed table, which stores its residue (R109). -/
def Exact.const (n : Int) : Exact := ⟨n, n⟩
/-- The sum. -/
def Exact.add (a b : Exact) : Exact := ⟨a.val + b.val, a.pre + b.pre⟩
/-- The difference. -/
def Exact.sub (a b : Exact) : Exact := ⟨a.val - b.val, a.pre - b.pre⟩
/-- The product. -/
def Exact.mul (a b : Exact) : Exact := ⟨a.val * b.val, a.pre * b.pre⟩
/-- The negative: the subtract row from 0. -/
def Exact.neg (a : Exact) : Exact := ⟨-a.val, -a.pre⟩
/-- The magnitude: the value or its negative, by the sign. -/
def Exact.abs (a : Exact) : Exact := if a.val < 0 then a.neg else a
/-- Half, rounded down: the shift row with n = 1 (R163). -/
def Exact.half (a : Exact) : Exact := ⟨a.val / 2, inv2 1 * (a.pre - a.val % 2)⟩
/-- A clamp: the constant where the value lies outside. -/
def Exact.clamp (lo hi : Int) (a : Exact) : Exact := if a.val < lo then .const lo else if hi < a.val then .const hi else a
/-- A source word under a TYPE (R158): the extension row, less 2^32 ≡ 1 where the integer is negative. -/
def exactOf (t : Nat) (w : CWord) : Exact :=
  ⟨tyExt t w.data, (predictExt t w).toNat - (if tyExt t w.data < 0 then 1 else 0)⟩
/-- A source pair, signed or not (R168). -/
def exactPair (signed : Bool) (lo hi : CWord) : Exact :=
  ⟨ext64 signed (hi.data ++ lo.data), srcRes lo + srcRes hi - (if signed && hi.data.msb then 1 else 0)⟩
/-- Word `k` of an exact integer. -/
def intWord (y : Int) (k : Nat) : Word := BitVec.ofInt 32 (y / 2 ^ (32 * k))
/-- Word `k` of an exact integer formed in `n` words: its residue is the prediction less the residues of the other words and what
stands above them (R108, R166, R168). -/
def Exact.word (e : Exact) (n k : Nat) : CWord :=
  ⟨intWord e.val k,
    mod15 (e.pre - (((List.range n).filter (· != k)).map fun i => resI (intWord e.val i)).sum - e.val / 2 ^ (32 * n))⟩
/-- The word that R158 writes: saturated, or wrapped and extended. -/
def Exact.typed (t : Nat) (sat : Bool) (e : Exact) : CWord :=
  let x := if sat then e.clamp (tyMin t) (tyMax t) else e
  ⟨tyWrite t sat e.val, if tyWidth t = 32 then (x.word 1 0).tag else res (lowBits (tyWidth t) (intWord x.val 0))⟩
/-- A row applied to two pairs word by word, the carry or borrow of the low words taken into the high ones (the i64 add row). -/
def chainWords (g : Exact → Exact → Exact) (a b : CWord × CWord) : CWord × CWord :=
  let lo := g ⟨a.1.data.toNat, srcRes a.1⟩ ⟨b.1.data.toNat, srcRes b.1⟩
  let hi := (g ⟨a.2.data.toNat, srcRes a.2⟩ ⟨b.2.data.toNat, srcRes b.2⟩).add (.const (lo.val / 2 ^ 32))
  (lo.word 1 0, hi.word 1 0)
/-- A pair from the datapath with its predicted residues. -/
def pairWith (v : BitVec 64) (p : CWord × CWord) : List CWord :=
  [⟨v.extractLsb' 0 32, p.1.tag⟩, ⟨v.extractLsb' 32 32, p.2.tag⟩]

/-! ## Bits of `fflags` (R98) -/

/-- NV, DZ, OF, UF and NX, from bit 0 up (R98): NV. -/
def flagNV : BitVec 5 := 0b00001
/-- DZ. -/
def flagDZ : BitVec 5 := 0b00010
/-- OF. -/
def flagOF : BitVec 5 := 0b00100
/-- UF. -/
def flagUF : BitVec 5 := 0b01000
/-- NX. -/
def flagNX : BitVec 5 := 0b10000

end Sys2Proof.Machine
end

