-- ==== Sys2Proof/Machine/Slice.lean ====
section
/-!
DEFINITION. The L2 slices (R368–R370): the lines that they hold, most recently used first, in sets of 16 ways less those
quarantined. `State.mem` holds the words as the home slices give them; a dirty line keeps beside it the words of HBM4.
-/

namespace Sys2Proof.Machine

/-- The endpoint that serves a physical address of this package: the home slice, or the host port (R368, R424). -/
def memEndpoint (pa : Nat) : Nat :=
  if pa / 2 ^ 48 = 0 then pa / 2 ^ 37 % 8 * 4096 + 256 + pa / 2 ^ 36 % 2 * 12 + pa % 2 ^ 36 / 128 % 12
  else 8 * 4096 + 2048

/-- The memory controller that serves a line of a stack, as its endpoint (R378, R424). -/
def ctrlEndpoint (pa : Nat) : Nat :=
  pa / 2 ^ 37 % 8 * 4096 + 512 + pa / 2 ^ 36 % 2 * 2 + ((pa / 128 % 32) ^^^ (pa / 4096 % 32)) / 16

/-- The L2 slice of a line, as its endpoint, and its set (R368, R424). -/
def l2Home (pa : Nat) : Nat × Nat := (memEndpoint pa, pa % 2 ^ 36 / 128 / 12 % 2048)

/-- The tag of writes that no context makes (R369). -/
def ownerNone : Nat := 0xFFF

/-- The 32 words of a line by its number. -/
def Mem.line (m : Mem) (n : Nat) : List CWord := m.words (128 * n) 32

/-- The line with a number, if an L2 slice holds it. -/
def State.l2Line (s : State) (n : Nat) : Option L2Line := s.l2.find? fun e => e.line == n

/-- The ways of a line's set that are not quarantined (R370). -/
def State.usableWays (s : State) (n : Nat) : List Nat :=
  let h := l2Home (128 * n)
  (List.range 16).filter fun w => !(s.quar.getD h.1 []).contains (h.2, w)

/-- A line accessed at its home slice becomes the most recently used. A line that is not there takes a free usable way, else
that of the least recently used line of its set, whose dirty words are then in HBM4 (R368); a set without a usable way holds
nothing (R370). -/
def State.l2Touch (s : State) (n : Nat) : State :=
  match s.l2Line n with
  | some e => { s with l2 := e :: s.l2.filter fun x => x.line != n }
  | none =>
    let set := s.l2.filter fun e => l2Home (128 * e.line) == l2Home (128 * n)
    match (s.usableWays n).find? fun w => set.all fun e => e.way != w with
    | some w => { s with l2 := ⟨n, w, none⟩ :: s.l2 }
    | none =>
      match set.getLast? with
      | none => s
      | some v => { s with l2 := ⟨n, v.way, none⟩ :: s.l2.filter fun x => x.line != v.line }

/-- An access of a physical address at its home slice. -/
def State.l2Access (s : State) (pa : Nat) : State := if pa / 2 ^ 40 = 0 then s.l2Touch (pa / 128) else s

/-- A line that a context is about to write becomes dirty under its tag; one dirty under another tag is first written to
HBM4 (R369). -/
def State.l2Claim (s : State) (owner pa : Nat) : State :=
  if pa / 2 ^ 40 = 0 then
    let s1 := s.l2Touch (pa / 128)
    let old := s1.mem.line (pa / 128)
    { s1 with l2 := s1.l2.map fun e =>
        if e.line = pa / 128 ∧ e.dirty.map (·.1) ≠ some owner then { e with dirty := some (owner, old) } else e }
  else s

/-- A word written at its home under a tag. A mismatched word, which its sender reports (R114), is written with the poison marker, so
that every word of L2 and of HBM4 is well-formed or poisoned (R107, R379). -/
def State.homeWord (s : State) (owner pa : Nat) (w : CWord) : State :=
  let s1 := s.l2Claim owner pa
  { s1 with mem := s1.mem.setWord pa w.sound }

/-- Words written at their home from an address up. -/
def State.homeWords (s : State) (owner pa : Nat) (ws : List CWord) : State :=
  (ws.zipIdx).foldl (fun s x => s.homeWord owner (pa + 4 * x.2) x.1) s

/-- The word of HBM4 at an address: behind a dirty line of L2, the one that the line is newer than. -/
def State.hbmWord (s : State) (pa : Nat) : CWord :=
  match (s.l2Line (pa / 128)).bind (·.dirty) with
  | some d => d.2.getD (pa % 128 / 4) .zero
  | none => s.mem.word (pa / 4 * 4)

/-- Lines written to HBM4 and kept. -/
def State.cleanL2 (s : State) (p : L2Line → Bool) : State :=
  { s with l2 := s.l2.map fun e => if p e then { e with dirty := none } else e }

/-- Lines invalidated without write-back: of a dirty one, the words of HBM4 are left. -/
def State.dropL2 (s : State) (p : L2Line → Bool) : State :=
  { s with
    mem := (s.l2.filter p).foldl (fun m e => match e.dirty with
      | some (_, ws) => m.setWords (128 * e.line) ws
      | none => m) s.mem
    l2 := s.l2.filter fun e => !p e }

/-- A line carries the tag of a context (R369). -/
def L2Line.ownedBy (e : L2Line) (c : Nat) : Bool := e.dirty.any fun d => d.1 == c

end Sys2Proof.Machine
end

