-- ==== Sys2Proof/Machine/Access.lean ====
section
/-!
DEFINITION. Reading and replacing one part of the state by its number, the clocks, and the reporting of errors
(R338, R447–R452).
-/

namespace Sys2Proof.Machine

/-- Half-die units of the package, and so its stacks and the pitches it may have (R2, R5, R439). -/
def Code.units (c : Code) : Nat := if c = .zlm4P then 8 else 16

/-- The package limit in W (R4, R5, R468). -/
def Code.packageLimit (c : Code) : Nat := if c = .zlm4P then 3400 else 6500

/-- The package has an island: 60 on each of its compute dies, and those of the two I/O dies (R470). -/
def Code.hasIsland (c : Code) (i : Nat) : Bool := decide (i < 30 * c.units) || decide (480 ≤ i)

/-- The package has a thermal sensor: 96 on each of its compute dies (R470). -/
def Code.hasSensor (c : Code) (j : Nat) : Bool := decide (j < 48 * c.units)

namespace State

/-- A warp by its number, (core × 16 + slot) × 32 + warp. -/
def warp (s : State) (wid : Nat) : Warp := s.warps.getD wid .absent
/-- The state with a warp replaced. -/
def setWarp (s : State) (wid : Nat) (w : Warp) : State := { s with warps := s.warps.put wid w }
/-- The state with a warp changed, if it is there. -/
def updWarp (s : State) (wid : Nat) (f : Warp → Warp) : State :=
  match s.warps.get? wid with
  | some w => s.setWarp wid (f w)
  | none => s
/-- A workgroup by its key, core × 16 + slot. -/
def wg (s : State) (k : Nat) : Workgroup := s.wgs.getD k .absent
/-- The state with a workgroup replaced. -/
def setWg (s : State) (k : Nat) (g : Workgroup) : State := { s with wgs := s.wgs.put k g }
/-- The state with a workgroup changed, if it is there. -/
def updWg (s : State) (k : Nat) (f : Workgroup → Workgroup) : State :=
  match s.wgs.get? k with
  | some g => s.setWg k (f g)
  | none => s
/-- A grid. -/
def grid (s : State) (g : Nat) : Grid := s.grids.getD g .absent
/-- The state with a grid changed, if it is there. -/
def updGrid (s : State) (g : Nat) (f : Grid → Grid) : State :=
  match s.grids.get? g with
  | some d => { s with grids := s.grids.put g (f d) }
  | none => s
/-- A context by its `ctx.id`. -/
def ctx (s : State) (c : Nat) : Context := s.ctxs.getD c .absent
/-- The state with a context changed, if it is bound. -/
def updCtx (s : State) (c : Nat) (f : Context → Context) : State :=
  match s.ctxs.get? c with
  | some k => { s with ctxs := s.ctxs.put c (f k) }
  | none => s
/-- A core, numbered die × 200 + core. -/
def core (s : State) (c : Nat) : Core := s.cores.getD c .reset
/-- The state with a core replaced. -/
def setCore (s : State) (c : Nat) (k : Core) : State := { s with cores := KMap.set s.cores c k .reset }
/-- The state with a core changed. -/
def updCore (s : State) (c : Nat) (f : Core → Core) : State := s.setCore c (f (s.core c))
/-- A pitch. -/
def pitch (s : State) (p : Nat) : Pitch := s.pitches.getD p .reset
/-- The state with a pitch changed, if it exists. -/
def updPitch (s : State) (p : Nat) (f : Pitch → Pitch) : State :=
  match s.pitches.get? p with
  | some q => { s with pitches := s.pitches.put p (f q) }
  | none => s
/-- The state with a region changed, if it is linked. -/
def updRegion (s : State) (a : Nat) (f : Region → Region) : State :=
  match s.regions.get? a with
  | some r => { s with regions := s.regions.put a (f r) }
  | none => s

/-- `time`: reference ticks of 10 ns, 12.5 cycles each (R27, R3). -/
def time (s : State) : Nat := s.cycle * 2 / 25

/-- A report leaves the device. -/
def report (s : State) (r : Report) : State := { s with reports := s.reports ++ [r] }

/-- A fresh free value and the state after it (log 7). -/
def fresh (s : State) : Word × State := (Config.freeWord s.free, { s with free := s.free + 1 })

end State

/-- The workgroup of a warp. -/
def wgKey (wid : Nat) : Nat := wid / 32
/-- The core of a workgroup. -/
def coreOf (k : Nat) : Nat := k / 16
/-- The core of a warp. -/
def warpCore (wid : Nat) : Nat := wid / 512
/-- The die of a core (R439). -/
def dieOf (core : Nat) : Nat := core / 200
/-- The half-die unit of a core (R439). -/
def unitOf (core : Nat) : Nat := core / 100

/-- The workgroup of a warp. -/
def State.wgOf (s : State) (wid : Nat) : Workgroup := s.wg (wgKey wid)
/-- The context of a warp. -/
def State.ctxOf (s : State) (wid : Nat) : Nat := (s.wgOf wid).ctx
/-- The grid of a warp. -/
def State.gridOf (s : State) (wid : Nat) : Grid := s.grid (s.wgOf wid).grid
/-- The pitch that owns a core's unit (R439). -/
def State.corePitch (s : State) (core : Nat) : Nat := s.units.getD (unitOf core) 16

/-- A lane of a warp. -/
def Warp.lane (w : Warp) (l : Nat) : Thread := w.lanes.getD l .absent
/-- Each lane changed by a function of its number. -/
def Warp.mapLanes (w : Warp) (f : Nat → Thread → Thread) : Warp := { w with lanes := w.lanes.mapIdx f }
/-- One lane changed. -/
def Warp.updLane (w : Warp) (l : Nat) (f : Thread → Thread) : Warp :=
  w.mapLanes fun i t => if i = l then f t else t

/-- A thread has not exited (R68). -/
def Thread.live (t : Thread) : Bool := t.status != .exited
/-- A thread is in a trap group (R56). -/
def Thread.inHandler (t : Thread) : Bool := !t.frames.isEmpty
/-- The mask of the lanes that satisfy a test. -/
def Warp.maskOf (w : Warp) (p : Nat → Thread → Bool) : Word :=
  (List.range 32).foldl (fun m i => if p i (w.lane i) then m ||| (1 <<< i) else m) 0
/-- The live lanes. -/
def Warp.live (w : Warp) : Word := w.maskOf fun _ t => t.live
/-- Lane numbers of a mask, ascending. -/
def lanesOf (m : Word) : List Nat := (List.range 32).filter fun i => m.getLsbD i
/-- The lowest lane of a mask. -/
def lowestLane (m : Word) : Option Nat := (lanesOf m).head?

/-- The live warps of a context, in the order of workgroup slots and warps. -/
def State.liveWarps (s : State) (c : Nat) : List Nat :=
  (s.warps.filter fun e => (s.ctxOf e.1 == c) && e.2.live != 0).map (·.1)

/-- The warp that an asynchronous error of a context goes to: the named one if it is live, else by R338's search. -/
def State.errorWarp (s : State) (c core : Nat) (named : Option Nat) : Option Nat :=
  let ws := s.liveWarps c
  let own := match named with
    | some w => ws.find? (· == w)
    | none => none
  own <|> ws.find? (fun w => warpCore w == core) <|> ws.find? (fun w => dieOf (warpCore w) == dieOf core) <|> ws.head?

/-- A region and its ancestors up to the pitch root, at most `n` of them. -/
def State.chain (s : State) : Nat → Nat → List Nat
  | 0, _ => []
  | n + 1, a =>
    match s.regions.get? a with
    | none => []
    | some r => a :: (if r.parent = 0 then [] else State.chain s n r.parent)

/-- An error record reaches the pitch's ring or is lost, with its AER message and vector (R447, R448, R452). The ring
is written by `writeRing`; here the head, `OVF`, the vector and the message. -/
def State.logRecord (s : State) (r : Record) : State :=
  { s with lantern := { s.lantern with log := (r :: s.lantern.log).take 65536 } }

/-- A pitch owns the stack that a physical address lies in (R367, R368). -/
def State.ownsStack (s : State) (p pa : Nat) : Bool :=
  pa / 2 ^ 40 == 0 && s.units.getD (pa / 2 ^ 36) 16 == p

/-- The eight words of an error record (R452). -/
def Record.words (r : Record) : List Word :=
  let lo : BitVec 64 := BitVec.ofNat 64 (r.cls + r.sev * 2 ^ 8 + r.ctx * 2 ^ 10 + r.unit * 2 ^ 22 + r.flags.toNat * 2 ^ 32)
  let pa : BitVec 64 := BitVec.ofNat 64 r.pa
  let tm : BitVec 64 := BitVec.ofNat 64 r.time
  let hi : BitVec 64 := BitVec.ofNat 64 (r.endpt + r.l2set * 2 ^ 16 + r.way * 2 ^ 27)
  [lo, pa, tm, hi].flatMap fun v => [v.extractLsb' 0 32, v.extractLsb' 32 32]

/-- Reporting an error to a pitch: the record in its ring when there is room, the vector and the AER message (R452). -/
def State.reportError (s : State) (p : Nat) (r : Record) : State :=
  let q := s.pitch p
  let head := q.erptr.toNat % 2 ^ 16
  let tail := q.erptr.toNat / 2 ^ 16 % 2 ^ 16
  let base := q.erbase.toNat / 2 ^ 13 % 2 ^ 39 * 2 ^ 13
  let s1 :=
    if !q.erptr.getLsbD 33 then s
    else if (head + 2 ^ 16 - tail) % 2 ^ 16 == 256 || !s.ownsStack p base then
      (s.updPitch p fun q => { q with erptr := q.erptr ||| (1 <<< 32) }).report (.irq p 3)
    else
      let s2 := s.homeWords ownerNone (base + 32 * (head % 256)) (r.words.map CWord.gen)
      (s2.updPitch p fun q =>
        { q with erptr := (q.erptr >>> 16 <<< 16) ||| BitVec.ofNat 64 ((head + 1) % 2 ^ 16) }).report (.irq p 3)
  s1.report (.aer p r.sev)

/-- The endpoint that finds an error (R452): the memory controller for class 3 and for a frame that it has retired (R378,
R451), the home slice for an access to a stack that is refused or a remote add there (R440, R115), else the core. -/
def State.finder (s : State) (cls core pa : Nat) : Nat :=
  if cls = 3 || (cls = 5 && s.lantern.dead.contains (pa / 65536)) then ctrlEndpoint pa
  else if (cls = 5 || (cls = 6 && pa != 0)) && pa / 2 ^ 40 = 0 then memEndpoint pa
  else dieOf core * 4096 + core % 200

/-- The half-die unit of an endpoint of a compute die (R439). -/
def unitOfEndpoint (e : Nat) : Nat :=
  let u := e % 4096
  e / 4096 * 2 + (if u < 256 then u / 100 else if u < 512 then (u - 256) / 12 else (u - 512) / 2)

/-- Class and severity of an error as a record (R447, R452). -/
def State.errorRecord (s : State) (cls ctx core pa : Nat) (flags : BitVec 5) : Record :=
  let e := s.finder cls core pa
  { cls := cls, sev := if cls = 1 then 0 else if cls = 10 then 2 else 1, ctx := ctx, unit := unitOfEndpoint e, flags := flags,
    pa := pa / 128 * 128, time := s.time, endpt := e, l2set := 0, way := 0 }

/-- A corrected error: class 1 (R447). -/
def State.corrected (s : State) (c core pa : Nat) : State :=
  s.reportError (s.ctx c).pitch (s.errorRecord 1 c core pa 0)

/-- An asynchronous uncorrectable error charged to a context: its record, and the whole-warp entry of R338 if the
context has a live warp. `extra` holds the further bits of `tinfo` (R328); `found` is the core that found it. -/
def State.ucerr (s : State) (c core : Nat) (named : Option Nat) (src : Nat) (cls pa : Nat) (addr : BitVec 64)
    (extra : Word := 0) (flags : BitVec 5 := 0) (found : Nat := core) : State :=
  let s1 := s.reportError (s.ctx c).pitch (s.errorRecord cls c found pa (if cls = 4 then 0b01000 else flags))
  match s1.errorWarp c core named with
  | none => s1
  | some w => s1.updWarp w fun x => { x with asyncs := x.asyncs ++ [⟨15, BitVec.ofNat 32 src ||| extra, addr⟩] }

end Sys2Proof.Machine
end

