-- ==== Sys2Proof/Machine/Aperture.lean ====
section
/-!
DEFINITION. Apertures: views of a buffer through a transform (R371–R377). A chunk is read and written as lists of its
checked words; the caller gives the memory that holds the buffer.
-/

namespace Sys2Proof.Machine

/-- Element size of a transpose (R372). -/
def Aperture.es (a : Aperture) : Nat := 2 ^ (a.esz % 4)

/-- The extent of a view in bytes (R372). -/
def Aperture.extent (a : Aperture) : Nat :=
  if a.xf = 4 then (a.rows + 1) * (a.cols + 1) * a.es else a.len * 4096

/-- The buffer byte of a view byte, for XF 4 (R373). -/
def Aperture.flip (a : Aperture) (o : Nat) : Nat :=
  let i := o / a.es
  let vr := i / (a.rows + 1)
  let vc := i % (a.rows + 1)
  a.buf + (vc * (a.cols + 1) + vr) * a.es + o % a.es

/-- One step of CRC-32C over a bit, reflected (R374). -/
def crcBit (c : BitVec 32) : BitVec 32 := if c.getLsbD 0 then (c >>> 1) ^^^ 0x82F63B78 else c >>> 1

/-- CRC-32C over a byte. -/
def crcByte (c : BitVec 32) (b : BitVec 8) : BitVec 32 :=
  crcBit (crcBit (crcBit (crcBit (crcBit (crcBit (crcBit (crcBit (c ^^^ b.zeroExtend 32))))))))

/-- CRC-32C of the bytes of words in address order (R374). -/
def crc32c (ws : List Word) : BitVec 32 :=
  ~~~ws.foldl (fun c w => crcByte (crcByte (crcByte (crcByte c (w.extractLsb' 0 8)) (w.extractLsb' 8 8))
    (w.extractLsb' 16 8)) (w.extractLsb' 24 8)) 0xFFFFFFFF

/-- Bits `[lo + n − 1 : lo]` of words joined low word first. -/
def fieldAt (ws : List Word) (lo n : Nat) : Nat :=
  bitsOf ((ws.getD (lo / 32) 0).toNat + (ws.getD (lo / 32 + 1) 0).toNat * 2 ^ 32) (lo % 32) n

/-- The words whose joined bits are fields of `n` bits, in order. -/
def joinFields (n : Nat) (xs : List Nat) : List Word :=
  let v := (xs.zipIdx).foldl (fun a x => a + x.1 * 2 ^ (n * x.2)) 0
  (List.range ((n * xs.length + 31) / 32)).map fun k => BitVec.ofNat 32 (v / 2 ^ (32 * k))

/-- Decoding of a zero-run line: the mask, then the nonzero words (R374). -/
def unpackZeros (mask : Word) : Nat → Nat → List CWord → List CWord
  | 0, _, _ => []
  | n + 1, k, ws =>
    if mask.getLsbD k then ws.headD .zero :: unpackZeros mask n (k + 1) ws.tail
    else .zero :: unpackZeros mask n (k + 1) ws

/-- Exponent fields of an exponent-delta line: the delta below E, or the next escape byte (R374). -/
def unpackExps (e : Nat) : List Nat → List Nat → List Nat
  | [], _ => []
  | d :: ds, esc => if d = 7 then esc.headD 0 :: unpackExps e ds esc.tail else (e - d) :: unpackExps e ds esc

/-- An exponent-delta line decoded: `n` elements, `dw` delta words, `bw` sign-and-fraction words (R374). -/
def unpackDelta (n dw bw fb : Nat) (ws : List Word) : List Nat :=
  let e := (ws.getD 0 0).toNat % 256
  let ds := (List.range n).map fun j => fieldAt (ws.drop 1) (3 * j) 3
  let sf := (List.range n).map fun j => fieldAt (ws.drop (1 + dw)) ((fb + 1) * j) (fb + 1)
  let esc := (List.range n).map fun j => fieldAt (ws.drop (1 + dw + bw)) (8 * j) 8
  (sf.zip (unpackExps e ds esc)).map fun (x, ex) => x / 2 ^ fb * 2 ^ (fb + 8) + ex * 2 ^ fb + x % 2 ^ fb

/-- The 32 words of a line from its code and its payload words, or none when it does not decode (R374, R376): a reserved or
poisoned code, or a bad word that steers the decoder. A decoded word is a source word with its residue, or is assembled from
checked words by steps that R108 predicts (R375). -/
def decodeLine (xf code : Nat) (ws : List CWord) : Option (List CWord) :=
  if code = 0 then some (List.replicate 32 .zero)
  else if code = 32 then some ws
  else if 32 < code then none
  else if xf = 1 then
    if (ws.headD .zero).wellFormed then some (unpackZeros (ws.headD .zero).data 32 0 ws.tail) else none
  else if ws.any (fun w => !w.wellFormed) then none
  else
    let d := ws.map (·.data)
    if xf = 2 then
      let h := unpackDelta 64 6 16 7 d
      some ((List.range 32).map fun k => .gen (BitVec.ofNat 32 (h.getD (2 * k) 0 + h.getD (2 * k + 1) 0 * 2 ^ 16)))
    else some ((unpackDelta 32 3 24 23 d).map fun x => .gen (BitVec.ofNat 32 x))

/-- An exponent-delta line encoded. -/
def packDelta (fb : Nat) (xs : List Nat) : List Word :=
  let ex := xs.map fun x => x / 2 ^ fb % 256
  let e := ex.foldl max 0
  let sf := xs.map fun x => x / 2 ^ (fb + 8) * 2 ^ fb + x % 2 ^ fb
  let ds := ex.map fun y => if e - y ≤ 6 then e - y else 7
  let esc := ex.filter fun y => 6 < e - y
  BitVec.ofNat 32 e :: joinFields 3 ds ++ joinFields (fb + 1) sf ++ joinFields 8 esc

/-- A line's code and payload; raw when the encoding would take 32 words or more (R374). A poisoned word is kept verbatim: XF 1
takes it for nonzero, and a line of XF 2 or 3 that holds one is raw (DESIGN CHOICE, log 105). -/
def encodeLine (xf : Nat) (ws : List CWord) : Nat × List CWord :=
  let here (w : CWord) : Bool := w.data != 0 || w.poisoned
  if ws.all (fun w => !here w) then (0, [])
  else if xf != 1 && ws.any (·.poisoned) then (32, ws)
  else
    let enc : List CWord :=
      if xf = 1 then
        let mask := (ws.zipIdx).foldl (fun m x => if here x.1 then m + 2 ^ x.2 else m) 0
        .gen (BitVec.ofNat 32 mask) :: ws.filter here
      else if xf = 2 then
        (packDelta 7 (ws.flatMap fun w => [w.data.toNat % 2 ^ 16, w.data.toNat / 2 ^ 16])).map .gen
      else (packDelta 23 (ws.map fun w => w.data.toNat)).map .gen
    if enc.length < 32 then (enc.length, enc) else (32, ws)

/-- A line as it leaves the slice: decoded again and checked against its source; a line that fails is stored poisoned (R375,
R114). -/
def encodeChecked (xf : Nat) (ws : List CWord) : Nat × List CWord :=
  let e := encodeLine xf ws
  if decodeLine xf e.1 e.2 == some ws then e else (32, ws.map CWord.poison)

/-- The line codes of a chunk from its metadata entry (R374). -/
def lineCodes (entry : List Word) : List Nat := (List.range 32).map fun i => fieldAt entry (6 * i) 6

/-- Payload words of a line code. -/
def codeLen (c : Nat) : Nat := if c ≤ 32 then c else 0

/-- The words of view line `i` of chunk `c` under a metadata entry, or none when it does not decode (R374, R376). -/
def Aperture.line (a : Aperture) (m : Mem) (entry : List CWord) (c i : Nat) : Option (List CWord) :=
  let d := entry.map (·.data)
  if entry.any (fun w => !w.wellFormed) then none
  else if !((d.getD 7 0).getLsbD 0) then some (List.replicate 32 .zero)
  else
    let codes := lineCodes d
    let start := ((codes.take i).map codeLen).sum
    let code := codes.getD i 0
    decodeLine a.xf code (m.words (a.buf + 4096 * c + 4 * start) (codeLen code))

/-- The address of the metadata entry of a view offset (R374). -/
def Aperture.entryAt (a : Aperture) (o : Nat) : Nat := a.md + 32 * (o / 4096)

/-- The buffer bytes of a view word that is not compressed (R373): none beyond the extent. -/
def Aperture.bytesOf (a : Aperture) (o : Nat) : List (Option Nat) :=
  (List.range 4).map fun k => if a.extent ≤ o + k then none else some (if a.xf = 4 then a.flip (o + k) else a.buf + o + k)

/-- A view word that is not compressed, from the words of the buffer (R373): carried, or assembled from bytes of checked words; a
bad one makes it poisoned, its data kept. -/
def Aperture.view (a : Aperture) (word : Nat → CWord) (o : Nat) : CWord :=
  if a.xf = 0 then word (a.buf + o)
  else if a.es = 4 then word (a.flip o)
  else
    let src := (a.bytesOf o).map fun b => b.map fun b => (word (b / 4 * 4), b % 4)
    let byte (k : Nat) : BitVec 8 := match src.getD k none with
      | some (w, j) => (partOf w.data j 1).extractLsb' 0 8
      | none => 0
    let d : Word := ((byte 3 ++ byte 2) ++ byte 1) ++ byte 0
    if src.any fun x => x.any fun y => !y.1.wellFormed then .poison ⟨d, 0⟩ else .gen d

/-- The buffer words that a view word written goes to, with their new values (R373): a bad word makes each of them poisoned. -/
def Aperture.scatter (a : Aperture) (word : Nat → CWord) (o : Nat) (w : CWord) : List (Nat × CWord) :=
  if a.xf = 0 then [(a.buf + o, w)]
  else if a.es = 4 then [(a.flip o, w)]
  else
    ((a.bytesOf o).zipIdx).foldl (fun acc x => match x.1 with
      | none => acc
      | some b =>
        let at4 := b / 4 * 4
        let old := match acc.find? fun y => y.1 == at4 with
          | some y => y.2
          | none => word at4
        let new := storePart old (b % 4) 1 (w.data >>> (8 * x.2))
        acc.filter (fun y => y.1 != at4) ++ [(at4, if w.wellFormed then new else .poison new)]) []

/-- A chunk's new metadata entry: codes, CRC and VALID (R374). -/
def entryWords (codes : List Nat) (crc : Word) : List CWord :=
  (((joinFields 6 codes).take 6 ++ [crc, 1]).map .gen)

/-- Words of one line staged into a compressed chunk, by their places in the chunk (R376): the new entry and payload, or none when
a line does not decode or the CRC disagrees. -/
def Aperture.stage (a : Aperture) (m : Mem) (entry : List CWord) (c : Nat) (xs : List (Nat × CWord)) :
    Option (List CWord × List CWord) :=
  let d := entry.map (·.data)
  match (List.range 32).mapM fun i => a.line m entry c i with
  | none => none
  | some lines =>
    let flat := lines.flatten
    if (d.getD 7 0).getLsbD 0 && crc32c (flat.map (·.data)) != d.getD 6 0 then none
    else
      let flat' := xs.foldl (fun ws x => ws.set x.1 x.2) flat
      let enc := (List.range 32).map fun i => encodeChecked a.xf ((flat'.drop (32 * i)).take 32)
      some (entryWords (enc.map (·.1)) (crc32c (flat'.map (·.data))), enc.flatMap (·.2))

/-- The entry of a chunk that a staged write could not be performed in: every line code 63 (R376). -/
def markedEntry (entry : List CWord) : List CWord := entryWords (List.replicate 32 63) ((entry.map (·.data)).getD 6 0)

end Sys2Proof.Machine
end

