-- ==== Sys2Proof/Machine/Physical.lean ====
section
/-!
DEFINITION. Physical addresses: what they name (R367, R368, R371, R381, R433, R436), the words they read and the effect
of writing them, and the words that the caches of a core hold (R361–R363, R366).
-/

namespace Sys2Proof.Machine

/-- What a physical address names (R367). -/
inductive Target where
  | hbm
  | host
  | tether (win off : Nat)
  | aperture (n off : Nat)
  | regs (p off : Nat)
  | store (off : Nat)
  | reserved
  deriving DecidableEq, Repr

/-- Decoding of a physical address for an issuer of a pitch (R367, R381, R440, R461). A stack that is not fitted or whose
unit the pitch does not own is reserved. -/
def State.target (s : State) (p : Nat) (priv : Bool) (pa : Nat) : Target :=
  match pa / 2 ^ 48 with
  | 0 => if s.ownsStack p pa then .hbm else .reserved
  | 8 => .host
  | 9 | 10 | 11 => .tether ((pa / 2 ^ 48 - 9) * 4096 + pa / 2 ^ 36 % 4096) (pa % 2 ^ 36)
  | 14 => .aperture (pa / 2 ^ 44 % 16) (pa % 2 ^ 44)
  | 15 =>
    let o := pa % 2 ^ 48
    if 0x100000 ≤ o ∧ o < 0x200000 then
      if (o - 0x100000) / 0x10000 = p ∧ priv then .regs p (o % 0x10000) else .reserved
    else .reserved
  | _ => .reserved

/-- The 64-bit value of a pitch register at an offset that is a multiple of 8 (R381 and the chapters it names); a W
register reads 0. -/
def State.regValue (s : State) (p off : Nat) : BitVec 64 :=
  let q := s.pitch p
  match off with
  | 0x018 => q.rlstat.zeroExtend 64
  | 0x030 => if q.tlbBusy then 1 <<< 63 else 0
  | 0x038 => q.twbase
  | 0x040 => q.tibase
  | 0x048 => q.twcnt.zeroExtend 64
  | 0x050 => BitVec.ofNat 64 (s.fabric.gver + s.fabric.tver * 16 + min s.fabric.nadv 65535 * 2 ^ 16)
  | 0x058 => q.units.zeroExtend 64
  | 0x060 => q.tctx.zeroExtend 64
  | 0x068 => q.erbase
  | 0x070 => q.erptr
  | 0x078 => q.dmpbase
  | 0x080 => q.dmpstat.zeroExtend 64
  | 0x088 => q.cxcmd.zeroExtend 64
  | 0x090 => q.cxstat.zeroExtend 64
  | 0x098 => q.cxroot
  | 0x0A0 => q.cxvec
  | 0x0A8 => q.cxflags.zeroExtend 64
  | 0x100 => q.pcsave
  | 0x108 => q.pcsize.zeroExtend 64
  | 0x110 => q.pcreq.zeroExtend 64
  | 0x118 => q.pcstat.zeroExtend 64
  | 0x200 => 0x03020100
  | _ =>
    if 0x400 ≤ off ∧ off < 0x600 then
      let a := q.apert.getD ((off - 0x400) / 32) .off
      match off % 32 with
      | 0 => BitVec.ofNat 64 (a.buf / 4096 * 4096)
      | 8 => BitVec.ofNat 64 (a.md / 32 * 32)
      | 16 => BitVec.ofNat 64 (a.len + (if a.en then 2 ^ 32 else 0) + a.xf * 2 ^ 33 + a.esz * 2 ^ 36)
      | _ => BitVec.ofNat 64 (a.rows + a.cols * 2 ^ 32)
    else 0

/-- The event that a write of a pitch register is (R381, R384, R386, R387, R418, R372, R9). -/
def regEvent (p off : Nat) (v : BitVec 64) : Instr :=
  match off with
  | 0x000 => .rlink p v
  | 0x008 => .rsync p v
  | 0x010 => .runlink p v
  | 0x020 => .qdoor p v
  | 0x028 => .edoor p v
  | 0x030 => .tlbinv p v
  | _ => if 0x400 ≤ off ∧ off < 0x600 then .apertureWrite p ((off - 0x400) / 32) (off % 32 / 8) v
         else .registerWrite (.pitch p) off v

/-- The peer device of an outbound window of a pitch (R433). -/
def State.peerOf (s : State) (p win : Nat) : Nat :=
  bitsOf (pairOf (s.mem.words ((s.pitch p).twbase.toNat + 16 * win) 2)).toNat 16 15

/-- The Tether port, 0 to 17, that packets to a peer device take: the routing tables choose (R427, R431; log 107). -/
def State.portTo (s : State) (dev : Nat) : Nat := Config.tetherRoute s.fabric.tver dev % 18

/-- The endpoint of a Tether port (R424). -/
def portEndpoint (port : Nat) : Nat := (8 + port / 9) * 4096 + 1024 + port % 9

/-- A Tether port carries residues (R432): as its last training left it. -/
def State.carriesResidues (s : State) (port : Nat) : Bool :=
  match s.fabric.ports.get? port with
  | some x => x.carriage
  | none => Config.carriage port

/-- A word as it crosses the link of a Tether port (R432, R114): with residues carried, unchanged but for a mismatch; else it is
checked and its residue dropped at one end, and generated at the other, a bad word arriving poisoned. -/
def State.crossed (s : State) (port : Nat) (w : CWord) : CWord :=
  if s.carriesResidues port then w.sound else if w.wellFormed then .gen w.data else .poison w

/-- A word as it crosses the Tether link to the peer of a window. -/
def State.carried (s : State) (p win : Nat) (w : CWord) : CWord := s.crossed (s.portTo (s.peerOf p win)) w

/-- An access of a pitch through an outbound window is admitted on the sending side, and a route remains (R430, R434). -/
def State.tetherOk (s : State) (p win : Nat) (write : Bool) : Bool :=
  let q := s.pitch p
  let e := s.mem.words (q.twbase.toNat + 16 * win) 4
  let lo := (pairOf e).toNat
  let hi := (pairOf (e.drop 2)).toNat
  win < q.twcnt.toNat % 2 ^ 14 && e.all (·.wellFormed) && lo % 2 == 1 && (!write || lo / 2 % 2 == 1) &&
    lo / 4 % 2 ^ 14 == 0 && lo / 2 ^ 31 % 2 == 0 && lo / 2 ^ 48 == 0 && hi == 0 &&
    (s.fabric.lost.get? (lo / 2 ^ 16 % 2 ^ 15)).isNone

/-- The buffer of a view, and its metadata, at an offset lie in stacks that the pitch owns (R372, R440). -/
def State.ownsView (s : State) (p : Nat) (a : Aperture) (off : Nat) : Bool :=
  if a.xf = 0 || a.xf = 4 then (a.bytesOf (off / 4 * 4)).all fun b => b.all fun x => s.ownsStack p x
  else s.ownsStack p (a.buf + off / 4096 * 4096) && s.ownsStack p (a.entryAt off)

/-- The aperture a physical address goes through, when it is in use, the offset lies in the view and its buffer in a stack of
the pitch (R372). -/
def State.apertureAt (s : State) (p n off : Nat) : Option Aperture :=
  let a := (s.pitch p).apert.getD n .off
  if a.en && off < a.extent && s.ownsView p a off then some a else none

/-- The number of an aperture line of a pitch among the L2 copies of views (R371). -/
def viewKey (p pa : Nat) : Nat := p * 2 ^ 45 + pa / 128

/-- The slice that coordinates the chunk of a view offset: the home of its first payload line (R376). -/
def Aperture.slice (a : Aperture) (off : Nat) : Nat := memEndpoint (a.buf + off / 4096 * 4096)

/-- A metadata entry as its slice holds it (R377). -/
def State.metaAt (s : State) (a : Aperture) (off : Nat) : List CWord :=
  match (KMap.getD s.metas (a.slice off) []).find? fun e => e.pos == a.entryAt off with
  | some e => e.words
  | none => s.mem.words (a.entryAt off) 8

/-- A word of a view's line as its L2 slice has it: the copy that L2 holds, or else gathered from the buffer in HBM4 (R323,
R373). -/
def State.viewWord (s : State) (p pa : Nat) (a : Aperture) (off : Nat) : CWord :=
  match s.views.get? (viewKey p pa) with
  | some v => v.words.getD (pa % 128 / 4) .zero
  | none => a.view s.hbmWord off

/-- The word at a word-aligned physical address, as its home gives it (R367, R451): a word whose residue does not match leaves
its slice, and HBM4, poisoned (R114, R370, R379). Words of a peer cross Tether as its port carries them (R432). -/
def State.physWord (s : State) (p : Nat) (priv : Bool) (pa : Nat) : CWord :=
  match s.target p priv pa with
  | .hbm => if s.lantern.dead.contains (pa / 65536) then .poison .zero else (s.mem.word pa).sound
  | .host => s.mem.word pa
  | .tether win _ => if s.tetherOk p win false then s.carried p win (s.mem.word pa) else .poison .zero
  | .aperture n off =>
    match s.apertureAt p n off with
    | some a =>
      if a.xf = 0 || a.xf = 4 then (s.viewWord p pa a off).sound
      else match a.line s.mem (s.metaAt a off) (off / 4096) (off % 4096 / 128) with
        | some ws => (ws.getD (off % 128 / 4) .zero).sound
        | none => .poison .zero
    | none => .poison .zero
  | .regs p off => .gen ((s.regValue p (off / 8 * 8)).extractLsb' (off % 8 * 8) 32)
  | .store _ | .reserved => .poison .zero

/-- An access cannot be performed at all: a reserved address, or a Tether access that is refused (R262, R367, R434). -/
def State.physRefused (s : State) (p : Nat) (priv : Bool) (pa : Nat) (write : Bool) : Option Nat :=
  match s.target p priv pa with
  | .reserved | .store _ => some 2
  | .aperture n off => if (s.apertureAt p n off).isNone then some 2 else none
  | .tether win _ => if s.tetherOk p win write then none else some 4
  | .hbm => if write && s.lantern.dead.contains (pa / 65536) then some 2 else none
  | _ => none

/-- Who an access is made for: the core, the context, the warp if one is named, privilege, and the virtual address. -/
structure Issuer where
  core : Nat
  ctx  : Nat
  wid  : Option Nat
  priv : Bool
  va   : BitVec 64
  deriving DecidableEq, Repr

/-- The pitch an access is stamped with (R440). -/
def State.pitchOf (s : State) (who : Issuer) : Nat := (s.ctx who.ctx).pitch

/-- The address an error reports: the virtual address, or the physical one where there is none (R328). -/
def Issuer.errAddr (who : Issuer) (pa : Nat) : BitVec 64 := if who.va = 0 then BitVec.ofNat 64 pa else who.va

/-- Words written into the buffer behind a view, under a tag: the buffer's lines become dirty in their home slices. -/
def State.bufferWords (s : State) (owner : Nat) (xs : List (Nat × CWord)) : State :=
  xs.foldl (fun s x => s.homeWord owner (x.1 / 4 * 4) x.2) s

/-- The words of a view's line that are newer than the buffer written to HBM4 (R373, R323); the copy stays. -/
def State.viewBack (s : State) (key : Nat) : State :=
  match s.views.get? key with
  | none => s
  | some v =>
    match v.dirty with
    | none => s
    | some tag =>
      let a := (s.pitch (key / 2 ^ 45)).apert.getD (key * 128 / 2 ^ 44 % 16) .off
      let base := key * 128 % 2 ^ 44
      let s1 := (List.range 32).foldl (fun s k =>
        if v.mask.getLsbD k then
          let xs := a.scatter s.hbmWord (base + 4 * k) (v.words.getD k .zero)
          (s.bufferWords tag xs).cleanL2 fun e => xs.any fun x => x.1 / 128 == e.line
        else s) s
      { s1 with views := s1.views.put key { v with mask := 0, dirty := none } }

/-- A view's line leaves L2, its newer words first written to HBM4. -/
def State.viewOut (s : State) (key : Nat) : State :=
  let s1 := s.viewBack key
  { s1 with views := s1.views.erase key }

/-- A view's line held in L2, gathered from the buffer if it was not there (R371, R373). -/
def State.viewLine (s : State) (p pa : Nat) (a : Aperture) (off : Nat) : View :=
  match s.views.get? (viewKey p pa) with
  | some v => v
  | none => ⟨(List.range 32).map fun k => a.view s.hbmWord (off / 128 * 128 + 4 * k), 0, none⟩

/-- Words written to a view that is not compressed: its line becomes dirty under the writer's tag; words dirty under another
tag are first written back (R369, R373). -/
def State.viewWords (s : State) (owner p : Nat) (a : Aperture) (xs : List (Nat × CWord)) : State :=
  match xs with
  | [] => s
  | (pa, _) :: _ =>
    let key := viewKey p pa
    let s1 := if ((s.views.get? key).bind (·.dirty)).any fun t => t != owner then s.viewBack key else s
    let v := s1.viewLine p pa a (pa % 2 ^ 44)
    let v1 : View := ⟨xs.foldl (fun ws x => ws.set (x.1 % 128 / 4) x.2) v.words,
      xs.foldl (fun m x => m ||| (1 <<< (x.1 % 128 / 4))) v.mask, some owner⟩
    { s1 with views := s1.views.put key v1 }

/-- A metadata entry written back to APMETA (R377). -/
def State.metaBack (s : State) (e : MetaEntry) : State :=
  match e.dirty with
  | some tag => s.homeWords tag e.pos e.words
  | none => s

/-- A metadata entry put into the cache of its slice as the most recently used of 512; a dirty one that has to go is written
back (R377). -/
def State.metaPut (s : State) (slice : Nat) (e : MetaEntry) : State :=
  let xs := e :: (KMap.getD s.metas slice []).filter fun x => x.pos != e.pos
  (xs.drop 512).foldl State.metaBack { s with metas := s.metas.put slice (xs.take 512) }

/-- The entries that a test names written back, and out of the caches (R377). -/
def State.metaOut (s : State) (p : MetaEntry → Bool) : State :=
  s.metas.foldl (fun s m => (m.2.filter p).foldl State.metaBack s)
    { s with metas := s.metas.mapv fun _ xs => xs.filter fun e => !p e }

/-- Words of one line of a compressed view written (R376, R377): the chunk is staged at its coordinating slice; its payload lines
and its entry become dirty under the writer's tag. The flag is false when the write was not performed and the chunk is marked
poisoned. -/
def State.chunkWords (s : State) (owner : Nat) (a : Aperture) (off : Nat) (xs : List (Nat × CWord)) : State × Bool :=
  let c := off / 4096
  let entry := s.metaAt a off
  match a.stage s.mem entry c (xs.map fun x => (x.1 % 4096 / 4, x.2)) with
  | some (e, payload) =>
    ((s.homeWords owner (a.buf + 4096 * c) payload).metaPut (a.slice off) ⟨a.entryAt off, e, some owner⟩, true)
  | none => (s.metaPut (a.slice off) ⟨a.entryAt off, markedEntry entry, some owner⟩, false)

/-- Words of one line written at their home under a tag, for a pitch, where they can be (R367, R373, R376); the flag is false for
a staged write that was not performed. -/
def State.placeWords (s : State) (owner p : Nat) (priv : Bool) (xs : List (Nat × CWord)) : State × Bool :=
  match xs with
  | [] => (s, true)
  | (pa, _) :: _ =>
    match s.target p priv pa with
    | .aperture n off =>
      match s.apertureAt p n off with
      | none => (s, true)
      | some a => if a.xf = 0 || a.xf = 4 then (s.viewWords owner p a xs, true) else s.chunkWords owner a off xs
    | .tether win _ => (xs.foldl (fun s x => s.homeWord owner x.1 (s.carried p win x.2)) s, true)
    | .host => (xs.foldl (fun s x =>
        if x.2.wellFormed then s.homeWord owner x.1 (.gen x.2.data)
        else (s.homeWord owner x.1 (.poison x.2)).report (.poisonedWrite p x.1)) s, true)
    | _ => (xs.foldl (fun s x => s.homeWord owner x.1 x.2) s, true)

/-- Four bytes of a register as the write that they are: bytes `k` on of the 8 at an offset (R9). -/
def State.regBytes (s : State) (p off : Nat) (n : Nat) (w : Word) : State :=
  { s with agenda := s.agenda ++ [.regBytes p (off / 8 * 8) (w.zeroExtend 64 <<< (8 * (off % 8)))
      (BitVec.ofNat 8 ((2 ^ n - 1) * 2 ^ (off % 8)))] }

/-- Words of one line written at physical addresses: a write that cannot be performed is dropped and reported (R367, R376, R430);
one that carries a retired context is dropped (R347, R369). A word whose residue does not match is poisoned as it is written, and
reported (R107, R114). A write of a device register is an event (R381). -/
def State.physWrites (s : State) (who : Issuer) (xs : List (Nat × CWord)) : State :=
  match xs with
  | [] => s
  | (pa, _) :: _ =>
    let p := s.pitchOf who
    if (s.ctx who.ctx).retired then s
    else
      match s.physRefused p who.priv pa true with
      | some src =>
        s.ucerr who.ctx who.core who.wid src (if src = 4 then 9 else 5) pa
          (if src = 4 then BitVec.ofNat 64 pa else who.errAddr pa)
      | none =>
        match s.target p who.priv pa with
        | .regs p _ => xs.foldl (fun s x => s.regBytes p (x.1 % 2 ^ 16) 4 x.2.data) s
        | _ =>
          let (s1, ok) := s.placeWords who.ctx p who.priv (xs.map fun x => (x.1, x.2.sound))
          let s2 := if ok then s1 else s1.ucerr who.ctx who.core who.wid 2 5 pa (BitVec.ofNat 64 pa)
          (xs.filter fun x => x.2.mismatched).foldl (fun s x =>
            s.ucerr who.ctx who.core who.wid 0 4 x.1 (who.errAddr x.1)) s2

/-- One word written at a physical address. A part of a device register is written beside its other part (DESIGN CHOICE, log 106). -/
def State.physWrite (s : State) (who : Issuer) (pa : Nat) (w : CWord) : State := s.physWrites who [(pa, w)]

/-- L1 holds lines of this address: lines of HBM4 and of apertures; host space and peer windows are never cached (R321,
R361). -/
def cacheable (pa : Nat) : Bool := pa / 2 ^ 48 == 0 || pa / 2 ^ 48 == 14

/-- The word that the L1 of a core holds at a physical address, if it holds one: dirty, or valid and clean (R359). -/
def Core.held? (c : Core) (pa : Nat) : Option CWord :=
  match c.dirty.get? pa with
  | some d => some d.word
  | none => c.clean.get? pa

/-- The word at a physical address as a thread of a core loads it: from its L1 where that holds the word, else from its
home (R361). -/
def State.coreWord (s : State) (core p : Nat) (priv : Bool) (pa : Nat) : CWord :=
  match (s.core core).held? pa with
  | some w => w
  | none => s.physWord p priv pa

/-- The word at a physical address as an engine of a core reads it: the core's own dirty word, else from its home (R407). -/
def State.engineWord (s : State) (core p : Nat) (priv : Bool) (pa : Nat) : CWord :=
  match (s.core core).dirty.get? pa with
  | some d => d.word
  | none => s.physWord p priv pa

/-- A line of L1 has a valid word. -/
def Core.hasLine (c : Core) (n : Nat) : Bool := c.dirty.any (fun e => e.1 / 128 == n) || c.clean.any fun e => e.1 / 128 == n

/-- The lines of L1 that still have a valid word, and of those held back the ones that are still dirty. -/
def Core.tidy (c : Core) : Core :=
  { c with lines := c.lines.filter c.hasLine, held := c.held.filter fun n => c.dirty.any fun e => e.1 / 128 == n }

/-- Every valid bit of a clean word cleared: what an acquire at gang scope or wider does to L1 (R362). -/
def Core.dropClean (c : Core) : Core := { c with clean := [] }.tidy

/-- The words of a line dropped from L1. -/
def Core.dropL1 (c : Core) (n : Nat) : Core :=
  { c with dirty := c.dirty.filter fun e => e.1 / 128 != n, clean := c.clean.filter fun e => e.1 / 128 != n }.tidy

/-- The valid bits of a line's clean words cleared. -/
def Core.dropCleanLine (c : Core) (n : Nat) : Core := { c with clean := c.clean.filter fun e => e.1 / 128 != n }.tidy

/-- A line put first in the instruction cache of a core: 128 sets of 4 ways, least recently used out (R366). -/
def Core.fillCode (c : Core) (line : Nat) (ws : List CWord) : Core :=
  let rest := c.icache.filter fun e => e.1 != line
  let set := (rest.filter fun e => e.1 % 128 == line % 128).take 3
  { c with icache := (line, ws) :: rest.filter fun e => e.1 % 128 != line % 128 || set.any fun x => x.1 == e.1 }

/-- The 32 words of the line of an address, as its home slice holds them. -/
def State.lineWords (s : State) (p pa : Nat) : List CWord :=
  (List.range 32).map fun k => s.physWord p true (pa / 128 * 128 + 4 * k)

/-- Words of a line of HBM4 whose residues do not match, found by an access of a context, are poisoned in L2 and reported
(R114, R370). -/
def State.sweepLine (s : State) (core c pa : Nat) : State :=
  ((List.range 32).map fun k => pa / 128 * 128 + 4 * k).foldl (fun s a =>
    if pa / 2 ^ 40 = 0 && (s.mem.word a).mismatched then
      ({ s with mem := s.mem.setWord a (s.mem.word a).sound }).ucerr c core none 0 4 a (BitVec.ofNat 64 a)
    else s) s

/-- The line of an address read from its home slice for a context: a line of a view stays in L2, and so does the metadata entry of
a compressed one (R371, R373, R377); mismatched words are found on the way (R114). -/
def State.fetchLine (s : State) (core c p pa : Nat) : State × List CWord :=
  let ws := s.lineWords p pa
  (match s.target p true pa with
    | .aperture n off =>
      match s.apertureAt p n off with
      | none => s
      | some a =>
        if a.xf = 0 || a.xf = 4 then { s with views := s.views.put (viewKey p pa) (s.viewLine p pa a off) }
        else
          let old := (KMap.getD s.metas (a.slice off) []).find? fun e => e.pos == a.entryAt off
          s.metaPut (a.slice off) (old.getD ⟨a.entryAt off, s.metaAt a off, none⟩)
    | .hbm => (s.l2Access pa).sweepLine core c pa
    | _ => s, ws)

/-- The line of an address brought into the instruction cache, unless it is there: then it is the most recently used. Host
space, peer windows and registers are never cached (R321, R361, R366). -/
def State.codeLine (s : State) (core c p pa : Nat) : State :=
  if cacheable pa then
    match (s.core core).icache.find? fun e => e.1 == pa / 128 with
    | some e => s.updCore core fun c => c.fillCode (pa / 128) e.2
    | none =>
      let (s1, ws) := s.fetchLine core c p pa
      s1.updCore core fun c => c.fillCode (pa / 128) ws
  else s

/-- The word that an instruction fetch finds once its line is cached (R366). -/
def State.codeWord (s : State) (core p pa : Nat) : CWord :=
  match (s.core core).icache.find? fun e => e.1 == pa / 128 with
  | some e => e.2.getD (pa % 128 / 4) .zero
  | none => s.physWord p true pa

/-- The dirty words of one line of a core's L1 are written back together under their tag and become clean (R242, R361, R363). A
mismatched one is poisoned on its way and reported (R114). -/
def State.writeBack (s : State) (core n : Nat) : State :=
  let ds := (s.core core).dirty.filter fun e => e.1 / 128 == n
  match ds with
  | [] => s
  | (_, d) :: _ =>
    let s1 := s.updCore core fun c =>
      { c with
        dirty := c.dirty.filter fun e => e.1 / 128 != n
        clean := ds.foldl (fun (m : KMap CWord) e => m.put e.1 e.2.word) c.clean
        held := c.held.filter fun m => m != n }
    s1.physWrites ⟨core, d.ctx, some d.wid, true, d.va⟩ (ds.map fun e => (e.1, e.2.word))

/-- The lines of the listed dirty words of a core written back. -/
def State.writeBacks (s : State) (core : Nat) (pas : List Nat) : State :=
  ((pas.map fun pa => pa / 128).dedup).foldl (fun s n => s.writeBack core n) s

/-- The dirty words of a core in the line of an address. -/
def State.dirtyInLine (s : State) (core pa : Nat) : List Nat :=
  ((s.core core).dirty.filter fun e => e.1 / 128 == pa / 128).map (·.1)

end Sys2Proof.Machine
end

