-- ==== Sys2Proof/Machine/Paging.lean ====
section
/-!
DEFINITION. Address translation: page tables, the walk, permissions, translation buffers and the fault word
(R410–R421).
-/

namespace Sys2Proof.Machine

/-- How an address is used: the accesses R413 and R420 tell apart. -/
structure Access where
  write : Bool := false
  fetch : Bool := false
  user  : Bool := false
  wb    : Bool := false
  mat   : Bool := false
  copy  : Option Nat := none
  deriving DecidableEq, Repr

/-- `tinfo` of `PAGE` and `FETCH` (R420). -/
def Access.info (u : Access) (kind level : Nat) : Word :=
  BitVec.ofNat 32 (u.copy.getD 0 + kind * 4 + level * 32 + (if u.write then 128 else 0) + (if u.mat then 512 else 0) +
    (if u.wb then 1024 else 0) + (if u.copy.isSome then 2 ^ 31 else 0))

/-- `tinfo` of the residue case of `FETCH` (R124, R420). -/
def fetchResidue : Word := 256

/-- A page-table entry breaks a rule of R412 at a level. -/
def pteMalformed (level : Nat) (e : BitVec 64) : Bool :=
  let leaf := e.getLsbD 1
  bitsOf e.toNat 5 11 != 0 || bitsOf e.toNat 52 12 != 0 || (level == 1 && leaf) || (level == 3 && !leaf) ||
    (!leaf && bitsOf e.toNat 2 3 != 0) || (level == 2 && leaf && bitsOf e.toNat 16 13 != 0)

/-- PA of an entry: the frame or the next table (R412). -/
def ptePa (e : BitVec 64) : Nat := bitsOf e.toNat 16 36 * 65536

/-- One entry of a walk: `KIND` and level of the fault that ends it, or the entry (R412, R415). The walker reads at the
home slice, never through L1. -/
def State.pte (s : State) (p table idx level : Nat) : Except (Nat × Nat) (BitVec 64) :=
  let ws := [s.physWord p true (table + 8 * idx), s.physWord p true (table + 8 * idx + 4)]
  let e := pairOf ws
  if ws.any (fun w => !w.wellFormed) then .error (5, level)
  else if !e.getLsbD 0 then .error (0, level)
  else if pteMalformed level e then .error (4, level)
  else .ok e

/-- The leaf as a buffered translation. -/
def tlbOf (c va : Nat) (big : Bool) (e : BitVec 64) : Tlb :=
  let size := if big then 2 ^ 29 else 2 ^ 16
  { ctx := c, va := va / size * size, big := big, pa := ptePa e, w := e.getLsbD 2, x := e.getLsbD 3, u := e.getLsbD 4 }

/-- The cache of a die's walker (R414). -/
def State.walker (s : State) (die : Nat) : List WalkEntry := KMap.getD s.walkers die []

/-- The bytes of address space that one entry of level 1 or 2 serves (R410). -/
def walkSpan (level : Nat) : Nat := if level = 1 then 2 ^ 42 else 2 ^ 29

/-- A non-leaf entry as the walker's cache would hold it. -/
def walkEntry (c va table level : Nat) (e : BitVec 64) : WalkEntry :=
  let size := walkSpan level
  { ctx := c, va := va / size * size, size := size, at_ := table + 8 * (va / size % 8192), e := e }

/-- The entry of level 1 or 2 that a walk meets: the one that the die's walker holds from the same place for the same
addresses (R414, R416), or else as it stands in memory. -/
def State.pteHeld (s : State) (die c p table va level : Nat) : Except (Nat × Nat) (BitVec 64) :=
  let k := walkEntry c va table level 0
  match (s.walker die).find? fun w => { w with e := 0 } == k with
  | some w => .ok w.e
  | none => s.pte p table (va / walkSpan level % 8192) level

/-- The table of level 1 of a context (R411). -/
def Context.table (k : Context) : Nat := bitsOf k.ptroot.toNat 16 36 * 65536

/-- A page walk on a die (R410, R411, R413). -/
def State.walk (s : State) (die c va : Nat) : Except (Nat × Nat) Tlb :=
  let k := s.ctx c
  if !k.ptroot.getLsbD 0 then .error (0, 1)
  else
    match s.pteHeld die c k.pitch k.table va 1 with
    | .error f => .error f
    | .ok e1 =>
      match s.pteHeld die c k.pitch (ptePa e1) va 2 with
      | .error f => .error f
      | .ok e2 =>
        if e2.getLsbD 1 then .ok (tlbOf c va true e2)
        else
          match s.pte k.pitch (ptePa e2) (va / 2 ^ 16 % 8192) 3 with
          | .error f => .error f
          | .ok e3 => .ok (tlbOf c va false e3)

/-- The non-leaf entries that a walk meets. -/
def State.walkMeets (s : State) (die c va : Nat) : List WalkEntry :=
  let k := s.ctx c
  if !k.ptroot.getLsbD 0 then []
  else
    match s.pteHeld die c k.pitch k.table va 1 with
    | .error _ => []
    | .ok e1 =>
      walkEntry c va k.table 1 e1 :: match s.pteHeld die c k.pitch (ptePa e1) va 2 with
        | .error _ => []
        | .ok e2 => if e2.getLsbD 1 then [] else [walkEntry c va (ptePa e1) 2 e2]

/-- The walker's cache after a walk: 256 entries, the oldest dropped (R414; DESIGN CHOICE, log 100). -/
def State.walked (s : State) (die c va : Nat) : State :=
  let new := (s.walkMeets die c va).filter fun w => !(s.walker die).contains w
  if new.isEmpty then s else { s with walkers := s.walkers.put die ((new ++ s.walker die).take 256) }

/-- A buffered translation covers an address of a context (R414). -/
def Tlb.hits (t : Tlb) (c va : Nat) : Bool :=
  t.ctx == c && t.va == (if t.big then va / 2 ^ 29 * 2 ^ 29 else va / 2 ^ 16 * 2 ^ 16)

/-- The first permission an access lacks, in the order of R413. -/
def Tlb.denies (t : Tlb) (u : Access) : Option Nat :=
  if u.write && !t.w then some 1
  else if u.fetch && !t.x then some 2
  else if u.user && !t.u then some 3
  else none

/-- The translation of an address: the buffered one if there is one (R416), else the walk's (R415). -/
def State.lookup (s : State) (core c va : Nat) (code : Bool) : Except (Nat × Nat) Tlb :=
  let buf := if code then (s.core core).itlb else (s.core core).dtlb
  match buf.find? (·.hits c va) with
  | some t => .ok t
  | none => s.walk (dieOf core) c va

/-- An access starts a walk (R415). -/
def State.needsWalk (s : State) (core c va : Nat) (code : Bool) : Bool :=
  !((if code then (s.core core).itlb else (s.core core).dtlb).any (·.hits c va))

/-- Translation of a 55-bit address: the fault word, or the physical address (R413, R419, R420). -/
def State.translate (s : State) (core c va : Nat) (u : Access) : Except Word Nat :=
  match s.lookup core c va u.fetch with
  | .error (kind, level) => .error (u.info kind level)
  | .ok t =>
    match t.denies u with
    | some kind => .error (u.info kind (if t.big then 2 else 3))
    | none => .ok (t.pa + va % (if t.big then 2 ^ 29 else 2 ^ 16))

/-- A translation put into a core's buffer, the oldest dropped where it is full (R414). -/
def State.install (s : State) (core : Nat) (code : Bool) (t : Tlb) : State :=
  s.updCore core fun c =>
    if code then { c with itlb := (t :: c.itlb).take 16 }
    else
      let l := t :: c.dtlb
      { c with dtlb := (l.filter (·.big)).take 16 ++ (l.filter fun x => !x.big).take 64 }

/-- The buffers after an access: what its walk found is installed, and what it met on the way is held by the walker; a
translation that faults, at the walk or because it denies the access, is never held (R414, R421). -/
def State.touch (s : State) (core c va : Nat) (u : Access) : State :=
  if s.needsWalk core c va u.fetch then
    let s1 := s.walked (dieOf core) c va
    match s.walk (dieOf core) c va with
    | .ok t => if (t.denies u).isSome then s1 else s1.install core u.fetch t
    | .error _ => s1
  else s

/-- The page that a walk of an address serves, by its first address: misses to one page share a walk (R415). -/
def State.walkPage (s : State) (core c va : Nat) : Nat :=
  match s.walk (dieOf core) c va with
  | .ok t => t.va
  | .error _ => va / 2 ^ 16 * 2 ^ 16

/-- The pages of addresses whose accesses start walks, once each (R415). -/
def State.walksOf (s : State) (core c : Nat) (code : Bool) (vas : List Nat) : List Nat :=
  ((vas.filter fun va => s.needsWalk core c va code).map fun va => s.walkPage core c va).dedup

/-- Translations of a context removed from the buffers of every core and from every walker's cache: all, or those of a
range of addresses (R237, R417, R418). -/
def State.dropTlbs (s : State) (c : Nat) (page : Option (Nat × Nat)) : State :=
  let keep (t : Tlb) : Bool :=
    t.ctx != c || match page with
      | none => false
      | some (lo, hi) => t.va + (if t.big then 2 ^ 29 else 2 ^ 16) ≤ lo || hi ≤ t.va
  let keepWalk (w : WalkEntry) : Bool :=
    w.ctx != c || match page with
      | none => false
      | some (lo, hi) => w.va + w.size ≤ lo || hi ≤ w.va
  { s with
    cores := s.cores.mapv fun _ k => { k with dtlb := k.dtlb.filter keep, itlb := k.itlb.filter keep }
    walkers := s.walkers.mapv fun _ l => l.filter keepWalk }

end Sys2Proof.Machine
end

