-- ==== Sys2Proof/Machine/Float.lean ====
section
/-!
DEFINITION. Floating-point values as exact dyadic numbers, the IEEE formats, the exact operations and the one rounding
of each instruction (R75–R78, R97, R98, R101).
-/

namespace Sys2Proof.Machine

/-- A value: a NaN, signalling or not, with its sign; an infinity; or ± m × 2^e. -/
inductive FVal where
  | nan (sig neg : Bool)
  | inf (neg : Bool)
  | fin (neg : Bool) (m : Nat) (e : Int)
  deriving DecidableEq, Repr

/-- An IEEE format: exponent and fraction bits (R75). -/
structure Ieee where
  eb : Nat
  fb : Nat
  deriving DecidableEq, Repr

/-- binary32. -/
def Ieee.f32 : Ieee := ⟨8, 23⟩
/-- binary16. -/
def Ieee.f16 : Ieee := ⟨5, 10⟩
/-- bfloat16. -/
def Ieee.bf16 : Ieee := ⟨8, 7⟩
/-- The format of a TYPE code (R181). -/
def Ieee.ofTy : Nat → Ieee
  | 0 => .f32
  | 2 => .bf16
  | _ => .f16

namespace Ieee
/-- The exponent bias. -/
def bias (F : Ieee) : Int := 2 ^ (F.eb - 1) - 1
/-- The exponent of the smallest normal. -/
def emin (F : Ieee) : Int := 1 - F.bias
/-- The bits of +∞. -/
def infBits (F : Ieee) : Nat := (2 ^ F.eb - 1) * 2 ^ F.fb
/-- The sign bit's weight. -/
def signBit (F : Ieee) : Nat := 2 ^ (F.eb + F.fb)
/-- The canonical quiet NaN (R77). -/
def qnan (F : Ieee) : Nat := F.infBits + 2 ^ (F.fb - 1)
/-- Bits of a format's values. -/
def width (F : Ieee) : Nat := 1 + F.eb + F.fb

/-- The value of a code (R75, R77). -/
def decode (F : Ieee) (x : Nat) : FVal :=
  let s := x.testBit (F.eb + F.fb)
  let ex := x / 2 ^ F.fb % 2 ^ F.eb
  let fr := x % 2 ^ F.fb
  if ex = 2 ^ F.eb - 1 then
    if fr = 0 then .inf s else .nan (!fr.testBit (F.fb - 1)) s
  else if ex = 0 then .fin s fr (F.emin - F.fb)
  else .fin s (fr + 2 ^ F.fb) (ex - F.bias - F.fb)
end Ieee

/-! ## Rounding -/

/-- `m × 2^e` as a multiple of `2^q` under a rounding mode (R97), and whether it was inexact. -/
def roundQ (rm : Nat) (neg : Bool) (m : Nat) (e q : Int) : Nat × Bool :=
  if q ≤ e then (m * 2 ^ (e - q).toNat, false)
  else
    let k := (q - e).toNat
    let n := m / 2 ^ k
    let r := m % 2 ^ k
    if r = 0 then (n, false)
    else
      let up := match rm with
        | 0 => decide (2 ^ k < 2 * r) || (2 * r == 2 ^ k && n % 2 == 1)
        | 1 => false
        | 2 => !neg
        | _ => neg
      (n + up.toNat, true)

/-- A magnitude rounded into an IEEE format: bits and flags; tininess after rounding (R78, R98). `sat` gives the largest
finite value on overflow (R193). -/
def roundMag (F : Ieee) (rm : Nat) (sat neg : Bool) (m : Nat) (e : Int) : Nat × BitVec 5 :=
  if m = 0 then (0, 0)
  else
    let lg : Int := Nat.log2 m + e
    let low := F.emin - F.fb
    let q := max (lg - F.fb) low
    let (n, nx) := roundQ rm neg m e q
    let bits := (q - low).toNat * 2 ^ F.fb + n
    if F.infBits ≤ bits then
      (if sat || rm = 1 || (rm = 2 && neg) || (rm = 3 && !neg) then F.infBits - 1 else F.infBits, flagOF ||| flagNX)
    else
      let tiny := decide (lg < F.emin) && !((roundQ rm neg m e (lg - F.fb)).1 == 2 ^ (F.fb + 1) && lg == F.emin - 1)
      (bits, if nx then (if tiny then flagUF ||| flagNX else flagNX) else 0)

/-- A value rounded into an IEEE format: bits and flags (R77, R183). -/
def roundTo (F : Ieee) (rm : Nat) (v : FVal) (sat : Bool := false) : Nat × BitVec 5 :=
  match v with
  | .nan sig _ => (F.qnan, if sig then flagNV else 0)
  | .inf neg => (F.infBits + (if neg then F.signBit else 0), 0)
  | .fin neg m e =>
    let (b, fl) := roundMag F rm sat neg m e
    (b + (if neg then F.signBit else 0), fl)

/-! ## Exact operations -/

namespace FVal

/-- A NaN. -/
def isNan : FVal → Bool | .nan _ _ => true | _ => false
/-- A signalling NaN. -/
def isSig : FVal → Bool | .nan s _ => s | _ => false
/-- The sign. -/
def sign : FVal → Bool | .nan _ n => n | .inf n => n | .fin n _ _ => n
/-- Zero. -/
def isZero : FVal → Bool | .fin _ 0 _ => true | _ => false
/-- The negation. -/
def neg : FVal → FVal | .nan s n => .nan s !n | .inf n => .inf !n | .fin n m e => .fin (!n) m e
/-- The value times `2^k`. -/
def scale (k : Int) : FVal → FVal | .fin n m e => .fin n m (e + k) | v => v
/-- An integer. -/
def ofInt (x : Int) : FVal := .fin (x < 0) x.natAbs 0

end FVal

/-- A signed multiple of `2^q`, for a `q` at or below `e`. -/
def signedAt (n : Bool) (m : Nat) (e q : Int) : Int :=
  let v : Int := (m * 2 ^ (e - q).toNat : Nat)
  if n then -v else v

/-- The invalid flag of signalling operands. -/
def sigFlag (vs : List FVal) : BitVec 5 := if vs.any (·.isSig) then flagNV else 0

/-- The exact sum; `rm` gives the sign of an exact zero (R78). -/
def addX (rm : Nat) (x y : FVal) : FVal × BitVec 5 :=
  let fl := sigFlag [x, y]
  match x, y with
  | .nan _ _, _ | _, .nan _ _ => (.nan false false, fl)
  | .inf a, .inf b => if a = b then (.inf a, fl) else (.nan false false, flagNV)
  | .inf a, _ => (.inf a, fl)
  | _, .inf b => (.inf b, fl)
  | .fin a m e, .fin b n g =>
    let q := min e g
    let sum := signedAt a m e q + signedAt b n g q
    if sum = 0 then (.fin (if a = b then a else rm == 3) 0 0, fl) else (.fin (sum < 0) sum.natAbs q, fl)

/-- The exact product (R78). -/
def mulX (x y : FVal) : FVal × BitVec 5 :=
  let fl := sigFlag [x, y]
  let s := x.sign != y.sign
  match x, y with
  | .nan _ _, _ | _, .nan _ _ => (.nan false false, fl)
  | .inf _, v | v, .inf _ => if v.isZero then (.nan false false, flagNV) else (.inf s, fl)
  | .fin _ m e, .fin _ n g => (.fin s (m * n) (e + g), fl)

/-- Comparison of two values, none NaN: less, equal, greater; −0 equals +0. -/
def cmpX (x y : FVal) : Ordering :=
  match x, y with
  | .inf a, .inf b => if a = b then .eq else if a then .lt else .gt
  | .inf a, _ => if a then .lt else .gt
  | _, .inf b => if b then .gt else .lt
  | .fin a m e, .fin b n g => compare (signedAt a m e (min e g)) (signedAt b n g (min e g))
  | _, _ => .eq

/-- floor of `log2` of `m × 2^e`, `m` not 0. -/
def log2X (m : Nat) (e : Int) : Int := Nat.log2 m + e

/-- The value of an exact sum of terms (R185), from the left. -/
def sumX (rm : Nat) (v : FVal) (vs : List FVal) : FVal × BitVec 5 :=
  vs.foldl (fun acc w => let (r, f) := addX rm acc.1 w; (r, acc.2 ||| f)) (v, 0)

/-- A sum of two binary32 words with one rounding (R101). -/
def addF32 (rm : Nat) (a b : Word) : Word × BitVec 5 :=
  let (v, f1) := addX rm (Ieee.f32.decode a.toNat) (Ieee.f32.decode b.toNat)
  let (r, f2) := roundTo .f32 rm v
  (BitVec.ofNat 32 r, f1 ||| f2)

end Sys2Proof.Machine
end

