-- ==== Sys2Proof/Machine/SfuMath.lean ====
section
/-!
DEFINITION. What the special-function unit computes (R199, R200): the exact cases, the special operands, and for every
other operand a free value among those within the error bound of R199. The mathematical value is approximated to far
below the bound by integer series; the bound is widened by that error, so no value the manual allows is left out.
-/

namespace Sys2Proof.Machine

/-! ## Series in fixed point, 640 fraction bits -/

/-- 2^640. -/
def fxOne : Int := 2 ^ 640
/-- π × 2^640, rounded down. -/
def fxPi : Int := 0x3243F6A8885A308D313198A2E03707344A4093822299F31D0082EFA98EC4E6C89452821E638D01377BE5466CF34E90C6CC0AC29B7C97C50DD3F84D5B5B54709179216D5D98979FB1BD1310BA698DFB5AC
/-- ln 2 × 2^640, rounded down. -/
def fxLn2 : Int := 0xB17217F7D1CF79ABC9E3B39803F2F6AF40F343267298B62D8A0D175B8BAAFA2BE7B876206DEBAC98559552FB4AFA1B10ED2EAE35C138214427573B291169B8253E96CA16224AE8C51ACBDA11317C387E
/-- 2/√π × 2^640, rounded down. -/
def fxErf : Int := 0x120DD750429B6D11AE3A914FED7FD8688281341D7587CEA2E7342B06199CC416180EB39F0B24E1E2281806C12D98F35D77A3E9DDC91C394F0E9EEDF0EFFFD84A2A4AC3B98489B8CBD3845E8FEF6FF6AF9

/-- The product of two fixed-point numbers. -/
def fxMul (x y : Int) : Int := x * y / fxOne
/-- The quotient of two fixed-point numbers. -/
def fxDiv (x y : Int) : Int := x * fxOne / y
/-- `± m × 2^e` in fixed point. -/
def fxOf (neg : Bool) (m : Nat) (e : Int) : Int :=
  let v : Int := if 0 ≤ e + 640 then (m * 2 ^ (e + 640).toNat : Nat) else (m / 2 ^ (-(e + 640)).toNat : Nat)
  if neg then -v else v

/-- The sum of `n` terms of a series: from term `k`, each the last times `x` over `d k`. -/
def fxSeries (x : Int) (d : Nat → Int) : Nat → Nat → Int → Int → Int
  | 0, _, _, acc => acc
  | n + 1, k, t, acc => fxSeries x d n (k + 1) (fxMul t x / d k) (acc + t)

/-- e^x for x in [0, 1). -/
def fxExp1 (x : Int) : Int := fxSeries x (fun k => k + 1) 140 0 fxOne 0
/-- e^x, with x at most 256. -/
def fxExp (x : Int) : Int :=
  let n := x / fxLn2
  let y := fxExp1 (x % fxLn2)
  if 0 ≤ n then y * 2 ^ n.toNat else y / 2 ^ (-n).toNat
/-- sin x for x in [0, 2π). -/
def fxSin (x : Int) : Int := fxSeries (-(fxMul x x)) (fun k => (2 * k + 2) * (2 * k + 3)) 100 0 x 0
/-- cos x for x in [0, 2π). -/
def fxCos (x : Int) : Int := fxSeries (-(fxMul x x)) (fun k => (2 * k + 1) * (2 * k + 2)) 100 0 fxOne 0

/-- The sum of `z^(2k+1)/(2k+1)`. -/
def fxAtanh (z2 : Int) : Nat → Nat → Int → Int → Int
  | 0, _, _, acc => acc
  | n + 1, k, p, acc => fxAtanh z2 n (k + 1) (fxMul p z2) (acc + p / (2 * k + 1))
/-- ln((1 + z)/(1 − z)) for |z| at most 1/3. -/
def fxLnZ (z : Int) : Int := 2 * fxAtanh (fxMul z z) 210 0 z 0
/-- ln of `m × 2^e`, m not 0. -/
def fxLn (m : Nat) (e : Int) : Int :=
  let k := Nat.log2 m
  let f := fxOf false m (-k)
  fxLnZ (fxDiv (f - fxOne) (f + fxOne)) + (k + e) * fxLn2

/-- The sum of the series of erf: `(−1)^k x^(2k+1)/(k! (2k+1))`. -/
def fxErfSum (x2 : Int) : Nat → Nat → Int → Int → Int
  | 0, _, _, acc => acc
  | n + 1, k, t, acc => fxErfSum x2 n (k + 1) (-(fxMul t x2) / (k + 1)) (acc + t / (2 * k + 1))

/-- The integer square root, by bits from `i` down. -/
def isqrtBits (n : Nat) : Nat → Nat → Nat
  | 0, r => r
  | i + 1, r => isqrtBits n i (if (r + 2 ^ i) * (r + 2 ^ i) ≤ n then r + 2 ^ i else r)
/-- The integer square root of a number below 2^1800. -/
def isqrt (n : Nat) : Nat := isqrtBits n 900 0

/-! ## The functions -/

/-- An approximation `c × 2^q`, within `2^(q + s)`. -/
structure Approx where
  c : Int
  q : Int
  s : Nat
  deriving DecidableEq, Repr

/-- A fixed-point result. -/
def fxApprox (c : Int) : Approx := ⟨c, -640, 140⟩

/-- The square root of `m × 2^e`: a mantissa with a sticky bit, and its exponent. -/
def sqrtX (m : Nat) (e : Int) : Nat × Int :=
  let odd := e % 2 = 1
  let n := (if odd then 2 * m else m) * 2 ^ 800
  let r := isqrt n
  (2 * r + (if r * r = n then 0 else 1), (if odd then e - 1 else e) / 2 - 401)

/-- The value of a special function at a finite nonzero operand where it is finite (R199). -/
def sfuApprox (op : Op) (neg : Bool) (m : Nat) (e : Int) : Approx :=
  let x := fxOf neg m e
  let lim (n : Nat) : Int := clampInt (-(n * fxOne)) (n * fxOne) x
  match op with
  | .rcp => ⟨(if neg then -1 else 1) * (2 ^ 600 / (m : Int)), -600 - e, 1⟩
  | .rsq => let (r, g) := sqrtX m e; ⟨2 ^ 1200 / (r : Int), -1200 - g, 1⟩
  | .sqrt => let (r, g) := sqrtX m e; ⟨r, g, 1⟩
  | .exp2 =>
    let y := lim 300
    ⟨fxExp1 (fxMul (y % fxOne) fxLn2), y / fxOne - 640, 140⟩
  | .log2 => fxApprox (fxDiv (fxLn m e) fxLn2)
  | .sin => fxApprox (fxSin (x % (2 * fxPi)))
  | .cos => fxApprox (fxCos (x % (2 * fxPi)))
  | .tanh => let t := fxExp (2 * lim 120); fxApprox (fxDiv (t - fxOne) (t + fxOne))
  | .sigm => fxApprox (fxDiv fxOne (fxOne + fxExp (-lim 240)))
  | .erf =>
    if 6 * fxOne ≤ x then ⟨2 ^ 150, -150, 100⟩
    else if x ≤ -(6 * fxOne) then ⟨-(2 ^ 150), -150, 100⟩
    else
      let c := fxMul fxErf (fxErfSum (fxMul x x) 330 0 x 0)
      if -fxOne < x && x < fxOne then fxApprox c else ⟨c / 2 ^ 490, -150, 100⟩
  | .sinpi => fxApprox (fxSin (fxMul (x % (2 * fxOne)) fxPi))
  | .cospi => fxApprox (fxCos (fxMul (x % (2 * fxOne)) fxPi))
  | .expm1 => fxApprox (fxExp (lim 250) - fxOne)
  | .log1p =>
    if -fxOne < 2 * x && 2 * x < fxOne then fxApprox (fxLnZ (fxDiv x (2 * fxOne + x)))
    else
      let q := min e 0
      fxApprox (fxLn (2 ^ (-q).toNat + signedAt neg m e q).toNat q)
  | _ => ⟨0, 0, 0⟩

/-- The exact result where R199 lists one, or where the function is algebraic and correctly rounded. -/
def sfuExact (op : Op) (F : Ieee) (neg : Bool) (m : Nat) (e : Int) : Option FVal :=
  let pow := m == 2 ^ Nat.log2 m
  let lg := log2X m e
  match op with
  | .rcp => if pow && F.emin ≤ -lg && -lg ≤ F.bias then some (.fin neg 1 (-lg)) else none
  | .rsq => if pow && lg % 2 == 0 then some (.fin false 1 (-lg / 2)) else none
  | .sqrt => let (r, g) := sqrtX m e; some (.fin false r g)
  | .exp2 =>
    let q := min e 0
    let v := signedAt neg m e q
    if v % 2 ^ (-q).toNat = 0 then some (.fin false 1 (clampInt (-1000) 1000 (v / 2 ^ (-q).toNat))) else none
  | .log2 => if pow then some (.ofInt lg) else none
  | .sinpi | .cospi =>
    let q := min e (-1)
    let v := signedAt neg m e q
    if v % 2 ^ (-q - 1).toNat = 0 then
      let h := (v / 2 ^ (-q - 1).toNat + (if op == .cospi then 1 else 0)) % 4
      some (.fin (h == 3) (if h % 2 = 1 then 1 else 0) 0)
    else none
  | _ => none

/-- The result at a special operand, with its flags (R200). -/
def sfuSpecial (op : Op) (v : FVal) : Option (FVal × BitVec 5) :=
  let nan : FVal × BitVec 5 := (.nan false false, flagNV)
  let one (n : Bool) : FVal := .fin n 1 0
  let zero (n : Bool) : FVal := .fin n 0 0
  match v with
  | .nan sig _ => some (.nan false false, if sig then flagNV else 0)
  | .inf n =>
    match op with
    | .rcp => some (zero n, 0)
    | .rsq => some (if n then nan else (zero false, 0))
    | .sqrt | .log2 | .log1p => some (if n then nan else (.inf false, 0))
    | .exp2 => some (if n then zero false else .inf false, 0)
    | .expm1 => some (if n then one true else .inf false, 0)
    | .sin | .cos | .sinpi | .cospi => some nan
    | .tanh | .erf => some (one n, 0)
    | .sigm => some (if n then zero false else one false, 0)
    | _ => none
  | .fin n 0 _ =>
    match op with
    | .rcp | .rsq => some (.inf n, flagDZ)
    | .sqrt | .expm1 | .log1p | .sin | .sinpi | .tanh | .erf => some (zero n, 0)
    | .exp2 | .cos | .cospi => some (one false, 0)
    | .log2 => some (.inf true, flagDZ)
    | .sigm => some (.fin false 1 (-1), 0)
    | _ => none
  | .fin true m e =>
    match op with
    | .rsq | .sqrt | .log2 => some nan
    | .log1p =>
      let q := min e 0
      let k := signedAt true m e q + 2 ^ (-q).toNat
      if k < 0 then some nan else if k = 0 then some (.inf true, flagDZ) else none
    | _ => none
  | _ => none

/-- Ulps of the result in binary32, and the absolute bound as a power of two, of R199; an absolute bound alone has 0
ulps. -/
def sfuBound (op : Op) (lg : Int) : Nat × Option Int :=
  match op with
  | .rcp | .rsq | .sqrt => (1, none)
  | .exp2 | .expm1 | .log1p => (2, none)
  | .log2 => if lg = -1 || lg = 0 then (0, some (-22)) else (2, none)
  | .sin | .cos => (0, some (-21))
  | .sinpi | .cospi => (1, some (-24))
  | _ => (2, some (-24))

/-- `c × 2^q` rounded to a multiple of a format's spacing, towards −∞ or +∞, as an order number: the signed magnitude
bits. -/
def orderOf (F : Ieee) (rm : Nat) (c q : Int) : Int :=
  let (b, _) := roundMag F rm true (c < 0) c.natAbs q
  if c < 0 then -b else b

/-- A free result within the bound: the bits and the flags (R199, R200). Every overflow gives +∞ (R200; log 36). -/
def sfuFree (op : Op) (F : Ieee) (ty : Nat) (lg : Int) (src : Word) (a : Approx) : Nat × BitVec 5 :=
  let near := roundMag F 0 false (a.c < 0) a.c.natAbs a.q
  if F.infBits ≤ near.1 then (F.infBits, flagOF ||| flagNX)
  else
    let ulpExp := max (log2X a.c.natAbs a.q) F.emin - F.fb
    let (ulps, abs) := if ty = 0 then sfuBound op lg else (1, none)
    let base := min a.q (min ulpExp (-24)) - 1
    let at_ (k : Int) (x : Nat) : Int := (x : Int) * 2 ^ (k - base).toNat
    let byUlp := at_ ulpExp ulps
    let byAbs := match abs with | some k => at_ k 1 | none => 0
    let bound := max byUlp byAbs + at_ a.q (2 ^ a.s)
    let c := a.c * 2 ^ (a.q - base).toNat
    let lo := orderOf F 2 (c - bound) base
    let hi := orderOf F 3 (c + bound) base
    let k := lo + (Config.sfuValue op.code ty src).toNat % (hi - lo + 1)
    let bits := k.natAbs + (if k < 0 || (k = 0 && a.c < 0) then F.signBit else 0)
    (bits, if k.natAbs < 2 ^ F.fb then flagUF ||| flagNX else flagNX)

/-- The result bits and flags of a special function (R199, R200): TYPE and RM codes, and the source word. -/
def sfuBits (op : Op) (ty rm : Nat) (src : Word) : Nat × BitVec 5 :=
  let F := Ieee.ofTy ty
  let src : Word := BitVec.ofNat 32 (src.toNat % 2 ^ F.width)
  let v := F.decode src.toNat
  match sfuSpecial op v with
  | some (r, fl) => ((roundTo F 0 r).1, fl)
  | none =>
    match v with
    | .fin n m e =>
      match sfuExact op F n m e with
      | some r =>
        let (b, fl) := roundTo F rm r
        if op == .sqrt && ty != 0 && rm = 0 && fl != 0 then
          (b - 1 + (Config.sfuValue op.code ty src).toNat % 2 + (if (roundTo F 3 r).1 = b then 1 else 0), fl)
        else (b, fl)
      | none => sfuFree op F ty (log2X m e) src (sfuApprox op n m e)
    | _ => (F.qnan, 0)

/-- The checked result word of a special function, with its generated residue (R203), and its flags. -/
def sfuResult (op : Op) (ty rm : Nat) (src : Word) : CWord × BitVec 5 :=
  let (b, fl) := sfuBits op ty rm src
  (.gen (BitVec.ofNat 32 b), fl)

end Sys2Proof.Machine
end

