-- ==== Sys2Proof/Machine/Ops.lean ====
section
/-!
DEFINITION. The named operations over registers and threads; killing a context (R347, R450); taking a trap, written
once for synchronous and engine entry (R327–R333, R462, R463) and for asynchronous entry (R338); the return (R334).
-/

namespace Sys2Proof.Machine

/-! ## Registers -/

/-- A vector register of a thread (R18). -/
def Thread.reg (t : Thread) (n : Nat) : CWord := t.regs.getD n .zero
/-- The thread with a vector register written. -/
def Thread.setReg (t : Thread) (n : Nat) (w : CWord) : Thread := { t with regs := KMap.set t.regs n w .zero }
/-- The thread with consecutive registers written, from `n` up. -/
def Thread.setRegs (t : Thread) (n : Nat) : List CWord → Thread
  | [] => t
  | w :: ws => Thread.setRegs (t.setReg n w) (n + 1) ws
/-- A uniform register of a warp (R26). -/
def Warp.wreg (w : Warp) (n : Nat) : CWord := w.wregs.getD n .zero
/-- The warp with a uniform register written. -/
def Warp.setWreg (w : Warp) (n : Nat) (x : CWord) : Warp := { w with wregs := KMap.set w.wregs n x .zero }
/-- The warp with consecutive uniform registers written. -/
def Warp.setWregs (w : Warp) (n : Nat) : List CWord → Warp
  | [] => w
  | x :: xs => Warp.setWregs (w.setWreg n x) (n + 1) xs

/-- A predicate (R22). -/
def Thread.pred (t : Thread) (n : Nat) : Bool := t.preds.getLsbD n
/-- The two copies of a predicate disagree (R22). -/
def Thread.predBad (t : Thread) (n : Nat) : Bool := t.preds.getLsbD n != t.preds'.getLsbD n
/-- A bit of twelve set to a value. -/
def setBit12 (x : BitVec 12) (n : Nat) (b : Bool) : BitVec 12 := if b then x ||| (1#12 <<< n) else x &&& ~~~(1#12 <<< n)
/-- The thread with a predicate written in both copies (R22). -/
def Thread.setPred (t : Thread) (n : Nat) (b : Bool) : Thread :=
  { t with preds := setBit12 t.preds n b, preds' := setBit12 t.preds' n b }
/-- The thread with predicates written in turn. -/
def Thread.setPreds (t : Thread) : List (Nat × Bool) → Thread
  | [] => t
  | (n, b) :: ps => Thread.setPreds (t.setPred n b) ps

/-- The guard of a lane (R23): code 15 always executes. -/
def Thread.guard (t : Thread) (g : BitVec 4) : Bool := g == 15 || t.pred g.toNat

/-- `tinfo` of `RESIDUE` and `POISON` (R116). -/
def residueInfo (site cls : Nat) (inj hiw : Bool) : Word :=
  BitVec.ofNat 32 (site + cls * 16 + (if inj then 64 else 0) + (if hiw then 128 else 0))

/-- `tinfo` of a `DATA` trap taken at an instruction (R480). -/
def dataInfo (reason arg : Nat) : Word := BitVec.ofNat 32 (arg % 2 ^ 16 + reason * 2 ^ 16)

/-- The cause codes of R326. -/
def causeIllegal : Nat := 1
/-- `PRIV`. -/
def causePriv : Nat := 2
/-- `PATCH`. -/
def causePatch : Nat := 3
/-- `FETCH`. -/
def causeFetch : Nat := 4
/-- `ALIGN`. -/
def causeAlign : Nat := 5
/-- `DATA`. -/
def causeData : Nat := 6
/-- `PAGE`. -/
def causePage : Nat := 7
/-- `RANGELOCK`. -/
def causeRangelock : Nat := 8
/-- `POISON`. -/
def causePoison : Nat := 9
/-- `RESIDUE`. -/
def causeResidue : Nat := 10
/-- `BOUND`. -/
def causeBound : Nat := 11
/-- `MRESIDUE`. -/
def causeMresidue : Nat := 12
/-- `SUSPECT`. -/
def causeSuspect : Nat := 13
/-- `SWTRAP`. -/
def causeSwtrap : Nat := 14
/-- `UCERR`. -/
def causeUcerr : Nat := 15
/-- `PREEMPT`. -/
def causePreempt : Nat := 16

/-- `ALIGN`: `taddr` is the address (R27); no rule gives its `tinfo`, which is a free value (DESIGN CHOICE, log 33). -/
def alignTrap (a : BitVec 64) : Trap := ⟨causeAlign, Config.trapInfo causeAlign a, a⟩

/-- `PRIV` (R137), with the address of the instruction; no rule gives its `tinfo`, which is a free value (DESIGN CHOICE,
log 33). -/
def privTrap (pc : BitVec 64) : Trap := ⟨causePriv, Config.trapInfo causePriv pc, pc⟩

/-! ## The SFU queue -/

/-- The word with one bit flipped: a data bit, or a residue bit (R119). -/
def flipWord (w : CWord) (bit : Nat) (rfld : Bool) : CWord :=
  if rfld then ⟨w.data, w.tag ^^^ (1#4 <<< (bit % 4))⟩ else ⟨w.data ^^^ (1#32 <<< bit), w.tag⟩

/-- One queued result written back, with its flags (R202); a word that fails its check is computed again from the
operand and the event reported as corrected (R203, step 1). -/
def State.sfuWrite (s : State) (e : SfuEntry) : State :=
  let good := (sfuResult e.op e.ty e.rm e.src.data).1
  let v := match e.after with
    | some (bit, rfld) => flipWord good bit rfld
    | none => good
  let s1 := if e.value.wellFormed then s else s.corrected (s.ctxOf e.wid) (warpCore e.wid) 0
  s1.updWarp e.wid fun w =>
    let w1 := w.updLane e.lane fun t =>
      if t.live then
        let t1 := { t with fflags := t.fflags ||| e.flags }
        if e.dst.uni then t1 else t1.setReg e.dst.reg v
      else t
    if e.dst.uni && e.write then w1.setWreg e.dst.reg v else w1

/-- The queued results that a test names are written back, oldest first, and leave the queue. -/
def State.drainSfu (s : State) (core : Nat) (p : SfuEntry → Bool) : State :=
  let q := (s.core core).sfu
  ((q.filter p).foldl State.sfuWrite s).updCore core fun c => { c with sfu := c.sfu.filter fun e => !p e }

/-! ## Killing a context -/

/-- The completion word (R390). -/
def completionWord (st why qidx : Nat) : BitVec 64 := BitVec.ofNat 64 (st + why * 256 + qidx * 2 ^ 32)

/-- A physical address at which words can be written: in HBM4, host memory, a peer's window or an aperture in use (R367,
R371). -/
def State.isData (s : State) (p pa : Nat) : Bool :=
  match s.target p true pa with
  | .hbm | .host | .tether _ _ | .aperture _ _ => (s.physRefused p true pa true).isNone
  | _ => false

/-- The completion word of a grid written through its context, where that can be done, and its vector (R390). -/
def State.complete (s : State) (g : Grid) (st why : Nat) : State :=
  let c := s.ctx g.ctx
  let p := match s.regions.get? g.region with
    | some r => r.pitch
    | none => c.pitch
  let s1 :=
    if g.caddr = 0 || 2 ^ 55 ≤ g.caddr.toNat || (s.ctxs.get? g.ctx).isNone || c.retired || c.pitch != p then s
    else match s.translate 1600 g.ctx g.caddr.toNat { write := true } with
      | .error _ => s
      | .ok pa => 
        if s.isData p pa then
          (s.placeWords ownerNone p true (((ofPair (completionWord st why g.qidx)).zipIdx).map fun x => (pa + 4 * x.2, x.1))).1
        else s
  if g.cirq || st = 3 then s1.report (.irq p 0) else s1

/-- Slot generations advanced, with a sweep of each old value (R364, R365). -/
def Core.advance (c : Core) (slot upto : Nat) : Core :=
  let g := c.gens.getD slot 0
  { c with gens := c.gens.set slot ((g + 1) % 16), sweeps := c.sweeps ++ [⟨slot, g, upto⟩] }

/-- A workgroup's place is freed: its slot generation advances, its ladle requests and locks go, and an engine it holds
is released with its state discarded (R69). -/
def State.freeWg (s : State) (k : Nat) : State :=
  let s1 := s.updCore (coreOf k) fun c =>
    let c1 := c.advance (k % 16) s.fabric.nextId
    { c1 with
      queues := c1.queues.map fun q => q.filter fun r => r.wg != k
      locks := c1.locks.filter fun l => l.2.slot != k % 16
      engine := if c1.engine.holder == some k || c1.engine.queue.any (fun e => wgKey e.wid == k) then .empty
                else c1.engine
      sfu := c1.sfu.filter fun e => wgKey e.wid != k
      pins := c1.pins.erase (k % 16) }
  { s1 with wgs := s1.wgs.erase k, warps := s1.warps.filter fun e => wgKey e.1 != k }

/-- The workgroups of a context. -/
def State.wgsOf (s : State) (c : Nat) : List Nat := (s.wgs.filter fun e => e.2.ctx == c).map (·.1)

/-- A context stopped and its work discarded; its number is retired (R347, steps 1 to 4). The retirement points
acknowledge in the event `KILL_DONE`, which is due. -/
def State.killOne (s : State) (c why : Nat) : State :=
  let n := (s.wgsOf c).length
  let s1 := (s.wgsOf c).foldl (fun s k => s.freeWg k) s
  let grids := (s1.grids.filter fun e => e.2.ctx == c && !e.2.killed)
  let s2 := grids.foldl (fun s e => s.complete e.2 2 why) s1
  let s3 := { s2 with
    grids := s2.grids.filter fun e => e.2.ctx != c
    saved := s2.saved.erase c
    cores := s2.cores.mapv fun _ k => { k with dirty := k.dirty.filter fun d => d.2.ctx != c }.tidy }
  let s3 := { s3 with
    views := s3.views.filter fun e => e.2.dirty != some c
    metas := s3.metas.mapv fun _ xs => xs.filter fun e => e.dirty != some c }
  let s4 := ((s3.dropL2 fun e => e.ownedBy c).dropTlbs c none).updCtx c fun k => { k with retired := true, stopped := true }
  let p := (s.ctx c).pitch
  let s5 := s4.updPitch p fun q =>
    { q with
      pcstat := (q.pcstat &&& 0x000000FF) ||| BitVec.ofNat 32 (why % 256 * 256) ||| BitVec.ofNat 32 (n % 65536 * 65536)
      tctx := if q.tctx.toNat % 4096 = c then q.tctx &&& ~~~(1#32 <<< 12) else q.tctx }
  { s5 with agenda := s5.agenda ++ [.event (.killDone c)] }

/-- The region that a grid's fault domain is rooted in: its own when OWN, else the nearest OWN ancestor (R47, R44). -/
def State.domainOf (s : State) (g : Grid) : Nat :=
  ((s.chain 8 g.region).find? fun a => (KMap.getD g.fields a []).getD 1 1 == 1).getD g.region

/-- The contexts with an incomplete grid in a fault domain that holds an incomplete grid of a context (R450). -/
def State.extended (s : State) (c : Nat) : List Nat :=
  let doms := (s.grids.filter fun e => e.2.ctx == c).map fun e => s.domainOf e.2
  ((s.grids.filter fun e => e.2.ctx != c && doms.contains (s.domainOf e.2)).map fun e => e.2.ctx).dedup

/-- A context killed; reason 2 extends through its fault domains, with a record for each: that of the original error, with
the extended context and KILL alone (R347, R450). Without a record of the error, its class is 8. -/
def State.kill (s : State) (c why : Nat) (orig : Option Record := none) : State :=
  let ext := if why = 2 then s.extended c else []
  let r := orig.getD (s.errorRecord 8 c 0 0 1)
  ext.foldl (fun s d => (s.killOne d 6).reportError (s.ctx d).pitch { r with ctx := d, flags := 1 }) (s.killOne c why)

/-! ## Taking a trap -/

/-- Entry `cause` of the vector table, if it can be read and has V = 1 (R327). The read is made with privilege and ignores U, W
and X. -/
def State.vectorEntry (s : State) (core c cause : Nat) : Option (BitVec 64) :=
  let k := s.ctx c
  let va := k.tvec.toNat + 8 * cause
  match s.translate core c va {} with
  | .error _ => none
  | .ok pa =>
    let ws := [s.coreWord core k.pitch true pa, s.coreWord core k.pitch true (pa + 4)]
    let e := pairOf ws
    if ws.any (fun w => !w.wellFormed) || !e.getLsbD 63 then none else some e

/-- The handler of a cause, or none: the trap is unhandled (R327). -/
def State.vector (s : State) (core c cause : Nat) : Option Addr :=
  match s.vectorEntry core c cause with
  | none => none
  | some e => if bitsOf e.toNat 55 8 == 0 && bitsOf e.toNat 0 2 == 0 then some (e.extractLsb' 0 55) else none

/-- A decode or fault slot applies to a context in a pitch (R456). -/
def Slot.applies (x : Slot) (c p : Nat) : Bool := (x.anyc || x.ctx == c) && x.pmask.getLsbD p

/-- The slot of highest priority, the lowest number among equals, that satisfies a test (R456, R463). -/
def bestSlot (slots : List Slot) (p : Slot → Bool) : Option (Nat × Slot) :=
  (slots.zipIdx).foldl (fun best x =>
    if p x.1 then
      match best with
      | some (_, y) => if y.prio < x.1.prio then some (x.2, x.1) else best
      | none => some (x.2, x.1)
    else best) none

/-- Reclassification of a synchronous or engine cause by a fault slot: the new cause and the bits of `tcause` (R463). -/
def State.reclassify (s : State) (c cause : Nat) : Nat × Nat :=
  match bestSlot s.rennet.slots fun x => x.kind == 2 && x.fcause == cause && x.applies c (s.ctx c).pitch with
  | some (n, x) => (x.cause, 2 ^ 11 + n * 2 ^ 12)
  | none => (cause, 0)

/-- The number of handlers a lane is in, a running emulation apart (R333, R462). -/
def Thread.depth (t : Thread) : Nat := (t.frames.filter fun f => f.emu.isNone).length

/-- The frames of the routines a lane runs in, newest first (R461). -/
def Thread.routines (t : Thread) : List Frame := t.frames.takeWhile fun f => f.emu.isSome

/-- A lane leaves a routine that raises a trap: the trap is the original instruction's (R462). -/
def Thread.leaveEmulation (t : Thread) : Thread :=
  match t.routines.getLast? with
  | some f => { t with frames := t.frames.dropWhile fun f => f.emu.isSome, mr := f.mr }
  | none => t

/-- The address a trap reports as the instruction's: the original's inside a routine (R462). -/
def Thread.trapPc (t : Thread) (pc : BitVec 64) : BitVec 64 :=
  match t.routines.getLast?.bind (·.emu) with
  | some e => e.addr.zeroExtend 64
  | none => pc

/-- The 64-bit address a lane goes on at. -/
def Thread.fullPc (t : Thread) : BitVec 64 := t.hi ++ t.pc

/-- A lane enters handler mode with the values of its group (R329). -/
def Thread.enter (t : Thread) (f : Frame) (pc : Addr) (bid : Nat) : Thread :=
  { t with frames := { f with mr := t.mr } :: t.frames, mr := none, pc := pc, hi := 0, bid := bid, status := .ready, parks := false,
           window := 0, wmask := 0, body := 0 }

/-- The mask of a list of lanes. -/
def maskOfLanes (ls : List Nat) : Word := ls.foldl (fun m l => m ||| (1 <<< l)) 0

/-- Lanes grouped by their traps, a group for each distinct combination, in lane order (R329, step 1). -/
def trapGroups : List (Nat × Trap) → List (Trap × List Nat)
  | [] => []
  | (l, t) :: rest =>
    let gs := trapGroups rest
    match gs.find? fun g => g.1 == t with
    | some g => (t, l :: g.2) :: gs.filter fun h => h.1 != t
    | none => (t, [l]) :: gs

/-- One group of lanes takes a trap at an instruction: the SFU results of its lanes are written back (R330), a fault
slot may change the cause (R463), and the group continues at its vector; without a handler, or from a second-level
handler, the context is killed (R327, R333). -/
def State.enterGroup (s : State) (wid : Nat) (tam : Word) (tpc : BitVec 64) (t : Trap) (ls : List Nat) : State :=
  let core := warpCore wid
  let c := s.ctxOf wid
  let s0 := s.drainSfu core fun e => e.wid == wid && ls.contains e.lane
  let w := s0.warp wid
  let (cause, rcl) := s0.reclassify c t.cause
  let first := w.lane (ls.headD 0)
  let depth := first.leaveEmulation.depth
  if 2 ≤ depth then s0.kill c 4
  else
    match s0.vector core c cause with
    | none => s0.kill c 3
    | some pc =>
      let frame : Frame :=
        { gid := w.next, tfm := maskOfLanes ls, tam := tam,
          tcause := BitVec.ofNat 16 (cause + (if depth = 0 then 0 else 512) + rcl), tinfo := t.info,
          tpc := first.trapPc tpc, taddr := if first.leaveEmulation.frames == first.frames then t.addr else first.trapPc tpc,
          mr := none, since := s0.time, emu := none, async := none, wrote := false, entry := none }
      s0.setWarp wid { (w.mapLanes fun l x => if ls.contains l then x.leaveEmulation.enter frame pc w.next else x) with
        next := w.next + 1 }

/-- Lanes of a bundle that trap at one instruction enter their handlers, one group for each distinct trap (R329). -/
def State.enterTraps (s : State) (wid : Nat) (tam : Word) (tpc : BitVec 64) (ts : List (Nat × Trap)) : State :=
  (trapGroups ts).foldl (fun s g =>
    if (s.ctx (s.ctxOf wid)).retired then s else s.enterGroup wid tam tpc g.1 g.2) s

/-- `RESIDUE` of a failed SFU write-back: SITE 8, `taddr` the SFU instruction (R203, R330). -/
def sfuTrap (pc : Addr) : Trap := ⟨causeResidue, residueInfo 8 3 false false, pc.zeroExtend 64⟩

/-- The lanes of a list with a failed SFU write-back, which take `RESIDUE` in place of their cause, and the others (R330). -/
def Warp.sfuSwap (w : Warp) (ts : List (Nat × Trap)) : List (Nat × Trap) × List (Nat × Trap) :=
  (ts.filterMap fun x => match (w.lane x.1).sfuFails with
    | pc :: _ => some (x.1, sfuTrap pc)
    | [] => none, ts.filter fun x => (w.lane x.1).sfuFails.isEmpty)

/-- Lanes that trap at the instruction at `pc` with the resume address `tpc` (R329, R330). -/
def State.trapLanes (s : State) (wid : Nat) (tam : Word) (pc tpc : BitVec 64) (ts : List (Nat × Trap)) : State :=
  let (bad, rest) := (s.warp wid).sfuSwap ts
  if bad.isEmpty then s.enterTraps wid tam tpc ts
  else
    let s1 := s.updWarp wid fun w => w.mapLanes fun l t =>
      if bad.any fun x => x.1 == l then { t with sfuFails := [] } else t
    (s1.enterTraps wid tam pc bad).enterTraps wid tam tpc rest

/-- A whole warp enters a handler (R338): one group of all 32 lanes, each lane's PC and condition recorded. -/
def State.enterAsync (s : State) (wid : Nat) (a : Async) : State :=
  let core := warpCore wid
  let c := s.ctxOf wid
  let s0 := s.drainSfu core fun e => e.wid == wid
  let w := s0.warp wid
  match s0.vector core c a.cause with
  | none => s0.kill c 3
  | some pc =>
    let live := w.live
    let frame : Frame :=
      { gid := w.next, tfm := 0xFFFFFFFF, tam := live, tcause := BitVec.ofNat 16 (a.cause + 256), tinfo := a.info,
        tpc := (w.lane ((lowestLane live).getD 0)).fullPc, taddr := a.addr, mr := none, since := s0.time,
        emu := none, async := none, wrote := false, entry := none }
    s0.setWarp wid { (w.mapLanes fun _ t =>
        t.enter { frame with async := some ⟨t.pc, t.hi, t.bid, t.parks, t.status⟩ } pc w.next) with next := w.next + 1 }

/-! ## Returning -/

/-- A lane goes on at a resume address; one that names no code address is the fetch's to refuse (R420). -/
def Thread.resumeAt (t : Thread) (a : BitVec 64) : Thread := { t with pc := a.extractLsb' 0 55, hi := a.extractLsb' 55 9 }

/-- The frames that a lane returns to: its handler's become a group of its own (R333). -/
def reopened (gid : Nat) (fs : List Frame) : List Frame :=
  match fs with
  | g :: gs => { g with gid := gid } :: gs
  | [] => []

/-- One lane of a group returns (R334, R338, R461): where it continues, with its `mr`, its condition and its frame gone. `gid`
numbers the group of the lanes that return to a handler together. -/
def Thread.comeBack (t : Thread) (gid : Nat) : Thread :=
  match t.frames with
  | [] => t
  | f :: fs =>
    let t1 : Thread := { t with frames := reopened gid fs, window := 0, wmask := 0 }
    let t2 := t1.resumeAt f.tpc
    match f.emu with
    | some e =>
      { t2 with status := .ready, mr := if e.rnmr.getLsbD 63 then some (e.rnmr.extractLsb' 0 55) else none }
    | none =>
      match f.async with
      | none => { t2 with mr := f.mr, status := if fs.isEmpty then .joining else .ready }
      | some r =>
        let t3 : Thread := { t1 with pc := r.pc, hi := r.hi, bid := r.bid, parks := r.parks, mr := f.mr }
        if r.status == .exited then { t3 with status := .exited }
        else if f.wrote then { t2 with mr := none, status := .joining, callees := [], arrivals := [] }
        else { t3 with status := if r.status == .ready then .joining else r.status }

end Sys2Proof.Machine
end

