-- ==== Sys2Proof/Machine/Operands.lean ====
section
/-!
DEFINITION. How an instruction issues in a bundle: the checks at decode (R19, R137, R141, R142), the operand forms and
their residue checks (R110, R112, R126), the per-lane result, fault injection (R120), and the write-back in the lanes
that complete while the others trap (R21, R26, R111, R133).
-/

namespace Sys2Proof.Machine

/-- The outcome of a meaning. -/
abbrev Out := Host.Outcome State Fault Refusal

/-- Residue classes (R107). -/
inductive RClass where
  | p | s | c | g
  deriving DecidableEq, Repr

/-- CLS of R116. -/
def RClass.code : RClass → Nat
  | .p => 0 | .s => 1 | .c => 2 | .g => 3

/-! ## The bundle that issues -/

namespace State

/-- The warp that issues. -/
def curWarp (s : State) : Warp := s.warp s.cur.wid
/-- The core that issues. -/
def curCore (s : State) : Nat := warpCore s.cur.wid
/-- The workgroup that issues. -/
def curWg (s : State) : Workgroup := s.wgOf s.cur.wid
/-- The context that issues. -/
def curCtx (s : State) : Nat := s.ctxOf s.cur.wid
/-- The bundle runs in privileged mode: a privileged grid (R385), or a Rennet routine (R461). -/
def curPriv (s : State) : Bool :=
  (s.gridOf s.cur.wid).priv ||
    ((s.curWarp.lane ((lowestLane s.cur.mask).getD 0)).frames.head?.any fun f => f.emu.isSome)
/-- The PC of the bundle as a 64-bit address. -/
def pc64 (s : State) : BitVec 64 := s.cur.pc.zeroExtend 64
/-- A lane is active in the bundle. -/
def active (s : State) (l : Nat) : Bool := s.cur.mask.getLsbD l
/-- The active lanes whose guard is true. -/
def qualifying (s : State) (g : BitVec 4) : Word := s.curWarp.maskOf fun l t => s.active l && t.guard g

end State

/-- Words of an instruction by its format (R122, R130). -/
def instrLen (f : Fields) : Nat :=
  match f.fmt with
  | .f32 => 1
  | .f64 => 2
  | .f96 _ => 3

/-- The address after an instruction. -/
def State.nextPc (s : State) (f : Fields) : Addr := s.cur.pc + BitVec.ofNat 55 (4 * instrLen f)

/-! ## Checks at decode -/

/-- Register fields at or above N, and pairs that reach N (R19, R20, R141). -/
def regWhys (u : Use) (x : BitVec 9) (uni imm : Bool) (n : Nat) : List Nat :=
  match u with
  | .reg k => if uni || imm then [] else failsIf (n ≤ x.toNat) 5 ++ failsIf (n < x.toNat + k) 8
  | _ => []

/-- The checks of R141 that need the thread's N. -/
def nWhys (op : Op) (f : Fields) (n : Nat) : List Nat :=
  let fm := op.form f
  regWhys fm.d f.d f.ud false n ++ regWhys fm.a f.a f.ua (fm.slot == 1 && f.im) n ++
    regWhys fm.b f.b f.ub (fm.slot == 2 && f.im) n ++ regWhys fm.c f.c f.uc false n ++
    (if op == .bitfn then failsIf (n ≤ f.cN % 128) 5 else [])

/-- `tinfo` of `ILLEGAL` (R142). A clause header has no OP10: its OP is a free value (DESIGN CHOICE, log 13). -/
def illegalInfo (e : Illegal) : Word :=
  let op := if e.fmt = 3 then Config.headerOp else e.op
  BitVec.ofNat 32 (e.why.toNat + e.fmt.toNat * 16 + op.toNat * 64 + (if e.cmp then 2 ^ 16 else 0))

/-- FMT of R142. -/
def fmtCode : Fmt → Nat
  | .f32 => 0 | .f64 => 1 | .f96 _ => 2

/-- `ILLEGAL` of an instruction with a reason (R142). -/
def illegalTrap (op : Op) (f : Fields) (why : Nat) (pc : BitVec 64) : Trap :=
  ⟨causeIllegal, illegalInfo ⟨BitVec.ofNat 4 why, BitVec.ofNat 2 (fmtCode f.fmt), BitVec.ofNat 10 op.code,
    f.fmt == .f32⟩, pc⟩

/-- Every active lane of the bundle takes a trap, whatever the guard (R137, R142). -/
def State.trapActive (s : State) (t : Trap) : State :=
  (s.updCore s.curCore fun c => { c with issued := c.issued + 1 }).trapLanes s.cur.wid s.cur.mask s.pc64 s.pc64
    ((lanesOf s.cur.mask).map fun l => (l, t))

/-- The checks made at decode, in order: `ILLEGAL`, then `PRIV` (R142). -/
def State.issue (s : State) (op : Op) (f : Fields) (more : List Nat) (k : State → Out) : Out :=
  match lowest (f.whys op ++ nWhys op f s.curWg.nreg ++ more) with
  | some w => .next (s.trapActive (illegalTrap op f w s.pc64))
  | none => if op.privileged && !s.curPriv then .next (s.trapActive (privTrap s.pc64)) else k s

/-! ## Operands -/

/-- A source operand of one lane: its words, with SITE and the high-word mark of each (R116). -/
structure Source where
  words : List CWord
  site  : Nat
  deriving DecidableEq, Repr

/-- The sign-extended 9-bit immediate, or the F96 literal (R126). -/
def immValue (f : Fields) (x : BitVec 9) : Word := f.lit.getD (x.signExtend 32)

/-- An immediate operand of `n` words: the value, then its sign fill (R126, R109). -/
def immWords (v : Word) (n : Nat) : List CWord :=
  (List.range n).map fun k => if k = 0 then .gen v else .gen (if v.msb then 0xFFFFFFFF else 0)

/-- `n` consecutive registers of a lane or of its warp. -/
def regWords (w : Warp) (t : Thread) (uni : Bool) (x n : Nat) : List CWord :=
  (List.range n).map fun k => if uni then w.wreg (x + k) else t.reg (x + k)

/-- The source named by a field (R26, R126): SITE is the operand's, or 6 for a uniform register (R116). -/
def sourceOf (w : Warp) (t : Thread) (f : Fields) (u : Use) (x : BitVec 9) (uni imm : Bool) (site : Nat) :
    Source :=
  match u with
  | .reg n =>
    if imm then ⟨immWords (immValue f x) n, site⟩
    else ⟨regWords w t uni x.toNat n, if uni then 6 else site⟩
  | _ => ⟨[], site⟩

/-- What one lane reads: A, B, C, and D where the form reads it. -/
structure Ins where
  l   : Nat
  t   : Thread
  a   : List CWord
  b   : List CWord
  c   : List CWord
  d   : List CWord
  deriving DecidableEq, Repr

/-- The first source that a test names, with its place: SITE and HIW (R116). -/
def findWord (p : CWord → Bool) : List Source → Option (Nat × Bool)
  | [] => none
  | s :: ss =>
    match (s.words.zipIdx).find? fun x => p x.1 with
    | some x => some (s.site, x.2 % 2 == 1)
    | none => findWord p ss

/-- The checks of R110 on sources, in the order of R112: poison, then a mismatch. -/
def checkSources (ss : List Source) (pc : BitVec 64) : Option Trap :=
  match findWord (·.poisoned) ss with
  | some (site, hi) => some ⟨causePoison, residueInfo site 2 false hi, pc⟩
  | none =>
    match findWord (·.mismatched) ss with
    | some (site, hi) => some ⟨causeResidue, residueInfo site 2 false hi, pc⟩
    | none => none

/-- The sources of a lane by the opcode's form, C of `BITFN` being C9[6:0] (R171); `readsD` adds the old destination or
the store data (SITE 3). -/
def sources (op : Op) (f : Fields) (w : Warp) (t : Thread) (readsD : Bool) : List Source :=
  let fm := op.form f
  [sourceOf w t f fm.a f.a f.ua (fm.slot == 1 && f.im) 0, sourceOf w t f fm.b f.b f.ub (fm.slot == 2 && f.im) 1,
   if op == .bitfn then ⟨[t.reg (f.cN % 128)], 2⟩ else sourceOf w t f fm.c f.c f.uc false 2] ++
    (if readsD then [sourceOf w t f fm.d f.d f.ud false 3] else [])

/-- The values of a lane's sources. -/
def insOf (l : Nat) (t : Thread) (ss : List Source) : Ins :=
  let ws (k : Nat) := (ss.getD k ⟨[], 0⟩).words
  ⟨l, t, ws 0, ws 1, ws 2, ws 3⟩

/-- The first word of an operand. -/
def w0 (ws : List CWord) : Word := (ws.headD .zero).data

/-- The first word of an operand, checked. -/
def c0 (ws : List CWord) : CWord := ws.headD .zero
/-- The second word of an operand, checked. -/
def c1 (ws : List CWord) : CWord := c0 ws.tail
/-- The words of a pair operand. -/
def c01 (ws : List CWord) : CWord × CWord := (c0 ws, c1 ws)

/-- A predicate source is bad: its copies disagree (R22). SITE 5. -/
def predTrap (pc : BitVec 64) : Trap := ⟨causeResidue, residueInfo 5 2 false false, pc⟩

/-! ## Results -/

/-- What an instruction writes in a lane: words from D up, predicates, and flags to set; `inner` holds words that it forms and
checks without writing them (R107). -/
structure Res where
  dst   : List CWord := []
  inner : List CWord := []
  preds : List (Nat × Bool) := []
  flags : BitVec 5 := 0
  deriving DecidableEq, Repr

/-- What happens in one lane. -/
inductive Lane where
  /-- not in the bundle -/
  | idle
  /-- a false guard: the lane only continues (R23) -/
  | skip
  | trap (t : Trap)
  | done (r : Res)
  deriving DecidableEq, Repr

/-- The injection of a core that an instruction of a context takes, for an injection class (R120). -/
def Core.injection (c : Core) (icls ctx : Nat) : Option Inj :=
  let v := c.finj.toNat
  if v % 2 = 1 ∧ v / 2 % 8 = icls ∧ (v / 2 ^ 28 % 2 = 1 ∨ v / 2 ^ 16 % 4096 = ctx) then
    some ⟨v / 16 % 32, v / 2 ^ 9 % 32, v.testBit 14, v.testBit 15⟩
  else none

/-- `finj` once the injection has fired: ARM clear, FIRED set (R120). -/
def Core.fired (c : Core) : Core := { c with finj := (c.finj &&& ~~~(1#64)) ||| (1#64 <<< 32) }

/-- The injection that the bundle's instruction may take: its lane is active with a true guard (R120). -/
def State.injection (s : State) (icls : Nat) (g : BitVec 4) : Option Inj :=
  match (s.core s.curCore).injection icls s.curCtx with
  | some i => if s.active i.lane && (s.curWarp.lane i.lane).guard g then some i else none
  | none => none

/-- ICLS of a residue class, where `finj` has one (R119). -/
def RClass.icls : RClass → Option Nat
  | .p => some 0 | .s => some 1 | .c => some 2 | .g => none

/-- The words that the check before write-back of a class-P or class-C result covers (R107). -/
def Res.covered (r : Res) : List CWord := r.dst ++ r.inner

/-- A word of the lane takes an injection: one that is written, or before its check one that is only formed inside; class S is
checked inside its unit. A lane that traps or writes no word takes none: exactly one bit of one word flips (DESIGN CHOICE, log 38). -/
def Lane.takes (x : Lane) (k : RClass) (j : Inj) : Bool :=
  match x with
  | .done r => if j.after then !r.dst.isEmpty else k == .s || !r.covered.isEmpty
  | _ => false

/-- One word of a list flipped: the first. -/
def flipFirst (j : Inj) : List CWord → List CWord
  | w :: ws => flipWord w j.bit j.rfld :: ws
  | [] => []

/-- The check before write-back (R107, R112 item 4): the first word whose residue differs from the predicted or carried one raises
`RESIDUE`, SITE 4, or 7 of a load (R120), and the lane writes nothing. An injected residue field of 15 is a mismatch too: the check
compares with `res(data)` (DESIGN CHOICE, log 38). -/
def Lane.checked (x : Lane) (k : RClass) (load inj : Bool) (pc : BitVec 64) : Lane :=
  match x with
  | .done r =>
    if k == .p || k == .c then
      match (r.covered.zipIdx).find? fun w => !w.1.wellFormed with
      | some w => .trap ⟨causeResidue, residueInfo (if load then 7 else 4) k.code inj (w.2 % 2 == 1), pc⟩
      | none => x
    else x
  | _ => x

/-- A lane's result once an injection has struck it and its check is made: before the check the flip is found there, or by the
check inside the unit of class S, SITE 9; after it the written word is flipped (R120). -/
def Lane.struck (x : Lane) (k : RClass) (load : Bool) (j : Inj) (pc : BitVec 64) : Lane :=
  match x with
  | .done r =>
    if j.after then
      match x.checked k load false pc with
      | .done r => .done { r with dst := flipFirst j r.dst }
      | y => y
    else if k == .s then .trap ⟨causeResidue, residueInfo 9 1 true false, pc⟩
    else
      Lane.checked (.done (if r.dst.isEmpty then { r with inner := flipFirst j r.inner } else { r with dst := flipFirst j r.dst }))
        k load true pc
  | _ => x

/-- A lane's destination, predicates and flags written (R21, R22, R98). -/
def Thread.write (t : Thread) (f : Fields) (r : Res) : Thread :=
  let t1 := { t.setPreds r.preds with fflags := t.fflags ||| r.flags }
  if f.ud then t1 else t1.setRegs f.d.toNat r.dst

/-- A thread continues at the next instruction of its bundle; its clause window shrinks (R135). -/
def Thread.goto (t : Thread) (pc : Addr) : Thread := { t with pc := pc, window := t.window - 1, wmask := 0 }

/-- A thread after its part in an instruction. -/
def Lane.apply (x : Lane) (f : Fields) (next : Addr) (t : Thread) : Thread :=
  match x with
  | .idle | .trap _ => t
  | .skip => t.goto next
  | .done r => (t.write f r).goto next

/-- The words of a uniform destination: those of the lowest lane that completes. R26 says the lowest lane with a true guard; which one
writes when that lane traps and others complete is the model's choice (DESIGN CHOICE, log 116). -/
def uniformResult : List Lane → Option (List CWord)
  | [] => none
  | .done r :: xs => if r.dst.isEmpty then uniformResult xs else some r.dst
  | _ :: xs => uniformResult xs

/-- The traps of a list of lanes. -/
def trapsOf (xs : List Lane) : List (Nat × Trap) :=
  (xs.zipIdx).filterMap fun x => match x.1 with
    | .trap t => some (x.2, t)
    | _ => none

/-- Results a lane has outstanding: loads, SFU results, engine results (R133). -/
def State.outstanding (s : State) (wid l : Nat) : Bool :=
  ((s.warp wid).loads.any fun e => e.2.lanes.any fun x => x.1 == l) ||
    ((s.core (warpCore wid)).sfu.any fun e => e.wid == wid && e.lane == l) ||
    ((s.core (warpCore wid)).engine.queue.any fun e =>
      e.wid == wid && e.lanes.getLsbD l && (e.op == .mrd || e.op == .crd || e.op == .mchk))

/-- A switch marker's effect on a thread of a bundle, which has results outstanding or not (R133): one that waits is parked when
its wait is over. -/
def Thread.marked (t : Thread) (busy : Bool) : Thread :=
  match t.status with
  | .ready | .joining => if busy then { t with status := .parked } else t
  | .exited => t
  | _ => { t with parks := true }

/-- The lanes of a bundle parked by a switch marker, where any of them has a result outstanding (R133). -/
def State.park (s : State) (wid : Nat) (mask : Word) : State :=
  let busy := (lanesOf mask).any (s.outstanding wid)
  s.updWarp wid fun w => w.mapLanes fun l t => if mask.getLsbD l then t.marked busy else t

/-- What is left of a bundle when some lanes trap: the window closes (R135), the trapping lanes enter their handlers
with `tpc` (R329), the marker parks the others (R133). -/
def State.finishAt (s : State) (f : Fields) (tpc : BitVec 64) (ts : List (Nat × Trap)) : State :=
  let bad := maskOfLanes (ts.map (·.1))
  let wid := s.cur.wid
  let s1 := s.updCore s.curCore fun c => { c with issued := c.issued + 1 }
  let s2 :=
    if ts.isEmpty then s1
    else (s1.updWarp wid fun w => w.mapLanes fun l t =>
      if s.active l then { t with window := 0, wmask := 0 } else t).trapLanes wid s.cur.mask s.pc64 tpc ts
  if f.s then s2.park wid (s.cur.mask &&& ~~~bad) else s2

/-- As `finishAt`, with `tpc` the address of the instruction. -/
def State.finish (s : State) (f : Fields) (ts : List (Nat × Trap)) : State := s.finishAt f s.pc64 ts

/-- The lanes of a bundle take their turns in ascending order, each after its guard and source checks: the state after
them and the traps. Sources are those of the start (R160). `body` also moves the lane on. -/
def State.perLane (s : State) (f : Fields) (src : Thread → List Source) (body : State → Ins → Except Trap State) :
    State × List (Nat × Trap) :=
  (lanesOf s.cur.mask).foldl (fun acc l =>
    let t := s.curWarp.lane l
    if f.g != 15 && t.predBad f.g.toNat then (acc.1, acc.2 ++ [(l, predTrap s.pc64)])
    else if !t.guard f.g then (acc.1.updWarp s.cur.wid fun w => w.updLane l (·.goto (s.nextPc f)), acc.2)
    else
      match checkSources (src t) s.pc64 with
      | some tr => (acc.1, acc.2 ++ [(l, tr)])
      | none =>
        match body acc.1 (insOf l t (src t)) with
        | .error tr => (acc.1, acc.2 ++ [(l, tr)])
        | .ok s' => (s', acc.2)) (s, [])

/-- One lane of an instruction: idle, skipped, stopped by a check of its sources (R110), or run by the instruction's
function. -/
def runLane (f : Fields) (mask : Word) (pc : BitVec 64) (src : Thread → List Source) (body : Ins → Except Trap Res)
    (l : Nat) (t : Thread) : Lane :=
  if !mask.getLsbD l then .idle
  else if f.g != 15 && t.predBad f.g.toNat then .trap (predTrap pc)
  else if !t.guard f.g then .skip
  else
    match checkSources (src t) pc with
    | some tr => .trap tr
    | none =>
      match body (insOf l t (src t)) with
      | .error tr => .trap tr
      | .ok r => .done r

/-- What each lane of an instruction comes to, before the check of its result. -/
def State.runLanes (s : State) (f : Fields) (src : Thread → List Source) (body : Ins → Except Trap Res) : List Lane :=
  s.curWarp.lanes.mapIdx (runLane f s.cur.mask s.pc64 src body)

/-- The lowest lane that completes with a word. -/
def firstDone (xs : List Lane) : Option Nat := xs.findIdx? fun x => match x with
  | .done r => !r.dst.isEmpty
  | _ => false

/-- The injection that an instruction of a class takes (R120): its lane has a word for it, which a uniform destination writes from
its lowest lane alone (R26). -/
def State.shot (s : State) (f : Fields) (k : RClass) (xs : List Lane) : Option Inj :=
  (k.icls.bind fun n => s.injection n f.g).filter fun j =>
    (xs.getD j.lane .idle).takes k j && !(f.ud && j.after && firstDone xs != some j.lane)

/-- The state once an injection has fired. -/
def State.afterInjection (s : State) : Option Inj → State
  | some _ => s.updCore s.curCore Core.fired
  | none => s

/-- The lanes' results after an injection and the check before write-back (R107, R120). -/
def State.verify (s : State) (k : RClass) (load : Bool) (j : Option Inj) (xs : List Lane) : List Lane :=
  xs.mapIdx fun l x => match j.filter fun j => j.lane == l with
    | some j => x.struck k load j s.pc64
    | none => x.checked k load false s.pc64

/-- The warp with the lanes' results written back (R21, R26). -/
def Warp.commit (w : Warp) (f : Fields) (next : Addr) (xs : List Lane) : Warp :=
  let w1 := w.mapLanes fun l t => (xs.getD l .idle).apply f next t
  if f.ud then
    match uniformResult xs with
    | some ws => w1.setWregs (f.d.toNat % 64) ws
    | none => w1
  else w1

/-- Lane results written back, traps entered. -/
def State.commit (s : State) (f : Fields) (xs : List Lane) : State :=
  (s.updWarp s.cur.wid fun w => w.commit f (s.nextPc f) xs).finish f (trapsOf xs)

/-- An instruction that works lane by lane on registers, predicates and flags, with its sources given: the shape of the
arithmetic, logic, move, compare, float and conversion families. -/
def State.lanewiseOn (s : State) (op : Op) (f : Fields) (k : RClass) (src : State → Thread → List Source)
    (body : Ins → Except Trap Res) : Out :=
  s.issue op f [] fun s =>
    let xs := s.runLanes f (src s) body
    let j := s.shot f k xs
    .next ((s.afterInjection j).commit f (s.verify k false j xs))

/-- As `lanewiseOn`, with the sources of the opcode's form. -/
def State.lanewise (s : State) (op : Op) (f : Fields) (k : RClass) (readsD : Bool) (body : Ins → Except Trap Res) : Out :=
  s.lanewiseOn op f k (fun s t => sources op f s.curWarp t readsD) body

/-- As `lanewise`, for a function that cannot trap. -/
def State.lanePure (s : State) (op : Op) (f : Fields) (k : RClass) (body : Ins → Res) : Out :=
  s.lanewise op f k false fun i => .ok (body i)

end Sys2Proof.Machine
end

