-- ==== Sys2Proof/Machine/IntArith.lean ====
section
/-!
DEFINITION. Integer and address arithmetic (R157–R169).
-/

namespace Sys2Proof.Machine

/-! ## Shared operations -/

/-- A typed form: y from the extended operands, written by R158 with the residue predicted for it (R162). -/
def typedInt (op : Op) (y : Exact → Exact → Exact → Exact) (f : Fields) (s : State) : Out :=
  s.lanePure op f .p fun i =>
    { dst := [(y (exactOf f.ty (c0 i.a)) (exactOf f.ty (c0 i.b)) (exactOf f.ty (c0 i.c))).typed f.ty f.sat] }

/-- One of the source words by a choice between their values: class C at 32 bits, class P below (R162). -/
def chooseInt (op : Op) (pick : Nat → Ins → CWord) (f : Fields) (s : State) : Out :=
  s.lanePure op f (if tyWidth f.ty = 32 then .c else .p) fun i =>
    let w := pick f.ty i
    { dst := [if tyWidth f.ty = 32 then w else extWord f.ty w] }

/-- The smaller of two words under a TYPE, the first where they are equal. -/
def minWord (t : Nat) (x y : CWord) : CWord := if tyExt t y.data < tyExt t x.data then y else x
/-- The larger of two words under a TYPE, the first where they are equal. -/
def maxWord (t : Nat) (x y : CWord) : CWord := if tyExt t x.data < tyExt t y.data then y else x

/-- A pair form: y from the whole pairs, clamped with `.SAT` (R168), with the residues that `p` predicts for its words; a clamp
constant has its own. -/
def pairInt (op : Op) (y : Int → Int → Int) (p : Bool → CWord × CWord → CWord × CWord → CWord × CWord) (f : Fields)
    (s : State) : Out :=
  s.lanePure op f .p fun i =>
    let sg := tySigned f.ty
    let z := y (ext64 sg (pairOf i.a)) (ext64 sg (pairOf i.b))
    let v := write64 sg f.sat z
    { dst := if f.sat && v != write64 sg false z then ofPair v else pairWith v (p sg (c01 i.a) (c01 i.b)) }

/-- The predicted words of a full 128-bit product's low pair (R168). -/
def productWords (signed : Bool) (a b : CWord × CWord) : CWord × CWord :=
  let e := (exactPair signed a.1 a.2).mul (exactPair signed b.1 b.2)
  (e.word 4 0, e.word 4 1)

/-- A of a full-width multiply as an integer (R165). -/
def mulA (f : Fields) (x : CWord) : Exact := exactOf f.ty x
/-- B of a full-width multiply: unsigned under `.SU` (R165). -/
def mulB (f : Fields) (x : CWord) : Exact := exactOf (if f.opm4 then 1 else f.ty) x

/-- A form whose result is a part of the exact integer y (R165), predicted through the full product and the addend (R166). -/
def productInt (op : Op) (g : Exact → List CWord) (c : Fields → List CWord → Exact) (f : Fields) (s : State) : Out :=
  s.lanePure op f .p fun i => { dst := g (((mulA f (c0 i.a)).mul (mulB f (c0 i.b))).add (c f i.c)) }

/-- No addend. -/
def noAddend (_ : Fields) (_ : List CWord) : Exact := .const 0
/-- The high word of an exact integer. -/
def highWord (y : Exact) : List CWord := [y.word 2 1]
/-- The low pair of an exact integer. -/
def lowPair (y : Exact) : List CWord := [y.word 2 0, y.word 2 1]

/-- Deprecated lanes counted, with the advisory (R139, R140, R396). -/
def State.deprecated (s : State) (c n : Nat) : State :=
  let k := s.ctx c
  let s1 := s.updCtx c fun k => { k with depcnt := k.depcnt + BitVec.ofNat 64 n }
  if n != 0 && k.depctl.getLsbD 0 && !k.depctl.getLsbD 1 then
    (s1.updCtx c fun k => { k with depctl := k.depctl ||| 2 }).report (.irq k.pitch 2)
  else s1

/-- The lanes of a list that complete. -/
def doneLanes (xs : List Lane) : Nat := (xs.filter fun x => match x with | .done _ => true | _ => false).length

/-- A lane-wise form that counts in `depcnt` (R139). -/
def deprecatedLanes (op : Op) (k : RClass) (body : Ins → Res) (f : Fields) (s : State) : Out :=
  s.issue op f [] fun s =>
    let xs := s.runLanes f (fun t => sources op f s.curWarp t false) fun i => .ok (body i)
    let j := s.shot f k xs
    let ys := s.verify k false j xs
    .next (((s.afterInjection j).deprecated s.curCtx (doneLanes ys)).commit f ys)

/-! ## Add class (R163) -/

/-- a + b. -/
def intAdd : Fields → State → Out := typedInt .add fun a b _ => a.add b
/-- `ADD` (R163). -/
def execAdd (f : Fields) (s : State) : Out := intAdd f s
/-- `ADD`, compact (R131). -/
def execAddCompact (c : Compact) (s : State) : Out := intAdd (c.expand COp.addCompact.unary) s

/-- a − b. -/
def intSub : Fields → State → Out := typedInt .sub fun a b _ => a.sub b
/-- `SUB` (R163). -/
def execSub (f : Fields) (s : State) : Out := intSub f s
/-- `SUB`, compact (R131). -/
def execSubCompact (c : Compact) (s : State) : Out := intSub (c.expand COp.subCompact.unary) s

/-- −a. -/
def intNeg : Fields → State → Out := typedInt .neg fun a _ _ => a.neg
/-- `NEG` (R163). -/
def execNeg (f : Fields) (s : State) : Out := intNeg f s
/-- `NEG`, compact (R131). -/
def execNegCompact (c : Compact) (s : State) : Out := intNeg (c.expand COp.negCompact.unary) s

/-- `ABS` (R163). -/
def execAbsI (f : Fields) (s : State) : Out := typedInt .absI (fun a _ _ => a.abs) f s

/-- min(a, b). -/
def intMin : Fields → State → Out := chooseInt .minI fun t i => minWord t (c0 i.a) (c0 i.b)
/-- `MIN` (R163). -/
def execMinI (f : Fields) (s : State) : Out := intMin f s
/-- `MIN`, compact (R131). -/
def execMinCompact (c : Compact) (s : State) : Out := intMin (c.expand COp.minCompact.unary) s

/-- max(a, b). -/
def intMax : Fields → State → Out := chooseInt .maxI fun t i => maxWord t (c0 i.a) (c0 i.b)
/-- `MAX` (R163). -/
def execMaxI (f : Fields) (s : State) : Out := intMax f s
/-- `MAX`, compact (R131). -/
def execMaxCompact (c : Compact) (s : State) : Out := intMax (c.expand COp.maxCompact.unary) s

/-- `CLAMP`: min(max(a, b), c) (R163). -/
def execClamp (f : Fields) (s : State) : Out :=
  chooseInt .clamp (fun t i => minWord t (maxWord t (c0 i.a) (c0 i.b)) (c0 i.c)) f s

/-- `AVG`, with `.TRUNC` in OPM[4] (R163). -/
def execAvg (f : Fields) (s : State) : Out :=
  typedInt .avg (fun a b _ => ((a.add b).add (.const (if f.opm4 then 0 else 1))).half) f s

/-- `SAD` (R163). -/
def execSad (f : Fields) (s : State) : Out := typedInt .sad (fun a b c => (a.sub b).abs.add c) f s

/-! ## Carry chains (R164) -/

/-- CIN of a carry form, and whether its two copies disagree. -/
def carryIn (f : Fields) (t : Thread) : Bool × Bool :=
  let n := f.cN % 16
  if n = 15 then (false, false) else (t.pred n, t.predBad n)

/-- A carry form: result and carry out of A, B and the carry in (R164). -/
def carryInt (op : Op) (g : CWord → CWord → Bool → CWord × Bool) (f : Fields) (s : State) : Out :=
  s.lanewise op f .p false fun i =>
    let (ci, bad) := carryIn f i.t
    if bad then .error (predTrap s.pc64)
    else
      let (y, co) := g (c0 i.a) (c0 i.b) ci
      let n := f.cN / 16 % 16
      .ok { dst := [y], preds := if n = 15 then [] else [(n, co), (n + 1, !co)] }

/-- `ADDC` (R164). -/
def execAddc (f : Fields) (s : State) : Out :=
  carryInt .addc (fun a b ci =>
    (⟨a.data + b.data + BitVec.ofNat 32 ci.toNat, predictAdd a b ci⟩, carryOut a.data b.data ci)) f s

/-- `SUBB` (R164). -/
def execSubb (f : Fields) (s : State) : Out :=
  carryInt .subb (fun a b ci =>
    (⟨a.data - b.data - BitVec.ofNat 32 ci.toNat, predictSub a b ci⟩, borrowOut a.data b.data ci)) f s

/-! ## Multiply (R165–R167) -/

/-- a × b. -/
def intMul : Fields → State → Out := typedInt .mul fun a b _ => a.mul b
/-- `MUL` (R165). -/
def execMul (f : Fields) (s : State) : Out := intMul f s
/-- `MUL`, compact (R131). -/
def execMulCompact (c : Compact) (s : State) : Out := intMul (c.expand COp.mulCompact.unary) s

/-- `MULH` (R165). -/
def execMulh (f : Fields) (s : State) : Out := productInt .mulh highWord noAddend f s

/-- `MAD` (R165). -/
def execMad (f : Fields) (s : State) : Out := typedInt .mad (fun a b c => (a.mul b).add c) f s

/-- `MADH`: c extended per TYPE (R165). -/
def execMadh (f : Fields) (s : State) : Out := productInt .madh highWord (fun f c => exactOf f.ty (c0 c)) f s

/-- `MULW` (R165). -/
def execMulw (f : Fields) (s : State) : Out := productInt .mulw lowPair noAddend f s

/-- `MADW`: a 64-bit addend (R165). -/
def execMadw (f : Fields) (s : State) : Out := productInt .madw lowPair (fun _ c => exactPair false (c0 c) (c1 c)) f s

/-- A byte of a word as an integer, with the residue of its byte less its sign (R166). -/
def byteExact (signed : Bool) (x : Word) (k : Nat) : Exact :=
  let b := lowBits 8 (x >>> (8 * k))
  let v := if signed then sextN 8 b.toNat else (b.toNat : Int)
  ⟨v, resI b - (if v < 0 then 1 else 0)⟩

/-- The sum of `IDP4` (R165). -/
def idp4Sum (f : Fields) (a b c : CWord) : Exact :=
  let sg := tySigned f.ty
  (List.range 4).foldl (fun e k => e.add ((byteExact sg a.data k).mul (byteExact (sg && !f.opm4) b.data k)))
    (exactOf (if sg then 0 else 1) c)

/-- `IDP4` (R165): written at 32 bits, signed under `.I8`. -/
def execIdp4 (f : Fields) (s : State) : Out :=
  s.lanePure .idp4 f .p fun i =>
    { dst := [(idp4Sum f (c0 i.a) (c0 i.b) (c0 i.c)).typed (if tySigned f.ty then 0 else 1) f.sat] }

/-- The low 24 bits of a word as an integer: the extension row at 24 bits. -/
def exact24 (w : Word) : Exact := ⟨sextN 24 w.toNat, resI (lowBits 24 w) - (if sextN 24 w.toNat < 0 then 1 else 0)⟩

/-- `IMAD24` (R165, R167). -/
def execImad24 (f : Fields) (s : State) : Out :=
  deprecatedLanes .imad24 .p (fun i =>
    { dst := [(((exact24 (w0 i.a)).mul (exact24 (w0 i.b))).add (exactOf 1 (c0 i.c))).word 1 0] }) f s

/-! ## Pairs and addresses (R168, R169) -/

/-- `ADD64` (R168). -/
def execAdd64 (f : Fields) (s : State) : Out := pairInt .add64 (fun a b => a + b) (fun _ => chainWords .add) f s
/-- `SUB64` (R168). -/
def execSub64 (f : Fields) (s : State) : Out := pairInt .sub64 (fun a b => a - b) (fun _ => chainWords .sub) f s
/-- `NEG64` (R168): as `SUB64` from 0. -/
def execNeg64 (f : Fields) (s : State) : Out :=
  pairInt .neg64 (fun a _ => -a) (fun _ a _ => chainWords .sub (.zero, .zero) a) f s
/-- `MUL64` (R168). -/
def execMul64 (f : Fields) (s : State) : Out := pairInt .mul64 (fun a b => a * b) productWords f s

/-- `LEA` (R169). -/
def execLea (f : Fields) (s : State) : Out :=
  s.lanePure .lea f .p fun i => { dst := [addWord (c0 i.a) (shlWord (c0 i.b) (f.opm.toNat % 8))] }

/-- The scaled index of `LEA64` (R169). -/
def scaledIndex (ux : Bool) (b : Word) (n : Nat) : BitVec 64 := (if ux then b.zeroExtend 64 else b.signExtend 64) <<< n

/-- The predicted words of a pair shifted left by `n`: the bits that cross into the high word take the place of `out` (R172). -/
def shlPair (lo hi : CWord) (n : Nat) : CWord × CWord :=
  let v : BitVec 64 := (hi.data ++ lo.data) <<< n
  let l := v.extractLsb' 0 32
  let h := v.extractLsb' 32 32
  if n < 32 then
    (⟨l, predictShl lo n⟩,
     ⟨h, mod15 (2 ^ n * srcRes hi + resI (shiftedOut lo.data n) - resI (shiftedOut hi.data n))⟩)
  else (⟨l, 0⟩, ⟨h, if n < 64 then predictShl lo (n - 32) else 0⟩)

/-- `LEA64` (R169): the shift row for B, extended by a word of residue 0, then the i64 add row. -/
def execLea64 (f : Fields) (s : State) : Out :=
  s.lanePure .lea64 f .p fun i =>
    let n := f.opm.toNat % 8
    let hi : CWord := .gen (if !f.opm4 && (w0 i.b).msb then 0xFFFFFFFF else 0)
    { dst := pairWith (pairOf i.a + scaledIndex f.opm4 (w0 i.b) n) (chainWords .add (c01 i.a) (shlPair (c0 i.b) hi n)) }

end Sys2Proof.Machine
end

