-- ==== Sys2Proof/Machine/Budget.lean ====
section
/-!
DEFINITION. Per-period budgets of regions: the chain of ancestors that is charged, when an activity may start, and what
a global access charges (R45, R73, R392, R393).
-/

namespace Sys2Proof.Machine

/-- Numbers of the resolved fields of a region (R383): PRIO 0, FD 1, WGQ 2, RGQ 3, SLQ 4, CQQ 5, MES 6, RESV 7, and the
budgets from 8: L2B, HBMB, TETB, WALKS, COPYB, MECYC. -/
def fieldL2b : Nat := 8
/-- HBMB. -/
def fieldHbmb : Nat := 9
/-- TETB. -/
def fieldTetb : Nat := 10
/-- WALKS. -/
def fieldWalks : Nat := 11
/-- COPYB. -/
def fieldCopyb : Nat := 12
/-- MECYC. -/
def fieldMecyc : Nat := 13

/-- A budget has units left: `0xFFFF_FFFF` is no limit (R393). -/
def budgetLeft (limit used : Nat) : Bool := limit == 0xFFFFFFFF || used < limit

/-- An activity of a grid may start: the budget lasts in its region and in every ancestor (R45, R393). -/
def State.mayStart (s : State) (g : Grid) (k : Nat) : Bool :=
  g.fields.all fun e => match s.regions.get? e.1 with
    | some r => budgetLeft (e.2.getD k 0) (r.used.getD (k - 8) 0)
    | none => true

/-- Units charged to a grid's region and to every ancestor (R45, R393). -/
def State.charge (s : State) (g : Grid) (k n : Nat) : State :=
  if n = 0 then s
  else g.fields.foldl (fun s e => s.updRegion e.1 fun r =>
    { r with used := r.used.set (k - 8) (r.used.getD (k - 8) 0 + n) }) s

/-- An access at a virtual address needs its home slice: the L1 of the core does not hold its word. -/
def State.missesL1 (s : State) (core c va : Nat) : Bool :=
  match s.translate core c va {} with
  | .ok pa => ((s.core core).held? (pa / 4 * 4)).isNone
  | .error _ => true

/-- What an activity is charged at its start (R392): the pages that it walks for, each with the kind of access, L2 lines, HBM4
bursts, Tether flits, units of COPYB and of MECYC; `held` counts lines that wait for the end of a loss of route (R430). -/
structure Bill where
  walks : List (Nat × Access) := []
  l2    : Nat := 0
  hbm   : Nat := 0
  tet   : Nat := 0
  copy  : Nat := 0
  mec   : Nat := 0
  held  : Nat := 0
  deriving DecidableEq, Repr

/-- Two bills of one activity. -/
def Bill.add (a b : Bill) : Bill :=
  ⟨a.walks ++ b.walks, a.l2 + b.l2, a.hbm + b.hbm, a.tet + b.tet, a.copy + b.copy, a.mec + b.mec, a.held + b.held⟩

/-- The fields of a bill with their units. -/
def Bill.units (b : Bill) : List (Nat × Nat) :=
  [(fieldWalks, b.walks.length), (fieldL2b, b.l2), (fieldHbmb, b.hbm), (fieldTetb, b.tet), (fieldCopyb, b.copy),
    (fieldMecyc, b.mec)]

/-- An activity starts only when every budget that it uses has units left (R393) and none of its lines waits for a route (R430). -/
def State.canPay (s : State) (g : Grid) (b : Bill) : Bool :=
  b.held == 0 && b.units.all fun x => x.2 = 0 || s.mayStart g x.1

/-- A bill charged in full (R393), and its walks made (R415). -/
def State.pay (s : State) (core c : Nat) (g : Grid) (b : Bill) : State :=
  b.walks.foldl (fun s x => s.touch core c x.1 x.2) (b.units.foldl (fun s x => s.charge g x.1 x.2) s)

/-- The walks of accesses at some addresses. -/
def State.walkBill (s : State) (core c : Nat) (u : Access) (vas : List Nat) : Bill :=
  { walks := (s.walksOf core c u.fetch vas).map fun va => (va, u) }

/-- A line lies behind a peer device to which no route remains, and its access is not yet completed with an error (R430): its issuer
waits (DESIGN CHOICE, log 107). -/
def State.awaitsRoute (s : State) (p pa : Nat) : Bool :=
  match s.target p true pa with
  | .tether win _ => (s.fabric.lost.get? (s.peerOf p win)).any fun t => s.time < t + Config.routeLossTicks
  | _ => false

/-- The lines at physical addresses: one L2 access each, two HBM4 bursts where the line lies in HBM4 and no L2 slice holds
it, and one flit where it lies behind Tether (R392; DESIGN CHOICE, log 14). -/
def State.lineBill (s : State) (p : Nat) (pas : List Nat) : Bill :=
  let lines := (pas.map fun pa => pa / 128 * 128).dedup
  { l2 := lines.length
    hbm := 2 * (lines.filter fun pa => s.target p true pa == .hbm && (s.l2Line (pa / 128)).isNone).length
    tet := (lines.filter fun pa => 9 ≤ pa / 2 ^ 48 && pa / 2 ^ 48 ≤ 11).length
    held := (lines.filter (s.awaitsRoute p)).length }

/-- The lines of the virtual addresses that translate and that the L1 of the core does not serve (`own`: it serves none). -/
def State.farBill (s : State) (core c : Nat) (u : Access) (vas : List Nat) (own : Bool) : Bill :=
  s.lineBill (s.ctx c).pitch ((vas.filter fun va => own || s.missesL1 core c va).filterMap fun va =>
    match s.translate core c va u with
    | .ok pa => some pa
    | .error _ => none)

/-- The bill of accesses at virtual addresses: their walks and lines. -/
def State.accessBill (s : State) (core c : Nat) (u : Access) (vas : List Nat) (own : Bool) : Bill :=
  (s.walkBill core c u vas).add (s.farBill core c u vas own)

/-- Global line accesses of an issuer's grid: the state with the units charged and the walks of their translations made; none
while a budget is exhausted (R392, R393, R415). -/
def State.chargeLines (s : State) (core c : Nat) (g : Grid) (u : Access) (vas : List Nat) (own : Bool := false) :
    Option State :=
  let b := s.accessBill core c u vas own
  if s.canPay g b then some (s.pay core c g b) else none

/-- What a fetch at an address is charged: its walk, and the line that the instruction cache does not hold (R392, R415). -/
def State.codeBill (s : State) (core c : Nat) (u : Access) (va : Nat) : Bill :=
  let walk := s.walkBill core c u [va]
  match s.translate core c va u with
  | .error _ => walk
  | .ok pa => if (s.core core).icache.any fun e => e.1 == pa / 128 then walk else walk.add (s.lineBill (s.ctx c).pitch [pa])

end Sys2Proof.Machine
end

