-- ==== Sys2Proof/Machine/Cache.lean ====
section
/-!
DEFINITION. The L1 of a core (R359–R363): fills and replacement in its 512 sets of 12 ways, the lines pinned for
scratchpads, thread stores, and what an acquire does (R256, R309, R362).
-/

namespace Sys2Proof.Machine

/-! ## Replacement (R359–R361) -/

/-- Lines pinned in a set (R360). -/
def Core.pinned (c : Core) (set : Nat) : Nat := (c.pins.map fun e => e.2.count set).sum

/-- The lines of a set, most recently used first. -/
def Core.inSet (c : Core) (set : Nat) : List Nat := c.lines.filter fun n => n % 512 == set

/-- Every way of a set holds a line. -/
def Core.setFull (c : Core) (set : Nat) : Bool := 12 ≤ (c.inSet set).length + c.pinned set

/-- An eviction's write-back has met an unwritable page (R256, R338): the lowest live warp of the owner context on the core,
else on its die, takes `PAGE`; without one the context is killed with reason 2. -/
def State.evictFault (s : State) (core c : Nat) (info : Word) (addr : BitVec 64) : State :=
  let ws := s.liveWarps c
  match ws.find? (fun w => warpCore w == core) <|> ws.find? (fun w => dieOf (warpCore w) == dieOf core) with
  | some w => s.updWarp w fun x => { x with asyncs := x.asyncs ++ [⟨causePage, info, addr⟩] }
  | none => s.kill c 2 (some (s.errorRecord 8 c core 0 1))

/-- The walks that the write-back of some dirty words needs, each charged to the grid of the store (R415; DESIGN CHOICE, log
14: a write-back is not held back by its budget). -/
def State.backWalk (s : State) (core : Nat) (pas : List Nat) : State :=
  pas.foldl (fun s pa => match (s.core core).dirty.get? pa with
    | none => s
    | some d => s.pay core d.ctx (s.gridOf d.wid)
        (s.walkBill core d.ctx { write := true, wb := true } [d.va.toNat])) s

/-- The fault that the write-back of a line's dirty words meets: a page that is no longer writable (R256). -/
def State.backFault (s : State) (core : Nat) (pas : List Nat) : Option (Dirty × Word) :=
  pas.findSome? fun pa => match (s.core core).dirty.get? pa with
    | none => none
    | some d => match s.translate core d.ctx d.va.toNat { write := true, wb := true } with
      | .error info => some (d, info)
      | .ok _ => none

/-- The dirty words of a line of L1 written to L2 together, unless the line is already held back; a page that is no longer
writable keeps them there, and its owner takes the fault (R256, R361). -/
def State.cleanLine (s : State) (core n : Nat) : State :=
  let pas := s.dirtyInLine core (128 * n)
  if (s.core core).held.contains n then s
  else match s.backFault core pas with
    | some (d, info) =>
      ((s.backWalk core pas).updCore core fun c => { c with held := n :: c.held }).evictFault core d.ctx info
        (BitVec.ofNat 64 (d.va.toNat / 128 * 128))
    | none => (s.backWalk core pas).writeBacks core pas

/-- A line leaves L1, its dirty words first written to L2; the flag is false when a page that is no longer writable keeps it
there (R256, R361). -/
def State.evictLine (s : State) (core n : Nat) : State × Bool :=
  let s1 := s.cleanLine core n
  if (s1.core core).held.contains n then (s1, false) else (s1.updCore core fun c => c.dropL1 n, true)

/-- A core writes a dirty line back, or drops a clean word, without need of its place (R313, R361, log 95). A line's dirty
words go together, so that no access of one store is torn (R242). -/
def State.evictWord (s : State) (core pa : Nat) : State :=
  let s1 := if ((s.core core).dirty.get? pa).isSome then s.cleanLine core (pa / 128) else s
  s1.updCore core fun c => { c with clean := c.clean.erase pa }.tidy

/-- The first of some lines that can leave L1 does; the flag says whether one did. -/
def State.makeRoom (s : State) (core : Nat) : List Nat → State × Bool
  | [] => (s, false)
  | n :: ns =>
    match s.evictLine core n with
    | (s1, true) => (s1, true)
    | (s1, false) => State.makeRoom s1 core ns

/-- A way of a set made free: an invalid one, else that of the least recently used line that is not held (R360, R361). -/
def State.freeWay (s : State) (core set : Nat) : State × Bool :=
  let c := s.core core
  if c.setFull set then s.makeRoom core ((c.inSet set).reverse.filter fun n => !c.held.contains n) else (s, true)

/-! ## Fills (R361) -/

/-- A line becomes the most recently used of L1. -/
def Core.touchL1 (c : Core) (n : Nat) : Core := { c with lines := n :: c.lines.filter fun m => m != n }

/-- A line filled: words that are dirty stay as they are; a `.ST` load's line is the least recently used (R361). -/
def Core.fillL1 (c : Core) (n : Nat) (ws : List CWord) (last : Bool) : Core :=
  let rest := c.lines.filter fun m => m != n
  { c with
    clean := (ws.zipIdx).foldl (fun (m : KMap CWord) x =>
      if (c.dirty.get? (128 * n + 4 * x.2)).isSome then m else m.put (128 * n + 4 * x.2) x.1) c.clean
    lines := if last then rest ++ [n] else n :: rest }

/-- The line of an address filled from its home slice; the flag says whether L1 has a way for it. -/
def State.fillLine (s : State) (core c p pa : Nat) (last : Bool) : State × Bool :=
  let n := pa / 128
  match if (s.core core).lines.contains n then (s, true) else s.freeWay core (n % 512) with
  | (s1, false) => (s1, false)
  | (s1, true) =>
    let (s2, ws) := s1.fetchLine core c p pa
    (s2.updCore core fun c => c.fillL1 n ws last, true)

/-- The word-aligned addresses that an access of `size` bytes covers. -/
def coveredWords (pa size : Nat) : List Nat := (List.range (max 1 (size / 4))).map fun i => pa / 4 * 4 + 4 * i

/-- L1 holds every word of an access. -/
def Core.hits (c : Core) (pa size : Nat) : Bool := (coveredWords pa size).all fun a => (c.held? a).isSome

/-- What a thread's load of a global address does to L1 before it reads (R361, R113): a hit makes the line the most recently
used, a mismatched word of a clean line is fetched again once, and a miss fills the line unless the load is `.NA`. An address that
has become reserved keeps no copy (R367, R372). -/
def State.loadFill (s : State) (core c p pa size ch : Nat) : State :=
  if !cacheable pa then s
  else if (s.physRefused p true pa false).isSome then s.updCore core fun c => c.dropCleanLine (pa / 128)
  else if (s.core core).hits pa size then
    let s1 := s.updCore core fun c => c.touchL1 (pa / 128)
    let word (s : State) (a : Nat) : CWord := ((s.core core).clean.get? a).getD .zero
    if (coveredWords pa size).any (fun a => (word s1 a).mismatched) && (s1.dirtyInLine core pa).isEmpty then
      let s2 := (s1.fillLine core c p pa false).1
      if (coveredWords pa size).all fun a => (word s2 a).wellFormed then s2.corrected c core (pa / 128 * 128) else s2
    else s1
  else if ch = 2 then (s.fetchLine core c p pa).1
  else (s.fillLine core c p pa (ch == 1)).1

/-! ## Stores (R361, R363) -/

/-- A store of a word by a thread: into L1 where the line is cacheable, first writing back a line dirty under another tag
and filling a line that is not there; otherwise to the home, with the core's copy dropped. `direct` is a store with `.NA`; a
line for which L1 has no way goes to its home too (DESIGN CHOICE, log 92). -/
def State.storeWord (s : State) (who : Issuer) (direct : Bool) (pa : Nat) (w : CWord) : State :=
  let out (s : State) : State :=
    (s.updCore who.core fun c => { c with dirty := c.dirty.erase pa, clean := c.clean.erase pa }.tidy).physWrite who pa w
  if (s.ctx who.ctx).retired then s
  else if cacheable pa && (s.physRefused (s.pitchOf who) who.priv pa true).isNone && !direct then
    let line := s.dirtyInLine who.core pa
    let foreign := line.filter fun a => ((s.core who.core).dirty.get? a).any fun d => d.ctx != who.ctx
    let s1 := if foreign.isEmpty then s else s.writeBacks who.core line
    match if (s1.core who.core).lines.contains (pa / 128) then (s1.updCore who.core fun c => c.touchL1 (pa / 128), true)
      else s1.fillLine who.core who.ctx (s.pitchOf who) pa false with
    | (s2, false) => out s2
    | (s2, true) => s2.updCore who.core fun c =>
        { c with dirty := c.dirty.put pa ⟨w, who.ctx, who.va, who.wid.getD 0⟩, clean := c.clean.erase pa }
  else out s

/-- Words of one store, from a physical address up: of one line, which is one access (R242). Where they do not go through L1 they
are written at their home together; one that cannot be performed is reported once (R367). -/
def State.storeWords (s : State) (who : Issuer) (direct : Bool) (pa : Nat) (ws : List CWord) : State :=
  let xs := (ws.zipIdx).map fun x => (pa + 4 * x.2, x.1)
  if cacheable pa && (s.physRefused (s.pitchOf who) who.priv pa true).isNone && !direct then
    (ws.zipIdx).foldl (fun s x =>
      s.storeWord { who with va := if who.va = 0 then 0 else who.va + BitVec.ofNat 64 (4 * x.2) } false (pa + 4 * x.2) x.1) s
  else
    (s.updCore who.core fun c =>
      { c with dirty := c.dirty.filter fun e => xs.all fun x => x.1 != e.1
               clean := c.clean.filter fun e => xs.all fun x => x.1 != e.1 }.tidy).physWrites who xs

/-! ## Acquires (R309, R362) -/

/-- An acquire at a scope on a core: at gang scope or wider every clean word of its L1 becomes invalid. -/
def State.acquireAt (s : State) (core scope : Nat) : State :=
  if scope < 3 then s else s.updCore core Core.dropClean

/-! ## Pinned lines (R360) -/

/-- The set for a slot's next pinned line: of those with fewer than 11 pinned lines and a usable way, the one with the
fewest, the lowest among equals. -/
def Core.pinSet (c : Core) (counts : List Nat) : Option Nat :=
  let usable (k n : Nat) : Bool :=
    n < 11 && (c.held.isEmpty || (c.inSet k).length + n < 12 || (c.inSet k).any fun l => !c.held.contains l)
  ((counts.zipIdx).foldl (fun (best : Option (Nat × Nat)) x =>
    if !usable x.2 x.1 then best
    else match best with
      | some b => if x.1 < b.1 then some (x.1, x.2) else best
      | none => some (x.1, x.2)) none).map (·.2)

/-- Lines pinned for a slot, one at a time, in at most `fuel` tries; the flag is false when one finds no way: the placement waits. A
set whose ways all fail their write-back, which is reported as an eviction's (R256), is left for the next usable one. -/
def State.pinLines (s : State) (core slot : Nat) : Nat → Nat → List Nat → State × Bool
  | _, 0, _ => (s, true)
  | 0, _ + 1, _ => (s, false)
  | fuel + 1, n + 1, counts =>
    match (s.core core).pinSet counts with
    | none => (s, false)
    | some k =>
      match s.freeWay core k with
      | (s1, false) => State.pinLines s1 core slot fuel (n + 1) counts
      | (s1, true) =>
        State.pinLines (s1.updCore core fun c => { c with pins := c.pins.put slot (c.pins.getD slot [] ++ [k]) }) core slot
          fuel n (counts.set k (counts.getD k 0 + 1))

/-- The lines of a workgroup's scratchpad pinned at its placement: each failed try holds back at least one of the 6,144 ways. -/
def State.pinPad (s : State) (core slot lines : Nat) : State × Bool :=
  if lines = 0 then (s, true)
  else s.pinLines core slot (lines + 6144) lines ((List.range 512).map (s.core core).pinned)

end Sys2Proof.Machine
end

