-- ==== Sys2Proof/Machine/Reach.lean ====
section
/-!
DEFINITION. What a thread's memory access reaches: the address checks in their order (R241), range locks (R265, R266),
pool records (R38), the words a load reads and a store writes (R243–R245), and write-backs forced by a fence (R256).
-/

namespace Sys2Proof.Machine

/-! ## Range locks -/

/-- The range lock of a core that forbids an access of a context, the lowest entry first (R265). -/
def Core.locked (c : Core) (ctx slot : Nat) (pad : Bool) (lo n : Nat) (write : Bool) : Option (Nat × Lock) :=
  c.locks.find? fun e =>
    e.2.ctx == ctx && e.2.pad == pad && (!pad || e.2.slot == slot) && lo < e.2.hi && e.2.lo < lo + n &&
      (e.2.write || write)

/-- `tinfo` of `RANGELOCK` (R266). -/
def lockInfo (e : Nat × Lock) : Word :=
  BitVec.ofNat 32 (e.1 % 32 + (if e.2.write then 32 else 0) + e.2.owner * 64 + (if e.2.owner < 2 then e.2.ch * 256 else 0))

/-- The lock check of an access of the issuing bundle (R266). -/
def State.lockTrap (s : State) (pad : Bool) (lo n : Nat) (write : Bool) (addr : BitVec 64) : Except Trap Unit :=
  match (s.core s.curCore).locked s.curCtx (wgKey s.cur.wid % 16) pad lo n write with
  | some e => .error ⟨causeRangelock, lockInfo e, addr⟩
  | none => .ok ()

/-! ## Addresses -/

/-- A 32-bit number as an address of a trap. -/
def addr32 (n : Nat) : BitVec 64 := BitVec.ofNat 64 (n % 2 ^ 32)

/-- A byte of `[lo, lo + n)` lies in the pool of a grid (R38). -/
def Grid.poolMeets (g : Grid) (lo n : Nat) : Bool := lo < g.pool.toNat + 32 * g.pooln && g.pool.toNat < lo + n

/-- A byte of `[lo, lo + n)` lies in the pool of the issuing grid (R38). -/
def State.inPool (s : State) (lo n : Nat) : Bool := (s.gridOf s.cur.wid).poolMeets lo n

/-- The data access of a thread of the issuing bundle, for translation (R413). -/
def State.dataAccess (s : State) (write : Bool) : Access := { write := write, user := !s.curPriv }

/-- The accesses of the issuing bundle charged to its region (R45, R392), with their walks made; none: stalled. `recs` are the
addresses of pool records, which are read with privilege (R38); `faults` are addresses that only translate; `vas` are accessed.
`own`: L1 serves none of them. -/
def State.chargeAccess (s : State) (write : Bool) (recs faults vas : List Nat) (own : Bool := false) : Option State :=
  let u := s.dataAccess write
  let b := ((s.accessBill s.curCore s.curCtx {} recs false).add (s.walkBill s.curCore s.curCtx u (faults ++ vas))).add
    (s.farBill s.curCore s.curCtx u vas own)
  if s.canPay (s.gridOf s.cur.wid) b then some (s.pay s.curCore s.curCtx (s.gridOf s.cur.wid) b) else none

/-- A global address reached by a lane: `ALIGN`, `DATA`, a translation fault, `RANGELOCK`, in this order (R241). -/
def State.reach (s : State) (ea : BitVec 64) (size : Nat) (write : Bool) : Except Trap Place :=
  if ea.toNat % size != 0 then .error (alignTrap ea)
  else if 2 ^ 55 ≤ ea.toNat then .error ⟨causeData, dataInfo 4 0, ea⟩
  else if write && s.inPool ea.toNat size then .error ⟨causeData, dataInfo 8 0, ea⟩
  else
    match s.translate s.curCore s.curCtx ea.toNat (s.dataAccess write) with
    | .error info => .error ⟨causePage, info, ea⟩
    | .ok pa =>
      match s.lockTrap false ea.toNat size write ea with
      | .error t => .error t
      | .ok () => .ok (.global ea pa)

/-- An offset of the own scratchpad reached by a lane (R241). -/
def State.reachPad (s : State) (off : Nat) (size : Nat) (write : Bool) : Except Trap Place :=
  if off % size != 0 then .error (alignTrap (addr32 off))
  else if s.curWg.spad < off + size then .error ⟨causeData, dataInfo 5 0, addr32 off⟩
  else
    match s.lockTrap true off size write (addr32 off) with
    | .error t => .error t
    | .ok () => .ok (.pad (wgKey s.cur.wid) off)

/-- An offset of a gang member's scratchpad: the word A holds the offset and the rank, `b` is added (R241). The offset
may leave the window below or above. -/
def State.reachRemote (s : State) (a : Word) (b : Int) (size : Nat) (write : Bool) : Except Trap (GangEntry × Nat) :=
  let off : Int := (a.toNat % 2 ^ 24 : Nat) + b
  let rank := a.toNat / 2 ^ 24 % 16
  let addr : BitVec 64 := BitVec.ofInt 64 (off % 2 ^ 32)
  if off % size != 0 then .error (alignTrap addr)
  else
    match s.curWg.gang[rank]? with
    | none => .error ⟨causeData, dataInfo 6 rank, addr⟩
    | some m =>
      if a.toNat / 2 ^ 28 != 0 || off < 0 || (s.wg m.key).spad < (off + size).toNat then
        .error ⟨causeData, dataInfo 6 rank, addr⟩
      else if m.key = wgKey s.cur.wid then
        match s.lockTrap true off.toNat size write addr with
        | .error t => .error t
        | .ok () => .ok (m, off.toNat)
      else .ok (m, off.toNat)

/-- A pool record: BASE, SIZE, RD and WR (R38). -/
structure PoolRec where
  base : BitVec 64
  size : Nat
  rd   : Bool
  wr   : Bool
  deriving DecidableEq, Repr

/-- The first bad word of a read, poison before a mismatch (R110, R112). -/
def badWord (ws : List CWord) (site cls : Nat) (addr : BitVec 64) : Option Trap :=
  match findWord (·.poisoned) [⟨ws, site⟩] with
  | some (_, hi) => some ⟨causePoison, residueInfo site cls false hi, addr⟩
  | none =>
    match findWord (·.mismatched) [⟨ws, site⟩] with
    | some (_, hi) => some ⟨causeResidue, residueInfo site cls false hi, addr⟩
    | none => none

/-- Words of global memory read with privilege at a virtual address, each 8 bytes translated (R38, R327). -/
def State.readPriv (s : State) (core c : Nat) (va : BitVec 64) (n : Nat) : Except Word (List CWord) :=
  let p := (s.ctx c).pitch
  (List.range ((n + 1) / 2)).foldl (fun acc k =>
    match acc with
    | .error e => .error e
    | .ok ws =>
      match s.translate core c (va.toNat + 8 * k) {} with
      | .error e => .error e
      | .ok pa => .ok (ws ++ [s.coreWord core p true pa, s.coreWord core p true (pa + 4)])) (.ok [])

/-- The record of a pool access (R38): an index past the pool is `DATA`, reason 7. -/
def State.poolRecord (s : State) (idx : Nat) : Except Trap PoolRec :=
  let g := s.gridOf s.cur.wid
  let a := g.pool + BitVec.ofNat 64 (32 * idx)
  if g.pooln ≤ idx then .error ⟨causeData, dataInfo 7 idx, s.pc64⟩
  else
    match s.readPriv s.curCore s.curCtx a 8 with
    | .error info => .error ⟨causePage, info, a⟩
    | .ok ws =>
      match badWord ws 7 2 a with
      | some t => .error t
      | none =>
        let ctl := ((ws.drop 4).headD .zero).data
        .ok ⟨pairOf ws, (pairOf (ws.drop 2)).toNat, ctl.getLsbD 0, ctl.getLsbD 1⟩

/-- A pool access: record `idx`, byte offset `b` (R241, R38). -/
def State.reachPool (s : State) (idx b size : Nat) (write : Bool) : Except Trap Place :=
  match s.poolRecord idx with
  | .error t => .error t
  | .ok r =>
    let ea := r.base + BitVec.ofNat 64 b
    if ea.toNat % size != 0 then .error (alignTrap ea)
    else if !(if write then r.wr else r.rd) || r.size < b + size then .error ⟨causeData, dataInfo 7 idx, ea⟩
    else s.reach ea size write

/-! ## Reading -/

/-- The full bit of the scratchpad line that holds an offset (R245). -/
def Workgroup.lineFull (g : Workgroup) (off : Nat) : Bool := g.full.getLsbD (off / 128)

/-- A place can be read now: its scratchpad line is full (R245). -/
def State.readable (s : State) (p : Place) : Bool :=
  match p with
  | .pad k off => (s.wg k).lineFull off
  | .global _ _ => true

/-- The word-aligned words that an access of `size` bytes covers. -/
def State.wordsAt (s : State) (core c : Nat) (priv : Bool) (p : Place) (size : Nat) : List CWord :=
  let n := max 1 (size / 4)
  match p with
  | .pad k off => (s.wg k).pad.words (off / 4 * 4) n
  | .global _ pa => (List.range n).map fun i => s.coreWord core (s.ctx c).pitch priv (pa / 4 * 4 + 4 * i)

/-- Bits [1:0] of an address: the byte within its word. -/
def Place.byteInWord : Place → Nat
  | .pad _ off => off % 4
  | .global _ pa => pa % 4

/-- The address a place reports. -/
def Place.addr : Place → BitVec 64
  | .pad _ off => addr32 off
  | .global ea _ => ea

/-- The destination words of a load from the words it covers: whole words as they are, a sub-word extended with the residue of the
extension row (R243, R108). -/
def loadResult (sz k : Nat) (ws : List CWord) : List CWord :=
  let d := w0 ws
  match sz with
  | 0 => [.gen (partOf d k 1)]
  | 1 => [⟨BitVec.ofInt 32 (sextN 8 (partOf d k 1).toNat), res (partOf d k 1)⟩]
  | 2 => [.gen (partOf d k 2)]
  | 3 => [⟨BitVec.ofInt 32 (sextN 16 (partOf d k 2).toNat), res (partOf d k 2)⟩]
  | _ => ws

/-- What a load of a place returns to its register: its words, or the trap of a bad word (R110, R243). -/
def State.loadFrom (s : State) (core c : Nat) (priv : Bool) (p : Place) (sz : Nat) : Except Trap (List CWord) :=
  let ws := s.wordsAt core c priv p (szBytes sz)
  match badWord ws 7 2 p.addr with
  | some t => .error t
  | none => .ok (loadResult sz p.byteInWord ws)

/-- What a thread's load does to the L1 of its core before it reads (R361). -/
def State.fillFor (s : State) (core c size ch : Nat) (p : Place) : State :=
  match p with
  | .pad _ _ => s
  | .global _ pa => s.loadFill core c (s.ctx c).pitch pa size ch

/-! ## Writing -/

/-- The line of an offset marked full (R245). -/
def Workgroup.fill (g : Workgroup) (off : Nat) : Workgroup := { g with full := g.full ||| (1 <<< (off / 128)) }

/-- Words of a scratchpad written, the line filled (R245); a sub-word is merged into its word (R244). A barrier object is plain data to
such a store, its DISC and UNDER bits too (R39; DESIGN CHOICE, log 117). -/
def Workgroup.store (g : Workgroup) (off size : Nat) (ws : List CWord) : Workgroup :=
  let m := if size < 4 then g.pad.setWord (off / 4 * 4) (storePart (g.pad.word (off / 4 * 4)) (off % 4) size (w0 ws))
           else g.pad.setWords off ws
  ({ g with pad := m }).fill off

/-- The issuing bundle as the issuer of an access at a virtual address. -/
def State.issuer (s : State) (ea : BitVec 64) : Issuer := ⟨s.curCore, s.curCtx, some s.cur.wid, s.curPriv, ea⟩

/-- A store of a lane at a place it reached (R244); `direct` is `.NA`. -/
def State.storeTo (s : State) (p : Place) (size : Nat) (direct : Bool) (ws : List CWord) : State :=
  match p with
  | .pad k off => s.updWg k fun g => g.store off size ws
  | .global ea pa =>
    if size < 4 then
      match s.target (s.ctx s.curCtx).pitch s.curPriv pa with
      | .regs p off => s.regBytes p off size (w0 ws)
      | _ =>
      let old := s.coreWord s.curCore (s.ctx s.curCtx).pitch s.curPriv (pa / 4 * 4)
      s.storeWord (s.issuer ea) direct (pa / 4 * 4) (storePart old (pa % 4) size (w0 ws))
    else s.storeWords (s.issuer ea) direct pa ws

/-! ## Write-backs by an instruction -/

/-- The dirty words of a core written back one after another, until one meets a page that is no longer writable: its
`PAGE`, and the line is kept from replacement (R256). The words of `pas` belong to the context. -/
def State.flush (s : State) (core : Nat) : List Nat → State × Option Trap
  | [] => (s, none)
  | pa :: pas =>
    match (s.core core).dirty.get? pa with
    | none => State.flush s core pas
    | some d =>
      match s.translate core d.ctx d.va.toNat { write := true, wb := true } with
      | .error info =>
        ((s.updCore core fun c => { c with held := pa / 128 :: c.held }), some ⟨causePage, info, BitVec.ofNat 64 (d.va.toNat / 128 * 128)⟩)
      | .ok _ => State.flush ((s.backWalk core [pa]).writeBack core (pa / 128)) core pas

/-- The lines of a core's L1 that hold dirty words of other contexts. -/
def State.foreignLines (s : State) (core c : Nat) : List Nat :=
  (((s.core core).dirty.filter fun e => e.2.ctx != c).map fun e => e.1 / 128).dedup

/-- The dirty words of a context on a core. -/
def State.dirtyOf (s : State) (core c : Nat) : List Nat :=
  ((s.core core).dirty.filter fun e => e.2.ctx == c).map (·.1)

/-- What a packet does to memory: not a posted event. -/
def PktOp.writes : PktOp → Bool
  | .post _ _ => false
  | _ => true

/-- Remote writes and adds of some lanes of a warp that have not been performed (R253, R255, R319). -/
def State.inFlight (s : State) (wid : Nat) (lanes : Word) : Bool :=
  s.fabric.packets.any fun p => p.wid == wid && lanes.getLsbD p.lane && !p.done && p.op.writes

/-- Two runs of bytes meet. -/
def meets (a n b m : Nat) : Bool := decide (a < b + m) && decide (b < a + n)

/-- A packet writes a byte of an access of `size` bytes at a place. -/
def PktOp.covers (o : PktOp) (p : Place) (size : Nat) : Bool :=
  match o, p with
  | .store t _ off n _, .pad k x => t == k && meets off n x size
  | .padAdd t _ off _ b _, .pad k x => t == k && meets off (4 * b.length) x size
  | .memAdd a _ _ b _, .global _ x => meets a (4 * b.length) x size
  | _, _ => false

/-- An own earlier remote write to a place of the access is still on its way, so that a lane of the issuing bundle waits with
it: one lane's accesses to a location keep their order (R307, R308). -/
def State.behindOwn (s : State) (l : Nat) (p : Place) (size : Nat) : Bool :=
  s.fabric.packets.any fun k => k.wid == s.cur.wid && k.lane == l && !k.done && k.op.covers p size

/-- Two places share a byte of accesses of `n` and `m` bytes. -/
def Place.overlaps (p : Place) (n : Nat) (q : Place) (m : Nat) : Bool :=
  match p, q with
  | .pad k a, .pad j b => k == j && meets a n b m
  | .global _ a, .global _ b => meets a n b m
  | _, _ => false

/-- A load of some places has to return after an outstanding load of its warp that was issued before it: one lane reads the
same bytes with both (R308). -/
def Warp.behindLoad (w : Warp) (n size : Nat) (xs : List (Nat × Place)) : Bool :=
  w.loads.any fun e => e.1 < n && e.2.lanes.any fun y => xs.any fun x =>
    x.1 == y.1 && x.2.overlaps size y.2 (szBytes e.2.sz)

/-- What a release of the issuing bundle does first (R255, R309, R310): nothing at thread scope; else it waits for the remote
writes of the bundle's lanes (`none`), and at gang scope or wider it writes back the context's dirty lines of the core, which
may trap. The dirty words of other contexts go too, as by an eviction, since a lane of the bundle may have read them: a release
is cumulative (R310, log 103). -/
def State.releaseAt (s : State) (scope : Nat) : Option (State × Option Trap) :=
  if scope = 0 then some (s, none)
  else if s.inFlight s.cur.wid s.cur.mask then none
  else if scope < 3 then some (s, none)
  else
    match s.flush s.curCore (s.dirtyOf s.curCore s.curCtx) with
    | (s1, some t) => some (s1, some t)
    | (s1, none) => some ((s1.foreignLines s.curCore s.curCtx).foldl (fun s n => s.cleanLine s.curCore n) s1, none)

end Sys2Proof.Machine
end

