-- ==== Sys2Proof/Machine/Control.lean ====
section
/-!
DEFINITION. Segment ends, the return stack, and the other control instructions (R204–R214, R231).
-/

namespace Sys2Proof.Machine

/-! ## Fields -/

/-- TO in words: the literal in F96, else {C9, B9} (R204). -/
def targetOffset (f : Fields) : Int :=
  match f.lit with
  | some l => l.toInt
  | none => (f.c ++ f.b).toInt

/-- MO in words: {MRH, D9} (R204). -/
def meetOffset (f : Fields) : Int := (f.mrh ++ f.d).toInt

/-- The target of a control instruction at an address (R204). -/
def targetAddr (f : Fields) (pc : Addr) : Addr := pc + BitVec.ofInt 55 (4 * targetOffset f)
/-- The meeting address of a control instruction at an address (R204). -/
def meetAddr (f : Fields) (pc : Addr) : Addr := pc + BitVec.ofInt 55 (4 * meetOffset f)

/-- The `mr` write of a control instruction (R204). -/
def Thread.applyMrm (t : Thread) (f : Fields) (pc : Addr) : Thread :=
  match f.mrm with
  | 1 => { t with mr := none }
  | 2 => { t with mr := some (meetAddr f pc) }
  | _ => t

/-! ## Splitting (R54, R205) -/

/-- The distinct values of a list, in order of their first place. -/
def firsts {α : Type} [BEq α] : List α → List α
  | [] => []
  | x :: xs => x :: (firsts xs).filter fun y => !(y == x)

/-- The lanes of a mask that go on after a segment end form one bundle for each successor (R54); the lowest lane's keeps
its number. The window closes (R135). -/
def Warp.split (w : Warp) (mask : Word) : Warp :=
  let here (l : Nat) (t : Thread) : Bool := mask.getLsbD l && t.status == .ready
  let pcs := firsts ((lanesOf mask).filterMap fun l => if here l (w.lane l) then some (w.lane l).pc else none)
  { (w.mapLanes fun l t =>
      if here l t then
        let k := pcs.idxOf t.pc
        { t with bid := if k = 0 then t.bid else w.next + (k - 1), window := 0, wmask := 0 }
      else t) with next := w.next + (pcs.length - 1) }

/-- A bundle splits, where its warp is still there. -/
def State.splitBundle (s : State) (wid : Nat) (mask : Word) : State :=
  s.updWarp wid fun w => w.split mask

/-! ## Retirement (R68, R69) -/

/-- Entries of a gang that have ended. -/
def State.gangDone (s : State) (k : Nat) : Bool := (s.wg k).gang.all fun m => (s.wg m.key).ended

/-- A workgroup has work left on its engines (R69). -/
def State.wgBusy (s : State) (k : Nat) : Bool :=
  let c := s.core (coreOf k)
  (c.queues.any fun q => q.any fun r => r.wg == k) || (c.engine.queue.any fun e => wgKey e.wid == k)

/-- The workgroup's warps have all retired. -/
def State.wgRetired (s : State) (k : Nat) : Bool :=
  s.warps.all fun e => wgKey e.1 != k || e.2.live == 0

/-- A workgroup whose warps have retired and whose engine work is done ends; its resources are freed, a gang's members
together (R52, R69), and its grid counts it. -/
def State.tryEnd (s : State) (k : Nat) : State :=
  let g := s.wg k
  if (s.wgs.get? k).isNone || g.ended || !s.wgRetired k || s.wgBusy k then s
  else
    let s1 := (s.updWg k fun g => { g with ended := true }).updCore (coreOf k) fun c =>
      { c with locks := c.locks.filter fun l => l.2.slot != k % 16
               engine := if c.engine.holder == some k then .empty else c.engine }
    let s2 := s1.updGrid g.grid fun d => { d with ended := d.ended + 1 }
    if s2.gangDone k then g.gang.foldl (fun s m => s.freeWg m.key) s2 else s2

/-- A retired warp keeps nothing (R68). -/
def Warp.retire (w : Warp) : Warp :=
  { w with lanes := w.lanes.map fun _ => .absent, wregs := [], wpart := 0b101, tmask := 0, loads := [], asyncs := [] }

/-- A warp whose lanes have all exited retires, and its workgroup may end. -/
def State.tryRetire (s : State) (wid : Nat) : State :=
  match s.warps.get? wid with
  | none => s
  | some w => if w.live == 0 then ((s.setWarp wid w.retire).tryEnd (wgKey wid)) else s

/-! ## Waking -/

/-- A thread that waited is ready again: it joins a bundle at the next regroup point, or is its trap group's (R55), unless a switch
marker parks it (R133). -/
def Thread.wake (t : Thread) (now : Nat) : Thread :=
  { t with status := if t.parks then .parked else if t.inHandler then .ready else .joining, parks := false, age := now }

/-- Callee groups of a warp whose turn has come: every lane of the groups before has popped or exited (R212). -/
def Warp.releaseCallees (w : Warp) (now : Nat) : Warp :=
  w.mapLanes fun _ t =>
    match t.status with
    | .callee call g =>
      if w.lanes.any fun u => u.live && u.callees.any fun c => c.call == call && c.group < g then t else t.wake now
    | _ => t

/-- The callee groups of a warp looked at again. -/
def State.releaseCallees (s : State) (wid : Nat) : State :=
  s.updWarp wid fun w => w.releaseCallees s.cycle

/-! ## The shape of a segment end -/

/-- The lanes of a segment end move on or trap; then the bundle splits, and parked groups are looked at (R205). -/
def State.segment (s : State) (f : Fields) (src : Thread → List Source) (body : State → Ins → Except Trap State) : State :=
  let (s1, ts) := s.perLane f src body
  ((s1.finish f ts).splitBundle s.cur.wid (s.cur.mask &&& ~~~(maskOfLanes (ts.map (·.1))))).releaseCallees s.cur.wid

/-- A segment end that reaches no memory (R205). -/
def segmentEnd (op : Op) (src : Op → Fields → State → Thread → List Source)
    (body : State → Ins → Except Trap State) (f : Fields) (s : State) : Out :=
  s.issue op f [] fun s => .next (s.segment f (src op f s) body)

/-- The addresses at which lanes of the bundle spill their oldest entry to the return stack in memory, or fetch one back
(R210). -/
def State.spillVas (s : State) (f : Fields) (push : Bool) : List Nat :=
  (lanesOf (s.qualifying f.g)).flatMap fun l =>
    let t := s.curWarp.lane l
    let a := if push then t.csp - 16 else t.csp
    if if push then t.rstack.length < 4 || t.spl = 2 ^ 24 - 1 else !t.rstack.isEmpty || t.spl = 0 then []
    else [a.toNat, (a + 8).toNat]

/-- A segment end that pushes or pops: its spills and fills are accesses, which wait for the budget (R210, R393). -/
def spillEnd (op : Op) (push : Bool) (k : State → State) (f : Fields) (s : State) : Out :=
  s.issue op f [] fun s =>
    match s.chargeAccess push [] [] (s.spillVas f push) with
    | none => .next s
    | some s => .next (k s)

/-- No source. -/
def noSources (_ : Op) (_ : Fields) (_ : State) (_ : Thread) : List Source := []
/-- The sources of the opcode's form. -/
def formSources (op : Op) (f : Fields) (s : State) (t : Thread) : List Source := sources op f s.curWarp t false

/-- A lane of the issuing warp changed. -/
def State.lane! (s : State) (l : Nat) (g : Thread → Thread) : State := s.updWarp s.cur.wid fun w => w.updLane l g

/-- A branch of each lane to an address of its own, with the `mr` write (R205). -/
def branchTo (op : Op) (src : Op → Fields → State → Thread → List Source) (dest : State → Fields → Ins → Except Trap Addr)
    (f : Fields) (s : State) : Out :=
  segmentEnd op src (fun st i =>
    match dest s f i with
    | .error tr => .error tr
    | .ok pc => .ok (st.lane! i.l fun t => (t.applyMrm f s.cur.pc).goto pc)) f s

/-! ## Branches (R206, R207) -/

/-- `BRA` (R206). -/
def execBra (f : Fields) (s : State) : Out := branchTo .bra noSources (fun s f _ => .ok (targetAddr f s.cur.pc)) f s

/-- The successor of a conditional branch (R206). -/
def brcTarget (s : State) (f : Fields) (i : Ins) : Except Trap Addr :=
  let k := f.a.toNat % 16
  if i.t.predBad k then .error (predTrap s.pc64)
  else .ok (if i.t.pred k then targetAddr f s.cur.pc else s.nextPc f)

/-- `BRC` (R206): the `mr` write in both directions. -/
def execBrc (f : Fields) (s : State) : Out := branchTo .brc noSources brcTarget f s

/-- `BRCX` (R206, R467): the effect of `BRC.MSET`, counted in `depcnt`. -/
def execBrcx (f : Fields) (s : State) : Out :=
  s.issue .brcx f [] fun s =>
    let (s1, ts) := s.perLane f (fun _ => []) fun st i =>
      match brcTarget s f i with
      | .error tr => .error tr
      | .ok pc => .ok (st.lane! i.l fun t => ({ t with mr := some (meetAddr f s.cur.pc) }).goto pc)
    let n := ((lanesOf (s.qualifying f.g)).length) - (ts.filter fun x => (s.curWarp.lane x.1).guard f.g).length
    let s2 := (s1.deprecated s.curCtx n).finish f ts
    .next ((s2.splitBundle s.cur.wid (s.cur.mask &&& ~~~(maskOfLanes (ts.map (·.1))))).releaseCallees s.cur.wid)

/-- `tinfo` of a code address with bits [63:55] not zero (R207, R420). -/
def badCodeInfo : Word := Access.info { fetch := true } 6 0

/-- A per-lane code address: `ALIGN`, then `FETCH` (R207). -/
def laneTarget (a : BitVec 64) : Except Trap Addr :=
  if a.toNat % 4 != 0 then .error (alignTrap a)
  else if 2 ^ 55 ≤ a.toNat then .error ⟨causeFetch, badCodeInfo, a⟩
  else .ok (a.extractLsb' 0 55)

/-- `BRX` (R206, R207). -/
def execBrx (f : Fields) (s : State) : Out := branchTo .brx formSources (fun _ _ i => laneTarget (pairOf i.a)) f s

/-- `MEET` (R206). -/
def execMeet (f : Fields) (s : State) : Out := branchTo .meet noSources (fun s f _ => .ok (s.nextPc f)) f s

/-! ## The return stack (R209, R210, R214) -/

/-- The generation of a context that holds a code address, or 0 (R209). -/
def Context.genOf (c : Context) (a : Addr) : Nat :=
  ((c.gens.find? fun e => e.2.base ≤ a.toNat && a.toNat < e.2.base + e.2.len).map (·.1)).getD 0

/-- Spilled entries of a generation counted up or down (R214). -/
def Context.countSpill (c : Context) (g : Nat) (up : Bool) : Context :=
  match c.gens.get? g with
  | some x => { c with gens := c.gens.put g { x with spilled := if up then x.spilled + 1 else x.spilled - 1 } }
  | none => c

/-- The words of a spilled entry (R209). -/
def entryWords4 (e : RetEntry) (gen : Nat) : List CWord :=
  ofPair (e.ra.zeroExtend 64) ++
    ofPair (((e.ma.getD 0).zeroExtend 64) ||| BitVec.ofNat 64 (gen * 2 ^ 55) ||| (if e.ma.isSome then 1 <<< 63 else 0))

/-- The entry in spilled words, with its generation (R209). -/
def entryOf (ws : List CWord) : RetEntry × Nat :=
  let m := pairOf (ws.drop 2)
  (⟨(pairOf ws).extractLsb' 0 55, if m.getLsbD 63 then some (m.extractLsb' 0 55) else none⟩, bitsOf m.toNat 55 8)

/-- The two 8-byte halves of a spilled entry reached (R210). -/
def State.reachEntry (s : State) (a : BitVec 64) (write : Bool) : Except Trap (Place × Place) :=
  match s.reach a 8 write with
  | .error t => .error t
  | .ok p =>
    match s.reach (a + 8) 8 write with
    | .error t => .error t
    | .ok q => .ok (p, q)

/-- `push(e)` of a lane (R210): the oldest of four entries goes to memory first. -/
def State.push (s : State) (l : Nat) (e : RetEntry) : Except Trap State :=
  let t := s.curWarp.lane l
  if t.spl = 2 ^ 24 - 1 then .error ⟨causeData, dataInfo 10 0, s.pc64⟩
  else if t.rstack.length < 4 then .ok (s.lane! l fun t => { t with rstack := e :: t.rstack })
  else
    let a := t.csp - 16
    match s.reachEntry a true with
    | .error tr => .error tr
    | .ok (p, q) =>
      let old := t.rstack.getLast?.getD e
      let gen := (s.ctx s.curCtx).genOf old.ra
      let ws := entryWords4 old gen
      let s1 := (s.storeTo p 8 false (ws.take 2)).storeTo q 8 false (ws.drop 2)
      let s2 := s1.updCtx s.curCtx fun c => c.countSpill gen true
      .ok (s2.lane! l fun t => { t with csp := a, spl := t.spl + 1, rstack := e :: t.rstack.dropLast })

/-- `pop()` of a lane (R210): the entry and the state after it; an entry in memory is loaded as `LD` loads (R361, R113). -/
def State.pop (s : State) (l : Nat) : Except Trap (RetEntry × State) :=
  let t := s.curWarp.lane l
  match t.rstack with
  | e :: es => .ok (e, s.lane! l fun t => { t with rstack := es })
  | [] =>
    if t.spl = 0 then .error ⟨causeData, dataInfo 11 0, s.pc64⟩
    else
      match s.reachEntry t.csp false with
      | .error tr => .error tr
      | .ok (p, q) =>
        let s0 := (s.fillFor s.curCore s.curCtx 8 0 p).fillFor s.curCore s.curCtx 8 0 q
        let ws := s0.wordsAt s.curCore s.curCtx s.curPriv p 8 ++ s0.wordsAt s.curCore s.curCtx s.curPriv q 8
        match badWord ws 7 2 t.csp with
        | some tr => .error tr
        | none =>
          let (e, gen) := entryOf ws
          let s1 := s0.updCtx s.curCtx fun c => c.countSpill gen false
          .ok (e, s1.lane! l fun t => { t with csp := t.csp + 16, spl := t.spl - 1 })

/-- The depth of a return stack. -/
def Thread.rdepth (t : Thread) : Nat := t.rstack.length + t.spl

/-- The spilled entries of a lane that exits, counted down; a bad entry, or one that does not translate, is skipped
(R214). -/
def State.dropSpilled (s : State) (core c : Nat) : Nat → BitVec 64 → State
  | 0, _ => s
  | n + 1, a =>
    let s1 :=
      match s.readPriv core c a 4 with
      | .error _ => s
      | .ok ws => if ws.any (fun w => !w.wellFormed) then s
        else s.updCtx c fun k => k.countSpill (entryOf ws).2 false
    State.dropSpilled s1 core c n (a + 16)

/-- A lane exits (R68, R206, R214). -/
def Thread.exit (t : Thread) : Thread :=
  { t with status := .exited, rstack := [], spl := 0, frames := [], callees := [], engTraps := [], sfuFails := [], body := 0,
           mr := none, window := 0, wmask := 0, parks := false }

/-! ## Calls (R211–R213) -/

/-- A call of each lane: the `mr` write, the push, and the target; the records of its callee group follow (R211, R212). -/
def callLane (f : Fields) (s st : State) (l : Nat) (pc : Addr) : Except Trap State :=
  let t := (s.curWarp.lane l).applyMrm f s.cur.pc
  match (st.lane! l fun _ => t).push l ⟨s.nextPc f, t.mr⟩ with
  | .error tr => .error tr
  | .ok s1 => .ok (s1.lane! l fun t => t.goto pc)

/-- `CALL` (R211). -/
def execCall (f : Fields) (s : State) : Out :=
  spillEnd .call true (fun s => s.segment f (fun _ => []) fun st i => callLane f s st i.l (targetAddr f s.cur.pc)) f s

/-- The lanes of a mask that called, put into callee groups by ascending target; groups after the first are parked
(R212). -/
def Warp.calleeGroups (w : Warp) (mask : Word) : Warp :=
  let targets := ((firsts ((lanesOf mask).map fun l => (w.lane l).pc.toNat)).mergeSort fun a b => a ≤ b)
  { (w.mapLanes fun l t =>
      if mask.getLsbD l then
        let k := targets.idxOf t.pc.toNat
        { t with callees := ⟨w.next, k, t.rdepth⟩ :: t.callees, status := if k = 0 then t.status else .callee w.next k }
      else t) with next := w.next + 1 }

/-- `CALLI` (R212). -/
def execCalli (f : Fields) (s : State) : Out :=
  spillEnd .calli true (fun s =>
    let (s1, ts) := s.perLane f (formSources .calli f s) fun st i =>
      match laneTarget (pairOf i.a) with
      | .error tr => .error tr
      | .ok pc => callLane f s st i.l pc
    let bad := maskOfLanes (ts.map (·.1))
    let s2 := s1.updWarp s.cur.wid fun w => w.calleeGroups (s.qualifying f.g &&& ~~~bad)
    (s2.finish f ts).splitBundle s.cur.wid (s.cur.mask &&& ~~~bad)) f s

/-- `RET` (R213): a popped entry also ends the callee record of its depth (R212). -/
def execRet (f : Fields) (s : State) : Out :=
  spillEnd .ret false (fun s => s.segment f (fun _ => []) fun st i =>
    match st.pop i.l with
    | .error tr => .error tr
    | .ok (e, s1) =>
      .ok (s1.lane! i.l fun t =>
        ({ t with mr := e.ma, callees := t.callees.filter fun c => c.depth != i.t.rdepth }).goto e.ra)) f s

/-! ## The rest (R206, R208, R231) -/

/-- A bundle that only continues: its lanes go to the next instruction. -/
def State.advance (s : State) (f : Fields) : State :=
  (s.updWarp s.cur.wid fun w => w.mapLanes fun l t => if s.active l then t.goto (s.nextPc f) else t)

/-- The lanes of the bundle whose guard is bad trap (R22); the others are the mask given on. -/
def State.guarded (s : State) (op : Op) (f : Fields) (k : State → List (Nat × Trap) → Out) : Out :=
  s.issue op f [] fun s =>
    k s (if f.g == 15 then [] else
      ((lanesOf s.cur.mask).filter fun l => (s.curWarp.lane l).predBad f.g.toNat).map fun l => (l, predTrap s.pc64))

/-- The state with the bundle advanced but for the lanes that trap. -/
def State.advanceBut (s : State) (f : Fields) (ts : List (Nat × Trap)) : State :=
  (s.updWarp s.cur.wid fun w => w.mapLanes fun l t =>
    if s.active l && !(ts.any fun x => x.1 == l) then t.goto (s.nextPc f) else t).finish f ts

/-- `NOP` (R208). -/
def execNop (f : Fields) (s : State) : Out := s.guarded .nop f fun s ts => .next (s.advanceBut f ts)

/-- One line asked for by `PREFI`: dropped where it does not translate, is reserved, or needs a walk or line that the
budget does not allow (R231, R421). -/
def State.prefetchCode (s : State) (va : Nat) : State :=
  let p := (s.ctx s.curCtx).pitch
  let g := s.gridOf s.cur.wid
  let u : Access := { fetch := true, user := !s.curPriv }
  let b := s.codeBill s.curCore s.curCtx u va
  if !s.canPay g b then s
  else
    let s1 := s.pay s.curCore s.curCtx g b
    match s.translate s.curCore s.curCtx va u with
    | .error _ => s1
    | .ok pa => if (s1.physRefused p true pa false).isSome then s1 else s1.codeLine s.curCore s.curCtx p pa

/-- `PREFI` (R231): it fills the instruction cache and changes no architectural state. -/
def execPrefi (f : Fields) (s : State) : Out :=
  s.guarded .prefi f fun s ts =>
    let line := (targetAddr f s.cur.pc).toNat / 128
    let s1 := if s.qualifying f.g == 0 then s
      else (List.range (f.d.toNat % 16 + 1)).foldl (fun s k => s.prefetchCode ((line + k) * 128 % 2 ^ 55)) s
    .next (s1.advanceBut f ts)

/-- `YIELD` (R208): the bundle is not ready until its expiry. -/
def execYield (f : Fields) (s : State) : Out :=
  s.guarded .yield f fun s ts =>
    if s.qualifying f.g == 0 then .next (s.advanceBut f ts)
    else
      let s1 := s.advanceBut { f with s := false } ts
      let n := (s1.core s.curCore).issued
      let s2 := s1.updWarp s.cur.wid fun w => w.mapLanes fun l t =>
        if s.active l && t.status == .ready && !(ts.any fun x => x.1 == l) then { t with status := .yielded n s.cycle } else t
      .next (if f.s then s2.park s.cur.wid (s.cur.mask &&& ~~~(maskOfLanes (ts.map (·.1)))) else s2)

end Sys2Proof.Machine
end

