-- ==== Sys2Proof/Machine/Narrow.lean ====
section
/-!
DEFINITION. The element formats of format slots: tapered and OCP codes, block scales, and the writing of a narrow
element (R29, R79–R93).
-/

namespace Sys2Proof.Machine

/-! ## Format slots (R29) -/

/-- ELEM. -/
def slotElem (k : BitVec 16) : Nat := k.toNat % 16
/-- BLK. -/
def slotBlk (k : BitVec 16) : Bool := k.getLsbD 4
/-- RM. -/
def slotRm (k : BitVec 16) : Nat := k.toNat / 128 % 4
/-- SAT. -/
def slotSat (k : BitVec 16) : Bool := k.getLsbD 9

/-- A valid slot (R30). -/
def slotValid (k : BitVec 16) : Bool :=
  decide (slotElem k ≤ 11) && (!slotBlk k || (3 ≤ slotElem k && slotElem k ≤ 10)) &&
    (k.toNat / 32 % 4 == if slotBlk k then 1 else 0) && k.toNat / 1024 == 0

/-- Bits of an element (R29). -/
def elemBits : Nat → Nat
  | 0 => 32
  | 1 | 2 => 16
  | 4 | 8 | 9 => 6
  | 5 | 10 => 4
  | _ => 8

/-- A tapered element format (R79). -/
def isTapered (el : Nat) : Bool := 3 ≤ el && el ≤ 5
/-- A format narrower than 16 bits that is not i8 (R86). -/
def isNarrow (el : Nat) : Bool := 3 ≤ el && el ≤ 10

/-! ## Decoding -/

/-- The run of bits equal to `b` from bit `i − 1` of `m` down. -/
def regimeRun (m : Nat) (b : Bool) : Nat → Nat
  | 0 => 0
  | i + 1 => if m.testBit i = b then 1 + regimeRun m b i else 0

/-- A tapered magnitude field of `n − 1` bits as `m × 2^e` (R79). -/
def taperMag (n es m : Nat) : Nat × Int :=
  if m = 0 then (0, 0)
  else
    let b := m.testBit (n - 2)
    let k := regimeRun m b (n - 1)
    let reg : Int := if b then k - 1 else -k
    let left := n - 1 - (k + 1)
    let rest := m % 2 ^ left
    let e := if es = 0 then 0 else if left = 0 then 0 else rest / 2 ^ (left - 1)
    let fb := left - es
    let f := rest % 2 ^ fb
    (2 ^ fb + f, reg * 2 ^ es + e - fb)

/-- Exponent bits, fraction bits and bias of an OCP format (R84). -/
def ocpShape : Nat → Nat × Nat × Int
  | 6 => (4, 3, 7)
  | 7 => (5, 2, 15)
  | 8 => (3, 2, 3)
  | 9 => (2, 3, 1)
  | _ => (2, 1, 1)

/-- An OCP magnitude code as `m × 2^e` (R84). -/
def ocpMag (el c : Nat) : Nat × Int :=
  let (_, fb, bias) := ocpShape el
  let ex := c / 2 ^ fb
  let fr := c % 2 ^ fb
  if ex = 0 then (fr, 1 - bias - fb) else (fr + 2 ^ fb, ex - bias - fb)

/-- A magnitude code of a narrow format as `m × 2^e`. -/
def magOf (el c : Nat) : Nat × Int :=
  match el with
  | 3 => taperMag 8 1 c
  | 4 => taperMag 6 1 c
  | 5 => taperMag 4 0 c
  | _ => ocpMag el c

/-- The largest finite magnitude code (R84). -/
def maxCode : Nat → Nat
  | 3 => 0x7F
  | 4 => 0x1F
  | 5 => 0x7
  | 6 => 0x7E
  | 7 => 0x7B
  | 8 | 9 => 0x1F
  | _ => 0x7

/-- An OCP infinity or NaN code (R84, R87). -/
def ocpSpecial (el c : Nat) : Bool := (el == 6 && c % 128 == 127) || (el == 7 && 0x7C ≤ c % 128)

/-- The value of an element code (R79, R84, R87, R93). An IEEE NaN is canonical; an OCP infinity or NaN is a NaN with its
sign that raises the invalid flag. -/
def decodeElem (el code : Nat) : FVal :=
  match el with
  | 0 => match Ieee.f32.decode (code % 2 ^ 32) with | .nan s _ => .nan s false | v => v
  | 1 => match Ieee.f16.decode (code % 2 ^ 16) with | .nan s _ => .nan s false | v => v
  | 2 => match Ieee.bf16.decode (code % 2 ^ 16) with | .nan s _ => .nan s false | v => v
  | 11 => .ofInt (sextN 8 code)
  | _ =>
    let w := elemBits el
    let c := code % 2 ^ (w - 1)
    let s := code.testBit (w - 1)
    if ocpSpecial el c then .nan true s
    else
      let (m, e) := magOf el c
      .fin (s && !(isTapered el && m == 0)) m e

/-! ## Writing -/

/-- Comparison of two magnitudes. -/
def cmpMag (x y : Nat × Int) : Ordering :=
  let q := min x.2 y.2
  compare (x.1 * 2 ^ (x.2 - q).toNat) (y.1 * 2 ^ (y.2 - q).toNat)

/-- A magnitude exceeds another. -/
def gtMag (x y : Nat × Int) : Bool := match cmpMag x y with | .gt => true | _ => false
/-- Two magnitudes are equal. -/
def eqMag (x y : Nat × Int) : Bool := match cmpMag x y with | .eq => true | _ => false

/-- The largest code whose magnitude is at most `v`, from bit `i` down. -/
def codeBelow (el : Nat) (v : Nat × Int) : Nat → Nat → Nat
  | 0, c => c
  | i + 1, c =>
    let d := c + 2 ^ i
    codeBelow el v i (if d ≤ maxCode el && !gtMag (magOf el d) v then d else c)

/-- The sum of two magnitudes. -/
def addMag (x y : Nat × Int) : Nat × Int :=
  let q := min x.2 y.2
  (x.1 * 2 ^ (x.2 - q).toNat + y.1 * 2 ^ (y.2 - q).toNat, q)

/-- Rounding of a finite magnitude overflows a narrow format (R89): M + g/2 is M + M/2 − prev/2. -/
def overflows (el rm : Nat) (neg : Bool) (v : Nat × Int) : Bool :=
  let top := magOf el (maxCode el)
  let prev := magOf el (maxCode el - 1)
  match rm with
  | 0 => gtMag (addMag (v.1, v.2 + 1) prev) (addMag (top.1, top.2 + 1) top)
  | 1 => false
  | 2 => !neg && gtMag v top
  | _ => neg && gtMag v top

/-- The threshold below which a narrow result is tiny (R90). -/
def tinyMag (el : Nat) : Nat × Int :=
  if isTapered el then magOf el 1
  else
    let (_, _, bias) := ocpShape el
    (1, 1 - bias)

/-- What writing an element gives: its code, its flags, and whether it makes its block NaN (R91). -/
structure Elem where
  code  : Nat
  flags : BitVec 5
  bad   : Bool
  deriving DecidableEq, Repr

/-- A code with its sign. -/
def withSign (el : Nat) (neg : Bool) (c : Nat) : Nat := c + (if neg then 2 ^ (elemBits el - 1) else 0)

/-- The rounded magnitude code of a finite value that does not overflow, and whether it is inexact (R83, R89). -/
def narrowCode (el rm : Nat) (neg : Bool) (v : Nat × Int) : Nat × Bool :=
  let c := codeBelow el v (elemBits el - 1) 0
  let lo := magOf el c
  if eqMag lo v then (c, false)
  else if c = maxCode el then (c, true)
  else
    let twice := (v.1, v.2 + 1)
    let mid := addMag lo (magOf el (c + 1))
    let up := match rm with
      | 0 => gtMag twice mid || (eqMag twice mid && c % 2 == 1)
      | 1 => false
      | 2 => !neg
      | _ => neg
    (c + up.toNat, true)

/-- A value v' written into a narrow format, in a block or bare (R88–R91). -/
def writeNarrow (el rm : Nat) (sat block : Bool) (v : FVal) : Elem :=
  let top (neg : Bool) := withSign el neg (maxCode el)
  match v with
  | .nan _ n => ⟨top n, flagNV, block⟩
  | .inf n => ⟨top n, flagNV, block && !sat⟩
  | .fin n m e =>
    if m = 0 then ⟨if isTapered el then 0 else withSign el n 0, 0, false⟩
    else if overflows el rm n (m, e) then
      if sat then ⟨top n, flagOF ||| flagNX, false⟩ else ⟨top n, flagNV, block⟩
    else
      let (c, nx) := narrowCode el rm n (m, e)
      let tiny := gtMag (tinyMag el) (m, e)
      ⟨if c = 0 && isTapered el then 0 else withSign el n c,
       if nx then (if tiny then flagUF ||| flagNX else flagNX) else 0, false⟩

/-- A value written as i8 (R93). -/
def writeI8 (rm : Nat) (sat : Bool) (v : FVal) : Elem :=
  let clamp (neg : Bool) : Elem := ⟨if neg then 0x80 else 0x7F, if sat then flagNX else flagNV, false⟩
  match v with
  | .nan _ _ => ⟨0, flagNV, false⟩
  | .inf n => clamp n
  | .fin n m e =>
    let (k, nx) := roundQ rm n m e 0
    if (n && 128 < k) || (!n && 127 < k) then clamp n
    else ⟨(if n then 256 - k else k) % 256, if nx then flagNX else 0, false⟩

/-- A value written into the format of a slot with a header bias and, in a block, a scale (R88, R93, R195). -/
def writeElem (k : BitVec 16) (bias : Int) (x : Option Nat) (v : FVal) : Elem :=
  let w := v.scale (-bias - (match x with | some s => (s : Int) - 127 | none => 0))
  match slotElem k with
  | 0 => let (b, fl) := roundTo .f32 (slotRm k) w (slotSat k); ⟨b, fl, false⟩
  | 1 => let (b, fl) := roundTo .f16 (slotRm k) w (slotSat k); ⟨b, fl, false⟩
  | 2 => let (b, fl) := roundTo .bf16 (slotRm k) w (slotSat k); ⟨b, fl, false⟩
  | 11 => writeI8 (slotRm k) (slotSat k) w
  | el => writeNarrow el (slotRm k) (slotSat k) x.isSome w

/-- emax of a format (R84). -/
def emax (el : Nat) : Int :=
  let (m, e) := magOf el (maxCode el)
  log2X m e

/-- The magnitudes of the nonzero finite values of a list, after the header bias. -/
def finiteMags (bias : Int) (vs : List FVal) : List (Bool × Nat × Int) :=
  vs.filterMap fun v => match v with
    | .fin n m e => if m = 0 then none else some (n, m, e - bias)
    | _ => none

/-- The scale of a whole block (R92); 0 for a block without a nonzero finite element, of which R92 gives no greatest (DESIGN CHOICE, log
118). -/
def blockScale (k : BitVec 16) (bias : Int) (vs : List FVal) : Nat :=
  let ms := finiteMags bias vs
  match ms with
  | [] => 0
  | (_, m0) :: rest =>
    let a := rest.foldl (fun a x => if gtMag x.2 a then x.2 else a) m0
    let x := log2X a.1 a.2 - emax (slotElem k) + 127
    let up := ms.any fun y => eqMag y.2 a && overflows (slotElem k) (slotRm k) y.1 (a.1, a.2 - (x - 127))
    (clampInt 0 254 (if up then x + 1 else x)).toNat

/-- A whole block written: its final scale and its elements, each with the invalid flag when the block became NaN
(R88–R92). -/
def writeBlock (k : BitVec 16) (bias : Int) (vs : List FVal) : Nat × List Elem :=
  let x := blockScale k bias vs
  let es := vs.map (writeElem k bias (some x))
  if es.any (·.bad) then (255, es.map fun e => { e with flags := e.flags ||| flagNV }) else (x, es)

/-- The value of an element in a block with a scale byte and a header bias (R85, R87). A scale of `0xFF` makes every element the quiet
NaN of the scale, an infinity or NaN code among them (R196; DESIGN CHOICE, log 118). -/
def blockElem (el code x : Nat) (bias : Int) : FVal :=
  if x = 255 then .nan false false else (decodeElem el code).scale ((x : Int) - 127 + bias)

end Sys2Proof.Machine
end

