-- ==== Sys2Proof/Machine/Predicate.lean ====
section
/-!
DEFINITION. Compares and predicates (R177–R180). They write no word; a compare forms and checks its difference, a bit
test the word it reads (R107), which an injection can strike before the check (R120).
-/

namespace Sys2Proof.Machine

/-- A condition of `CMP` on two integers (R177). -/
def condInt (k : Nat) (a b : Int) : Bool :=
  match k with
  | 0 => a == b
  | 1 => a != b
  | 2 => decide (a < b)
  | 3 => decide (a ≤ b)
  | 4 => decide (b < a)
  | _ => decide (b ≤ a)

/-- A predicate pair: the value and its complement. -/
def predPair (n : Nat) (b : Bool) : List (Nat × Bool) := [(n, b), (n + 1, !b)]

/-- The condition field OPM[5:3] (R177). -/
def condOf (f : Fields) : Nat := f.opm.toNat / 8

/-- The difference a − b of a compare, predicted by the subtract row (R108): of the extended words, or of a pair word by word. -/
def difference (t : Nat) (a b : List CWord) : List CWord :=
  [⟨(extWord t (c0 a)).data - (extWord t (c0 b)).data, predictSub (extWord t (c0 a)) (extWord t (c0 b)) false⟩]

/-- `CMP` (R177). -/
def execCmp (f : Fields) (s : State) : Out :=
  s.lanePure .cmp f .p fun i =>
    { preds := predPair (f.d.toNat % 16) (condInt (condOf f) (tyExt f.ty (w0 i.a)) (tyExt f.ty (w0 i.b))),
      inner := difference f.ty i.a i.b }

/-- `CMP64` (R177). -/
def execCmp64 (f : Fields) (s : State) : Out :=
  s.lanePure .cmp64 f .p fun i =>
    let sg := tySigned f.ty
    { preds := predPair (f.d.toNat % 16) (condInt (condOf f) (ext64 sg (pairOf i.a)) (ext64 sg (pairOf i.b))),
      inner := let d := chainWords .sub (c01 i.a) (c01 i.b); [d.1, d.2] }

/-- A source predicate of `PCOMB`: code 15 is the constant 1 (R178). -/
def pcombSrc (t : Thread) (x : BitVec 9) : Bool := x.toNat % 16 == 15 || t.pred (x.toNat % 16)
/-- A source predicate of `PCOMB` is bad (R22). -/
def pcombBad (t : Thread) (x : BitVec 9) : Bool := x.toNat % 16 != 15 && t.predBad (x.toNat % 16)

/-- `PCOMB` (R178). Its entry names no residue class and it forms no word: class P without a word to check or to strike (DESIGN
CHOICE, log 38). -/
def execPcomb (f : Fields) (s : State) : Out :=
  s.lanewise .pcomb f .p false fun i =>
    if pcombBad i.t f.a || pcombBad i.t f.b || pcombBad i.t f.c then .error (predTrap s.pc64)
    else
      let lut := f.a.toNat / 16 % 16 + f.b.toNat / 16 % 16 * 16
      let v := lut.testBit ((pcombSrc i.t f.a).toNat + 2 * (pcombSrc i.t f.b).toNat + 4 * (pcombSrc i.t f.c).toNat)
      let d := f.d.toNat % 16
      .ok { preds := if f.opm4 then predPair d v else [(d, v)] }

/-- `PMOV` (R179): `.FROMV` sets the predicates that A[27:16] selects; `.TOV` reads all twelve. -/
def execPmov (f : Fields) (s : State) : Out :=
  s.lanewise .pmov f .g false fun i =>
    if f.opm4 then
      let a := w0 i.a
      .ok { preds := ((List.range 12).filter fun k => a.getLsbD (16 + k)).map fun k => (k, a.getLsbD k) }
    else if i.t.preds != i.t.preds' then .error (predTrap s.pc64)
    else .ok { dst := [.gen (i.t.preds.zeroExtend 32)] }

/-- `PSET` (R180). -/
def execPset (f : Fields) (s : State) : Out :=
  s.lanePure .pset f .p fun i =>
    { preds := predPair (f.d.toNat % 16) ((w0 i.a).getLsbD ((w0 i.b).toNat % 32)), inner := [c0 i.a] }

end Sys2Proof.Machine
end

