-- ==== Sys2Proof/Machine/FloatArith.lean ====
section
/-!
DEFINITION. Floating-point arithmetic, compares and classes (R181–R191).
-/

namespace Sys2Proof.Machine

/-! ## Shared operations -/

/-- A function of bit patterns in a format: result bits and flags. -/
abbrev FloatFn := Nat → Nat → Nat → Nat × BitVec 5

/-- A function applied to words under a TYPE: whole, to the low half, or to each half (R182). -/
def onType (ty : Nat) (g : FloatFn) (a b c : Word) : Res :=
  let lo (x : Word) := x.toNat % 2 ^ 16
  let hi (x : Word) := x.toNat / 2 ^ 16
  match ty with
  | 0 => let (r, fl) := g a.toNat b.toNat c.toNat; { dst := [.gen (BitVec.ofNat 32 r)], flags := fl }
  | 3 =>
    let (r0, f0) := g (lo a) (lo b) (lo c)
    let (r1, f1) := g (hi a) (hi b) (hi c)
    { dst := [.gen (BitVec.ofNat 32 (r0 % 2 ^ 16 + r1 % 2 ^ 16 * 2 ^ 16))], flags := f0 ||| f1 }
  | _ => let (r, fl) := g (lo a) (lo b) (lo c); { dst := [.gen (BitVec.ofNat 32 (r % 2 ^ 16))], flags := fl }

/-- A form on bit patterns of its TYPE (R181, R182). -/
def floatBits (op : Op) (k : RClass) (g : Ieee → FloatFn) (f : Fields) (s : State) : Out :=
  s.lanePure op f k fun i => onType f.fty (g (.ofTy f.fty)) (w0 i.a) (w0 i.b) (w0 i.c)

/-- An exact result with its flags, rounded once under RM (R183, R185). -/
def roundOnce (F : Ieee) (rm : Nat) (v : FVal × BitVec 5) : Nat × BitVec 5 :=
  let (r, fl) := roundTo F rm v.1
  (r, v.2 ||| fl)

/-- An arithmetic form: the exact value of its operands, rounded once (R185). -/
def floatOp (op : Op) (y : Nat → FVal → FVal → FVal → FVal × BitVec 5) (f : Fields) (s : State) : Out :=
  floatBits op .s (fun F a b c => roundOnce F f.rm (y f.rm (F.decode a) (F.decode b) (F.decode c))) f s

/-! ## Arithmetic (R185) -/

/-- a × b + c with the flags of both steps. -/
def fmaX (rm : Nat) (a b c : FVal) : FVal × BitVec 5 :=
  let (p, f1) := mulX a b
  let (r, f2) := addX rm p c
  (r, f1 ||| f2)

/-- a + b. -/
def floatAdd : Fields → State → Out := floatOp .addFloat fun rm a b _ => addX rm a b
/-- `ADD` (R185). -/
def execAddFloat (f : Fields) (s : State) : Out := floatAdd f s
/-- `ADD`, compact (R131). -/
def execAddFloatCompact (c : Compact) (s : State) : Out := floatAdd (c.expand COp.addFloatCompact.unary) s

/-- a − b. -/
def floatSub : Fields → State → Out := floatOp .subFloat fun rm a b _ => addX rm a b.neg
/-- `SUB` (R185). -/
def execSubFloat (f : Fields) (s : State) : Out := floatSub f s
/-- `SUB`, compact (R131). -/
def execSubFloatCompact (c : Compact) (s : State) : Out := floatSub (c.expand COp.subFloatCompact.unary) s

/-- a × b. -/
def floatMul : Fields → State → Out := floatOp .mulFloat fun _ a b _ => mulX a b
/-- `MUL` (R185). -/
def execMulFloat (f : Fields) (s : State) : Out := floatMul f s
/-- `MUL`, compact (R131). -/
def execMulFloatCompact (c : Compact) (s : State) : Out := floatMul (c.expand COp.mulFloatCompact.unary) s

/-- `FMA` (R185). -/
def execFma (f : Fields) (s : State) : Out := floatOp .fma fmaX f s

/-- a × 2^n; an n beyond ±1000 gives the outcome of ±1000 in every format (R185). -/
def scalebX (a : FVal) (n : Int) : FVal := a.scale (clampInt (-1000) 1000 n)

/-- `SCALEB` (R185): B is a signed integer. -/
def execScaleb (f : Fields) (s : State) : Out :=
  s.lanePure .scaleb f .s fun i =>
    let F := Ieee.ofTy f.fty
    onType f.fty (fun a _ _ => roundTo F f.rm (scalebX (F.decode a) (w0 i.b).toInt)) (w0 i.a) 0 0

/-- The sum of `DOT2`: two products of halves and a binary32 addend (R185). -/
def dot2 (F : Ieee) (rm : Nat) (a b c : Word) : Nat × BitVec 5 :=
  let half (x : Word) (h : Nat) := F.decode (x.toNat / 2 ^ (16 * h) % 2 ^ 16)
  let (p, f1) := mulX (half a 0) (half b 0)
  let (q, f2) := mulX (half a 1) (half b 1)
  let (r, f3) := sumX rm p [q, Ieee.f32.decode c.toNat]
  roundOnce .f32 rm (r, f1 ||| f2 ||| f3)

/-- `DOT2` (R185): D is binary32. -/
def execDot2 (f : Fields) (s : State) : Out :=
  s.lanePure .dot2 f .s fun i =>
    let (r, fl) := dot2 (.ofTy f.fty) f.rm (w0 i.a) (w0 i.b) (w0 i.c)
    { dst := [.gen (BitVec.ofNat 32 r)], flags := fl }

/-- a + c × (b − a), b − a exact (R185). -/
def lerpX (rm : Nat) (a b c : FVal) : FVal × BitVec 5 :=
  let (d, f1) := addX rm b a.neg
  let (r, f2) := fmaX rm c d a
  (r, f1 ||| f2)

/-- `LERP` (R185). -/
def execLerp (f : Fields) (s : State) : Out := floatOp .lerp lerpX f s

/-! ## Minimum and maximum (R186) -/

/-- `a` comes before `b` in the order of numbers, −0 before +0. -/
def beforeX (a b : FVal) : Bool :=
  match cmpX a b with
  | .lt => true
  | .gt => false
  | .eq => a.sign && !b.sign

/-- One of two bit patterns by R186: `max` picks the larger, `nan` lets a NaN win. -/
def minMaxBits (max nan : Bool) (F : Ieee) : FloatFn := fun a b _ =>
  let x := F.decode a
  let y := F.decode b
  let fl := sigFlag [x, y]
  if x.isNan || y.isNan then
    if nan || (x.isNan && y.isNan) then (F.qnan, fl)
    else (if x.isNan then b else a, fl)
  else (if beforeX y x != max then b else a, fl)

/-- The smaller. -/
def floatMin (f : Fields) (s : State) : Out := floatBits .minFloat .s (minMaxBits false f.opm4) f s
/-- `MIN` (R186). -/
def execMinFloat (f : Fields) (s : State) : Out := floatMin f s
/-- `MIN`, compact (R131). -/
def execMinFloatCompact (c : Compact) (s : State) : Out := floatMin (c.expand COp.minFloatCompact.unary) s

/-- The larger. -/
def floatMax (f : Fields) (s : State) : Out := floatBits .maxFloat .s (minMaxBits true f.opm4) f s
/-- `MAX` (R186). -/
def execMaxFloat (f : Fields) (s : State) : Out := floatMax f s
/-- `MAX`, compact (R131). -/
def execMaxFloatCompact (c : Compact) (s : State) : Out := floatMax (c.expand COp.maxFloatCompact.unary) s

/-! ## Signs (R187) -/

/-- A bit pattern with its sign bit set as given. -/
def setSign (F : Ieee) (x : Nat) (b : Bool) : Nat := x % F.signBit + (if b then F.signBit else 0)

/-- The magnitude bits of a TYPE in a word. -/
def magnitudeMask (ty : Nat) : Word := if ty = 0 then 0x7FFFFFFF else if ty = 3 then 0x7FFF7FFF else 0x7FFF
/-- The sign bits of a TYPE in a word. -/
def signMask (ty : Nat) : Word := if ty = 0 then 0x80000000 else if ty = 3 then 0x80008000 else 0x8000

/-- A form that changes signs (R187): the bit patterns, with the residue predicted by the AND and OR rows from the magnitude of A
and the signs of `g A B`. -/
def floatSign (op : Op) (sign : Ieee → Nat → Nat → Bool) (g : CWord → CWord → CWord) (f : Fields) (s : State) : Out :=
  s.lanePure op f .p fun i =>
    let r := onType f.fty (fun a b _ => (setSign (.ofTy f.fty) a (sign (.ofTy f.fty) a b), 0)) (w0 i.a) (w0 i.b) (w0 i.c)
    let x := orWord (andWord (c0 i.a) (.gen (magnitudeMask f.fty))) (andWord (g (c0 i.a) (c0 i.b)) (.gen (signMask f.fty)))
    { r with dst := r.dst.map fun w => ⟨w.data, x.tag⟩ }

/-- |a|. -/
def floatAbs : Fields → State → Out := floatSign .absFloat (fun _ _ _ => false) fun _ _ => .zero
/-- `ABS` (R187). -/
def execAbsFloat (f : Fields) (s : State) : Out := floatAbs f s
/-- `ABS`, compact (R131). -/
def execAbsFloatCompact (c : Compact) (s : State) : Out := floatAbs (c.expand COp.absFloatCompact.unary) s

/-- −a. -/
def floatNeg : Fields → State → Out :=
  floatSign .negFloat (fun F a _ => !(a.testBit (F.eb + F.fb))) fun a _ => notWord a
/-- `NEG` (R187). -/
def execNegFloat (f : Fields) (s : State) : Out := floatNeg f s
/-- `NEG`, compact (R131). -/
def execNegFloatCompact (c : Compact) (s : State) : Out := floatNeg (c.expand COp.negFloatCompact.unary) s

/-- `CPYS` (R187). -/
def execCpys (f : Fields) (s : State) : Out :=
  floatSign .cpys (fun F _ b => b.testBit (F.eb + F.fb)) (fun _ b => b) f s

/-! ## Integral values and fractions (R188) -/

/-- `RND`: the integral value, inexact or not (R188). -/
def rndBits (rm : Nat) (x : Bool) (F : Ieee) : FloatFn := fun a _ _ =>
  match F.decode a with
  | .fin n m e =>
    let (k, nx) := roundQ rm n m e 0
    ((roundTo F 0 (.fin n k 0)).1, if x && nx then flagNX else 0)
  | v => roundTo F 0 v

/-- `RND` (R188). -/
def execRnd (f : Fields) (s : State) : Out := floatBits .rnd .s (rndBits f.rm f.opm4) f s

/-- `FRC`: a − floor(a), zero always +0 (R188). -/
def frcBits (rm : Nat) (F : Ieee) : FloatFn := fun a _ _ =>
  match F.decode a with
  | .inf _ => (F.qnan, flagNV)
  | .nan sig n => roundTo F rm (.nan sig n)
  | .fin n m e =>
    let q := min e 0
    let v := signedAt n m e q
    let unit : Int := 2 ^ (-q).toNat
    roundMag F rm false false (v % unit).toNat q

/-- `FRC` (R188). -/
def execFrc (f : Fields) (s : State) : Out := floatBits .frc .s (frcBits f.rm) f s

/-! ## `FMAC` (R189) -/

/-- A product rounded, then a sum rounded, each with its flags (R189). -/
def fmacBits (rm : Nat) : FloatFn := fun a b c =>
  let F := Ieee.f32
  let (p, f1) := roundOnce F rm (mulX (F.decode a) (F.decode b))
  let (r, f2) := roundOnce F rm (addX rm (F.decode p) (F.decode c))
  (r, f1 ||| f2)

/-- `FMAC` (R189), with the effect its emulation in slots 13 and 15 has (R467). -/
def execFmac (f : Fields) (s : State) : Out :=
  deprecatedLanes .fmac .s (fun i => onType 0 (fmacBits f.rm) (w0 i.a) (w0 i.b) (w0 i.c)) f s

/-! ## Compare and classify (R190, R191) -/

/-- The truth of a float condition on two values (R190). -/
def condFloat (cond : Nat) (u : Bool) (a b : FVal) : Bool :=
  if a.isNan || b.isNan then cond == 1 || cond == 7 || u
  else
    let lt := match cmpX a b with | .lt => true | _ => false
    let gt := match cmpX a b with | .gt => true | _ => false
    match cond with
    | 0 => !lt && !gt
    | 1 => lt || gt
    | 2 => lt
    | 3 => !gt
    | 4 => gt
    | 5 => !lt
    | 6 => true
    | _ => false

/-- `CMP` of floats (R190). -/
def execCmpFloat (f : Fields) (s : State) : Out :=
  s.lanePure .cmpFloat f .s fun i =>
    let F := Ieee.ofTy f.fty
    let a := F.decode ((w0 i.a).toNat % 2 ^ F.width)
    let b := F.decode ((w0 i.b).toNat % 2 ^ F.width)
    let cond := f.opm.toNat / 4 % 8
    let un := a.isNan || b.isNan
    { preds := predPair (f.d.toNat % 16) (condFloat cond f.opm5 a b),
      flags := sigFlag [a, b] ||| (if un && 2 ≤ cond && cond ≤ 5 then flagNV else 0) }

/-- The class of a value by its bit number (R191). -/
def floatClass (F : Ieee) (v : FVal) : Nat :=
  match v with
  | .nan sig _ => if sig then 0 else 1
  | .inf n => if n then 2 else 9
  | .fin n m e =>
    let sub := decide (log2X m e < F.emin)
    if m = 0 then (if n then 5 else 6)
    else if sub then (if n then 4 else 7)
    else if n then 3 else 8

/-- `CLASS` (R191). -/
def execClassF (f : Fields) (s : State) : Out :=
  s.lanePure .classF f .s fun i =>
    let F := Ieee.ofTy f.fty
    let b := (w0 i.b).getLsbD (floatClass F (F.decode ((w0 i.a).toNat % 2 ^ F.width)))
    { preds := predPair (f.d.toNat % 16) b }

end Sys2Proof.Machine
end

