-- ==== Sys2Proof/Machine/Convert.lean ====
section
/-!
DEFINITION. Conversions of single values (R192–R196). `CVTB`, a meeting of the warp, is with the lane instructions.
-/

namespace Sys2Proof.Machine

/-! ## `CVT` (R192, R193) -/

/-- The TYPE of an integer type code below 6 (R192): codes 0 to 5 are those of R127. -/
def cvtIsInt (code : Nat) : Bool := code < 8

/-- The IEEE format of a type code 8 to 10. -/
def cvtFmt (code : Nat) : Ieee := .ofTy (code - 8)

/-- The integer read from a source of an integer type code. -/
def cvtInt (code : Nat) (ws : List CWord) : Int :=
  if code = 6 then (pairOf ws).toInt else if code = 7 then (pairOf ws).toNat else tyExt code (w0 ws)

/-- The bounds of an integer type code. -/
def cvtMin (code : Nat) : Int := if code = 6 then -(2 ^ 63) else if code = 7 then 0 else tyMin code
/-- The bounds of an integer type code. -/
def cvtMax (code : Nat) : Int := if code = 6 then 2 ^ 63 - 1 else if code = 7 then 2 ^ 64 - 1 else tyMax code

/-- The integer of a source with the residue of its words. -/
def cvtExact (code : Nat) (ws : List CWord) : Exact :=
  if 6 ≤ code then exactPair (code = 6) (c0 ws) (c1 ws) else exactOf code (c0 ws)

/-- An exact integer written to an integer type code, word by word (R193). -/
def cvtExactWords (code : Nat) (e : Exact) : List CWord :=
  if 6 ≤ code then [e.word 2 0, e.word 2 1] else [e.typed code false]

/-- An integer written to an integer type code: the wrapped value, in one word or a pair, with generated residues. -/
def cvtPut (code : Nat) (y : Int) : List CWord :=
  if 6 ≤ code then ofPair (BitVec.ofInt 64 y) else [.gen (tyWrap code y)]

/-- Float to integer (R193): rounded, then held in range. -/
def floatToInt (code rm : Nat) (v : FVal) : Int × BitVec 5 :=
  match v with
  | .nan _ _ => (0, flagNV)
  | .inf n => (if n then cvtMin code else cvtMax code, flagNV)
  | .fin n m e =>
    let (k, nx) := roundQ rm n m e 0
    let y : Int := if n then -k else k
    if y < cvtMin code then (cvtMin code, flagNV)
    else if cvtMax code < y then (cvtMax code, flagNV)
    else (y, if nx then flagNX else 0)

/-- The effect of `CVT` by the kinds of its types (R193). -/
def cvtRes (src dst rm : Nat) (sat : Bool) (a : List CWord) : Res :=
  if cvtIsInt src then
    if cvtIsInt dst then
      { dst := cvtExactWords dst (if sat then (cvtExact src a).clamp (cvtMin dst) (cvtMax dst) else cvtExact src a) }
    else
      let (b, fl) := roundTo (cvtFmt dst) rm (.ofInt (cvtInt src a)) sat
      { dst := [.gen (BitVec.ofNat 32 b)], flags := fl }
  else
    let F := cvtFmt src
    let v := F.decode ((w0 a).toNat % 2 ^ F.width)
    if cvtIsInt dst then
      let (y, fl) := floatToInt dst rm v
      { dst := cvtPut dst y, flags := fl }
    else
      let (b, fl) := roundTo (cvtFmt dst) rm v sat
      { dst := [.gen (BitVec.ofNat 32 b)], flags := fl }

/-- `CVT` (R192). -/
def execCvt (f : Fields) (s : State) : Out :=
  let src := f.cN % 16
  let dst := f.cN / 16 % 16
  s.lanePure .cvt f (if cvtIsInt src && cvtIsInt dst then .p else .s) fun i =>
    cvtRes src dst (f.opm.toNat % 4) (f.opm.getLsbD 2) i.a

/-! ## Packed halves (R194) -/

/-- `PACK` (R194). -/
def execPack (f : Fields) (s : State) : Out :=
  s.lanePure .pack f .s fun i =>
    let F := Ieee.ofTy f.fty
    let (lo, f0) := roundTo F f.rm (Ieee.f32.decode (w0 i.a).toNat) f.opm4
    let (hi, f1) := roundTo F f.rm (Ieee.f32.decode (w0 i.b).toNat) f.opm4
    { dst := [.gen (BitVec.ofNat 32 (lo + hi * 2 ^ 16))], flags := f0 ||| f1 }

/-- `UNPK` (R194): OPM[4] picks the high half. -/
def execUnpk (f : Fields) (s : State) : Out :=
  s.lanePure .unpk f .s fun i =>
    let x := (w0 i.a).toNat
    let h := if f.opm4 then x / 2 ^ 16 else x % 2 ^ 16
    let (b, fl) := roundTo .f32 0 ((Ieee.ofTy f.fty).decode h)
    { dst := [.gen (BitVec.ofNat 32 b)], flags := fl }

/-! ## Through format slots (R195, R196) -/

/-- A format slot of the issuing grid (R29). -/
def State.slot (s : State) (k : Nat) : BitVec 16 := (s.gridOf s.cur.wid).slots.getD k 0

/-- A header bias out of range: `DATA`, reason 3 (R95, R480). -/
def biasTrap (pc : BitVec 64) : Trap := ⟨causeData, dataInfo 3 0, pc⟩

/-- A header bias is in range (R95). -/
def biasOk (b : Int) : Bool := -128 ≤ b && b ≤ 127

/-- `CVTF` (R195). -/
def execCvtf (f : Fields) (s : State) : Out :=
  let k := s.slot (f.opm.toNat % 8)
  let j := s.slot (f.opm.toNat / 8)
  s.lanewise .cvtf f .s false fun i =>
    let b := (w0 i.b).toInt
    if !biasOk b then .error (biasTrap s.pc64)
    else
      let v := decodeElem (slotElem j) ((w0 i.a).toNat % 2 ^ elemBits (slotElem j))
      let e := writeElem k b none v
      .ok { dst := [.gen (BitVec.ofNat 32 e.code)], flags := e.flags }

/-- `CVTX` (R196). A slot without blocks does not read C. -/
def execCvtx (f : Fields) (s : State) : Out :=
  let k := s.slot (f.opm.toNat % 8)
  let read (ss : List Source) : List Source := if slotBlk k then ss else ss.take 2
  s.lanewiseOn .cvtx f .s (fun s t => read (sources .cvtx f s.curWarp t false)) fun i =>
    let b := (w0 i.b).toInt
    if !biasOk b then .error (biasTrap s.pc64)
    else
      let x := if slotBlk k then (w0 i.c).toNat % 256 else 127
      let (r, fl) := roundTo .f32 (f.opm.toNat / 8 % 4)
        (blockElem (slotElem k) ((w0 i.a).toNat % 2 ^ elemBits (slotElem k)) x b)
      .ok { dst := [.gen (BitVec.ofNat 32 r)], flags := fl }

end Sys2Proof.Machine
end

