-- ==== Sys2Proof/Machine/LaneInstr.lean ====
section
/-!
DEFINITION. The instructions that bring lanes of a warp together: votes, shuffles, reductions, scans, matches, elections,
`SETPART` (R215–R222, R25, R61, R101, R332) and `CVTB` (R197, R198). Each lane arrives and waits; lanes whose wait is met
execute together from what each captured at its arrival.
-/

namespace Sys2Proof.Machine

/-! ## Tiles and masks -/

/-- Lanes of a tile under a `wpart` code (R25). -/
def tileWidth (ts : BitVec 3) : Nat := 2 ^ ts.toNat
/-- The first lane of a lane's tile. -/
def tileBase (ts : BitVec 3) (l : Nat) : Nat := l / tileWidth ts * tileWidth ts
/-- T(L) as a mask. -/
def tileMask (ts : BitVec 3) (l : Nat) : Word := BitVec.ofNat 32 ((2 ^ tileWidth ts - 1) * 2 ^ tileBase ts l)

/-- The lanes of a lane's trap group, or every lane outside handler mode (R332). -/
def Warp.groupMask (w : Warp) (t : Thread) : Word :=
  match t.frames with
  | [] => 0xFFFFFFFF
  | f :: _ => w.maskOf fun _ u => u.frames.head?.any fun g => g.gid == f.gid

/-- The member mask in C9: the whole tile, or a uniform register (R215). -/
def memberMask (f : Fields) (w : Warp) : Word := if f.c.getLsbD 8 then 0xFFFFFFFF else (w.wreg (f.cN % 64)).data

/-- M(L): the lanes a lane instruction of a lane names (R216, R332). -/
def Warp.named (w : Warp) (f : Fields) (t : Thread) (l : Nat) : Word := memberMask f w &&& tileMask w.wpart l &&& w.groupMask t

/-! ## Arrival -/

/-- The lane of an arrival, its values not excluded: live, with a true guard, at this address since `l` last executed
there. -/
def Warp.present (w : Warp) (pc : Addr) (l x : Nat) : Option Arrival :=
  match (w.lane x).arrivals.get? pc.toNat with
  | some r => if r.used.getLsbD l then none else some r
  | none => none

/-- A lane's wait at an address is met: every live lane that it names has arrived (R216). -/
def Warp.met (w : Warp) (pc : Addr) (l : Nat) : Bool :=
  match (w.lane l).arrivals.get? pc.toNat with
  | none => false
  | some r => (lanesOf r.mask).all fun x => !(w.lane x).live || (w.present pc l x).isSome

/-- What a named lane supplies: none if it is excluded (R216). -/
def Warp.supplies (w : Warp) (pc : Addr) (l x : Nat) : Option Arrival :=
  if (w.lane x).live then (w.present pc l x).filter (·.guard) else none

/-! ## Results -/

/-- The status pair (R217). -/
def statusPair (f : Fields) (ok : Bool) : List (Nat × Bool) := if f.sp = 15 then [] else predPair f.sp ok

/-- The mask of the lanes of a list. -/
def maskWord (ls : List Nat) : Word := maskOfLanes ls

/-- Results of `VOTE` (R218): `vs` are the predicate values of the lanes not excluded, `n` the number named. -/
def voteRes (f : Fields) (vs : List (Nat × Bool)) (n : Nat) : Res :=
  let d := f.d.toNat % 16
  let st := statusPair f (vs.length == n)
  match f.sub with
  | 0 => { preds := predPair d (vs.any (·.2)) ++ st }
  | 1 => { preds := predPair d (vs.length == n && vs.all (·.2)) ++ st }
  | 2 => { preds := predPair d (vs.all fun x => x.2 == (vs.headD (0, true)).2) ++ st }
  | _ => { dst := [.gen (maskWord ((vs.filter (·.2)).map (·.1)))], preds := st }

/-- The source lane of `SHFL` (R219). -/
def shflSource (sub base n l i : Nat) : Option Nat :=
  match sub with
  | 0 => some (base + i % n)
  | 1 => if l < base + i then none else some (l - i)
  | 2 => if base + n ≤ l + i then none else some (l + i)
  | _ => some (base + ((l - base) ^^^ (i % n)))

/-- The identity of a reduction operator (R220). -/
def redIdentity (code : Nat) : Word :=
  match code with
  | 1 => 0x7FFFFFFF
  | 2 => 0x80000000
  | 3 | 5 => 0xFFFFFFFF
  | 9 | 10 => 0x7FC00000
  | _ => 0

/-- Two words combined by a reduction operator, with the flags of its rounding (R220). -/
def redOp (code : Nat) (x y : CWord) : CWord × BitVec 5 :=
  match code with
  | 0 => (addWord x y, 0)
  | 1 => (minWord 0 x y, 0)
  | 2 => (maxWord 0 x y, 0)
  | 3 => (minWord 1 x y, 0)
  | 4 => (maxWord 1 x y, 0)
  | 5 => (andWord x y, 0)
  | 6 => (orWord x y, 0)
  | 7 => (xorWord x y, 0)
  | 8 => let (r, fl) := addF32 0 x.data y.data; (.gen r, fl)
  | c => let (r, fl) := minMaxBits (c == 10) false .f32 x.data.toNat y.data.toNat 0; (.gen (BitVec.ofNat 32 r), fl)

/-- Words combined from the first on (R220), or none; a float minimum or maximum starts from its identity, so that no NaN
but the canonical one results (R77). -/
def redFold (code : Nat) : List CWord → Option (CWord × BitVec 5)
  | [] => none
  | x :: xs =>
    if 9 ≤ code then
      some ((x :: xs).foldl (fun acc y => let (r, fl) := redOp code acc.1 y; (r, acc.2 ||| fl)) (.gen (redIdentity code), 0))
    else some (xs.foldl (fun acc y => let (r, fl) := redOp code acc.1 y; (r, acc.2 ||| fl)) (x, 0))

/-- One level of the tree of R101. -/
def treeLevel : List (Option Word) → List (Option Word) × BitVec 5
  | x :: y :: rest =>
    let (zs, fl) := treeLevel rest
    match x, y with
    | some a, some b => let (r, g) := addF32 0 a b; (some r :: zs, fl ||| g)
    | some a, none => (some a :: zs, fl)
    | none, b => (b :: zs, fl)
  | xs => (xs, 0)

/-- The tree of R101 over the lanes of a tile, in `n` levels. -/
def treeSum : Nat → List (Option Word) → BitVec 5 → Option (Word × BitVec 5)
  | 0, xs, fl => (xs.headD none).map fun v => (v, fl)
  | n + 1, xs, fl => let (ys, g) := treeLevel xs; treeSum n ys (fl ||| g)

/-- The class of a reduction (R220). -/
def redClass (code : Nat) : RClass := if 1 ≤ code && code ≤ 4 then .c else if 8 ≤ code then .s else .p

/-- The class of a lane instruction. -/
def laneClass (op : Op) (f : Fields) : RClass :=
  match op with
  | .shfl => .c
  | .red | .scan => redClass (f.b.toNat % 16)
  | .cvtb => .s
  | _ => .g

/-- The result of a lane's arrival when its wait is met. The value of a `RED.ADD.F32` over no lane, which the manual does not give,
is a free value of the lanes named, so the same in each of them (R105, DESIGN CHOICE, log 7). -/
def Warp.laneRes (w : Warp) (pc : Addr) (l : Nat) (r : Arrival) : Res :=
  let f := r.f
  let names := lanesOf r.mask
  let vals : List (Nat × Arrival) := names.filterMap fun x => (w.supplies pc l x).map fun y => (x, y)
  let all := vals.length == names.length
  let base := tileBase w.wpart l
  let n := tileWidth w.wpart
  match r.op with
  | .vote => voteRes f (vals.map fun x => (x.1, x.2.p)) names.length
  | .shfl =>
    let src : Option (Nat × Arrival) :=
      (shflSource f.sub base n l r.b.toNat).bind fun x => vals.find? fun (v : Nat × Arrival) => v.1 == x
    { dst := [match src with | some v => c0 v.2.a | none => c0 r.a], preds := statusPair f src.isSome }
  | .red =>
    let code := f.b.toNat % 16
    let out : Option (CWord × BitVec 5) :=
      if code = 8 then
        (treeSum w.wpart.toNat ((List.range n).map fun k => (vals.find? fun v => v.1 == base + k).map fun v => w0 v.2.a)
          0).map fun x => (.gen x.1, x.2)
      else redFold code (vals.map fun v => c0 v.2.a)
    match out with
    | some (x, fl) => { dst := [x], flags := fl, preds := statusPair f all }
    | none => { dst := [.gen (if code = 8 then Config.emptySum r.mask else redIdentity code)], preds := statusPair f all }
  | .scan =>
    let code := f.b.toNat % 16
    match redFold code ((vals.filter fun v => if f.sub = 0 then v.1 ≤ l else v.1 < l).map fun v => c0 v.2.a) with
    | some (x, fl) => { dst := [x], flags := fl, preds := statusPair f all }
    | none => { dst := [.gen (redIdentity code)], preds := statusPair f all }
  | .matchL =>
    let own := r.a.map (·.data)
    { dst := [.gen (maskWord ((vals.filter fun v => v.2.a.map (·.data) == own).map (·.1)))], preds := statusPair f all }
  | .elect =>
    { preds := predPair (f.d.toNat % 16) ((vals.head?.map (·.1)) == some l) ++ statusPair f all }
  | _ => {}

/-! ## `CVTB` (R197) -/

/-- The participating lanes of a block among those of a mask: arrived at the address with a true guard (R198, R332). -/
def Warp.participants (w : Warp) (pc : Addr) (m : Word) : List (Nat × Arrival) :=
  (List.range 32).filterMap fun x =>
    if m.getLsbD x && (w.lane x).live then (((w.lane x).arrivals.get? pc.toNat).filter (·.guard)).map fun r => (x, r) else none

/-- The block that the lanes of a mask form: each lane's result, or `DATA` in every participating lane (R197). -/
def Warp.block (w : Warp) (k : BitVec 16) (pc : Addr) (m : Word) : Except Trap (List Res) :=
  let ps := w.participants pc m
  let bias : Int := (match ps with | x :: _ => x.2.b | [] => (0 : Word)).toInt
  if !ps.isEmpty && !biasOk bias then .error (biasTrap (pc.zeroExtend 64))
  else
    let vs := (List.range 32).map fun l => match ps.find? fun x => x.1 == l with
      | some x => decodeElem 0 (w0 x.2.a).toNat
      | none => .fin false 0 0
    let (x, es) := writeBlock k bias vs
    .ok (es.map fun e => { dst := [.gen (BitVec.ofNat 32 (e.code + x * 256))], flags := e.flags })

/-! ## Meeting -/

/-- The lanes whose wait at an address is met now. -/
def Warp.meeting (w : Warp) (pc : Addr) : Word :=
  w.maskOf fun l t => t.status == .arrived && t.pc == pc && w.met pc l

/-- The lanes of the trap groups that lanes of a mask belong to, or every lane (R332). -/
def Warp.groupsOf (w : Warp) (m : Word) : Word := (lanesOf m).foldl (fun a l => a ||| w.groupMask (w.lane l)) 0

/-- The instruction applies to the whole warp or trap group, and is used up by one meeting (R198, R222, R332). -/
def wholeWarp (op : Op) : Bool := op == .cvtb || op == .setpart

/-- What one meeting lane gets. -/
def Warp.meetLane (w : Warp) (k : BitVec 16) (pc : Addr) (l : Nat) : Lane :=
  match (w.lane l).arrivals.get? pc.toNat with
  | none => .idle
  | some r =>
    if !r.guard then .skip
    else
      let x : Lane :=
        if r.op == .cvtb then
          match w.block k pc (w.groupMask (w.lane l)) with
          | .error t => .trap t
          | .ok rs => .done (rs.getD l {})
        else .done (w.laneRes pc l r)
      match r.flip with
      | some j => x.struck (laneClass r.op r.f) false ⟨l, j.1, j.2.1, j.2.2⟩ (pc.zeroExtend 64)
      | none => x.checked (laneClass r.op r.f) false false (pc.zeroExtend 64)

/-- A lane that met, with its result, goes on (R216). -/
def Thread.leave (t : Thread) (f : Fields) (x : Lane) (next : Addr) (now : Nat) (busy : Bool) : Thread :=
  match x with
  | .idle | .trap _ => t
  | _ =>
    let t1 := (x.apply f next t).wake now
    if f.s && busy then { t1 with status := .parked } else t1

/-- Lanes of a warp that wait at an address execute together when their wait is met; those that trap enter their
handlers at the address (R216, R198, R222). -/
def State.meetLanes (s : State) (wid : Nat) (pc : Addr) : State :=
  match s.warps.get? wid with
  | none => s
  | some w =>
    let who := w.meeting pc
    match ((lanesOf who).head?).bind fun l => (w.lane l).arrivals.get? pc.toNat with
    | none => s
    | some r0 =>
      let k := (s.gridOf wid).slots.getD (r0.f.opm.toNat % 8) 0
      let xs := (List.range 32).map fun l =>
        if who.getLsbD l then w.meetLane k pc l else .idle
      let next := pc + BitVec.ofNat 55 (4 * instrLen r0.f)
      let group := w.groupsOf who
      let w1 := w.mapLanes fun l t =>
        let t1 := t.leave r0.f (xs.getD l .idle) next s.cycle (s.outstanding wid l)
        { t1 with arrivals :=
            if wholeWarp r0.op then (if group.getLsbD l then t1.arrivals.erase pc.toNat else t1.arrivals)
            else t1.arrivals.mapv fun a r => if a = pc.toNat then { r with used := r.used ||| who } else r }
      let w2 := if r0.f.ud then match uniformResult xs with
          | some ws => w1.setWregs (r0.f.d.toNat % 64) ws
          | none => w1
        else w1
      let w3 := if r0.op == .setpart then { w2 with wpart := r0.f.a.extractLsb' 0 3 } else w2
      (s.setWarp wid w3).trapLanes wid who (pc.zeroExtend 64) (pc.zeroExtend 64) (trapsOf xs)

/-- Every address at which lanes of a warp wait, looked at again: a lane exited (R216). -/
def State.meetAgain (s : State) (wid : Nat) : State :=
  let pcs := firsts (((s.warp wid).lanes.filter fun t => t.status == .arrived).map (·.pc))
  pcs.foldl (fun s pc => s.meetLanes wid pc) s

/-! ## The shape of a lane instruction -/

/-- The sources of a lane instruction: those of its form, and the mask register (R215). -/
def laneSources (op : Op) (f : Fields) (w : Warp) (t : Thread) : List Source :=
  let ss := sources op f w t false
  if wholeWarp op || f.c.getLsbD 8 then ss else ss.take 2 ++ [⟨[w.wreg (f.cN % 64)], 6⟩]

/-- One lane's arrival, or its trap. The predicate of `VOTE` is A9[3:0]. -/
def arrive (op : Op) (f : Fields) (w : Warp) (pc : BitVec 64) (inj : Option Inj) (l : Nat) (t : Thread) :
    Except Trap Arrival :=
  let mask := if wholeWarp op then w.groupMask t else w.named f t l
  let p := f.a.toNat % 16
  if f.g != 15 && t.predBad f.g.toNat then .error (predTrap pc)
  else if !t.guard f.g then .ok ⟨op, f, false, mask, [], 0, false, none, 0⟩
  else
    match checkSources (laneSources op f w t) pc with
    | some tr => .error tr
    | none =>
      if op == .vote && t.predBad p then .error (predTrap pc)
      else
        let i := insOf l t (laneSources op f w t)
        .ok ⟨op, f, true, mask, i.a, w0 i.b, op == .vote && t.pred p,
          (inj.filter fun j => j.lane == l).map fun j => (j.bit, j.rfld, j.after), 0⟩

/-- A thread that has arrived waits (R216). -/
def Thread.await (t : Thread) (pc : Addr) (r : Arrival) : Thread :=
  { t with status := .arrived, arrivals := t.arrivals.put pc.toNat r }

/-- A lane instruction: the bundle's lanes arrive, or trap at their sources; then the lanes whose wait is met execute. A
lane that traps at a `CVTB` counts as arrived without taking part (R198). -/
def laneInstr (op : Op) (more : Fields → State → List Nat) (f : Fields) (s : State) : Out :=
  s.issue op f (more f s) fun s =>
    let w := s.curWarp
    let k := laneClass op f
    let inj := match k.icls with
      | some n => s.injection n f.g
      | none => none
    let rs := w.lanes.mapIdx fun l t => if s.active l then some (arrive op f w s.pc64 inj l t) else none
    let ts := (rs.zipIdx).filterMap fun x => match x.1 with
      | some (.error t) => some (x.2, t)
      | _ => none
    let fired := inj.filter fun j => match rs.getD j.lane none with
      | some (.ok r) => r.guard
      | _ => false
    let s1 := (s.afterInjection fired).updWarp s.cur.wid fun w => w.mapLanes fun l t =>
      match rs.getD l none with
      | some (.ok r) => t.await s.cur.pc r
      | some (.error _) =>
        if op == .cvtb then
          { t with arrivals := t.arrivals.put s.cur.pc.toNat ⟨op, f, false, 0xFFFFFFFF, [], 0, false, none, 0⟩ }
        else t
      | none => t
    .next ((s1.finish { f with s := false } ts).meetLanes s.cur.wid s.cur.pc)

/-- No check beyond the form's. -/
def noMore (_ : Fields) (_ : State) : List Nat := []

/-- `VOTE` (R218). -/
def execVote (f : Fields) (s : State) : Out := laneInstr .vote noMore f s
/-- `SHFL` (R219). -/
def execShfl (f : Fields) (s : State) : Out := laneInstr .shfl noMore f s
/-- `RED` (R220). -/
def execRed (f : Fields) (s : State) : Out := laneInstr .red noMore f s
/-- `SCAN` (R220). -/
def execScan (f : Fields) (s : State) : Out := laneInstr .scan noMore f s
/-- `MATCH` (R221). -/
def execMatchL (f : Fields) (s : State) : Out := laneInstr .matchL noMore f s
/-- `ELECT` (R221). -/
def execElect (f : Fields) (s : State) : Out := laneInstr .elect noMore f s

/-- The bundle is a trap group (R56). -/
def State.curHandler (s : State) : Bool := (s.curWarp.lane ((lowestLane s.cur.mask).getD 0)).inHandler

/-- `SETPART` (R222): WHY 10 in handler mode (R332). -/
def execSetpart (f : Fields) (s : State) : Out :=
  laneInstr .setpart (fun _ s => failsIf s.curHandler 10) f s

/-- `CVTB` (R197): WHY 10 for a slot without blocks or a tile size other than 32 lanes. -/
def execCvtb (f : Fields) (s : State) : Out :=
  laneInstr .cvtb (fun f s => failsIf (!slotBlk (s.slot (f.opm.toNat % 8)) || s.curWarp.wpart != 5) 10) f s

end Sys2Proof.Machine
end

