-- ==== Sys2Proof/Machine/Bundle.lean ====
section
/-!
DEFINITION. Instructions that act once for a bundle: their lanes, the single effect, and the traps (R26, R111, R223);
and the packets that leave a core (R422–R426).
-/

namespace Sys2Proof.Machine

/-! ## One effect for a bundle -/

/-- The lanes of the bundle with a true guard and good sources, in ascending order, and the traps of the others (R22,
R110). -/
def State.gather (s : State) (f : Fields) (src : Thread → List Source) : List Ins × List (Nat × Trap) :=
  (lanesOf s.cur.mask).foldl (fun acc l =>
    let t := s.curWarp.lane l
    if f.g != 15 && t.predBad f.g.toNat then (acc.1, acc.2 ++ [(l, predTrap s.pc64)])
    else if !t.guard f.g then acc
    else
      match checkSources (src t) s.pc64 with
      | some tr => (acc.1, acc.2 ++ [(l, tr)])
      | none => (acc.1 ++ [insOf l t (src t)], acc.2)) ([], [])

/-- What the one effect of a bundle comes to: it stalls and issues again later, with or without a mark left; it traps after a partial effect; it is
done, all but some lanes that trap; or the lanes wait at the instruction. -/
inductive Did where
  | stall
  | hold (s : State)
  | trap (s : State) (t : Trap)
  | done (s : State)
  | partly (s : State) (ts : List (Nat × Trap))
  | wait (s : State)
  deriving DecidableEq, Repr

/-- A trap for lanes that do not trap already. -/
def addTrap (ls : List Nat) (t : Trap) (ts : List (Nat × Trap)) : List (Nat × Trap) :=
  ts ++ (ls.filter fun l => ts.all fun x => x.1 != l).map fun l => (l, t)

/-- An instruction whose effect happens once, when a lane qualifies. A trap of the effect is taken by every lane of the
bundle (`whole`, R223) or by the lanes with a true guard. -/
def State.once (s : State) (op : Op) (f : Fields) (more : List Nat) (whole : Bool)
    (src : State → Thread → List Source) (body : State → Ins → List Ins → Did) : Out :=
  s.issue op f more fun s =>
    let (ins, ts) := s.gather f (src s)
    match ins with
    | [] => .next (s.advanceBut f ts)
    | i :: _ =>
      match body s i ins with
      | .stall => .next s
      | .hold s1 => .next s1
      | .done s1 => .next (s1.advanceBut f ts)
      | .partly s1 us => .next (s1.advanceBut f (ts ++ us))
      | .wait s1 => .next (s1.finish f ts)
      | .trap s1 t =>
        .next (s1.advanceBut f (addTrap (if whole then lanesOf s.cur.mask else ins.map (·.l)) t ts))

/-- D written with one word: the uniform register, or the register of each lane (R26, R21). -/
def State.give (s : State) (f : Fields) (ls : List Nat) (x : CWord) : State :=
  s.updWarp s.cur.wid fun w =>
    if f.ud then w.setWreg (f.d.toNat % 64) x
    else w.mapLanes fun l t => if ls.contains l then t.setReg f.d.toNat x else t

/-- The sources of the opcode's form, for `once`. -/
def onceSources (op : Op) (f : Fields) (s : State) (t : Thread) : List Source := sources op f s.curWarp t false

/-- A release of the issuing warp before an effect (R255, R256): stall, a trap, or the effect. -/
def State.releasing (s : State) (scope : Nat) (k : State → Did) : Did :=
  match s.releaseAt scope with
  | none => .stall
  | some (s1, some t) => .trap s1 t
  | some (s1, none) => k s1

/-- A scratchpad offset of the issuing workgroup: alignment, then the window (R223, R241). -/
def State.padOffset (s : State) (off align size : Nat) : Except Trap Nat :=
  if off % align != 0 then .error (alignTrap (addr32 off))
  else if s.curWg.spad < off + size then .error ⟨causeData, dataInfo 5 0, addr32 off⟩
  else .ok off

/-! ## Packets -/

/-- The endpoint number of a core (R424). -/
def coreEndpoint (core : Nat) : Nat := dieOf core * 4096 + core % 200

/-- The peer device that a packet of a context goes to, if it crosses Tether (R433). -/
def State.peerFor (s : State) (p : Nat) (op : PktOp) : Option Nat :=
  match op with
  | .memAdd pa _ _ _ _ =>
    if 9 ≤ pa / 2 ^ 48 ∧ pa / 2 ^ 48 ≤ 11 then some (s.peerOf p ((pa / 2 ^ 48 - 9) * 4096 + pa / 2 ^ 36 % 4096)) else none
  | _ => none

/-- The stream of SEQ numbers that a packet belongs to: one for each pair of a source endpoint and a destination endpoint of this
package, and one for each source and peer device (R425, R426). -/
def seqKey (src dst : Nat) (peer : Option Nat) : Nat :=
  match peer with
  | some d => src * 2 ^ 32 + (d + 1) * 65536
  | none => src * 2 ^ 32 + dst

/-- The stream of a packet. -/
def Packet.stream (k : Packet) : Nat := seqKey k.src k.dst k.peer

/-- A packet of a lane enters its source's retry buffer and is on its way (R424–R426). -/
def State.send (s : State) (wid lane : Nat) (dst : Nat) (op : PktOp) : State :=
  let src := coreEndpoint (warpCore wid)
  let c := s.ctxOf wid
  let p := (s.ctx c).pitch
  let peer := s.peerFor p op
  let key := seqKey src dst peer
  let seq := s.fabric.nextSeq.getD key 0
  { s with fabric := { s.fabric with
      packets := s.fabric.packets ++
        [{ id := s.fabric.nextId, src := src, peer := peer, seq := seq,
           dst := match peer with
             | some d => portEndpoint (s.portTo d)
             | none => dst
           ver := if peer.isSome then s.fabric.tver else s.fabric.gver, ctx := c, pitch := p, wid := wid, lane := lane,
           grid := (s.wg (wgKey wid)).grid, op := op, done := false, sent := true }]
      nextId := s.fabric.nextId + 1
      nextSeq := s.fabric.nextSeq.put key ((seq + 1) % 65536) } }

end Sys2Proof.Machine
end

