-- ==== Sys2Proof/Machine/Sync.lean ====
section
/-!
DEFINITION. Barriers, posted events and waiting (R39, R62–R67, R223–R229, R353).
-/

namespace Sys2Proof.Machine

/-! ## Lanes that wait at an instruction of two words -/

/-- A waiting lane completes: it goes on behind its instruction and becomes ready (R55). A lane whose wait an asynchronous
entry recorded is ready when it returns (R338). -/
def Thread.complete (t : Thread) (p : Status → Bool) (now : Nat) : Thread :=
  if p t.status then (t.goto (t.pc + 8)).wake now
  else { t with frames := t.frames.map fun f =>
    match f.async with
    | some r =>
      if p r.status then
        { f with async := some { r with pc := r.pc + 8, parks := false, status := if r.parks then .parked else .ready } }
      else f
    | none => f }

/-- A lane waits, or had waited when it was interrupted, with a status that a test names. -/
def Thread.awaits (t : Thread) (p : Status → Bool) : Bool :=
  p t.status || t.frames.any fun f => f.async.any fun r => p r.status

/-- The acquire of the waits that a test names, which are about to complete: each status that acquires at gang scope or wider
clears the clean words of the core's L1 (R309, R362). -/
def State.wakeAcquire (s : State) (core : Nat) (p : Nat → Status → Bool) : State :=
  if s.warps.any fun e => warpCore e.1 == core && e.2.lanes.any fun t => t.awaits (p e.1) then s.acquireAt core 5 else s

/-- The lanes of a workgroup whose wait a test names complete. -/
def State.completeLanes (s : State) (k : Nat) (p : Status → Bool) : State :=
  { s with warps := s.warps.mapv fun wid w =>
      if wgKey wid == k then w.mapLanes fun _ t => t.complete p s.cycle else w }

/-! ## Barrier objects (R39) -/

/-- One atomic step on a barrier object: COUNT falls by an amount; at 0 its waiters complete and a reload is written; a
negative COUNT sets UNDER, a discarded write DISC (R39, R225, R226). -/
def State.barrierStep (s : State) (k off : Nat) (amount : Word) (disc : Bool) (reload : Option Word) : State :=
  let ws := (s.wg k).pad.words off 2
  let n := w0 ws - amount
  let n' := if n == 0 then reload.getD n else n
  let hi := w0 (ws.drop 1) ||| (if disc then 1 else 0) ||| (if n'.msb then 2 else 0)
  let s1 := s.updWg k fun g => { g with pad := g.pad.setWords off [.gen n', .gen hi] }
  if n == 0 then
    (s1.wakeAcquire (coreOf k) fun wid st => match st with
      | .barrier o scope => wgKey wid == k && o == off && 3 ≤ scope
      | _ => false).completeLanes k fun st => match st with
      | .barrier o _ => o == off
      | _ => false
  else s1

/-- `BARI` (R224). -/
def execBari (f : Fields) (s : State) : Out :=
  s.once .bari f [] true (onceSources .bari f) fun s i _ =>
    match s.padOffset (w0 i.a).toNat 8 8 with
    | .error t => .trap s t
    | .ok off =>
      s.releasing f.scope fun s =>
        .done (s.updWg (wgKey s.cur.wid) fun g => g.store off 8 [.gen (w0 i.b), .zero])

/-- The arrival at a barrier object (R225): waits for a full line (R353), checks the object (R223), releases, steps. The
flag says that the step raised the zero event. -/
def State.arriveBarrier (s : State) (f : Fields) (i : Ins) (ins : List Ins) (k : State → Nat → Bool → Did) : Did :=
  match s.padOffset (w0 i.a).toNat 8 8 with
  | .error t => .trap s t
  | .ok off =>
    if !s.curWg.lineFull off then .stall
    else
      match badWord (s.curWg.pad.words off 2) 7 2 (addr32 off) with
      | some t => .trap s t
      | none =>
        s.releasing f.scope fun s =>
          let sum := ins.foldl (fun n j => n + w0 j.b) 0
          let zero := w0 (s.curWg.pad.words off 2) == sum
          k (s.barrierStep (wgKey s.cur.wid) off sum false (if f.x then some (w0 i.c) else none)) off zero

/-- `BARA` (R225). -/
def execBara (f : Fields) (s : State) : Out :=
  s.once .bara f [] true (onceSources .bara f) fun s i ins => s.arriveBarrier f i ins fun s _ _ => .done s

/-- The lanes of the bundle that do not trap wait with a status. -/
def State.stayAs (s : State) (st : Nat → Thread → Status) : State :=
  s.updWarp s.cur.wid fun w => w.mapLanes fun l t => if s.active l then { t with status := st l t } else t

/-- `BARS` (R225): as `BARA`, then the bundle waits for the zero event, its own step's included. -/
def execBars (f : Fields) (s : State) : Out :=
  s.once .bars f [] true (onceSources .bars f) fun s i ins =>
    s.arriveBarrier f i ins fun s off zero =>
      if zero then .done (s.acquireAt s.curCore f.scope) else .wait (s.stayAs fun _ _ => .barrier off f.scope)

/-! ## `BARX` (R227) -/

/-- A lane has arrived at a `BARX`. -/
def isBarx : Status → Bool
  | .barx _ => true
  | _ => false

/-- A live lane that a `BARX` still awaits. -/
def Thread.awaited (t : Thread) : Bool :=
  t.live && !isBarx t.status && !(t.frames.any fun f => f.async.any fun r => isBarx r.status)

/-- The lanes whose completion of a `BARX` counts in `depcnt` (R139). -/
def Warp.barxCounts (w : Warp) : Nat :=
  (w.lanes.filter fun t => t.status == .barx true || t.frames.any fun f => f.async.any fun r => r.status == .barx true).length

/-- The waiters of a workgroup's `BARX` are released together when every live thread has arrived (R227). -/
def State.tryBarx (s : State) (k : Nat) : State :=
  let ws := s.warps.filter fun e => wgKey e.1 == k
  if ws.any fun e => e.2.lanes.any (·.awaited) then s
  else
    let n := (ws.map fun e => e.2.barxCounts).sum
    (s.deprecated (s.wg k).ctx n).completeLanes k isBarx

/-- `BARX` (R227): the guard is ignored. As a release it waits for the remote writes of its lanes. -/
def execBarx (f : Fields) (s : State) : Out :=
  s.issue .barx f [] fun s =>
    if s.inFlight s.cur.wid s.cur.mask then .next s
    else
    let s1 := s.stayAs fun _ t => .barx (t.guard f.g)
    .next ((s1.finish f []).tryBarx (wgKey s.cur.wid))

/-! ## `MWAIT` (R302) -/

/-- The contexts of a core whose lanes wait as a test names. -/
def State.mwaitCtxs (s : State) (core : Nat) (p : Nat → Status → Bool) : List Nat :=
  ((s.warps.filter fun e => warpCore e.1 == core && e.2.lanes.any fun t => t.awaits (p e.1)).map fun e => s.ctxOf e.1).dedup

/-- Every dirty line of a context on a core written back, as an eviction does. -/
def State.cleanAll (s : State) (core c : Nat) : State :=
  (((s.dirtyOf core c).map fun pa => pa / 128).dedup).foldl (fun s n => s.cleanLine core n) s

/-- The `MWAIT`s of a core whose entries have all left the queue complete (R302): at gang scope or wider what the entries wrote is
first written back to L2 (R318). -/
def State.tryMwait (s : State) (core : Nat) : State :=
  let q := (s.core core).engine.queue
  let open' (k n : Nat) : Bool := q.any fun e => wgKey e.wid == k && e.id < n
  let wide (wid : Nat) (st : Status) : Bool := match st with
    | .mwait n scope => !open' (wgKey wid) n && 3 ≤ scope
    | _ => false
  let s1 := ((s.mwaitCtxs core wide).foldl (fun s c => s.cleanAll core c) s).wakeAcquire core wide
  { s1 with warps := s1.warps.mapv fun wid w =>
      if warpCore wid == core then
        w.mapLanes fun _ t => t.complete (fun st => match st with
          | .mwait n _ => !open' (wgKey wid) n
          | _ => false) s.cycle
      else w }

/-! ## `POST` (R228) -/

/-- Event bits made pending (R63). -/
def State.postEvents (s : State) (k : Nat) (bits : BitVec 16) : State :=
  s.updWg k fun g => { g with events := g.events ||| bits }

/-- One lane's posting: its own workgroup at once, another by a packet. -/
def State.postTo (s : State) (l rank : Nat) (bits : BitVec 8) : Except Trap State :=
  match s.curWg.gang[rank]? with
  | none => .error ⟨causeData, dataInfo 6 rank, s.pc64⟩
  | some m =>
    if m.key = wgKey s.cur.wid then .ok (s.postEvents m.key (bits.zeroExtend 16))
    else .ok (s.send s.cur.wid l (coreEndpoint (coreOf m.key)) (.post m.key bits))

/-- `POST` (R228): a release, then each lane's event bits. -/
def execPost (f : Fields) (s : State) : Out :=
  s.once .post f [] false (onceSources .post f) fun s _ ins =>
    s.releasing f.scope fun s =>
      let (s1, ts) := ins.foldl (fun acc i =>
        match acc.1.postTo i.l ((w0 i.b).toNat % 16) ((w0 i.a).extractLsb' 0 8) with
        | .error t => (acc.1, acc.2 ++ [(i.l, t)])
        | .ok s' => (s', acc.2)) (s, [])
      .partly s1 ts

/-! ## `WAIT` (R62–R67, R229) -/

/-- A used condition entry of a wait record (R62). -/
structure Cond where
  k    : Nat
  kind : Nat
  cmp  : Nat
  ch   : Nat
  val  : Word
  addr : BitVec 64
  deriving DecidableEq, Repr

/-- Entry `k` of a wait record; none when it is unused (R62). -/
def condAt (ws : List Word) (k : Nat) : Option Cond :=
  let w := ws.getD (4 * k) 0
  if w.toNat % 16 = 0 then none
  else some ⟨k, w.toNat % 16, w.toNat / 16 % 8, w.toNat / 128 % 4, ws.getD (4 * k + 1) 0,
    ws.getD (4 * k + 3) 0 ++ ws.getD (4 * k + 2) 0⟩

/-- The used entries of a wait record. -/
def condsOf (ws : List CWord) : List Cond := (List.range 4).filterMap (condAt (ws.map (·.data)))

/-- An entry's address is not aligned (R66). -/
def Cond.misaligned (c : Cond) : Bool :=
  ((c.kind == 1 || c.kind == 2) && c.addr.toNat % 4 != 0) || (c.kind == 3 && c.addr.toNat % 8 != 0)

/-- An entry uses a reserved kind, code or bit, or leaves the window (R62, R66). `w` is its first word. -/
def Cond.malformed (c : Cond) (w : Word) (spad : Nat) : Bool :=
  6 < c.kind || w.toNat / 2 ^ 9 != 0 || 5 < c.cmp || (c.cmp != 0 && c.kind != 1 && c.kind != 2) ||
    (c.ch != 0 && c.kind != 4) || (c.kind == 6 && c.val.toNat / 2 ^ 16 != 0) ||
    ((c.kind == 3 || c.kind == 5) && c.val != 0) || ((c.kind == 4 || c.kind == 6) && c.addr != 0) ||
    ((c.kind == 2 || c.kind == 3 || c.kind == 5) &&
      (c.addr.toNat / 2 ^ 32 != 0 || spad < c.addr.toNat + (if c.kind = 3 then 8 else if c.kind = 2 then 4 else 1)))

/-- The conditions of a wait record at an offset, or the trap of R66. -/
def State.waitRecord (s : State) (wid off : Nat) : Except Trap (List Cond) :=
  let g := s.wgOf wid
  let a := addr32 off
  if off % 64 != 0 then .error (alignTrap a)
  else if g.spad < off + 64 then .error ⟨causeData, dataInfo 12 4, a⟩
  else
    let ws := g.pad.words off 16
    match badWord ws 7 2 a with
    | some t => .error t
    | none =>
      let cs := condsOf ws
      match cs.find? (·.misaligned) with
      | some c => .error ⟨causeAlign, BitVec.ofNat 32 c.k, c.addr⟩
      | none =>
        match cs.find? fun c => c.malformed (ws.getD (4 * c.k) .zero).data g.spad with
        | some c => .error ⟨causeData, dataInfo 12 c.k, a⟩
        | none => if cs.isEmpty then .error ⟨causeData, dataInfo 12 4, a⟩ else .ok cs

/-- A word condition holds: word CMP VALUE (R62). -/
def compares (cmp : Nat) (x v : Word) : Bool :=
  match cmp with
  | 0 => x == v
  | 1 => x != v
  | 2 => decide (x.toInt < v.toInt)
  | 3 => decide (v.toInt ≤ x.toInt)
  | 4 => decide (x.toNat < v.toNat)
  | _ => decide (v.toNat ≤ x.toNat)

/-- The watched word of an entry, checked (R66). -/
def State.watched (s : State) (wid : Nat) (priv : Bool) (c : Cond) : Except Trap Word :=
  let words : Except Trap (List CWord) :=
    if c.kind = 1 then
      if 2 ^ 55 ≤ c.addr.toNat then .error ⟨causeData, dataInfo 4 0, c.addr⟩
      else
        match s.translate (warpCore wid) (s.ctxOf wid) c.addr.toNat { user := !priv } with
        | .error info => .error ⟨causePage, info, c.addr⟩
        | .ok pa => .ok [s.engineWord (warpCore wid) (s.ctx (s.ctxOf wid)).pitch priv pa]
    else .ok ((s.wgOf wid).pad.words c.addr.toNat (if c.kind = 3 then 2 else 1))
  match words with
  | .error t => .error t
  | .ok ws =>
    match badWord ws 7 2 c.addr with
    | some t => .error t
    | none => .ok (w0 ws)

/-- A channel's count as a workgroup sees it: the core's, by its view offset (R399). -/
def State.cwpView (s : State) (k ch : Nat) : Word :=
  ((s.core (coreOf k)).cwp.getD ch 0) - (s.wg k).view.getD ch 0

/-- The pending event bits that an entry names. -/
def State.eventBits (s : State) (wid : Nat) (c : Cond) : BitVec 16 := (s.wgOf wid).events &&& c.val.extractLsb' 0 16

/-- A condition observed in one evaluation (R63). -/
def State.observe (s : State) (wid : Nat) (priv : Bool) (c : Cond) : Except Trap Bool :=
  match c.kind with
  | 4 => .ok (!(s.cwpView (wgKey wid) c.ch - c.val).msb)
  | 5 => .ok ((s.wgOf wid).lineFull c.addr.toNat)
  | 6 => .ok (s.eventBits wid c != 0)
  | 3 => match s.watched wid priv c with
    | .error t => .error t
    | .ok x => .ok (x == 0)
  | _ => match s.watched wid priv c with
    | .error t => .error t
    | .ok x => .ok (compares c.cmp x c.val)

/-- One evaluation: the conditions satisfied, as a mask, and the first trap met (R64, R66). -/
def State.evaluate (s : State) (wid : Nat) (priv : Bool) (cs : List Cond) : BitVec 4 × Option Trap :=
  cs.foldl (fun acc c =>
    match s.observe wid priv c with
    | .ok true => (acc.1 ||| (1 <<< c.k), acc.2)
    | .ok false => acc
    | .error t => (acc.1, acc.2 <|> some t)) (0, none)

/-- The used conditions as a mask. -/
def usedMask (cs : List Cond) : BitVec 4 := cs.foldl (fun m c => m ||| (1 <<< c.k)) 0

/-- The completion of an evaluation (R64, R65): TO, or none while the wait goes on. A wait never completes with no condition
satisfied and TO 0 (R64); one whose deadline had passed at a resumption completes with TO 1 (R67). -/
def waitDone (w : WaitInfo) (used now : BitVec 4) (time : Nat) : Option Bool :=
  if w.late then some true
  else if now != 0 && (!w.all || (w.seen ||| now) &&& used == used) then some false
  else match w.deadline with
    | some d => if d ≤ time then some true else none
    | none => none

/-- Event bits that satisfied an entry of the final evaluation are cleared (R64). -/
def State.takeEvents (s : State) (wid : Nat) (cs : List Cond) (now : BitVec 4) : State :=
  let bits := cs.foldl (fun m c => if c.kind == 6 && now.getLsbD c.k then m ||| s.eventBits wid c else m) 0
  if bits == 0 then s else s.updWg (wgKey wid) fun g => { g with events := g.events &&& ~~~bits }

/-- The wait result word (R64). -/
def waitWord (now : BitVec 4) (tmo : Bool) : CWord := .gen (now.zeroExtend 32 ||| (if tmo then 16 else 0))

/-- The global words that a wait record watches, as addresses of accesses. -/
def watchedVas (cs : List Cond) : List Nat :=
  cs.filterMap fun c => if c.kind = 1 && c.addr.toNat < 2 ^ 55 then some c.addr.toNat else none

/-- `WAIT` (R229): completes at issue when its first evaluation completes it, else the whole bundle waits. -/
def execWaitC (f : Fields) (s : State) : Out :=
  s.once .waitC f [] true (onceSources .waitC f) fun s i ins =>
    let off := (w0 i.a).toNat
    let t := w0 i.b
    match s.waitRecord s.cur.wid off with
    | .error tr => .trap s tr
    | .ok cs =>
      match s.chargeAccess false [] [] (watchedVas cs) true with
      | none => .stall
      | some s =>
      match s.evaluate s.cur.wid s.curPriv cs with
      | (_, some tr) => .trap s tr
      | (now, none) =>
        let w : WaitInfo :=
          { off := (w0 i.a), deadline := if t == 0xFFFFFFFF then none else some (s.time + t.toNat), all := f.x, late := false,
            scope := f.scope, seen := now, uni := f.ud, dst := f.d.toNat }
        match waitDone w (usedMask cs) now s.time with
        | some tmo =>
          .done (((s.takeEvents s.cur.wid cs now).give f (ins.map (·.l)) (waitWord now tmo)).acquireAt s.curCore
            (if tmo then 0 else f.scope))
        | none => .wait (s.stayAs fun l _ => .waiting w (ins.any fun j => j.l == l))

/-- The wait of a bundle, if it is in one. -/
def Warp.waitOf (w : Warp) (bid : Nat) : Option WaitInfo :=
  w.lanes.findSome? fun t => match t.status with
    | .waiting i _ => if t.bid = bid then some i else none
    | _ => none

/-- The lanes of a waiting bundle complete with their result word (R64, R229). -/
def Warp.endWait (w : Warp) (bid : Nat) (i : WaitInfo) (x : CWord) (now : Nat) : Warp :=
  let w1 := w.mapLanes fun _ t =>
    match t.status with
    | .waiting _ writes =>
      if t.bid = bid then
        ((if writes && !i.uni then t.setReg i.dst x else t).goto (t.pc + 8)).wake now
      else t
    | _ => t
  if i.uni then w1.setWreg (i.dst % 64) x else w1

/-- A later evaluation of a waiting bundle (R65): a fault is "not satisfied" (R66). The words that it reads are charged, and do not
wait for the budget, since the `WAIT` has started (R393). -/
def State.reevaluate (s : State) (wid bid : Nat) : State :=
  let w := s.warp wid
  match w.waitOf bid with
  | none => s
  | some i =>
    let cs := match s.waitRecord wid i.off.toNat with
      | .ok cs => cs
      | .error _ => []
    let s := s.pay (warpCore wid) (s.ctxOf wid) (s.gridOf wid)
      (s.accessBill (warpCore wid) (s.ctxOf wid) { user := !(s.gridOf wid).priv } (watchedVas cs) true)
    let now := (s.evaluate wid (s.gridOf wid).priv cs).1
    let used := if cs.isEmpty then 15 else usedMask cs
    match waitDone i used now s.time with
    | some tmo =>
      ((s.takeEvents wid cs now).updWarp wid fun w => w.endWait bid i (waitWord now tmo) s.cycle).acquireAt (warpCore wid)
        (if tmo then 0 else i.scope)
    | none =>
      s.updWarp wid fun w => w.mapLanes fun _ t =>
        match t.status with
        | .waiting j b => if t.bid = bid then { t with status := .waiting { j with seen := j.seen ||| now } b } else t
        | _ => t

/-- `WAIT_EVALUATION` (R65): a waiting bundle evaluates its conditions again. -/
def execWaitEvaluation (wid bid : Nat) (s : State) : Out := .next (s.reevaluate wid bid)

/-- `WAIT_TIMEOUT` (R65): a waiting bundle whose deadline has passed evaluates once more and completes; before the deadline
nothing happens. -/
def execWaitTimeout (wid bid : Nat) (s : State) : Out :=
  match ((s.warp wid).waitOf bid).bind (·.deadline) with
  | some d => if d ≤ s.time then .next (s.reevaluate wid bid) else .next s
  | none => .next s

end Sys2Proof.Machine
end

