-- ==== Sys2Proof/Machine/Exit.lean ====
section
/-!
DEFINITION. `EXIT` and what the end of a lane sets free (R206, R68, R69, R212, R214, R216, R227, R300).
-/

namespace Sys2Proof.Machine

/-- An engine entry is still awaited by a trap group, or by a lane that has yet to take its trap (R300). -/
def State.entryWanted (s : State) (core n : Nat) : Bool :=
  s.warps.any fun e => warpCore e.1 == core && e.2.lanes.any fun t =>
    t.live && ((t.frames.any fun f => f.entry == some n) || t.engTraps.any fun x => x.entry == some n)

/-- Entries held by a translation fault whose trap groups have all exited are dropped, with their locks (R300). -/
def State.dropStuck (s : State) (core : Nat) : State :=
  let gone := ((s.core core).engine.queue.filter fun e => e.stuck && !s.entryWanted core e.id).map (·.id)
  if gone.isEmpty then s
  else (s.updCore core fun c =>
    { c with engine := { c.engine with queue := c.engine.queue.filter fun e => !gone.contains e.id }
             locks := c.locks.filter fun l => !(l.2.owner == 2 && gone.contains l.2.req) }).tryMwait core

/-- What the exit of lanes of a warp sets free: lane instructions that named them, callee groups, a `BARX`, held engine
entries, and the warp itself. -/
def State.afterExit (s : State) (wid : Nat) : State :=
  if (s.warps.get? wid).isNone then s
  else
    let s1 := (s.meetAgain wid).releaseCallees wid
    ((s1.tryBarx (wgKey wid)).dropStuck (warpCore wid)).tryRetire wid

/-- `EXIT` (R206, R214): the lane's return entries are discarded, the spilled ones read back and counted. -/
def execExitT (f : Fields) (s : State) : Out :=
  s.issue .exitT f [] fun s =>
    let (s1, ts) := s.perLane f (fun _ => []) fun st i =>
      .ok ((st.dropSpilled st.curCore st.curCtx i.t.spl i.t.csp).lane! i.l (·.exit))
    let s2 := (s1.finish f ts).splitBundle s.cur.wid (s.cur.mask &&& ~~~(maskOfLanes (ts.map (·.1))))
    .next (s2.afterExit s.cur.wid)

end Sys2Proof.Machine
end

