-- ==== Sys2Proof/Machine/System.lean ====
section
/-!
DEFINITION. `TRAP`, `TRET`, special registers, `TINV` and `CGEN` (R27, R34, R214, R232–R238, R334, R464).
-/

namespace Sys2Proof.Machine

/-! ## `TRAP` and `TRET` -/

/-- `TRAP` (R233): the lanes with a true guard take `SWTRAP`, `tpc` the next instruction. -/
def execTrap (f : Fields) (s : State) : Out :=
  s.issue .trap f [] fun s =>
    let (ins, bad) := s.gather f fun _ => []
    let next := s.nextPc f
    let t : Trap := ⟨causeSwtrap, f.a.zeroExtend 32, s.pc64⟩
    let s1 := s.updWarp s.cur.wid fun w => w.mapLanes fun l x =>
      if s.active l && !x.guard f.g && !(bad.any fun y => y.1 == l) then x.goto next else x
    .next ((s1.trapLanes s.cur.wid s.cur.mask s.pc64 s.pc64 bad).finishAt f (next.zeroExtend 64) (ins.map fun i => (i.l, t)))

/-- Lanes of a returning emulation group whose slot counts (R464). -/
def Warp.emulated (w : Warp) (mask : Word) : Nat :=
  ((lanesOf mask).filter fun l => ((w.lane l).frames.head?.bind (·.emu)).any (·.dep)).length

/-- Engine entries that a translation fault held are tried again (R300). -/
def Core.unstick (c : Core) (ids : List Nat) : Core :=
  let q := c.engine.queue.map fun e => if ids.contains e.id then { e with stuck := false } else e
  { c with engine := { c.engine with queue := q } }

/-- `TRET` (R234, R334, R338, R461): the lanes return; WHY 10 outside a trap group. An engine entry that a translation
fault holds is tried again (R300). -/
def execTret (f : Fields) (s : State) : Out :=
  s.issue .tret f (failsIf (!s.curHandler) 10) fun s =>
    let w := s.curWarp
    let again := (lanesOf s.cur.mask).filterMap fun l => (w.lane l).frames.head?.bind (·.entry)
    let s1 := s.updWarp s.cur.wid fun w => w.mapLanes fun l t =>
      if s.active l then { t.comeBack w.next with age := s.cycle } else t
    let s2 := (s1.updWarp s.cur.wid fun w => { w with next := w.next + 1 }).updCore s.curCore fun c => c.unstick again
    let s3 := (((s2.deprecated s.curCtx (w.emulated s.cur.mask)).finish f []).splitBundle s.cur.wid s.cur.mask).releaseCallees
      s.cur.wid
    .next (if (lanesOf s.cur.mask).any fun l => ((s3.warp s.cur.wid).lane l).status == .exited then s3.afterExit s.cur.wid
      else s3)

/-! ## Special registers (R27, R235, R236) -/

/-- The first source of a lane's list by its index: x, then y, then z (R49). -/
def splitIndex (dims : List Nat) (i : Nat) : List Nat :=
  let x := max 1 (dims.getD 0 1)
  let y := max 1 (dims.getD 1 1)
  [i % x, i / x % y, i / (x * y)]

/-- A value of the lane's current trap group, or 0 outside one (R235). -/
def Thread.frameValue (t : Thread) (g : Frame → Nat) : Nat :=
  match t.frames with
  | f :: _ => g f
  | [] => 0

/-- A value of the lane's emulation group, or 0 outside one (R464). -/
def Thread.emuValue (t : Thread) (g : Emulation → Nat) : Nat := t.frameValue fun f => match f.emu with
  | some e => g e
  | none => 0

/-- `rnstat` (R464). -/
def State.rnstat (s : State) (c : Nat) : Nat :=
  let bits := (s.rennet.slots.zipIdx).foldl (fun m x =>
    if x.1.kind != 0 && x.1.applies c (s.ctx c).pitch then m + 2 ^ x.2 else m) 0
  bits + s.rennet.seq.toNat % 65536 * 65536

/-- `rsdep` (R209). -/
def Thread.rsdep (t : Thread) : Nat := t.rstack.length + t.spl * 256

/-- A word of a bound register: min, max, ctl (R34). -/
def Bound.part (b : Bound) (k : Nat) : Word :=
  match k with
  | 0 => b.lo
  | 1 => b.hi
  | _ => b.ctl

/-- The value that `SYSR` reads (R236, R464). -/
def State.sysRead (s : State) (l : Nat) (t : Thread) (n : Nat) : Nat :=
  let wid := s.cur.wid
  let g := s.curWg
  let d := s.gridOf wid
  let c := s.curCtx
  let k := s.ctx c
  if n = 0 then l
  else if n ≤ 3 then (splitIndex d.ntid (wid % 32 * 32 + l)).getD (n - 1) 0
  else if n ≤ 6 then d.ntid.getD (n - 4) 1
  else if 8 ≤ n ∧ n ≤ 0xA then (splitIndex d.nwg g.linear).getD (n - 8) 0
  else if 0xC ≤ n ∧ n ≤ 0xE then d.nwg.getD (n - 0xC) 1
  else if 0x28 ≤ n ∧ n ≤ 0x2B then (s.cwpView (wgKey wid) (n - 0x28)).toNat
  else if 0x30 ≤ n ∧ n ≤ 0x5F then ((k.bounds.getD ((n - 0x30) / 3) .reset).part ((n - 0x30) % 3)).toNat
  else
    match n with
    | 0x10 => wid % 32
    | 0x11 => g.linear % max 1 d.gang
    | 0x12 => d.gang
    | 0x13 => s.curCore % 200
    | 0x14 => dieOf s.curCore
    | 0x15 => k.pitch
    | 0x16 => c
    | 0x18 => s.cycle
    | 0x19 => s.time
    | 0x1A => t.csp.toNat
    | 0x1B => d.pool.toNat
    | 0x1C => t.rsdep
    | 0x20 => s.curWarp.tmask.toNat
    | 0x21 => t.frameValue fun f => f.tfm.toNat
    | 0x22 => t.frameValue fun f => f.tam.toNat
    | 0x23 => t.frameValue fun f => f.tcause.toNat
    | 0x24 => t.frameValue fun f => f.tinfo.toNat
    | 0x25 => t.frameValue fun f => f.tpc.toNat
    | 0x26 => t.frameValue fun f => f.taddr.toNat
    | 0x2C => g.mstat.toNat
    | 0x2D => t.fflags.toNat
    | 0x60 => k.depcnt.toNat
    | 0x61 => k.depctl.toNat
    | 0x62 => (s.core s.curCore).finj.toNat
    | 0x63 => k.tvec.toNat
    | 0x64 => k.ptroot.toNat
    | 0x68 => s.rnstat c
    | 0x69 => t.emuValue fun e => e.key.toNat
    | 0x6A => t.emuValue fun e => e.lit.toNat
    | 0x6B => t.emuValue fun e => e.rnmr.toNat
    | _ => 0

/-- The registers that only privileged code may access (R236, R464). -/
def sysPrivileged (n : Nat) : Bool := (0x61 ≤ n && n ≤ 0x64) || (0x69 ≤ n && n ≤ 0x6B)

/-- The registers that user code may write (R236). -/
def sysUserWrite (n : Nat) : Bool :=
  n == 0x1A || n == 0x20 || n == 0x25 || n == 0x2C || n == 0x2D || (0x30 ≤ n && n ≤ 0x5F)

/-- `PRIV` of an access to a special register (R27). -/
def State.sysPriv (s : State) (bad : Bool) : Except Trap Unit :=
  if bad && !s.curPriv then .error (privTrap s.pc64) else .ok ()

/-- `SYSR` (R235): class G. -/
def execSysr (f : Fields) (s : State) : Out :=
  let n := f.b.toNat
  s.lanewiseOn .sysr f .g (fun _ _ => []) fun i =>
    match s.sysPriv (sysPrivileged n) with
    | .error t => .error t
    | .ok () =>
      let v := BitVec.ofNat 64 (s.sysRead i.l i.t n)
      .ok { dst := (ofPair v).take ((sysRegWords n).getD 1) }

/-- A W1C write: bits `mask` of the old value are cleared where the new value has 1. -/
def w1c (old new mask : Word) : Word := old &&& ~~~(new &&& mask)

/-- `mstat` after a write (R295): clearing SPILL clears SPCNT. -/
def mstatWrite (old v : Word) : Word :=
  let x := w1c old v 0x7F
  if v.getLsbD 0 then x &&& 0xFFFF00FF else x

/-- A bound register after a write of one of its words (R34). -/
def Bound.write (b : Bound) (k : Nat) (v : Word) : Bound :=
  match k with
  | 0 => { b with lo := v }
  | 1 => { b with hi := v }
  | _ => { b with ctl := (v &&& 3) ||| (w1c b.ctl v 4 &&& 4) }

/-- `finj` after a write (R119): reserved bits read 0; an armed reserved class is ignored. -/
def finjWrite (old v : BitVec 64) : BitVec 64 :=
  if v.getLsbD 0 && 6 ≤ v.toNat / 2 % 8 then old
  else (v &&& 0x1FFFFFFF) ||| (old &&& (1 <<< 32) &&& ~~~v)

/-- `ptroot` after a write (R411). -/
def ptrootWrite (v : BitVec 64) : BitVec 64 := v &&& 0x000FFFFFFFFF0001

/-- The trap group of a lane takes a value written to `tpc` (R27, R235): the whole group's, or the lane's own in an
emulation group (R461). -/
def Warp.writeTpc (w : Warp) (l : Nat) (v : BitVec 64) : Warp :=
  match (w.lane l).frames with
  | [] => w
  | f :: _ => w.mapLanes fun i t =>
    match t.frames with
    | g :: gs =>
      if (if f.emu.isSome then i == l else g.gid == f.gid) then { t with frames := { g with tpc := v, wrote := true } :: gs }
      else t
    | [] => t

/-- `rnmr` of a lane written (R464). -/
def Thread.writeRnmr (t : Thread) (v : BitVec 64) : Thread :=
  match t.frames with
  | f :: fs => match f.emu with
    | some e => { t with frames := { f with emu := some { e with rnmr := v &&& 0x807FFFFFFFFFFFFF } } :: fs }
    | none => t
  | [] => t

/-- One lane's write of a special register (R27, R235): `ALIGN` for a misaligned `csp`; a read-only register in privileged
mode ignores it. A bound register, `ptroot` or `tvec` is in force for every warp at once (R40; DESIGN CHOICE, log 43). -/
def State.sysWrite (s : State) (l n : Nat) (v : BitVec 64) : Except Trap State :=
  let wid := s.cur.wid
  let w := v.extractLsb' 0 32
  if 0x30 ≤ n ∧ n ≤ 0x5F then
    let k := (n - 0x30) / 3
    .ok (s.updCtx s.curCtx fun c =>
      { c with bounds := KMap.set c.bounds k ((c.bounds.getD k .reset).write ((n - 0x30) % 3) w) .reset })
  else
    match n with
    | 0x1A =>
      if v.toNat % 8 != 0 then .error (alignTrap s.pc64) else .ok (s.lane! l fun t => { t with csp := v })
    | 0x20 => .ok (s.updWarp wid fun x => { x with tmask := w &&& 3 })
    | 0x25 => .ok (s.updWarp wid fun x => x.writeTpc l v)
    | 0x2C => .ok (s.updWg (wgKey wid) fun g => { g with mstat := mstatWrite g.mstat w })
    | 0x2D => .ok (s.lane! l fun t => { t with fflags := v.extractLsb' 0 5 })
    | 0x60 => .ok (s.updCtx s.curCtx fun c => { c with depcnt := v })
    | 0x61 => .ok (s.updCtx s.curCtx fun c => { c with depctl := (w &&& 1) ||| (w1c c.depctl w 2 &&& 2) })
    | 0x62 => .ok (s.updCore s.curCore fun c => { c with finj := finjWrite c.finj v })
    | 0x63 => .ok (s.updCtx s.curCtx fun c => { c with tvec := v })
    | 0x64 => .ok (s.updCtx s.curCtx fun c => { c with ptroot := ptrootWrite v })
    | 0x6B => .ok (s.lane! l fun t => t.writeRnmr v)
    | _ => .ok s

/-- The source of `SYSW`, at SITE 10 (R116, R235). -/
def syswSources (f : Fields) (s : State) (t : Thread) : List Source :=
  ((sources .sysw f s.curWarp t false).take 1).map fun x => { x with site := 10 }

/-- The order in which the lanes of one `SYSW` write a register that they share: the last one is a free choice (DESIGN
CHOICE, log 15), since the manual names none. -/
def writeOrder (free : Word) (ls : List Nat) : List Nat :=
  match ls[free.toNat % max 1 ls.length]? with
  | some l => ls.filter (· != l) ++ [l]
  | none => ls

/-- `SYSW` (R235). -/
def execSysw (f : Fields) (s : State) : Out :=
  s.issue .sysw f [] fun s =>
    let n := f.b.toNat
    let (ins0, bad0) := s.gather f fun _ => []
    match s.sysPriv (sysPrivileged n || !sysUserWrite n) with
    | .error t => .next (s.advanceBut f (bad0 ++ ins0.map fun i => (i.l, t)))
    | .ok () =>
      let (ins, bad) := s.gather f (syswSources f s)
      let order := writeOrder (Config.freeWord s.free) (ins.map (·.l))
      let (s1, ts) := order.foldl (fun acc l =>
        match ins.find? fun i => i.l == l with
        | none => acc
        | some i =>
          match acc.1.sysWrite l n (pairOf i.a) with
          | .error t => (acc.1, acc.2 ++ [(l, t)])
          | .ok s' => (s', acc.2)) ({ s with free := s.free + 1 }, bad)
      .next (s1.advanceBut f ts)

/-! ## `TINV` (R237) -/

/-- `TINV` (R237): a release at `dev` scope, then the context's translations of the pages go. -/
def execTinv (f : Fields) (s : State) : Out :=
  s.once .tinv f [] false (onceSources .tinv f) fun s i _ =>
    let a := pairOf i.a
    let n := (w0 i.b).toNat
    if a.toNat % 65536 != 0 then .trap s (alignTrap a)
    else s.releasing 5 fun s =>
      .done (s.dropTlbs s.curCtx (if n = 0 then none else some (a.toNat, a.toNat + 65536 * n)))

/-! ## `CGEN` (R214, R238) -/

/-- A code address lies in a generation. -/
def CodeGen.holds (g : CodeGen) (a : Addr) : Bool := g.base ≤ a.toNat && a.toNat < g.base + g.len

/-- The PC and the on-chip entries of a thread in a generation. -/
def Thread.liveIn (t : Thread) (g : CodeGen) : Nat :=
  if t.live then (if g.holds t.pc then 1 else 0) + (t.rstack.filter fun e => g.holds e.ra).length else 0

/-- The live count of a generation of a context, pre-empted threads included, held at `0xFFFF_FFFF` (R214, R238). -/
def State.liveCount (s : State) (c : Nat) (g : CodeGen) : Nat :=
  let run := s.warps.filter fun e => s.ctxOf e.1 == c
  let kept := match s.saved.get? c with
    | some v => v.warps
    | none => []
  min 0xFFFFFFFF ((((run ++ kept).map fun e => (e.2.lanes.map fun t => t.liveIn g).sum).sum) + g.spilled)

/-- The number that a registration gets, 0 when it is refused: the lowest free one (R238). -/
def Context.register (k : Context) (base len : Nat) : Nat × Context :=
  if k.gens.any fun e => base < e.2.base + e.2.len && e.2.base < base + len then (0, k)
  else match k.gens.fresh 1 255 with
    | some n => (n, { k with gens := k.gens.put n ⟨base, len, 0⟩ })
    | none => (0, k)

/-- `CGEN.REG` (R238). -/
def execCgenReg (f : Fields) (s : State) : Out :=
  s.once .cgenReg f [] false (onceSources .cgenReg f) fun s i ins =>
    let a := pairOf i.a
    let c := (w0 i.c).toNat
    if a.toNat % 128 != 0 then .trap s (alignTrap a)
    else
      match s.ctxs.get? c with
      | none => .done (s.give f (ins.map (·.l)) .zero)
      | some k =>
        let (n, k') := k.register a.toNat (((w0 i.b).toNat + 127) / 128 * 128)
        .done ((s.updCtx c fun _ => k').give f (ins.map (·.l)) (.gen (BitVec.ofNat 32 n)))

/-- `CGEN.LIVE` (R238). -/
def execCgenLive (f : Fields) (s : State) : Out :=
  s.once .cgenLive f [] false (onceSources .cgenLive f) fun s i ins =>
    let c := (w0 i.c).toNat
    let v := match (s.ctx c).gens.get? (w0 i.a).toNat with
      | some g => BitVec.ofNat 32 (s.liveCount c g)
      | none => 0xFFFFFFFF
    .done (s.give f (ins.map (·.l)) (.gen v))

/-- `CGEN.DROP` (R238). -/
def execCgenDrop (f : Fields) (s : State) : Out :=
  s.once .cgenDrop f [] false (onceSources .cgenDrop f) fun s i ins =>
    let c := (w0 i.c).toNat
    let n := (w0 i.a).toNat
    match (s.ctx c).gens.get? n with
    | none => .done (s.give f (ins.map (·.l)) (.gen 0xFFFFFFFF))
    | some g =>
      let live := s.liveCount c g
      let s1 := if live = 0 then s.updCtx c fun k => { k with gens := k.gens.erase n } else s
      .done (s1.give f (ins.map (·.l)) (.gen (BitVec.ofNat 32 live)))

end Sys2Proof.Machine
end

