-- ==== Sys2Proof/Machine/Fetch.lean ====
section
/-!
DEFINITION. From a warp to the instruction that its bundle issues: bundles and meeting points (R54–R58), instruction fetch
(R123, R124, R366), page walks (R415), clause headers (R134, R135), encodings that are not instructions (R141, R142); and
the events that make a warp go on: regroup points, the end of a `YIELD`, SFU write-backs, asynchronous entry (R338), and
the two time-outs of R337 and R462.
-/

namespace Sys2Proof.Machine

/-! ## Bundles and meeting points -/

/-- A thread is held at its meeting point (R57); a parked one, or one that waits elsewhere, is not. -/
def Thread.held (t : Thread) : Bool :=
  t.mr == some t.pc && t.hi == 0 && match t.status with
    | .ready | .joining | .yielded _ _ => true
    | _ => false

/-- The newest trap group of a thread. -/
def Thread.group (t : Thread) : Option Nat := t.frames.head?.map (·.gid)

/-- The `mr` of a thread as one of trap group `g` sees it (outside a group, `none`): for a thread that has entered another
group since it left theirs, the value saved at that entry (R57, R59). -/
def Thread.mrFrom (u : Thread) (g : Option Nat) : Option Addr :=
  match (u.frames.takeWhile fun f => g != some f.gid).getLast? with
  | some f => f.mr
  | none => u.mr

/-- A held thread awaits a sibling: the sibling's `mr` names the address, and the sibling is not held there (R57). One in a
trap group does not arrive for a thread outside any, whatever its handler holds it at; for a thread in a handler it does, since
holds alone never deadlock (R60; DEDUCED, log 112). -/
def Thread.expects (t u : Thread) : Bool :=
  u.live && u.mrFrom t.group == some t.pc && !(u.held && u.pc == t.pc && (t.inHandler || !u.inHandler))

/-- The threads held at addresses where nobody is awaited are released together; their `mr` becomes invalid (R57, R58). Those of
one trap group go on in one bundle, apart from every other's (R56). -/
def Warp.release (w : Warp) (now : Nat) : Warp :=
  let free (t : Thread) : Bool := t.live && t.held && !(w.lanes.any t.expects)
  let key (t : Thread) : Option Nat × Addr := (t.group, t.pc)
  let keys := firsts ((w.lanes.filter free).map key)
  { (w.mapLanes fun _ t => if free t then
      { t with mr := none, status := if t.inHandler then .ready else .joining, age := now, bid := w.next + keys.idxOf (key t) }
    else t) with next := w.next + keys.length }

/-- A warp's held threads looked at again. -/
def State.releaseHeld (s : State) (wid : Nat) : State := s.updWarp wid fun w => w.release s.cycle

/-- A thread is ready to issue in a bundle (R55). -/
def Thread.canIssue (t : Thread) (bid : Nat) : Bool := t.status == .ready && t.bid == bid && !t.held

/-- The lanes that a bundle issues now: its ready threads at one address. -/
def State.bundleMask (s : State) (wid bid : Nat) : Word :=
  let w := s.warp wid
  match lowestLane (w.maskOf fun _ t => t.canIssue bid) with
  | none => 0
  | some l => w.maskOf fun _ t => t.canIssue bid && t.fullPc == (w.lane l).fullPc

/-- The state with a bundle about to issue. -/
def State.atBundle (s : State) (wid bid : Nat) : State :=
  let m := s.bundleMask wid bid
  { s with cur := ⟨wid, m, ((s.warp wid).lane ((lowestLane m).getD 0)).pc⟩ }

/-- Threads that the bundle former places: ready, outside handler mode, not held (R55), and not inside a rewrite (R457). -/
def Thread.placeable (t : Thread) : Bool :=
  !t.inHandler && t.body == 0 && !t.held && (t.status == .ready || t.status == .joining)

/-- The threads of a warp in bundles by address (R55). A bundle that gains no thread keeps its number. A thread keeps its clause
window, which no rule closes here (R135). -/
def Warp.regroup (w : Warp) : Warp :=
  let lanes := w.lanes.filter Thread.placeable
  let pcs := firsts (lanes.map Thread.fullPc)
  let at' (a : BitVec 64) : List Thread := lanes.filter fun t => t.fullPc == a
  let keeps (k : Nat) (a : BitVec 64) : Bool :=
    match at' a with
    | [] => true
    | t :: ts =>
      t.status == .ready && (ts.all fun u => u.status == .ready && u.bid == t.bid) &&
        !((pcs.take k).any fun b => (at' b).any fun u => u.bid == t.bid)
  { (w.mapLanes fun _ t =>
      if t.placeable then
        let k := pcs.idxOf t.fullPc
        if keeps k t.fullPc then t else { t with status := .ready, bid := w.next + k }
      else t) with next := w.next + pcs.length }

/-- Bundles parked by a switch marker go on once nothing of theirs is outstanding (R133). -/
def State.unpark (s : State) (wid : Nat) : State :=
  let w := s.warp wid
  let waits (b : Nat) : Bool := ((w.lanes.zipIdx).any fun x =>
    x.1.status == .parked && x.1.bid == b && s.outstanding wid x.2)
  s.updWarp wid fun w => w.mapLanes fun _ t =>
    if t.status == .parked && !waits t.bid then { t with status := if t.inHandler then .ready else .joining, age := s.cycle }
    else t

/-- `REGROUP_POINT` (R55, R58, R133, R394). -/
def execRegroupPoint (wid : Nat) (s : State) : Out :=
  .next (((s.unpark wid).releaseHeld wid).updWarp wid Warp.regroup)

/-- A `YIELD` is over: another bundle of the core has issued, or 32 cycles have passed (R208). -/
def yieldOver (issued since now n : Nat) : Bool := issued < n || since + 32 ≤ now

/-- `YIELD_EXPIRY` (R208). -/
def execYieldExpiry (wid : Nat) (s : State) : Out :=
  let n := (s.core (warpCore wid)).issued
  .next (s.updWarp wid fun w => w.mapLanes fun _ t => match t.status with
    | .yielded k since => if yieldOver k since s.cycle n then t.wake s.cycle else t
    | _ => t)

/-! ## Fetch -/

/-- The physical address of the routine store (R461). -/
def routineBase : Nat := 0xF000001000000

/-- What a fetch of one word comes to. -/
inductive Fetched where
  /-- its walk waits for budget (R392, R415) -/
  | stall
  | trap (t : Trap)
  | word (w : CWord)
  deriving DecidableEq, Repr

/-- `FETCH` at an address (R420). -/
def fetchTrap (info : Word) (va : BitVec 64) : Fetched := .trap ⟨causeFetch, info, va⟩

/-- One word of an instruction of a warp (R123, R124): from the routine store, not translated, in a routine (R461); else
translated for execution and read through the instruction cache, its walk and a missed line charged (R392). A mismatched word of
a cached line is fetched once more; what is still bad, and a poisoned word, raises `FETCH`. -/
def State.fetchCode (s : State) (wid : Nat) (emu : Bool) (va : Addr) : State × Fetched :=
  let core := warpCore wid
  let c := s.ctxOf wid
  let p := (s.ctx c).pitch
  let g := s.gridOf wid
  let va64 : BitVec 64 := va.zeroExtend 64
  if emu then
    let w := if routineBase ≤ va.toNat && va.toNat + 4 ≤ routineBase + 262144 then
      s.rennet.store.word (va.toNat - routineBase) else CWord.poison .zero
    (s, if w.wellFormed then .word w else fetchTrap fetchResidue va64)
  else
    let u : Access := { fetch := true, user := !g.priv }
    let b := s.codeBill core c u va.toNat
    if !s.canPay g b then (s, .stall)
    else
      let s1 := s.pay core c g b
      match s.translate core c va.toNat u with
      | .error info => (s1, fetchTrap info va64)
      | .ok pa =>
        let s2 := s1.codeLine core c p pa
        let w := s2.codeWord core p pa
        if w.wellFormed then (s2, .word w)
        else if w.poisoned then (s2, fetchTrap fetchResidue va64)
        else
          let s3 := (s2.updCore core fun k => { k with icache := k.icache.filter fun e => e.1 != pa / 128 }).codeLine
            core c p pa
          let w' := s3.codeWord core p pa
          if w'.wellFormed then (s3.corrected c core pa, .word w') else (s3, fetchTrap fetchResidue va64)

/-- The words of an instruction from the `k`-th on, up to `n` of them. -/
def State.fetchFrom (s : State) (wid : Nat) (emu : Bool) (pc : Addr) : Nat → Nat → List Word → State × Except Fetched (List Word)
  | 0, _, ws => (s, .ok ws)
  | n + 1, k, ws =>
    match s.fetchCode wid emu (pc + BitVec.ofNat 55 (4 * k)) with
    | (s1, .word w) => State.fetchFrom s1 wid emu pc n (k + 1) (ws ++ [w.data])
    | (s1, x) => (s1, .error x)

/-- The lowest active lane of the bundle. -/
def State.leader (s : State) : Thread := s.curWarp.lane ((lowestLane s.cur.mask).getD 0)

/-- The instruction words at the bundle's PC (R122, R123). A resume address with bits [63:55] not zero raises `FETCH` with
KIND 6 (R420); one that is not a multiple of 4 raises `ALIGN` (DESIGN CHOICE, log 22). -/
def State.fetch (s : State) : State × Except Fetched (List Word) :=
  let t := s.leader
  let emu := t.frames.head?.any fun f => f.emu.isSome
  if t.hi != 0 then (s, .error (fetchTrap (Access.info { fetch := true } 6 0) t.fullPc))
  else if t.pc.toNat % 4 != 0 then (s, .error (.trap (alignTrap t.fullPc)))
  else
    match s.fetchFrom s.cur.wid emu s.cur.pc 1 0 [] with
    | (s1, .ok ws) => s1.fetchFrom s.cur.wid emu s.cur.pc (wordsIn ((ws.headD 0).extractLsb' 0 2) - 1) 1 ws
    | x => x

/-- A fetch that fails traps in every active lane, with `tpc` the whole resume address (R123, R419). -/
def State.fetchFails (s : State) (t : Trap) : State :=
  let pc := s.leader.fullPc
  (s.updCore s.curCore fun c => { c with issued := c.issued + 1 }).trapLanes s.cur.wid s.cur.mask pc pc
    ((lanesOf s.cur.mask).map fun l => (l, t))

/-- `INSTRUCTION_FETCH` (R123, R124, R366): a bundle's instruction is brought into the instruction cache, or its `FETCH` is
taken. -/
def execInstructionFetch (wid bid : Nat) (s : State) : Out :=
  let s0 := s.atBundle wid bid
  if s0.cur.mask == 0 then .next s
  else
    match s0.fetch with
    | (s1, .error (.trap t)) => .next (s1.fetchFails t)
    | (s1, _) => .next s1

/-- `PAGE_WALK` (R415): a walk that a live warp of the context on the core waits for is charged to its grid and ends, and its
translation is put into the buffer; a fault is never held (R414). The access that needs the translation reports the fault. -/
def execPageWalk (core c : Nat) (va : Addr) (code : Bool) (s : State) : Out :=
  .next (match (s.liveWarps c).find? fun w => warpCore w == core with
    | none => s
    | some w =>
      let b := s.walkBill core c { fetch := code } [va.toNat]
      if s.canPay (s.gridOf w) b then s.pay core c (s.gridOf w) b else s)

/-! ## Headers and encodings that are not instructions -/

/-- An encoding that is not an instruction: `ILLEGAL` in every active lane (R141, R142). -/
def execNotAnInstruction (e : Illegal) (s : State) : Out :=
  .next (s.trapActive ⟨causeIllegal, illegalInfo e, s.pc64⟩)

/-- A clause header (R134, R135): it opens a window for the bundle. A lane that is inside a window takes `ILLEGAL` with WHY 9
(R141), and the trap closes the window of the others. -/
def execClauseHeader (h : Header) (s : State) : Out :=
  let inside := s.curWarp.maskOf fun l t => s.active l && t.window != 0
  let s1 := (s.updCore s.curCore fun c => { c with issued := c.issued + 1 }).updWarp s.cur.wid fun w =>
    w.mapLanes fun l t =>
      if s.active l then
        if inside == 0 then { t with pc := s.cur.pc + 8, window := h.cnt.toNat + 1, wmask := h.wmask }
        else { t with pc := if inside.getLsbD l then t.pc else s.cur.pc + 8, window := 0, wmask := 0 }
      else t
  .next (s1.trapLanes s.cur.wid s.cur.mask s.pc64 s.pc64
    ((lanesOf inside).map fun l => (l, ⟨causeIllegal, illegalInfo ⟨9, 3, 0, false⟩, s.pc64⟩)))

/-! ## The SFU queue -/

/-- `SFU_WRITE_BACK` (R202, R203): the oldest instruction's results of a core are written back. -/
def execSfuWriteBack (core : Nat) (s : State) : Out :=
  match (s.core core).sfu with
  | [] => .next s
  | e :: _ => .next (s.drainSfu core fun x => x.wid == e.wid && x.id == e.id)

/-- The oldest result of a core fails its check twice: it is not written, and its lane takes `RESIDUE` at the next
instruction it issues (R203). -/
def State.failSfu (s : State) (core : Nat) : State :=
  match (s.core core).sfu with
  | [] => s
  | e :: es =>
    (s.updCore core fun c => { c with sfu := es }).updWarp e.wid fun w => w.updLane e.lane fun t =>
      if t.live then { t with sfuFails := t.sfuFails ++ [e.pc] } else t

/-! ## Asynchronous entry and the time-outs -/

/-- No group of a warp is in handler mode (R338), and none is inside a rewrite, which has no bundle boundary (R457). -/
def Warp.calm (w : Warp) : Bool := w.lanes.all fun t => !t.live || (!t.inHandler && t.body == 0)

/-- A whole-warp entry is due and may proceed (R338). -/
def Warp.asyncDue (w : Warp) : Bool := !w.asyncs.isEmpty && w.calm && w.live != 0

/-- `ASYNC_ENTRY` (R338). -/
def execAsyncEntry (wid : Nat) (s : State) : Out :=
  let w := s.warp wid
  match w.asyncs with
  | [] => .next s
  | a :: as =>
    if !w.asyncDue then .next s
    else .next ((s.updWarp wid fun w => { w with asyncs := as }).enterAsync wid a)

/-- Time that a group's handler or routine may take is over (R337, R462). -/
def Frame.expired (f : Frame) (now : Nat) : Bool := f.since + Config.handlerBudget ≤ now

/-- `EMULATION_TIMEOUT` (R462): an emulation group whose time is over kills the context with reason 5. -/
def execEmulationTimeout (wid gid : Nat) (s : State) : Out :=
  if (s.warp wid).lanes.any fun t => t.live && t.frames.any fun f => f.gid == gid && f.emu.isSome && f.expired s.time then
    .next (s.kill (s.ctxOf wid) 5)
  else .next s

end Sys2Proof.Machine
end

