-- ==== Sys2Proof/Machine/Depend.lean ====
section
/-!
DEFINITION. The dependence check (R133, R202, R243, R291, R297): what an instruction that is about to issue waits for. A
result that the SFU queue holds is written back at once; a load or an engine result that is outstanding makes the bundle
stall. Also the waits of a clause header (R134, R135).
-/

namespace Sys2Proof.Machine

/-! ## Registers that an instruction touches -/

/-- Registers named by a field, each uniform or not. -/
def useRegs (u : Use) (x : BitVec 9) (uni imm : Bool) : List (Bool × Nat) :=
  match u with
  | .reg n => if imm then [] else (List.range n).map fun k => (uni, (if uni then x.toNat % 64 else x.toNat) + k)
  | _ => []

/-- An instruction with a member mask in C9 (R215). -/
def hasMask : Op → Bool
  | .vote | .shfl | .red | .scan | .matchL | .elect => true
  | _ => false

/-- Registers that an instruction reads or writes. -/
def regsUsed (op : Op) (f : Fields) : List (Bool × Nat) :=
  let fm := op.form f
  useRegs fm.d f.d f.ud false ++ useRegs fm.a f.a f.ua (fm.slot == 1 && f.im) ++
    useRegs fm.b f.b f.ub (fm.slot == 2 && f.im) ++ useRegs fm.c f.c f.uc false ++
    (if op == .bitfn then [(false, f.cN % 128)] else []) ++
    (if op == .stm || (hasMask op && !f.c.getLsbD 8) then [(true, f.cN % 64)] else [])

/-- An instruction that may read any uniform register (`MOVW`, R175), or state that the queued results change (`SYSR` and
`SYSW`, R100, R202): it waits for every SFU result of its lanes. -/
def readsAll : Op → Bool
  | .movw | .sysr | .sysw => true
  | _ => false

/-- An instruction that reads or writes predicates, its guard apart. -/
def usesPreds (op : Op) (f : Fields) : Bool :=
  match op with
  | .addc | .subb | .sel | .pcomb | .pmov | .vote | .brc | .brcx => true
  | _ => (hasMask op && f.sp != 15) || match (op.form f).d with
    | .pred | .predM => true
    | _ => false

/-! ## What is outstanding -/

/-- A result of some lanes into a destination of `n` registers meets registers that an instruction of other lanes uses. -/
def Dest.meets (d : Dest) (n : Nat) (lanes mask : Word) (rs : List (Bool × Nat)) : Bool :=
  (d.uni || lanes &&& mask != 0) && rs.any fun r =>
    r.1 == d.uni && (if d.uni then d.reg % 64 else d.reg) ≤ r.2 && r.2 < (if d.uni then d.reg % 64 else d.reg) + n

/-- The lanes of a load. -/
def Load.mask (e : Load) : Word := maskOfLanes (e.lanes.map (·.1))

/-- An engine entry that writes registers or predicates of its lanes (R134, class 5). -/
def Entry.answers (e : Entry) : Bool := e.op == .mrd || e.op == .crd || e.op == .mchk

/-- A write, an atomic, a release or a fence: it is performed after every earlier load of its lane has returned (R307, R309,
R310, R312). -/
def afterLoads : Op → Bool
  | .st | .sts | .stp | .str | .stm | .atom | .atoms | .cas | .cass | .radd | .raddg | .bari | .bara | .bars | .barx | .post
  | .launch | .fence | .mwait => true
  | _ => false

/-- An instruction that reaches memory, itself or by an engine: it follows an acquire of its lane (R310, rule 2). -/
def reachesMemory : Op → Bool
  | .ld | .lds | .ldr | .ldp | .ldu | .kick | .gath | .acc | .cmo | .hbind | .waitC | .mlds | .mmul | .mcnt | .mst | .mstBank
  | .mlda | .cmerge | .mdrain | .cdrain | .msave | .mrest => true
  | op => afterLoads op

/-- An outstanding load of a lane of the bundle that an instruction has to follow in memory order. -/
def State.unordered (s : State) (op : Op) : Bool :=
  s.curWarp.loads.any fun e =>
    e.2.mask &&& s.cur.mask != 0 && (afterLoads op || (e.2.acq != 0 && reachesMemory op))

/-- The handles that an instruction uses or binds. -/
def handlesUsed (op : Op) (f : Fields) : List Nat :=
  match op with
  | .mlds | .mmul | .mcnt | .mlda | .mst | .mdrain => [f.a.toNat % 16]
  | .acc => [f.d.toNat % 16, f.a.toNat % 16]
  | .hbind => [f.d.toNat % 16]
  | _ => []

/-- A tile store that will give a handle its tile's bias is still queued: later instructions of the workgroup that use the handle
see the new bias (R290). -/
def State.handleBusy (s : State) (op : Op) (f : Fields) : Bool :=
  (s.core s.curCore).engine.queue.any fun e =>
    wgKey e.wid == wgKey s.cur.wid && (e.op == .mst || e.op == .mdrain) && e.f.rb &&
      (handlesUsed op f).contains (e.f.a.toNat % 16)

/-- An outstanding load or engine result stands in the way of an instruction of the bundle. -/
def State.blocked (s : State) (op : Op) (f : Fields) : Bool :=
  let rs := regsUsed op f
  let m := s.cur.mask
  s.handleBusy op f ||
  (s.curWarp.loads.any fun e =>
    e.2.dst.meets (szRegs e.2.sz) e.2.mask m rs || (op == .movw && e.2.dst.uni)) ||
  ((s.core s.curCore).engine.queue.any fun e => e.wid == s.cur.wid && e.answers &&
    if e.op == .mchk then e.lanes &&& m != 0 && (usesPreds op f || f.g.toNat / 2 * 2 == e.f.d.toNat % 16)
    else Dest.meets ⟨e.f.ud, e.f.d.toNat⟩ 1 e.lanes m rs || (op == .movw && e.f.ud))

/-- The SFU results of the bundle's warp written back up to the last one that a test names: in issue order (R202). -/
def State.drainUpTo (s : State) (p : SfuEntry → Bool) : State :=
  match (((s.core s.curCore).sfu.filter fun e => e.wid == s.cur.wid && p e).map (·.id)).getLast? with
  | none => s
  | some k => s.drainSfu s.curCore fun e => e.wid == s.cur.wid && e.id ≤ k

/-- The dependence check of an instruction: the queued SFU results it depends on are written back (R202), and it stalls
behind an outstanding load or engine result. -/
def State.depend (s : State) (op : Op) (f : Fields) : Option State :=
  if s.blocked op f || s.unordered op then none
  else
    let rs := regsUsed op f
    some (s.drainUpTo fun e =>
      (readsAll op && (s.active e.lane || e.dst.uni)) ||
        Dest.meets e.dst 1 (maskOfLanes [e.lane]) s.cur.mask rs)

/-- The dependence check of any instruction. -/
def State.dependOn (s : State) (i : Instr) : Option State :=
  match i.view with
  | .full op f => s.depend op f
  | .compact op c => s.depend op.op (c.expand op.unary)
  | .header _ | .event => some s

/-! ## Clause waits -/

/-- The result class of a place that a load reads (R134): 2 the own scratchpad, 3 memory, 4 another member's scratchpad. -/
def Place.waitClass (p : Place) (wid : Nat) : Nat :=
  match p with
  | .pad k _ => if k == wgKey wid then 2 else 4
  | .global _ _ => 3

/-- The wait of a clause header before the first instruction of its window (R135): stalled, or the state with the SFU
results of class 1 written back. Classes 0, 6 and 7 have nothing outstanding here: their results are written at issue. -/
def State.clauseWait (s : State) (mask : BitVec 16) : Option State :=
  let m := s.cur.mask
  if s.curWarp.loads.any fun e => e.2.mask &&& m != 0 && e.2.lanes.any fun x => mask.getLsbD (x.2.waitClass s.cur.wid) then
    none
  else if mask.getLsbD 5 && (s.core s.curCore).engine.queue.any fun e =>
      e.wid == s.cur.wid && e.answers && e.lanes &&& m != 0 then none
  else if mask.getLsbD 1 then some (s.drainUpTo fun e => s.active e.lane)
  else some s

end Sys2Proof.Machine
end

