-- ==== Sys2Proof/Machine/MemAccess.lean ====
section
/-!
DEFINITION. Thread loads and stores (R239–R249), with the injections of ICLS 0, 2 and 5 (R120).
-/

namespace Sys2Proof.Machine

/-! ## What each lane reaches -/

/-- Each lane's answer split: the traps, and the lanes that reached something. -/
def splitLanes {α : Type} : List (Nat × Except Trap α) → List (Nat × Trap) × List (Nat × α)
  | [] => ([], [])
  | (l, .error t) :: xs => let (ts, os) := splitLanes xs; ((l, t) :: ts, os)
  | (l, .ok x) :: xs => let (ts, os) := splitLanes xs; (ts, (l, x) :: os)

/-- The global addresses of a list of places. -/
def globalsOf (ps : List Place) : List Nat := ps.filterMap fun p => match p with
  | .global va _ => some va.toNat
  | .pad _ _ => none


/-- The global addresses at which lanes trapped after the translation had been asked for (R241). -/
def faultVas (op : Op) (ts : List (Nat × Trap)) : List Nat :=
  match op with
  | .lds | .sts | .ldr | .str | .stm | .atoms | .cass | .radd => []
  | _ => ts.filterMap fun x => if x.2.cause = causePage || x.2.cause = causeRangelock then some x.2.addr.toNat else none

/-- The address of LD, ST and PREF (R241). -/
def globalAddr (i : Ins) : BitVec 64 := pairOf i.a + (w0 i.b).signExtend 64

/-- The offset of LDS, STS and STM (R241). -/
def padAddr (i : Ins) : Nat := (w0 i.a + w0 i.b).toNat

/-- The pool index of LDP and STP (R239, R241). -/
def poolIndex (f : Fields) : Nat := f.pix * 512 + f.a.toNat

/-- The record that a pool form reads (R38), as the address of an access. -/
def State.recordVas (s : State) (op : Op) (f : Fields) : List Nat :=
  match op with
  | .ldp | .stp => if (s.gridOf s.cur.wid).pooln ≤ poolIndex f || s.qualifying f.g == 0 then []
    else [((s.gridOf s.cur.wid).pool + BitVec.ofNat 64 (32 * poolIndex f)).toNat]
  | _ => []

/-- Where a lane of a load or store acts, by the form (R241). -/
def State.placeOf (s : State) (op : Op) (f : Fields) (write : Bool) (i : Ins) : Except Trap Place :=
  let size := szBytes f.sz
  match op with
  | .lds | .sts => s.reachPad (padAddr i) size write
  | .ldr =>
    match s.reachRemote (w0 i.a) (w0 i.b).toInt size write with
    | .error t => .error t
    | .ok (m, off) => .ok (.pad m.key off)
  | .ldp | .stp => s.reachPool (poolIndex f) (w0 i.b).toNat size write
  | _ => s.reach (globalAddr i) size write

/-! ## Loads (R243, R245) -/

/-- The class of a load's result (R243). -/
def loadClass (sz : Nat) : RClass := if sz < 4 then .p else .c

/-- The lanes of a bundle as results: traps, words loaded, and lanes that only continue. -/
def laneResults (mask : Word) (ts : List (Nat × Trap)) (rs : List (Nat × List CWord)) : List Lane :=
  (List.range 32).map fun l =>
    if !mask.getLsbD l then .idle
    else
      match ts.find? fun x => x.1 == l with
      | some x => .trap x.2
      | none =>
        match rs.find? fun x => x.1 == l with
        | some x => .done { dst := x.2 }
        | none => .skip

/-- The physical addresses at which a load misses L1 and fills a line of it. -/
def State.fillsOf (s : State) (f : Fields) (ps : List Place) : List Nat :=
  ps.filterMap fun p => match p with
    | .global _ pa => if cacheable pa && f.cCh != 2 && !(s.core s.curCore).hits pa (szBytes f.sz) then some pa else none
    | .pad _ _ => none

/-- An L1 fill under an armed ICLS 5 injection (R113, R120): before the check it is fetched again, a corrected event with no
other effect; after the check a word of the filled line is flipped. -/
def State.fillInjection (s : State) (fills : List Nat) : State :=
  match (s.core s.curCore).injection 5 s.curCtx, fills with
  | some j, pa :: _ =>
    let s1 := s.updCore s.curCore Core.fired
    let a := pa / 128 * 128 + 4 * j.lane
    if j.after then s1.updCore s.curCore fun c => match c.clean.get? a with
      | some w => { c with clean := c.clean.put a (flipWord w j.bit j.rfld) }
      | none => c
    else s1.corrected s.curCtx s.curCore 0
  | _, _ => s

/-- The acquire scope of a load form (R240), or 0. -/
def acqScope (f : Fields) : Nat := if f.cOrd = 1 then f.cScope else 0

/-- A load of each lane: global lines are filled into L1, the words read, and an acquire clears the clean words of L1 (R361,
R362). While a scratchpad line that it reads is empty, or an outstanding load of a lane reads the same bytes, it stays outstanding,
and all its lanes read when that is over (R242, R245, R308). It waits behind an own remote write to a place that it reads.
`count` marks the deprecated form (R139). -/
def load (op : Op) (count : Bool) (f : Fields) (s : State) : Out :=
  s.issue op f [] fun s =>
    let (ins, bad) := s.gather f (onceSources op f s)
    let (ts, oks) := splitLanes (ins.map fun i => (i.l, s.placeOf op f false i))
    match s.chargeAccess false (s.recordVas op f) (faultVas op ts) (globalsOf (oks.map (·.2))) with
    | none => .next s
    | some s0 =>
      if oks.any fun x => s.behindOwn x.1 x.2 (szBytes f.sz) then .next s
      else if oks.all (fun x => s0.readable x.2) && !s.curWarp.behindLoad s.curWarp.next (szBytes f.sz) oks then
        let s1 := oks.foldl (fun s x => s.fillFor s.curCore s.curCtx (szBytes f.sz) f.cCh x.2) s0
        let (us, rs) := splitLanes (oks.map fun x => (x.1, s1.loadFrom s1.curCore s1.curCtx s1.curPriv x.2 f.sz))
        let k := loadClass f.sz
        let raw := laneResults s.cur.mask (bad ++ ts ++ us) rs
        let j := s1.shot f k raw
        let xs := s1.verify k true j raw
        let s2 := ((s1.afterInjection j).fillInjection (s0.fillsOf f (oks.map (·.2)))).acquireAt s.curCore
          (if oks.isEmpty then 0 else acqScope f)
        .next ((if count then s2.deprecated s.curCtx (doneLanes xs) else s2).commit f xs)
      else
        let j := s0.shot f (loadClass f.sz) (laneResults s.cur.mask (bad ++ ts) (oks.map fun x => (x.1, [.zero])))
        let e : Load := { lanes := oks, sz := f.sz, dst := ⟨f.ud, f.d.toNat⟩, pc := s.cur.pc, acq := acqScope f, flip := j }
        let s2 := (s0.afterInjection j).updWarp s.cur.wid fun w => { w with loads := w.loads.put w.next e, next := w.next + 1 }
        .next ((if count then s2.deprecated s.curCtx oks.length else s2).advanceBut f (bad ++ ts))

/-- `LD` (R241, R243). -/
def execLd (f : Fields) (s : State) : Out := load .ld false f s
/-- `LDS` (R241, R243). -/
def execLds (f : Fields) (s : State) : Out := load .lds false f s
/-- `LDR` (R241, R243). -/
def execLdr (f : Fields) (s : State) : Out := load .ldr false f s
/-- `LDP` (R241, R243). -/
def execLdp (f : Fields) (s : State) : Out := load .ldp false f s
/-- `LDU` (R248): as `LD.B32` with UD = 1, counted (R139). -/
def execLdu (f : Fields) (s : State) : Out := load .ldu true f s

/-- What a returned load writes in a lane: its words after the check of its class, with the injection that it took (R107, R120). -/
def Load.verified (e : Load) (l : Nat) (ws : List CWord) : Except Trap (List CWord) :=
  let x : Lane := .done { dst := ws }
  match (match e.flip.filter fun j => j.lane == l with
    | some j => x.struck (loadClass e.sz) true j (e.pc.zeroExtend 64)
    | none => x.checked (loadClass e.sz) true false (e.pc.zeroExtend 64)) with
  | .done r => .ok r.dst
  | .trap t => .error t
  | _ => .ok ws

/-- A load that returns (R243, R245): every lane's words are read, checked and written; a bad word traps in its lane with
`tpc` the load's address. Nothing happens while a line is empty or an earlier load of the same bytes is outstanding. -/
def State.returnLoad (s : State) (wid n : Nat) : State :=
  match (s.warp wid).loads.get? n with
  | none => s
  | some e =>
    if e.lanes.any (fun x => !s.readable x.2) || (s.warp wid).behindLoad n (szBytes e.sz) e.lanes then s
    else
      let priv := (s.gridOf wid).priv
      let w := s.warp wid
      let live := e.lanes.filter fun x => (w.lane x.1).live
      let (ts, rs) := splitLanes (live.map fun x =>
        (x.1, (s.loadFrom (warpCore wid) (s.ctxOf wid) priv x.2 e.sz).bind (e.verified x.1)))
      let s1 := s.updWarp wid fun w =>
        let w1 := { w with loads := w.loads.erase n }
        match e.dst.uni, rs with
        | true, r :: _ => w1.setWregs (e.dst.reg % 64) r.2
        | true, [] => w1
        | false, _ => w1.mapLanes fun l t => match rs.find? fun x => x.1 == l with
          | some x => t.setRegs e.dst.reg x.2
          | none => t
      (s1.acquireAt (warpCore wid) e.acq).trapLanes wid (maskOfLanes (e.lanes.map (·.1))) (e.pc.zeroExtend 64)
        (e.pc.zeroExtend 64) ts

/-- `LOAD_RETURN` (R243). -/
def execLoadReturn (wid n : Nat) (s : State) : Out := .next (s.returnLoad wid n)

/-! ## Stores (R244) -/

/-- One bit of a stored word flipped after the write (ICLS 5, WHERE 1, R120): word `lane` of the 128-byte line. -/
def State.flipStored (s : State) (p : Place) (j : Inj) : State :=
  match p with
  | .pad k off =>
    let a := off / 128 * 128 + 4 * j.lane
    s.updWg k fun g => { g with pad := g.pad.setWord a (flipWord (g.pad.word a) j.bit j.rfld) }
  | .global _ pa =>
    let a := pa / 128 * 128 + 4 * j.lane
    s.updCore s.curCore fun c => match c.dirty.get? a with
      | some d => { c with dirty := c.dirty.put a { d with word := flipWord d.word j.bit j.rfld } }
      | none => match c.clean.get? a with
        | some w => { c with clean := c.clean.put a (flipWord w j.bit j.rfld) }
        | none => c

/-- `RESIDUE` of an injection found at a class-C write (R120). -/
def injTrap (pc : BitVec 64) : Trap := ⟨causeResidue, residueInfo 4 2 true false, pc⟩

/-- Word of its 128-byte line that a place begins in. -/
def Place.lineWord : Place → Nat
  | .pad _ off => off / 4 % 32
  | .global _ pa => pa / 4 % 32

/-- A store to a place writes a line of the core's SRAM: the scratchpad or L1 (R119, R361). -/
def Place.inSram (f : Fields) : Place → Bool
  | .pad _ _ => true
  | .global _ pa => cacheable pa && f.cCh != 2

/-- An armed injection that a store takes (R120), as a trap or as the place of the word to flip after the write: of ICLS 5, the
first lane that writes word LANE of a line; of ICLS 0, the sub-word store of lane LANE, which is class P (R107). -/
def State.storeInjection (s : State) (f : Fields) (size : Nat) (ps : List (Nat × Place)) :
    List (Nat × Trap) × Option (Nat × Place × Inj) :=
  let take (j : Inj) (cls : Nat) (x : Nat × Place) : List (Nat × Trap) × Option (Nat × Place × Inj) :=
    if j.after then ([], some (x.1, x.2, { j with lane := if cls = 0 then x.2.lineWord else j.lane }))
    else ([(x.1, ⟨causeResidue, residueInfo 4 cls true false, s.pc64⟩)], none)
  match (s.core s.curCore).injection 5 s.curCtx, s.injection 0 f.g with
  | some j, _ =>
    match ps.find? fun x => x.2.inSram f && (List.range (max 1 (size / 4))).any fun i => x.2.lineWord + i == j.lane with
    | some x => take j 2 x
    | none => ([], none)
  | none, some j =>
    match ps.find? fun x => size < 4 && x.1 == j.lane with
    | some x => take j 0 x
    | none => ([], none)
  | none, none => ([], none)

/-- The stores of lanes in ascending order, so that the highest lane's bytes remain (R242), with an injection (R120).
`put` stores one lane's words at what it reached. -/
def State.storeAll {α : Type} (s : State) (f : Fields) (bad : List (Nat × Trap)) (oks : List (Nat × α))
    (own : α → Option Place) (put : State → Nat → α → State) : State :=
  let (its, flip) := s.storeInjection f (szBytes f.sz) (oks.filterMap fun x => (own x.2).map fun p => (x.1, p))
  let s1 := if !its.isEmpty || flip.isSome then s.updCore s.curCore Core.fired else s
  let go := oks.filter fun x => its.all fun y => y.1 != x.1
  let s2 := go.foldl (fun s x => put s x.1 x.2) s1
  let s3 := match flip with
    | none => s2
    | some (_, p, j) => s2.flipStored p j
  s3.advanceBut f (bad ++ its)

/-- A store of each lane: it waits behind an own remote write to its place (R308), then a release where the form has one (R244,
R255). -/
def store {α : Type} (op : Op) (scope : Nat) (src : Fields → State → Thread → List Source)
    (place : State → Ins → Except Trap α) (vas : List α → List Nat) (own : α → Option Place)
    (put : State → Nat → List CWord → α → State) (f : Fields) (s : State) : Out :=
  s.issue op f [] fun s =>
    let (ins, bad) := s.gather f (src f s)
    let (ts, oks) := splitLanes (ins.map fun i => (i.l, place s i))
    let data (l : Nat) : List CWord := match ins.find? fun i => i.l == l with
      | some i => i.d
      | none => []
    if oks.any fun x => (own x.2).any fun p => s.behindOwn x.1 p (szBytes f.sz) then .next s
    else match s.releaseAt (if oks.isEmpty then 0 else scope) with
    | none => .next s
    | some (s1, some t) => .next (s1.advanceBut f (bad ++ ts ++ oks.map fun x => (x.1, t)))
    | some (s1, none) =>
      match s1.chargeAccess true (s.recordVas op f) (faultVas op ts) (vas (oks.map (·.2))) with
      | none => .next s
      | some s2 => .next (s2.storeAll f (bad ++ ts) oks own fun st l x => put st l (data l) x)

/-- The sources of a store: the form's, and its data in the D field at SITE 3, which R116 gives an old destination (DESIGN CHOICE, log
34). -/
def storeSources (op : Op) (f : Fields) (s : State) (t : Thread) : List Source := sources op f s.curWarp t true

/-- The release scope of a store form (R240). -/
def relScope (f : Fields) : Nat := if f.cOrd = 1 then f.cScope else 0

/-- A store of a lane to a place it reached. -/
def plainStore (op : Op) (f : Fields) (s : State) : Out :=
  store op (relScope f) (storeSources op) (fun s i => s.placeOf op f true i) globalsOf some
    (fun s _ ws p => s.storeTo p (szBytes f.sz) (f.cCh == 2) ws) f s

/-- `ST` (R241, R244). -/
def execSt (f : Fields) (s : State) : Out := plainStore .st f s
/-- `STS` (R241, R244). -/
def execSts (f : Fields) (s : State) : Out := plainStore .sts f s
/-- `STP` (R241, R244). -/
def execStp (f : Fields) (s : State) : Out := plainStore .stp f s

/-- A store to a gang member's scratchpad: the own one at once, another by a packet that carries its generation (R246,
R364). -/
def State.storeRemote (s : State) (m : GangEntry) (l off size : Nat) (ws : List CWord) : State :=
  if m.key = wgKey s.cur.wid then s.storeTo (.pad m.key off) size false ws
  else s.send s.cur.wid l (coreEndpoint (coreOf m.key)) (.store m.key m.gen off size ws)

/-- The own scratchpad place of a remote target. -/
def ownTarget (k : Nat) (x : GangEntry × Nat) : Option Place := if x.1.key = k then some (.pad k x.2) else none

/-- `STR` (R241, R246). -/
def execStr (f : Fields) (s : State) : Out :=
  store .str (relScope f) (storeSources .str)
    (fun s i => s.reachRemote (w0 i.a) (w0 i.b).toInt (szBytes f.sz) true) (fun _ => []) (ownTarget (wgKey s.cur.wid))
    (fun s l ws x => s.storeRemote x.1 l x.2 (szBytes f.sz) ws) f s

/-- The sources of `STM`: the form's, the data, and the mask register (R247). -/
def stmSources (f : Fields) (s : State) (t : Thread) : List Source :=
  storeSources .stm f s t ++ [⟨[s.curWarp.wreg (f.cN % 64)], 6⟩]

/-- The targets of `STM` for a lane (R247): `ALIGN`, the mask, each rank's window, and the own range locks. -/
def State.reachMany (s : State) (off size : Nat) (mask : Nat) : Except Trap (List GangEntry × Nat) :=
  let g := s.curWg.gang
  let ranks := (List.range 16).filter mask.testBit
  let ms := ranks.filterMap fun r => g[r]?
  if off % size != 0 then .error (alignTrap (addr32 off))
  else if ranks.isEmpty || ranks.any (fun r => g.length ≤ r) then .error ⟨causeData, dataInfo 20 0, addr32 off⟩
  else
    match ranks.find? fun r => match g[r]? with
      | some m => (s.wg m.key).spad < off + size
      | none => true with
    | some r => .error ⟨causeData, dataInfo 6 r, addr32 off⟩
    | none =>
      if ms.any fun m => m.key == wgKey s.cur.wid then
        match s.lockTrap true off size true (addr32 off) with
        | .error t => .error t
        | .ok () => .ok (ms, off)
      else .ok (ms, off)

/-- `STM` (R247). -/
def execStm (f : Fields) (s : State) : Out :=
  let k := wgKey s.cur.wid
  store .stm 0 stmSources
    (fun s i => s.reachMany (padAddr i) (szBytes f.sz) ((s.curWarp.wreg (f.cN % 64)).data.toNat % 65536)) (fun _ => [])
    (fun x => if x.1.any (fun m => m.key == k) then some (.pad k x.2) else none)
    (fun s l ws x => x.1.foldl (fun s m => s.storeRemote m l x.2 (szBytes f.sz) ws) s) f s

/-- The lines that `PREF` requests, one for each lane's address that can be reached (R249): brought into L1 or accessed at
their L2 slices, unless a budget of the region is exhausted. -/
def State.prefetchData (s : State) (f : Fields) (ins : List Ins) : State :=
  let ps := ins.filterMap fun i => match s.reach (globalAddr i) 1 false with
    | .ok (.global ea pa) => some (ea, pa)
    | _ => none
  match s.chargeAccess false [] [] (ps.map fun x => x.1.toNat) with
  | none => s
  | some s1 => ps.foldl (fun s x =>
      if f.d.toNat % 4 = 0 then s.fillFor s.curCore s.curCtx 1 0 (.global x.1 x.2) else s.l2Access x.2) s1

/-- `PREF` (R249): no architectural state changes but what the caches hold. -/
def execPref (f : Fields) (s : State) : Out :=
  s.once .pref f [] false (onceSources .pref f) fun s _ ins => .done (s.prefetchData f ins)

end Sys2Proof.Machine
end

