-- ==== Sys2Proof/Machine/Atomic.lean ====
section
/-!
DEFINITION. Atomics and remote adds (R250–R253, R361, R115, R120).
-/

namespace Sys2Proof.Machine

/-! ## The operations (R251–R253) -/

/-- A float function of two 32-bit words on a format: the whole word for binary32, each half otherwise. -/
def onWords (F : Ieee) (g : Nat → Nat → Nat) (x y : Word) : Word :=
  if F.width = 32 then BitVec.ofNat 32 (g x.toNat y.toNat)
  else BitVec.ofNat 32 (g (x.toNat % 2 ^ 16) (y.toNat % 2 ^ 16) % 2 ^ 16 +
    g (x.toNat / 2 ^ 16) (y.toNat / 2 ^ 16) % 2 ^ 16 * 2 ^ 16)

/-- `round_rne(x + y × 2^e)` in a format (R253, R96). -/
def addScaled (F : Ieee) (e : Int) (x y : Nat) : Nat := (roundTo F 0 (addX 0 (F.decode x) ((F.decode y).scale e)).1).1

/-- A 64-bit value of two words. -/
def wide (ws : List Word) : BitVec 64 := ws.getD 1 0 ++ ws.getD 0 0

/-- The words of a 64-bit value. -/
def narrow (v : BitVec 64) : List Word := [v.extractLsb' 0 32, v.extractLsb' 32 32]

/-- f(old, b) of the atomic operations (R251). -/
def atomFn (code : Nat) (old b : List Word) : List Word :=
  let x := old.headD 0
  let y := b.headD 0
  match code with
  | 0 => [x + y]
  | 1 => [x - y]
  | 2 => [if y.toInt < x.toInt then y else x]
  | 3 => [if x.toInt < y.toInt then y else x]
  | 4 => [if y.toNat < x.toNat then y else x]
  | 5 => [if x.toNat < y.toNat then y else x]
  | 6 => [x &&& y]
  | 7 => [x ||| y]
  | 8 => [x ^^^ y]
  | 9 => [y]
  | 10 => [if y.toNat ≤ x.toNat then 0 else x + 1]
  | 11 => [if x == 0 || y.toNat < x.toNat then y else x - 1]
  | 12 => [onWords .f32 (addScaled .f32 0) x y]
  | 13 => [onWords .f32 (fun p q => (minMaxBits false false .f32 p q 0).1) x y]
  | 14 => [onWords .f32 (fun p q => (minMaxBits true false .f32 p q 0).1) x y]
  | 15 => [onWords .bf16 (addScaled .bf16 0) x y]
  | 16 => [onWords .f16 (addScaled .f16 0) x y]
  | 17 => narrow (wide old + wide b)
  | _ => b.take 2

/-- The new words of a compare and swap (R252). -/
def casFn (old b c : List Word) : List Word := if old == b then c else old

/-- The sum of a remote add (R253). -/
def raddFn (code : Nat) (e : Int) (old b : List Word) : List Word :=
  let x := old.headD 0
  let y := b.headD 0
  match code with
  | 0 => [x + y]
  | 1 => [onWords .f32 (addScaled .f32 e) x y]
  | 2 => [onWords .bf16 (addScaled .bf16 e) x y]
  | 3 => [onWords .f16 (addScaled .f16 e) x y]
  | _ => narrow (wide old + wide b)

/-! ## Atomics -/

/-- What an atomic does to the issuing core's L1 (R361): the line's dirty words are written back and its valid bits cleared;
the home slice is accessed. -/
def State.homeOwn (s : State) (core pa : Nat) : State :=
  ((s.writeBacks core (s.dirtyInLine core pa)).updCore core fun c => c.dropCleanLine (pa / 128)).l2Access pa

/-- The words of an atomic's place: a global line first leaves the core's L1 (R361). -/
def State.atomRead (s : State) (p : Place) (size : Nat) : State × List CWord :=
  match p with
  | .pad k off => (s, (s.wg k).pad.words off (size / 4))
  | .global _ pa =>
    let s1 := s.homeOwn s.curCore pa
    (s1, (List.range (size / 4)).map fun i => s1.physWord (s.ctx s.curCtx).pitch s.curPriv (pa + 4 * i))

/-- Words written by an atomic at its place. -/
def State.atomWrite (s : State) (p : Place) (ws : List CWord) : State :=
  match p with
  | .pad k off => s.updWg k fun g => g.store off (4 * ws.length) ws
  | .global ea pa => s.physWrites (s.issuer ea) ((ws.zipIdx).map fun x => (pa + 4 * x.2, x.1))

/-- One lane's atomic step (R251): the old words, or the trap of a bad word, which leaves memory unchanged (R115). -/
def State.atomStep (s : State) (p : Place) (size : Nat) (g : List Word → List Word) : Except Trap (State × List CWord) :=
  let (s1, ws) := s.atomRead p size
  match badWord ws 7 2 p.addr with
  | some t => .error t
  | none =>
    let old := ws.map (·.data)
    let new := g old
    .ok (if new == old then s1 else s1.atomWrite p (new.map .gen), ws)

/-- Lanes of one bundle in ascending order, each seeing what the lane before left (R251); `pre` is the trap of a lane whose write
an injection strikes before its check (R120). -/
def State.atomLanes (s : State) (size : Nat) (g : Nat → List Word → List Word) (pre : Nat → Option Trap)
    (oks : List (Nat × Place)) : State × List (Nat × Trap) × List (Nat × List CWord) :=
  oks.foldl (fun acc x =>
    match acc.1.atomStep x.2 size (g x.1), pre x.1 with
    | .error t, _ => (acc.1, acc.2.1 ++ [(x.1, t)], acc.2.2)
    | .ok _, some t => (acc.1, acc.2.1 ++ [(x.1, t)], acc.2.2)
    | .ok (s', ws), none => (s', acc.2.1, acc.2.2 ++ [(x.1, ws)])) (s, [], [])

/-- An atomic of each lane (R250–R252): the address checks, a release, the steps, and the old value to D. -/
def atomic (op : Op) (pad : Bool) (size : Nat) (g : Ins → List Word → List Word) (f : Fields) (s : State) : Out :=
  s.issue op f [] fun s =>
    let (ins, bad) := s.gather f (onceSources op f s)
    let (ts, oks) := splitLanes (ins.map fun i => (i.l, if pad then s.reachPad (w0 i.a).toNat size true
      else s.reach (pairOf i.a) size true))
    if oks.any fun x => !s.readable x.2 || s.behindOwn x.1 x.2 size then .next s
    else
      match s.releaseAt (if oks.isEmpty || f.ord < 2 then 0 else f.scope) with
      | none => .next s
      | some (s1, some t) => .next (s1.advanceBut f (bad ++ ts ++ oks.map fun x => (x.1, t)))
      | some (s1, none) =>
        match s1.chargeAccess true [] (faultVas op ts) (globalsOf (oks.map (·.2))) true with
        | none => .next s
        | some s2 =>
          let inj := if f.nr then none else s2.injection 2 f.g
          let (its, flip) := if pad then s2.storeInjection f size oks else ([], none)
          let pre (l : Nat) : Option Trap :=
            if its.any (fun y => y.1 == l) || inj.any (fun j => !j.after && j.lane == l) then some (injTrap s.pc64) else none
          let gl (l : Nat) : List Word → List Word := match ins.find? fun i => i.l == l with
            | some i => g i
            | none => id
          let (s4, us, rs) := s2.atomLanes size gl pre oks
          let ran (l : Nat) : Bool := rs.any fun x => x.1 == l
          let after := inj.filter fun j => j.after && ran j.lane
          let flip := flip.filter fun x => ran x.1
          let s5 := match flip with
            | some (_, p, j) => s4.flipStored p j
            | none => s4
          let s6 := if us.any (fun x => x.2 == injTrap s.pc64) || after.isSome || flip.isSome then
              s5.updCore s.curCore Core.fired else s5
          let xs := s6.verify .c false after (laneResults s.cur.mask (bad ++ ts ++ us)
            (rs.map fun x => (x.1, if f.nr then [] else x.2)))
          .next ((s6.acquireAt s.curCore (if f.ord % 2 = 1 && !oks.isEmpty then f.scope else 0)).commit f xs)

/-- Operand words. -/
def datas (ws : List CWord) : List Word := ws.map (·.data)

/-- Bytes of an atomic operation (R251). -/
def atomSize (f : Fields) : Nat := if aop64 (f.cN % 32) then 8 else 4

/-- `ATOM` (R251). -/
def execAtom (f : Fields) (s : State) : Out :=
  atomic .atom false (atomSize f) (fun i old => atomFn (f.cN % 32) old (datas i.b)) f s
/-- `ATOMS` (R251). -/
def execAtoms (f : Fields) (s : State) : Out :=
  atomic .atoms true (atomSize f) (fun i old => atomFn (f.cN % 32) old (datas i.b)) f s

/-- Bytes of a compare and swap (R252). -/
def casSize (f : Fields) : Nat := if f.im then 8 else 4

/-- `CAS` (R252). -/
def execCas (f : Fields) (s : State) : Out :=
  atomic .cas false (casSize f) (fun i old => casFn old (datas i.b) (datas i.c)) f s
/-- `CASS` (R252). -/
def execCass (f : Fields) (s : State) : Out :=
  atomic .cass true (casSize f) (fun i old => casFn old (datas i.b) (datas i.c)) f s

/-! ## Remote adds (R253) -/

/-- The rescale exponent of a remote add (R253): D9, or a uniform register; out of range, or nonzero for an integer op, is
`DATA` in each lane whose address is aligned (R241, R250). -/
def State.rescale (s : State) (f : Fields) : Except Trap Int :=
  let int := f.cN % 8 == 0 || f.cN % 8 == 4
  if !f.ud then .ok f.d.toInt
  else
    let e := (s.curWarp.wreg (f.d.toNat % 64)).data.toInt
    if e < -255 || 255 < e || (int && e != 0) then .error ⟨causeData, dataInfo 3 0, s.pc64⟩ else .ok e

/-- What a lane of a remote add comes to: `ALIGN`, then `DATA` of the exponent, then the other checks of its address (R241,
R253). -/
def addTarget {α : Type} (e : Except Trap Int) (x : Except Trap α) : Except Trap (Int × α) :=
  match e, x with
  | .ok n, .ok a => .ok (n, a)
  | .ok _, .error t => .error t
  | .error t, .ok _ => .error t
  | .error t, .error u => .error (if u.cause = causeAlign then u else t)

/-- The lanes of a bundle in an order that the free values from `n` on choose (R104, R253; DESIGN CHOICE, log 104): any order is
possible. -/
def anyOrder {α : Type} (n : Nat) : List α → List α
  | [] => []
  | x :: xs => (anyOrder (n + 1) xs).insertIdx ((Config.freeWord n).toNat % (xs.length + 1)) x

/-- Bytes of a remote add. -/
def raddSize (f : Fields) : Nat := if f.cN % 8 = 4 then 8 else 4

/-- The sources of a remote add: the form's, and a uniform exponent (R253). -/
def raddSources (op : Op) (f : Fields) (s : State) (t : Thread) : List Source :=
  sources op f s.curWarp t false ++ (if f.ud then [⟨[s.curWarp.wreg (f.d.toNat % 64)], 6⟩] else [])

/-- What a remote add does to the words of its target: the sum; a bad word is poisoned or stays poisoned (R115), and the
flag asks for `UCERR`. -/
def raddWords (code : Nat) (e : Int) (old b : List CWord) : List CWord × Bool :=
  if old.any (fun w => !w.wellFormed) then (old.map fun w => if w.mismatched then .poison w else w, true)
  else ((raddFn code e (datas old) (datas b)).map .gen, false)

/-- POISON of an error record (R452): a remote add has poisoned a word of its target. -/
def poisonFlag (old : List CWord) : BitVec 5 := if old.any (·.mismatched) then 0b01000 else 0

/-- A remote add performed in a scratchpad (R253, R115); `core` and `wid` name the sender. -/
def State.padAdd (s : State) (core ctx wid k off : Nat) (code : Nat) (b : List CWord) (e : Int) : State :=
  let n := b.length
  let old := (s.wg k).pad.words off n
  let (ws, bad) := raddWords code e old b
  let s1 := s.updWg k fun g => g.store off (4 * n) ws
  if bad then s1.ucerr ctx core (some wid) 1 6 0 (addr32 off) 0 (poisonFlag old) (coreOf k) else s1

/-- A remote add performed in global memory at the home slice; one that cannot be performed is dropped and reported (R367). -/
def State.memAdd (s : State) (who : Issuer) (pa : Nat) (code : Nat) (b : List CWord) (e : Int) : State :=
  let n := b.length
  let p := s.pitchOf who
  let old := (List.range n).map fun i => s.mem.word (pa + 4 * i)
  let read := (List.range n).map fun i => s.physWord p who.priv (pa + 4 * i)
  let (ws, bad) := raddWords code e read b
  let s1 := (s.l2Access pa).physWrites who ((ws.zipIdx).map fun x => (pa + 4 * x.2, x.1))
  if bad && (s.physRefused p who.priv pa true).isNone then s1.ucerr who.ctx who.core who.wid 1 6 pa who.va 0 (poisonFlag old)
  else s1

/-- The checked operands of a remote add by lane. -/
def raddB (f : Fields) (i : Ins) : List CWord := i.b.take (if f.cN % 8 = 4 then 2 else 1)

/-- A remote add of each lane: the address and the exponent, a release, then the sends, in any order of the lanes (R104). -/
def remoteAdd {α : Type} (op : Op) (place : State → Ins → Except Trap α) (vas : List α → List Nat)
    (put : State → Int → Nat → List CWord → α → State) (f : Fields) (s : State) : Out :=
  s.issue op f [] fun s =>
    let (ins, bad) := s.gather f (raddSources op f s)
    let (ts, oks) := splitLanes (ins.map fun i => (i.l, addTarget (s.rescale f) (place s i)))
    match s.releaseAt (if oks.isEmpty || f.ord < 2 then 0 else f.scope) with
    | none => .next s
    | some (s1, some t) => .next (s1.advanceBut f (bad ++ ts ++ oks.map fun x => (x.1, t)))
    | some (s1, none) =>
      match s1.chargeAccess true [] (faultVas op ts) (vas (oks.map (·.2.2))) true with
      | none => .next s
      | some s2 =>
        let b (l : Nat) : List CWord := match ins.find? fun i => i.l == l with
          | some i => raddB f i
          | none => []
        let s3 := { s2 with free := s2.free + oks.length }
        .next (((anyOrder s2.free oks).foldl (fun s x => put s x.2.1 x.1 (b x.1) x.2.2) s3).advanceBut f (bad ++ ts))

/-- `RADD` (R253): the own rank's add is performed at once, another's travels as a packet with the target's generation
(R246). -/
def execRadd (f : Fields) (s : State) : Out :=
  remoteAdd .radd (fun s i => s.reachRemote (w0 i.a) 0 (raddSize f) true) (fun _ => [])
    (fun s e l b x =>
      if x.1.key = wgKey s.cur.wid then s.padAdd s.curCore s.curCtx s.cur.wid x.1.key x.2 (f.cN % 8) b e
      else s.send s.cur.wid l (coreEndpoint (coreOf x.1.key)) (.padAdd x.1.key x.1.gen x.2 (f.cN % 8) b e)) f s

/-- `RADDG` (R253): the line first leaves the core's L1 (R361). -/
def execRaddg (f : Fields) (s : State) : Out :=
  remoteAdd .raddg (fun s i => s.reach (pairOf i.a) (raddSize f) true) globalsOf
    (fun s e l b p => match p with
      | .global ea pa =>
        (s.homeOwn s.curCore pa).send s.cur.wid l (memEndpoint pa)
          (.memAdd pa ea (f.cN % 8) b e)
      | .pad _ _ => s) f s

end Sys2Proof.Machine
end

