-- ==== Sys2Proof/Machine/Tensor.lean ====
section
/-!
DEFINITION. Tensor descriptors: their fields, the checks of `HBIND`, and the addresses of elements and scales (R31–R33).
-/

namespace Sys2Proof.Machine

/-- A tile handle's contents: the 64-byte descriptor (R31). -/
abbrev Desc := BitVec 512

namespace Desc

/-- A field of a descriptor. -/
def bits (d : Desc) (lo n : Nat) : Nat := (d.extractLsb' lo n).toNat
/-- BASE. -/
def base (d : Desc) : Nat := bits d 0 64
/-- NDIM: dimensions minus 1. -/
def ndim (d : Desc) : Nat := bits d 64 2
/-- FSLOT. -/
def fslot (d : Desc) : Nat := bits d 66 3
/-- BREG. -/
def breg (d : Desc) : Nat := bits d 69 4
/-- BEN. -/
def ben (d : Desc) : Bool := d.getLsbD 73
/-- SLAY. -/
def slay (d : Desc) : Nat := bits d 74 3
/-- SPACE. -/
def space (d : Desc) : Nat := bits d 77 2
/-- BIAS, signed. -/
def bias (d : Desc) : Int := sextN 8 (bits d 96 8)
/-- SIZEk. -/
def size (d : Desc) (k : Nat) : Nat := bits d (128 + 32 * k) 32
/-- STRIDEk, k from 1 to 3. -/
def stride (d : Desc) (k : Nat) : Int := (d.extractLsb' (256 + 64 * (k - 1)) 64).toInt
/-- SBASE. -/
def sbase (d : Desc) : Nat := bits d 448 64
/-- The extent of a dimension: SIZEk, or 1 above NDIM (R33). -/
def extent (d : Desc) (k : Nat) : Nat := if k ≤ ndim d then size d k else 1

/-- The span of a dimension's index, in bytes from index 0. -/
def span (d : Desc) (k : Nat) : Int := ((extent d k : Int) - 1) * (if k ≤ ndim d then stride d k else 0)

/-- The lowest element byte, and the byte after the highest. -/
def bounds (d : Desc) (eb : Nat) : Int × Int :=
  let ss := [span d 1, span d 2, span d 3]
  (ss.foldl (fun a x => a + min 0 x) (base d : Int),
   ss.foldl (fun a x => a + max 0 x) (base d : Int) + ((extent d 0 * eb + 7) / 8 : Nat))

/-- Bytes of the scale array (R33). -/
def scaleBytes (d : Desc) : Nat :=
  match slay d with
  | 1 => extent d 3 * extent d 2 * extent d 1 * ((extent d 0 + 31) / 32)
  | 2 => extent d 3 * extent d 2 * ((extent d 1 + 31) / 32) * extent d 0
  | _ => 0

/-- The byte address of an element (R33). -/
def elemAddr (d : Desc) (eb : Nat) (i1 i2 i3 i0 : Nat) : Int :=
  (base d : Int) + i1 * stride d 1 + i2 * stride d 2 + i3 * stride d 3 + (i0 * eb / 8 : Nat)

/-- The byte address of an element's block scale (R33). -/
def scaleAddr (d : Desc) (i1 i2 i3 i0 : Nat) : Nat :=
  if slay d = 1 then sbase d + ((i3 * size d 2 + i2) * size d 1 + i1) * ((size d 0 + 31) / 32) + i0 / 32
  else sbase d + ((i3 * size d 2 + i2) * ((size d 1 + 31) / 32) + i1 / 32) * size d 0 + i0

/-- The first of the checks of R32 that fails, as the number of its field; `k` is the format slot that FSLOT names. -/
def check (d : Desc) (k : BitVec 16) (spad : Nat) : Option Nat :=
  let eb := elemBits (slotElem k)
  let es := max 1 (eb / 8)
  let reserved := failsIf (2 < slay d) 5 ++ failsIf (1 < space d) 6 ++ failsIf (bits d 79 17 != 0) 7 ++
    failsIf (bits d 104 24 != 0) 9
  let dims := (List.range 4).flatMap fun j =>
    failsIf (decide (j ≤ ndim d) == (size d j == 0)) (10 + j) ++ failsIf (ndim d < j && stride d j != 0) (13 + j)
  let strides := [1, 2, 3].flatMap fun j => failsIf (stride d j % es != 0 || 2 ^ 55 ≤ (stride d j).natAbs) (13 + j)
  let (lo, hi) := bounds d eb
  let inside := failsIf (space d == 1 && (lo < 0 || (spad : Int) < hi)) 0 ++
    failsIf (space d == 1 && slay d != 0 && spad < sbase d + scaleBytes d) 17
  let steps : List (List Nat) :=
    [failsIf (2 ^ 55 ≤ base d) 0 ++ failsIf (2 ^ 55 ≤ sbase d) 17, reserved, dims, failsIf ((slay d != 0) != slotBlk k) 5,
     failsIf (base d % (if slotBlk k then 16 else es) != 0) 0, strides, inside]
  (steps.find? fun x => !x.isEmpty).bind lowest

end Desc

/-- A descriptor from its sixteen words (R31). -/
def descOf (ws : List Word) : Desc :=
  (ws.zipIdx).foldl (fun (d : Desc) x =>
    let w : BitVec 512 := x.1.zeroExtend 512
    d ||| w <<< (32 * x.2)) 0

/-- The handle of a workgroup: `DATA`, reason 1, when it is unbound (R31). -/
def State.handle (s : State) (n : Nat) : Except Trap Desc :=
  match s.curWg.handles.get? n with
  | some d => .ok d
  | none => .error ⟨causeData, dataInfo 1 n, s.pc64⟩

end Sys2Proof.Machine
end

