-- ==== Sys2Proof/Machine/Fence.lean ====
section
/-!
DEFINITION. `FENCE`, `CMO` and `HBIND` (R255–R258, R322, R323, R361–R363).
-/

namespace Sys2Proof.Machine

/-- `FENCE` (R255): a release part waits for the warp's packets and writes dirty lines back; an acquire part clears the
clean words of the core's L1 (R362). -/
def execFence (f : Fields) (s : State) : Out :=
  s.once .fence f [] false (onceSources .fence f) fun s _ _ =>
    let acq (s : State) : Did := .done (s.acquireAt s.curCore f.cScope)
    if f.cOrd = 0 then acq s else s.releasing f.cScope fun s => if f.cOrd = 1 then .done s else acq s

/-! ## `CMO` (R257) -/

/-- One core's copies of a line dropped, instruction cache included: dirty words of the context are discarded, others are
written back first (R257, R324). -/
def State.dropLine (s : State) (ctx pa core : Nat) : State :=
  let foreign := (s.dirtyInLine core pa).filter fun a => ((s.core core).dirty.get? a).any fun d => d.ctx != ctx
  (s.writeBacks core foreign).updCore core fun c =>
    { c.dropL1 (pa / 128) with icache := c.icache.filter fun e => e.1 != pa / 128 }

/-- The L2 copies of a line dropped: dirty words under the tag of the context are discarded, others are written to HBM4 first
(R257). -/
def State.dropSlice (s : State) (ctx p pa : Nat) : State :=
  let key := viewKey p pa
  let s1 := (s.cleanL2 fun e => e.line == pa / 128 && !e.ownedBy ctx).dropL2 fun e => e.line == pa / 128
  let s2 := if ((s1.views.get? key).bind (·.dirty)).any fun t => t != ctx then s1.viewBack key else s1
  { s2 with views := s2.views.erase key }

/-- The cores of a pitch. -/
def State.coresOf (s : State) (p : Nat) : List Nat := (s.cores.map (·.1)).filter fun c => s.corePitch c == p

/-- One line of a `CMO` (R257): cleaned to the level, then dropped, as the operation says. -/
def State.cmoLine (s : State) (op lvl pa : Nat) : State × Option Trap :=
  let p := (s.ctx s.curCtx).pitch
  match if op = 1 then (s, none) else s.flush s.curCore (s.dirtyInLine s.curCore pa) with
  | (s1, some t) => (s1, some t)
  | (s1, none) =>
    let s2 := if op != 1 && lvl = 2 then (s1.cleanL2 fun e => e.line == pa / 128).viewBack (viewKey p pa) else s1
    if op = 0 then (s2, none)
    else
      let s3 := (if lvl = 0 then [s.curCore] else s.coresOf p).foldl (fun s c => s.dropLine s.curCtx pa c) s2
      (if lvl = 0 then s3 else s3.dropSlice s.curCtx p pa, none)

/-- The lines of a `CMO` from a virtual line address up; a translation fault ends it (R257). -/
def State.cmoLines (s : State) (op lvl : Nat) : Nat → Nat → State × Option Trap
  | 0, _ => (s, none)
  | n + 1, va =>
    match s.translate s.curCore s.curCtx va (s.dataAccess false) with
    | .error info => (s, some ⟨causePage, info, BitVec.ofNat 64 va⟩)
    | .ok pa =>
      match s.cmoLine op lvl pa with
      | (s1, some t) => (s1, some t)
      | (s1, none) => State.cmoLines s1 op lvl n (va + 128)

/-- The full bits of the lines that overlap a range cleared (R245, R257). -/
def Workgroup.clearFull (g : Workgroup) (lo hi : Nat) : Workgroup :=
  let full := (List.range ((hi + 127) / 128 - lo / 128)).foldl
    (fun (m : BitVec 4096) k => m &&& ~~~(1#4096 <<< (lo / 128 + k))) g.full
  { g with full := full }

/-- Lines that overlap [a, a + n). -/
def lineCount (a n : Nat) : Nat := if n = 0 then 0 else (a + n + 127) / 128 - a / 128

/-- The 64 KiB pages that [a, a + n) meets, each by its first address in the range. -/
def cmoPages (a n : Nat) : List Nat :=
  (List.range ((a + n + 65535) / 65536 - a / 65536)).map fun k => max a ((a / 65536 + k) * 65536)

/-- An outstanding load of a lane of the bundle reads a byte of the own scratchpad in a range. -/
def State.loadsIn (s : State) (lo n : Nat) : Bool :=
  s.curWarp.loads.any fun e => e.2.lanes.any fun x =>
    s.cur.mask.getLsbD x.1 && x.2.overlaps (szBytes e.2.sz) (.pad (wgKey s.cur.wid) lo) n

/-- `CMO` (R257): it waits for the earlier remote adds of its lanes, and `.EMPTY` for their loads of the range (R322). -/
def execCmo (f : Fields) (s : State) : Out :=
  s.once .cmo f [] false (onceSources .cmo f) fun s i _ =>
    let n := (w0 i.b).toNat
    if s.inFlight s.cur.wid s.cur.mask || (f.cN % 4 == 3 && n != 0 && s.loadsIn (w0 i.a).toNat n) then .stall
    else if f.cN % 4 = 3 then
      let a := (w0 i.a).toNat
      if n = 0 then .done s
      else if s.curWg.spad < a + n then .trap s ⟨causeData, dataInfo 5 0, addr32 a⟩
      else .done (s.updWg (wgKey s.cur.wid) fun g => g.clearFull a (a + n))
    else
      let a := (pairOf i.a).toNat
      if n = 0 then .done s
      else if 2 ^ 55 < a + n then .trap s ⟨causeData, dataInfo 4 0, pairOf i.a⟩
      else
        match s.chargeAccess false [] (cmoPages a n) [] with
        | none => .stall
        | some s =>
          match s.cmoLines (f.cN % 4) (f.cN / 4 % 4) (lineCount a n) (a / 128 * 128) with
          | (s1, some t) => .trap s1 t
          | (s1, none) => .done s1

/-! ## `HBIND` (R258) -/

/-- The sixteen words that `HBIND` reads (R258), after its alignment and address checks. -/
def State.readDesc (s : State) (pad : Bool) (a : BitVec 64) : Except Trap (List CWord) :=
  if a.toNat % 64 != 0 then .error (alignTrap a)
  else if pad then
    if s.curWg.spad < a.toNat + 64 then .error ⟨causeData, dataInfo 5 0, a⟩ else .ok (s.curWg.pad.words a.toNat 16)
  else if 2 ^ 55 ≤ a.toNat then .error ⟨causeData, dataInfo 4 0, a⟩
  else
    match s.translate s.curCore s.curCtx a.toNat (s.dataAccess false) with
    | .error info => .error ⟨causePage, info, a⟩
    | .ok pa => .ok (s.wordsAt s.curCore s.curCtx s.curPriv (.global a pa) 64)

/-- `HBIND` (R258, R31, R32). -/
def execHbind (f : Fields) (s : State) : Out :=
  s.once .hbind f [] false (onceSources .hbind f) fun s i _ =>
    let pad := f.cN % 2 == 1
    let a : BitVec 64 := if pad then (w0 i.a).zeroExtend 64 else pairOf i.a
    match s.chargeAccess false [] [] (if pad || a.toNat % 64 != 0 || 2 ^ 55 ≤ a.toNat then [] else [a.toNat]) with
    | none => .stall
    | some s =>
    match s.readDesc pad a with
    | .error t => .trap s t
    | .ok ws =>
      match badWord ws 7 2 a with
      | some t => .trap s t
      | none =>
        let d := descOf (ws.map (·.data))
        match Desc.check d (s.slot (Desc.fslot d)) s.curWg.spad with
        | some n => .trap s ⟨causeData, dataInfo 2 n, s.pc64⟩
        | none =>
          .done (s.updWg (wgKey s.cur.wid) fun g => { g with handles := g.handles.put (f.d.toNat % 16) d })

end Sys2Proof.Machine
end

