-- ==== Sys2Proof/Machine/Copy.lean ====
section
/-!
DEFINITION. The ladle: copy requests, gathers, tensor accumulation, cancellation and range locks (R254, R259–R267,
R397–R404), and the delivery of a chunk.
-/

namespace Sys2Proof.Machine

/-! ## Range-lock entries -/

/-- The lowest free entries of the table, at most `n` (R401). -/
def Core.freeLocks (c : Core) (n : Nat) : List Nat := ((List.range 32).filter fun k => (c.locks.get? k).isNone).take n

/-- Entries taken; none when too few are free (R403). -/
def Core.lock (c : Core) (ls : List Lock) : Option Core :=
  let ns := c.freeLocks ls.length
  if ns.length < ls.length then none
  else some { c with locks := (ns.zip ls).foldl (fun m x => m.put x.1 x.2) c.locks }

/-- The entries of a request removed. -/
def Core.unlock (c : Core) (id : Nat) : Core :=
  { c with locks := c.locks.filter fun e => !(e.2.owner < 2 && e.2.req == id) }

/-- An entry over a range, global or in the own scratchpad. -/
def State.lockOf (s : State) (pad : Bool) (lo hi : Nat) (write : Bool) (owner ch req : Nat) : Lock :=
  { ctx := s.curCtx, slot := wgKey s.cur.wid % 16, pad := pad, lo := lo, hi := hi, write := write, owner := owner,
    ch := ch, req := req, bad := false }

/-! ## Acceptance -/

/-- The requests of a workgroup on its core. -/
def State.requestsOf (s : State) (k : Nat) : Nat :=
  (((s.core (coreOf k)).queues.map fun q => (q.filter fun r => r.wg == k).length)).sum

/-- A request accepted with its locks, behind the others of its channel; none when no entry of the reservation or of the
table is free (R260, R397). -/
def State.accept (s : State) (ch : Nat) (r : Request) (ls : List Lock) : Option State :=
  if s.curWg.copyq ≤ s.requestsOf r.wg then none
  else
    match (s.core s.curCore).lock ls with
    | none => none
    | some c =>
      some (s.setCore s.curCore
        { c with nreq := c.nreq + 1
                 queues := c.queues.mapIdx fun i q => if i = ch then q ++ [r] else q })

/-! ## `KICK` (R259, R260) -/

/-- A copy request record's fields (R259). -/
structure CopyRec where
  src   : Nat
  dst   : Nat
  len   : Nat
  baro  : Nat
  ben   : Bool
  ch    : Nat
  ssp   : Nat
  dsp   : Nat
  prio  : Nat
  evb   : Nat
  even  : Bool
  srank : Nat
  dmask : BitVec 16
  deriving DecidableEq, Repr

/-- A record from its eight words. -/
def copyRec (ws : List Word) : CopyRec :=
  let w (k : Nat) := (ws.getD k 0).toNat
  { src := w 0 + w 1 * 2 ^ 32, dst := w 2 + w 3 * 2 ^ 32, len := w 4, baro := w 5 % 2 ^ 16 * 8, ben := (w 5).testBit 16,
    ch := bitsOf (w 5) 17 2, ssp := bitsOf (w 5) 19 2, dsp := bitsOf (w 5) 21 2, prio := bitsOf (w 5) 23 2, evb := bitsOf (w 5) 25 3,
    even := (w 5).testBit 28, srank := w 6 % 16, dmask := BitVec.ofNat 16 (w 6 / 16) }

/-- Ranks of a mask. -/
def ranksOf (m : BitVec 16) : List Nat := (List.range 16).filter fun r => m.getLsbD r

/-- The scratchpads that a side of a copy names: none for global memory (R259). -/
def State.padsOf (s : State) (sp : Nat) (ranks : List Nat) : List GangEntry :=
  match sp with
  | 1 => [⟨wgKey s.cur.wid, (s.core s.curCore).gens.getD (wgKey s.cur.wid % 16) 0⟩]
  | 2 => ranks.filterMap fun r => s.curWg.gang[r]?
  | _ => []

/-- One side of a record is in range (R260). -/
def State.sideOk (s : State) (sp addr len : Nat) (ranks : List Nat) (write : Bool) : Bool :=
  if sp = 0 then addr + len ≤ 2 ^ 55 && !(write && s.inPool addr len)
  else addr / 2 ^ 32 = 0 && (s.padsOf sp ranks).all fun m => addr + len ≤ (s.wg m.key).spad

/-- The checks of R260 on a record; `ws` are its words. -/
def State.recOk (s : State) (ws : List Word) (r : CopyRec) : Bool :=
  let size := s.curWg.gang.length
  let dr := ranksOf r.dmask
  let sk := if r.ssp = 0 then [none] else (s.padsOf r.ssp [r.srank]).map fun m => some m.key
  let dk := if r.dsp = 0 then [none] else (s.padsOf r.dsp dr).map fun m => some m.key
  bitsOf (ws.getD 5 0).toNat 29 3 = 0 && (ws.getD 6 0).toNat / 2 ^ 20 = 0 && ws.getD 7 0 == 0 && r.ssp != 3 && r.dsp != 3 &&
    r.len % 4 = 0 && r.len != 0 && r.src % 4 = 0 && r.dst % 4 = 0 && r.srank < size &&
    (dr.all fun k => k < size) && (r.dmask != 0) == (r.dsp == 2) && s.sideOk r.ssp r.src r.len [r.srank] false &&
    s.sideOk r.dsp r.dst r.len dr true && (!r.ben || r.baro + 8 ≤ s.curWg.spad) &&
    !((sk.any fun k => dk.contains k) && r.src < r.dst + r.len && r.dst < r.src + r.len)

/-- One checked record accepted: the locks of R265, the destination lines of the own scratchpad emptied (R245, R260). -/
def State.acceptRec (s : State) (r : CopyRec) : Option State :=
  let k := wgKey s.cur.wid
  let id := (s.core s.curCore).nreq
  let q : Request :=
    { id := id, wg := k, wid := s.cur.wid, ctx := s.curCtx, work := .copy r.src r.dst r.ssp r.dsp r.srank r.dmask,
      len := r.len, done := 0, part := 0, disc := false, prio := r.prio, stop := false, since := s.cycle, bar := if r.ben then some r.baro else none,
      event := if r.even then some r.evb else none, gang := s.curWg.gang, priv := s.curPriv }
  let ls := (if r.ssp < 2 then [s.lockOf (r.ssp == 1) r.src (r.src + r.len) false 0 r.ch id] else []) ++
    (if r.dsp < 2 then [s.lockOf (r.dsp == 1) r.dst (r.dst + r.len) true 0 r.ch id] else [])
  (s.accept r.ch q ls).map fun s1 =>
    if (s.padsOf r.dsp (ranksOf r.dmask)).any fun m => m.key == k then s1.updWg k fun g => g.clearFull r.dst (r.dst + r.len)
    else s1

/-- Records accepted in order until one is not (R260): the count and the state. -/
def State.acceptRecs (s : State) : List CopyRec → Nat × State
  | [] => (0, s)
  | r :: rs =>
    match s.acceptRec r with
    | none => (0, s)
    | some s1 => let (n, s2) := State.acceptRecs s1 rs; (n + 1, s2)

/-- `KICK` (R260): the records are read as loads, which wait for full lines (R245). -/
def execKick (f : Fields) (s : State) : Out :=
  s.once .kick f [] false (onceSources .kick f) fun s i ins =>
    let a := (w0 i.a).toNat
    let n := (w0 i.b).toNat
    if a % 32 != 0 then .trap s (alignTrap (addr32 a))
    else if n < 1 || 32 < n then .trap s ⟨causeData, dataInfo 13 0, s.pc64⟩
    else if s.curWg.spad < a + 32 * n then .trap s ⟨causeData, dataInfo 5 0, addr32 a⟩
    else if (List.range n).any fun k => !s.curWg.lineFull (a + 32 * k) then .stall
    else
      let ws := s.curWg.pad.words a (8 * n)
      match badWord ws 7 2 (addr32 a) with
      | some t => .trap s t
      | none =>
        let rs := (List.range n).map fun k => ((datas ws).drop (8 * k)).take 8
        match (rs.zipIdx).find? fun x => !s.recOk x.1 (copyRec x.1) with
        | some x => .trap s ⟨causeData, dataInfo 14 x.2, s.pc64⟩
        | none =>
          let (m, s1) := s.acceptRecs (rs.map copyRec)
          .done (s1.give f (ins.map (·.l)) (.gen (BitVec.ofNat 32 m)))

/-! ## `CANCEL` (R263) -/

/-- The workgroup's request at the head of a channel has a chunk under way. -/
def State.midChunk (s : State) (ch k : Nat) : Bool :=
  (((s.core s.curCore).queues.getD ch []).head?).any fun r => r.wg == k && r.part != 0

/-- `CANCEL` (R263): the workgroup's requests on the channel go at once, unless the head of the channel is one with a chunk
under way: then they start no further chunk, and the instruction waits at its PC for the end of that one (log 53). -/
def execCancel (f : Fields) (s : State) : Out :=
  s.once .cancel f [] false (onceSources .cancel f) fun s _ ins =>
    let ch := f.a.toNat % 4
    let k := wgKey s.cur.wid
    if s.midChunk ch k then
      .hold (s.updCore s.curCore fun c =>
        { c with queues := c.queues.mapIdx fun i q =>
            if i = ch then q.map fun r => if r.wg = k then { r with stop := true } else r else q })
    else
    let mine := (((s.core s.curCore).queues.getD ch []).filter fun r => r.wg == k).map (·.id)
    let s1 := s.updCore s.curCore fun c =>
      { (mine.foldl Core.unlock c) with
        queues := c.queues.mapIdx fun i q => if i = ch then q.filter fun r => !mine.contains r.id else q }
    .done (s1.give f (ins.map (·.l)) (.gen (BitVec.ofNat 32 mine.length)))

/-! ## `GATH` (R264) -/

/-- The sources of a form with uniform registers named by D and C: the form's, and these two at SITE 6. -/
def uniformDC (op : Op) (f : Fields) (s : State) (t : Thread) : List Source :=
  (sources op f s.curWarp t false).take 2 ++ [⟨[s.curWarp.wreg (f.d.toNat % 64)], 6⟩, ⟨[s.curWarp.wreg (f.cN % 64)], 6⟩]

/-- The address of a lane of `GATH`, checked and translated at issue. -/
def State.gathAddr (s : State) (i : Ins) (size : Nat) : Except Trap (BitVec 64 × Nat) :=
  let a := pairOf i.a
  if a.toNat % size != 0 then .error (alignTrap a)
  else if 2 ^ 55 ≤ a.toNat then .error ⟨causeData, dataInfo 4 0, a⟩
  else
    match s.translate s.curCore s.curCtx a.toNat (s.dataAccess false) with
    | .error info => .error ⟨causePage, info, a⟩
    | .ok pa => .ok (a, pa)

/-- `GATH` (R264). -/
def execGath (f : Fields) (s : State) : Out :=
  s.once .gath f [] false (uniformDC .gath f) fun s _ ins =>
    let size := if f.b.getLsbD 2 then 8 else 4
    let ch := f.b.toNat % 4
    let dst := (s.curWarp.wreg (f.d.toNat % 64)).data.toNat
    let bar := (s.curWarp.wreg (f.cN % 64)).data.toNat
    match s.padOffset dst (32 * size) (32 * size), s.padOffset bar 8 8 with
    | .error t, _ => .trap s t
    | .ok _, .error t => .trap s t
    | .ok _, .ok _ =>
      if s.curWg.copyq = 0 then .trap s ⟨causeData, dataInfo 15 0, s.pc64⟩
      else
        let (ts, oks) := splitLanes (ins.map fun i => (i.l, s.gathAddr i size))
        match s.chargeAccess false [] (faultVas .gath ts ++ oks.map fun x => x.2.1.toNat) [] with
        | none => .stall
        | some s =>
        if oks.isEmpty then .partly s ts
        else
          let vas := oks.map fun x => x.2.1.toNat
          let lo := vas.foldl min (vas.headD 0)
          let hi := vas.foldl max 0 + size
          let id := (s.core s.curCore).nreq
          let q : Request :=
            { id := id, wg := wgKey s.cur.wid, wid := s.cur.wid, ctx := s.curCtx,
              work := .gath size dst (oks.map fun x => (x.1, x.2.1, x.2.2)), len := size * oks.length, done := 0, part := 0,
              disc := false, prio := 0, stop := false, since := s.cycle, bar := some bar, event := none, gang := s.curWg.gang, priv := s.curPriv }
          match s.accept ch q [s.lockOf true dst (dst + 32 * size) true 1 ch id, s.lockOf false lo hi false 1 ch id] with
          | none => .stall
          | some s1 => .partly (s1.updWg (wgKey s.cur.wid) fun g => g.clearFull dst (dst + 32 * size)) ts

/-! ## `ACC` (R254) -/

/-- Every index of a tensor, dimension 0 fastest. -/
def Desc.indices (d : Desc) : List (Nat × Nat × Nat × Nat) :=
  (List.range (Desc.extent d 3)).flatMap fun i3 => (List.range (Desc.extent d 2)).flatMap fun i2 =>
    (List.range (Desc.extent d 1)).flatMap fun i1 => (List.range (Desc.extent d 0)).map fun i0 => (i1, i2, i3, i0)

/-- The element addresses of a pair of tensors with one shape, in ascending destination address: destination, source. -/
def accPairs (src dst : Desc) (sb db : Nat) : List (Int × Int) :=
  ((Desc.indices dst).map fun x =>
    (Desc.elemAddr dst db x.1 x.2.1 x.2.2.1 x.2.2.2, Desc.elemAddr src sb x.1 x.2.1 x.2.2.1 x.2.2.2)).mergeSort
    fun a b => a.1 ≤ b.1

/-- A format that `ACC` takes: binary32, binary16 or bfloat16 without blocks. -/
def accFormat (k : BitVec 16) : Bool := slotElem k < 3 && !slotBlk k

/-- The format of an element code below 3. -/
def ieeeOf (el : Nat) : Ieee := if el = 1 then .f16 else if el = 2 then .bf16 else .f32

/-- Two tensors share a byte. -/
def accOverlap (src dst : Desc) (sb db : Nat) : Bool :=
  let (a, b) := Desc.bounds src sb
  let (c, d) := Desc.bounds dst db
  Desc.space src == Desc.space dst && a < d && c < b &&
    (let ps := accPairs src dst sb db
     ps.any fun x => ps.any fun y => y.2 < x.1 + db / 8 && x.1 < y.2 + sb / 8)

/-- An element of a global tensor leaves the address space (R37). -/
def outOfSpace (d : Desc) (a : Int) (bits : Nat) : Bool :=
  Desc.space d != 1 && (a < 0 || (2 ^ 55 : Int) < a + ((bits / 8 : Nat) : Int))

/-- The bound register that a descriptor names, as of now; none without BEN (R35, R36). -/
def State.boundOf (s : State) (c : Nat) (d : Desc) : Nat × Bound :=
  if Desc.ben d then (Desc.breg d, (s.ctx c).bounds.getD (Desc.breg d) .reset) else (16, .reset)

/-- `ACC` (R254). -/
def execAcc (f : Fields) (s : State) : Out :=
  s.once .acc f [] false (fun s _ => [⟨[s.curWarp.wreg (f.cN % 64)], 6⟩]) fun s _ ins =>
    let bar := (s.curWarp.wreg (f.cN % 64)).data.toNat
    let ch := f.b.toNat % 4
    match s.handle (f.d.toNat % 16), s.handle (f.a.toNat % 16), s.padOffset bar 8 8 with
    | .error t, _, _ => .trap s t
    | .ok _, .error t, _ => .trap s t
    | .ok _, .ok _, .error t => .trap s t
    | .ok dst, .ok src, .ok _ =>
      let dk := s.slot (Desc.fslot dst)
      let sk := s.slot (Desc.fslot src)
      let db := elemBits (slotElem dk)
      let sb := elemBits (slotElem sk)
      if !accFormat dk || !accFormat sk || Desc.ndim dst != Desc.ndim src ||
          ((List.range 4).any fun k => Desc.size dst k != Desc.size src k) || accOverlap src dst sb db then
        .trap s ⟨causeData, dataInfo 16 0, s.pc64⟩
      else if (accPairs src dst sb db).any fun x => outOfSpace src x.2 sb || outOfSpace dst x.1 db then
        .trap s ⟨causeData, dataInfo 4 0, s.pc64⟩
      else if Desc.space dst != 1 && (accPairs src dst sb db).any fun x => s.inPool x.1.toNat (db / 8) then
        .trap s ⟨causeData, dataInfo 8 0, s.pc64⟩
      else if s.curWg.copyq = 0 then .trap s ⟨causeData, dataInfo 15 0, s.pc64⟩
      else
        let id := (s.core s.curCore).nreq
        let (sl, sh) := Desc.bounds src sb
        let (dl, dh) := Desc.bounds dst db
        let n := Desc.extent dst 0 * Desc.extent dst 1 * Desc.extent dst 2 * Desc.extent dst 3
        let q : Request :=
          { id := id, wg := wgKey s.cur.wid, wid := s.cur.wid, ctx := s.curCtx,
            work := .acc src dst sk dk (s.boundOf s.curCtx dst) (maskOfLanes (ins.map (·.l))) s.cur.pc,
            len := n * (db / 8), done := 0, part := 0, disc := false, prio := 0, stop := false, since := s.cycle, bar := some bar,
            event := none, gang := s.curWg.gang, priv := s.curPriv }
        match s.accept ch q [s.lockOf (Desc.space src == 1) sl.toNat sh.toNat false 0 ch id,
            s.lockOf (Desc.space dst == 1) dl.toNat dh.toNat true 0 ch id] with
        | none => .stall
        | some s1 => .done s1

/-! ## `RLCK` and `RLREL` (R267) -/

/-- `RLCK` (R267). -/
def execRlck (f : Fields) (s : State) : Out :=
  s.once .rlck f [] false (onceSources .rlck f) fun s i ins =>
    let pad := f.cN / 2 % 2 == 1
    let a := if pad then (w0 i.a).toNat else (pairOf i.a).toNat
    let n := (w0 i.b).toNat
    if n = 0 then .trap s ⟨causeData, dataInfo 21 0, s.pc64⟩
    else if pad && s.curWg.spad < a + n then .trap s ⟨causeData, dataInfo 5 0, addr32 a⟩
    else if !pad && 2 ^ 55 ≤ a then .trap s ⟨causeData, dataInfo 4 0, pairOf i.a⟩
    else
      match (s.core s.curCore).freeLocks 1 with
      | e :: _ =>
        let l := s.lockOf pad a (a + n) (f.cN % 2 == 1) 3 0 (wgKey s.cur.wid)
        .done ((s.updCore s.curCore fun c => { c with locks := c.locks.put e l }).give f (ins.map (·.l))
          (.gen (BitVec.ofNat 32 e)))
      | [] => .done (s.give f (ins.map (·.l)) (.gen 0xFFFFFFFF))

/-- `RLREL` (R267). -/
def execRlrel (f : Fields) (s : State) : Out :=
  s.once .rlrel f [] false (onceSources .rlrel f) fun s i _ =>
    let n := (w0 i.a).toNat
    match (s.core s.curCore).locks.get? n with
    | some l =>
      if l.owner = 3 && l.req = wgKey s.cur.wid then
        .done (s.updCore s.curCore fun c => { c with locks := c.locks.erase n })
      else .trap s ⟨causeData, dataInfo 21 n, s.pc64⟩
    | none => .trap s ⟨causeData, dataInfo 21 n, s.pc64⟩

end Sys2Proof.Machine
end

