-- ==== Sys2Proof/Machine/Ladle.lean ====
section
/-!
DEFINITION. The delivery of one line by the ladle: `COPY_CHUNK` (R261, R262, R254, R264, R265, R393, R398, R400), and the
bound registers' check of a written value (R35).
-/

namespace Sys2Proof.Machine

/-! ## Bound registers (R35) -/

/-- `x > y` as values. -/
def gtX (x y : FVal) : Bool := match cmpX x y with
  | .gt => true
  | _ => false

/-- The value lies outside a bound register's limits; a NaN limit is no limit (R35). -/
def Bound.outside (b : Bound) (v : FVal) : Bool :=
  let lo := Ieee.f32.decode b.lo.toNat
  let hi := Ieee.f32.decode b.hi.toNat
  v.isNan || (!lo.isNan && gtX lo v) || (!hi.isNan && gtX v hi) || (!lo.isNan && !hi.isNan && gtX lo hi)

/-- What ACT 1 writes for an out-of-bounds value: min, max, or +0 for a NaN (R35). -/
def Bound.clamp (b : Bound) (v : FVal) : FVal :=
  let lo := Ieee.f32.decode b.lo.toNat
  if v.isNan then .fin false 0 0 else if !lo.isNan && gtX lo v then lo else Ieee.f32.decode b.hi.toNat

/-- The bound register of a context sees an out-of-bounds value: HIT (R35, R36). -/
def State.hit (s : State) (c n : Nat) : State :=
  s.updCtx c fun k =>
    let b := KMap.getD k.bounds n Bound.reset
    { k with bounds := KMap.set k.bounds n { b with ctl := b.ctl ||| 4 } .reset }

/-- The check of a write-back (R35): the value to write and whether HIT is set, or none: ACT 2 traps. The register's number
is 16 where the descriptor names none. -/
def checkBound (b : Nat × Bound) (v : FVal) : Option (FVal × Bool) :=
  if b.1 = 16 || !b.2.outside v then some (v, false)
  else if b.2.ctl.toNat % 4 = 2 then none
  else if b.2.ctl.toNat % 4 = 1 then some (b.2.clamp v, true)
  else some (v, true)

/-! ## Reaching words -/

/-- Why a request stops (R262): a translation fault with its word, or an access that cannot be performed with SRC. -/
inductive Stop where
  | page (info : Word) (va : BitVec 64)
  | error (src pa : Nat)
  deriving DecidableEq, Repr

/-- An engine's access to a physical address cannot be performed, with SRC: as for a thread's, and where host memory answered
with an error (R262, R367). -/
def State.engineRefused (s : State) (p : Nat) (priv : Bool) (pa : Nat) (write : Bool) : Option Nat :=
  s.physRefused p priv pa write <|> if !write && s.hostErrs.contains (pa / 4 * 4) then some 2 else none

/-- A word's place for an engine: a scratchpad offset, or a global address translated (R262). -/
def State.enginePlace (s : State) (core ctx : Nat) (priv : Bool) (pad : Option Nat) (a : Nat) (u : Access) :
    Except Stop Place :=
  match pad with
  | some k => .ok (.pad k a)
  | none =>
    match s.translate core ctx a { u with user := !priv } with
    | .error info => .error (.page info (BitVec.ofNat 64 a))
    | .ok pa =>
      match s.engineRefused (s.ctx ctx).pitch priv pa u.write with
      | some src => .error (.error src pa)
      | none => .ok (.global (BitVec.ofNat 64 a) pa)

/-- The places of words from an address up. -/
def State.enginePlaces (s : State) (core ctx : Nat) (priv : Bool) (pad : Option Nat) (a n : Nat) (u : Access) :
    Except Stop (List Place) :=
  (List.range n).foldl (fun acc i =>
    match acc with
    | .error e => .error e
    | .ok ps =>
      match s.enginePlace core ctx priv pad (a + 4 * i) u with
      | .error e => .error e
      | .ok p => .ok (ps ++ [p])) (.ok [])

/-- The word at a place. -/
def State.placeWord (s : State) (core ctx : Nat) (priv : Bool) (p : Place) : CWord :=
  match p with
  | .pad k off => (s.wg k).pad.word (off / 4 * 4)
  | .global _ pa => s.engineWord core (s.ctx ctx).pitch priv (pa / 4 * 4)

/-- A word written by an engine at a place; the line first leaves the core's L1. -/
def State.enginePut (s : State) (core ctx : Nat) (wid : Nat) (priv : Bool) (p : Place) (w : CWord) : State :=
  match p with
  | .pad k off => s.updWg k fun g => { g with pad := g.pad.setWord (off / 4 * 4) w }
  | .global ea pa => 
    ((s.writeBacks core (s.dirtyInLine core pa)).updCore core fun c => c.dropCleanLine (pa / 128)).physWrite
      ⟨core, ctx, some wid, priv, ea⟩ (pa / 4 * 4) w

/-- The physical address of a place for a record, or 0. -/
def Place.pa : Place → Nat
  | .pad _ _ => 0
  | .global _ pa => pa

/-- Words as the ladle delivers them (R400): a mismatched word becomes poisoned with its data kept, and is reported. -/
def State.carry (s : State) (core ctx wid : Nat) (x : Place × CWord) : State × CWord :=
  if x.2.mismatched then (s.ucerr ctx core (some wid) 0 4 x.1.pa x.1.addr, .poison x.2) else (s, x.2)

/-- All the words of a chunk as delivered. -/
def State.carryAll (s : State) (core ctx wid : Nat) (xs : List (Place × CWord)) : State × List CWord :=
  xs.foldl (fun acc x => let (s1, w) := acc.1.carry core ctx wid x; (s1, acc.2 ++ [w])) (s, [])

/-- An injection of class 5 strikes the first word that a unit writes at its place of a line, in `n` words from an offset of
a scratchpad (R119, R120): before the check the word is poisoned and reported, after it the stored word is flipped. -/
def State.strikePad (s : State) (k ctx wid a n : Nat) : State :=
  match (s.core (coreOf k)).injection 5 ctx with
  | none => s
  | some j =>
    match (List.range n).find? fun i => (a / 4 + i) % 32 == j.lane with
    | none => s
    | some i =>
      let s1 := s.updCore (coreOf k) Core.fired
      let off := a + 4 * i
      let w := (s.wg k).pad.word off
      let put (x : CWord) : State := s1.updWg k fun g => { g with pad := g.pad.setWord off x }
      if j.after then put (flipWord w j.bit j.rfld)
      else (put (.poison w)).ucerr ctx (coreOf k) (some wid) 0 4 0 (addr32 off)

/-! ## The end of a request -/

/-- A request leaves its channel with its locks, and its workgroup may end (R69, R397). -/
def State.endRequest (s : State) (core ch : Nat) (r : Request) : State :=
  (s.updCore core fun c =>
    { c.unlock r.id with queues := c.queues.mapIdx fun i q => if i = ch then q.filter fun x => x.id != r.id else q }).tryEnd
    r.wg

/-- The warp that a fault of a request enters: the issuing one, or the lowest live warp of the workgroup (R262). -/
def State.requestWarp (s : State) (r : Request) : Option Nat :=
  let ws := (s.warps.filter fun e => wgKey e.1 == r.wg && e.2.live != 0).map (·.1)
  ws.find? (· == r.wid) <|> ws.head?

/-- `cwp` of a channel moved by a number of words (R261). -/
def Core.count (c : Core) (ch : Nat) (words : Int) : Core :=
  { c with cwp := c.cwp.mapIdx fun i w => if i = ch then w + BitVec.ofInt 32 (4 * words) else w }

/-- A request stopped by a fault (R262): what its chunk had delivered no longer counts in `cwp` (DESIGN CHOICE, log 54), the fault is
reported to its warp, and the request goes. -/
def State.stopRequest (s : State) (core ch : Nat) (r : Request) (e : Stop) : State :=
  let s0 := s.updCore core fun c => c.count ch (-((r.part / 4 : Nat) : Int))
  let s1 := match e with
    | .page info va =>
      match s.requestWarp r with
      | some w => s0.updWarp w fun x => { x with asyncs := x.asyncs ++ [Async.mk causePage info va] }
      | none => s0
    | .error src pa =>
      s0.ucerr r.ctx core (s.requestWarp r) src (if src = 4 then 9 else 5) pa (BitVec.ofNat 64 pa)
        (BitVec.ofNat 32 (ch * 16) ||| 0x80000000)
  s1.endRequest core ch r

/-! ## Counting -/

/-- A chunk's bytes counted on the request's barrier object, as a release (R261, R39); a bad object is not changed, a
mismatched word of it poisoned, and the fault reported (R400). -/
def State.countBytes (s : State) (core : Nat) (r : Request) (bytes : Nat) (disc : Bool) : State :=
  match r.bar with
  | none => s
  | some off =>
    let ws := (s.wg r.wg).pad.words off 2
    if ws.any fun w => !w.wellFormed then
      let ws' := ws.map fun w => if w.mismatched then CWord.poison w else w
      let s1 := s.updWg r.wg fun g => { g with pad := g.pad.setWords off ws' }
      s1.ucerr r.ctx core (some r.wid) 0 4 0 (addr32 off)
    else s.barrierStep r.wg off (BitVec.ofNat 32 bytes) disc none

/-- The fronts of a request's locks moved to new lower ends: RD and WR (R265). -/
def Core.front (c : Core) (id rd wr : Nat) : Core :=
  { c with locks := c.locks.mapv fun _ l =>
      if l.owner == 0 && l.req == id then { l with lo := if l.write then wr else rd } else l }

/-- The requests of one channel changed. -/
def Core.mapQueue (c : Core) (ch : Nat) (f : List Request → List Request) : Core :=
  { c with queues := c.queues.mapIdx fun i q => if i = ch then f q else q }

/-- `n` bytes of a chunk are delivered (R261): `cwp` and the fronts move. A complete chunk is counted; after the last one the
event is posted and the request ends. -/
def State.lineStep (s : State) (core ch : Nat) (r : Request) (n mult : Nat) (disc : Bool) (rd wr : Nat) : State :=
  let chunk := min 4096 (r.len - r.done)
  let part := r.part + n
  let s1 := s.updCore core fun c => (c.count ch (((part / 4 : Nat) : Int) - ((r.part / 4 : Nat) : Int))).front r.id rd wr
  let put (s : State) (d p : Nat) (disc : Bool) : State :=
    s.updCore core fun c => c.mapQueue ch fun q =>
      q.map fun x => if x.id = r.id then { x with done := d, part := p, disc := disc } else x
  if part < chunk then put s1 r.done part (r.disc || disc)
  else
    let s2 := s1.countBytes core r (chunk * mult) (r.disc || disc)
    if r.done + chunk < r.len then put s2 (r.done + chunk) 0 false
    else
      let s3 := match r.event with
        | some b => s2.postEvents r.wg (1 <<< b)
        | none => s2
      s3.endRequest core ch r

/-! ## Copies -/

/-- Lines of a destination that are complete after `done` of `len` bytes from `dst` (R245). -/
def Workgroup.fillLines (g : Workgroup) (dst len done : Nat) : Workgroup :=
  (List.range (lineCount dst done)).foldl (fun g k =>
    let line := dst / 128 + k
    if min ((line + 1) * 128) (dst + len) ≤ dst + done then g.fill (line * 128) else g) g

/-- Words delivered to one scratchpad: dropped, with the flag, when its generation is no longer the one carried (R246). -/
def State.deliverPad (s : State) (m : GangEntry) (remote : Bool) (dst len done : Nat) (ws : List CWord) : State × Bool :=
  if remote && ((s.wgs.get? m.key).isNone || (s.core (coreOf m.key)).gens.getD (m.key % 16) 0 != m.gen) then (s, true)
  else
    ((s.updWg m.key fun g =>
      ({ g with pad := g.pad.setWords (dst + done) ws }).fillLines dst len (done + 4 * ws.length)).strikePad m.key
        (s.wg m.key).ctx (m.key * 32) (dst + done) ws.length, false)

/-- The scratchpads that a side of an accepted copy names. -/
def Request.pads (r : Request) (sp : Nat) (ranks : List Nat) : List GangEntry :=
  match sp with
  | 1 => [⟨r.wg, 0⟩]
  | 2 => ranks.filterMap fun k => r.gang[k]?
  | _ => []

/-- Addresses of the lines of `n` bytes from an address up: the first byte of each. -/
def linesFrom (a n : Nat) : List Nat := (List.range (lineCount a n)).map fun k => max a ((a / 128 + k) * 128)

/-- The grid that a request works for. -/
def State.requestGrid (s : State) (r : Request) : Grid := s.grid (s.wg r.wg).grid

/-- What a line is charged: at the start of a chunk, the whole chunk; else only the walks that it needs again (R393, R398). -/
def Request.bill (r : Request) (whole line : Bill) : Bill := if r.part = 0 then whole else { walks := line.walks }

/-- One line of a copy record, up to the next line boundary of its destination (R398), or as much of it as its source lines let
pass (R245); none: it waits. At the start of a chunk the whole chunk is checked and charged (R262, R398; log 54). -/
def State.copyLine (s : State) (core ch : Nat) (r : Request) (src dst ssp dsp srank : Nat) (dmask : BitVec 16) :
    Option State :=
  let left := min 4096 (r.len - r.done) - r.part
  let off := r.done + r.part
  let n := min left (128 - (dst + off) % 128)
  let all := if r.part = 0 then left else n
  let ranks := ranksOf dmask
  let mult := if dsp = 2 then ranks.length else 1
  let u : Access := { copy := some ch, user := !r.priv }
  let v : Access := { copy := some ch, user := !r.priv, write := true }
  let bill (m : Nat) : Bill :=
    ((if ssp = 0 then s.accessBill core r.ctx u (linesFrom (src + off) m) true else {}).add
      (if dsp = 0 then s.accessBill core r.ctx v (linesFrom (dst + off) m) true else {})).add
        { copy := (m + 127) / 128 * mult }
  let b := r.bill (bill left) (bill n)
  match s.enginePlaces core r.ctx r.priv ((r.pads ssp [srank]).head?.map (·.key)) (src + off) (all / 4) u with
  | .error e => some (s.stopRequest core ch r e)
  | .ok ps =>
    match (if dsp = 0 then s.enginePlaces core r.ctx r.priv none (dst + off) (all / 4) v else .ok []) with
    | .error e => some (s.stopRequest core ch r e)
    | .ok qs =>
      let rs := (ps.take (n / 4)).takeWhile s.readable
      if rs.isEmpty || !s.canPay (s.requestGrid r) b then none
      else
        let s0 := s.pay core r.ctx (s.requestGrid r) b
        let (s1, ws) := s0.carryAll core r.ctx r.wid (rs.map fun p => (p, s0.placeWord core r.ctx r.priv p))
        let (s2, disc) :=
          if dsp = 0 then ((qs.zip ws).foldl (fun s x => s.enginePut core r.ctx r.wid r.priv x.1 x.2) s1, false)
          else (r.pads dsp ranks).foldl (fun acc m =>
            let (s', d) := acc.1.deliverPad m (dsp == 2) dst r.len off ws
            (s', acc.2 || d)) (s1, false)
        let k := 4 * rs.length
        some (s2.lineStep core ch r k mult disc (src + off + k) (dst + off + k))

/-! ## `GATH` -/

/-- The gather's next elements delivered in lane order: those of one line of its destination (R264, R398). After the last one its
lines are full. -/
def State.gathLine (s : State) (core ch : Nat) (r : Request) (size dst : Nat) (src : List (Nat × BitVec 64 × Nat)) :
    Option State :=
  let rest := src.drop (r.part / size)
  let now := rest.takeWhile fun x => (dst + size * x.1) / 128 == (dst + size * (rest.headD (0, 0, 0)).1) / 128
  let p := (s.ctx r.ctx).pitch
  let b := r.bill ((s.lineBill p (src.map fun x => x.2.2)).add { copy := (r.len + 127) / 128 }) {}
  match src.find? fun x => (s.engineRefused p r.priv x.2.2 false).isSome with
  | some x => some (s.stopRequest core ch r (.error ((s.engineRefused p r.priv x.2.2 false).getD 2) x.2.2))
  | none =>
    if !s.canPay (s.requestGrid r) b then none
    else
      let s1 := now.foldl (fun s x =>
        let ps := (List.range (size / 4)).map fun k => Place.global (x.2.1 + BitVec.ofNat 64 (4 * k)) (x.2.2 + 4 * k)
        let (s', ws) := s.carryAll core r.ctx r.wid (ps.map fun p => (p, s.placeWord core r.ctx r.priv p))
        (s'.updWg r.wg fun g => { g with pad := g.pad.setWords (dst + size * x.1) ws }).strikePad r.wg r.ctx r.wid
          (dst + size * x.1) ws.length) (s.pay core r.ctx (s.requestGrid r) b)
      let s2 := if now.length < rest.length then s1
        else s1.updWg r.wg fun g => g.fillLines dst (32 * size) (32 * size)
      some (s2.lineStep core ch r (size * now.length) 1 false 0 0)

/-! ## `ACC` -/

/-- The place of an element's word (R254). -/
def State.accPlace (s : State) (core : Nat) (r : Request) (d : Desc) (a : Int) (write : Bool) (ch : Nat) :
    Except Stop Place :=
  s.enginePlace core r.ctx r.priv (if Desc.space d = 1 then some r.wg else none) a.toNat
    { copy := some ch, write := write }

/-- The element at a place: its code in its word. -/
def elemOf (w : CWord) (p : Place) (bytes : Nat) : Nat :=
  if bytes = 4 then w.data.toNat else (partOf w.data p.byteInWord bytes).toNat

/-- A word with an element replaced, its residue that of its data. -/
def withElem (w : CWord) (p : Place) (bytes x : Nat) : CWord :=
  if bytes = 4 then .gen (BitVec.ofNat 32 x) else .gen (withPart w.data p.byteInWord bytes (BitVec.ofNat 32 x))

/-- The new code of an element: `round_rne(d + s × 2^e)` in D's format, checked by D's bound register (R254, R35); none
where the register traps. The flag is HIT. -/
def accElem (dk sk : Ieee) (e bias : Int) (b : Nat × Bound) (d s : Nat) : Option (Nat × Bool) :=
  let x := roundTo dk 0 (addX 0 (dk.decode d) ((sk.decode s).scale e)).1
  let v := Ieee.f32.decode (roundTo .f32 0 ((dk.decode x.1).scale bias)).1
  match checkBound b v with
  | none => none
  | some (_, false) => some (x.1, false)
  | some (v', true) =>
    if b.2.ctl.toNat % 4 = 1 then some ((roundTo dk 0 (v'.scale (-bias))).1, true) else some (x.1, true)

/-- `BOUND` of an `ACC` write for the lanes that issued it: pending until each lane's next instruction (R35, R326; DESIGN
CHOICE, log 16). -/
def State.accBound (s : State) (wid : Nat) (lanes : Word) (pc : Addr) : State :=
  let t : Trap := ⟨causeBound, BitVec.ofNat 32 (11 + 2 ^ 23), pc.zeroExtend 64⟩
  s.updWarp wid fun w => w.mapLanes fun l x =>
    if lanes.getLsbD l && x.live then { x with engTraps := x.engTraps ++ [⟨t, none⟩] } else x

/-- What keeps an element of an `ACC` from being added: a fault, an empty line, or its bound register. -/
inductive AccEnd where
  | stop (e : Stop)
  | wait
  | bound
  deriving DecidableEq, Repr

/-- One element of an `ACC` (R254, R400): a bad source or destination word poisons the element's word and is reported. -/
def State.accStep (s : State) (core ch : Nat) (r : Request) (src dst : Desc) (sk dk : BitVec 16) (b : Nat × Bound)
    (x : Int × Int) : Except AccEnd State :=
  let sb := elemBits (slotElem sk) / 8
  let db := elemBits (slotElem dk) / 8
  match s.accPlace core r src x.2 false ch, s.accPlace core r dst x.1 true ch with
  | .error e, _ => .error (.stop e)
  | .ok _, .error e => .error (.stop e)
  | .ok p, .ok q =>
    if !s.readable p || !s.readable q then .error .wait
    else
      let (s1, sw) := s.carry core r.ctx r.wid (p, s.placeWord core r.ctx r.priv p)
      let (s2, dw) := s1.carry core r.ctx r.wid (q, s1.placeWord core r.ctx r.priv q)
      if sw.poisoned || dw.poisoned then .ok (s2.enginePut core r.ctx r.wid r.priv q (.poison dw))
      else
        match accElem (ieeeOf (slotElem dk)) (ieeeOf (slotElem sk)) (Desc.bias src - Desc.bias dst) (Desc.bias dst) b
            (elemOf dw q db) (elemOf sw p sb) with
        | none => .error .bound
        | some (v, h) =>
          let s3 := s2.enginePut core r.ctx r.wid r.priv q (withElem dw q db v)
          .ok (if h then s3.hit r.ctx b.1 else s3)

/-- Elements of an `ACC` in turn, up to the first that cannot be added: the state, their number, and why it ended. -/
def State.accSteps (s : State) (core ch : Nat) (r : Request) (src dst : Desc) (sk dk : BitVec 16) (b : Nat × Bound) :
    Nat → List (Int × Int) → State × Nat × Option AccEnd
  | k, [] => (s, k, none)
  | k, x :: xs =>
    match s.accStep core ch r src dst sk dk b x with
    | .ok s1 => State.accSteps s1 core ch r src dst sk dk b (k + 1) xs
    | .error e => (s, k, some e)

/-- The next elements of an `ACC` that lie in one line of its destination, in ascending destination address (R254, R398), or as
many as the empty lines let pass; none: it waits. An element that its bound register traps ends the request: the elements before
it stay written (DESIGN CHOICE, log 16: R35 says so of matrix write-backs). -/
def State.accLine (s : State) (core ch : Nat) (r : Request) (src dst : Desc) (sk dk : BitVec 16) (b : Nat × Bound)
    (lanes : Word) (pc : Addr) : Option State :=
  let left := min 4096 (r.len - r.done) - r.part
  let db := elemBits (slotElem dk) / 8
  let sb := elemBits (slotElem sk) / 8
  let rest := (accPairs src dst (8 * sb) (8 * db)).drop ((r.done + r.part) / db)
  let chunk := rest.take (left / db)
  let now := chunk.takeWhile fun x => x.1 / 128 == (rest.headD (0, 0)).1 / 128
  let u : Access := { copy := some ch, user := !r.priv }
  let v : Access := { copy := some ch, user := !r.priv, write := true }
  let bill (xs : List (Int × Int)) : Bill :=
    ((if Desc.space src = 1 then {} else s.accessBill core r.ctx u (xs.map fun x => x.2.toNat) true).add
      (if Desc.space dst = 1 then {} else s.accessBill core r.ctx v (xs.map fun x => x.1.toNat) true)).add
        { copy := (left + 127) / 128 }
  let pay := r.bill (bill chunk) (bill now)
  if !s.canPay (s.requestGrid r) pay then none
  else
    match (s.pay core r.ctx (s.requestGrid r) pay).accSteps core ch r src dst sk dk b 0 now with
    | (s1, _, some (.stop e)) => some (s1.stopRequest core ch r e)
    | (s1, _, some .bound) =>
      some ((((s1.hit r.ctx b.1).accBound r.wid lanes pc).updCore core fun c =>
        c.count ch (-((r.part / 4 : Nat) : Int))).endRequest core ch r)
    | (_, 0, some .wait) => none
    | (s1, k, _) =>
      let after := rest.drop k
      let rd := after.foldl (fun (m : Int) (x : Int × Int) => min m x.2) ((after.headD (0, 0)).2)
      some (s1.lineStep core ch r (k * db) 1 false rd.toNat (after.headD (0, 0)).1.toNat)

/-! ## The service of the channels (R398) -/

/-- The request at the head of a channel. -/
def State.headOf (s : State) (core ch : Nat) : Option Request := ((s.core core).queues.getD ch []).head?

/-- The next line of the request at the head of a channel (R261); none: the channel has no work that can go on. A request that
`CANCEL` has stopped, or whose context stops, starts no chunk (R263, R341). -/
def State.headLine (s : State) (core ch : Nat) : Option State :=
  match s.headOf core ch with
  | none => none
  | some r =>
    if r.stop && r.part = 0 then (if s.wgRetired r.wg then some (s.endRequest core ch r) else none)
    else if (s.ctx r.ctx).stopped && r.part = 0 then none
    else
      match r.work with
      | .copy src dst ssp dsp srank dmask => s.copyLine core ch r src dst ssp dsp srank dmask
      | .gath size dst src => s.gathLine core ch r size dst src
      | .acc src dst sk dk b lanes pc => s.accLine core ch r src dst sk dk b lanes pc

/-- The channels that come before one in the round robin of a core (R398). -/
def Core.before (c : Core) (ch : Nat) : List Nat :=
  ((List.range 4).map fun k => (c.served + 1 + k) % 4).takeWhile fun x => x != ch

/-- The PRIO hint at the head of a channel. -/
def State.prioOf (s : State) (core ch : Nat) : Nat := ((s.headOf core ch).map (·.prio)).getD 0

/-- A channel is the next to be served: none that comes before it has work, but for one whose head has a lower PRIO (R398). -/
def State.ladleTurn (s : State) (core ch : Nat) : Bool :=
  ((s.core core).before ch).all fun x => (s.headLine core x).isNone || s.prioOf core x < s.prioOf core ch

/-- `COPY_CHUNK` (R261, R398): the next line of a channel whose turn it is. Nothing happens while its source line is empty
(R245) or a budget is exhausted (R393). -/
def execCopyChunk (core ch : Nat) (s : State) : Out :=
  .next (match s.headLine core ch with
    | none => s
    | some s1 => if s.ladleTurn core ch then s1.updCore core fun c => { c with served := ch } else s)

end Sys2Proof.Machine
end

