-- ==== Sys2Proof/Machine/Curd.lean ====
section
/-!
DEFINITION. Curd mode of the matrix engine: counters with residues (R117), banks, the residue column (R118), spill drains
and drains, merges and bank images (R283–R288, R355), and accumulator words with the suspect check (R294).
-/

namespace Sys2Proof.Machine

/-! ## What an entry works on -/

/-- Why an entry stops before its end: it waits for a scratchpad line (R298), a translation fault holds it (R300), or it is
dropped with an engine trap (R296). -/
inductive Halt where
  | wait
  | hold (info : Word) (addr : BitVec 64)
  | stop (t : Trap)
  deriving DecidableEq, Repr

/-- What the performance of an entry changes on the engine's side: the engine, `mstat`, and the injection that may fire
(R119, R120): `fixed` when a second attempt corrected it (R293). -/
structure Bench where
  eng   : Engine
  mstat : Word
  inj   : Option Inj
  fired : Bool
  fixed : Bool
  /-- banks that spilled, for their charge (R406) -/
  spills : Nat
  deriving DecidableEq, Repr

/-- What stays as it is during an entry: the address of its instruction, `.TS`, the two element codes. -/
structure Pass where
  pc : Addr
  ts : Bool
  ea : Nat
  eb : Nat
  deriving DecidableEq, Repr

/-- A step of an entry, or the state it leaves and its trap. -/
abbrev Try := Except (Bench × Trap) Bench

/-- `tinfo` of `MRESIDUE`, `SUSPECT`, engine `DATA` and `BOUND` (R296). -/
def engInfo (kind row col blk tile : Nat) (inj : Bool) : Word :=
  BitVec.ofNat 32 (kind + row % 32 * 16 + col % 256 * 2 ^ 9 + blk % 8 * 2 ^ 17 + tile % 4 * 2 ^ 20 +
    (if inj then 2 ^ 22 else 0) + 2 ^ 23)

/-- Bits of `mstat` set (R295). -/
def Bench.note (w : Bench) (bits : Word) : Bench := { w with mstat := w.mstat ||| bits }

/-- An injection of class 4 fires at a write for an output row (R119, R120, R293): corrected by the second attempt, or the
written word is struck. -/
def Bench.strike (w : Bench) (row : Nat) (flip : Engine → Inj → Engine) : Bench :=
  match w.inj with
  | none => w
  | some j =>
    if j.lane % 16 != row % 16 then w
    else if j.after then { w with eng := flip w.eng j, inj := none, fired := true }
    else { w with mstat := w.mstat ||| 64, inj := none, fired := true, fixed := true }

/-! ## Accumulator words -/

/-- A tile of the engine. -/
def Engine.tile (g : Engine) (t : Nat) : Tile := g.tiles.getD t .zero
/-- The engine with a tile replaced. -/
def Engine.setTile (g : Engine) (t : Nat) (x : Tile) : Engine := { g with tiles := KMap.set g.tiles t x .zero }
/-- A word of a tile by linear index (R269). -/
def Engine.tileWord (g : Engine) (t i : Nat) : CWord := (g.tile t).words.getD i .zero
/-- The engine with a tile word written. -/
def Engine.setTileWord (g : Engine) (t i : Nat) (w : CWord) : Engine :=
  let x := g.tile t
  g.setTile t { x with words := KMap.set x.words i w .zero }
/-- RB taken where it is unset (R281, R286). -/
def Engine.takeRb (g : Engine) (t : Nat) (b : Option Int) : Engine :=
  let x := g.tile t
  if x.rb.isSome || b.isNone then g else g.setTile t { x with rb := b }

/-- `⌈log2 n⌉` for n ≥ 1. -/
def clog2 (n : Nat) : Nat := if n ≤ 1 then 0 else Nat.log2 (n - 1) + 1

/-- emax of R294: 15 for binary16, 127 for bfloat16, else that of R84. -/
def emaxOf (el : Nat) : Int := if el = 1 then 15 else if el = 2 then 127 else emax el

/-- A contribution is suspect (R294). -/
def suspect (p : Pass) (v : FVal) (n : Nat) (smax : Int) : Bool :=
  match v with
  | .fin _ m e => m != 0 && decide (smax + emaxOf p.ea + emaxOf p.eb + 7 + clog2 n ≤ log2X m e)
  | _ => false

/-- The binary32 word is ±∞ or NaN. -/
def isWild (w : Word) : Bool := w &&& 0x7F800000 == 0x7F800000

/-- A contribution added to an accumulator word (R102, R286, R294, R295); `kind` is 1 for a block and 2 for a drain. A word
whose residue fails is not used (R292, R293). -/
def Bench.addTo (w : Bench) (p : Pass) (kind t i row col blk n : Nat) (smax : Int) (v : FVal) : Try :=
  let old := w.eng.tileWord t i
  let sus := suspect p v n smax
  let w1 := if sus then w.note 16 else w
  if !old.wellFormed then .error (w, ⟨causeMresidue, engInfo kind row col blk t true, p.pc.zeroExtend 64⟩)
  else if sus && p.ts then
    .error (w1, ⟨causeSuspect, engInfo (5 + kind) row col blk t false, p.pc.zeroExtend 64⟩)
  else
    let x : Word := BitVec.ofNat 32 (roundTo .f32 0 (addX 0 (Ieee.f32.decode old.data.toNat) v).1).1
    let w2 := if isWild x then w1.note 8 else w1
    .ok ({ w2 with eng := w2.eng.setTileWord t i (.gen x) }.strike row fun g j =>
      g.setTileWord t i (flipWord (g.tileWord t i) j.bit j.rfld))

/-! ## Counters (R117) -/

/-- The residue of a counter's pattern. -/
def res24 (v : BitVec 24) : BitVec 4 := res (v.zeroExtend 32)
/-- A counter agrees with its residue. -/
def Counter.ok (c : Counter) : Bool := c.tag == res24 c.value
/-- The value. -/
def Counter.val (c : Counter) : Int := c.value.toInt
/-- The counter at 0. -/
def Counter.zero : Counter := ⟨0, 0⟩
/-- A counter as its checked word in an image (R287). -/
def Counter.word (c : Counter) : CWord := ⟨c.value.signExtend 32, c.tag⟩

/-- An increment with its predicted residue; none on a mismatch (R117). -/
def Counter.add (c : Counter) (x : BitVec 24) : Option Counter :=
  let v := c.value + x
  let k : Int := if 2 ^ 24 ≤ c.value.toNat + x.toNat then 1 else 0
  let pred := mod15 (c.tag.toNat + (res24 x).toNat - k)
  if pred == res24 v then some ⟨v, pred⟩ else none

/-- A shift left with its predicted residue; none on a mismatch (R117). -/
def Counter.shl (c : Counter) (d : Nat) : Option Counter :=
  let v := c.value <<< d
  let out : Int := (c.value.toNat * 2 ^ d / 2 ^ 24 : Nat)
  let pred := mod15 (2 ^ d * c.tag.toNat - out)
  if pred == res24 v then some ⟨v, pred⟩ else none

/-- A counter struck by an injection (R119, R120). -/
def Counter.flip (c : Counter) (i : Inj) : Counter :=
  if i.rfld then ⟨c.value, c.tag ^^^ (1#4 <<< (i.bit % 4))⟩ else ⟨c.value ^^^ (1#24 <<< (i.bit % 24)), c.tag⟩

/-- RANGE of R284. -/
def inRange (x : Int) : Bool := decide (-2 ^ 23 ≤ x ∧ x < 2 ^ 23)

/-! ## Banks -/

/-- The weight numerators w_j of a format (R283). -/
def curdWeights (el : Nat) : List Nat :=
  if el = 10 then [1, 2, 3, 4, 6, 8, 9, 12, 16, 18, 24, 32, 36, 48, 64, 72, 96, 144]
  else [1, 2, 3, 4, 6, 8, 9, 12, 16, 18, 24, 32, 36, 48, 64, 96, 128, 256]

/-- The power of 2 of the weights (R283). -/
def curdExp (el : Nat) : Int := if el = 10 then -2 else -4

/-- FMT of a bank set (R287) for an element code. -/
def fmtOf (el : Nat) : Nat := if el = 10 then 1 else 2
/-- The element code of a FMT. -/
def elemOfFmt (f : Nat) : Nat := if f = 1 then 10 else 5

/-- The product of two codes as class and sign; none with a zero operand (R283). -/
def productClass (el a b : Nat) : Option (Nat × Bool) :=
  let (ma, xa) := magOf el (a % 8)
  let (mb, xb) := magOf el (b % 8)
  if ma = 0 || mb = 0 then none
  else
    let w := ma * mb * 2 ^ (xa + xb - curdExp el).toNat
    some ((curdWeights el).idxOf w, (a / 8 + b / 8) % 2 == 1)

/-- h_j of a block: positive minus negative products of each class (R283). -/
def histogram (el : Nat) (ps : List (Nat × Nat)) : List Int :=
  let cs := ps.filterMap fun p => productClass el p.1 p.2
  (List.range 18).map fun j => cs.foldl (fun (n : Int) c => if c.1 = j then (if c.2 then n - 1 else n + 1) else n) 0

/-- A counter of a bank. -/
def Bank.get (b : Bank) (j : Nat) : Counter := b.cnt.getD j .zero
/-- A bank of the engine. -/
def Engine.bank (g : Engine) (k : Nat) : Bank := g.banks.getD k .empty
/-- The engine with a bank replaced. -/
def Engine.setBank (g : Engine) (k : Nat) (b : Bank) : Engine := { g with banks := KMap.set g.banks k b .empty }

/-- Every counter changed; none when a check fails. -/
def Bank.mapCounters (b : Bank) (f : Nat → Counter → Option Counter) : Option Bank :=
  (List.range 18).foldl (fun acc j =>
    match acc with
    | none => none
    | some x =>
      match f j (b.get j) with
      | none => none
      | some c => some { x with cnt := KMap.set x.cnt j c .zero }) (some b)

/-- The counters shifted up (R284, R288). -/
def Bank.shl (b : Bank) (d : Nat) : Option Bank := b.mapCounters fun _ c => if c == .zero then some c else c.shl d

/-- h_j × 2^d added to every counter (R284). -/
def Bank.addHist (b : Bank) (h : List Int) (d : Nat) : Option Bank :=
  b.mapCounters fun j c => if h.getD j 0 = 0 then some c else c.add (BitVec.ofInt 24 (h.getD j 0 * 2 ^ d))

/-- c_j × 2^a + h_j × 2^d stays in RANGE for every j (R284). -/
def Bank.fits (b : Bank) (a : Nat) (h : List Int) (d : Nat) : Bool :=
  (List.range 18).all fun j => inRange ((b.get j).val * 2 ^ a + h.getD j 0 * 2 ^ d)

/-- A drained or cleared bank (R286). -/
def Bank.emptied (b : Bank) : Bank := { b with cnt := [], e := true, nan := false, nb := 0, smax := -512 }

/-! ## The residue column (R118, R355) -/

/-- 2^t modulo 15, negative powers through `inv2` (R106). -/
def pow2mod (t : Int) : Int := 2 ^ (t % 4).toNat

/-- Terms x_j × 2^t added to row `m` of the column. -/
def Engine.addColumn (g : Engine) (m : Nat) (xs : List Int) (t : Int) : Engine :=
  { g with column := (xs.zipIdx).foldl (fun q x =>
      KMap.set q (m * 18 + x.2) (mod15 ((KMap.getD q (m * 18 + x.2) 0 : Nat) + x.1 * pow2mod t)).toNat 0) g.column }

/-- The counters of a bank as integers. -/
def Bank.vals (b : Bank) : List Int := (List.range 18).map fun j => (b.get j).val

/-- The banks of a row. -/
def Engine.row (g : Engine) (m : Nat) : List (Nat × Bank) := g.banks.filter fun e => e.1 / 256 == m

/-- A counter's value modulo 15 by its residue, which is that of its 24-bit pattern: 2^24 more, so 1 more, than a negative
value (R117). -/
def Counter.term (c : Counter) : Int := (c.tag.toNat : Int) - (if c.value.msb then 1 else 0)

/-- The residue that row `m` must have at index `j`: of the sum of its counters, each by its own residue (R118). -/
def rowResidue (bs : List (Nat × Bank)) (j : Nat) : Nat :=
  (mod15 (bs.foldl (fun n e => n + (e.2.get j).term * pow2mod e.2.tag) 0)).toNat

/-- The comparison of a row's column with its counters (R292): none when they agree; the flag says that a counter
disagrees with its own residue, which an injection left. -/
def Engine.rowBad (g : Engine) (m : Nat) : Option Bool :=
  let bs := g.row m
  if bs.any fun e => e.2.cnt.any fun c => !c.2.ok then some true
  else if (List.range 18).all fun j => rowResidue bs j == g.column.getD (m * 18 + j) 0 then none
  else some false

/-! ## Drains (R286) -/

/-- The exact sum that a bank stands for (R286). -/
def bankValue (el : Nat) (b : Bank) : FVal :=
  let x : Int := ((b.vals.zip (curdWeights el)).map fun y => y.1 * (y.2 : Int)).sum
  .fin (x < 0) x.natAbs (b.tag + curdExp el)

/-- One bank drained into element (m, n) of a tile; its terms leave the column (R286, R355). -/
def Bench.drainBank (w : Bench) (p : Pass) (m n t : Nat) : Try :=
  let b := w.eng.bank (256 * m + n)
  let el := elemOfFmt w.eng.fmt
  let i := 256 * m + n
  let w1 : Try :=
    if b.nan then .ok { w.note 8 with eng := w.eng.setTileWord t i (.gen 0x7FC00000) }
    else if b.e then .ok w
    else w.addTo { p with ea := el, eb := el } 2 t i m n 0 b.nb b.smax (bankValue el b)
  match w1 with
  | .error x => .error x
  | .ok w2 =>
    .ok { w2 with eng := (((w2.eng.setBank i b.emptied).addColumn m (b.vals.map fun x => -x) b.tag).takeRb t w2.eng.bias) }

/-- A spill drain of one bank into the drain tile (R284, R355). -/
def Bench.spill (w : Bench) (p : Pass) (m n : Nat) : Try :=
  match w.eng.rowBad m with
  | some inj => .error (w, ⟨causeMresidue, engInfo 2 m n 0 w.eng.drain inj, p.pc.zeroExtend 64⟩)
  | none =>
    match w.drainBank p m n w.eng.drain with
    | .error x => .error x
    | .ok w1 =>
      let cnt := min (bitsOf w1.mstat.toNat 8 8 + 1) 255
      .ok { w1 with mstat := (w1.mstat &&& 0xFFFF00FF) ||| BitVec.ofNat 32 (cnt * 256) ||| 1, spills := w1.spills + 1 }

/-- The nonempty banks of a row drained in ascending column (R286). -/
def Bench.drainList (w : Bench) (p : Pass) (m t : Nat) : List Nat → Try
  | [] => .ok w
  | n :: ns =>
    match w.drainBank p m n t with
    | .error x => .error x
    | .ok w1 => Bench.drainList w1 p m t ns

/-- The rows from `m` up drained, each compared first (R286, R292). -/
def Bench.drainRows (w : Bench) (p : Pass) (t : Nat) : Nat → Nat → Try
  | 0, _ => .ok w
  | k + 1, m =>
    match w.eng.rowBad m with
    | some inj => .error (w, ⟨causeMresidue, engInfo 2 m 0 0 t inj, p.pc.zeroExtend 64⟩)
    | none =>
      match w.drainList p m t (((w.eng.row m).filter fun e => !e.2.e || e.2.nan).map fun e => e.1 % 256) with
      | .error x => .error x
      | .ok w1 =>
        Bench.drainRows { w1 with eng := { w1.eng with column := w1.eng.column.filter fun e => e.1 / 18 != m } } p t k
          (m + 1)

/-- `CDRAIN` (R286). -/
def Bench.cdrain (w : Bench) (p : Pass) (t : Nat) : Try :=
  match w.drainRows p t 16 0 with
  | .error x => .error x
  | .ok w1 => .ok { w1 with eng := { (w1.eng.takeRb t w1.eng.bias) with drain := t } }

/-- `CCLR` (R286). -/
def Engine.cclr (g : Engine) (t : Nat) : Engine :=
  { g with banks := g.banks.filterMap fun e =>
             if e.2.emptied == .empty then none else some (e.1, e.2.emptied)
           column := [], fmt := 0, bias := none, drain := t }

/-! ## The update of a bank by a block (R284) -/

/-- A block added to a bank that it fits: counters, NB, SMAX and the column. -/
def Bench.putBlock (w : Bench) (p : Pass) (m n blk : Nat) (b : Bank) (sc : Int) (h : List Int) : Try :=
  match b.addHist h (sc - b.tag).toNat with
  | none => .error (w, ⟨causeMresidue, engInfo 0 m n blk 0 true, p.pc.zeroExtend 64⟩)
  | some b1 =>
    let b2 := { b1 with nb := min (b.nb + 1) 65535, smax := max b.smax sc }
    let k := 256 * m + n
    let j := (h.findIdx fun x => x != 0)
    .ok ({ w with eng := (w.eng.setBank k b2).addColumn m h sc }.strike m fun g i =>
      let b := g.bank k
      g.setBank k { b with cnt := KMap.set b.cnt j ((b.get j).flip i) .zero })

/-- A spill, then the block into the emptied bank. -/
def Bench.spillBlock (w : Bench) (p : Pass) (m n blk : Nat) (sc : Int) (h : List Int) : Try :=
  match w.spill p m n with
  | .error x => .error x
  | .ok w1 => w1.putBlock p m n blk { w1.eng.bank (256 * m + n) with tag := sc, e := false } sc h

/-- One block received by bank (m, n) (R284); `nan`: a scale is 0xFF. -/
def Bench.block (w : Bench) (p : Pass) (m n blk : Nat) (sc : Int) (h : List Int) (nan : Bool) : Try :=
  let k := 256 * m + n
  let b := w.eng.bank k
  if nan then .ok { w.note 4 with eng := w.eng.setBank k { b with nan := true } }
  else if h.all (· == 0) then .ok w
  else
    let b1 := if b.e then { b with tag := sc, e := false } else b
    let d := sc - b1.tag
    if d < 0 then
      if b1.fits (-d).toNat h 0 then
        match b1.shl (-d).toNat with
        | none => .error (w, ⟨causeMresidue, engInfo 0 m n blk 0 true, p.pc.zeroExtend 64⟩)
        | some b2 => (w.note 2).putBlock p m n blk { b2 with tag := sc } sc h
      else w.spillBlock p m n blk sc h
    else if 7 < d || !b1.fits 0 h d.toNat then w.spillBlock p m n blk sc h
    else w.putBlock p m n blk b1 sc h

/-! ## Bank images (R287) -/

/-- Bytes of a bank image. -/
def imageBytes : Nat := 328960

/-- The word `k` of a bank's record (R287). -/
def Bank.word (b : Bank) (k : Nat) : CWord :=
  if k < 18 then (b.get k).word
  else if k = 18 then .gen (BitVec.ofNat 32 ((b.tag % 1024).toNat + (if b.e then 2 ^ 10 else 0) + (if b.nan then 2 ^ 11 else 0)))
  else .gen (BitVec.ofNat 32 ((b.smax % 1024).toNat + b.nb * 1024))

/-- The trailer (R287). -/
def Engine.trailer (g : Engine) : Word :=
  BitVec.ofNat 32 (g.fmt + (if g.bias.isSome then 4 else 0) + ((g.bias.getD 0) % 256).toNat * 8)

/-- The words of the bank set's image (R287). -/
def Engine.image (g : Engine) : List CWord :=
  ((List.range 4096).flatMap fun k => (List.range 20).map (g.bank k).word) ++
    ((List.range 288).map fun k => CWord.gen (BitVec.ofNat 32 (g.column.getD k 0))) ++
    (.gen g.trailer :: List.replicate 31 .zero)

/-- A record from its 20 words: none when a reserved field is not zero (R287, R288). -/
def bankOf (ws : List CWord) : Option Bank :=
  let d (k : Nat) : Nat := ((ws.getD k .zero).data).toNat
  let ok := (List.range 18).all fun k => bitsOf (d k) 24 8 == if (d k).testBit 23 then 255 else 0
  if !ok || d 18 / 2 ^ 12 != 0 || d 19 / 2 ^ 26 != 0 then none
  else
    some { cnt := (List.range 18).foldl (fun m k =>
             KMap.set m k ⟨BitVec.ofNat 24 (d k), (ws.getD k .zero).tag⟩ .zero) []
           tag := sextN 10 (d 18), e := (d 18).testBit 10, nan := (d 18).testBit 11, nb := bitsOf (d 19) 10 16,
           smax := sextN 10 (d 19) }

/-- A bank set read from an image. -/
structure BankSet where
  banks  : List Bank
  column : List Nat
  fmt    : Nat
  bias   : Option Int
  deriving DecidableEq, Repr

/-- The image's bank set: none when a reserved field is not zero or FMT is 3, or FMT is 0 and a bank is not empty (R288). -/
def bankSetOf (ws : List CWord) : Option BankSet :=
  let bs := (List.range 4096).map fun k => bankOf ((ws.drop (20 * k)).take 20)
  let col := ((ws.drop 81920).take 288).map fun w => w.data.toNat
  let tr := (ws.getD 82208 .zero).data.toNat
  if bs.any (·.isNone) || (col.any fun x => 16 ≤ x) || 2 ^ 11 ≤ tr || (ws.drop 82209).any (fun w => w.data != 0) ||
      tr % 4 = 3 then none
  else
    let banks := bs.filterMap fun b => b
    if tr % 4 = 0 && banks.any fun b => !b.e then none
    else some ⟨banks, col, tr % 4, if tr.testBit 2 then some (sextN 8 (tr / 8)) else none⟩

/-- A row of an image disagrees with its column (R118, R288). -/
def BankSet.rowBad (x : BankSet) (m : Nat) : Bool :=
  let bs := (((x.banks.drop (256 * m)).take 256).zipIdx).map fun b => (b.2, b.1)
  (List.range 18).any fun j => rowResidue bs j != x.column.getD (18 * m + j) 0

/-! ## `CMERGE` (R288) -/

/-- Two aligned records added; none when a counter check fails. -/
def Bank.plus (a b : Bank) : Option Bank := a.mapCounters fun j c => if b.get j == .zero then some c else c.add (b.get j).value

/-- A record taken whole into a bank. -/
def Bench.takeBank (w : Bench) (m n : Nat) (nan : Bool) (b : Bank) : Bench :=
  { w with eng := (w.eng.setBank (256 * m + n) { b with nan := nan }).addColumn m b.vals b.tag }

/-- One record of the image merged (R288). -/
def Bench.mergeBank (w : Bench) (p : Pass) (m n : Nat) (b : Bank) : Try :=
  let k := 256 * m + n
  let a := w.eng.bank k
  let nan := a.nan || b.nan
  let bad : Bench × Trap := (w, ⟨causeMresidue, engInfo 0 m n 0 0 true, p.pc.zeroExtend 64⟩)
  let w1 : Bench := { w with eng := w.eng.setBank k { a with nan := nan } }
  if b.e then .ok { w1 with eng := w1.eng.addColumn m b.vals b.tag }
  else if a.e then .ok (w1.takeBank m n nan b)
  else
    let t := min a.tag b.tag
    let da := (a.tag - t).toNat
    let db := (b.tag - t).toNat
    let fits := da ≤ 23 && db ≤ 23 && (List.range 18).all fun j =>
      inRange ((a.get j).val * 2 ^ da) && inRange ((b.get j).val * 2 ^ db) &&
        inRange ((a.get j).val * 2 ^ da + (b.get j).val * 2 ^ db)
    if !fits then
      match w1.spill p m n with
      | .error x => .error x
      | .ok w2 => .ok (w2.takeBank m n false b)
    else
      match a.shl da, b.shl db with
      | some a1, some b1 =>
        match a1.plus b1 with
        | none => .error bad
        | some c =>
          let c1 := { c with tag := t, e := false, nan := nan, nb := min (a.nb + b.nb) 65535, smax := max a.smax b.smax }
          .ok ({ w1 with eng := (w1.eng.setBank k c1).addColumn m b.vals b.tag }.strike m fun g i =>
            let x := g.bank k
            g.setBank k { x with cnt := KMap.set x.cnt 0 ((x.get 0).flip i) .zero })
      | _, _ => .error bad

/-- The records of an image merged in turn. -/
def Bench.mergeList (w : Bench) (p : Pass) : List (Bank × Nat) → Try
  | [] => .ok w
  | x :: xs =>
    match w.mergeBank p (x.2 / 256) (x.2 % 256) x.1 with
    | .error e => .error e
    | .ok w1 => Bench.mergeList w1 p xs

/-- `CMERGE` of an image's words (R288). -/
def Bench.cmerge (w : Bench) (p : Pass) (ws : List CWord) : Try :=
  let pc := p.pc.zeroExtend 64
  match bankSetOf ws with
  | none => .error (w, ⟨causeData, engInfo 9 0 0 0 0 false, pc⟩)
  | some x =>
    if x.fmt != 0 && w.eng.fmt != 0 && x.fmt != w.eng.fmt then .error (w, ⟨causeData, engInfo 9 0 0 0 0 false, pc⟩)
    else
      match (List.range 16).find? x.rowBad with
      | some m => .error (w, ⟨causeMresidue, engInfo 3 m 0 0 0 false, pc⟩)
      | none =>
        match w.mergeList p x.banks.zipIdx with
        | .error e => .error e
        | .ok w1 =>
          .ok { w1 with eng := { w1.eng with
            fmt := if w1.eng.fmt = 0 then x.fmt else w1.eng.fmt
            bias := if w1.eng.bias.isSome then w1.eng.bias else x.bias } }

end Sys2Proof.Machine
end

