-- ==== Sys2Proof/Machine/Plane.lean ====
section
/-!
DEFINITION. The engine's operand fetch with the edges of a tensor (R298–R301, R87), stationary planes (R277, R278), streams
(R280, R281, R102) and the loading and storing of tiles (R289, R290).
-/

namespace Sys2Proof.Machine

/-! ## Classes (R277) -/

/-- The class of an element format: 0 curd, 1 8-bit, 2 16-bit, 3 none (R277). -/
def matClass (el : Nat) : Nat :=
  match el with
  | 5 | 10 => 0
  | 3 | 4 | 6 | 7 | 8 | 9 => 1
  | 1 | 2 => 2
  | _ => 3

/-- Kp of a class. -/
def planeK (c : Nat) : Nat := if c = 0 then 256 else if c = 1 then 128 else 64
/-- Np of a class. -/
def planeN (c : Nat) : Nat := if c = 0 then 256 else 128

/-! ## Operand fetch (R298, R301) -/

/-- An engine `DATA` trap of an entry (R296). -/
def Entry.data (e : Entry) (kind tile : Nat) : Trap := ⟨causeData, engInfo kind 0 0 0 tile false, e.pc.zeroExtend 64⟩

/-- A word of an operand tensor, unchecked: as the fetcher read it ahead, or as it is now (R298); a global address outside the
address space is a format fault (R37). -/
def State.fetchRaw (s : State) (e : Entry) (pad : Bool) (a : Int) : Except Halt CWord :=
  if pad then
    match e.ahead.get? a.toNat with
    | some w => .ok w
    | none => if (s.wgOf e.wid).lineFull a.toNat then .ok ((s.wgOf e.wid).pad.word a.toNat) else .error .wait
  else if a < 0 || 2 ^ 55 ≤ a then .error (.stop (e.data 9 0))
  else
    match e.ahead.get? a.toNat with
    | some w => .ok w
    | none =>
      match s.translate (warpCore e.wid) (s.ctxOf e.wid) a.toNat { user := !e.priv, mat := true } with
      | .error info => .error (.hold info (BitVec.ofNat 64 a.toNat))
      | .ok pa => .ok (s.engineWord (warpCore e.wid) (s.ctx (s.ctxOf e.wid)).pitch e.priv pa)

/-- A checked word: `POISON` or `RESIDUE` at SITE 7, and for `MLDS` a mismatch is `MRESIDUE` of KIND 5 (R298), after
which R293 fetches again. -/
def checkFetched (e : Entry) (w : CWord) : Except Halt CWord :=
  if w.poisoned then .error (.stop ⟨causePoison, residueInfo 7 2 false false, e.pc.zeroExtend 64⟩)
  else if w.mismatched then
    if e.op == .mlds then .error (.stop ⟨causeMresidue, engInfo 5 0 0 0 0 false, e.pc.zeroExtend 64⟩)
    else .error (.stop ⟨causeResidue, residueInfo 7 2 false false, e.pc.zeroExtend 64⟩)
  else .ok w

/-- A word of an operand tensor. -/
def State.fetchWord (s : State) (e : Entry) (pad : Bool) (a : Int) : Except Halt CWord :=
  match s.fetchRaw e pad a with
  | .error h => .error h
  | .ok w => checkFetched e w

/-- `n` bits at bit `k` of the byte at an address (R33). -/
def State.fetchBits (s : State) (e : Entry) (pad : Bool) (a : Int) (k n : Nat) : Except Halt Nat := do
  let base := a / 4 * 4
  let pos := 8 * (a - base).toNat + k
  let lo ← s.fetchWord e pad base
  if pos + n ≤ 32 then return bitsOf lo.data.toNat pos n
  else
    let hi ← s.fetchWord e pad (base + 4)
    return bitsOf (lo.data.toNat + hi.data.toNat * 2 ^ 32) pos n

/-- The tensor holds the element (i1, i0) of its first plane (R301). -/
def Desc.holds (d : Desc) (i1 i0 : Nat) : Bool := decide (i1 < Desc.extent d 1 ∧ i0 < Desc.extent d 0)

/-- The code of an element: 0 past the tensor's extent (R301). -/
def State.elemCode (s : State) (e : Entry) (i1 i0 : Nat) : Except Halt Nat :=
  let b := elemBits (slotElem e.slot)
  if Desc.holds e.hdl i1 i0 then
    s.fetchBits e (Desc.space e.hdl == 1) (Desc.elemAddr e.hdl b i1 0 0 i0) (i0 * b % 8) b
  else .ok 0

/-- The elements of the block that holds an element (R85). -/
def blockOf (slay i1 i0 : Nat) : List (Nat × Nat) :=
  (List.range 32).map fun k => if slay = 1 then (i1, i0 / 32 * 32 + k) else (i1 / 32 * 32 + k, i0)

/-- The scale byte of an element's block as read: 0x00 for a block wholly outside (R301), 0xFF for one that holds a
non-finite code (R87). -/
def State.scaleCode (s : State) (e : Entry) (i1 i0 : Nat) : Except Halt Nat := do
  let d := e.hdl
  let el := slotElem e.slot
  let blk := blockOf (Desc.slay d) i1 i0
  if !(blk.any fun x => Desc.holds d x.1 x.2) then return 0
  else
    let x ← s.fetchBits e (Desc.space d == 1) (Desc.scaleAddr d i1 0 0 i0) 0 8
    if el == 6 || el == 7 then
      let cs ← blk.mapM fun y => s.elemCode e y.1 y.2
      return if cs.any (ocpSpecial el) then 255 else x
    else return x

/-- The scale of an element as an exponent: 0 without blocks, none for 0xFF (R280, R85). -/
def scaleExp (k : BitVec 16) (x : Nat) : Option Int :=
  if !slotBlk k then some 0 else if x = 255 then none else some ((x : Int) - 127)

/-- The codes of `rows` × `cols` elements from (i1, i0). -/
def State.fetchRect (s : State) (e : Entry) (i1 rows i0 cols : Nat) : Except Halt (List (List Nat)) :=
  (List.range rows).mapM fun r => (List.range cols).mapM fun c => s.elemCode e (i1 + r) (i0 + c)

/-- A table of the values of a list that are not 0, by index. -/
def tableOf (xs : List Nat) : KMap Nat := xs.zipIdx.filterMap fun x => if x.1 = 0 then none else some (x.2, x.1)

/-! ## Planes (R277–R279) -/

/-- The scale index of plane element (k, n). -/
def planeBlock (slay kp k n : Nat) : Nat := if slay = 2 then n / 32 * kp + k else n * (kp / 32) + k / 32

/-- The words of a plane region: elements, scales, and in the last word slot, BIAS, SLAY and the valid bit (log 17). -/
def Plane.words (p : Plane) : List Word :=
  let el := slotElem p.slot
  let cls := matClass el
  let n := planeK cls * planeN cls
  let codes := joinFields (elemBits el) ((List.range n).map fun i => p.codes.getD i 0)
  let scales := if slotBlk p.slot then joinFields 8 ((List.range (n / 32)).map fun i => p.scales.getD i 0) else []
  let body := codes ++ scales
  let last := BitVec.ofNat 32 (p.slot.toNat + (p.bias % 256).toNat * 2 ^ 16 + p.slay % 8 * 2 ^ 24 +
    (if p.valid then 2 ^ 27 else 0))
  if p.valid then (body ++ List.replicate (9215 - body.length) 0) ++ [last] else List.replicate 9216 0

/-- The code of plane element P(k, n). -/
def Plane.code (p : Plane) (k n : Nat) : Nat := p.codes.getD (n * planeK (matClass (slotElem p.slot)) + k) 0

/-- The scale exponent of plane element P(k, n). -/
def Plane.scale (p : Plane) (k n : Nat) : Option Int :=
  scaleExp p.slot (p.scales.getD (planeBlock p.slay (planeK (matClass (slotElem p.slot))) k n) 0)

/-- The plane element that meets position `k` of the reduction in output `o`: forward over K, backward over N. -/
def Plane.along (p : Plane) (bwd : Bool) (o k : Nat) : Nat := if bwd then p.code o k else p.code k o

/-- The scale of block `b` of output `o`. -/
def Plane.scaleAlong (p : Plane) (bwd : Bool) (o b : Nat) : Option Int :=
  if bwd then p.scale o (32 * b) else p.scale (32 * b) o

/-- Outputs of a stream in a direction. -/
def Plane.outs (p : Plane) (bwd : Bool) : Nat :=
  if bwd then planeK (matClass (slotElem p.slot)) else planeN (matClass (slotElem p.slot))

/-- A finite number × 2^t modulo 15 (R118). -/
def resScaled (v : FVal) (t : Int) : Option Int :=
  match v with
  | .fin n m e => some ((if n then -(m : Int) else m) * pow2mod (e + t))
  | _ => none

/-- Block `b` of output `o` is a sum of finite numbers: its scale and its elements are. -/
def Plane.finiteBlock (p : Plane) (bwd : Bool) (o b : Nat) : Option Int :=
  if (List.range 32).all fun k => (resScaled (decodeElem (slotElem p.slot) (p.along bwd o (32 * b + k))) 0).isSome then
    p.scaleAlong bwd o b
  else none

/-- The outputs whose block `b` is finite, with its scale. -/
def Plane.finiteOuts (p : Plane) (bwd : Bool) (b : Nat) : List (Nat × Int) :=
  (List.range (p.outs bwd)).filterMap fun o => (p.finiteBlock bwd o b).map fun sc => (o, sc)

/-- The residue of the sum of row `k` over the outputs, with their scales (R118). -/
def Plane.rowSum (p : Plane) (bwd : Bool) (k : Nat) : Nat :=
  (mod15 (((p.finiteOuts bwd (k / 32)).filterMap fun x =>
    resScaled (decodeElem (slotElem p.slot) (p.along bwd x.1 k)) x.2).sum)).toNat

/-- The histogram of the 4-bit codes of row `k` over the outputs, each weighted by its scale (R118). -/
def Plane.rowHist (p : Plane) (bwd : Bool) (k : Nat) : List Nat :=
  (List.range 16).map fun c => (mod15 (((p.finiteOuts bwd (k / 32)).filterMap fun x =>
    if p.along bwd x.1 k = c then some (pow2mod x.2) else none).sum)).toNat

/-- Row `k` of a direction as a key. -/
def rowKey (bwd : Bool) (k : Nat) : Nat := if bwd then 1024 + k else k

/-- The rows of a plane in both directions. -/
def Plane.rows (p : Plane) : List (Bool × Nat) :=
  (List.range (p.outs true)).map (fun k => (false, k)) ++ (List.range (p.outs false)).map fun k => (true, k)

/-- A plane with the sums or histograms of its rows formed (R278, R118): histograms in curd mode, sums in multiply mode. -/
def Plane.formed (p : Plane) : Plane :=
  if matClass (slotElem p.slot) = 0 then { p with hists := p.rows.map fun r => (rowKey r.1 r.2, p.rowHist r.1 r.2) }
  else { p with sums := p.rows.map fun r => (rowKey r.1 r.2, p.rowSum r.1 r.2) }

/-- The checked words of a plane's region (R304). -/
def Plane.checked (p : Plane) : List CWord := (p.words.zipIdx).map fun x => ⟨x.1, p.tags.getD x.2 0⟩

/-- The residues of the words of a region. -/
def tagsOf (ws : List CWord) : KMap (BitVec 4) := ws.zipIdx.filterMap fun x => if x.1.tag = 0 then none else some (x.2, x.1.tag)

/-- A plane with the residues of its words (R278). -/
def Plane.tagged (p : Plane) : Plane := { p with tags := tagsOf (p.words.map .gen) }

/-- A plane word disagrees with its residue (R292). -/
def Plane.bad (p : Plane) : Bool := p.valid && p.checked.any fun w => !w.wellFormed

/-- The plane in the words of its region (R304). -/
def planeOf (cs : List CWord) : Plane :=
  let ws := cs.map (·.data)
  let last := (ws.getD 9215 0).toNat
  let slot := BitVec.ofNat 16 last
  let el := slotElem slot
  let cls := matClass el
  let n := planeK cls * planeN cls
  if !last.testBit 27 then .empty
  else
    ({ valid := true
       codes := tableOf ((List.range n).map fun i => fieldAt ws (i * elemBits el) (elemBits el))
       scales := if slotBlk slot then
           tableOf ((List.range (n / 32)).map fun i => fieldAt (ws.drop (n * elemBits el / 32)) (8 * i) 8) else []
       slot := slot, bias := sextN 8 (last / 2 ^ 16), slay := bitsOf last 24 3, tags := tagsOf cs, sums := [], hists := [] } :
      Plane).formed

/-- The plane that an `MLDS` entry loads, with its residues, sums and histograms (R278). -/
def State.loadPlane (s : State) (e : Entry) (n0 k0 : Nat) : Except Halt Plane := do
  let cls := matClass (slotElem e.slot)
  let kp := planeK cls
  let np := planeN cls
  let slay := Desc.slay e.hdl
  let codes ← s.fetchRect e n0 np k0 kp
  let scales ←
    if !slotBlk e.slot then pure []
    else if slay = 2 then
      (List.range (np / 32 * kp)).mapM fun i => s.scaleCode e (n0 + i / kp * 32) (k0 + i % kp)
    else (List.range (np * (kp / 32))).mapM fun i => s.scaleCode e (n0 + i / (kp / 32)) (k0 + i % (kp / 32) * 32)
  let p : Plane :=
    { valid := true, codes := tableOf codes.flatten, scales := tableOf scales, slot := e.slot, bias := Desc.bias e.hdl,
      slay := slay, tags := [], sums := [], hists := [] }
  return p.tagged.formed

/-! ## Streams (R280, R281) -/

/-- What R281 refuses; else BIAS_X + BIAS_P. -/
def Engine.streamCheck (g : Engine) (e : Entry) : Except Trap Int :=
  let p := g.active
  let pe := slotElem p.slot
  let xe := slotElem e.slot
  let curd := e.op == .mcnt
  let sum := Desc.bias e.hdl + p.bias
  let tile := if curd then 0 else e.f.d.toNat % 4
  if !p.valid then .error (e.data 8 tile)
  else if matClass xe != matClass pe || (matClass pe == 0) != curd ||
      (curd && (xe != pe || (g.fmt != 0 && fmtOf xe != g.fmt))) || (slotBlk e.slot && Desc.slay e.hdl != 1) ||
      (slotBlk p.slot && p.slay != (if e.f.dirCv then 2 else 1)) || (slotBlk e.slot && e.y.toNat % 32 != 0) then
    .error (e.data 9 tile)
  else if sum < -128 || 127 < sum then .error (e.data 10 tile)
  else .ok sum

/-- The activation slab: for each of 8 rows its codes and its block scales (R280). -/
def State.fetchSlab (s : State) (e : Entry) (row0 o n : Nat) : Except Halt (List (List Nat × List Nat)) :=
  (List.range 8).mapM fun i => do
    let cs ← (List.range n).mapM fun j => s.elemCode e (row0 + i) (o + j)
    let xs ← if slotBlk e.slot then (List.range (n / 32)).mapM fun b => s.scaleCode e (row0 + i) (o + 32 * b) else pure []
    return (cs, xs)

/-- A product as sign, mantissa and exponent (R102). -/
abbrev Term := Bool × Nat × Int

/-- The nonzero products of finite numbers. -/
def termsOf (vs : List FVal) : List Term :=
  vs.filterMap fun v => match v with
    | .fin n m e => if m = 0 then none else some (n, m, e)
    | _ => none

/-- lsb of a block's exact sum: 49 below the binary exponent of its largest product (R102). -/
def lsbOf (ms : List Term) : Int :=
  match ms with
  | [] => 0
  | x :: xs => xs.foldl (fun a y => max a (log2X y.2.1 y.2.2)) (log2X x.2.1 x.2.2) - 49

/-- A term with a sign. -/
def signed (n : Bool) (q : Int) : Int := if n then -q else q

/-- What R102 keeps of the terms, in units of 2^lsb. -/
def keptOf (ms : List Term) (lsb : Int) : Int :=
  (ms.map fun y => signed y.1 (if lsb ≤ y.2.2 then y.2.1 * 2 ^ (y.2.2 - lsb).toNat
    else ((y.2.1 / 2 ^ (lsb - y.2.2).toNat : Nat) : Int))).sum

/-- The residue of what R102 drops below lsb (R118). -/
def droppedOf (ms : List Term) (lsb : Int) : Int :=
  (ms.map fun y => if lsb ≤ y.2.2 then 0
    else signed y.1 ((y.2.1 % 2 ^ (lsb - y.2.2).toNat : Nat) : Int) * pow2mod y.2.2).sum

/-- The products of a block. -/
def productsOf (ps : List (FVal × FVal)) : List FVal := ps.map fun x => (mulX x.1 x.2).1

/-- The exact block sum of R102, or the value of the products that are not finite (R301); the scale applied. -/
def blockSum (ps : List (FVal × FVal)) (sc : Int) : FVal :=
  match (productsOf ps).filter fun v => match v with | .fin _ _ _ => false | _ => true with
  | v :: vs => vs.foldl (fun a x => (addX 0 a x).1) v
  | [] =>
    let ms := termsOf (productsOf ps)
    let t := keptOf ms (lsbOf ms)
    if ms.isEmpty then .fin false 0 0 else .fin (t < 0) t.natAbs (lsbOf ms + sc)

/-- The residue of a block's exact sum, with the bits that R102 drops (R118). -/
def blockResidue (ps : List (FVal × FVal)) (sc : Int) : Int :=
  let ms := termsOf (productsOf ps)
  keptOf ms (lsbOf ms) * pow2mod (lsbOf ms + sc) + droppedOf ms (lsbOf ms) * pow2mod sc

/-- The operand pairs of block `b` of an output. -/
def Plane.pairs (p : Plane) (ea : Nat) (bwd : Bool) (o b : Nat) (xs : List Nat) : List (FVal × FVal) :=
  (List.range 32).map fun k =>
    (decodeElem ea (xs.getD (32 * b + k) 0), decodeElem (slotElem p.slot) (p.along bwd o (32 * b + k)))

/-- The column's check of a row in multiply mode (R118, R292): the residues of the exact block sums of its outputs against the
prediction from the activation row and the plane's row sums. -/
def Plane.rowAgrees (p : Plane) (ea : Nat) (bwd : Bool) (b : Nat) (xs : List Nat) (sc : Int) : Bool :=
  let as := (List.range 32).map fun k => resScaled (decodeElem ea (xs.getD (32 * b + k) 0)) 0
  if as.any (·.isNone) then true
  else
    let pred := ((as.zipIdx).map fun x => x.1.getD 0 * ((p.sums.getD (rowKey bwd (32 * b + x.2)) 0 : Nat) : Int)).sum
    let got := ((p.finiteOuts bwd b).map fun x => blockResidue (p.pairs ea bwd x.1 b xs) x.2).sum
    mod15 (pred * pow2mod sc) == mod15 (got * pow2mod sc)

/-- What the column's prediction of a curd-mode block, from the activation codes and the plane's histograms, adds to a row beyond
its outputs' own histograms (R118): nothing, unless the plane and its histograms disagree. -/
def Plane.columnGap (p : Plane) (el : Nat) (bwd : Bool) (b : Nat) (xs : List Nat) : List Int :=
  let outs := p.finiteOuts bwd b
  let hs := outs.map fun x => (histogram el ((List.range 32).map fun k =>
    (xs.getD (32 * b + k) 0, p.along bwd x.1 (32 * b + k))), x.2)
  (List.range 18).map fun j =>
    let pred := ((List.range 32).map fun k =>
      ((p.hists.getD (rowKey bwd (32 * b + k)) []).zipIdx.map fun c =>
        match productClass el (xs.getD (32 * b + k) 0) c.2 with
        | some (i, neg) => if i = j then signed neg (c.1 : Int) else 0
        | none => 0).sum).sum
    pred - (hs.map fun h => h.1.getD j 0 * pow2mod h.2).sum

/-- One block of one output of a multiply-mode stream (R280, R102, R294, R295); the block's row is checked before its first output
is written (R118, R292). -/
def Bench.mulBlock (w : Bench) (p : Pass) (bwd : Bool) (t row o b : Nat) (xs : List Nat) (sx : Option Int) (bias : Int) : Try :=
  let pl := w.eng.active
  match sx, pl.scaleAlong bwd o b with
  | some a, some c =>
    let sc := a + c + bias
    let v := blockSum (pl.pairs p.ea bwd o b xs) sc
    if o = 0 && !pl.rowAgrees p.ea bwd b xs (a + bias) then
      .error (w, ⟨causeMresidue, engInfo 1 row 0 b t false, p.pc.zeroExtend 64⟩)
    else (if v.isNan then w.note 4 else w).addTo p 1 t (128 * row + o) row o b 1 sc v
  | _, _ => (w.note 4).addTo p 1 t (128 * row + o) row o b 1 0 (.nan false false)

/-- One block of one output of a curd-mode stream (R280, R283, R284), with the column's prediction (R118). -/
def Bench.cntBlock (w : Bench) (p : Pass) (bwd : Bool) (row o b : Nat) (xs : List Nat) (sx : Option Int) (bias : Int) : Try :=
  let pl := w.eng.active
  let w := match sx with
    | some a => if o = 0 then { w with eng := w.eng.addColumn row (pl.columnGap p.ea bwd b xs) (a + bias) } else w
    | none => w
  match sx, pl.scaleAlong bwd o b with
  | some a, some c =>
    w.block p row o b (a + c + bias) (histogram p.ea ((List.range 32).map fun k =>
      (xs.getD (32 * b + k) 0, pl.along bwd o (32 * b + k)))) false
  | _, _ => w.block p row o b 0 [] true

/-- A list of steps in turn. -/
def Bench.steps (w : Bench) : List (Bench → Try) → Try
  | [] => .ok w
  | f :: fs =>
    match f w with
    | .error x => .error x
    | .ok w1 => Bench.steps w1 fs

/-- A stream past the active plane (R280): rows, outputs and blocks ascending. -/
def Bench.stream (w : Bench) (p : Pass) (e : Entry) (bias : Int) (slab : List (List Nat × List Nat)) : Try :=
  let cls := matClass (slotElem w.eng.active.slot)
  let bwd := e.f.dirCv
  let outs := if bwd then planeK cls else planeN cls
  let len := if bwd then planeN cls else planeK cls
  let t := e.f.d.toNat % 4
  let w1 : Bench :=
    if e.op == .mcnt then
      { w with eng := { w.eng with fmt := if w.eng.fmt = 0 then fmtOf (slotElem e.slot) else w.eng.fmt
                                   bias := if w.eng.bias.isSome then w.eng.bias else some bias } }
    else { w with eng := w.eng.takeRb t (some bias) }
  w1.steps ((slab.zipIdx).flatMap fun x =>
    (List.range outs).flatMap fun o => (List.range (len / 32)).map fun b => fun w =>
      let sx := scaleExp e.slot (x.1.2.getD b 0)
      if e.op == .mcnt then w.cntBlock p bwd (e.f.d.toNat % 2 * 8 + x.2) o b x.1.1 sx bias
      else w.mulBlock p bwd t (e.f.d.toNat / 4 % 4 * 8 + x.2) o b x.1.1 sx bias)

/-! ## Tiles (R269, R289, R290) -/

/-- Rows of a view. -/
def viewRows (cv : Bool) : Nat := if cv then 16 else 32
/-- Columns of a view. -/
def viewCols (cv : Bool) : Nat := if cv then 256 else 128

/-- The tile words that an `MLDA` entry loads, and the bits of `mstat` (R289). -/
def State.loadTile (s : State) (e : Entry) (row0 col0 : Nat) : Except Halt (List Word × Word) := do
  let cv := e.f.dirCv
  let el := slotElem e.slot
  let xs ← (List.range 4096).mapM fun i => do
    let r := row0 + i / viewCols cv
    let c := col0 + i % viewCols cv
    if !Desc.holds e.hdl r c then return ((0, 0) : Word × Word)
    else
      let code ← s.elemCode e r c
      let x ← if slotBlk e.slot then s.scaleCode e r c else pure 127
      let v := blockElem el code x (Desc.bias e.hdl)
      let w : Word := BitVec.ofNat 32 (roundTo .f32 0 v).1
      return (w, (if x = 255 || ocpSpecial el code then 4 else 0) ||| (if isWild w then 8 else 0))
  return (xs.map (·.1), xs.foldl (fun m x => m ||| x.2) 0)

/-- A tile written whole. -/
def Engine.putTile (g : Engine) (t : Nat) (ws : List Word) (rb : Int) : Engine :=
  g.setTile t ⟨ws.zipIdx.filterMap fun x => if x.1 = 0 then none else some (x.2, CWord.gen x.1), some rb⟩

/-- Bits placed into words: by word address, a mask and the bits under it. -/
abbrev Spread := KMap (Word × Word)

/-- `n` bits of a code at bit `k` of the byte at an address; an address below the address space is kept as one past it (R37). -/
def Spread.put (m : Spread) (a : Int) (k n code : Nat) : Spread :=
  let a : Int := if a < 0 then 2 ^ 55 else a
  let base := (a / 4 * 4).toNat
  let pos := 8 * (a - base).toNat + k
  let one (m : Spread) (b : Nat) (msk v : Word) : Spread :=
    if msk = 0 then m
    else
      let old := KMap.getD m b (0, 0)
      KMap.put m b (old.1 ||| msk, (old.2 &&& ~~~msk) ||| (v &&& msk))
  let msk : BitVec 64 := BitVec.ofNat 64 ((2 ^ n - 1) * 2 ^ pos)
  let v : BitVec 64 := BitVec.ofNat 64 (code * 2 ^ pos)
  one (one m base (msk.extractLsb' 0 32) (v.extractLsb' 0 32)) (base + 4) (msk.extractLsb' 32 32) (v.extractLsb' 32 32)

/-- What a tile store comes to: the words, `mstat` bits, HIT, and the trap that ends it (R290, R35). -/
structure TileStore where
  spread : Spread
  note   : Word
  hit    : Bool
  trap   : Option Trap
  deriving DecidableEq, Repr

/-- An element of a tile on its way to a tensor: its index there, its place in the view, its value. -/
structure OutElem where
  i1 : Nat
  i0 : Nat
  r  : Nat
  c  : Nat
  v  : FVal
  deriving DecidableEq, Repr

/-- The elements that pass their bound register, in write-back order, up to the first that traps (R35). -/
def boundElems (b : Nat × Bound) : List OutElem → List OutElem × Bool × Option OutElem
  | [] => ([], false, none)
  | x :: xs =>
    match checkBound b x.v with
    | none => ([], true, some x)
    | some (v, h) =>
      let (ys, h', t) := boundElems b xs
      ({ x with v := v } :: ys, h || h', t)

/-- An element that overflowed (R290). -/
def overflowed (v : FVal) (x : Elem) : Bool :=
  x.flags &&& flagOF != 0 || (x.flags &&& flagNV != 0 && match v with | .fin _ _ _ => true | _ => false)

/-- The elements of a store grouped by block; without blocks each alone (R92). -/
def outBlocks (blk : Bool) (slay : Nat) (xs : List OutElem) : List (List OutElem) :=
  if !blk then xs.map fun x => [x]
  else
    let key (x : OutElem) : Nat × Nat := if slay = 1 then (x.i1, x.i0 / 32) else (x.i1 / 32, x.i0)
    ((xs.map key).dedup).map fun k => xs.filter fun x => key x == k

/-- One block written (R88–R93). -/
def storeBlock (e : Entry) (bias : Int) (m : Spread × Bool) (xs : List OutElem) : Spread × Bool :=
  let d := e.hdl
  let b := elemBits (slotElem e.slot)
  let vs := xs.map (·.v)
  let (x, es) := if slotBlk e.slot then writeBlock e.slot bias vs else (0, vs.map (writeElem e.slot bias none))
  let m1 := (xs.zip es).foldl (fun (m : Spread) y =>
    m.put (Desc.elemAddr d b y.1.i1 0 0 y.1.i0) (y.1.i0 * b % 8) b y.2.code) m.1
  let bad := ((vs.zip es).any fun y => overflowed y.1 y.2) || (slotBlk e.slot && x == 255)
  match xs with
  | y :: _ => (if slotBlk e.slot then m1.put (Desc.scaleAddr d y.i1 0 0 y.i0) 0 8 x else m1, m.2 || bad)
  | [] => m

/-- A tile's words on their way to a tensor (R290); its words are good. -/
def Engine.storeTile (g : Engine) (e : Entry) (bias : Int) (row0 col0 : Nat) : TileStore :=
  let cv := e.f.dirCv
  let t := e.f.d.toNat % 4
  let xs : List OutElem := (List.range 4096).filterMap fun i =>
    let r := i / viewCols cv
    let c := i % viewCols cv
    if Desc.holds e.hdl (row0 + r) (col0 + c) then
      some ⟨row0 + r, col0 + c, r, c, decodeElem 0 (g.tileWord t i).data.toNat⟩
    else none
  let (ys, hit, bad) := boundElems e.bound xs
  let (m, ovf) := (outBlocks (slotBlk e.slot) (Desc.slay e.hdl) ys).foldl (storeBlock e bias) (([] : Spread), false)
  { spread := m, note := if ovf then 32 else 0, hit := hit,
    trap := bad.map fun x => ⟨causeBound, engInfo 11 x.r x.c 0 t false, e.pc.zeroExtend 64⟩ }

/-- Bits merged into a word, with the residue of what changed (R108, R115); a whole word is new. -/
def mergeBits (w : CWord) (msk v : Word) : CWord :=
  if msk = 0xFFFFFFFF then .gen v
  else
    let d := (w.data &&& ~~~msk) ||| v
    if w.poisoned then ⟨d, 15⟩
    else ⟨d, mod15 (w.tag.toNat - (res (w.data &&& msk)).toNat + (res v).toNat)⟩

end Sys2Proof.Machine
end

