-- ==== Sys2Proof/Machine/Perform.lean ====
section
/-!
DEFINITION. The performance of the matrix engine's queue: `ENGINE_ENTRY_PERFORM` (R273, R276–R304, R406), and the delivery
of engine traps (R296, R300).
-/

namespace Sys2Proof.Machine

/-! ## The engine's side of the state -/

/-- What an entry works on (R119: an injection of class 4 may strike). -/
def State.bench (s : State) (core : Nat) (e : Entry) : Bench :=
  { eng := (s.core core).engine, mstat := (s.wgOf e.wid).mstat, inj := (s.core core).injection 4 (s.ctxOf e.wid),
    fired := false, fixed := false, spills := 0 }

/-- Units of MECYC for words that a drain, merge or store touches (R406). -/
def wordUnits (n : Nat) : Nat := (n + 255) / 256

/-- The state after an entry's work; its spills are charged: the 20 words of a bank's record and a word of the tile for each (R406;
DESIGN CHOICE, log 19). -/
def State.putBench (s : State) (core : Nat) (e : Entry) (b : Bench) : State :=
  let s1 := ((s.charge (s.gridOf e.wid) fieldMecyc (wordUnits (21 * b.spills))).updCore core fun c =>
    let c1 := { c with engine := b.eng }
    if b.fired then c1.fired else c1).updWg (wgKey e.wid) fun g => { g with mstat := b.mstat }
  if b.fixed then s1.corrected (s.ctxOf e.wid) core 0 else s1

/-- What performing an entry comes to. -/
abbrev Perf := State × Option Halt

/-- A try of an entry put into the state. -/
def State.tried (s : State) (core : Nat) (e : Entry) (x : Try) : Perf :=
  match x with
  | .ok b => (s.putBench core e b, none)
  | .error (b, t) => (s.putBench core e b, some (.stop t))

/-- The engine changed. -/
def State.updEngine (s : State) (core : Nat) (f : Engine → Engine) : State :=
  s.updCore core fun c => { c with engine := f c.engine }

/-- Fields of an entry's work: its address, `.TS`, and the codes of its formats. -/
def Entry.pass (e : Entry) (eb : Nat) : Pass := ⟨e.pc, e.f.ts, slotElem e.slot, eb⟩

/-! ## Planes and streams -/

/-- A failure of a load that R293 performs once more: `MRESIDUE` of KIND 5. -/
def Halt.retried : Halt → Bool
  | .stop t => t.cause == causeMresidue
  | _ => false

/-- `MLDS` (R278). A mismatch makes the load once more from words fetched again (log 110); if these check, `mstat.MERR` is set and it is
reported as corrected (R293, R298). -/
def State.performMlds (s : State) (core : Nat) (e : Entry) : Perf :=
  let n0 := e.x.toNat
  let k0 := e.y.toNat
  let slay := Desc.slay e.hdl
  if slotBlk e.slot && ((slay == 1 && k0 % 32 != 0) || (slay == 2 && n0 % 32 != 0)) then
    (s.updEngine core fun g => { g with shadow := { g.shadow with valid := false } }, some (.stop (e.data 9 0)))
  else
    let put (s : State) (p : Plane) : State := s.updEngine core fun g => { g with shadow := p }
    match s.loadPlane e n0 k0 with
    | .ok p => (put s p, none)
    | .error h =>
      if !h.retried then (s, some h)
      else match s.loadPlane { e with ahead := [] } n0 k0 with
        | .ok p =>
          let s1 := (put s p).updWg (wgKey e.wid) fun g => { g with mstat := g.mstat ||| 64 }
          (s1.corrected (s.ctxOf e.wid) core 0, none)
        | .error h => (s, some h)

/-- `MMUL` and `MCNT` (R280, R281). -/
def State.performStream (s : State) (core : Nat) (e : Entry) : Perf :=
  let g := (s.core core).engine
  match g.streamCheck e with
  | .error t => (s, some (.stop t))
  | .ok sum =>
    let cls := matClass (slotElem g.active.slot)
    match s.fetchSlab e e.x.toNat e.y.toNat (if e.f.dirCv then planeN cls else planeK cls) with
    | .error h => (s, some h)
    | .ok slab => s.tried core e ((s.bench core e).stream (e.pass (slotElem g.active.slot)) e sum slab)

/-! ## Images and words -/

/-- `n` words of a place from an offset or address up, checked. -/
def State.fetchWords (s : State) (e : Entry) (pad : Bool) (a n : Nat) : Except Halt (List CWord) :=
  (List.range n).mapM fun k => s.fetchWord e pad ((a + 4 * k : Nat) : Int)

/-- `CMERGE` (R288). -/
def State.performCmerge (s : State) (core : Nat) (e : Entry) : Perf :=
  match s.fetchWords e true e.x.toNat (imageBytes / 4) with
  | .error h => (s, some h)
  | .ok ws => s.tried core e ((s.bench core e).cmerge (e.pass 0) ws)

/-- Words stored in the own scratchpad, their lines filled (R245). -/
def State.storePad (s : State) (e : Entry) (off : Nat) (ws : List CWord) : State :=
  let k := wgKey e.wid
  (s.updWg k fun g =>
    (List.range (lineCount off (4 * ws.length))).foldl (fun g i => g.fill (off / 128 * 128 + 128 * i))
      { g with pad := g.pad.setWords off ws }).strikePad k (s.ctxOf e.wid) e.wid off ws.length

/-- A word written by an entry at a place: a relaxed store of the issuing warp, which stays in the core's L1 until a release or an
`MWAIT` (R290, R298, R318). -/
def State.entryPut (s : State) (core : Nat) (e : Entry) (p : Place) (w : CWord) : State :=
  match p with
  | .pad k off => s.updWg k fun g => { g with pad := g.pad.setWord (off / 4 * 4) w }
  | .global ea pa => s.storeWord ⟨core, s.ctxOf e.wid, some e.wid, e.priv, ea⟩ false (pa / 4 * 4) w

/-- The physical places of words that an entry writes (R300). An address outside the address space (R37) or in the grid's pool (R38)
is an engine `DATA` with KIND 9 (DESIGN CHOICE, log 111: no KIND is given for it). -/
def State.writePlaces (s : State) (e : Entry) (as : List Nat) : Except Halt (List Place) :=
  as.mapM fun a =>
    if 2 ^ 55 ≤ a || (s.gridOf e.wid).poolMeets a 4 then .error (.stop (e.data 9 0))
    else
      match s.translate (warpCore e.wid) (s.ctxOf e.wid) a { write := true, user := !e.priv, mat := true } with
      | .error info => .error (.hold info (BitVec.ofNat 64 a))
      | .ok pa => .ok (.global (BitVec.ofNat 64 a) pa)

/-- The words of a tile store written (R290, R115). -/
def State.putSpread (s : State) (e : Entry) (pad : Bool) (m : Spread) : Except Halt State :=
  if pad then
    .ok (m.foldl (fun s x => s.storePad e x.1 [mergeBits ((s.wgOf e.wid).pad.word x.1) x.2.1 x.2.2]) s)
  else
    match s.writePlaces e (m.map (·.1)) with
    | .error h => .error h
    | .ok ps =>
      .ok ((ps.zip m).foldl (fun s x =>
        s.entryPut (warpCore e.wid) e x.1
          (mergeBits (s.placeWord (warpCore e.wid) (s.ctxOf e.wid) e.priv x.1) x.2.2.1 x.2.2.2)) s)

/-! ## Tiles -/

/-- The trap of a tile word that may not be used, in lane order (R110, R116). -/
def badTileWord (e : Entry) (w : CWord) : Option Trap :=
  if w.poisoned then some ⟨causePoison, residueInfo 7 2 false false, e.pc.zeroExtend 64⟩
  else if w.mismatched then some ⟨causeResidue, residueInfo 7 2 false false, e.pc.zeroExtend 64⟩
  else none

/-- `MST`, and the store of `MDRAIN` (R290, R35): `zero` then empties the tile. -/
def State.performMst (s : State) (core : Nat) (e : Entry) (zero : Bool) : Perf :=
  let g := (s.core core).engine
  let t := e.f.d.toNat % 4
  let row0 := e.x.toNat
  let col0 := e.y.toNat
  let slay := Desc.slay e.hdl
  if (slay == 1 && col0 % 32 != 0) || (slay == 2 && (e.f.dirCv || row0 % 32 != 0)) then (s, some (.stop (e.data 9 t)))
  else
    match (g.tile t).words.findSome? fun w => badTileWord e w.2 with
    | some x => (s, some (.stop x))
    | none =>
      let bias := if e.f.rb then (g.tile t).rb.getD 0 else Desc.bias e.hdl
      let o := g.storeTile e bias row0 col0
      match s.putSpread e (Desc.space e.hdl == 1) o.spread with
      | .error h => (s, some h)
      | .ok s1 =>
        let s2 := s1.updWg (wgKey e.wid) fun w =>
          { w with mstat := w.mstat ||| o.note
                   handles := if e.f.rb then
                       match w.handles.get? (e.f.a.toNat % 16) with
                       | some d => w.handles.put (e.f.a.toNat % 16)
                           ((d &&& ~~~(255#512 <<< 96)) ||| ((BitVec.ofInt 8 bias).zeroExtend 512 <<< 96))
                       | none => w.handles
                     else w.handles }
        let s3 := if o.hit then s2.hit (s.ctxOf e.wid) e.bound.1 else s2
        match o.trap with
        | some x => (s3, some (.stop x))
        | none => (if zero && !o.spread.isEmpty then s3.updEngine core fun g => g.setTile t .zero else s3, none)

/-- `MLDA` (R289). -/
def State.performMlda (s : State) (core : Nat) (e : Entry) : Perf :=
  match s.loadTile e e.x.toNat e.y.toNat with
  | .error h => (s, some h)
  | .ok (ws, note) =>
    ((s.updEngine core fun g => g.putTile (e.f.d.toNat % 4) ws (Desc.bias e.hdl)).updWg (wgKey e.wid) fun w =>
      { w with mstat := w.mstat ||| note }, none)

/-! ## Words by index, and `MCHK` -/

/-- Words written to the destination of a lane unit's lanes that are alive, or to its uniform register (R26, R272), with an
injection of class 2 (R120). -/
def State.putLaneWords (s : State) (core : Nat) (e : Entry) (xs : List (Nat × CWord)) : Perf :=
  let c := s.ctxOf e.wid
  let inj := ((s.core core).injection 2 c).bind fun j => if xs.any fun x => x.1 == j.lane then some j else none
  let s0 := if inj.isSome then s.updCore core Core.fired else s
  let ys : List (Nat × CWord) := match inj with
    | some j => if j.after then xs.map fun x => if x.1 == j.lane then (x.1, flipWord x.2 j.bit j.rfld) else x
                else xs.filter fun x => x.1 != j.lane
    | none => xs
  let s1 := s0.updWarp e.wid fun w =>
    if e.f.ud then
      match ys with
      | y :: _ => w.setWreg (e.f.d.toNat % 64) y.2
      | [] => w
    else ys.foldl (fun w y => w.updLane y.1 fun t => if t.live then t.setReg e.f.d.toNat y.2 else t) w
  match inj with
  | some j =>
    if j.after then (s1, none)
    else (s1.updWarp e.wid fun w => w.updLane j.lane fun t =>
      { t with engTraps := t.engTraps ++
          [EngineTrap.mk ⟨causeResidue, residueInfo 4 2 true false, e.pc.zeroExtend 64⟩ none] }, none)
  | none => (s1, none)

/-- `MRD` and `CRD` (R287, R291): the words of the lanes; a bad one drops the entry. -/
def State.performRead (s : State) (core : Nat) (e : Entry) (word : Engine → Nat → CWord) : Perf :=
  let g := (s.core core).engine
  let xs := e.args.map fun a => (a.1, word g a.2.1)
  match xs.findSome? fun x => badTileWord e x.2 with
  | some t => (s, some (.stop t))
  | none => s.putLaneWords core e xs

/-- `MWR` (R291): in lane order, so the highest lane's value remains. -/
def State.performMwr (s : State) (core : Nat) (e : Entry) : Perf :=
  let wild := e.args.any fun a => isWild a.2.2.data
  ((s.updEngine core fun g => e.args.foldl (fun g a => g.setTileWord (e.f.a.toNat % 4) a.2.1 a.2.2) g).updWg
    (wgKey e.wid) fun w => if wild then { w with mstat := w.mstat ||| 8 } else w, none)

/-- The first disagreement that `MCHK` finds (R292, R297). -/
def Engine.check (g : Engine) (e : Entry) : Option Trap :=
  let pc := e.pc.zeroExtend 64
  match (List.range 16).findSome? fun m => (g.rowBad m).map fun i => (m, i) with
  | some (m, i) => some ⟨causeMresidue, engInfo 4 m 0 0 0 i, pc⟩
  | none =>
    if g.active.bad || g.shadow.bad then some ⟨causeMresidue, engInfo 4 0 0 0 0 false, pc⟩
    else (List.range 4).findSome? fun t => ((g.tile t).words.find? fun w => !w.2.wellFormed).map fun w =>
      ⟨causeMresidue, engInfo 4 (w.1 / 128) (w.1 % 128) 0 t true, pc⟩

/-- `MCHK` (R297). -/
def State.performMchk (s : State) (core : Nat) (e : Entry) : Perf :=
  match (s.core core).engine.check e with
  | some t => (s, some (.stop t))
  | none =>
    let sus := (s.wgOf e.wid).mstat.getLsbD 4
    let d := e.f.d.toNat % 16
    (s.updWarp e.wid fun w => w.mapLanes fun l t =>
      if e.lanes.getLsbD l && t.live then t.setPreds [(d, sus), (d + 1, !sus)] else t, none)

/-! ## `MSAVE` and `MREST` (R304) -/

/-- The words of an engine's image after the control block (R304). -/
def Engine.saveWords (g : Engine) : List CWord :=
  g.active.checked ++ g.shadow.checked ++
    ((List.range 4).flatMap fun t => (List.range 4096).map (g.tileWord t)) ++
    ((List.range 4).map fun t => match (g.tile t).rb with
      | some b => CWord.gen (BitVec.ofNat 32 ((b % 256).toNat + 256))
      | none => .zero) ++
    (.gen (BitVec.ofNat 32 g.drain) :: List.replicate 1019 .zero) ++ g.image ++ List.replicate 704 .zero

/-- Bytes of an `MSAVE` image. -/
def saveBytes : Nat := 479232

/-- `MSAVE` (R304): the control block's words that the manual leaves to the device are free values (log 18). -/
def State.performMsave (s : State) (core : Nat) (e : Entry) : Perf :=
  let a := e.x.toNat
  match s.writePlaces e ((List.range (saveBytes / 4)).map fun k => a + 4 * k) with
  | .error h => (s, some h)
  | .ok ps =>
    let ctl := CWord.gen Config.imageRevision :: (List.range 1023).map fun k => CWord.gen (Config.freeWord (s.free + k))
    ((ps.zip (ctl ++ (s.core core).engine.saveWords)).foldl (fun s x =>
      s.entryPut core e x.1 x.2) { s with free := s.free + 1023 }, none)

/-- The engine state in an image's words, if it checks; holder and queue stay (R304). -/
def Engine.restored (g : Engine) (ws : List CWord) : Option Engine :=
  let d := ws.map (·.data)
  match bankSetOf ((ws.drop 36864).take 82240) with
  | none => none
  | some x =>
    if d.getD 0 0 != Config.imageRevision then none
    else
      some { g with
        active := planeOf ((ws.drop 1024).take 9216), shadow := planeOf ((ws.drop 10240).take 9216)
        tiles := (List.range 4).foldl (fun m t =>
          let rb := (d.getD (35840 + t) 0).toNat
          let words : KMap CWord := (((ws.drop (19456 + 4096 * t)).take 4096).zipIdx).filterMap fun w =>
            if w.1 == .zero then none else some (w.2, w.1)
          KMap.set m t ⟨words, if rb.testBit 8 then some (sextN 8 rb) else none⟩ .zero) []
        banks := x.banks.zipIdx.filterMap fun b => if b.1 == .empty then none else some (b.2, b.1)
        column := tableOf x.column, fmt := x.fmt, bias := x.bias, drain := (d.getD 35844 0).toNat % 4 }

/-- `MREST` (R304). -/
def State.performMrest (s : State) (core : Nat) (e : Entry) : Perf :=
  match s.fetchWords e false e.x.toNat (saveBytes / 4) with
  | .error h => (s, some h)
  | .ok ws =>
    match (s.core core).engine.restored ws with
    | none => (s, some (.stop (e.data 9 0)))
    | some g => (s.updEngine core fun _ => g, none)

/-! ## One entry -/

/-- The word at a `CRD` index (R287). -/
def Engine.bankWord (g : Engine) (i : Nat) : CWord := (g.bank (i / 20)).word (i % 20)

/-- The effect of an entry (R273). -/
def State.performOp (s : State) (core : Nat) (e : Entry) : Perf :=
  let t := e.f.d.toNat % 4
  match e.op with
  | .mrel => (s.updEngine core fun g => { Engine.empty with queue := g.queue }, none)
  | .mlds => s.performMlds core e
  | .mswap => (s.updEngine core fun g => { g with active := g.shadow, shadow := g.active }, none)
  | .mmul | .mcnt => s.performStream core e
  | .cdrain => s.tried core e ((s.bench core e).cdrain (e.pass 0) t)
  | .cmerge => s.performCmerge core e
  | .cclr => (s.updEngine core fun g => g.cclr t, none)
  | .mdrain => s.performMst core e true
  | .mst => s.performMst core e false
  | .mstBank => (s.storePad e e.x.toNat (s.core core).engine.image, none)
  | .mlda => s.performMlda core e
  | .mzero => (s.updEngine core fun g => g.setTile t .zero, none)
  | .mchk => s.performMchk core e
  | .mrd => s.performRead core e fun g i => g.tileWord (e.f.a.toNat % 4) i
  | .mwr => s.performMwr core e
  | .crd => s.performRead core e Engine.bankWord
  | .msave => s.performMsave core e
  | .mrest => s.performMrest core e
  | _ => (s, none)

/-! ## Engine traps (R296, R300) -/

/-- Lanes to which a trap of a held entry is delivered leave an `MWAIT` that waits for it, unfinished (R296). -/
def Thread.leaveMwait (t : Thread) (p : Status → Bool) (now : Nat) : Thread :=
  if p t.status then t.wake now
  else { t with frames := t.frames.map fun f =>
    match f.async with
    | some r =>
      if p r.status then { f with async := some { r with parks := false, status := if r.parks then .parked else .ready } } else f
    | none => f }

/-- Waits in an `MWAIT` for entry `n`. -/
def waitsFor (n : Nat) : Status → Bool
  | .mwait upto _ => n < upto
  | _ => false

/-- The lanes that take a trap of an entry: its own that are alive, else those of the lowest live warp of the workgroup
(R296). -/
def State.trapTakers (s : State) (e : Entry) : Option (Nat × List Nat) :=
  match (lanesOf e.lanes).filter fun l => ((s.warp e.wid).lane l).live with
  | l :: ls => some (e.wid, l :: ls)
  | [] =>
    ((s.warps.find? fun w => wgKey w.1 == wgKey e.wid && w.2.live != 0).map fun w => (w.1, lanesOf w.2.live))

/-- An engine trap delivered (R296): pending in its lanes, or reported when no warp of the workgroup is alive. -/
def State.engineTrap (s : State) (core : Nat) (e : Entry) (t : Trap) (held : Bool) : State :=
  match s.trapTakers e with
  | none => s.ucerr (s.ctxOf e.wid) core none 3 7 0 t.addr
  | some (wid, ls) =>
    s.updWarp wid fun w => w.mapLanes fun l x =>
      if ls.contains l then
        let y := { x with engTraps := x.engTraps ++ [EngineTrap.mk t (if held then some e.id else none)] }
        if held then y.leaveMwait (waitsFor e.id) s.cycle else y.complete (waitsFor e.id) s.cycle
      else x

/-- An entry leaves the queue with its locks; what waited for it goes on (R299, R302, R69). -/
def State.dropEntry (s : State) (core : Nat) (e : Entry) : State :=
  ((s.updCore core fun c =>
    { c with engine := { c.engine with queue := c.engine.queue.filter fun x => x.id != e.id }
             locks := c.locks.filter fun l => !(l.2.owner == 2 && l.2.req == e.id) }).tryMwait core).tryEnd (wgKey e.wid)

/-- The entry at the head of the queue: performed or dropped (true), or still there (R273, R296, R300). -/
def State.performHead (s : State) (core : Nat) : State × Bool :=
  match (s.core core).engine.queue with
  | [] => (s, false)
  | e :: _ =>
    if e.stuck then (s, false)
    else
      match s.performOp core e with
      | (s1, none) => (s1.dropEntry core e, true)
      | (_, some .wait) => (s, false)
      | (_, some (.hold info addr)) =>
        match s.trapTakers e with
        | none => ((s.engineTrap core e ⟨causePage, info, addr⟩ true).dropEntry core e, true)
        | some _ =>
          ((s.updEngine core fun g => { g with queue := g.queue.map fun x => if x.id = e.id then { x with stuck := true } else x }).engineTrap
            core e ⟨causePage, info, addr⟩ true, false)
      | (s1, some (.stop t)) => ((s1.engineTrap core e t false).dropEntry core e, true)

/-! ## Passes and their budget (R282, R406, R407) -/

/-- An entry that changes a plane or a tile (R282), a stream apart. -/
def Entry.changes (e : Entry) : Bool :=
  match e.op with
  | .mlds | .mswap | .mrel | .mrest | .cdrain | .cmerge | .cclr | .mdrain | .mlda | .mzero | .mwr => true
  | _ => false

/-- What streams of one fused pass have in common: the operation, the direction, and the tile (R282). -/
def Entry.fusion (e : Entry) : Op × Bool × Nat := (e.op, e.f.dirCv, if e.op = .mmul then e.f.d.toNat % 4 else 0)

/-- The part of a fused pass that a stream is: its slab or its half. -/
def Entry.part (e : Entry) : Nat := if e.op = .mmul then e.f.d.toNat / 4 % 4 else e.f.d.toNat % 2

/-- The partners of a stream already in the queue behind it: those of the other slabs of its tile, or of the other half, all of
them, with nothing that changes a plane or a tile between (R282, R406). -/
def partnersOf (e : Entry) (q : List Entry) : List Entry :=
  if e.op != .mmul && e.op != .mcnt then []
  else
    let near := q.takeWhile fun x => !x.changes && (x.fusion == e.fusion || (x.op != .mmul && x.op != .mcnt))
    let others := (List.range (if e.op = .mmul then 4 else 2)).filter fun k => k != e.part
    let found := others.filterMap fun k => near.find? fun x => x.fusion == e.fusion && x.part = k && !x.stuck && !x.paid
    if found.length = others.length then found else []

/-- Banks that hold something. -/
def Engine.fullBanks (g : Engine) : Nat := (g.banks.filter fun b => !b.2.e || b.2.nan).length

/-- Words of a tile that a store writes: those inside the tensor. -/
def Entry.storedWords (e : Entry) : Nat :=
  min (viewRows e.f.dirCv) (Desc.extent e.hdl 1 - e.x.toNat) * min (viewCols e.f.dirCv) (Desc.extent e.hdl 0 - e.y.toNat)

/-- MECYC units of a pass of `n` streams, or of the words that a drain, merge or store touches (R406; DESIGN CHOICE, log 19: for a
bank its 20 record words and the tile word it is drained into, and for an image all its words). -/
def passCost (g : Engine) (e : Entry) (n : Nat) : Nat :=
  match e.op with
  | .mmul | .mcnt => 20 + 8 * n
  | .cdrain => wordUnits (21 * g.fullBanks)
  | .cclr => wordUnits (20 * g.fullBanks)
  | .cmerge | .mstBank => wordUnits (imageBytes / 4)
  | .mst | .mdrain => wordUnits e.storedWords
  | _ => 0

/-- The rectangle of a tensor that an entry reads or writes: its first row and rows, its first column and columns. -/
def Entry.rect (e : Entry) : Nat × Nat :=
  let cls := matClass (slotElem e.slot)
  match e.op with
  | .mlds => (planeN cls, planeK cls)
  | .mmul | .mcnt => (8, if e.f.dirCv then planeN cls else planeK cls)
  | .mlda | .mst | .mdrain => (viewRows e.f.dirCv, viewCols e.f.dirCv)
  | _ => (0, 0)

/-- Addresses of the lines of the elements and of the scales that an entry reads or writes in its tensor (R407). -/
def Entry.tensorLines (e : Entry) : List Nat :=
  let d := e.hdl
  let b := elemBits (slotElem e.slot)
  let rows := min e.rect.1 (Desc.extent d 1 - e.x.toNat)
  let cols := min e.rect.2 (Desc.extent d 0 - e.y.toNat)
  let elems := (List.range rows).flatMap fun r =>
    let lo := (Desc.elemAddr d b (e.x.toNat + r) 0 0 e.y.toNat).toNat
    let hi := (Desc.elemAddr d b (e.x.toNat + r) 0 0 (e.y.toNat + cols - 1)).toNat
    (List.range (hi / 128 - lo / 128 + 1)).map fun k => lo / 128 * 128 + 128 * k
  let scales := if !slotBlk e.slot then []
    else (List.range rows).flatMap fun r => (List.range cols).map fun c =>
      (Desc.scaleAddr d (e.x.toNat + r) 0 0 (e.y.toNat + c) : Int).toNat / 128 * 128
  if cols = 0 then [] else (elems ++ scales).dedup

/-- An entry's tensor or image lies in the own scratchpad. -/
def Entry.inPad (e : Entry) : Bool := e.op == .cmerge || e.op == .mstBank || (e.rect.1 != 0 && Desc.space e.hdl == 1)

/-- Addresses of the lines that an entry reads (R407). -/
def Entry.reads (e : Entry) : List Nat :=
  match e.op with
  | .mlds | .mmul | .mcnt | .mlda => e.tensorLines
  | .cmerge => linesFrom e.x.toNat imageBytes
  | .mrest => linesFrom e.x.toNat saveBytes
  | _ => []

/-- Addresses of the lines of global memory that an entry writes. -/
def Entry.writes (e : Entry) : List Nat :=
  match e.op with
  | .mst | .mdrain => if e.inPad then [] else e.tensorLines
  | .msave => linesFrom e.x.toNat saveBytes
  | _ => []

/-- What the performance of an entry is charged (R406, R407, R392): its pass, unless a partner's began it, its writes, and the
reads that its fetcher has not made. -/
def State.entryBill (s : State) (core : Nat) (e : Entry) (n : Nat) : Bill :=
  let c := s.ctxOf e.wid
  ((if e.inPad || !e.ahead.isEmpty then {} else s.accessBill core c { user := !e.priv, mat := true } e.reads true).add
    (s.accessBill core c { write := true, user := !e.priv, mat := true } e.writes false)).add
      { mec := if e.paid then 0 else passCost (s.core core).engine e n }

/-- Entries of a core's queue changed. -/
def State.mapEntries (s : State) (core : Nat) (f : Entry → Entry) : State :=
  s.updEngine core fun g => { g with queue := g.queue.map f }

/-- The entry at the head of a core's queue performed: nothing while a budget of the holder's region is exhausted, or it waits
(R273, R45). Its partners already in the queue share its pass, and are performed in their turn (R282, R406). -/
def State.performPass (s : State) (core : Nat) : State :=
  match (s.core core).engine.queue with
  | [] => s
  | e :: q =>
    let grid := s.gridOf e.wid
    let ps := partnersOf e q
    let b := s.entryBill core e (ps.length + 1)
    if e.stuck || (!e.paid && !s.mayStart grid fieldMecyc) || !s.canPay grid b then s
    else
      let s1 := s.pay core (s.ctxOf e.wid) grid b
      let s2 := if ps.isEmpty then s1
        else s1.mapEntries core fun x => if ps.any fun y => y.id = x.id then { x with paid := true } else x
      let s3 := (s2.performHead core).1
      if (s3.core core).engine.queue.head?.any fun x => x.id == e.id && !x.stuck then s else s3

/-- `ENGINE_ENTRY_PERFORM` (R273, R282). -/
def execEngineEntryPerform (core : Nat) (s : State) : Out := .next (s.performPass core)

/-- The fetcher reads the operand of one of the first five entries of the queue ahead of its performance (R298, R407): each word
as it is now, from the core's dirty words or its home; a line that is empty or does not translate is left for later. -/
def State.fetchAhead (s : State) (core id : Nat) : State :=
  match ((s.core core).engine.queue.take 5).find? fun e => e.id == id && !e.stuck && e.ahead.isEmpty with
  | none => s
  | some e =>
    let vas := e.reads
    let b : Bill := if e.inPad then {} else s.accessBill core (s.ctxOf e.wid) { user := !e.priv, mat := true } vas true
    if vas.isEmpty || !s.canPay (s.gridOf e.wid) b then s
    else
      let words := vas.flatMap fun a => (List.range 32).filterMap fun k =>
        match s.fetchRaw e e.inPad ((a / 128 * 128 + 4 * k : Nat) : Int) with
        | .ok w => some (a / 128 * 128 + 4 * k, w)
        | .error _ => none
      (s.pay core (s.ctxOf e.wid) (s.gridOf e.wid) b).mapEntries core fun x =>
        if x.id = id then { x with ahead := words.foldl (fun m y => m.put y.1 y.2) [] } else x

end Sys2Proof.Machine
end

