-- ==== Sys2Proof/Machine/Engine.lean ====
section
/-!
DEFINITION. The issue of matrix instructions (R270–R276, R286–R291, R297, R299, R302, R304): each makes entries of the
engine queue, but `MACQ` and `MWAIT`.
-/

namespace Sys2Proof.Machine

/-! ## Units (R272) -/

/-- The bundle as one unit. -/
def bundleUnit (q : Word) : List Word := if q = 0 then [] else [q]

/-- The quarters with a qualifying lane. -/
def quarterUnits (q : Word) : List Word :=
  ([0x000000FF, 0x0000FF00, 0x00FF0000, 0xFF000000].map fun (m : Word) => q &&& m).filter (· != 0)

/-- Lanes whose guard predicate is bad (R22), as traps. -/
def State.badGuards (s : State) (f : Fields) : List (Nat × Trap) :=
  ((lanesOf s.cur.mask).filter fun l => f.g != 15 && (s.curWarp.lane l).predBad f.g.toNat).map fun l =>
    (l, predTrap s.pc64)

/-- The qualifying lanes (R272). -/
def State.unitLanes (s : State) (f : Fields) : Word := s.qualifying f.g &&& ~~~(maskOfLanes ((s.badGuards f).map (·.1)))

/-- One unit's part: its sources are read in its lowest lane; a trap is taken by all its lanes (R272). -/
def State.unitStep (src : State → Thread → List Source) (body : State → Ins → Word → Did)
    (acc : Option (State × List (Nat × Trap))) (u : Word) : Option (State × List (Nat × Trap)) :=
  match acc with
  | none => none
  | some (s, ts) =>
    let ls := lanesOf u
    let l := ls.headD 0
    let t := s.curWarp.lane l
    match checkSources (src s t) s.pc64 with
    | some tr => some (s, ts ++ ls.map fun l => (l, tr))
    | none =>
      match body s (insOf l t (src s t)) u with
      | .stall | .hold _ => none
      | .trap s1 tr => some (s1, ts ++ ls.map fun l => (l, tr))
      | .done s1 => some (s1, ts)
      | .partly s1 us => some (s1, ts ++ us)
      | .wait s1 => some (s1, ts)

/-- An instruction that acts once for each unit of its bundle; a full queue or lock table stalls it whole (R273, R299). -/
def State.byUnit (s : State) (op : Op) (f : Fields) (units : Word → List Word) (body : State → Ins → Word → Did) : Out :=
  s.issue op f [] fun s =>
    match (units (s.unitLanes f)).foldl (State.unitStep (onceSources op f) body) (some (s, s.badGuards f)) with
    | none => .next s
    | some (s1, ts) => .next (s1.advanceBut f ts)

/-! ## Entries -/

/-- The workgroup holds the engine of its core (R268). -/
def State.holdsEngine (s : State) : Bool := (s.core s.curCore).engine.holder == some (wgKey s.cur.wid)

/-- An entry put into the queue with its locks; a full queue or table stalls (R273, R299). -/
def State.enqueue (s : State) (op : Op) (f : Fields) (u : Word) (hdl : Desc) (x : BitVec 64) (y : Word)
    (args : List (Nat × Nat × CWord)) (ls : Nat → List Lock) : Did :=
  let c := s.core s.curCore
  if 32 ≤ c.engine.queue.length then .stall
  else
    match c.lock (ls c.nreq) with
    | none => .stall
    | some c1 =>
      let e : Entry :=
        { id := c.nreq, op := op, f := f, wid := s.cur.wid, lanes := u, pc := s.cur.pc, hdl := hdl,
          slot := s.slot (Desc.fslot hdl), bound := s.boundOf s.curCtx hdl, x := x, y := y, args := args, stuck := false,
          priv := s.curPriv, since := s.cycle, paid := false, ahead := [] }
      .done (s.setCore s.curCore
        { c1 with nreq := c.nreq + 1, engine := { c1.engine with queue := c1.engine.queue ++ [e] } })

/-- `DATA` of R274 with a reason. -/
def State.engData (s : State) (reason arg : Nat) : Trap := ⟨causeData, dataInfo reason arg, s.pc64⟩

/-- The checks of R274 on holding and on the handle that A names. -/
def State.engineHandle (s : State) (f : Fields) (ok : BitVec 16 → Bool) : Except Trap Desc :=
  let n := f.a.toNat % 16
  if !s.holdsEngine then .error (s.engData 17 0)
  else
    match s.handle n with
    | .error t => .error t
    | .ok d => if ok (s.slot (Desc.fslot d)) then .ok d else .error (s.engData 18 n)

/-- The byte ranges of a rectangle of a tensor: its elements, and its scales when it has blocks, whole blocks taken
(R299). -/
def Desc.spans (d : Desc) (k : BitVec 16) (i1 rows i0 cols : Nat) : List (Int × Int) :=
  let b := elemBits (slotElem k)
  let r1 := min (i1 + rows) (Desc.extent d 1)
  let c1 := min (i0 + cols) (Desc.extent d 0)
  if r1 ≤ i1 || c1 ≤ i0 then []
  else
    let blk := slotBlk k
    let one := Desc.slay d == 1
    let i0' := if blk && one then i0 / 32 * 32 else i0
    let c1' := if blk && one then min (Desc.extent d 0) ((c1 + 31) / 32 * 32) else c1
    let i1' := if blk && !one then i1 / 32 * 32 else i1
    let r1' := if blk && !one then min (Desc.extent d 1) ((r1 + 31) / 32 * 32) else r1
    let span (f : Nat → Nat → Int) (w : Int) : Int × Int :=
      let xs := [f i1' i0', f i1' (c1' - 1), f (r1' - 1) i0', f (r1' - 1) (c1' - 1)]
      (xs.foldl min (f i1' i0'), xs.foldl max (f i1' i0') + w)
    span (fun r c => Desc.elemAddr d b r 0 0 c) ((b + 7) / 8 : Nat) ::
      (if blk then [span (fun r c => (Desc.scaleAddr d r 0 0 c : Int)) 1] else [])

/-- The locks of an entry over a rectangle of its tensor (R299). -/
def State.engineLocks (s : State) (d : Desc) (write : Bool) (i1 rows i0 cols : Nat) (id : Nat) : List Lock :=
  (Desc.spans d (s.slot (Desc.fslot d)) i1 rows i0 cols).map fun x =>
    s.lockOf (Desc.space d == 1) x.1.toNat x.2.toNat write 2 0 id

/-- An instruction over a tensor: handle A, B and C its origin (R270). -/
def State.tensorOp (s : State) (op : Op) (f : Fields) (units : Word → List Word) (ok : BitVec 16 → Bool) (write : Bool)
    (shape : BitVec 16 → Nat × Nat) : Out :=
  s.byUnit op f units fun s i u =>
    match s.engineHandle f ok with
    | .error t => .trap s t
    | .ok d =>
      let r := w0 i.b
      let c := w0 i.c
      let (rows, cols) := shape (s.slot (Desc.fslot d))
      s.enqueue op f u d (r.zeroExtend 64) c [] fun id => s.engineLocks d write r.toNat rows c.toNat cols id

/-- An instruction without a tensor that makes one entry for the bundle. -/
def State.plainEntry (s : State) (op : Op) (f : Fields) : Out :=
  s.byUnit op f bundleUnit fun s _ u =>
    if !s.holdsEngine then .trap s (s.engData 17 0) else s.enqueue op f u 0 0 0 [] fun _ => []

/-- An instruction over a bank image in the scratchpad: 128-byte alignment, then the window (R274, R287). -/
def State.imageOp (s : State) (op : Op) (f : Fields) (write : Bool) : Out :=
  s.byUnit op f bundleUnit fun s i u =>
    if !s.holdsEngine then .trap s (s.engData 17 0)
    else
      match s.padOffset (w0 i.b).toNat 128 imageBytes with
      | .error t => .trap s t
      | .ok off =>
        s.enqueue op f u 0 (BitVec.ofNat 64 off) 0 [] fun id =>
          [s.lockOf true off (off + imageBytes) write 2 0 id]

/-- An instruction over a saved image in global memory (R304). -/
def State.saveOp (s : State) (op : Op) (f : Fields) : Out :=
  s.byUnit op f bundleUnit fun s i u =>
    let a := pairOf i.b
    if !s.holdsEngine then .trap s (s.engData 17 0)
    else if a.toNat % 4096 != 0 then .trap s (alignTrap a)
    else if 2 ^ 55 ≤ a.toNat then .trap s ⟨causeData, dataInfo 4 0, a⟩
    else s.enqueue op f u 0 a 0 [] fun _ => []

/-- A lane unit: one entry for the qualifying lanes whose index is in range (R272, R274). -/
def State.laneEntry (s : State) (op : Op) (f : Fields) (limit : Nat) (val : Ins → CWord) : Out :=
  s.issue op f [] fun s =>
    let bad := s.badGuards f
    let ls := lanesOf (s.unitLanes f)
    match ls.findSome? fun l => checkSources (onceSources op f s (s.curWarp.lane l)) s.pc64 with
    | some t => .next (s.advanceBut f (addTrap ls t bad))
    | none =>
      if ls.isEmpty then .next (s.advanceBut f bad)
      else if !s.holdsEngine then .next (s.advanceBut f (addTrap ls (s.engData 17 0) bad))
      else
        let ins := ls.map fun l => insOf l (s.curWarp.lane l) (onceSources op f s (s.curWarp.lane l))
        let out := ins.filter fun i => limit ≤ (w0 i.b).toNat
        let use := ins.filter fun i => (w0 i.b).toNat < limit
        let ts := addTrap (out.map (·.l)) (s.engData 19 0) bad
        if use.isEmpty then .next (s.advanceBut f ts)
        else
          match s.enqueue op f (maskOfLanes (use.map (·.l))) 0 0 0 (use.map fun i => (i.l, (w0 i.b).toNat, val i))
              fun _ => [] with
          | .done s1 => .next (s1.advanceBut f ts)
          | _ => .next s

/-! ## Acquiring and releasing (R275, R276) -/

/-- Engines held in a pitch by workgroups of a region's subtree (R275, R391). -/
def State.enginesHeld (s : State) (region : Nat) : Nat :=
  (s.cores.filter fun c => match c.2.engine.holder with
    | some k => (s.chain 8 (s.grid (s.wg k).grid).region).contains region
    | none => false).length

/-- The engine may be acquired by the issuing workgroup (R275). -/
def State.mayAcquire (s : State) : Bool :=
  let g := (s.core s.curCore).engine
  g.holder.isNone && g.queue.isEmpty && !(s.ctx s.curCtx).stopped &&
    (s.gridOf s.cur.wid).fields.all fun e => s.enginesHeld e.1 < e.2.getD 6 0

/-- `MACQ` (R275). -/
def execMacq (f : Fields) (s : State) : Out :=
  s.once .macq f [] false (fun _ _ => []) fun s _ ins =>
    let take := !s.holdsEngine && s.mayAcquire
    let t := s.holdsEngine || take
    let s1 := if take then s.updEngine s.curCore fun _ => { Engine.empty with holder := some (wgKey s.cur.wid) } else s
    let d := f.d.toNat % 16
    .done (s1.updWarp s.cur.wid fun w => w.mapLanes fun l x =>
      if ins.any fun i => i.l == l then x.setPreds [(d, t), (d + 1, !t)] else x)

/-- `MREL` (R276): the holding ends at once, the state with the entry. -/
def execMrel (f : Fields) (s : State) : Out :=
  s.byUnit .mrel f bundleUnit fun s _ u =>
    if !s.holdsEngine then .trap s (s.engData 17 0)
    else
      match s.enqueue .mrel f u 0 0 0 [] fun _ => [] with
      | .done s1 => .done (s1.updEngine s.curCore fun g => { g with holder := none })
      | d => d

/-! ## Planes and streams -/

/-- A slot for `MLDS`, `MMUL` and `MCNT` (R274). -/
def planeSlot (k : BitVec 16) : Bool := slotValid k && matClass (slotElem k) != 3

/-- `MLDS` (R278). -/
def execMlds (f : Fields) (s : State) : Out :=
  s.tensorOp .mlds f bundleUnit planeSlot false fun k => (planeN (matClass (slotElem k)), planeK (matClass (slotElem k)))

/-- `MSWAP` (R279). -/
def execMswap (f : Fields) (s : State) : Out := s.plainEntry .mswap f

/-- The slab that a stream reads: 8 rows of the plane's extent along the reduction (R280). -/
def slabShape (f : Fields) (k : BitVec 16) : Nat × Nat :=
  (8, if f.dirCv then planeN (matClass (slotElem k)) else planeK (matClass (slotElem k)))

/-- `MMUL` (R280). -/
def execMmul (f : Fields) (s : State) : Out := s.tensorOp .mmul f quarterUnits planeSlot false (slabShape f)

/-- `MCNT` (R280, R284). -/
def execMcnt (f : Fields) (s : State) : Out := s.tensorOp .mcnt f quarterUnits planeSlot false (slabShape f)

/-! ## Banks -/

/-- `CDRAIN` (R286). -/
def execCdrain (f : Fields) (s : State) : Out := s.plainEntry .cdrain f

/-- `CMERGE` (R288). -/
def execCmerge (f : Fields) (s : State) : Out := s.imageOp .cmerge f false

/-- `CCLR` (R286). -/
def execCclr (f : Fields) (s : State) : Out := s.plainEntry .cclr f

/-! ## Tiles -/

/-- `MDRAIN` (R290). -/
def execMdrain (f : Fields) (s : State) : Out :=
  s.tensorOp .mdrain f bundleUnit slotValid true fun _ => (viewRows f.dirCv, viewCols f.dirCv)

/-- `MST` (R290). -/
def execMst (f : Fields) (s : State) : Out :=
  s.tensorOp .mst f bundleUnit slotValid true fun _ => (viewRows f.dirCv, viewCols f.dirCv)

/-- `MST.BANK` (R287). -/
def execMstBank (f : Fields) (s : State) : Out := s.imageOp .mstBank f true

/-- `MLDA` (R289). -/
def execMlda (f : Fields) (s : State) : Out :=
  s.tensorOp .mlda f bundleUnit (fun k => slotValid k && slotElem k != 11) false fun _ =>
    (viewRows f.dirCv, viewCols f.dirCv)

/-- `MZERO` (R289). -/
def execMzero (f : Fields) (s : State) : Out := s.plainEntry .mzero f

/-- `MRD` (R291). -/
def execMrd (f : Fields) (s : State) : Out := s.laneEntry .mrd f 4096 fun _ => .zero

/-- `MWR` (R291). -/
def execMwr (f : Fields) (s : State) : Out := s.laneEntry .mwr f 4096 fun i => i.c.headD .zero

/-- `CRD` (R287, R291). -/
def execCrd (f : Fields) (s : State) : Out := s.laneEntry .crd f 81920 fun _ => .zero

/-! ## Waiting, checking, saving -/

/-- `MWAIT` (R302): orders as `FENCE.AR` at SCOPE; it waits while the workgroup has entries in the queue. -/
def execMwait (f : Fields) (s : State) : Out :=
  s.once .mwait f [] false (fun _ _ => []) fun s _ _ =>
    if !s.holdsEngine then .trap s (s.engData 17 0)
    else s.releasing f.mscope fun s =>
      if (s.core s.curCore).engine.queue.isEmpty then .done (s.acquireAt s.curCore f.mscope)
      else .wait (s.stayAs fun _ _ => .mwait (s.core s.curCore).nreq f.mscope)

/-- `MCHK` (R297). -/
def execMchk (f : Fields) (s : State) : Out := s.plainEntry .mchk f

/-- `MSAVE` (R304). -/
def execMsave (f : Fields) (s : State) : Out := s.saveOp .msave f

/-- `MREST` (R304). -/
def execMrest (f : Fields) (s : State) : Out := s.saveOp .mrest f

end Sys2Proof.Machine
end

