-- ==== Sys2Proof/Machine/Fabric.lean ====
section
/-!
DEFINITION. Packets and links (R422–R434, R438, R440), the sweep of an old allocation generation (R365), the host's
accesses (R321, R436), memory errors (R370, R379, R447–R453), and the freezing of a pitch (R453).
-/

namespace Sys2Proof.Machine

/-! ## Errors of the memory side -/

/-- An uncontained error freezes its pitch (R453): the record, the message, and the dump that is due. Nothing of a frozen
pitch moves; its contexts are retired when the dump is done. -/
def State.freezePitch (s : State) (p : Nat) (r : Record) : State :=
  match s.pitches.get? p with
  | none => s
  | some q =>
    if q.frozen then s
    else
      let s1 := (s.reportError p r).updPitch p fun q => { q with frozen := true, dmpstat := 1 }
      { s1 with agenda := s1.agenda ++ [.event (.dumpComplete p)] }

/-- Every pitch frozen: a failure of what the whole device shares (R453, R430). -/
def State.freezeAll (s : State) : State :=
  s.pitches.foldl (fun s e => s.freezePitch e.1 (s.errorRecord 10 ownerNone 0 0 0)) s

/-- Frames of a stack in the retired-frame table (R451). -/
def State.retiredIn (s : State) (stack : Nat) : Nat := (s.lantern.frames.filter fun x => x / 2 ^ 20 == stack).length

/-- A frame entered in the table when it has room; the flag says whether it had none (R451). -/
def State.retireFrame (s : State) (pa : Nat) : State × Bool :=
  let x := pa / 65536
  if s.lantern.frames.contains x then (s, false)
  else if 256 ≤ s.retiredIn (x / 2 ^ 20) then (s, true)
  else ({ s with lantern := { s.lantern with frames := s.lantern.frames ++ [x] } }, false)

/-- The sixteen words of a half-line, or of an HBM4 burst, poisoned with their data kept (R370, R379). -/
def Mem.poisonHalf (m : Mem) (pa : Nat) : Mem :=
  let a := pa / 64 * 64
  m.setWords a ((m.words a 16).map CWord.poison)

/-- The record of an error that the home slice of a line has found (R452). -/
def State.memRecord (s : State) (cls ctx pa way : Nat) (flags : BitVec 5) : Record :=
  { s.errorRecord cls ctx 0 pa flags with
    unit := pa / 2 ^ 36 % 16, endpt := (l2Home pa).1, l2set := if cls = 2 || cls = 10 then (l2Home pa).2 else 0,
    way := if cls = 2 || cls = 10 then way else 0 }

/-- An uncorrectable error in a half-line that is dirty under a tag (R370, R449–R451, R453, R478, R479): the half-line is
poisoned and the line written to HBM4, the way is quarantined, the frame retired, and the owner killed; tag `0xFFF` is class
11 and kills none. A tag without a live context of the pitch, or a full quarantine table, is uncontained and charged to the
pitch. -/
def State.upsetDirty (s : State) (p owner pa way : Nat) : State :=
  let slice := (l2Home pa).1
  let ways := s.quar.getD slice []
  let room := ways.length < 32
  let host := owner == ownerNone
  let stale := !host && ((s.ctxs.get? owner).isNone || (s.ctx owner).retired || (s.ctx owner).pitch != p)
  let (s1, full) := ({ s with mem := s.mem.poisonHalf pa, l2 := s.l2.filter fun e => e.line != pa / 128 }).retireFrame pa
  let s2 := if room then { s1 with quar := s1.quar.put slice (ways ++ [((l2Home pa).2, way)]) } else s1
  let acts : BitVec 5 := (if full then 0b11000 else 0b01010) ||| (if room then 0b00100 else 0)
  if stale || !room then s2.freezePitch p (s2.memRecord 10 ownerNone pa way acts)
  else if host then s2.reportError p (s2.memRecord 11 owner pa way acts)
  else
    let r := s2.memRecord 2 owner pa way (acts ||| 1)
    (s2.reportError p r).kill owner 2 (some r)

/-- A memory error (R370, R379, R447, R453): corrected (1); uncorrectable in an L2 half-line (2), where a clean line is
invalidated and fetched again; an uncorrectable burst at a read of HBM4 (3); a mismatched word under a good code (4), which is
poisoned in its line; an error in a copy of dispatcher state (10). The reader on `core` is charged (R338). -/
def State.upset (s : State) (cls core ctx pa : Nat) : State :=
  let p := s.units.getD (pa / 2 ^ 36) 16
  if (s.pitches.get? p).isNone then s
  else
    match cls with
    | 1 =>
      let r := s.memRecord 1 ctx pa 0 0
      s.reportError p (if (s.l2Line (pa / 128)).isSome then r else { r with endpt := ctrlEndpoint pa })
    | 2 => match s.l2Line (pa / 128) with
      | none => s
      | some e => match e.dirty with
        | none => (s.dropL2 fun e => e.line == pa / 128).reportError p (s.memRecord 1 ctx pa 0 0)
        | some d => s.upsetDirty p d.1 pa e.way
    | 3 =>
      if (s.l2Line (pa / 128)).isSome then s
      else
        let (s1, full) := ({ s with mem := s.mem.poisonHalf pa }).retireFrame pa
        s1.ucerr ctx core none 5 3 pa (BitVec.ofNat 64 pa) 0 (if full then 0b11000 else 0b01010)
    | 4 =>
      if (s.l2Line (pa / 128)).isNone then s
      else (s.homeWord ctx (pa / 4 * 4) (s.mem.word (pa / 4 * 4)).poison).ucerr ctx core none 0 4 pa (BitVec.ofNat 64 pa)
    | 10 => s.freezePitch p (s.memRecord 10 ownerNone pa 0 0)
    | _ => s

/-! ## Packets -/

/-! ### The form of a packet (R423, R424) -/

/-- A flit's link header fields and payload (R423). -/
structure Flit where
  ver     : Nat
  first   : Bool
  last    : Bool
  /-- 0 request, 1 reply, 2 control -/
  net     : Nat
  payload : List CWord
  deriving DecidableEq, Repr

/-- The data words that a packet carries, and where in their line they start. -/
def PktOp.body : PktOp → Nat × List CWord
  | .store _ _ off _ ws => (off % 128 / 4, ws)
  | .padAdd _ _ off _ b _ => (off % 128 / 4, b)
  | .memAdd pa _ _ b _ => (pa % 128 / 4, b)
  | .post _ _ => (0, [])

/-- The operand that a remote add carries in its header, words 6 and 7 (R424). -/
def PktOp.operand : PktOp → List CWord
  | .padAdd _ _ _ _ b _ | .memAdd _ _ _ b _ => b
  | _ => []

/-- The data words of a packet's data flits (R424). -/
def PktOp.data (o : PktOp) : List CWord := if o.operand.isEmpty then o.body.2 else []

/-- The generation that a packet carries (R364). -/
def PktOp.gen : PktOp → Nat
  | .store _ g _ _ _ | .padAdd _ g _ _ _ _ => g
  | _ => 0

/-- The header of a packet (R424). What the manual leaves to the device revision is 0 here: the operation code, and the place of a
remote add's exponent; so are the peer's window and the own device number, which Lantern holds (log 107). -/
def Packet.header (k : Packet) : List CWord :=
  let (at_, ws) := k.op.body
  let word (n : Nat) : CWord := .gen (BitVec.ofNat 32 n)
  let flits := if k.op.data.isEmpty then 0 else 1
  let mask := (List.range ws.length).foldl (fun m i => m + 2 ^ ((at_ + i) % 32)) 0
  let pa := match k.op with
    | .memAdd pa _ _ _ _ => pa
    | _ => 0
  let tether := if k.peer.isSome then k.pitch % 16 * 2 ^ 15 else 0
  [word (flits * 2 ^ 8 + k.op.gen % 16 * 2 ^ 10 + k.ctx % 4096 * 2 ^ 14 + k.pitch % 16 * 2 ^ 26),
    word (k.src % 65536 + k.dst % 65536 * 65536), word (k.seq % 65536), word mask, word (pa % 2 ^ 32), word (pa / 2 ^ 32 % 2 ^ 20),
    k.op.operand.getD 0 .zero, k.op.operand.getD 1 .zero, word tether, word (k.peer.getD 0 % 2 ^ 15)] ++ List.replicate 6 .zero

/-- The flits of a packet on the request network: its header, and its data if it has any (R422–R424). -/
def Packet.flits (k : Packet) : List Flit :=
  let ws := k.op.data
  ⟨k.ver, true, ws.isEmpty, 0, k.header⟩ :: (if ws.isEmpty then [] else [⟨k.ver, false, true, 0, ws⟩])

/-- The 10 × 10 routers of a die: two cores attach to each (R422). -/
def routerOf (core : Nat) : Nat × Nat := (core % 200 / 2 % 10, core % 200 / 2 / 10)

/-- The routers that a packet passes within a die from one to another: X first, then Y (R422). -/
def meshRoute (a b : Nat × Nat) : List (Nat × Nat) :=
  let walk (x y : Nat) : List Nat := if x ≤ y then (List.range (y - x + 1)).map (x + ·) else (List.range (x - y + 1)).map (x - ·)
  (walk a.1 b.1).map (fun x => (x, a.2)) ++ (walk a.2 b.2).tail.map fun y => (b.1, y)

/-- The link of a Tether port is up: its last training did not fail (R432, R475). -/
def State.portUp (s : State) (port : Nat) : Bool := (s.fabric.ports.get? port).all (·.up)

/-- A packet travels under a version that a routing table holds (R427), and to a peer over a link that is up (R432). -/
def State.routed (s : State) (k : Packet) : Bool :=
  (k.ver == if k.peer.isSome then s.fabric.tver else s.fabric.gver) && k.peer.all fun d => s.portUp (s.portTo d)

/-- The core that an endpoint number of a core names (R424). -/
def endpointCore (e : Nat) : Nat := e / 4096 * 200 + e % 4096

/-- The allocation that a remote write names is still there (R246, R364). -/
def State.allocated (s : State) (k gen : Nat) : Bool :=
  (s.wgs.get? k).isSome && (s.core (coreOf k)).gens.getD (k % 16) 0 == gen

/-- A remote add whose operand has gone bad on its way is not performed, and is reported (R114; DEDUCED, log 108). -/
def State.badOperand (s : State) (k : Packet) (core pa : Nat) (addr : BitVec 64) : State :=
  s.ucerr k.ctx core (some k.wid) 0 4 pa addr

/-- What an accepted packet does (R246, R253, R364, R440, R114): a write of another pitch's core, of an old allocation or
of a retired context is dropped. A mismatched word is poisoned on its way and reported. -/
def State.deliver (s : State) (k : Packet) : State :=
  let core := endpointCore k.src
  let own (t : Nat) : Bool := s.corePitch (coreOf t) == k.pitch
  if (s.ctxs.get? k.ctx).isNone || (s.ctx k.ctx).retired then s
  else
    match k.op with
    | .store t gen off size ws =>
      if !own t || !s.allocated t gen then s
      else
        let s1 := s.updWg t fun g => g.store off size (ws.map CWord.sound)
        if ws.any (·.mismatched) then s1.ucerr k.ctx core (some k.wid) 0 4 0 (addr32 off) else s1
    | .padAdd t gen off op b e =>
      if !own t || !s.allocated t gen then s
      else if b.any (fun w => !w.wellFormed) then s.badOperand k core 0 (addr32 off)
      else s.padAdd core k.ctx k.wid t off op b e
    | .memAdd pa va op b e =>
      if b.any (fun w => !w.wellFormed) then s.badOperand k core pa va
      else (s.memAdd ⟨core, k.ctx, some k.wid, true, va⟩ pa op b e).updCore core fun c => c.dropCleanLine (pa / 128)
    | .post t bits => if own t then s.postEvents t (bits.zeroExtend 16) else s

/-- `PACKET_ACCEPT` (R424–R427, R438, R440): in the order of SEQ, each once; a duplicate is only acknowledged again; a
packet ahead of its turn, or of a version that no table holds, is not taken. -/
def State.acceptPacket (s : State) (n : Nat) : State :=
  match s.fabric.packets.find? fun k => k.id == n with
  | none => s
  | some k =>
    let key := k.stream
    let want := s.fabric.expect.getD key 0
    let acked (s : State) (expect : Nat) : State :=
      { s with fabric := { s.fabric with
          packets := s.fabric.packets.map fun x => if x.id == n then { x with done := true, sent := false } else x
          expect := s.fabric.expect.put key expect } }
    if !k.sent || !s.routed k then s
    else if k.seq = want then acked (s.deliver k) ((want + 1) % 65536)
    else if (want + 65536 - k.seq) % 65536 < 32768 then acked s want
    else s

/-- `PACKET_ACCEPT` (R426). -/
def execPacketAccept (n : Nat) (s : State) : Out := .next (s.acceptPacket n)

/-- `PACKET_ACK` (R426): an accepted packet leaves its source's retry buffer. -/
def execPacketAck (n : Nat) (s : State) : Out :=
  .next { s with fabric := { s.fabric with packets := s.fabric.packets.filter fun k => !(k.id == n && k.done) } }

/-- A link is one of Tether: a port of an I/O die (R424). -/
def tetherLink (link : Nat) : Bool := decide (8 * 4096 ≤ link) && decide (1024 ≤ link % 4096) && decide (link % 4096 ≤ 1032)

/-- `FLIT_CRC_FAILURE` (R423, R428, R447): the flit is resent on its link, and Lantern logs the corrected fabric event, the link
number standing for the endpoint. At the eighth failure in a row the link is dead. -/
def execFlitCrcFailure (link : Nat) (s : State) : Out :=
  let s1 := s.logRecord { s.errorRecord 1 0xFFF 0 0 0 with endpt := link % 65536 }
  let n := KMap.getD s.fabric.crc link 0 + 1
  .next (if 8 ≤ n && !s.fabric.dead.contains link then
      { s1 with
        fabric := { s1.fabric with crc := s1.fabric.crc.erase link, dead := s1.fabric.dead ++ [link] }
        agenda := s1.agenda ++ [.event (.linkDeath (tetherLink link) (Config.cutOff (s1.fabric.dead ++ [link])))] }
    else { s1 with fabric := { s1.fabric with crc := s1.fabric.crc.put link n } })

/-- A flit crosses a link: its failures in a row are over (R428). -/
def State.flitPassed (s : State) (link : Nat) : State :=
  { s with fabric := { s.fabric with crc := s.fabric.crc.erase link } }

/-- A router discards the copy of a packet whose header it finds bad (R424). -/
def State.badHeader (s : State) (n : Nat) : State :=
  { s with fabric := { s.fabric with packets := s.fabric.packets.map fun k => if k.id == n then { k with sent := false } else k } }

/-- A source replays the packets of its retry buffer (R424, R428). -/
def State.replay (s : State) (src : Nat) : State :=
  { s with fabric := { s.fabric with
      packets := s.fabric.packets.map fun k => if k.src == src && !k.done then { k with sent := true } else k } }

/-- A Tether port's link training (R432): the ends must agree on the carriage, or the link does not train. -/
def State.trainPort (s : State) (port : Nat) (own peer : Bool) : State :=
  { s with fabric := { s.fabric with ports := s.fabric.ports.put (port % 18) ⟨own == peer, own⟩ } }

/-- A version advance (R428): every retained packet of the fabric is replayed under the new version, by the port that the new
tables choose. -/
def State.linkAdvance (s : State) (tether : Bool) : State :=
  let f := s.fabric
  let v := ((if tether then f.tver else f.gver) + 1) % 16
  let s1 := { s with fabric := { f with
      gver := if tether then f.gver else v
      tver := if tether then v else f.tver
      nadv := min (f.nadv + 1) 65535 } }
  let again (k : Packet) : Packet := { k with ver := v, sent := true, dst := match k.peer with
      | some d => portEndpoint (s1.portTo d)
      | none => k.dst }
  { s1 with fabric := { s1.fabric with
      packets := f.packets.map fun k => if k.peer.isSome == tether then again k else k } }

/-- `LINK_DEATH` (R428, R430): an advance; devices that are left without a route are noted; no route within the package is
an error of the whole device. -/
def execLinkDeath (tether : Bool) (lost : List Nat) (s : State) : Out :=
  let s1 := s.linkAdvance tether
  .next (if tether then
      { s1 with fabric := { s1.fabric with lost := lost.foldl (fun (m : KMap Nat) d => m.put d s.time) s1.fabric.lost } }
    else if lost.isEmpty then s1 else s1.freezeAll)

/-- `ROUTE_LOSS_TIMEOUT` (R430): 100,000 ticks after the advance, packets to a device without a route complete with an
error: they are dropped, their streams go on behind them, and their contexts receive `UCERR` with SRC 4. -/
def execRouteLossTimeout (d : Nat) (s : State) : Out :=
  match s.fabric.lost.get? d with
  | none => .next s
  | some t =>
    if s.time < t + Config.routeLossTicks then .next s
    else
      let goes (k : Packet) : Bool := k.peer == some d && !k.done
      let gone := s.fabric.packets.filter goes
      let s1 := { s with fabric := { s.fabric with
          packets := s.fabric.packets.filter fun k => !goes k
          expect := gone.foldl (fun (m : KMap Nat) k => m.put k.stream (s.fabric.nextSeq.getD k.stream 0)) s.fabric.expect } }
      .next (gone.foldl (fun s k => match k.op with
        | .memAdd pa _ _ _ _ =>
          if (s.ctxs.get? k.ctx).isNone || (s.ctx k.ctx).retired then s
          else s.ucerr k.ctx (endpointCore k.src) (some k.wid) 4 9 pa (BitVec.ofNat 64 pa)
        | _ => s) s1)

/-- A core of the die of a sweeping core has not answered its marker: a remote scratchpad write that it sent before is still on its
way to some target (R365). -/
def State.sweeping (s : State) (core : Nat) (x : Sweep) : Bool :=
  s.fabric.packets.any fun k => !k.done && k.id < x.upto && dieOf (endpointCore k.src) == dieOf core && match k.op with
    | .store _ _ _ _ _ | .padAdd _ _ _ _ _ _ => true
    | _ => false

/-- `GENERATION_SWEEP` (R365): the oldest sweep of a slot completes once every core of the die has answered. The markers arrive as
the sweep starts (DESIGN CHOICE, log 109). -/
def execGenerationSweep (core slot : Nat) (s : State) : Out :=
  match (s.core core).sweeps.find? fun x => x.slot == slot with
  | none => .next s
  | some x => .next (if s.sweeping core x then s else s.updCore core fun c => { c with sweeps := c.sweeps.erase x })

/-! ## Accesses of peer devices (R433, R434, R442) -/

/-- Words that an access of a peer reads or writes. -/
def PeerOp.words : PeerOp → Nat
  | .read n => n
  | .write ws => ws.length
  | .add _ b _ | .atom _ b | .cas b _ => b.length

/-- An access of a peer writes. -/
def PeerOp.writes : PeerOp → Bool
  | .read _ => false
  | _ => true

/-- The downstream port of a pitch reports its link down: a reset or a destruction of the pitch runs (R445). -/
def State.linkDown (s : State) (p : Nat) : Bool := s.lantern.partition.any fun k => k.pitch == p && (k.op == 4 || k.op == 5)

/-- The physical address at which an access of a peer lands, if the receiving port admits it (R434, R440, R442): the inbound entry
names the sender and allows the access, the offset lies in its window, and every word in a stack of the pitch; none while the pitch is
reset (R445). -/
def State.peerTarget (s : State) (dev src p iwin off : Nat) (op : PeerOp) : Option Nat :=
  let q := s.pitch p
  let e := s.mem.words (q.tibase.toNat + 16 * iwin) 4
  let lo := (pairOf e).toNat
  let base := (pairOf (e.drop 2)).toNat % 2 ^ 52 / 2 ^ 16 * 2 ^ 16
  let a := off / 4 * 4
  if (s.pitches.get? p).isSome && !q.frozen && !s.linkDown p && q.tctx.getLsbD 12 && iwin < q.twcnt.toNat / 2 ^ 16 % 2 ^ 13 && e.all (·.wellFormed) &&
      lo % 2 == 1 && (!op.writes || lo / 2 % 2 == 1) && bitsOf lo 16 15 == dev && bitsOf lo 32 4 == src &&
      a + 4 * op.words ≤ bitsOf lo 36 21 * 65536 && (List.range op.words).all fun k => s.ownsStack p (base + a + 4 * k) then
    some (base + a)
  else none

/-- The grid-like account of a pitch's own memory budgets: those of its root region (R434, R392). -/
def State.rootAccount (s : State) (p : Nat) : Grid :=
  { Grid.absent with fields := (s.regions.filter fun e => e.2.pitch == p && e.2.parent == 0).map fun e => (e.1, e.2.resolved) }

/-- A first core of a pitch, for records that name one. -/
def State.firstCore (s : State) (p : Nat) : Nat := 100 * (((List.range 16).find? fun u => s.units.getD u 16 == p).getD 0)

/-- An access of a peer device (R434): refused, it is completed with an error; admitted, it waits while the pitch's memory budgets
are exhausted, then lands under the context of `tctx` (R442, R449). Words cross the port as its carriage says (R432). -/
def State.peerAccess (s : State) (port dev src p iwin off : Nat) (op : PeerOp) : State :=
  if !s.portUp (port % 18) then s else
  match s.peerTarget dev src p iwin off op with
  | none => s.report (.peerReply dev src false [])
  | some pa =>
    let c := (s.pitch p).tctx.toNat % 4096
    let core := s.firstCore p
    let pas := (List.range op.words).map fun k => pa + 4 * k
    let b := s.lineBill p pas
    if !s.canPay (s.rootAccount p) b then s
    else
      let s1 := pas.foldl (fun s a => s.l2Access a) (s.pay core c (s.rootAccount p) b)
      let who : Issuer := ⟨core, c, none, true, 0⟩
      let old := pas.map fun a => s1.physWord p true a
      let arrive (ws : List CWord) : List CWord := ws.map (s.crossed port)
      let put (s : State) (ws : List CWord) : State := s.physWrites who (pas.zip ws)
      let swap (f : List Word → List Word) : State :=
        if old.all (·.wellFormed) then put s1 ((f (datas old)).map .gen) else s1
      let s2 := match op with
        | .read _ => s1
        | .write ws => put s1 (arrive ws)
        | .add code b e => s1.memAdd who pa code (arrive b) e
        | .atom code b => swap fun o => atomFn code o (datas (arrive b))
        | .cas b n => swap fun o => casFn o (datas (arrive b)) (datas (arrive n))
      s2.report (.peerReply dev src true (match op with
        | .write _ | .add _ _ _ => []
        | _ => old.map (s.crossed port)))

/-- What a peer device's own memory comes to hold behind an outbound window (R433; DESIGN CHOICE, log 107: this device's memory map
keeps it). -/
def State.peerMemory (s : State) (pa : Nat) (ws : List CWord) : State :=
  if 9 ≤ pa / 2 ^ 48 && pa / 2 ^ 48 ≤ 11 then { s with mem := s.mem.setWords (pa / 4 * 4) (ws.map CWord.sound) } else s

/-! ## The host (R321, R436) -/

/-- Stacks that a pitch owns, ascending. -/
def State.stacksOf (s : State) (p : Nat) : List Nat := (List.range 16).filter fun u => s.units.getD u 16 == p

/-- The physical address of a BAR2 offset, inside the BAR (R436). -/
def State.bar2 (s : State) (p off : Nat) : Option Nat := ((s.stacksOf p)[off / 2 ^ 36]?).map fun u => u * 2 ^ 36 + off % 2 ^ 36

/-- `HOST_WRITE` (R321, R109, R436): posted words enter a stack of the pitch with generated residues. A write to a frame
that is poisoned for good is dropped and recorded under tag `0xFFF` (R451). A frozen or dumped pitch (R453), or one whose link is down
(R445), takes none. -/
def execHostWrite (p off : Nat) (ws : List Word) (s : State) : Out :=
  if (s.pitches.get? p).isNone || (s.pitch p).frozen || s.linkDown p then .next (s.report (.unsupported p))
  else
    .next ((ws.zipIdx).foldl (fun s x =>
      match s.bar2 p (off / 4 * 4 + 4 * x.2) with
      | none => s.report (.unsupported p)
      | some pa =>
        if s.lantern.dead.contains (pa / 65536) then s.reportError p (s.errorRecord 5 ownerNone 0 pa 0)
        else s.homeWord ownerNone pa (.gen x.1)) s)

/-- `HOST_READ` (R321, R109, R436): `n` words of a stack of the pitch, checked at egress. -/
def execHostRead (p off n : Nat) (s : State) : Out :=
  let pas := (List.range n).map fun k => s.bar2 p (off / 4 * 4 + 4 * k)
  if (s.pitches.get? p).isNone || s.linkDown p || pas.any (·.isNone) then .next (s.report (.unsupported p))
  else if (s.pitch p).frozen && !(s.pitch p).dumped then .next (s.report (.unsupported p))
  else
    let ws := pas.filterMap fun pa => pa.map fun a => s.physWord p true a
    let s1 := pas.foldl (fun s pa => match pa with
      | some a => s.l2Access a
      | none => s) s
    .next (s1.report (.read p (ws.map (·.data)) (ws.any fun w => !w.wellFormed)))

/-- `HOST_COMPLETION` (R321, R109, R262): what host memory gives the device at an address, with generated residues; an
error completion leaves poison there, and stops a ladle request that reads it (R262; DESIGN CHOICE, log 23). -/
def execHostCompletion (pa : Nat) (ws : List Word) (error : Bool) (s : State) : Out :=
  .next (if pa / 2 ^ 48 = 8 then
      let pas := (List.range ws.length).map fun k => pa / 4 * 4 + 4 * k
      let rest := s.hostErrs.filter fun a => !pas.contains a
      { s with
        mem := s.mem.setWords (pa / 4 * 4) (ws.map fun w => if error then CWord.poison ⟨w, 0⟩ else CWord.gen w)
        hostErrs := if error then rest ++ pas else rest }
    else s)

end Sys2Proof.Machine
end

