-- ==== Sys2Proof/Machine/Region.lean ====
section
/-!
DEFINITION. Region control blocks and their registers: `rlink`, `rsync`, `runlink`, the doorbells, inheritance and the
budget period (R43, R44, R381–R384, R386, R387, R392, R393).
-/

namespace Sys2Proof.Machine

/-! ## Memory of a pitch by physical address -/

/-- `n` words from a physical address up, as the pitch's hardware reads them. -/
def State.physWords (s : State) (p pa n : Nat) : List CWord := (List.range n).map fun k => s.physWord p true (pa + 4 * k)

/-- Words written by the pitch's hardware where the address holds data. -/
def State.pokePhys (s : State) (p pa : Nat) (ws : List CWord) : State :=
  (ws.zipIdx).foldl (fun s x =>
    if s.isData p (pa + 4 * x.2) then (s.placeWords ownerNone p true [(pa + 4 * x.2, x.1)]).1 else s) s

/-- Bits `[lo + n − 1 : lo]` of words joined low word first; `n` at most 32. -/
def wordBits (ws : List Word) (lo n : Nat) : Nat := fieldAt ws lo n

/-- A 64-bit field at a bit position that is a multiple of 32. -/
def wordPair (ws : List Word) (lo : Nat) : Nat := (ws.getD (lo / 32) 0).toNat + (ws.getD (lo / 32 + 1) 0).toNat * 2 ^ 32

/-! ## Region control blocks (R382, R383) -/

/-- The fourteen own fields of a block, in the order of R383. -/
def rcbFields (ws : List Word) : List Nat :=
  [wordBits ws 64 4, wordBits ws 68 1, wordBits ws 320 16, wordBits ws 336 16, wordBits ws 352 16, wordBits ws 368 16,
   wordBits ws 384 16, wordBits ws 400 16, wordBits ws 448 32, wordBits ws 480 32, wordBits ws 512 32, wordBits ws 544 32,
   wordBits ws 576 32, wordBits ws 608 32]

/-- The highest code of each of the first eight fields (R382). -/
def rcbLimits : List Nat := [15, 1, 16, 8192, 5632, 64, 200, 16]

/-- A reserved bit is set or a code is out of range (R381, R382). -/
def rcbBad (ws : List Word) : Bool :=
  wordPair ws 0 % 256 != 0 || 2 ^ 52 ≤ wordPair ws 0 || wordBits ws 74 22 != 0 || wordBits ws 110 18 != 0 ||
    wordPair ws 128 % 128 != 0 || 2 ^ 52 ≤ wordPair ws 128 || wordBits ws 196 28 != 0 || wordBits ws 288 32 != 0 ||
    wordBits ws 416 32 != 0 || (ws.drop 20).any (· != 0) ||
    ((rcbFields ws).zip rcbLimits).any fun x => x.2 < x.1

/-- The part of a linked block that its memory gives. -/
def Region.load (r : Region) (ws : List Word) : Region :=
  { r with devq := (ws.getD 2 0).getLsbD 9, imask := ws.getD 3 0, qbase := wordPair ws 128, qlog := wordBits ws 192 4,
           own := rcbFields ws }

/-- A block as linked (R384). -/
def regionOf (p level : Nat) (ws : List Word) : Region :=
  Region.load { pitch := p, parent := wordPair ws 0, level := level, devq := false, imask := 0, qbase := 0, qlog := 0,
                qhead := wordBits ws 224 32, qtail := wordBits ws 256 32, own := [], resolved := [],
                used := List.replicate 6 0, carried := List.replicate 6 0 } ws

/-- The resolved fields of a block: its own where IMASK selects them, else its parent's resolved ones (R44, R383). -/
def State.resolve (s : State) : Nat → Nat → List Nat
  | 0, _ => []
  | n + 1, a =>
    match s.regions.get? a with
    | none => []
    | some r =>
      let up := if r.parent = 0 then [] else State.resolve s n r.parent
      (List.range 14).map fun k => if r.imask.getLsbD k || r.parent = 0 then r.own.getD k 0 else up.getD k 0

/-- Every linked block with its resolved fields. -/
def State.resolveAll (s : State) : State := { s with regions := s.regions.mapv fun a r => { r with resolved := s.resolve 8 a } }

/-! ## `rlink`, `rsync`, `runlink` (R384) -/

/-- RCBA of a written value (R381). -/
def rcba (v : BitVec 64) : Nat := v.toNat % 2 ^ 52 / 256 * 256

/-- RES written (R381). -/
def State.setRes (s : State) (p res : Nat) : State := s.updPitch p fun q => { q with rlstat := BitVec.ofNat 32 res }

/-- The checks of `rlink` on a block: the RES code of the first that fails, or the level (R384). -/
def State.linkCheck (s : State) (p : Nat) (ws : List Word) : Except Nat Nat :=
  let par := wordPair ws 0
  if rcbBad ws then .error 1
  else if par = 0 then
    if s.regions.any fun e => e.2.pitch == p && e.2.parent == 0 then .error 2
    else if ws.getD 3 0 != 0x3FFF || wordBits ws 68 1 = 0 then .error 4
    else .ok 1
  else
    match s.regions.get? par with
    | none => .error 2
    | some q => if q.pitch != p then .error 2 else if 8 ≤ q.level then .error 3 else .ok (q.level + 1)

/-- `rlink` (R384): LEVEL and LINKED are written to the block. -/
def State.rlink (s : State) (p : Nat) (v : BitVec 64) : State :=
  let a := rcba v
  if (s.regions.get? a).isSome then s.setRes p 7
  else
    let cs := s.physWords p a 64
    if cs.any (fun w => !w.wellFormed) then s.setRes p 6
    else
      let ws := cs.map (·.data)
      match s.linkCheck p ws with
      | .error n => s.setRes p n
      | .ok level =>
        let w2 := ((ws.getD 2 0) &&& ~~~(0x1E0 : Word)) ||| BitVec.ofNat 32 ((level - 1) * 32 + 256)
        ((({ s with regions := s.regions.put a (regionOf p level ws) }).resolveAll).pokePhys p (a + 8) [.gen w2]).setRes p 0

/-- `rsync` (R384, R44). -/
def State.rsync (s : State) (p : Nat) (v : BitVec 64) : State :=
  let a := rcba v
  match s.regions.get? a with
  | none => s.setRes p 7
  | some r =>
    if r.pitch != p then s.setRes p 7
    else
      let cs := s.physWords p a 64
      let ws := cs.map (·.data)
      if cs.any (fun w => !w.wellFormed) then s.setRes p 6
      else if rcbBad ws then s.setRes p 1
      else if wordPair ws 0 != r.parent then s.setRes p 8
      else if r.parent = 0 && (ws.getD 3 0 != 0x3FFF || wordBits ws 68 1 = 0) then s.setRes p 4
      else (({ s with regions := s.regions.put a (r.load ws) }).resolveAll).setRes p 0

/-- QTAIL of a queue: the host's is in memory (R386). -/
def State.tailOf (s : State) (a : Nat) (r : Region) : Nat :=
  if r.devq then r.qtail else (s.physWord r.pitch true (a + 32)).data.toNat

/-- `runlink` (R384). -/
def State.runlink (s : State) (p : Nat) (v : BitVec 64) : State :=
  let a := rcba v
  match s.regions.get? a with
  | none => s.setRes p 7
  | some r =>
    if r.pitch != p then s.setRes p 7
    else if r.qhead != s.tailOf a r || (s.grids.any fun g => g.2.region == a) || (s.regions.any fun e => e.2.parent == a)
    then s.setRes p 5
    else
      let w2 := (s.physWord p true (a + 8)).data &&& ~~~(0x100 : Word)
      (({ s with regions := s.regions.erase a }).pokePhys p (a + 8) [.gen w2]).setRes p 0

/-- `rlink` (R384). -/
def execRlink (p : Nat) (v : BitVec 64) (s : State) : Out := .next (s.rlink p v)
/-- `rsync` (R384). -/
def execRsync (p : Nat) (v : BitVec 64) (s : State) : Out := .next (s.rsync p v)
/-- `runlink` (R384). -/
def execRunlink (p : Nat) (v : BitVec 64) (s : State) : Out := .next (s.runlink p v)

/-! ## Doorbells (R386, R387) -/

/-- `qdoor` (R386): a host queue's QTAIL is read. -/
def State.qdoor (s : State) (p : Nat) (v : BitVec 64) : State :=
  let a := rcba v
  match s.regions.get? a with
  | none => s
  | some r =>
    if r.pitch != p || r.devq then s
    else
      let w := s.physWord p true (a + 32)
      if w.wellFormed then s.updRegion a fun r => { r with qtail := w.data.toNat } else s

/-- `QUEUE_DOORBELL` (R386). -/
def execQdoor (p : Nat) (v : BitVec 64) (s : State) : Out := .next (s.qdoor p v)

/-- `edoor` (R387): bits for the resident and the saved workgroups of the region's grids. -/
def State.edoor (s : State) (p : Nat) (v : BitVec 64) : State :=
  let a := rcba v
  let bits : BitVec 16 := BitVec.ofNat 16 (v.toNat % 256 * 256)
  match s.regions.get? a with
  | none => s
  | some r =>
    if r.pitch != p then s
    else
      let hit (g : Workgroup) : Bool := (s.grid g.grid).region == a && !g.ended
      let post (_ : Nat) (g : Workgroup) : Workgroup := if hit g then { g with events := g.events ||| bits } else g
      { s with wgs := s.wgs.mapv post, saved := s.saved.mapv fun _ c => { c with wgs := c.wgs.mapv post } }

/-- `EVENT_DOORBELL` (R387). -/
def execEdoor (p : Nat) (v : BitVec 64) (s : State) : Out := .next (s.edoor p v)

/-! ## The budget period (R392, R393) -/

/-- What is carried into the next period: the excess, as far as this period's own charges made it (R393). -/
def carryOver (limit used carried : Nat) : Nat := if limit = 0xFFFFFFFF then 0 else min (used - carried) (used - limit)

/-- A region at the start of a period. -/
def Region.newPeriod (r : Region) : Region :=
  let c := (List.range 6).map fun k => carryOver (r.resolved.getD (8 + k) 0) (r.used.getD k 0) (r.carried.getD k 0)
  { r with used := c, carried := c }

/-- The fields that apply to a grid: those of its region's chain as resolved now (R44). -/
def State.fieldsOf (s : State) (region : Nat) : KMap (List Nat) :=
  (s.chain 8 region).foldl (fun (m : KMap (List Nat)) a => match s.regions.get? a with
    | some r => m.put a r.resolved
    | none => m) []

/-- RESV of the regions of a pitch as resolved now (R44, R391). -/
def State.reservations (s : State) (p : Nat) : KMap Nat :=
  (s.regions.filter fun e => e.2.pitch == p).map fun e => (e.1, e.2.resolved.getD 7 0)

/-- `BUDGET_PERIOD` (R392, R393, R44): what has changed since a grid's admission applies to it from now on. -/
def execBudgetPeriod (s : State) : Out :=
  let s1 := { s with regions := s.regions.mapv fun _ r => r.newPeriod }
  .next { s1 with grids := s1.grids.mapv fun _ g =>
            { g with fields := s1.fieldsOf g.region, resv := match s1.regions.get? g.region with
                       | some r => s1.reservations r.pitch
                       | none => [] } }

end Sys2Proof.Machine
end

