-- ==== Sys2Proof/Machine/Launch.lean ====
section
/-!
DEFINITION. Launch records, `LAUNCH`, admission, placement and the completion of grids (R46, R48–R52, R70, R230,
R385–R391).
-/

namespace Sys2Proof.Machine

/-! ## Launch records (R385) -/

/-- Words of a launch record. -/
abbrev LaunchRec := List Word

/-- The grid that a record describes; its words are good. -/
def gridOfRec (ws : LaunchRec) (region qidx : Nat) : Grid :=
  { ctx := wordBits ws 544 12, region := region, qidx := qidx, entry := BitVec.ofNat 55 (wordPair ws 0),
    pool := BitVec.ofNat 64 (wordPair ws 64), pooln := wordBits ws 556 13,
    nwg := [wordBits ws 128 32, wordBits ws 160 32, wordBits ws 192 32],
    ntid := [wordBits ws 224 16, wordBits ws 240 16, wordBits ws 256 16], gang := wordBits ws 272 5,
    nreg := 16 * wordBits ws 277 6, slines := wordBits ws 283 13, copyq := wordBits ws 296 6,
    serial := wordBits ws 302 1 == 1, priv := wordBits ws 303 1 == 1, cirq := wordBits ws 304 1 == 1,
    slots := (List.range 8).map fun k => BitVec.ofNat 16 (wordBits ws (320 + 16 * k) 16),
    stack := BitVec.ofNat 64 (wordPair ws 448), sstr := wordBits ws 512 32, caddr := BitVec.ofNat 64 (wordPair ws 576),
    placed := 0, ended := 0, killed := false, brot := wordBits ws 305 2, fields := [], resv := [] }

/-- Threads of a workgroup. -/
def Grid.threads (g : Grid) : Nat := g.ntid.getD 0 1 * g.ntid.getD 1 1 * g.ntid.getD 2 1
/-- Warps of a workgroup (R49). -/
def Grid.warpsN (g : Grid) : Nat := (g.threads + 31) / 32
/-- Workgroups of the grid. -/
def Grid.total (g : Grid) : Nat := g.nwg.getD 0 1 * g.nwg.getD 1 1 * g.nwg.getD 2 1
/-- Register rows of a workgroup (R50). -/
def Grid.rows (g : Grid) : Nat := g.warpsN * g.nreg

/-- A field lies outside its range, or a reserved bit is set (R388, code 1). -/
def recBad (ws : LaunchRec) (g : Grid) : Bool :=
  wordPair ws 0 % 4 != 0 || 2 ^ 55 ≤ wordPair ws 0 || wordPair ws 64 % 32 != 0 || 2 ^ 55 ≤ wordPair ws 64 ||
    g.nwg.any (· == 0) || g.ntid.any (· == 0) || 1024 < g.threads || g.gang < 1 || 16 < g.gang || g.nreg < 16 ||
    512 < g.nreg || 4096 < g.slines || 32 < g.copyq || wordBits ws 307 13 != 0 || wordPair ws 448 % 16 != 0 ||
    2 ^ 55 ≤ wordPair ws 448 || g.sstr % 16 != 0 || 4096 < g.pooln || wordBits ws 569 7 != 0 ||
    wordPair ws 576 % 8 != 0 || (ws.drop 20).any (· != 0)

/-- Cores of a pitch. -/
def State.pitchCores (s : State) (p : Nat) : List Nat := (List.range 1600).filter fun c => s.corePitch c == p

/-- The refusal code of a record, 0 for none (R388); `dev` is the context and the mode of a `LAUNCH`. -/
def State.recordWhy (s : State) (r : Region) (cs : List CWord) (g : Grid) (dev : Option (Nat × Bool)) : Nat :=
  let cores := s.pitchCores r.pitch
  let bound := match s.ctxs.get? g.ctx with
    | some c => c.pitch == r.pitch && !c.retired
    | none => false
  let q (k : Nat) : Nat := r.resolved.getD k 0
  if cs.any (fun w => !w.wellFormed) then 8
  else if recBad (cs.map (·.data)) g then 1
  else if g.slots.any fun k => !slotValid k then 2
  else if g.total % g.gang != 0 then 3
  else if 8192 < g.rows || q 2 < 1 || q 3 < g.rows || q 4 < g.slines || q 5 < g.copyq then 4
  else if (List.range 8).all fun d => (cores.filter fun c => dieOf c == d).length < g.gang then 5
  else if g.priv && (match dev with
      | some (_, priv) => !priv
      | none => !r.devq && bound && !(s.ctx g.ctx).hqpriv) then 6
  else if !bound || (match dev with
      | some (c, _) => c != g.ctx
      | none => false) then 7
  else 0

/-! ## `LAUNCH` (R230) -/

/-- The physical address of a record index in a queue (R386). -/
def Region.slotAddr (r : Region) (i : Nat) : Nat := r.qbase + 128 * (i % 2 ^ r.qlog)

/-- The captured record enqueued, or the status that says why not (R230, R386, R388). -/
def State.enqueueRecord (s : State) (a : Nat) (cs : List CWord) : State × Nat :=
  match s.regions.get? a with
  | none => (s, 3)
  | some r =>
    if r.pitch != (s.ctx s.curCtx).pitch then (s, 3)
    else if !r.devq then (s, 2)
    else if s.recordWhy r cs (gridOfRec (cs.map (·.data)) a r.qtail) (some (s.curCtx, s.curPriv)) != 0 then (s, 2)
    else if 2 ^ r.qlog ≤ (r.qtail + 2 ^ 32 - r.qhead) % 2 ^ 32 then (s, 1)
    else
      let tail := (r.qtail + 1) % 2 ^ 32
      (((s.pokePhys r.pitch (r.slotAddr r.qtail) cs).pokePhys r.pitch (a + 32) [.gen (BitVec.ofNat 32 tail)]).updRegion a
        fun r => { r with qtail := tail }, 0)

/-- `LAUNCH` (R230). -/
def execLaunch (f : Fields) (s : State) : Out :=
  s.once .launch f [] false (onceSources .launch f) fun s i ins =>
    let a := pairOf i.a
    let b := pairOf i.b
    if a.toNat % 128 != 0 then .trap s (alignTrap a)
    else if b.toNat % 256 != 0 then .trap s (alignTrap b)
    else if 2 ^ 55 ≤ a.toNat then .trap s ⟨causeData, dataInfo 4 0, a⟩
    else if 2 ^ 55 ≤ b.toNat then .trap s ⟨causeData, dataInfo 4 0, b⟩
    else
      match s.chargeAccess false [] [b.toNat] [a.toNat] with
      | none => .stall
      | some s =>
      match s.translate s.curCore s.curCtx a.toNat (s.dataAccess false),
          s.translate s.curCore s.curCtx b.toNat (s.dataAccess false) with
      | .error info, _ => .trap s ⟨causePage, info, a⟩
      | .ok _, .error info => .trap s ⟨causePage, info, b⟩
      | .ok pa, .ok pb =>
        s.releasing 5 fun s =>
          let cs := s.wordsAt s.curCore s.curCtx s.curPriv (.global a pa) 128
          let (s1, st) := s.enqueueRecord pb cs
          .done (s1.give f (ins.map (·.l)) (.gen (BitVec.ofNat 32 st)))

/-! ## Admission (R388, R389, R44) -/

/-- The next grid number: admission order is number order. -/
def State.nextGrid (s : State) : Nat := (s.grids.map fun e => e.1 + 1).foldl max 0

/-- The record at a queue's head is admitted or refused (R386, R388, R390). -/
def State.admitNext (s : State) (a : Nat) : State :=
  match s.regions.get? a with
  | none => s
  | some r =>
    if r.qhead = r.qtail then s
    else
      let cs := s.physWords r.pitch (r.slotAddr r.qhead) 32
      let g := gridOfRec (cs.map (·.data)) a r.qhead
      let head := (r.qhead + 1) % 2 ^ 32
      let why := s.recordWhy r cs g none
      let s1 := (s.updRegion a fun r => { r with qhead := head }).pokePhys r.pitch (a + 28) [.gen (BitVec.ofNat 32 head)]
      if why = 0 then
        { s1 with grids := s1.grids.put s1.nextGrid { g with fields := s1.fieldsOf a, resv := s1.reservations r.pitch } }
      else s1.complete (if why = 8 then { g with caddr := 0, cirq := false } else g) 3 why

/-- `ADMISSION` (R388). -/
def execAdmission (rcb : Nat) (s : State) : Out := .next (s.admitNext rcb)

/-! ## Placement (R48, R50, R391) -/

/-- The workgroups on a core. -/
def State.wgsOn (s : State) (core : Nat) : List Workgroup := (s.wgs.filter fun e => coreOf e.1 == core).map (·.2)

/-- Register rows that a resident workgroup holds (R69: none once it has ended). -/
def Workgroup.rows (g : Workgroup) : Nat := if g.ended then 0 else g.warps * g.nreg

/-- A free slot of a core whose generation is not being swept, the lowest (R364, R365). -/
def State.freeSlot (s : State) (core : Nat) : Option Nat :=
  let c := s.core core
  (List.range 16).find? fun k => (s.wgs.get? (core * 16 + k)).isNone && !c.sweeps.any fun x => x.slot == k && x.gen == c.gens.getD k 0

/-- Slots of a core that reservations of other regions hold free, as RESV applies to the grid (R391, R44); that of a region linked
since is its own. -/
def State.reserved (s : State) (core p : Nat) (g : Grid) : Nat :=
  let mine := s.chain 8 g.region
  let wgs := (s.wgsOn core).filter fun w => !w.ended
  ((s.regions.filter fun e => e.2.pitch == p && !mine.contains e.1).map fun e =>
    g.resv.getD e.1 (e.2.resolved.getD 7 0) - (wgs.filter fun w => (s.chain 8 (s.grid w.grid).region).contains e.1).length).sum

/-- A workgroup of a grid fits a core: the free resources of R50, the quotas and reservations of R391. The lines of an ended member
of a gang stay in use until the gang ends (R52, R69). -/
def State.eligible (s : State) (core p : Nat) (g : Grid) : Bool :=
  let all := s.wgsOn core
  let run := all.filter fun w => !w.ended
  let sum (f : Workgroup → Nat) (l : List Workgroup) : Nat := (l.map f).sum
  (s.freeSlot core).isSome && decide (run.length + s.reserved core p g < 16) &&
    decide (sum Workgroup.rows run + g.rows ≤ 8192) && decide (sum (·.warps) run + g.warpsN ≤ 64) &&
    decide (sum (fun w => w.spad / 128) all + g.slines ≤ 5632) && decide (sum (·.copyq) run + g.copyq ≤ 64) &&
    g.fields.all fun e =>
      let below (w : Workgroup) : Bool := (s.chain 8 (s.grid w.grid).region).contains e.1
      let sub := run.filter below
      let q (k : Nat) : Nat := e.2.getD k 0
      decide (sub.length + 1 ≤ q 2) && decide (sum Workgroup.rows sub + g.rows ≤ q 3) &&
        decide (sum (fun w => w.spad / 128) (all.filter below) + g.slines ≤ q 4) && decide (sum (·.copyq) sub + g.copyq ≤ q 5)

/-- Register rows in use on a core. -/
def State.rowsUsed (s : State) (core : Nat) : Nat := ((s.wgsOn core).map Workgroup.rows).sum

/-- The cores for a grid's next workgroup or gang: most free rows first, then the lowest; a gang on one die (R391). -/
def State.pickCores (s : State) (p : Nat) (closed : BitVec 16) (g : Grid) : Option (List Nat) :=
  let ok := (s.pitchCores p).filter fun c => !closed.getLsbD (unitOf c) && s.eligible c p g
  let order := ok.mergeSort fun a b => s.rowsUsed a < s.rowsUsed b || (s.rowsUsed a == s.rowsUsed b && a ≤ b)
  order.findSome? fun c =>
    let same := order.filter fun d => dieOf d == dieOf c
    if g.gang ≤ same.length then some (same.take g.gang) else none

/-- A thread at launch (R18, R49, R385). -/
def Thread.launched (g : Grid) (linear t now : Nat) : Thread :=
  if g.threads ≤ t then .absent
  else { Thread.absent with
    status := .joining, pc := g.entry, age := now,
    csp := g.stack + BitVec.ofNat 64 (g.sstr * (linear * g.threads + t + 1)) }

/-- A warp at launch (R25, R49). -/
def Warp.launched (g : Grid) (linear w now : Nat) : Warp :=
  { Warp.absent with lanes := (List.range 32).map fun l => Thread.launched g linear (32 * w + l) now, next := 1 }

/-- A workgroup at launch (R31, R49, R246, R364, R399). -/
def Workgroup.launched (g : Grid) (gid linear : Nat) (gang : List GangEntry) : Workgroup :=
  { Workgroup.absent with
    grid := gid, ctx := g.ctx, linear := linear, warps := g.warpsN, nreg := g.nreg, spad := 128 * g.slines, copyq := g.copyq,
    gang := gang, ended := false }

/-- One workgroup put on a core: its first instructions acquire at `dev` scope (R320). -/
def State.placeOne (s : State) (gid : Nat) (g : Grid) (linear : Nat) (gang : List GangEntry) (k : Nat) : State :=
  let s1 := s.setWg k (Workgroup.launched g gid linear gang)
  ((List.range g.warpsN).foldl (fun s w => s.setWarp (k * 32 + w) (Warp.launched g linear w s.cycle)) s1).acquireAt
    (coreOf k) 5

/-- The resolved PRIO of a grid (R46, R44). -/
def Grid.prio (g : Grid) : Nat := (g.fields.getD g.region []).getD 0 0

/-- The lines of a list of workgroup places pinned, each place then taken; the flag is false when one finds no way. -/
def State.placeAll (s : State) (gid : Nat) (g : Grid) (gang : List GangEntry) : List (Nat × Nat) → State × Bool
  | [] => (s, true)
  | (k, i) :: ks =>
    match s.pinPad (coreOf k) (k % 16) g.slines with
    | (s1, true) => State.placeAll (s1.placeOne gid g (g.placed + i) gang k) gid g gang ks
    | (s1, false) => (s1, false)

/-- The next workgroup or gang of a grid placed, if it can be, with its scratchpad lines pinned (R52, R360, R364, R391). When no way
is found the placement waits: nothing is taken, and what the tries wrote back or reported stands (R360). -/
def State.placeGrid (s : State) (p : Nat) (gid : Nat) (g : Grid) : State × Bool :=
  match s.pickCores p (s.pitch p).closed g with
  | none => (s, false)
  | some cores =>
    let keys := cores.map fun c => c * 16 + (s.freeSlot c).getD 0
    let gang := keys.map fun k => GangEntry.mk k ((s.core (coreOf k)).gens.getD (k % 16) 0)
    match s.placeAll gid g gang keys.zipIdx with
    | (s1, true) =>
      ((s1.updGrid gid fun g => { g with placed := g.placed + keys.length }).updPitch p fun q =>
        { q with turns := q.turns.put g.prio gid }, true)
    | (s1, false) =>
      (keys.foldl (fun s k => s.updCore (coreOf k) fun c => { c with pins := c.pins.erase (k % 16) })
        { s1 with
          wgs := s1.wgs.filter fun e => !keys.contains e.1
          warps := s1.warps.filter fun e => !keys.contains (wgKey e.1) }, false)

/-- A grid's region and every ancestor have units left of each budget (R391; DEDUCED, log 20). -/
def State.budgetsLeft (s : State) (g : Grid) : Bool := (List.range 6).all fun k => s.mayStart g (8 + k)

/-- A grid of a pitch is ready for placement (R48, R389, R391). -/
def State.gridReady (s : State) (p gid : Nat) (g : Grid) : Bool :=
  let before := s.grids.filter fun e => e.2.region == g.region && e.1 < gid
  (s.regions.get? g.region).any (fun r => r.pitch == p) && decide (g.placed < g.total) && !g.killed &&
    !(s.ctx g.ctx).retired && !(s.ctx g.ctx).stopped && before.all (fun e => e.2.total ≤ e.2.placed) &&
    (!g.serial || before.isEmpty) && s.budgetsLeft g

/-- The ready grids of a pitch in the order of arbitration: priority, then round-robin among equals, by number from the one of that
priority served last (R46, R391); the numbers' order is the model's (DESIGN CHOICE, log 113). -/
def State.arbitration (s : State) (p : Nat) : List (Nat × Grid) :=
  let rank (e : Nat × Grid) : Nat := if (s.pitch p).turns.getD e.2.prio 0 < e.1 then e.1 else e.1 + 2 ^ 64
  (s.grids.filter fun e => s.gridReady p e.1 e.2).mergeSort fun a b =>
    b.2.prio < a.2.prio || (a.2.prio == b.2.prio && rank a ≤ rank b)

/-- The first grid of a list that can be placed. -/
def State.placeFirst (s : State) (p : Nat) : List (Nat × Grid) → State
  | [] => s
  | (i, g) :: es =>
    if (s.grids.get? i).isNone then State.placeFirst s p es
    else match s.placeGrid p i g with
      | (s1, true) => s1
      | (s1, false) => State.placeFirst s1 p es

/-- `WORKGROUP_PLACEMENT` (R391): the first grid in order that can be placed. Nothing is placed in a frozen pitch (R453). -/
def execWorkgroupPlacement (p : Nat) (s : State) : Out :=
  if (s.pitch p).frozen then .next s else .next (s.placeFirst p (s.arbitration p))

/-! ## Completion (R70, R390) -/

/-- Writes of a grid that have not reached their end (R70). -/
def State.gridBusy (s : State) (gid : Nat) : Bool := s.fabric.packets.any fun p => p.grid == gid && !p.done

/-- The dirty words of a context written back on every core. -/
def State.writeBackCtx (s : State) (c : Nat) : State :=
  s.cores.foldl (fun s e => s.writeBacks e.1 ((e.2.dirty.filter fun d => d.2.ctx == c).map (·.1))) s

/-- `GRID_COMPLETION` (R70, R390). -/
def execGridCompletion (gid : Nat) (s : State) : Out :=
  match s.grids.get? gid with
  | none => .next s
  | some g =>
    if g.ended < g.total || s.gridBusy gid then .next s
    else
      let s1 := (s.writeBackCtx g.ctx).complete g 1 0
      .next { s1 with grids := s1.grids.erase gid }

end Sys2Proof.Machine
end

