-- ==== Sys2Proof/Machine/Logic.lean ====
section
/-!
DEFINITION. Logic, shifts, bit fields and bit counts (R170–R174).
-/

namespace Sys2Proof.Machine

/-- A form whose result is one word of A, B and C, with its predicted residue. -/
def wordOp (op : Op) (g : CWord → CWord → CWord → CWord) (f : Fields) (s : State) : Out :=
  s.lanePure op f .p fun i => { dst := [g (c0 i.a) (c0 i.b) (c0 i.c)] }

/-- A function of words as a duplicate circuit predicts it (R108). -/
def duplicated (g : Word → Word → Word → Word) (a b c : CWord) : CWord := .gen (g a.data b.data c.data)

/-! ## Two-input logic (R170) -/

/-- A AND B. -/
def bitAnd : Fields → State → Out := wordOp .andB fun a b _ => andWord a b
/-- `AND` (R170). -/
def execAndB (f : Fields) (s : State) : Out := bitAnd f s
/-- `AND`, compact (R131). -/
def execAndCompact (c : Compact) (s : State) : Out := bitAnd (c.expand COp.andCompact.unary) s

/-- A OR B. -/
def bitOr : Fields → State → Out := wordOp .orB fun a b _ => orWord a b
/-- `OR` (R170). -/
def execOrB (f : Fields) (s : State) : Out := bitOr f s
/-- `OR`, compact (R131). -/
def execOrCompact (c : Compact) (s : State) : Out := bitOr (c.expand COp.orCompact.unary) s

/-- A XOR B. -/
def bitXor : Fields → State → Out := wordOp .xorB fun a b _ => xorWord a b
/-- `XOR` (R170). -/
def execXorB (f : Fields) (s : State) : Out := bitXor f s
/-- `XOR`, compact (R131). -/
def execXorCompact (c : Compact) (s : State) : Out := bitXor (c.expand COp.xorCompact.unary) s

/-- NOT A. -/
def bitNot : Fields → State → Out := wordOp .notB fun a _ _ => notWord a
/-- `NOT` (R170). -/
def execNotB (f : Fields) (s : State) : Out := bitNot f s
/-- `NOT`, compact (R131). -/
def execNotCompact (c : Compact) (s : State) : Out := bitNot (c.expand COp.notCompact.unary) s

/-- `ANDN` (R170). -/
def execAndn (f : Fields) (s : State) : Out := wordOp .andn (fun a b _ => andWord a (notWord b)) f s

/-! ## `BITFN` (R171) -/

/-- The truth table of `BITFN`: TBL[5:0] in OPM, TBL[7:6] in C9[8:7]. -/
def bitfnTable (f : Fields) : BitVec 8 := (f.c.extractLsb' 7 2) ++ f.opm

/-- The three-input function of a truth table, bit by bit. -/
def bitfnWord (tbl : BitVec 8) (a b c : Word) : Word :=
  (List.range 8).foldl (fun acc r =>
    if tbl.getLsbD r then
      acc ||| ((if r.testBit 0 then a else ~~~a) &&& (if r.testBit 1 then b else ~~~b) &&& (if r.testBit 2 then c else ~~~c))
    else acc) 0

/-- `BITFN` (R171). -/
def execBitfn (f : Fields) (s : State) : Out := wordOp .bitfn (duplicated (bitfnWord (bitfnTable f))) f s

/-! ## Shifts and rotates (R172) -/

/-- The shift amount: B[7:0]. -/
def shiftN (b : Word) : Nat := b.toNat % 256

/-- Shift left. -/
def bitShl : Fields → State → Out := wordOp .shl fun a b _ => shlWord a (shiftN b.data)
/-- `SHL` (R172). -/
def execShl (f : Fields) (s : State) : Out := bitShl f s
/-- `SHL`, compact (R131). -/
def execShlCompact (c : Compact) (s : State) : Out := bitShl (c.expand COp.shlCompact.unary) s

/-- Shift right: arithmetic for `.I32`. -/
def bitShr (f : Fields) (s : State) : Out :=
  wordOp .shr (fun a b _ => shrWord (f.ty = 0) a (shiftN b.data)) f s
/-- `SHR` (R172). -/
def execShr (f : Fields) (s : State) : Out := bitShr f s
/-- `SHR`, compact (R131). -/
def execShrCompact (c : Compact) (s : State) : Out := bitShr (c.expand COp.shrCompact.unary) s

/-- `ROL` (R172). -/
def execRol (f : Fields) (s : State) : Out :=
  wordOp .rol (fun a b _ => ⟨a.data.rotateLeft (shiftN b.data % 32), predictRol a (shiftN b.data % 32)⟩) f s

/-- `SHL64` (R172). -/
def execShl64 (f : Fields) (s : State) : Out :=
  s.lanePure .shl64 f .p fun i =>
    let n := shiftN (w0 i.b)
    { dst := pairWith (pairOf i.a <<< n) (shlPair (c0 i.a) (c1 i.a) n) }

/-- The predicted words of a pair shifted right by `n`: the bits that cross into the low word take the place of `low` (R172). -/
def shrPair (signed : Bool) (lo hi : CWord) (n : Nat) : CWord × CWord :=
  let h := shrWord signed hi n
  if n < 32 then
    (⟨lo.data, mod15 (inv2 n * (srcRes lo - resI (lowBits n lo.data) + resI (lowBits n hi.data)))⟩, h)
  else if n < 64 then (shrWord signed hi (n - 32), h)
  else (h, h)

/-- `SHR64` (R172). -/
def execShr64 (f : Fields) (s : State) : Out :=
  s.lanePure .shr64 f .p fun i =>
    let n := shiftN (w0 i.b)
    { dst := pairWith (if f.ty = 0 then (pairOf i.a).sshiftRight n else pairOf i.a >>> n) (shrPair (f.ty = 0) (c0 i.a) (c1 i.a) n) }

/-! ## Bit fields and counts (R173, R174) -/

/-- Position and effective length of a field, or none when it is empty (R173). -/
def fieldSpan (b : Word) : Option (Nat × Nat) :=
  let pos := b.toNat % 256
  let len := b.toNat / 256 % 256
  if 32 ≤ pos ∨ len = 0 then none else some (pos, min len (32 - pos))

/-- `n` ones from bit 0. -/
def ones (n : Nat) : Word := BitVec.ofNat 32 (2 ^ n - 1)

/-- `BFX` (R173). -/
def bfxWord (signed : Bool) (a b : Word) : Word :=
  match fieldSpan b with
  | none => 0
  | some (pos, n) =>
    let x := (a >>> pos) &&& ones n
    if signed && x.getLsbD (n - 1) then x ||| ~~~ones n else x

/-- `BFX` with its residue: the shift row, the AND row, and the OR row for a sign fill. -/
def bfxChecked (signed : Bool) (a b : CWord) : CWord :=
  let tag := match fieldSpan b.data with
    | none => 0
    | some (pos, n) =>
      let x := andWord (shrWord false a pos) (.gen (ones n))
      if signed && x.data.getLsbD (n - 1) then predictOr x (.gen (~~~ones n)) else x.tag
  ⟨bfxWord signed a.data b.data, tag⟩

/-- `BFX` (R173). -/
def execBfx (f : Fields) (s : State) : Out := wordOp .bfx (fun a b _ => bfxChecked (f.ty = 0) a b) f s

/-- `BFI` (R173). -/
def bfiWord (a b c : Word) : Word :=
  match fieldSpan b with
  | none => c
  | some (pos, n) => (c &&& ~~~(ones n <<< pos)) ||| ((a &&& ones n) <<< pos)

/-- `BFI` with its residue: the AND and shift rows of the two parts, then the OR row. -/
def bfiChecked (a b c : CWord) : CWord :=
  let tag := match fieldSpan b.data with
    | none => c.tag
    | some (pos, n) =>
      (orWord (andWord c (.gen (~~~(ones n <<< pos)))) (shlWord (andWord a (.gen (ones n))) pos)).tag
  ⟨bfiWord a.data b.data c.data, tag⟩

/-- `BFI` (R173). -/
def execBfi (f : Fields) (s : State) : Out := wordOp .bfi bfiChecked f s

/-- The number of 1 bits. -/
def popWord (a : Word) : Word := BitVec.ofNat 32 ((List.range 32).filter fun i => a.getLsbD i).length
/-- The number of 0 bits above the highest 1. -/
def clzWord (a : Word) : Word :=
  BitVec.ofNat 32 (((List.range 32).find? fun i => a.getLsbD (31 - i)).getD 32)
/-- The bits reversed. -/
def brevWord (a : Word) : Word :=
  (List.range 32).foldl (fun acc i => if a.getLsbD (31 - i) then acc ||| (1 <<< i) else acc) 0

/-- Population count. -/
def bitPopc : Fields → State → Out := wordOp .popc (duplicated fun a _ _ => popWord a)
/-- `POPC` (R174). -/
def execPopc (f : Fields) (s : State) : Out := bitPopc f s
/-- `POPC`, compact (R131). -/
def execPopcCompact (c : Compact) (s : State) : Out := bitPopc (c.expand COp.popcCompact.unary) s

/-- `CLZ` (R174). -/
def execClz (f : Fields) (s : State) : Out := wordOp .clz (duplicated fun a _ _ => clzWord a) f s
/-- `BREV` (R174). -/
def execBrev (f : Fields) (s : State) : Out := wordOp .brev (duplicated fun a _ _ => brevWord a) f s

end Sys2Proof.Machine
end

