-- ==== Sys2Proof/Machine/Preempt.lean ====
section
/-!
DEFINITION. Pre-emption, kill and resumption of a context (R59, R67, R303, R336–R348, R409). What the save area holds in a
layout specific to the device revision is written as free values; what restores it is kept beside it, in `State.saved`.
-/

namespace Sys2Proof.Machine

/-! ## The request registers (R339) -/

/-- CTX of `pcreq`. -/
def Pitch.reqCtx (q : Pitch) : Nat := q.pcreq.toNat % 4096
/-- OP of `pcreq` while GO is set, else 0. -/
def Pitch.reqOp (q : Pitch) : Nat := if q.pcreq.getLsbD 15 then q.pcreq.toNat / 4096 % 4 else 0

/-- A request ends: GO and BUSY clear, DONE or FAIL set, WHY and NWG given, and the interrupt (R339, R396). -/
def State.closeRequest (s : State) (p : Nat) (fail : Bool) (why n : Nat) : State :=
  (s.updPitch p fun q =>
    { q with
      pcreq := q.pcreq &&& ~~~(1#32 <<< 15)
      pcstat := (q.pcstat &&& 6) ||| BitVec.ofNat 32 ((if fail then 4 else 2) + why % 256 * 256 + n % 65536 * 65536) }).report
    (.irq p 1)

/-- A context is bound to a pitch (R346, WHY 4). -/
def State.boundTo (s : State) (c p : Nat) : Bool := (s.ctxs.get? c).isSome && !(s.ctx c).retired && (s.ctx c).pitch == p

/-- BASE of the save area may not be used (R339). -/
def Pitch.badBase (q : Pitch) : Bool := q.pcsave.toNat % 4096 != 0 || 2 ^ 55 ≤ q.pcsave.toNat

/-! ## Stopping (R336, R337, R340, R341) -/

/-- A lane takes part in a `PREEMPT` notice, or has yet to (R340). -/
def Warp.noticed (w : Warp) : Bool :=
  (w.asyncs.any fun a => a.cause == causePreempt) ||
    w.lanes.any fun t => t.frames.any fun f => f.async.isSome && f.tcause.toNat % 256 == causePreempt

/-- A warp defers its pre-emption: an emulation group or a rewrite runs (R341, R457, R462); or no group's budget is over (R337)
while a handler runs with PRE masked (R336) or its notice has not ended (R340). -/
def Warp.defers (w : Warp) (now : Nat) : Bool :=
  let groups := (w.lanes.filter Thread.live).flatMap (·.frames)
  (groups.any fun f => f.emu.isSome) || (w.lanes.any fun t => t.live && t.body != 0) ||
    (!(groups.any fun f => f.expired now) && (w.noticed || (w.tmask.getLsbD 0 && !groups.isEmpty)))

/-- A warp has stopped at a bundle boundary: its context is stopped and it defers nothing (R340). -/
def State.halted (s : State) (wid : Nat) : Bool := (s.ctx (s.ctxOf wid)).stopped && !(s.warp wid).defers s.time

/-- The notice put before every warp that has no group in handler mode (R340). -/
def State.notify (s : State) (c : Nat) : State :=
  (s.liveWarps c).foldl (fun s wid => s.updWarp wid fun w =>
    if w.lanes.all fun t => !t.live || !t.inHandler then { w with asyncs := w.asyncs ++ [⟨causePreempt, 0, 0⟩] } else w) s

/-- `PREEMPT` (R340, steps 1 and 2; R346): arbitration stops, warps take their notice, and the saving is due. -/
def execPreempt (p : Nat) (s : State) : Out :=
  let q := s.pitch p
  let c := q.reqCtx
  if q.reqOp != 1 then .next s
  else if !s.boundTo c p then .next (s.closeRequest p true 4 0)
  else
    let s1 := s.updCtx c fun k => { k with stopped := true }
    if q.badBase then .next (s1.closeRequest p true 1 0)
    else
      let s2 := if q.pcreq.getLsbD 14 && (s1.vectorEntry 1600 c causePreempt).isSome then s1.notify c else s1
      .next { s2 with agenda := s2.agenda ++ [.event (.preemptionDone p)] }

/-! ## The save area (R343) -/

/-- ⌈x⌉, to 4 KiB. -/
def up4k (x : Nat) : Nat := (x + 4095) / 4096 * 4096

/-- Bytes of a workgroup's record (R343). -/
def recordBytes (g : Workgroup) (holds : Bool) : Nat :=
  4096 + up4k g.spad + g.warps * (8192 + up4k (128 * g.nreg)) + if holds then saveBytes else 0

/-- Offsets of records of given sizes, from a first one up. -/
def offsetsFrom : Nat → List Nat → List Nat
  | _, [] => []
  | a, n :: ns => a :: offsetsFrom (a + n) ns

/-- `n` free words, and the state after them. -/
def State.freeWords (s : State) (n : Nat) : List CWord × State :=
  ((List.range n).map fun k => CWord.gen (Config.freeWord (s.free + k)), { s with free := s.free + n })

/-- Words up to a length. -/
def padTo (n : Nat) (ws : List CWord) : List CWord := ws ++ List.replicate (n - ws.length) .zero

/-- The full bits as 128 words, a bit for each line (R343). -/
def fullWords (x : BitVec 4096) : List CWord := (List.range 128).map fun k => .gen (x.extractLsb' (32 * k) 32)

/-- The registers of a warp: register i of lane L at byte 128 i + 4 L (R343). -/
def Warp.regImage (w : Warp) (n : Nat) : List CWord :=
  (List.range n).flatMap fun i => (List.range 32).map fun l => (w.lane l).reg i

/-- The words of a workgroup's record (R343): headers in the device's own layout are free values. -/
def State.recordWords (s : State) (k : Nat) : List CWord × State :=
  let g := s.wg k
  let holds := (s.core (coreOf k)).engine.holder == some k
  let (h1, s1) := s.freeWords 512
  let (h2, s2) := s1.freeWords 384
  let (ws, s3) := (List.range g.warps).foldl (fun acc w =>
    let (h, t) := acc.2.freeWords 2048
    (acc.1 ++ h ++ padTo (up4k (128 * g.nreg) / 4) ((s.warp (k * 32 + w)).regImage g.nreg), t)) (([] : List CWord), s2)
  let (h3, s4) := if holds then s3.freeWords 1023 else ([], s3)
  (h1 ++ fullWords g.full ++ h2 ++ padTo (up4k g.spad / 4) (g.pad.words 0 (g.spad / 4)) ++ ws ++
    (if holds then (.gen Config.imageRevision :: h3) ++ (s.core (coreOf k)).engine.saveWords else []), s4)

/-- The physical address of every word of an area of a context's memory, if all its pages can be reached (R346). -/
def State.areaPas (s : State) (c base bytes : Nat) (write : Bool) : Option (List Nat) :=
  let p := (s.ctx c).pitch
  (List.range (bytes / 4)).mapM fun k =>
    match s.translate 1600 c (base + 4 * k) { write := write } with
    | .error _ => none
    | .ok pa => if (s.physRefused p true pa write).isSome then none else some pa

/-- The whole save area of the workgroups of a context (R343). -/
def State.saveImage (s : State) (c : Nat) (ks : List Nat) : List CWord × State :=
  let sizes := ks.map fun k => recordBytes (s.wg k) ((s.core (coreOf k)).engine.holder == some k)
  let head := up4k (64 + 8 * ks.length)
  let words := [CWord.gen Config.imageRevision, .gen (BitVec.ofNat 32 ks.length), .gen (BitVec.ofNat 32 c)]
  let h := padTo (head / 4) (padTo 16 words ++ (offsetsFrom head sizes).flatMap fun a => ofPair (BitVec.ofNat 64 a))
  ks.foldl (fun acc k =>
    let (ws, t) := acc.2.recordWords k
    (acc.1 ++ ws, t)) (h, s)

/-- What a context's workgroups are restored from (R343, R409). -/
def State.capture (s : State) (p base : Nat) (ks : List Nat) : Saved :=
  let mine (k : Nat) : Bool := ks.contains k
  { base := BitVec.ofNat 64 base, pitch := p,
    wgs := s.wgs.filter fun e => mine e.1,
    warps := s.warps.filter fun e => mine (wgKey e.1),
    engines := ks.filterMap fun k =>
      let g := (s.core (coreOf k)).engine
      if g.holder == some k || g.queue.any (fun e => wgKey e.wid == k) then some (k, g) else none,
    reqs := ks.flatMap fun k => (((s.core (coreOf k)).queues.zipIdx).flatMap fun q => (q.1.filter fun r => r.wg == k).map
      fun r => (q.2, r)),
    locks := ks.flatMap fun k => ((s.core (coreOf k)).locks.filter fun l => l.2.slot == k % 16).map fun l =>
      (k * 64 + l.1, l.2),
    views := ks.map fun k => (k, (List.range 4).map fun ch => s.cwpView k ch),
    counts := ks.map fun k => (k, (s.core (coreOf k)).nreq) }

/-- The dirty words of a context written back on every core, until one meets an unwritable page (R340, R346). -/
def State.flushAll (s : State) (c : Nat) : State × Bool :=
  s.cores.foldl (fun acc e =>
    if acc.2 then acc
    else
      let (s1, t) := acc.1.flush e.1 (acc.1.dirtyOf e.1 c)
      (s1, t.isSome)) (s, false)

/-- An engine of a core still has a unit of a context under way that can go on: a chunk of a copy, or a pass whose partners have been
performed (R341, R303, R409). -/
def State.unitRuns (s : State) (c core : Nat) : Bool :=
  ((List.range 4).any fun ch => (s.headOf core ch).any (fun r => r.ctx == c && r.part != 0) && (s.headLine core ch).isSome) ||
    (s.core core).engine.queue.any fun e => s.ctxOf e.wid == c && e.paid && !e.stuck

/-- A pre-emption's steps 3 to 6 (R340), once nothing of the context defers it, its engines have stopped at their units and its
packets have reached their ends: SFU results are written, dirty lines written back, the area written, and the resources freed. A
chunk that waits on an empty line is saved as far as it has come (DEDUCED, log 54). -/
def State.trySave (s : State) (p : Nat) : State :=
  let q := s.pitch p
  let c := q.reqCtx
  let ks := s.wgsOf c
  if q.reqOp != 1 || !s.boundTo c p || !(s.ctx c).stopped then s
  else if (s.liveWarps c).any (fun w => (s.warp w).defers s.time) || s.fabric.packets.any (fun k => k.ctx == c && !k.done) ||
      s.cores.any fun e => s.unitRuns c e.1 then s
  else
    let s1 := s.cores.foldl (fun s e => s.drainSfu e.1 fun x => s.ctxOf x.wid == c) s
    let (s2, stuck) := s1.flushAll c
    if stuck then s2.closeRequest p true 2 0
    else
      let (ws, s3) := s2.saveImage c ks
      let base := q.pcsave.toNat
      if q.pcsize.toNat * 4096 < 4 * ws.length then s2.closeRequest p true 1 0
      else
        match s2.areaPas c base (4 * ws.length) true with
        | none => s2.closeRequest p true 1 0
        | some pas =>
          let s4 := (pas.zip ws).foldl (fun s x => s.physWrite ⟨1600, c, none, true, 0⟩ x.1 x.2) s3
          let s5 := ks.foldl (fun s k => s.freeWg k) { s4 with saved := s4.saved.put c (s2.capture p base ks) }
          s5.closeRequest p false 0 ks.length

/-- `PREEMPTION_DONE` (R340, R342). -/
def execPreemptionDone (p : Nat) (s : State) : Out := .next (s.trySave p)

/-- `HANDLER_BUDGET_EXPIRY` (R337): a pre-emption that the warp defers proceeds; without one, nothing happens. -/
def execHandlerBudgetExpiry (wid gid : Nat) (s : State) : Out :=
  let late := (s.warp wid).lanes.any fun t => t.live && t.frames.any fun f => f.gid == gid && f.expired s.time
  .next (if late then s.trySave (s.ctx (s.ctxOf wid)).pitch else s)

/-! ## Kill (R347) -/

/-- `KILL` (R347, R346): OP 2 of the request. -/
def execKill (p : Nat) (s : State) : Out :=
  let q := s.pitch p
  if q.reqOp != 2 then .next s
  else if !s.boundTo q.reqCtx p then .next (s.closeRequest p true 4 0)
  else .next (s.kill q.reqCtx 1)

/-- `KILL_DONE` (R347, R348, R443): every retirement point has acknowledged. What still carries the number is dropped
wherever it arrives (its tag becomes one that is never bound), the binding ends, and DONE is set. -/
def execKillDone (c : Nat) (s : State) : Out :=
  if !(s.ctx c).retired then .next s
  else
    let p := (s.ctx c).pitch
    let s1 := { s with
      ctxs := s.ctxs.erase c
      fabric := { s.fabric with
        packets := s.fabric.packets.map fun (k : Packet) => if k.ctx == c then { k with ctx := 0xFFF } else k } }
    .next ((s1.updPitch p fun q =>
      { q with pcreq := if q.reqCtx == c then q.pcreq &&& ~~~(1#32 <<< 15) else q.pcreq
               pcstat := (if q.reqCtx == c then q.pcstat &&& ~~~(1#32) else q.pcstat) ||| 2 }).report
      (.irq p 1))

/-! ## Resumption (R345, R409) -/

/-- The saved area read: its words, or the reason for failing; a bad word kills the context (R345, R346). -/
inductive Area where
  | fail (why : Nat)
  | bad
  | good (ws : List CWord)
  deriving DecidableEq, Repr

/-- A saved workgroup holds an engine, whose image the area has (R343). -/
def Saved.holds (v : Saved) (k : Nat) : Bool := (v.engines.get? k).any fun g => g.holder.isSome

/-- The area of a saved context, checked (R345, R346). -/
def State.readArea (s : State) (p c : Nat) : Area :=
  let q := s.pitch p
  match s.saved.get? c with
  | none => .fail 3
  | some v =>
    let head := up4k (64 + 8 * v.wgs.length)
    let sizes := v.wgs.map fun e => recordBytes e.2 (v.holds e.1)
    let bytes := head + sizes.sum
    if q.badBase || q.pcsize.toNat * 4096 < bytes then .fail 1
    else
      match s.areaPas c q.pcsave.toNat bytes false with
      | none => .fail 1
      | some pas =>
        let ws := pas.map fun pa => s.physWord (s.ctx c).pitch true pa
        let d (k : Nat) : Word := (ws.getD k .zero).data
        if ws.any (fun w => !w.wellFormed) then .bad
        else if d 0 != Config.imageRevision || d 1 != BitVec.ofNat 32 v.wgs.length || d 2 != BitVec.ofNat 32 c then .fail 3
        else .good ws

/-- `RESUME` (R345, R346): the area is checked, and the placement of its workgroups is due. -/
def execResume (p : Nat) (s : State) : Out :=
  let q := s.pitch p
  let c := q.reqCtx
  if q.reqOp != 3 then .next s
  else if !s.boundTo c p then .next (s.closeRequest p true 4 0)
  else
    match s.readArea p c with
    | .fail why => .next (s.closeRequest p true why 0)
    | .bad => .next ((s.reportError p (s.errorRecord 8 c 0 0 1)).kill c 2)
    | .good _ => .next { s with agenda := s.agenda ++ [.event (.resumptionDone p)] }

/-- New places of saved workgroups: old key, new key, and the number that the new core's first restored entry of it takes. -/
abbrev Moves := List (Nat × Nat × Nat)

/-- The key a workgroup has now. -/
def Moves.key (m : Moves) (k : Nat) : Nat := ((m.lookup k).map (·.1)).getD k
/-- What is added to the numbers of a workgroup's requests and entries. -/
def Moves.delta (m : Moves) (k : Nat) : Nat := ((m.lookup k).map (·.2)).getD 0
/-- The number a warp has now. -/
def Moves.wid (m : Moves) (w : Nat) : Nat := m.key (w / 32) * 32 + w % 32

/-- The entry numbers that a workgroup's range locks take on a core: those of `RLCK` keep theirs, which software knows;
others take free ones. None while they are in use (R409). -/
def Core.takeLocks (c : Core) : List (Nat × Lock) → Option Core
  | [] => some c
  | (n, l) :: ls =>
    let want := if l.owner = 3 then (if (c.locks.get? n).isNone then some n else none)
      else (List.range 32).find? fun i => (c.locks.get? i).isNone
    match want with
    | none => none
    | some i => Core.takeLocks { c with locks := c.locks.put i l } ls

/-- One saved workgroup given a place on a core that has room and no other member of its gang: its slot, its rows, its locks, its
numbers and its engine are taken (R345, R50, R52, R303), and its lines are pinned (R360). What the core's L1 holds clean is older
than the workgroup's stop (DEDUCED, log 93). -/
def State.seat (s : State) (p : Nat) (v : Saved) (die : Nat) (apart : List Nat) (k : Nat) (g : Workgroup) :
    Option (State × Nat × Nat) :=
  let d := s.grid g.grid
  let held := (v.locks.filter fun l => l.1 / 64 == k).map fun l => (l.1 % 64, l.2)
  let cores := (s.pitchCores p).filter fun c => dieOf c == die && !(s.pitch p).closed.getLsbD (unitOf c) && !apart.contains c
  cores.findSome? fun c =>
    let slot := s.freeSlot c
    let room := if g.ended then slot.isSome else s.eligible c p d
    let engine := (v.engines.get? k).isNone || ((s.core c).engine.holder.isNone && (s.core c).engine.queue.isEmpty)
    match slot, room && engine with
    | some n, true =>
      let new := c * 16 + n
      let delta := (s.core c).nreq
      match (s.core c).takeLocks (held.map fun l =>
          (l.1, { l.2 with slot := n, req := if l.2.owner = 3 then new else l.2.req + delta })) with
      | none => none
      | some x =>
        let x1 : Core := { x with
          nreq := delta + KMap.getD v.counts k 0
          engine := if (v.engines.get? k).isSome then { x.engine with holder := some new } else x.engine }
        match (s.setCore c x1).pinPad c n (g.spad / 128) with
        | (s1, true) => some ((s1.setWg new g).acquireAt c 5, new, delta)
        | _ => none
    | _, _ => none

/-- The members of one gang given places on distinct cores of one die (R345, R42, R52). -/
def State.seatGang (s : State) (p : Nat) (v : Saved) (die : Nat) (apart : List Nat) :
    List (Nat × Workgroup) → Moves → Option (State × Moves)
  | [], m => some (s, m)
  | (k, g) :: gs, m =>
    match s.seat p v die apart k g with
    | none => none
    | some (s1, new, delta) => State.seatGang s1 p v die (coreOf new :: apart) gs (m ++ [(k, new, delta)])

/-- Every saved workgroup given a place, gang by gang, or none of them (DESIGN CHOICE, log 24). -/
def State.seatAll (s : State) (p : Nat) (v : Saved) : Nat → List (Nat × Workgroup) → Moves → Option (State × Moves)
  | _, [], m => some (s, m)
  | 0, _, _ => none
  | n + 1, (k, g) :: gs, m =>
    let keys := g.gang.map (·.key)
    let gang := ((k, g) :: gs).filter fun e => e.1 == k || keys.contains e.1
    let rest := gs.filter fun e => !(e.1 == k || keys.contains e.1)
    match (List.range 8).findSome? fun die => s.seatGang p v die [] gang m with
    | none => none
    | some (s1, m1) => State.seatAll s1 p v n rest m1

/-- A gang map entry at its member's new place, with the slot's generation (R364). -/
def State.moveGang (s : State) (m : Moves) (e : GangEntry) : GangEntry :=
  let k := m.key e.key
  ⟨k, (s.core (coreOf k)).gens.getD (k % 16) 0⟩

/-- A trap group's values after a restoration: RST set, a fresh budget (R328, R337). -/
def Frame.restored (f : Frame) (now delta : Nat) : Frame :=
  { f with tcause := if f.emu.isSome then f.tcause else f.tcause ||| 0x400, since := now, entry := f.entry.map (· + delta) }

/-- A saved status on its new core: engine entries are numbered anew, and a `WAIT` whose deadline has passed is late (R67). -/
def Status.moved (x : Status) (now delta : Nat) : Status :=
  match x with
  | .mwait upto scope => .mwait (upto + delta) scope
  | .waiting w b => .waiting { w with late := w.late || w.deadline.any fun d => d ≤ now } b
  | y => y

/-- A thread restored, with its registers from the area. -/
def Thread.restored (t : Thread) (now delta n : Nat) (reg : Nat → CWord) : Thread :=
  { t with
    status := (match t.status with
      | .ready => if t.inHandler then .ready else .joining
      | .yielded _ _ => .joining
      | x => x.moved now delta)
    regs := (List.range n).foldl (fun m i => KMap.set m i (reg i) .zero) []
    frames := t.frames.map fun f => { f.restored now delta with async := f.async.map fun r => { r with status := r.status.moved now delta } }
    engTraps := t.engTraps.map fun e => { e with entry := e.entry.map (· + delta) } }

/-- A place of an outstanding load after the move. -/
def Place.moved (x : Place) (m : Moves) : Place :=
  match x with
  | .pad k off => .pad (m.key k) off
  | y => y

/-- A warp restored (R345). A notice that it had not taken yet has lost its pre-emption (R337, R340). -/
def Warp.restored (w : Warp) (m : Moves) (now delta n : Nat) (image : List CWord) : Warp :=
  { w with
    lanes := w.lanes.mapIdx fun l t => t.restored now delta n fun i => image.getD (32 * i + l) .zero
    asyncs := w.asyncs.filter fun a => a.cause != causePreempt
    loads := w.loads.map fun e => (e.1, { e.2 with lanes := e.2.lanes.map fun x => (x.1, x.2.moved m) }) }

/-- A ladle request on its new core (R409). -/
def State.moveRequest (s : State) (m : Moves) (delta : Nat) (r : Request) : Request :=
  { r with id := r.id + delta, wg := m.key r.wg, wid := m.wid r.wid, gang := r.gang.map (s.moveGang m) }

/-- The state of one workgroup put back at its new place (R345, R409): its image, its warps, its requests behind those of
the new core, its engine, and its view of the channels' counts. -/
def State.putBack (s : State) (v : Saved) (m : Moves) (old new : Nat) (g : Workgroup) (ws : List CWord) : State :=
  let core := coreOf new
  let delta := m.delta old
  let pad := (ws.drop 1024).take (g.spad / 4)
  let full := ((ws.drop 512).take 128).zipIdx.foldl (fun (x : BitVec 4096) (w : CWord × Nat) =>
    x ||| ((w.1.data.zeroExtend 4096 : BitVec 4096) <<< (32 * w.2))) (0 : BitVec 4096)
  let per := 2048 + up4k (128 * g.nreg) / 4
  let first := 1024 + up4k g.spad / 4
  let view := (List.range 4).map fun ch => (s.core core).cwp.getD ch 0 - (KMap.getD v.views old []).getD ch 0
  let s1 := s.setWg new { g with
    pad := Mem.empty.setWords 0 pad, full := full, gang := g.gang.map (s.moveGang m), view := view }
  let s2 := (v.warps.filter fun e => wgKey e.1 == old).foldl (fun s e =>
    let image := (ws.drop (first + e.1 % 32 * per + 2048)).take (32 * g.nreg)
    s.setWarp (m.wid e.1) (e.2.restored m s.time delta g.nreg image)) s1
  s2.updCore core fun c =>
    { c with
      queues := (c.queues.zipIdx).map fun q =>
        q.1 ++ (v.reqs.filter fun r => r.1 == q.2 && r.2.wg == old).map fun r => s.moveRequest m delta r.2
      engine := match v.engines.get? old with
        | none => c.engine
        | some x =>
          let y := if v.holds old then (x.restored (ws.drop (first + g.warps * per))).getD x else x
          { y with holder := x.holder.map fun _ => new, queue := x.queue.map fun e => { e with id := e.id + delta, wid := m.wid e.wid } } }

/-- `RESUMPTION_DONE` (R345): the saved workgroups are placed when there is room for them, and run. -/
def State.restoreAll (s : State) (p : Nat) : State :=
  let q := s.pitch p
  let c := q.reqCtx
  if q.reqOp != 3 || !s.boundTo c p then s
  else
    match s.readArea p c, s.saved.get? c with
    | .bad, _ => (s.reportError p (s.errorRecord 8 c 0 0 1)).kill c 2
    | .fail why, _ => s.closeRequest p true why 0
    | .good _, none => s
    | .good ws, some v =>
      match s.seatAll p v v.wgs.length v.wgs [] with
      | none => s
      | some (s1, m) =>
        let offs := offsetsFrom (up4k (64 + 8 * v.wgs.length)) (v.wgs.map fun e => recordBytes e.2 (v.holds e.1))
        let s2 := (v.wgs.zip offs).foldl (fun s e =>
          s.putBack v m e.1.1 (m.key e.1.1) e.1.2 (ws.drop (e.2 / 4))) s1
        ({ (s2.updCtx c fun k => { k with stopped := false }) with saved := s2.saved.erase c }).closeRequest p false 0 v.wgs.length

/-- `RESUMPTION_DONE` (R345). -/
def execResumptionDone (p : Nat) (s : State) : Out := .next (s.restoreAll p)

end Sys2Proof.Machine
end

