-- ==== Sys2Proof/Machine/Pitch.lean ====
section
/-!
DEFINITION. Pitches: their registers (R339, R372, R381, R418, R433, R442, R443, R452, R454), contexts (R441, R443),
invalidation (R418), partition commands (R444–R446) and the dump of a frozen pitch (R453, R454).
-/

namespace Sys2Proof.Machine

/-! ## Contexts (R443) -/

/-- A context command ends: GO and BUSY clear, DONE and RES set (R443). -/
def State.closeCx (s : State) (p res : Nat) : State :=
  s.updPitch p fun q => { q with cxcmd := q.cxcmd &&& ~~~(1#32 <<< 15), cxstat := BitVec.ofNat 32 (2 + res * 256) }

/-- The context that a command names. -/
def Pitch.cxCtx (q : Pitch) : Nat := q.cxcmd.toNat % 4096
/-- The operation that runs, or 0. -/
def Pitch.cxOp (q : Pitch) : Nat := if q.cxcmd.getLsbD 15 then q.cxcmd.toNat / 4096 % 8 else 0

/-- The register values break R411 or R327 (RES 1). -/
def Pitch.cxBad (q : Pitch) : Bool :=
  ptrootWrite q.cxroot != q.cxroot || q.cxvec.toNat % 256 != 0 || 2 ^ 55 ≤ q.cxvec.toNat

/-- The RES code of the first check that a command fails, or 0 (R443): values, range, binding, retirement, work. -/
def State.cxCheck (s : State) (p : Nat) (values bind idle : Bool) : Nat :=
  let q := s.pitch p
  let c := q.cxCtx
  let k := s.ctxs.get? c
  let live := k.any fun k => !k.retired
  if values && q.cxBad then 1
  else if c < q.ctxLo || q.ctxLo + q.ctxN ≤ c || c == 0xFFF then 2
  else if k.any fun k => k.retired then 4
  else if (if bind then live else !live || (s.ctx c).pitch != p) then 3
  else if idle && ((s.grids.any fun e => e.2.ctx == c) || (s.saved.get? c).isSome) then 5
  else 0

/-- A command that runs and passes its checks has its effect. -/
def State.cxRun (s : State) (p op : Nat) (values bind idle : Bool) (body : State → Nat → Pitch → State) : State :=
  let q := s.pitch p
  if q.cxOp != op then s
  else
    match s.cxCheck p values bind idle with
    | 0 => (body s q.cxCtx q).closeCx p 0
    | r => s.closeCx p r

/-- `CONTEXT_BIND` (R443, R40, R34). -/
def execContextBind (p : Nat) (s : State) : Out :=
  .next (s.cxRun p 1 true true false fun s c q =>
    { s with ctxs := s.ctxs.put c { Context.absent with
        pitch := p, ptroot := q.cxroot, tvec := q.cxvec, hqpriv := q.cxflags.getLsbD 0 } })

/-- `CONTEXT_RELEASE` (R443). -/
def execContextRelease (p : Nat) (s : State) : Out :=
  .next (s.cxRun p 2 false false true fun s c _ => { s.dropTlbs c none with ctxs := s.ctxs.erase c })

/-- `CONTEXT_WRITE` (R443, R411). -/
def execContextWrite (p : Nat) (s : State) : Out :=
  .next (s.cxRun p 3 true false true fun s c q =>
    s.updCtx c fun k => { k with ptroot := q.cxroot, tvec := q.cxvec, hqpriv := q.cxflags.getLsbD 0 })

/-- `CONTEXT_READ` (R443). -/
def execContextRead (p : Nat) (s : State) : Out :=
  .next (s.cxRun p 4 false false false fun s c _ =>
    let k := s.ctx c
    s.updPitch p fun q => { q with cxroot := k.ptroot, cxvec := k.tvec, cxflags := if k.hqpriv then 1 else 0 })

/-! ## Translations and apertures -/

/-- `tlbinv` (R418, R416): a page of a context of the pitch, or all of them. -/
def execTlbinv (p : Nat) (v : BitVec 64) (s : State) : Out :=
  let c := v.toNat % 4096
  let lo := v.toNat / 2 ^ 16 % 2 ^ 39 * 2 ^ 16
  .next (if !s.boundTo c p then s else s.dropTlbs c (if v.getLsbD 12 then none else some (lo, lo + 2 ^ 16)))

/-- An aperture after a write of one of its four registers (R372): while EN is set, only EN can change; setting EN is
ignored with a reserved XF or ESZ. -/
def Aperture.set (a : Aperture) (word : Nat) (v : BitVec 64) : Aperture :=
  let x := v.toNat
  match word with
  | 0 => if a.en then a else { a with buf := x / 2 ^ 12 % 2 ^ 40 * 2 ^ 12 }
  | 1 => if a.en then a else { a with md := x / 2 ^ 5 % 2 ^ 47 * 2 ^ 5 }
  | 2 =>
    let en := v.getLsbD 32
    if a.en then { a with en := en }
    else
      let b : Aperture := { a with len := x % 2 ^ 24, xf := x / 2 ^ 33 % 8, esz := x / 2 ^ 36 % 4 }
      if en && (5 ≤ b.xf || b.esz == 3) then a else { b with en := en }
  | _ => if a.en then a else { a with rows := x % 2 ^ 20, cols := x / 2 ^ 32 % 2 ^ 20 }

/-- What L2 and the metadata caches hold of an aperture is written back and leaves them (R372, R377). -/
def State.closeAperture (s : State) (p n : Nat) : State :=
  let a := (s.pitch p).apert.getD n .off
  let s1 := (s.views.filter fun e => e.1 / 2 ^ 37 == p * 256 + 224 + n).foldl (fun s e => s.viewOut e.1) s
  if a.xf = 0 || a.xf = 4 then s1 else s1.metaOut fun e => a.md ≤ e.pos && e.pos < a.md + 32 * a.len

/-- `APERTURE_WRITE` (R372). Staged writes are whole in this model, so none is left when EN clears. -/
def execApertureWrite (p n word : Nat) (v : BitVec 64) (s : State) : Out :=
  let a := ((s.pitch p).apert.getD n .off).set word v
  let s1 := if a.en then s else s.closeAperture p n
  .next (s1.updPitch p fun q => { q with apert := KMap.set q.apert n a .off })

/-- The bits of a register that clear by writing 1, or that only a running command sets (R9). -/
def onesOf (off : Nat) : BitVec 64 :=
  match off with
  | 0x030 => 1 <<< 63
  | 0x070 => 1 <<< 32
  | 0x090 => 2
  | 0x118 => 6
  | _ => 0

/-- A write of some bytes of an 8-byte register (R9): the other bytes are written as they stand, but for the bits that clear
by writing 1. No rule gives an access width (DESIGN CHOICE, log 106). -/
def State.mergeReg (s : State) (p off : Nat) (v : BitVec 64) (bytes : BitVec 8) : BitVec 64 :=
  let m : BitVec 64 := (List.range 8).foldl (fun m k => if bytes.getLsbD k then m ||| (0xFF <<< (8 * k)) else m) 0
  (v &&& m) ||| (s.regValue p off &&& ~~~(onesOf off) &&& ~~~m)

/-! ## Other registers (R9, R10) -/

/-- `pcreq` written (R339): ignored while a request runs; GO starts one. OP 0 starts nothing, and GO clears. -/
def State.writePcreq (s : State) (p : Nat) (v : Word) : State :=
  let q := s.pitch p
  if q.pcstat.getLsbD 0 then s
  else
    let op := v.toNat / 4096 % 4
    let go := v.getLsbD 15 && op != 0
    let s1 := s.updPitch p fun q =>
      { q with pcreq := v &&& (if go then 0xFFFF else 0x7FFF), pcstat := if go then q.pcstat ||| 1 else q.pcstat }
    if go then
      { s1 with agenda := s1.agenda ++ [.event (if op = 1 then .preempt p else if op = 2 then .kill p else .resume p)] }
    else s1

/-- `cxcmd` written (R443): ignored while a command runs; GO starts one; a reserved code ends with RES 1. -/
def State.writeCxcmd (s : State) (p : Nat) (v : Word) : State :=
  let q := s.pitch p
  if q.cxstat.getLsbD 0 then s
  else
    let s1 := s.updPitch p fun q => { q with cxcmd := v &&& 0xFFFF }
    if !v.getLsbD 15 then s1
    else
      let s2 := s1.updPitch p fun q => { q with cxstat := 1 }
      match v.toNat / 4096 % 8 with
      | 1 => { s2 with agenda := s2.agenda ++ [.event (.contextBind p)] }
      | 2 => { s2 with agenda := s2.agenda ++ [.event (.contextRelease p)] }
      | 3 => { s2 with agenda := s2.agenda ++ [.event (.contextWrite p)] }
      | 4 => { s2 with agenda := s2.agenda ++ [.event (.contextRead p)] }
      | _ => s2.closeCx p 1

/-- A pitch register after a write: the fields that software may write take the value, W1C bits clear, and the rest stay
(R9, R10). -/
def State.writePitchReg (s : State) (p off : Nat) (v : BitVec 64) : State :=
  let w : Word := v.extractLsb' 0 32
  match off with
  | 0x038 => s.updPitch p fun q => { q with twbase := v &&& 0x000FFFFFFFFFF000 }
  | 0x040 => s.updPitch p fun q => { q with tibase := v &&& 0x000FFFFFFFFFF000 }
  | 0x048 => s.updPitch p fun q => { q with twcnt := w &&& 0x1FFF3FFF }
  | 0x060 => if w.getLsbD 12 && !s.boundTo (w.toNat % 4096) p then s else s.updPitch p fun q => { q with tctx := w &&& 0x1FFF }
  | 0x068 => s.updPitch p fun q => { q with erbase := v &&& 0x000FFFFFFFFFE000 }
  | 0x070 => s.updPitch p fun q =>
    { q with erptr := (q.erptr &&& 0xFFFF) ||| (v &&& 0x2FFFF0000) ||| (q.erptr &&& ~~~v &&& 0x100000000) }
  | 0x078 => s.updPitch p fun q => { q with dmpbase := v &&& 0x000FFFFFFFFF0001 }
  | 0x088 => s.writeCxcmd p w
  | 0x090 => s.updPitch p fun q => { q with cxstat := w1c q.cxstat w 2 }
  | 0x098 => s.updPitch p fun q => { q with cxroot := v }
  | 0x0A0 => s.updPitch p fun q => { q with cxvec := v }
  | 0x0A8 => s.updPitch p fun q => { q with cxflags := w &&& 1 }
  | 0x100 => s.updPitch p fun q => { q with pcsave := v }
  | 0x108 => s.updPitch p fun q => { q with pcsize := w }
  | 0x110 => s.writePcreq p w
  | 0x118 => s.updPitch p fun q => { q with pcstat := w1c q.pcstat w 6 }
  | _ => s

/-- The physical address of a host address (R367). -/
def hostPa (a : Nat) : Nat := 2 ^ 51 + a % 2 ^ 48

/-- Words of the mailbox's command buffer in host memory (R469). -/
def State.mailWords (s : State) (n : Nat) : List CWord := s.mem.words (hostPa s.lantern.mbaddr.toNat) n

/-- Words written to the command buffer from a byte offset up. -/
def State.mailPut (s : State) (off : Nat) (ws : List Word) : State :=
  { s with mem := s.mem.setWords (hostPa s.lantern.mbaddr.toNat + off) (ws.map CWord.gen) }

/-- A mailbox command ends (R468, R469): RESULT, DONE, and the completion vector. -/
def State.closeMail (s : State) (result : Nat) : State :=
  ({ s with lantern := { s.lantern with
      mbcmd := s.lantern.mbcmd &&& ~~~(1#64 <<< 63), mbstat := BitVec.ofNat 32 (2 + result * 256) } }).report .mailbox

/-- LEN of the running mailbox command. -/
def State.mailLen (s : State) : Nat := s.lantern.mbcmd.toNat / 2 ^ 16 % 2 ^ 32

/-- The mailbox operation that runs, or 0. -/
def State.mailOp (s : State) : Nat := if s.lantern.mbcmd.getLsbD 63 then s.lantern.mbcmd.toNat % 256 else 0

/-- The event that a mailbox command is; a partition command by its OP (R468, R444). -/
def State.mailEvent (s : State) : Option Instr :=
  match s.mailOp with
  | 1 =>
    if s.mailLen != 32 then none
    else
      match ((s.mailWords 1).headD .zero).data.toNat % 16 with
      | 1 => some .pitchCreate
      | 2 => some .pitchAddUnits
      | 3 => some .pitchRemoveUnits
      | 4 => some .pitchReset
      | 5 => some .pitchDestroy
      | _ => none
  | 2 => some .rennetImageLoad
  | 3 => some .firmwareUpdate
  | 4 => some .sensorSnapshot
  | 5 => some .logRead
  | _ => none

/-- STATUS written into the running partition command (R444). -/
def State.putStatus (s : State) (st : Nat) : State :=
  let old := ((s.mailWords 5).getD 4 .zero).data
  s.mailPut 16 [(old &&& 0xFFFFFF00) ||| BitVec.ofNat 32 st]

/-- `mbcmd` written (R468, R469): GO starts the command; a reserved OP, or a wrong LEN of a partition command, ends with
RESULT 1; a reserved OP of a partition command with STATUS 1. A buffer word that comes poisoned from the host is RESULT 6. -/
def State.writeMbcmd (s : State) (v : BitVec 64) : State :=
  if s.lantern.mbstat.getLsbD 0 then s
  else
    let s1 := { s with lantern := { s.lantern with mbcmd := v &&& 0x8000FFFFFFFF00FF } }
    if !v.getLsbD 63 then s1
    else
      let s2 := { s1 with lantern := { s1.lantern with mbstat := 1 } }
      if s2.mailOp == 1 && s2.mailLen == 32 && (s2.mailWords 8).any (fun w => !w.wellFormed) then s2.closeMail 6
      else
        match s2.mailEvent with
        | some i => { s2 with agenda := s2.agenda ++ [.event i] }
        | none => if s2.mailOp == 1 && s2.mailLen == 32 then (s2.putStatus 1).closeMail 5 else s2.closeMail 1

/-- A mailbox register as the host reads it; an offset without one reads 0 (R468). -/
def Lantern.mailValue (l : Lantern) (off : Nat) : BitVec 64 :=
  match off with
  | 0x000 => l.mbaddr
  | 0x008 => l.mbcmd
  | 0x010 => l.mbstat.zeroExtend 64
  | 0x018 => l.pwrlim.zeroExtend 64
  | _ => 0

/-- A mailbox register after a write (R468). A LIMIT below 1,000 is held at 1,000 (DESIGN CHOICE, log 25). -/
def State.writeMailReg (s : State) (off : Nat) (v : BitVec 64) : State :=
  match off with
  | 0x000 => if s.lantern.mbstat.getLsbD 0 then s
    else { s with lantern := { s.lantern with mbaddr := v &&& 0xFFFFFFFFFFFFFF80 } }
  | 0x008 => s.writeMbcmd v
  | 0x010 => { s with lantern := { s.lantern with mbstat := w1c s.lantern.mbstat (v.extractLsb' 0 32) 2 } }
  | 0x018 =>
    let w := BitVec.ofNat 32 (min s.code.packageLimit (max 1000 (v.toNat % 65536)))
    { s with lantern := { s.lantern with pwrlim := w } }
  | _ => s

/-- `REGISTER_WRITE` (R9, R381, R468). A held or frozen pitch takes no write (R453). -/
def execRegisterWrite (b : RegBlock) (off : Nat) (v : BitVec 64) (s : State) : Out :=
  match b with
  | .pitch p => .next (if (s.pitch p).frozen then s else s.writePitchReg p off v)
  | .mailbox => .next (s.writeMailReg off v)

/-! ## Partition commands (R444–R446) -/

/-- A partition command as read: OP, pitch, SCRUB, units, TMO, and the context range. -/
structure PartCmd where
  op    : Nat
  pitch : Nat
  scrub : Bool
  units : BitVec 16
  tmo   : Nat
  lo    : Nat
  n     : Nat
  bad   : Bool
  deriving DecidableEq, Repr

/-- The running partition command (R444). -/
def State.partCmd (s : State) : PartCmd :=
  let ws := (s.mailWords 8).map (·.data)
  let f (lo n : Nat) : Nat := fieldAt ws lo n
  { op := f 0 4, pitch := f 4 4, scrub := f 8 1 == 1, units := BitVec.ofNat 16 (f 32 16), tmo := f 64 32, lo := f 96 12,
    n := f 108 13, bad := f 9 23 != 0 || f 48 16 != 0 || f 121 7 != 0 || f 136 24 != 0 ||
      (ws.drop 5).any fun w => w != 0 }

/-- Numbers of the units in a mask. -/
def unitList (m : BitVec 16) : List Nat := (List.range 16).filter fun u => m.getLsbD u

/-- A partition command ends with a STATUS (R444, R469). -/
def State.closePart (s : State) (st : Nat) : State :=
  let s1 := (s.putStatus st).closeMail (if st = 0 then 0 else 5)
  { s1 with lantern := { s1.lantern with partition := none } }

/-- UNITS owned by a pitch, as the register reads them (R442). -/
def State.refreshUnits (s : State) : State :=
  { s with pitches := s.pitches.mapv fun p q =>
      { q with units := (unitList 0xFFFF).foldl (fun m u => if s.units.getD u 16 == p then m ||| (1 <<< u) else m) 0 } }

/-- Units given to a pitch (R445). -/
def State.giveUnits (s : State) (p : Nat) (m : BitVec 16) : State :=
  ({ s with units := (unitList m).foldl (fun (t : KMap Nat) u => t.put u p) s.units }).refreshUnits

/-- A unit of a mask is owned or absent (R439, R444). -/
def State.anyTaken (s : State) (m : BitVec 16) : Bool :=
  (unitList m).any fun u => (s.units.get? u).isSome || decide (s.code.units ≤ u)

/-- A range of context numbers reaches `0xFFF` or overlaps another pitch's (STATUS 6). -/
def State.rangeBad (s : State) (lo n : Nat) : Bool :=
  0xFFF < lo + n || s.pitches.any fun e => decide (lo < e.2.ctxLo + e.2.ctxN) && decide (e.2.ctxLo < lo + n)

/-- `PITCH_CREATE` (R445, OP 1). A pitch number that the package does not have is STATUS 1 (DESIGN CHOICE, log 101). -/
def execPitchCreate (s : State) : Out :=
  let c := s.partCmd
  if s.mailOp != 1 || c.op != 1 then .next s
  else if c.bad || c.n == 0 || 4095 < c.n || s.code.units ≤ c.pitch then .next (s.closePart 1)
  else if (s.pitches.get? c.pitch).isSome then .next (s.closePart 2)
  else if c.units == 0 || s.anyTaken c.units then .next (s.closePart 3)
  else if s.rangeBad c.lo c.n then .next (s.closePart 6)
  else
    .next ((({ s with pitches := s.pitches.put c.pitch { Pitch.reset with ctxLo := c.lo, ctxN := c.n } }).giveUnits c.pitch
      c.units).closePart 0)

/-- `PITCH_ADD_UNITS` (R445, OP 2). -/
def execPitchAddUnits (s : State) : Out :=
  let c := s.partCmd
  if s.mailOp != 1 || c.op != 2 then .next s
  else if c.bad then .next (s.closePart 1)
  else if (s.pitches.get? c.pitch).isNone then .next (s.closePart 2)
  else if s.anyTaken c.units then .next (s.closePart 3)
  else if (s.pitch c.pitch).frozen then .next (s.closePart 5)
  else .next ((s.giveUnits c.pitch c.units).closePart 0)

/-- The cores of the units of a mask. -/
def coresIn (m : BitVec 16) : List Nat := (unitList m).flatMap fun u => (List.range 100).map fun k => 100 * u + k

/-- Every slot generation of the cores of units advances, and its sweep starts (R445, step 5 of OP 3, step 3 of OP 4; R365). -/
def State.advanceCores (s : State) (m : BitVec 16) : State :=
  { s with cores := s.cores.mapv fun k c =>
      if m.getLsbD (unitOf k) then (List.range 16).foldl (fun c slot => c.advance slot s.fabric.nextId) c else c }

/-- Every sweep of the cores of units is complete (R445, R365). -/
def State.swept (s : State) (m : BitVec 16) : Bool :=
  s.cores.all fun e => !m.getLsbD (unitOf e.1) || e.2.sweeps.all fun x => !s.sweeping e.1 x

/-- The cores of units lose what they cache (R445, step 6 of OP 3, step 4 of OP 4); their sweeps are over. -/
def State.clearCores (s : State) (m : BitVec 16) : State :=
  { s with cores := s.cores.mapv fun k c =>
      if m.getLsbD (unitOf k) then
        { c with dirty := [], clean := [], lines := [], held := [], dtlb := [], itlb := [], icache := [], sweeps := [] }
      else c }

/-- The L2 slices of units invalidated without write-back (R445, step 6 of OP 3, step 4 of OP 4). -/
def State.clearSlices (s : State) (m : BitVec 16) : State :=
  let s1 := s.dropL2 fun e => m.getLsbD (e.line / 2 ^ 29)
  { s1 with metas := s1.metas.filter fun e => !m.getLsbD (unitOfEndpoint e.1) }

/-- No workgroup is resident on the cores of units. -/
def State.drained (s : State) (m : BitVec 16) : Bool := s.wgs.all fun e => !m.getLsbD (unitOf (coreOf e.1))

/-- Steps 2 to 5 of the removal of drained units (R445, OP 3): once their sweeps are complete the scrub is due. -/
def State.detach (s : State) (p : Nat) (m : BitVec 16) : State :=
  let leaves (pa : Nat) : Bool := pa / 2 ^ 40 == 0 && m.getLsbD (pa / 2 ^ 36)
  let s0 := ((s.pitch p).apert.filter fun e => e.2.en && (leaves e.2.buf || leaves e.2.md)).foldl
    (fun s e => s.closeAperture p e.1) s
  let s1 := s0.updPitch p fun q =>
    { q with apert := q.apert.mapv fun _ a => if leaves a.buf || leaves a.md then { a with en := false } else a }
  let s2 := (s1.pitchCores p).foldl (fun s c => s.writeBacks c ((s.core c).dirty.filterMap fun d =>
    if leaves d.1 then some d.1 else none)) s1
  let s3 := (s2.pitchCores p).foldl (fun s c => s.updCore c fun k => { k with
    dirty := k.dirty.filter fun d => !leaves d.1, clean := k.clean.filter fun d => !leaves d.1 }.tidy) s2
  let s4 := ({ s3 with units := s3.units.filter fun e => !m.getLsbD e.1 }).refreshUnits
  (s4.advanceCores m).updPitch p fun q => { q with closed := 0 }

/-- `PITCH_REMOVE_UNITS` (R445, OP 3): placement on the units stops; once they are drained they leave, and their stacks are
scrubbed. Until then the command waits. -/
def execPitchRemoveUnits (s : State) : Out :=
  let c := s.partCmd
  let p := c.pitch
  if s.mailOp != 1 || c.op != 3 then .next s
  else if s.lantern.partition.isNone then
    let mine := (s.pitch p).units
    if c.bad then .next (s.closePart 1)
    else if (s.pitches.get? p).isNone then .next (s.closePart 2)
    else if c.units &&& ~~~mine != 0 || mine &&& ~~~c.units == 0 then .next (s.closePart 3)
    else if (s.pitch p).frozen then .next (s.closePart 5)
    else
      let s1 := s.updPitch p fun q => { q with closed := c.units }
      let s2 := { s1 with lantern := { s1.lantern with partition := some ⟨3, p, c.units, c.tmo, s.time, true⟩ } }
      .next (if s2.drained c.units then s2.detach p c.units else s2)
  else .next (if s.drained c.units && (s.pitch p).closed != 0 then s.detach p c.units else s)

/-- `DRAIN_TIMEOUT` (R445, OP 3): the limit passes before the units are drained: STATUS 4, and placement resumes. -/
def execDrainTimeout (s : State) : Out :=
  match s.lantern.partition with
  | none => .next s
  | some c =>
    if c.op != 3 || c.tmo == 0 || (s.pitch c.pitch).closed == 0 || s.time < c.since + 1024 * c.tmo then .next s
    else .next ((s.updPitch c.pitch fun q => { q with closed := 0 }).closePart 4)

/-- The contexts bound to a pitch. -/
def State.ctxsOf (s : State) (p : Nat) : List Nat := (s.ctxs.filter fun e => e.2.pitch == p).map (·.1)

/-- A binding ended, with what still carries its number (R445, R347). -/
def State.unbind (s : State) (c : Nat) : State :=
  let f := s.fabric
  { s with
    ctxs := s.ctxs.erase c
    fabric := { f with packets := f.packets.map fun (k : Packet) => if k.ctx == c then { k with ctx := 0xFFF } else k } }

/-- Steps 1 to 3 of a reset (R445, OP 4): contexts killed and released, the sweeps begun; regions and grids of the pitch are
gone. -/
def State.stopPitch (s : State) (p : Nat) : State :=
  let s1 := (s.ctxsOf p).foldl (fun s c => (if (s.ctx c).retired then s else s.killOne c 1).unbind c) s
  let s2 := s1.advanceCores (s.pitch p).units
  let gone (r : Nat) : Bool := (s2.regions.get? r).any fun x => x.pitch == p
  { s2 with
    grids := s2.grids.filter fun e => !gone e.2.region
    regions := s2.regions.filter fun e => e.2.pitch != p }

/-- Steps 4 and 6 of a reset (R445, OP 4), once the sweeps are complete: caches emptied, quarantined ways released (DESIGN CHOICE,
log 26: every way passes its test). -/
def State.clearPitch (s : State) (p : Nat) (m : BitVec 16) : State :=
  let s1 := (s.clearCores m).clearSlices m
  let home (e : Nat × List (Nat × Nat)) : Bool := m.getLsbD (e.1 / 4096 * 2 + (e.1 % 4096 - 256) / 12)
  { s1 with
    views := s1.views.filter fun e => e.1 / 2 ^ 45 != p
    quar := s1.quar.filter fun e => !home e }

/-- A pitch's register block at its reset values (R445). -/
def State.resetBlock (s : State) (p : Nat) : State :=
  s.updPitch p fun q => { Pitch.reset with units := q.units, ctxLo := q.ctxLo, ctxN := q.ctxN }

/-- The end of a reset without a scrub, once the sweeps are complete (R445, OP 4). -/
def State.endReset (s : State) (p : Nat) (m : BitVec 16) : State :=
  if s.swept m then ((s.clearPitch p m).resetBlock p).closePart 0 else s

/-- A reset or destroy (R445, OP 4 and 5): it waits for the sweeps; with a scrub, `SCRUB_COMPLETE` ends it. -/
def State.resetPitch (s : State) (op : Nat) (scrub : Bool) : State :=
  let c := s.partCmd
  let p := c.pitch
  if s.mailOp != 1 || c.op != op then s
  else
    match s.lantern.partition with
    | some k => if k.op = op && !k.scrub then s.endReset k.pitch k.units else s
    | none =>
      if c.bad then s.closePart 1
      else if (s.pitches.get? p).isNone then s.closePart 2
      else
        let m := (s.pitch p).units
        let s1 := s.stopPitch p
        let s2 := { s1 with lantern := { s1.lantern with partition := some ⟨op, p, m, 0, s.time, scrub⟩ } }
        if scrub then s2 else s2.endReset p m

/-- `PITCH_RESET` (R445, OP 4). -/
def execPitchReset (s : State) : Out := .next (s.resetPitch 4 s.partCmd.scrub)
/-- `PITCH_DESTROY` (R445, OP 5). -/
def execPitchDestroy (s : State) : Out := .next (s.resetPitch 5 true)

/-- A scrub of stacks (R444, R451): every word 0 with residue 0; frames that fail the read-back are retired; retired frames
are poisoned from now on. The slices of the stacks hold no line. -/
def State.scrub (s : State) (m : BitVec 16) (bad : List Nat) : State :=
  let inM (pa : Nat) : Bool := pa / 2 ^ 40 == 0 && m.getLsbD (pa / 2 ^ 36)
  let s0 := s.clearSlices m
  let s1 := { s0 with mem := ⟨s0.mem.bytes.filter (fun b => !inM b.1), s0.mem.tags.filter fun t => !inM t.1⟩ }
  let s2 := (bad.filter fun x => inM (x * 65536)).foldl (fun s x => (s.retireFrame (x * 65536)).1) s1
  { s2 with lantern := { s2.lantern with
      dead := (s2.lantern.dead ++ s2.lantern.frames.filter fun x => inM (x * 65536)).dedup } }

/-- `SCRUB_COMPLETE` (R444, R445): the units' caches are cleared once their sweeps are complete; the scrub of the running command
ends, and the command with it. -/
def execScrubComplete (bad : List Nat) (s : State) : Out :=
  match s.lantern.partition with
  | none => .next s
  | some c =>
    if !c.scrub || (c.op == 3 && (s.pitch c.pitch).closed != 0) || !s.swept c.units then .next s
    else
      let s0 := if c.op = 3 then (s.clearCores c.units).clearSlices c.units else s.clearPitch c.pitch c.units
      let s1 := s0.scrub c.units bad
      .next (match c.op with
        | 3 => s1.closePart 0
        | 4 => (s1.resetBlock c.pitch).closePart 0
        | _ => (({ s1 with
            pitches := s1.pitches.erase c.pitch
            units := s1.units.filter fun e => !c.units.getLsbD e.1 }).closePart 0))

/-! ## The dump (R453, R454) -/

/-- The dump of a pitch fits its own stacks (R454). -/
def State.dumpFits (s : State) (p : Nat) : Bool :=
  let q := s.pitch p
  let base := q.dmpbase.toNat / 2 ^ 16 * 2 ^ 16
  let n := 65536 + (unitList q.units).length * 2 ^ 28
  q.dmpbase.getLsbD 0 && decide (base + n ≤ 2 ^ 40) &&
    (List.range ((base + n + 2 ^ 36 - 1) / 2 ^ 36 - base / 2 ^ 36)).all fun k => s.ownsStack p (base / 2 ^ 36 * 2 ^ 36 + k * 2 ^ 36)

/-- A unit's section: its warps in the layout of R343, then state in the device's own layout, as free values (R454). -/
def State.dumpUnit (s : State) (u : Nat) : List CWord × State :=
  let ws := s.warps.filter fun e => unitOf (warpCore e.1) == u
  let (a, s1) := ws.foldl (fun acc e =>
    let n := (s.wgOf e.1).nreg
    let (h, t) := acc.2.freeWords 2048
    (acc.1 ++ h ++ padTo (up4k (128 * n) / 4) (e.2.regImage n), t)) (([] : List CWord), s)
  let (b, s2) := s1.freeWords (2 ^ 26 - a.length)
  (a ++ b, s2)

/-- `DUMP_COMPLETE` (R453, steps 3 to 5; R454): the dump is written, or only logged; the pitch's contexts are retired with
reason 2; the pitch is held dumped. Where the header's values stand is the device's own (free values). -/
def execDumpComplete (p : Nat) (s : State) : Out :=
  let q := s.pitch p
  if !q.frozen || q.dumped then .next s
  else
    let fits := s.dumpFits p
    let s1 :=
      if fits then
        let (h, t) := s.freeWords 16384
        let (ws, t1) := (unitList q.units).foldl (fun acc u =>
          let (x, y) := acc.2.dumpUnit u
          (acc.1 ++ x, y)) (h, t)
        t1.homeWords ownerNone (q.dmpbase.toNat / 2 ^ 16 * 2 ^ 16) ws
      else s.logRecord (s.errorRecord 10 0xFFF 0 0 0)
    let s2 := (s.ctxsOf p).foldl (fun s c => if (s.ctx c).retired then s else s.killOne c 2) s1
    .next (s2.updPitch p fun q =>
      { q with dumped := true, dmpstat := if fits then BitVec.ofNat 32 (2 + q.units.toNat * 2 ^ 16) else 3 })

end Sys2Proof.Machine
end

