-- ==== Sys2Proof/Machine/Manage.lean ====
section
/-!
DEFINITION. Lantern: images and their checks (R458, R460, R463, R465–R467, R473), sensors and frequency steps (R470, R471),
the event log (R472), measurements (R474), bring-up and loss of power (R475, R472).
-/

namespace Sys2Proof.Machine

/-! ## Rennet images (R455, R465, R466) -/

/-- The slot in a 128-byte record (R455). -/
def slotOf (ws : List Word) : Slot :=
  let f (lo n : Nat) : Nat := fieldAt ws lo n
  { match_ := BitVec.ofNat 64 (wordPair ws 0), mask := BitVec.ofNat 64 (wordPair ws 64), prio := f 128 4, kind := f 132 2,
    act := f 134 2, dep := f 136 1 == 1, anyc := f 137 1 == 1, ctx := f 138 12, cause := f 152 8,
    pmask := BitVec.ofNat 16 (f 160 16), fcause := f 176 8, nseq := f 184 2, routine := f 192 16,
    sel := (List.range 4).map fun k => BitVec.ofNat 13 (f (256 + 13 * k) 13),
    body := (List.range 4).map fun k => BitVec.ofNat 96 (wordPair ws (320 + 96 * k) + f (384 + 96 * k) 32 * 2 ^ 64),
    ofBoot := false }

/-- A reserved field or code of a slot record (R455). -/
def slotReserved (ws : List Word) : Bool :=
  let f (lo n : Nat) : Nat := fieldAt ws lo n
  f 132 2 == 3 || f 134 2 == 3 || f 150 2 != 0 || f 186 6 != 0 || f 208 24 != 0 || f 232 24 != 0 || f 308 12 != 0 ||
    (ws.drop 22).any fun w => w != 0

/-- A body entry that R460 refuses. -/
def bodyBad (v : BitVec 96) (sel : BitVec 13) : Bool :=
  let len := v.toNat % 4
  let op := v.toNat / 2 ^ 7 % 1024
  let code (k : Nat) : Nat := sel.toNat / 8 ^ k % 8
  !(len == 1 || len == 2) || !(op ≤ 0x29F || (0x380 ≤ op && op ≤ 0x38F)) || op == 0x018 || op == 0x190 ||
    (List.range 4).any fun k => decide (5 ≤ code k)

/-- A slot breaks R458, R460 or R463. -/
def Slot.bad (x : Slot) : Bool :=
  match x.kind with
  | 1 =>
    match x.act with
    | 0 => !(1 ≤ x.cause && x.cause ≤ 3)
    | 1 => (List.range (x.nseq + 1)).any fun k => bodyBad (x.body.getD k 0) (x.sel.getD k 0)
    | _ => false
  | 2 => !(1 ≤ x.cause && x.cause ≤ 14)
  | _ => false

/-- Bytes of words in address order. -/
def bytesOf (ws : List Word) : List (BitVec 8) := ws.flatMap bytesOfWord

/-- The RESULT of the checks that a Rennet image and a firmware image share: LEN, the signature, the floor, the revision
(R465, R466, R468, R473). -/
def imageResult (ws : List Word) (len revision head : Nat) (floor : Word) : Nat :=
  let rlen := (ws.getD 3 0).toNat
  if len != head + rlen + 144 || rlen % 128 != 0 then 1
  else if !Config.signatureVerifies (bytesOf ws) then 2
  else if (ws.getD 1 0).toNat < floor.toNat then 3
  else if ws.getD 5 0 != Config.deviceRevision then 4
  else if (ws.getD 0 0).toNat != revision || (ws.drop 6).take 58 != List.replicate 58 0 then 1
  else 0

/-- The further checks of a Rennet image: reserved fields 1, refusals 5 (R466; the split is a DESIGN CHOICE, log 27). -/
def rennetResult (ws : List Word) : Nat :=
  let rlen := (ws.getD 3 0).toNat
  let roff := (ws.getD 4 0).toNat
  let smask := ws.getD 2 0
  let recs := (List.range 16).map fun k => (ws.drop (64 + 32 * k)).take 32
  let used := (recs.zipIdx).filter fun r => smask.getLsbD r.2
  if 2 ^ 16 ≤ smask.toNat || roff % 128 != 0 || used.any (fun r => slotReserved r.1) then 1
  else if 262144 < rlen || 262144 < roff + rlen || used.any (fun r => (slotOf r.1).bad) then 5
  else 0

/-- An emulation group of a slot of a mask runs (R466, step 2), or a rewrite does: it finishes under the slots it decoded
with (R143). -/
def State.emulating (s : State) (m : Word) : Bool :=
  s.warps.any fun e => e.2.lanes.any fun t => t.live &&
    (t.body != 0 || t.frames.any fun f => f.emu.any fun x => m.getLsbD x.slot)

/-- The 16 slots of a Rennet image (R465). -/
def imageSlots (ws : List Word) : List Slot := (List.range 16).map fun k => slotOf ((ws.drop (64 + 32 * k)).take 32)

/-- A Rennet image written (R466, steps 3 to 5). -/
def State.loadRennet (s : State) (ws : List Word) : State :=
  let n := (ws.getD 3 0).toNat / 4
  let m := ws.getD 2 0
  let r := s.rennet
  { s with
    rennet :=
      { slots := (r.slots.zip (imageSlots ws)).zipIdx.map fun x => if m.getLsbD x.2 then x.1.2 else x.1.1
        loading := none
        store := r.store.setWords (ws.getD 4 0).toNat (((ws.drop 576).take n).map CWord.gen)
        seq := ws.getD 1 0
        digest := Config.digest (bytesOf ws) }
    lantern := { s.lantern with floor := ws.getD 1 0 } }

/-- The buffer of the running mailbox command. -/
def State.mailData (s : State) : List CWord := s.mailWords (s.mailLen / 4)

/-- A record of an event that is no error of a pitch (R472). -/
def State.logEvent (s : State) (cls : Nat) : State := s.logRecord { s.errorRecord 1 0xFFF 0 0 0 with cls := cls }

/-- `RENNET_IMAGE_LOAD` (R466): while a routine that it replaces runs it waits, and bundles that its slots or those they replace match
are stalled. -/
def execRennetImageLoad (s : State) : Out :=
  let cs := s.mailData
  let ws := cs.map (·.data)
  if s.mailOp != 2 then .next s
  else if s.mailLen < 0x990 || s.mailLen % 4 != 0 then .next (s.closeMail 1)
  else if cs.any (fun w => !w.wellFormed) then .next (s.closeMail 6)
  else
    let r := imageResult ws s.mailLen 1 0x900 s.lantern.floor
    let r := if r = 0 then rennetResult ws else r
    if r != 0 then .next (s.closeMail r)
    else if s.emulating (ws.getD 2 0) then
      .next { s with rennet := { s.rennet with loading := some (ws.getD 2 0, imageSlots ws) } }
    else .next (((s.loadRennet ws).logEvent 20).closeMail 0)

/-- `FIRMWARE_UPDATE` (R473): the image goes to the inactive bank, which is active from the next bring-up on. -/
def execFirmwareUpdate (s : State) : Out :=
  let cs := s.mailData
  let ws := cs.map (·.data)
  if s.mailOp != 3 then .next s
  else if s.mailLen < 0x190 || s.mailLen % 4 != 0 then .next (s.closeMail 1)
  else if cs.any (fun w => !w.wellFormed) then .next (s.closeMail 6)
  else
    let r := imageResult ws s.mailLen 2 0x100 s.lantern.fwFloor
    let r := if r = 0 && ws.getD 2 0 != 0 then 1 else r
    if r != 0 then .next (s.closeMail r)
    else
      let l := s.lantern
      let k := 1 - l.running
      .next (({ s with lantern := { l with banks := l.banks.set k (bytesOf ws), bank := k } }.logEvent 19).closeMail 0)

/-! ## Sensors and steps (R470, R471) -/

/-- Islands of the package: 60 on each compute die, 16 on each I/O die (R470). -/
def islandCount : Nat := 512

/-- The island of a core (R470). -/
def coreIsland (core : Nat) : Nat := dieOf core * 60 + core % 200 / 4

/-- Core and L2 islands, whose frequency has steps (R471). -/
def stepped (i : Nat) : Bool := i < 480 && i % 60 < 58

/-- The highest value of a function over a list. -/
def highest (f : Nat → Nat) (l : List Nat) : Nat := (l.map f).foldl max 0

/-- Steps after a decision (R471): above the limit, the hottest islands go one step up; well below it, those at the highest
step go one down (DESIGN CHOICE, log 28: which islands); an island at 105 °C is held at step 8 until it is below 100 °C. -/
def newSteps (code : Code) (steps : KMap Nat) (temp : Nat → Nat) (avg limit : Nat) : KMap Nat :=
  let is := (List.range islandCount).filter fun i => stepped i && code.hasIsland i
  let step (i : Nat) : Nat := steps.getD i 0
  let hot := highest temp is
  let top := highest step is
  is.foldl (fun (m : KMap Nat) i =>
    let t := temp i
    let held := 1680 ≤ t || (step i == 8 && 1600 ≤ t)
    let n := if held then 8
      else if limit < avg then (if t = hot then min 8 (step i + 1) else step i)
      else if avg * 100 < limit * 95 then (if step i = top then top - 1 else step i)
      else step i
    KMap.set m i n 0) []

/-- `SENSOR_SAMPLE` (R470, R471): the sample is kept, steps are decided on the average of the last ten, and a sensor at
115 °C is an error of the whole device (R453). -/
def execSensorSample (x : Sample) (s : State) : Out :=
  let l := s.lantern
  let powers := (x.power :: l.powers).take 10
  let avg := powers.sum / powers.length
  let steps := newSteps s.code l.steps (fun i => (x.islands.getD i (0, 0, 0)).2.2) avg l.pwrlim.toNat
  let s1 := { s with lantern := { l with sample := x, sampleAt := s.time, powers := powers, steps := steps } }
  let s2 := { s1 with cores := s1.cores.mapv fun k c => { c with step := steps.getD (coreIsland k) 0 } }
  let s3 := if steps == l.steps then s2 else s2.logEvent 17
  .next (if (x.thermal.any fun t => 1840 ≤ t) || x.islands.any (fun i => 1840 ≤ i.2.2) then (s3.logEvent 18).freezeAll else s3)

/-- The snapshot of the last sample (R470): what the package does not have reads 0. -/
def Lantern.snapshot (l : Lantern) (code : Code) : List Word :=
  let isl := (List.range islandCount).flatMap fun i =>
    let x := if code.hasIsland i then l.sample.islands.getD i (0, 0, 0) else (0, 0, 0)
    [BitVec.ofNat 32 (x.1 % 65536 + x.2.1 % 65536 * 65536), BitVec.ofNat 32 (x.2.2 % 65536 + l.steps.getD i 0 * 65536)]
  let th := (List.range 384).map fun j =>
    if code.hasSensor (2 * j) then BitVec.ofNat 32
      (l.sample.thermal.getD (2 * j) 0 % 65536 + l.sample.thermal.getD (2 * j + 1) 0 % 65536 * 65536)
    else 0
  [BitVec.ofNat 32 l.sampleAt, BitVec.ofNat 32 (l.sampleAt / 2 ^ 32), BitVec.ofNat 32 l.sample.power] ++ List.replicate 13 0 ++
    isl ++ th

/-- `SENSOR_SNAPSHOT` (R470, R468). -/
def execSensorSnapshot (s : State) : Out :=
  if s.mailOp != 4 then .next s
  else if s.mailLen != 5696 then .next (s.closeMail 1)
  else .next ((s.mailPut 0 (s.lantern.snapshot s.code)).closeMail 0)

/-- `LOG_READ` (R472): the newest records, newest first. -/
def execLogRead (s : State) : Out :=
  let n := s.mailLen / 32
  if s.mailOp != 5 then .next s
  else if n == 0 || s.mailLen % 32 != 0 then .next (s.closeMail 1)
  else .next ((s.mailPut 0 ((s.lantern.log.take n).flatMap Record.words)).closeMail 0)

/-! ## Measurements, bring-up, power -/

/-- `punits` of every pitch, pitch 0 lowest (R474). -/
def State.partitionMap (s : State) : BitVec 512 :=
  (List.range 16).foldl (fun (m : BitVec 512) p => m ||| (((s.pitch p).units.zeroExtend 512 : BitVec 512) <<< (16 * p))) 0

/-- `GET_MEASUREMENTS` (R474). -/
def execGetMeasurements (index : Nat) (s : State) : Out :=
  let put (v : BitVec 512) : Out := .next (s.report (.measurement index v))
  match index with
  | 1 => put (Config.digest (s.lantern.banks.getD s.lantern.running []))
  | 2 => put Config.firmwareSet
  | 3 => put s.rennet.digest
  | 4 => put Config.fuseConfiguration
  | 5 => put s.partitionMap
  | _ => .next s

/-- A boot slot (R467). -/
def bootSlot (m : BitVec 64) : Slot :=
  { Slot.unused with
    match_ := m, mask := 0x1FF83, kind := 1, act := 2, dep := true, anyc := true, pmask := 0xFFFF, ofBoot := true }

/-- Rennet after the boot image (R467). Its SEQ and digest are the firmware set's own (free values). -/
def bootRennet : Rennet :=
  { slots := List.replicate 13 .unused ++ [bootSlot 0xC802, bootSlot 0x18601, bootSlot 0xC801]
    store := .empty, seq := Config.bootSeq, digest := Config.firmwareSet, loading := none }

/-- The words outside the stacks: those of the host and of peers (R367). -/
def Mem.outside (m : Mem) : Mem := ⟨m.bytes.filter fun b => 2 ^ 40 ≤ b.1, m.tags.filter fun t => 2 ^ 40 ≤ t.1⟩

/-- The device as bring-up leaves it (R475): stacks scrubbed, versions 0, the boot image loaded, every unit free. -/
def State.broughtUp (s : State) (bank : Nat) : State :=
  let s1 := { State.reset with
    life := .up, cycle := s.cycle, agenda := s.agenda, cur := s.cur, free := s.free, rennet := bootRennet,
    code := s.code, mem := s.mem.outside,
    lantern := { s.lantern with
      running := bank, steps := [], mbstat := 0, mbcmd := 0, mbaddr := 0, pwrlim := s.code.packageLimit, partition := none
      dead := s.lantern.frames }
    reports := s.reports }
  s1.logEvent 21

/-- `BRING_UP` (R475, R473), after reset or when power has returned: the active bank boots if it verifies, else the other one, which
is logged; with neither, the link stays down and the step is logged (DESIGN CHOICE, log 83: as a firmware record that holds the
step's number). -/
def execBringUp (s : State) : Out :=
  let l := s.lantern
  let ok (k : Nat) : Bool := Config.signatureVerifies (l.banks.getD k [])
  if s.life == .up || s.life == .dark then .next s
  else if ok l.bank then .next (s.broughtUp l.bank)
  else if ok (1 - l.bank) then .next ((s.logEvent 19).broughtUp (1 - l.bank))
  else .next { s.logRecord { s.errorRecord 1 0xFFF 0 0 0 with cls := 19, endpt := 1 } with life := .dark }

/-- `POWER_LOSS` (R472): what the device holds outside module flash is lost. -/
def execPowerLoss (s : State) : Out :=
  let l := s.lantern
  .next { State.reset with
    code := s.code, life := .dead, agenda := s.agenda, free := s.free, reports := s.reports, mem := s.mem.outside
    lantern := { Lantern.reset with
      pwrlim := s.code.packageLimit
      bank := l.bank, banks := l.banks, floor := l.floor, fwFloor := l.fwFloor, frames := l.frames, log := l.log } }

end Sys2Proof.Machine
end

