-- ==== Sys2Proof/Machine/Move.lean ====
section
/-!
DEFINITION. Moves, selects, extensions and byte selection (R175, R176).
-/

namespace Sys2Proof.Machine

/-- The class of a move: a short immediate is generated; a register, or an F96 literal with the residue of its instruction word, is
carried (R175, R109). -/
def moveClass (f : Fields) : RClass := if f.im && f.lit.isNone then .g else .c

/-- D := A. -/
def moveWord (f : Fields) (s : State) : Out := s.lanePure .mov f (moveClass f) fun i => { dst := [c0 i.a] }
/-- `MOV` (R175). -/
def execMov (f : Fields) (s : State) : Out := moveWord f s
/-- `MOV`, compact (R131). -/
def execMovCompact (c : Compact) (s : State) : Out := moveWord (c.expand COp.movCompact.unary) s

/-- `MOV64` (R175). -/
def execMov64 (f : Fields) (s : State) : Out := s.lanePure .mov64 f (moveClass f) fun i => { dst := i.a }

/-- `MOVW` (R175): the uniform register that A numbers, checked as a uniform source (R110); an index of 64 or more
raises `DATA`, reason "uniform index" (R480). -/
def execMovw (f : Fields) (s : State) : Out :=
  s.lanewise .movw f .c false fun i =>
    let n := (w0 i.a).toNat
    if 64 ≤ n then .error ⟨causeData, dataInfo 9 0, s.pc64⟩
    else
      let x := s.curWarp.wreg n
      match checkSources [⟨[x], 6⟩] s.pc64 with
      | some tr => .error tr
      | none => .ok { dst := [x] }

/-- `SEL` (R175). -/
def execSel (f : Fields) (s : State) : Out :=
  s.lanewise .sel f .c false fun i =>
    let k := f.cN % 16
    if i.t.predBad k then .error (predTrap s.pc64)
    else .ok { dst := [if i.t.pred k then c0 i.a else c0 i.b] }

/-- `EXT` (R175). -/
def execExt (f : Fields) (s : State) : Out :=
  s.lanePure .ext f .p fun i => { dst := [extWord f.ty (c0 i.a)] }

/-- Byte `i` of a `BSEL` result (R176). -/
def bselByte (a b c : Word) (i : Nat) : Nat :=
  let sel := (b >>> (8 * i)).toNat % 256
  let k := sel % 8
  let x := if k < 4 then (a >>> (8 * k)).toNat % 256 else (c >>> (8 * (k - 4))).toNat % 256
  match sel / 8 % 4 with
  | 0 => x
  | 1 => 0
  | 2 => if 128 ≤ x then 255 else 0
  | _ => 255

/-- `BSEL` (R176). -/
def bselWord (a b c : Word) : Word :=
  BitVec.ofNat 32 (bselByte a b c 0 + bselByte a b c 1 * 2 ^ 8 + bselByte a b c 2 * 2 ^ 16 + bselByte a b c 3 * 2 ^ 24)

/-- `BSEL` (R176). -/
def execBsel (f : Fields) (s : State) : Out :=
  s.lanePure .bsel f .p fun i =>
    let byte := bselByte (w0 i.a) (w0 i.b) (w0 i.c)
    { dst := [⟨bselWord (w0 i.a) (w0 i.b) (w0 i.c), mod15 (((List.range 4).map fun k => (byte k : Int)).sum)⟩] }

end Sys2Proof.Machine
end

