-- ==== Sys2Proof/Machine/Sfu.lean ====
section
/-!
DEFINITION. The special-function instructions (R199–R203, R408): sources read and checked at issue, results queued.
-/

namespace Sys2Proof.Machine

/-- Instructions in a list of SFU results. -/
def sfuCount (q : List SfuEntry) : Nat := ((q.map fun e => (e.wid, e.id)).dedup).length

/-- The queue has no room for another instruction of a warp: 16 in all, 4 of the warp (R201). -/
def Core.sfuFull (c : Core) (wid : Nat) : Bool :=
  16 ≤ sfuCount c.sfu || 4 ≤ sfuCount (c.sfu.filter fun e => e.wid == wid)

/-- The result of one lane on its way through the queue, with an injection of ICLS 3 (R120, R203). -/
def sfuEntry (op : Op) (f : Fields) (wid id l : Nat) (pc : Addr) (src : CWord) (write : Bool) (inj : Option Inj) : SfuEntry :=
  let (v, fl) := sfuResult op f.fty f.rm src.data
  let here := inj.filter fun j => j.lane == l
  { id := id, wid := wid, lane := l, dst := ⟨f.ud, if f.ud then f.d.toNat % 64 else f.d.toNat⟩, op := op, ty := f.fty,
    rm := f.rm, src := src, flags := fl, pc := pc, write := write,
    value := match here with
      | some j => if j.after then v else flipWord v j.bit j.rfld
      | none => v
    after := match here with
      | some j => if j.after then some (j.bit, j.rfld) else none
      | none => none }

/-- The results that the lanes of an instruction queue, in lane order. -/
def sfuEntries (op : Op) (f : Fields) (wid id : Nat) (pc : Addr) (inj : Option Inj) (xs : List Lane) : List SfuEntry :=
  let done := (xs.zipIdx).filterMap fun x => match x.1 with
    | .done r => some (x.2, c0 r.dst)
    | _ => none
  done.map fun x => sfuEntry op f wid id x.1 pc x.2 (some x.1 == done.head?.map (·.1)) inj

/-- A lane's result without its words: an SFU result is written later. -/
def Lane.bare : Lane → Lane
  | .done _ => .done {}
  | x => x

/-- An SFU instruction issues: it waits for room (R201), else its lanes' results are queued. -/
def sfuOp (op : Op) (f : Fields) (s : State) : Out :=
  s.issue op f [] fun s =>
    if (s.core s.curCore).sfuFull s.cur.wid then .next s
    else
      let xs := s.runLanes f (fun t => sources op f s.curWarp t false) fun i => .ok { dst := [c0 i.a] }
      let inj := (s.injection 3 f.g).filter fun j =>
        (xs.getD j.lane .idle).takes .g j && !(f.ud && j.after && firstDone xs != some j.lane)
      let s2 := (s.afterInjection inj).updCore s.curCore fun c =>
        { c with sfu := c.sfu ++ sfuEntries op f s.cur.wid s.curWarp.next s.cur.pc inj xs }
      let s3 := s2.updWarp s.cur.wid fun w => { w with next := w.next + 1 }
      .next (s3.commit f (xs.map Lane.bare))

/-- `RCP`, both formats. -/
def sfuRcp : Fields → State → Out := sfuOp .rcp
/-- `RCP` (R199). -/
def execRcp (f : Fields) (s : State) : Out := sfuRcp f s
/-- `RCP`, compact (R131). -/
def execRcpCompact (c : Compact) (s : State) : Out := sfuRcp (c.expand COp.rcpCompact.unary) s

/-- `RSQ`, both formats. -/
def sfuRsq : Fields → State → Out := sfuOp .rsq
/-- `RSQ` (R199). -/
def execRsq (f : Fields) (s : State) : Out := sfuRsq f s
/-- `RSQ`, compact (R131). -/
def execRsqCompact (c : Compact) (s : State) : Out := sfuRsq (c.expand COp.rsqCompact.unary) s

/-- `SQRT` (R199). -/
def execSqrt (f : Fields) (s : State) : Out := sfuOp .sqrt f s

/-- `EXP2`, both formats. -/
def sfuExp2 : Fields → State → Out := sfuOp .exp2
/-- `EXP2` (R199). -/
def execExp2 (f : Fields) (s : State) : Out := sfuExp2 f s
/-- `EXP2`, compact (R131). -/
def execExp2Compact (c : Compact) (s : State) : Out := sfuExp2 (c.expand COp.exp2Compact.unary) s

/-- `LOG2`, both formats. -/
def sfuLog2 : Fields → State → Out := sfuOp .log2
/-- `LOG2` (R199). -/
def execLog2 (f : Fields) (s : State) : Out := sfuLog2 f s
/-- `LOG2`, compact (R131). -/
def execLog2Compact (c : Compact) (s : State) : Out := sfuLog2 (c.expand COp.log2Compact.unary) s

/-- `SIN` (R199). -/
def execSin (f : Fields) (s : State) : Out := sfuOp .sin f s

/-- `COS` (R199). -/
def execCos (f : Fields) (s : State) : Out := sfuOp .cos f s

/-- `TANH` (R199). -/
def execTanh (f : Fields) (s : State) : Out := sfuOp .tanh f s

/-- `SIGM` (R199). -/
def execSigm (f : Fields) (s : State) : Out := sfuOp .sigm f s

/-- `ERF` (R199). -/
def execErf (f : Fields) (s : State) : Out := sfuOp .erf f s

/-- `SINPI` (R199). -/
def execSinpi (f : Fields) (s : State) : Out := sfuOp .sinpi f s

/-- `COSPI` (R199). -/
def execCospi (f : Fields) (s : State) : Out := sfuOp .cospi f s

/-- `EXPM1` (R199). -/
def execExpm1 (f : Fields) (s : State) : Out := sfuOp .expm1 f s

/-- `LOG1P` (R199). -/
def execLog1p (f : Fields) (s : State) : Out := sfuOp .log1p f s

end Sys2Proof.Machine
end

