-- ==== Sys2Proof/Machine/Dispatch.lean ====
section
/-!
DEFINITION. Each instruction and event to its meaning.
-/

namespace Sys2Proof.Machine

/-- The effect of an instruction or an event. -/
def exec (i : Instr) (s : State) : Host.Outcome State Fault Refusal :=
  match i with
  | .add f => Sys2Proof.Machine.execAdd f s
  | .addCompact c => Sys2Proof.Machine.execAddCompact c s
  | .sub f => Sys2Proof.Machine.execSub f s
  | .subCompact c => Sys2Proof.Machine.execSubCompact c s
  | .addc f => Sys2Proof.Machine.execAddc f s
  | .subb f => Sys2Proof.Machine.execSubb f s
  | .neg f => Sys2Proof.Machine.execNeg f s
  | .negCompact c => Sys2Proof.Machine.execNegCompact c s
  | .absI f => Sys2Proof.Machine.execAbsI f s
  | .minI f => Sys2Proof.Machine.execMinI f s
  | .minCompact c => Sys2Proof.Machine.execMinCompact c s
  | .maxI f => Sys2Proof.Machine.execMaxI f s
  | .maxCompact c => Sys2Proof.Machine.execMaxCompact c s
  | .mul f => Sys2Proof.Machine.execMul f s
  | .mulCompact c => Sys2Proof.Machine.execMulCompact c s
  | .mulh f => Sys2Proof.Machine.execMulh f s
  | .mad f => Sys2Proof.Machine.execMad f s
  | .madh f => Sys2Proof.Machine.execMadh f s
  | .mulw f => Sys2Proof.Machine.execMulw f s
  | .madw f => Sys2Proof.Machine.execMadw f s
  | .sad f => Sys2Proof.Machine.execSad f s
  | .idp4 f => Sys2Proof.Machine.execIdp4 f s
  | .add64 f => Sys2Proof.Machine.execAdd64 f s
  | .sub64 f => Sys2Proof.Machine.execSub64 f s
  | .neg64 f => Sys2Proof.Machine.execNeg64 f s
  | .mul64 f => Sys2Proof.Machine.execMul64 f s
  | .lea f => Sys2Proof.Machine.execLea f s
  | .lea64 f => Sys2Proof.Machine.execLea64 f s
  | .clamp f => Sys2Proof.Machine.execClamp f s
  | .avg f => Sys2Proof.Machine.execAvg f s
  | .imad24 f => Sys2Proof.Machine.execImad24 f s
  | .andB f => Sys2Proof.Machine.execAndB f s
  | .andCompact c => Sys2Proof.Machine.execAndCompact c s
  | .orB f => Sys2Proof.Machine.execOrB f s
  | .orCompact c => Sys2Proof.Machine.execOrCompact c s
  | .xorB f => Sys2Proof.Machine.execXorB f s
  | .xorCompact c => Sys2Proof.Machine.execXorCompact c s
  | .notB f => Sys2Proof.Machine.execNotB f s
  | .notCompact c => Sys2Proof.Machine.execNotCompact c s
  | .andn f => Sys2Proof.Machine.execAndn f s
  | .bitfn f => Sys2Proof.Machine.execBitfn f s
  | .shl f => Sys2Proof.Machine.execShl f s
  | .shlCompact c => Sys2Proof.Machine.execShlCompact c s
  | .shr f => Sys2Proof.Machine.execShr f s
  | .shrCompact c => Sys2Proof.Machine.execShrCompact c s
  | .rol f => Sys2Proof.Machine.execRol f s
  | .shl64 f => Sys2Proof.Machine.execShl64 f s
  | .shr64 f => Sys2Proof.Machine.execShr64 f s
  | .bfx f => Sys2Proof.Machine.execBfx f s
  | .bfi f => Sys2Proof.Machine.execBfi f s
  | .popc f => Sys2Proof.Machine.execPopc f s
  | .popcCompact c => Sys2Proof.Machine.execPopcCompact c s
  | .clz f => Sys2Proof.Machine.execClz f s
  | .brev f => Sys2Proof.Machine.execBrev f s
  | .mov f => Sys2Proof.Machine.execMov f s
  | .movCompact c => Sys2Proof.Machine.execMovCompact c s
  | .movw f => Sys2Proof.Machine.execMovw f s
  | .sel f => Sys2Proof.Machine.execSel f s
  | .ext f => Sys2Proof.Machine.execExt f s
  | .bsel f => Sys2Proof.Machine.execBsel f s
  | .mov64 f => Sys2Proof.Machine.execMov64 f s
  | .cmp f => Sys2Proof.Machine.execCmp f s
  | .cmp64 f => Sys2Proof.Machine.execCmp64 f s
  | .cmpFloat f => Sys2Proof.Machine.execCmpFloat f s
  | .classF f => Sys2Proof.Machine.execClassF f s
  | .pcomb f => Sys2Proof.Machine.execPcomb f s
  | .pmov f => Sys2Proof.Machine.execPmov f s
  | .pset f => Sys2Proof.Machine.execPset f s
  | .addFloat f => Sys2Proof.Machine.execAddFloat f s
  | .addFloatCompact c => Sys2Proof.Machine.execAddFloatCompact c s
  | .subFloat f => Sys2Proof.Machine.execSubFloat f s
  | .subFloatCompact c => Sys2Proof.Machine.execSubFloatCompact c s
  | .mulFloat f => Sys2Proof.Machine.execMulFloat f s
  | .mulFloatCompact c => Sys2Proof.Machine.execMulFloatCompact c s
  | .fma f => Sys2Proof.Machine.execFma f s
  | .minFloat f => Sys2Proof.Machine.execMinFloat f s
  | .minFloatCompact c => Sys2Proof.Machine.execMinFloatCompact c s
  | .maxFloat f => Sys2Proof.Machine.execMaxFloat f s
  | .maxFloatCompact c => Sys2Proof.Machine.execMaxFloatCompact c s
  | .absFloat f => Sys2Proof.Machine.execAbsFloat f s
  | .absFloatCompact c => Sys2Proof.Machine.execAbsFloatCompact c s
  | .negFloat f => Sys2Proof.Machine.execNegFloat f s
  | .negFloatCompact c => Sys2Proof.Machine.execNegFloatCompact c s
  | .scaleb f => Sys2Proof.Machine.execScaleb f s
  | .rnd f => Sys2Proof.Machine.execRnd f s
  | .dot2 f => Sys2Proof.Machine.execDot2 f s
  | .cpys f => Sys2Proof.Machine.execCpys f s
  | .frc f => Sys2Proof.Machine.execFrc f s
  | .lerp f => Sys2Proof.Machine.execLerp f s
  | .fmac f => Sys2Proof.Machine.execFmac f s
  | .cvt f => Sys2Proof.Machine.execCvt f s
  | .cvtf f => Sys2Proof.Machine.execCvtf f s
  | .cvtx f => Sys2Proof.Machine.execCvtx f s
  | .cvtb f => Sys2Proof.Machine.execCvtb f s
  | .pack f => Sys2Proof.Machine.execPack f s
  | .unpk f => Sys2Proof.Machine.execUnpk f s
  | .rcp f => Sys2Proof.Machine.execRcp f s
  | .rcpCompact c => Sys2Proof.Machine.execRcpCompact c s
  | .rsq f => Sys2Proof.Machine.execRsq f s
  | .rsqCompact c => Sys2Proof.Machine.execRsqCompact c s
  | .sqrt f => Sys2Proof.Machine.execSqrt f s
  | .exp2 f => Sys2Proof.Machine.execExp2 f s
  | .exp2Compact c => Sys2Proof.Machine.execExp2Compact c s
  | .log2 f => Sys2Proof.Machine.execLog2 f s
  | .log2Compact c => Sys2Proof.Machine.execLog2Compact c s
  | .sin f => Sys2Proof.Machine.execSin f s
  | .cos f => Sys2Proof.Machine.execCos f s
  | .tanh f => Sys2Proof.Machine.execTanh f s
  | .sigm f => Sys2Proof.Machine.execSigm f s
  | .erf f => Sys2Proof.Machine.execErf f s
  | .sinpi f => Sys2Proof.Machine.execSinpi f s
  | .cospi f => Sys2Proof.Machine.execCospi f s
  | .expm1 f => Sys2Proof.Machine.execExpm1 f s
  | .log1p f => Sys2Proof.Machine.execLog1p f s
  | .macq f => Sys2Proof.Machine.execMacq f s
  | .mrel f => Sys2Proof.Machine.execMrel f s
  | .mlds f => Sys2Proof.Machine.execMlds f s
  | .mswap f => Sys2Proof.Machine.execMswap f s
  | .mmul f => Sys2Proof.Machine.execMmul f s
  | .mcnt f => Sys2Proof.Machine.execMcnt f s
  | .cdrain f => Sys2Proof.Machine.execCdrain f s
  | .cmerge f => Sys2Proof.Machine.execCmerge f s
  | .cclr f => Sys2Proof.Machine.execCclr f s
  | .mdrain f => Sys2Proof.Machine.execMdrain f s
  | .mst f => Sys2Proof.Machine.execMst f s
  | .mstBank f => Sys2Proof.Machine.execMstBank f s
  | .mlda f => Sys2Proof.Machine.execMlda f s
  | .mzero f => Sys2Proof.Machine.execMzero f s
  | .mwait f => Sys2Proof.Machine.execMwait f s
  | .mchk f => Sys2Proof.Machine.execMchk f s
  | .mrd f => Sys2Proof.Machine.execMrd f s
  | .mwr f => Sys2Proof.Machine.execMwr f s
  | .crd f => Sys2Proof.Machine.execCrd f s
  | .msave f => Sys2Proof.Machine.execMsave f s
  | .mrest f => Sys2Proof.Machine.execMrest f s
  | .vote f => Sys2Proof.Machine.execVote f s
  | .shfl f => Sys2Proof.Machine.execShfl f s
  | .red f => Sys2Proof.Machine.execRed f s
  | .scan f => Sys2Proof.Machine.execScan f s
  | .matchL f => Sys2Proof.Machine.execMatchL f s
  | .elect f => Sys2Proof.Machine.execElect f s
  | .setpart f => Sys2Proof.Machine.execSetpart f s
  | .bra f => Sys2Proof.Machine.execBra f s
  | .brc f => Sys2Proof.Machine.execBrc f s
  | .brx f => Sys2Proof.Machine.execBrx f s
  | .call f => Sys2Proof.Machine.execCall f s
  | .calli f => Sys2Proof.Machine.execCalli f s
  | .ret f => Sys2Proof.Machine.execRet f s
  | .exitT f => Sys2Proof.Machine.execExitT f s
  | .meet f => Sys2Proof.Machine.execMeet f s
  | .nop f => Sys2Proof.Machine.execNop f s
  | .prefi f => Sys2Proof.Machine.execPrefi f s
  | .launch f => Sys2Proof.Machine.execLaunch f s
  | .yield f => Sys2Proof.Machine.execYield f s
  | .brcx f => Sys2Proof.Machine.execBrcx f s
  | .bari f => Sys2Proof.Machine.execBari f s
  | .bara f => Sys2Proof.Machine.execBara f s
  | .bars f => Sys2Proof.Machine.execBars f s
  | .barx f => Sys2Proof.Machine.execBarx f s
  | .post f => Sys2Proof.Machine.execPost f s
  | .waitC f => Sys2Proof.Machine.execWaitC f s
  | .trap f => Sys2Proof.Machine.execTrap f s
  | .tret f => Sys2Proof.Machine.execTret f s
  | .sysr f => Sys2Proof.Machine.execSysr f s
  | .sysw f => Sys2Proof.Machine.execSysw f s
  | .tinv f => Sys2Proof.Machine.execTinv f s
  | .cgenReg f => Sys2Proof.Machine.execCgenReg f s
  | .cgenLive f => Sys2Proof.Machine.execCgenLive f s
  | .cgenDrop f => Sys2Proof.Machine.execCgenDrop f s
  | .ld f => Sys2Proof.Machine.execLd f s
  | .st f => Sys2Proof.Machine.execSt f s
  | .lds f => Sys2Proof.Machine.execLds f s
  | .sts f => Sys2Proof.Machine.execSts f s
  | .ldr f => Sys2Proof.Machine.execLdr f s
  | .str f => Sys2Proof.Machine.execStr f s
  | .ldp f => Sys2Proof.Machine.execLdp f s
  | .stp f => Sys2Proof.Machine.execStp f s
  | .fence f => Sys2Proof.Machine.execFence f s
  | .cmo f => Sys2Proof.Machine.execCmo f s
  | .hbind f => Sys2Proof.Machine.execHbind f s
  | .stm f => Sys2Proof.Machine.execStm f s
  | .gath f => Sys2Proof.Machine.execGath f s
  | .pref f => Sys2Proof.Machine.execPref f s
  | .rlck f => Sys2Proof.Machine.execRlck f s
  | .rlrel f => Sys2Proof.Machine.execRlrel f s
  | .ldu f => Sys2Proof.Machine.execLdu f s
  | .atom f => Sys2Proof.Machine.execAtom f s
  | .cas f => Sys2Proof.Machine.execCas f s
  | .atoms f => Sys2Proof.Machine.execAtoms f s
  | .cass f => Sys2Proof.Machine.execCass f s
  | .radd f => Sys2Proof.Machine.execRadd f s
  | .raddg f => Sys2Proof.Machine.execRaddg f s
  | .acc f => Sys2Proof.Machine.execAcc f s
  | .kick f => Sys2Proof.Machine.execKick f s
  | .cancel f => Sys2Proof.Machine.execCancel f s
  | .clauseHeader h => Sys2Proof.Machine.execClauseHeader h s
  | .regroupPoint wid => Sys2Proof.Machine.execRegroupPoint wid s
  | .yieldExpiry wid => Sys2Proof.Machine.execYieldExpiry wid s
  | .waitEvaluation wid bid => Sys2Proof.Machine.execWaitEvaluation wid bid s
  | .waitTimeout wid bid => Sys2Proof.Machine.execWaitTimeout wid bid s
  | .handlerBudgetExpiry wid gid => Sys2Proof.Machine.execHandlerBudgetExpiry wid gid s
  | .emulationTimeout wid gid => Sys2Proof.Machine.execEmulationTimeout wid gid s
  | .loadReturn wid n => Sys2Proof.Machine.execLoadReturn wid n s
  | .sfuWriteBack core => Sys2Proof.Machine.execSfuWriteBack core s
  | .engineEntryPerform core => Sys2Proof.Machine.execEngineEntryPerform core s
  | .copyChunk core ch => Sys2Proof.Machine.execCopyChunk core ch s
  | .instructionFetch wid bid => Sys2Proof.Machine.execInstructionFetch wid bid s
  | .pageWalk core ctx va code => Sys2Proof.Machine.execPageWalk core ctx va code s
  | .packetAccept n => Sys2Proof.Machine.execPacketAccept n s
  | .packetAck n => Sys2Proof.Machine.execPacketAck n s
  | .flitCrcFailure link => Sys2Proof.Machine.execFlitCrcFailure link s
  | .linkDeath tether lost => Sys2Proof.Machine.execLinkDeath tether lost s
  | .routeLossTimeout dst => Sys2Proof.Machine.execRouteLossTimeout dst s
  | .hostWrite pitch off ws => Sys2Proof.Machine.execHostWrite pitch off ws s
  | .hostRead pitch off n => Sys2Proof.Machine.execHostRead pitch off n s
  | .hostCompletion pa ws error => Sys2Proof.Machine.execHostCompletion pa ws error s
  | .generationSweep core slot => Sys2Proof.Machine.execGenerationSweep core slot s
  | .admission rcb => Sys2Proof.Machine.execAdmission rcb s
  | .workgroupPlacement pitch => Sys2Proof.Machine.execWorkgroupPlacement pitch s
  | .gridCompletion grid => Sys2Proof.Machine.execGridCompletion grid s
  | .asyncEntry wid => Sys2Proof.Machine.execAsyncEntry wid s
  | .rlink pitch v => Sys2Proof.Machine.execRlink pitch v s
  | .rsync pitch v => Sys2Proof.Machine.execRsync pitch v s
  | .runlink pitch v => Sys2Proof.Machine.execRunlink pitch v s
  | .qdoor pitch v => Sys2Proof.Machine.execQdoor pitch v s
  | .edoor pitch v => Sys2Proof.Machine.execEdoor pitch v s
  | .preempt pitch => Sys2Proof.Machine.execPreempt pitch s
  | .kill pitch => Sys2Proof.Machine.execKill pitch s
  | .resume pitch => Sys2Proof.Machine.execResume pitch s
  | .preemptionDone pitch => Sys2Proof.Machine.execPreemptionDone pitch s
  | .killDone ctx => Sys2Proof.Machine.execKillDone ctx s
  | .resumptionDone pitch => Sys2Proof.Machine.execResumptionDone pitch s
  | .tlbinv pitch v => Sys2Proof.Machine.execTlbinv pitch v s
  | .contextBind pitch => Sys2Proof.Machine.execContextBind pitch s
  | .contextRelease pitch => Sys2Proof.Machine.execContextRelease pitch s
  | .contextWrite pitch => Sys2Proof.Machine.execContextWrite pitch s
  | .contextRead pitch => Sys2Proof.Machine.execContextRead pitch s
  | .apertureWrite pitch n word v => Sys2Proof.Machine.execApertureWrite pitch n word v s
  | .registerWrite block off v => Sys2Proof.Machine.execRegisterWrite block off v s
  | .getMeasurements index => Sys2Proof.Machine.execGetMeasurements index s
  | .sensorSample sample => Sys2Proof.Machine.execSensorSample sample s
  | .dumpComplete pitch => Sys2Proof.Machine.execDumpComplete pitch s
  | .notAnInstruction e => Sys2Proof.Machine.execNotAnInstruction e s
  | .scrubComplete bad => Sys2Proof.Machine.execScrubComplete bad s
  | .budgetPeriod => Sys2Proof.Machine.execBudgetPeriod s
  | .pitchCreate => Sys2Proof.Machine.execPitchCreate s
  | .pitchAddUnits => Sys2Proof.Machine.execPitchAddUnits s
  | .pitchRemoveUnits => Sys2Proof.Machine.execPitchRemoveUnits s
  | .drainTimeout => Sys2Proof.Machine.execDrainTimeout s
  | .pitchReset => Sys2Proof.Machine.execPitchReset s
  | .pitchDestroy => Sys2Proof.Machine.execPitchDestroy s
  | .rennetImageLoad => Sys2Proof.Machine.execRennetImageLoad s
  | .firmwareUpdate => Sys2Proof.Machine.execFirmwareUpdate s
  | .sensorSnapshot => Sys2Proof.Machine.execSensorSnapshot s
  | .logRead => Sys2Proof.Machine.execLogRead s
  | .bringUp => Sys2Proof.Machine.execBringUp s
  | .powerLoss => Sys2Proof.Machine.execPowerLoss s

end Sys2Proof.Machine
end

