-- ==== Sys2Proof/Machine/Patch.lean ====
section
/-!
DEFINITION. Decoding for a thread's N (R141, R142), and Rennet at decode (R143, R455–R462, R464): the slot that claims an
encoding, and its action: trap, rewrite, or emulate. `State.runOne` is the one place that runs an instruction.
-/

namespace Sys2Proof.Machine

/-! ## Decoding -/

/-- The instruction in 96 bits, for the issuing threads' N: where the encoding already fails a check, the lowest WHY of all
is reported, those that need N among them (R142). -/
def State.decoded (s : State) (v : BitVec 96) : Instr :=
  let n := s.curWg.nreg
  let redo (e : Illegal) (op : Op) (f : Fields) : Instr :=
    match lowest (f.whys op ++ nWhys op f n) with
    | some w => .notAnInstruction { e with why := BitVec.ofNat 4 w }
    | none => .notAnInstruction e
  match decode v with
  | .notAnInstruction e =>
    if e.fmt == 3 then .notAnInstruction e
    else if e.cmp then
      match copOf (v.extractLsb' 7 8).toNat with
      | some c => redo e c.op ((compactOf v).expand c.unary)
      | none => .notAnInstruction e
    else
      match opOf e.op.toNat (Sys2Proof.fieldsOf v) with
      | some op => redo e op (Sys2Proof.fieldsOf v)
      | none => .notAnInstruction e
  | i => i

/-- What `tinfo` says of an encoding that Rennet traps: WHY 11 (R458). -/
def claimedInfo (v : BitVec 96) : Illegal :=
  match (v.extractLsb' 0 2).toNat with
  | 0 =>
    match copOf (v.extractLsb' 7 8).toNat with
    | some c => ⟨11, 0, BitVec.ofNat 10 c.op.code, true⟩
    | none => ⟨11, 0, (v.extractLsb' 7 8).zeroExtend 10, true⟩
  | 3 => ⟨11, 3, 0, false⟩
  | _ => ⟨11, (fieldsOf v).fmt.code, v.extractLsb' 7 10, false⟩

/-! ## The claim (R456, R457) -/

/-- A claimed encoding: its slot, its fields by the layout of R125 (F32: the expansion of R130), its key, its length in
words, and whether its guard field is a guard. -/
structure Claim where
  n    : Nat
  slot : Slot
  v    : BitVec 96
  f    : Fields
  len  : Nat
  deriving DecidableEq, Repr

/-- The key of R456: the first two words; for F32 the first. -/
def keyOf (v : BitVec 96) : BitVec 64 :=
  if (v.extractLsb' 0 2).toNat = 0 then (v.extractLsb' 0 32).zeroExtend 64 else v.extractLsb' 0 64

/-- The fields of an original (R459). -/
def originalFields (v : BitVec 96) : Fields :=
  if (v.extractLsb' 0 2).toNat = 0 then
    (compactOf v).expand (match copOf (v.extractLsb' 7 8).toNat with
      | some c => c.unary
      | none => false)
  else fieldsOf v

/-- A decode slot matches an encoding in a bundle of a context (R456). -/
def State.matches (s : State) (c : Nat) (v : BitVec 96) (x : Slot) : Bool :=
  x.kind == 1 && (keyOf v ^^^ x.match_) &&& x.mask == 0 && x.applies c (s.ctx c).pitch

/-- An encoding that an image being loaded stalls at decode: a slot of its mask matches it, old or new (R466, step 1). -/
def State.loadStalls (s : State) (v : BitVec 96) : Bool :=
  s.rennet.loading.any fun x => (List.range 16).any fun k => x.1.getLsbD k &&
    (s.matches s.curCtx v (s.rennet.slots.getD k .unused) || s.matches s.curCtx v (x.2.getD k .unused))

/-- The decode slot that claims an encoding, if any (R456). -/
def State.claim (s : State) (v : BitVec 96) : Option Claim :=
  match bestSlot s.rennet.slots (s.matches s.curCtx v) with
  | some (n, x) => some ⟨n, x, v, originalFields v, wordsIn (v.extractLsb' 0 2)⟩
  | none => none

/-- The address after a claimed encoding. -/
def Claim.next (k : Claim) (pc : Addr) : Addr := pc + BitVec.ofNat 55 (4 * k.len)

/-- Every active lane qualifies: a guard field of 12, 13 or 14, or a clause header, which has no guard (R457, R135). -/
def Claim.unguarded (k : Claim) : Bool :=
  (12 ≤ k.f.g.toNat && k.f.g.toNat ≤ 14) || (k.v.extractLsb' 0 2).toNat == 3

/-- Active lanes whose guard predicate is bad (R22). -/
def State.claimBad (s : State) (k : Claim) : Word :=
  if k.unguarded then 0 else s.curWarp.maskOf fun l t => s.active l && k.f.g != 15 && t.predBad k.f.g.toNat

/-- The qualifying lanes of rewrite and emulate (R457). -/
def State.claimLanes (s : State) (k : Claim) : Word :=
  if k.unguarded then s.cur.mask
  else s.curWarp.maskOf fun l t => s.active l && !(s.claimBad k).getLsbD l && t.guard k.f.g

/-- The lanes of a mask that go on after a claimed encoding. -/
def State.passBy (s : State) (m : Word) (next : Addr) : State :=
  s.updWarp s.cur.wid fun w => w.mapLanes fun l t => if m.getLsbD l then { t.goto next with body := 0 } else t

/-- The clause window of the lanes of a mask closes (R135). -/
def State.closeWindow (s : State) (m : Word) : State :=
  s.updWarp s.cur.wid fun w => w.mapLanes fun l t => if m.getLsbD l then { t with window := 0, wmask := 0 } else t

/-- The traps of lanes with a bad guard predicate. -/
def State.claimTraps (s : State) (k : Claim) : List (Nat × Trap) := (lanesOf (s.claimBad k)).map fun l => (l, predTrap s.pc64)

/-- The core has issued one instruction more. -/
def State.count (s : State) : State := s.updCore s.curCore fun c => { c with issued := c.issued + 1 }

/-! ## Trap (R458) -/

/-- The trap action. -/
def State.claimTrap (s : State) (k : Claim) : State :=
  let info : Word :=
    if k.slot.cause = causeIllegal then illegalInfo (claimedInfo k.v) ||| BitVec.ofNat 32 (k.n * 2 ^ 17)
    else BitVec.ofNat 32 k.n
  s.trapActive ⟨k.slot.cause, info, s.pc64⟩

/-! ## Emulate (R461) -/

/-- `rnmr` as an emulation group finds it: the saved `mr` (R464). -/
def packMr (m : Option Addr) : BitVec 64 :=
  match m with
  | some a => a.zeroExtend 64 ||| (1#64 <<< 63)
  | none => 0

/-- The emulate action: the qualifying lanes run the routine, the others go on. -/
def State.claimEmulate (s : State) (k : Claim) : State :=
  let q := s.claimLanes k
  let bad := s.claimBad k
  let next := k.next s.cur.pc
  let s0 := s.count.drainUpTo fun e => q.getLsbD e.lane
  let s1 := s0.passBy (s.cur.mask &&& ~~~q &&& ~~~bad) next
  let s2 := (if q = s.cur.mask then s1 else s1.closeWindow (s.cur.mask &&& ~~~q)).updWarp s.cur.wid fun w =>
    { (w.mapLanes fun l t =>
        if q.getLsbD l then
          t.enter
            { gid := w.next, tfm := q, tam := s.cur.mask, tcause := 0, tinfo := BitVec.ofNat 32 k.n,
              tpc := next.zeroExtend 64, taddr := s.pc64, mr := none, since := s.time,
              emu := some { slot := k.n, key := keyOf k.v, lit := k.f.lit.getD 0, rnmr := packMr t.mr, addr := s.cur.pc,
                            dep := k.slot.dep, inner := t.inHandler },
              async := none, wrote := false, entry := none }
            (BitVec.ofNat 55 (routineBase + 4 * k.slot.routine)) w.next
        else t) with next := w.next + 1 }
  s2.trapLanes s.cur.wid s.cur.mask s.pc64 s.pc64 (s.claimTraps k)

/-- The routine of a boot slot (R467): the effect of its form, or in the qualifying lanes the `ILLEGAL` of R141. -/
def State.claimBoot (s : State) (k : Claim) : Out :=
  let i := s.decoded k.v
  let refuse (e : Illegal) : State :=
    let q := s.claimLanes k
    let s1 := (s.count.passBy (s.cur.mask &&& ~~~q &&& ~~~(s.claimBad k)) (k.next s.cur.pc)).closeWindow s.cur.mask
    s1.trapLanes s.cur.wid s.cur.mask s.pc64 s.pc64
      (s.claimTraps k ++ (lanesOf q).map fun l => (l, ⟨causeIllegal, illegalInfo e, s.pc64⟩))
  match i with
  | .notAnInstruction e => .next (refuse e)
  | i =>
    match i.view with
    | .full op f =>
      match lowest (nWhys op f s.curWg.nreg) with
      | some w => .next (refuse ⟨BitVec.ofNat 4 w, f.fmt.code, BitVec.ofNat 10 op.code, false⟩)
      | none =>
        match s.dependOn i with
        | none => .next s
        | some s1 => exec i s1
    | _ => exec i s

/-! ## Rewrite (R459) -/

/-- A field of a body entry with its uniform bit: its own, or the original's D9, A9, B9 or C9. -/
def pickField (o : Fields) (code : Nat) (own : BitVec 9 × Bool) : BitVec 9 × Bool :=
  match code with
  | 1 => (o.d, o.ud)
  | 2 => (o.a, o.ua)
  | 3 => (o.b, o.ub)
  | 4 => (o.c, o.uc)
  | _ => own

/-- The code of the original field that holds its immediate, when IM is set: A9 for a form whose immediate slot is A, else
B9 (DEDUCED, log 30). -/
def immCode (v : BitVec 96) (o : Fields) : Nat :=
  match opOf (v.extractLsb' 7 10).toNat o with
  | some op => if (op.form o).slot = 1 then 2 else 3
  | none => 3

/-- The encoding of a body entry with the original's fields put in; none: IM is placed where it may not be (WHY 7). -/
def bodyWord (k : Claim) (b : BitVec 96) (sel : BitVec 13) : Option (BitVec 96) :=
  let o := k.f
  let fb := fieldsOf b
  let code (i : Nat) : Nat := (sel.extractLsb' (3 * i) 3).toNat
  let (d, ud) := pickField o (code 0) (fb.d, fb.ud)
  let (a, ua) := pickField o (code 1) (fb.a, fb.ua)
  let (b9, ub) := pickField o (code 2) (fb.b, fb.ub)
  let (c, uc) := pickField o (code 3) (fb.c, fb.uc)
  let isImm := o.im && o.fmt != .f32
  let slot := immCode k.v o
  if isImm && (code 0 == slot || code 1 == slot || code 3 == slot || (slot != 3 && code 2 == slot)) then none
  else
    let im := if code 2 = 3 && isImm then true else fb.im
    let (fmt, b9) := match o.lit with
      | some l => if code 2 = 3 && isImm then (Fmt.f96 l, (0 : BitVec 9)) else (fb.fmt, b9)
      | none => (fb.fmt, b9)
    let low : BitVec 5 := BitVec.ofBool ud ++ BitVec.ofBool im ++ BitVec.ofBool uc ++ BitVec.ofBool ub ++ BitVec.ofBool ua
    let f : Fields :=
      { fmt := fmt, s := false, g := if sel.getLsbD 12 then o.g else fb.g, d := d, a := a, b := b9, c := c,
        m := (fb.m &&& ~~~0b11111#11) ||| low.zeroExtend 11 }
    let op := b.extractLsb' 7 10
    some (match fmt with
      | .f96 l => l ++ packFull 0b10 op f
      | _ => (0 : Word) ++ packFull 0b01 op f)

/-- The instruction of a body entry for the issuing threads. -/
def State.bodyInstr (s : State) (k : Claim) (b : BitVec 96) (sel : BitVec 13) : Instr :=
  match bodyWord k b sel with
  | some v => s.decoded v
  | none => .notAnInstruction ⟨7, (Sys2Proof.fieldsOf b).fmt.code, b.extractLsb' 7 10, false⟩

/-- Lanes of a mask that took a trap in an entry: they are in a group numbered from `n` up. -/
def Warp.newlyTrapped (w : Warp) (m : Word) (n : Nat) : Word :=
  w.maskOf fun l t => m.getLsbD l && t.frames.head?.any fun f => n ≤ f.gid

/-- A trap in a body entry is the original's: `taddr` too is its address, `tam` its active mask (R459). -/
def Thread.original (t : Thread) (tam : Word) : Thread :=
  match t.frames with
  | f :: fs => { t with frames := { f with taddr := f.tpc, tam := tam } :: fs }
  | [] => t

/-- A lane after a body entry, back at the original with its window. -/
def Thread.backTo (t : Thread) (old : Thread) (pc : Addr) (done : Nat) : Thread :=
  { t with pc := pc, window := old.window, wmask := 0, status := .ready, bid := old.bid, body := done }

/-- One body entry run in the lanes of the bundle: none when it has to wait; else the state with the lanes that completed it
back at the original, and those lanes. -/
def State.runEntry (s : State) (i : Instr) (done : Nat) (tam : Word) : Option (State × Word) :=
  let wid := s.cur.wid
  let w0 := s.curWarp
  match s.dependOn i with
  | none => none
  | some s1 =>
    match exec i s1 with
    | .next s2 =>
      let w2 := s2.warp wid
      if (s2.warps.get? wid).isNone then some (s2, 0)
      else if (s2.core s.curCore).issued == (s1.core s.curCore).issued then none
      else if (lanesOf s.cur.mask).any fun l => (w2.lane l).status == .arrived then none
      else
        let bad := w2.newlyTrapped s.cur.mask w0.next
        let ok := s.cur.mask &&& ~~~bad
        some (s2.updWarp wid fun w => w.mapLanes fun l t =>
          if bad.getLsbD l then t.original tam
          else if ok.getLsbD l then t.backTo (w0.lane l) s.cur.pc done
          else t, ok)
    | _ => none

/-- The body's entries run in order in the lanes that are left: the state, those lanes, and whether an entry waits. -/
def State.runBody (s : State) (k : Claim) (tam : Word) : Nat → List (BitVec 96 × BitVec 13) → State × Bool
  | _, [] => (s, false)
  | n, (b, sel) :: rest =>
    if s.cur.mask = 0 then (s, false)
    else
      match s.runEntry (s.bodyInstr k b sel) (n + 1) tam with
      | none => (s, true)
      | some (s1, m) => State.runBody { s1 with cur := ⟨s.cur.wid, m, s.cur.pc⟩ } k tam (n + 1) rest

/-- The rewrite action. Lanes whose guard is false go on; the others run the body from the first entry that they have not
completed. An entry that waits leaves its lanes at the original, in a bundle of their own, with that entry next; at the
end they go on together (R459, R457). -/
def State.claimRewrite (s : State) (k : Claim) : State :=
  let wid := s.cur.wid
  let begun := s.leader.body
  let q := if begun = 0 then s.claimLanes k else s.cur.mask
  let bad := if begun = 0 then s.claimBad k else 0
  let next := k.next s.cur.pc
  let entries := ((k.slot.body.zip k.slot.sel).take (k.slot.nseq + 1)).drop begun
  let (s1, waits) := State.runBody { s with cur := ⟨wid, q, s.cur.pc⟩ } k s.cur.mask begun entries
  let left := s1.cur.mask
  let s2 := { s1 with cur := s.cur }
  if (s2.warps.get? wid).isNone then s2
  else if waits && left = q && ((s2.warp wid).lane ((lowestLane left).getD 0)).body = begun then s
  else
    let s3 := s2.updCore s.curCore fun c => { c with issued := (s.core s.curCore).issued + 1 }
    let s4 := s3.passBy (s.cur.mask &&& ~~~q &&& ~~~bad) next
    let s5 :=
      if waits then s4.updWarp wid fun w =>
        { (w.mapLanes fun l t => if left.getLsbD l && t.body != 0 then { t with bid := w.next } else t) with next := w.next + 1 }
      else
        let t := s4.passBy left next
        if k.slot.dep then t.deprecated s.curCtx (lanesOf left).length else t
    let lost := s.cur.mask &&& ~~~left
    let s6 := if waits || lost &&& q != 0 || bad != 0 then s5.closeWindow s.cur.mask else s5
    let s7 := s6.trapLanes wid s.cur.mask s.pc64 s.pc64 (if bad = 0 then [] else s.claimTraps k)
    if k.f.s && !waits then s7.park wid (s.cur.mask &&& ~~~(lost &&& q) &&& ~~~bad) else s7

/-! ## One instruction -/

/-- The action of the slot that claims an encoding (R457). A slot of ACT 3 is in no image (R466). -/
def State.patched (s : State) (k : Claim) : Out :=
  if k.slot.ofBoot then s.claimBoot k
  else
    match k.slot.act with
    | 0 => .next (s.claimTrap k)
    | 1 => .next (s.claimRewrite k)
    | _ => .next (s.claimEmulate k)

/-- A form that only Rennet executes (R138): unclaimed, it is not an instruction (R467). -/
def unclaimed (i : Instr) : Instr :=
  match i with
  | .fmac f => .notAnInstruction ⟨0, f.fmt.code, BitVec.ofNat 10 Op.fmac.code, false⟩
  | .brcx f => .notAnInstruction ⟨0, f.fmt.code, BitVec.ofNat 10 Op.brcx.code, false⟩
  | i => i

end Sys2Proof.Machine
end

