-- ==== Sys2Proof/Machine/Ports.lean ====
section
/-!
DEFINITION. The issue cycle of a core: the ports and register banks that an instruction takes, and which instructions may share a
cycle (R394, R395).
-/

namespace Sys2Proof.Machine

/-- The port of an OP10 value: 0 vector, 1 SFU, 2 load/store, 3 ladle requests, 4 matrix engine, 5 control (R395). -/
def portOf (code : Nat) : Nat :=
  if code < 0x280 then 0
  else if code < 0x2A0 then 1
  else if code < 0x2C0 then 4
  else if code < 0x380 then 5
  else if code < 0x3E0 && code != Op.gath.code then 2
  else if code < 0x3F0 then 3
  else 5

/-- Instructions of a cycle that a port takes (R395). -/
def portWidth (port : Nat) : Nat := if port = 0 then 2 else 1

/-- A store reads its D operand. -/
def readsDest : Op → Bool
  | .st | .sts | .stp | .str | .stm => true
  | _ => false

/-- The vector registers that an instruction reads (R395): uniform ones are outside the bank rule. -/
def regsRead (op : Op) (f : Fields) : List Nat :=
  let fm := op.form f
  let rs := useRegs fm.a f.a f.ua (fm.slot == 1 && f.im) ++ useRegs fm.b f.b f.ub (fm.slot == 2 && f.im) ++
    useRegs fm.c f.c f.uc false ++ (if op == .bitfn then [(false, f.cN % 128)] else []) ++
    (if readsDest op then useRegs fm.d f.d f.ud false else [])
  (rs.filter fun r => !r.1).map (·.2)

/-- What an instruction of a bundle of some lanes takes, under a bank rotation (R395). -/
def portUse (op : Op) (f : Fields) (brot lanes : Nat) : PortUse :=
  let rs := regsRead op f
  { port := portOf op.code, banks := (List.range 4).map fun b => (rs.filter fun r => (r + brot) % 4 == b).length,
    long := portOf op.code == 1 && lanes == 32 }

/-- What the next instruction of a bundle takes. A bundle that cannot fetch takes the control port. -/
def State.portsOf (s : State) (wid bid : Nat) : PortUse :=
  let s0 := s.atBundle wid bid
  let n := (lanesOf s0.cur.mask).length
  let b := (s.gridOf wid).brot
  match s0.fetch with
  | (s1, .ok ws) => match (s1.decoded (bitsOfWords ws)).view with
    | .full op f => portUse op f b n
    | .compact op c => portUse op.op (c.expand op.unary) b n
    | .header _ | .event => ⟨5, [0, 0, 0, 0], false⟩
  | _ => ⟨5, [0, 0, 0, 0], false⟩

/-- An instruction cannot issue beside those taken (R395): its port is full, a bank would give more than two registers, or one of
them needs three reads of a bank and so issues alone. -/
def PortUse.clashes (x : PortUse) (ts : List PortUse) : Bool :=
  let most (u : PortUse) : Bool := u.banks.any fun n => 3 ≤ n
  decide (portWidth x.port ≤ (ts.filter fun u => u.port == x.port).length) || most x || ts.any most ||
    (List.range 4).any fun b => 2 < x.banks.getD b 0 + (ts.map fun u => u.banks.getD b 0).sum

/-- What still holds a port after the cycle: a 32-lane SFU instruction, for one cycle more (R201, R395). -/
def longUses (ts : List PortUse) : List PortUse := ((ts.filter (·.long)).take 2).map fun u => { u with banks := [0, 0, 0, 0] }

end Sys2Proof.Machine
end

