-- ==== Sys2Proof/Machine/Issue.lean ====
section
/-!
DEFINITION. One move of the device: a bundle issues its next instruction, in the order of R331; or another agent moves.
Which agent moves where the manual leaves it open is read from the agenda, or taken from those that are due (log 2).
-/

namespace Sys2Proof.Machine

/-! ## What comes before an instruction (R331, R203, R296) -/

/-- The pitch of a core is frozen: nothing on it moves (R453). -/
def State.frozenCore (s : State) (core : Nat) : Bool := (s.pitch (s.corePitch core)).frozen

/-- Lanes of a bundle take traps that are pending before the instruction; the clause window closes (R135). -/
def State.pendingTraps (s : State) (ts : List (Nat × Trap)) : State :=
  (s.count.closeWindow s.cur.mask).trapLanes s.cur.wid s.cur.mask s.leader.fullPc s.leader.fullPc ts

/-- Failed SFU write-backs of the bundle's lanes (R203). -/
def State.sfuPending (s : State) : List (Nat × Trap) :=
  (lanesOf s.cur.mask).filterMap fun l => ((s.curWarp.lane l).sfuFails.head?).map fun pc => (l, sfuTrap pc)

/-- A lane's engine trap that may be taken: in handler mode bit 1 of `tmask` defers it (R336). -/
def State.engPending (s : State) : List (Nat × EngineTrap) :=
  (lanesOf s.cur.mask).filterMap fun l =>
    let t := s.curWarp.lane l
    if t.inHandler && s.curWarp.tmask.getLsbD 1 then none else (t.engTraps.head?).map fun x => (l, x)

/-- The first pending engine trap of each lane is taken, in place of the lane's next instruction (R296, R300, R331). -/
def State.takeEngine (s : State) (xs : List (Nat × EngineTrap)) : State :=
  let wid := s.cur.wid
  let n := s.curWarp.next
  let s1 := s.updWarp wid fun w => w.mapLanes fun l t =>
    if xs.any fun x => x.1 == l then { t with engTraps := t.engTraps.drop 1 } else t
  (s1.pendingTraps (xs.map fun x => (x.1, x.2.trap))).updWarp wid fun w => w.mapLanes fun l t =>
    match xs.find? fun x => x.1 == l, t.frames with
    | some x, f :: fs => if n ≤ f.gid then { t with frames := { f with entry := x.2.entry } :: fs } else t
    | _, _ => t

/-- The space in which an access of a thread is compared with the range locks: scratchpad or not; none for what makes no
comparison (R402). -/
def comparedSpace : Op → Option Bool
  | .ld | .st | .ldp | .stp | .ldu | .atom | .cas | .raddg => some false
  | .lds | .sts | .ldr | .str | .stm | .atoms | .cass | .radd => some true
  | _ => none

/-- A load, store or atomic whose comparison meets a range-lock entry with copies that disagree: an entry of its context and space,
and for a scratchpad access of its workgroup (R402, R404). -/
def State.badLock (s : State) (i : Instr) : Option Lock :=
  let met (op : Op) (g : BitVec 4) : Option Lock :=
    match comparedSpace op with
    | none => none
    | some pad =>
      if s.qualifying g == 0 then none
      else ((s.core s.curCore).locks.find? fun e =>
        e.2.bad && e.2.ctx == s.curCtx && e.2.pad == pad && (!pad || e.2.slot == wgKey s.cur.wid % 16)).map (·.2)
  match i.view with
  | .full op f => met op f.g
  | .compact op c => met op.op (c.expand op.unary).g
  | .header _ | .event => none

/-! ## Issue -/

/-- An instruction that no slot claims: it is compared with the range locks, waits for what it depends on, and runs. -/
def State.runOne (s : State) (i : Instr) : Out :=
  match s.badLock i with
  | some l =>
    let r := s.errorRecord 8 l.ctx s.curCore 0 1
    .next ((s.reportError (s.ctx l.ctx).pitch r).kill l.ctx 2 (some r))
  | none =>
    match s.dependOn i with
    | none => .next s
    | some s1 => exec i s1

/-- The words at a bundle's PC decoded and run: through Rennet where a slot claims them (R143); stalled where an image that is being
loaded stalls them, a rewrite under way apart (R466). -/
def State.issueWords (s : State) (ws : List Word) : Out :=
  let v := bitsOfWords ws
  if s.loadStalls v && s.leader.body == 0 then .next s
  else match s.claim v with
  | some k => s.patched k
  | none => s.runOne (unclaimed (s.decoded v))

/-- The classes that the bundle's lanes wait for before the first instruction of their window (R135). -/
def State.waitMask (s : State) : BitVec 16 := (lanesOf s.cur.mask).foldl (fun m l => m ||| (s.curWarp.lane l).wmask) 0

/-- The next instruction of the bundle is fetched and issued. -/
def State.issueNext (s : State) : Out :=
  match if s.waitMask = 0 then some s else s.clauseWait s.waitMask with
  | none => .next s
  | some s1 =>
    match s1.fetch with
    | (s2, .error (.trap t)) => .next (s2.fetchFails t)
    | (_, .error _) => .next s
    | (s2, .ok ws) => s2.issueWords ws

/-- A bundle issues: at its boundary the first that is due of an asynchronous entry, a failed SFU write-back, an engine
trap, and the instruction (R331). A rewrite under way has no boundary (R457). -/
def State.issueBundle (s : State) (wid bid : Nat) : Out :=
  if s.frozenCore (warpCore wid) || s.halted wid then .next s
  else if (s.warp wid).asyncDue then exec (.asyncEntry wid) s
  else
    let s0 := s.atBundle wid bid
    if s0.cur.mask = 0 then .next s
    else if s0.leader.body != 0 then s0.issueNext
    else if !s0.sfuPending.isEmpty then .next (s0.pendingTraps s0.sfuPending)
    else if !s0.engPending.isEmpty then .next (s0.takeEngine s0.engPending)
    else s0.issueNext

/-! ## Which bundle issues (R71, R72, R135, R393–R395) -/

/-- A bundle of a warp has moved between two states: an instruction has issued or trapped, an asynchronous entry was due, or the warp
is gone. -/
def State.moved (s t : State) (wid : Nat) : Bool :=
  (s.warp wid).asyncDue || (t.core (warpCore wid)).issued != (s.core (warpCore wid)).issued || (t.warps.get? wid).isNone

/-- A bundle moves when it is let issue. -/
def State.moves (s : State) (wid bid : Nat) : Bool :=
  match s.issueBundle wid bid with
  | .next t => s.moved t wid
  | _ => true

/-- The state with no budget exhausted. -/
def State.unlimited (s : State) : State :=
  { s with grids := s.grids.mapv fun _ g => { g with fields := g.fields.mapv fun _ xs => xs.take 8 ++ List.replicate 6 0xFFFFFFFF } }

/-- The bundles of a warp that may issue. -/
def Warp.bids (w : Warp) : List Nat := firsts ((w.lanes.filter fun t => t.canIssue t.bid).map (·.bid))

/-- The bundles of a core. -/
def State.bundlesOn (s : State) (core : Nat) : List (Nat × Nat) :=
  (s.warps.filter fun e => warpCore e.1 == core).flatMap fun e => e.2.bids.map fun b => (e.1, b)

/-- The age of a bundle: that of its oldest thread (R394). -/
def State.ageOf (s : State) (wid bid : Nat) : Nat :=
  (((s.warp wid).lanes.filter (·.canIssue bid)).map (·.age)).foldl min s.cycle

/-- A bundle is inside a clause window (R135). -/
def State.inWindow (s : State) (wid bid : Nat) : Bool := (s.warp wid).lanes.any fun t => t.canIssue bid && t.window != 0

/-- A bundle outside any clause window has a sibling inside one that can move: it waits for it (R135). -/
def State.behindWindow (s : State) (wid bid : Nat) : Bool :=
  !s.inWindow wid bid && (s.warp wid).bids.any fun b => s.inWindow wid b && s.moves wid b

/-- The bundles of the core that stand before a bundle: older ones, and for a sibling the bundle of its warp that is inside a clause
window (R394, R135); those of them that cannot move now, or wait for a window themselves, do not count. -/
def State.ahead (s : State) (wid bid : Nat) : List (Nat × Nat) :=
  (s.bundlesOn (warpCore wid)).filter fun b =>
    b != (wid, bid) && ((decide (s.ageOf b.1 b.2 < s.ageOf wid bid) && !s.behindWindow b.1 b.2) ||
      (b.1 == wid && s.inWindow b.1 b.2 && !s.inWindow wid bid)) && s.moves b.1 b.2

/-- A bundle may issue now (R394): nothing stands before it; or it is the first that can share the cycle with the instruction in
the first slot, and each bundle before it cannot. A clause window is not interrupted so (R135). -/
def State.mayIssue (s : State) (wid bid : Nat) : Bool :=
  let taken := (s.core (warpCore wid)).taken
  let bs := s.ahead wid bid
  bs.isEmpty || (!taken.isEmpty && !(s.portsOf wid bid).clashes taken &&
    bs.all fun b => (s.portsOf b.1 b.2).clashes taken && !(b.1 == wid && s.inWindow b.1 b.2))

/-- The ages of the threads of a core after a bundle of some lanes has issued (R394): its threads become ready anew, and those of a
bundle that waits for something else than a budget have yet to become ready (R72; DEDUCED, log 114). -/
def State.aged (s : State) (wid bid : Nat) (mask : Word) : State :=
  let waiting := (s.bundlesOn (warpCore wid)).filter fun b => b != (wid, bid) && !s.unlimited.moves b.1 b.2
  { s with warps := s.warps.mapv fun w x =>
      if warpCore w == warpCore wid then
        x.mapLanes fun l t =>
          if w == wid && mask.getLsbD l then { t with age := s.cycle }
          else if waiting.any fun b => b.1 == w && t.canIssue b.2 then { t with age := s.cycle + 1 } else t
      else x }

/-- The slots of the issue cycle of a core after an instruction has issued, in the first slot or beside what was there (R394,
R395). -/
def Core.take (c : Core) (u : PortUse) (first : Bool) : Core := { c with taken := (if first then [u] else []) ++ longUses c.taken }

/-- What follows the issue of a bundle, from the state before it: ages and slots, and the meeting points of its warp looked at again
(R57). -/
def State.settled (t s : State) (wid bid : Nat) : State :=
  if s.moved t wid then
    ((t.aged wid bid (s.bundleMask wid bid)).updCore (warpCore wid) fun c =>
      c.take (s.portsOf wid bid) (s.ahead wid bid).isEmpty).releaseHeld wid
  else t

/-- A bundle issues, where it may. -/
def State.issueNow (s : State) (wid bid : Nat) : Out :=
  if s.mayIssue wid bid then
    match s.issueBundle wid bid with
    | .next t => .next (t.settled s wid bid)
    | o => o
  else .next s

/-! ## Other moves -/

/-- The core that an event happens on, if it happens on one. -/
def coreOfEvent (i : Instr) : Option Nat :=
  match i with
  | .regroupPoint wid | .yieldExpiry wid | .asyncEntry wid => some (warpCore wid)
  | .waitEvaluation wid _ | .waitTimeout wid _ | .handlerBudgetExpiry wid _ | .emulationTimeout wid _
  | .loadReturn wid _ | .instructionFetch wid _ => some (warpCore wid)
  | .sfuWriteBack c | .engineEntryPerform c | .copyChunk c _ => some c
  | _ => none

/-- The two copies of a range-lock entry come to disagree (R404). -/
def State.upsetLock (s : State) (core n : Nat) : State :=
  s.updCore core fun c => { c with locks := c.locks.mapv fun k l => if k = n then { l with bad := true } else l }

/-- The second copy of a predicate flips (R22). -/
def State.upsetPred (s : State) (wid l p : Nat) : State :=
  s.updWarp wid fun w => w.updLane l fun t => { t with preds' := t.preds' ^^^ (1#12 <<< p) }

/-- A write of some bytes of a pitch's register (R9). `rlink`, `rsync`, `runlink` and `tlbinv` start an operation, and are ignored
while one runs (R381, R418); the others act at once. A frozen pitch (R453), or one whose link is down (R445), takes no write. -/
def State.writeBytes (s : State) (p off : Nat) (v : BitVec 64) (bytes : BitVec 8) : Out :=
  let x := s.mergeReg p off v bytes
  let q := s.pitch p
  let run (s : State) : State := { s with agenda := s.agenda ++ [.regRun p off x] }
  if q.frozen || s.linkDown p then .next s
  else match off with
  | 0x000 | 0x008 | 0x010 =>
    .next (if q.rlstat.getLsbD 4 then s else run (s.updPitch p fun q => { q with rlstat := q.rlstat ||| 0x10 }))
  | 0x030 => .next (if q.tlbBusy then s else run (s.updPitch p fun q => { q with tlbBusy := true }))
  | _ => exec (regEvent p off x) s

/-- The operation that a register write has set off runs, and BUSY clears (R381, R418). -/
def State.runReg (s : State) (p off : Nat) (v : BitVec 64) : Out :=
  exec (regEvent p off v) (s.updPitch p fun q => if off = 0x030 then { q with tlbBusy := false } else q)

/-- A register operation that comes as an event meets one that still runs, a frozen pitch or one whose link is down, and is ignored
(R381, R418, R453, R445). -/
def State.regBusy (s : State) (i : Instr) : Bool :=
  match i with
  | .rlink p _ | .rsync p _ | .runlink p _ => (s.pitch p).rlstat.getLsbD 4 || (s.pitch p).frozen || s.linkDown p
  | .tlbinv p _ => (s.pitch p).tlbBusy || (s.pitch p).frozen || s.linkDown p
  | .qdoor p _ | .edoor p _ | .apertureWrite p _ _ _ => (s.pitch p).frozen || s.linkDown p
  | .registerWrite (.pitch p) _ _ => s.linkDown p
  | _ => false

/-- A host's read of a pitch's register (R381). -/
def State.readReg (s : State) (p off : Nat) : State :=
  if (s.pitches.get? p).isNone || s.linkDown p then s.report (.unsupported p)
  else
    let v := s.regValue p (off / 8 * 8)
    s.report (.read p [v.extractLsb' 0 32, v.extractLsb' 32 32] false)

/-- One move. An encoded instruction is no event: it comes by issue alone. -/
def State.perform (s : State) (p : Pick) : Out :=
  match p with
  | .issue wid bid => s.issueNow wid bid
  | .event i =>
    if !i.isEvent || (coreOfEvent i).any s.frozenCore || s.regBusy i then .next s else exec i s
  | .elapse _ => .next s
  | .evict core pa => .next (s.evictWord core pa)
  | .viewOut key => .next (s.viewOut key)
  | .badHeader n => .next (s.badHeader n)
  | .replay src => .next (s.replay src)
  | .flitPassed link => .next (s.flitPassed link)
  | .trainPort port own peer => .next (s.trainPort port own peer)
  | .peerAccess port dev src p iwin off op => .next (s.peerAccess port dev src p iwin off op)
  | .peerMemory pa ws => .next (s.peerMemory pa ws)
  | .regBytes p off v bytes => s.writeBytes p off v bytes
  | .regRun p off v => s.runReg p off v
  | .regRead p off => .next (s.readReg p off)
  | .mailRead off => .next (s.report (.mailValue (s.lantern.mailValue (off / 8 * 8))))
  | .fetchAhead core id => .next (if s.frozenCore core then s else s.fetchAhead core id)
  | .upset cls core c pa => .next (s.upset cls core c pa)
  | .sfuFault core => .next (s.failSfu core)
  | .lockUpset core n => .next (s.upsetLock core n)
  | .predUpset wid l p => .next (s.upsetPred wid l p)

/-! ## The moves that are due (log 2) -/

/-- Moves of a warp that may do something. -/
def dueOfWarp (wid : Nat) (w : Warp) : List Pick :=
  let waits := firsts ((w.lanes.filterMap fun t => match t.status with
    | .waiting _ _ => some t.bid
    | _ => none))
  let groups := firsts (w.lanes.flatMap fun t => if t.live then t.frames.map (·.gid) else [])
  w.bids.map (.issue wid) ++
    (if w.lanes.any fun t => t.status == .joining || t.status == .parked || t.held then [.event (.regroupPoint wid)] else []) ++
    (if w.lanes.any fun t => match t.status with
        | .yielded _ _ => true
        | _ => false then [.event (.yieldExpiry wid)] else []) ++
    waits.flatMap (fun b => [.event (.waitEvaluation wid b), .event (.waitTimeout wid b)]) ++
    w.loads.map (fun e => .event (.loadReturn wid e.1)) ++
    (if w.asyncDue then [.event (.asyncEntry wid)] else []) ++
    groups.flatMap (fun g => [.event (.emulationTimeout wid g), .event (.handlerBudgetExpiry wid g)])

/-- Moves of a core's engines, and the dirty words of its L1 that it may write back. -/
def dueOfCore (core : Nat) (c : Core) : List Pick :=
  (if c.sfu.isEmpty then [] else [.event (.sfuWriteBack core)]) ++
    (if c.engine.queue.isEmpty then [] else [.event (.engineEntryPerform core)]) ++
    ((c.engine.queue.take 5).filter fun e => e.ahead.isEmpty && !e.stuck).map (fun e => .fetchAhead core e.id) ++
    ((List.range 4).filter fun ch => !(c.queues.getD ch []).isEmpty).map (fun ch => .event (.copyChunk core ch)) ++
    c.sweeps.map (fun x => .event (.generationSweep core x.slot)) ++
    (c.dirty.filter fun e => !c.held.contains (e.1 / 128)).map (fun e => .evict core e.1)

/-- Moves of a pitch and its regions. -/
def dueOfPitch (p : Nat) (q : Pitch) : List Pick :=
  [.event (.workgroupPlacement p)] ++
    (if q.frozen && !q.dumped then [.event (.dumpComplete p)] else []) ++
    (match q.reqOp with
     | 1 => [.event (.preemptionDone p)]
     | 3 => [.event (.resumptionDone p)]
     | _ => [])

/-- The moves that are due when the agenda is empty. -/
def State.due (s : State) : List Pick :=
  if s.life == .dark then []
  else if s.life != .up then [.event .bringUp]
  else
    s.warps.flatMap (fun e => dueOfWarp e.1 e.2) ++ s.cores.flatMap (fun e => dueOfCore e.1 e.2) ++
      (s.views.filter fun e => e.2.dirty.isSome).map (fun e => .viewOut e.1) ++
      s.fabric.packets.map (fun k =>
        if k.done then .event (.packetAck k.id) else if k.sent then .event (.packetAccept k.id) else .replay k.src) ++
      s.fabric.lost.map (fun e => .event (.routeLossTimeout e.1)) ++
      ((s.regions.filter fun e => e.2.qhead != e.2.qtail).map fun e => .event (.admission e.1)) ++
      s.pitches.flatMap (fun e => dueOfPitch e.1 e.2) ++ s.grids.map (fun e => .event (.gridCompletion e.1)) ++
      ((s.ctxs.filter fun e => e.2.retired).map fun e => .event (.killDone e.1)) ++
      (match s.mailEvent with
       | some i => [.event i]
       | none => []) ++
      (if s.lantern.partition.isSome then [.event .drainTimeout, .event (.scrubComplete [])] else [])

/-- What is due, in the order of its turns: first what has waited since an earlier choice, so that nothing waits for ever (R71). -/
def State.turns (s : State) : List Pick :=
  let ds := s.due
  (s.rota.filter ds.contains) ++ ds.filter fun p => !s.rota.contains p

/-- The next move, and the state that is left of the agenda, or with an empty agenda of what is due; else a cycle passes. -/
def State.nextPick (s : State) : Pick × State :=
  match s.agenda with
  | p :: ps => (p, { s with agenda := ps })
  | [] => match s.turns with
    | p :: ps => (p, { s with rota := ps })
    | [] => (.elapse 1, { s with rota := [] })

/-! ## Time -/

/-- Cycles that a move takes: one, or those that pass. -/
def Pick.cycles : Pick → Nat
  | .elapse n => max n 1
  | _ => 1

/-- Cycles of a budget period: 100 ticks of 12.5 cycles (R392, R3). -/
def periodCycles : Nat := 1250

/-- The activities that are stalled, with the time since which each has waited: bundles that cannot move, and the engines' next
work (R393). -/
def State.stalled (s : State) : List (Nat × Pick) :=
  (s.cores.map (·.1)).flatMap (fun core => (s.bundlesOn core).filterMap fun b =>
    if s.moves b.1 b.2 then none else some (s.ageOf b.1 b.2, .issue b.1 b.2)) ++
  s.cores.flatMap fun e =>
    (e.2.engine.queue.head?.toList.map fun x => (x.since, .event (.engineEntryPerform e.1))) ++
    (List.range 4).filterMap fun ch => ((e.2.queues.getD ch []).head?).map fun r => (r.since, .event (.copyChunk e.1 ch))

/-- The clock after a move. A budget period that begins is due (R392), twice where more of them have passed, after which nothing is
carried on (R393); then the stalled activities are tried again in the order of their age, before newer ones (R393). -/
def State.tick (s : State) (n : Nat) : State :=
  let c := s.cycle + n
  let k := c / periodCycles - s.cycle / periodCycles
  { s with cycle := c
           agenda := if k = 0 then s.agenda else
             List.replicate (min k 2) (.event .budgetPeriod) ++ (s.stalled.mergeSort fun a b => a.1 ≤ b.1).map (·.2) ++ s.agenda }

end Sys2Proof.Machine
end

