-- ==== Sys2Proof/Machine/Step.lean ====
section
/-!
DEFINITION. One step of the device, and a state in which the next step issues one given instruction.
-/

namespace Sys2Proof.Machine

/-- One step: the agent at the head of the agenda moves, or with an empty agenda one that is due; then time passes. A device
without power does nothing until power returns (R472, R475). -/
def step (s : State) : Host.Outcome State Fault Refusal :=
  if s.life == .dead && s.agenda.head? != some (.event .bringUp) then .fault .noPower
  else
    let x := s.nextPick
    match x.2.perform x.1 with
    | .next s1 => .next (s1.tick x.1.cycles)
    | o => o

/-- The code address of the placed instruction: its page is mapped onto itself in the core's instruction buffer. -/
def placedAt : Nat := 0x10000

/-- The thread that issues the placed instruction, as a launch leaves it (R18). -/
def placedThread : Thread := { Thread.absent with status := .ready, pc := BitVec.ofNat 55 placedAt, csp := 0x20000 }

/-- The grid of the placed instruction: privileged, one thread, 512 registers. -/
def placedGrid : Grid := { Grid.absent with ctx := 1, entry := BitVec.ofNat 55 placedAt, nreg := 512, slines := 8, priv := true }

/-- The workgroup of the placed instruction, with 1 KiB of scratchpad. -/
def placedWg : Workgroup := { Workgroup.absent with grid := 1, ctx := 1, warps := 1, nreg := 512, spad := 1024, ended := false }

/-- `s` with an instruction placed where the next step fetches (log 1): a device that is up, with the boot slots of Rennet
(R467), and in slot 0 of core 0 a workgroup of one thread whose PC is the instruction's address. This stands for
everything from bring-up to the launch of a grid. -/
def State.withFetchWord (s : State) (nbits w : Nat) : State :=
  let v := w % 2 ^ nbits
  let words := (List.range 3).map fun k => CWord.gen (BitVec.ofNat 32 (v / 2 ^ (32 * k)))
  let s1 := s.updCore 0 fun c =>
    { c with itlb := [⟨1, placedAt, false, placedAt, false, true, true⟩], icache := [] }
  { s1 with
    life := .up
    agenda := .issue 0 0 :: s.agenda
    warps := s.warps.put 0 { Warp.absent with lanes := placedThread :: List.replicate 31 .absent, next := 1 }
    wgs := s.wgs.put 0 placedWg
    grids := s.grids.put 1 placedGrid
    ctxs := s.ctxs.put 1 Context.absent
    pitches := s.pitches.put 0 { Pitch.reset with units := 1, ctxLo := 1, ctxN := 1 }
    units := s.units.put 0 0
    rennet := bootRennet
    mem := s.mem.setWords placedAt words }

end Sys2Proof.Machine
end

