-- ==== Sys2Proof/Safety.lean ====
section
/-!
DEFINITION. The terms that claims use: when an instruction meets no trap and no wait, what it means that its bundle
completes it, and what stays as it was. Every term is a decidable proposition on a state.
-/

namespace Sys2Proof.Machine

/-! ## Before an instruction -/

/-- The opcode and the fields that an instruction stands for; a compact form stands for its expansion (R130). -/
def partsOf (i : Instr) : Option (Op × Fields) :=
  match i.view with
  | .full op f => some (op, f)
  | .compact op c => some (op.op, c.expand op.unary)
  | .header _ | .event => none

/-- The warp of the bundle is there, with its 32 lanes (R18). -/
abbrev State.Bundled (s : State) : Prop := (s.warps.get? s.cur.wid).isSome = true ∧ s.curWarp.lanes.length = 32

/-- The checks at decode find nothing: no WHY of R141, and privilege where the opcode asks for it (R137). -/
abbrev State.Decodes (s : State) (op : Op) (f : Fields) : Prop :=
  lowest (f.whys op ++ nWhys op f s.curWg.nreg) = none ∧ (op.privileged && !s.curPriv) = false

/-- A lane of the bundle whose guard is true (R23). -/
abbrev State.Runs (s : State) (f : Fields) (l : Nat) : Prop :=
  s.active l = true ∧ (s.curWarp.lane l).guard f.g = true

/-- The lanes that run, in ascending order. -/
def State.running (s : State) (f : Fields) : List Nat := lanesOf (s.qualifying f.g)

/-- The guard predicates of the active lanes are good (R22). -/
abbrev State.Guards (s : State) (f : Fields) : Prop :=
  ∀ l < 32, s.active l = true → (f.g != 15 && (s.curWarp.lane l).predBad f.g.toNat) = false

/-- The sources of the lanes that run are good words (R110). -/
abbrev State.Reads (s : State) (f : Fields) (src : Thread → List Source) : Prop :=
  ∀ l < 32, s.Runs f l → checkSources (src (s.curWarp.lane l)) s.pc64 = none

/-- No injection is armed on the core (R119). -/
abbrev State.Quiet (s : State) : Prop := (s.core s.curCore).finj.getLsbD 0 = false

/-- Nothing stands in the way of an instruction: its bundle is there, it decodes, its guards are good, and no injection is
armed. -/
abbrev State.Clear (s : State) (op : Op) (f : Fields) : Prop :=
  s.Bundled ∧ s.Decodes op f ∧ s.Guards f ∧ s.Quiet

/-! ## After an instruction -/

/-- The bundle has completed an instruction: every active lane goes on at the next address and took no trap. -/
abbrev State.Passed (s t : State) (next : Addr) : Prop :=
  ∀ l < 32, s.active l = true →
    ((t.warp s.cur.wid).lane l).pc = next ∧ ((t.warp s.cur.wid).lane l).frames = (s.curWarp.lane l).frames

/-- Lanes outside the bundle keep everything. -/
abbrev State.OthersKeep (s t : State) : Prop :=
  ∀ l < 32, s.active l = false → (t.warp s.cur.wid).lane l = s.curWarp.lane l

/-- Everything that is not part of a warp or a core is as before: memory, workgroups, grids, contexts, pitches, Rennet,
the fabric, Lantern. -/
abbrev State.SameDevice (s t : State) : Prop := t = { s with warps := t.warps, cores := t.cores }

/-- Other warps are as before, and of the cores only this one's count of issued bundles has changed. -/
abbrev State.SameElsewhere (s t : State) : Prop :=
  (∀ v, v ≠ s.cur.wid → t.warp v = s.warp v) ∧ (∀ c, c ≠ s.curCore → t.core c = s.core c) ∧
    t.core s.curCore = { s.core s.curCore with issued := (t.core s.curCore).issued }

/-- What a warp holds apart from its lanes and uniform registers is as before. -/
abbrev State.SameWarp (s t : State) : Prop :=
  t.warp s.cur.wid = { s.curWarp with lanes := (t.warp s.cur.wid).lanes, wregs := (t.warp s.cur.wid).wregs }

/-- A lane keeps everything but its PC, its clause window, its status and the mark of a switch marker, and the registers, predicates
and flags that an instruction may write. -/
abbrev Thread.KeptBut (t u : Thread) : Prop :=
  u = { t with pc := u.pc, window := u.window, wmask := u.wmask, status := u.status, parks := u.parks, regs := u.regs,
               preds := u.preds, preds' := u.preds', fflags := u.fflags }

/-- A lane keeps everything but its PC, its clause window, its status and the mark of a switch marker. -/
abbrev Thread.KeptAll (t u : Thread) : Prop :=
  u = { t with pc := u.pc, window := u.window, wmask := u.wmask, status := u.status, parks := u.parks }

/-- The bundle only moved on: nothing else of its lanes, of its warp or of the device has changed. -/
abbrev State.OnlyMoved (s t : State) (next : Addr) : Prop :=
  s.Passed t next ∧ s.OthersKeep t ∧ s.SameDevice t ∧ s.SameElsewhere t ∧ s.SameWarp t ∧
    (t.warp s.cur.wid).wregs = s.curWarp.wregs ∧
    ∀ l < 32, (s.curWarp.lane l).KeptAll ((t.warp s.cur.wid).lane l)

/-- A lane goes on as `x`; its bundle number, window, status and ready time are the bundle's business. -/
abbrev Thread.GoesOn (x u : Thread) : Prop :=
  u = { x with bid := u.bid, window := u.window, wmask := u.wmask, status := u.status, parks := u.parks, age := u.age }

/-- The lanes of the bundle that are ready form one bundle for each address (R54), where the bundle was well-formed. -/
abbrev State.Splits (s t : State) : Prop :=
  (∀ l < 32, s.active l = true →
      (s.curWarp.lane l).status = .ready ∧ (s.curWarp.lane l).bid = (s.curWarp.lane ((lowestLane s.cur.mask).getD 0)).bid ∧
        (s.curWarp.lane l).bid < s.curWarp.next) →
    ∀ l < 32, ∀ k < 32, s.active l = true → s.active k = true →
      ((t.warp s.cur.wid).lane l).status = .ready → ((t.warp s.cur.wid).lane k).status = .ready →
      (((t.warp s.cur.wid).lane l).bid = ((t.warp s.cur.wid).lane k).bid ↔
        ((t.warp s.cur.wid).lane l).pc = ((t.warp s.cur.wid).lane k).pc)

/-- A segment end: each lane that runs becomes what `g` names, the others of the bundle go to the next instruction, and the
bundle splits; of the other lanes at most a parked callee group is set free (R212). -/
abbrev State.Went (s t : State) (f : Fields) (g : Nat → Thread → Thread) : Prop :=
  s.SameDevice t ∧ s.SameElsewhere t ∧
    t.warp s.cur.wid = { s.curWarp with lanes := (t.warp s.cur.wid).lanes, next := (t.warp s.cur.wid).next } ∧
    (∀ l < 32, s.Runs f l → (g l (s.curWarp.lane l)).GoesOn ((t.warp s.cur.wid).lane l)) ∧
    (∀ l < 32, s.active l = true → (s.curWarp.lane l).guard f.g = false →
      Thread.GoesOn { s.curWarp.lane l with pc := s.nextPc f } ((t.warp s.cur.wid).lane l)) ∧
    (∀ l < 32, s.active l = false →
      (s.curWarp.lane l).GoesOn ((t.warp s.cur.wid).lane l) ∧
        ((∀ c g, (s.curWarp.lane l).status ≠ .callee c g) → (t.warp s.cur.wid).lane l = s.curWarp.lane l)) ∧
    s.Splits t

/-- The bundle's lanes wait at the instruction with a status, and perhaps the mark of a switch marker (R133); nothing else has
changed. -/
abbrev State.Stays (s t : State) (st : Nat → Status) : Prop :=
  s.SameDevice t ∧ s.SameElsewhere t ∧ s.OthersKeep t ∧
    t.warp s.cur.wid = { s.curWarp with lanes := (t.warp s.cur.wid).lanes } ∧
    ∀ l < 32, s.active l = true →
      (t.warp s.cur.wid).lane l = { s.curWarp.lane l with status := st l, parks := ((t.warp s.cur.wid).lane l).parks }

/-- The release that orders an instruction at a scope (R255) has been done, without a trap, and its state is `r`; the bundle
is as it was. -/
abbrev State.Released (s : State) (scope : Nat) (r : State) : Prop :=
  s.releaseAt scope = some (r, none) ∧ r.Bundled ∧ r.cur = s.cur

/-- The lines that an instruction brought in, and the write-backs they caused, left its bundle as it was (a write-back that
fails may end the context, R256). -/
abbrev State.SameBundle (s v : State) : Prop :=
  v.Bundled ∧ v.cur = s.cur ∧ v.curWarp.lanes = s.curWarp.lanes

/-! ## What an instruction reads and writes -/

/-- The words of operand A of a lane, by the opcode's form (R126, R26). -/
def State.opA (s : State) (op : Op) (f : Fields) (l : Nat) : List CWord :=
  (sourceOf s.curWarp (s.curWarp.lane l) f (op.form f).a f.a f.ua ((op.form f).slot == 1 && f.im) 0).words
/-- The words of operand B. -/
def State.opB (s : State) (op : Op) (f : Fields) (l : Nat) : List CWord :=
  (sourceOf s.curWarp (s.curWarp.lane l) f (op.form f).b f.b f.ub ((op.form f).slot == 2 && f.im) 1).words
/-- The words of operand C. -/
def State.opC (s : State) (op : Op) (f : Fields) (l : Nat) : List CWord :=
  (sourceOf s.curWarp (s.curWarp.lane l) f (op.form f).c f.c f.uc false 2).words
/-- The words of the register or registers that D names: old destination or store data. -/
def State.opD (s : State) (op : Op) (f : Fields) (l : Nat) : List CWord :=
  (sourceOf s.curWarp (s.curWarp.lane l) f (op.form f).d f.d f.ud false 3).words
/-- What a lane reads, as the address functions take it; `d`: with the store data. -/
def State.reads (s : State) (op : Op) (f : Fields) (d : Bool) (l : Nat) : Ins :=
  insOf l (s.curWarp.lane l) (sources op f s.curWarp (s.curWarp.lane l) d)
/-- The first word of operand A. -/
def State.wA (s : State) (op : Op) (f : Fields) (l : Nat) : Word := w0 (s.opA op f l)
/-- The first word of operand B. -/
def State.wB (s : State) (op : Op) (f : Fields) (l : Nat) : Word := w0 (s.opB op f l)
/-- The first word of operand C. -/
def State.wC (s : State) (op : Op) (f : Fields) (l : Nat) : Word := w0 (s.opC op f l)
/-- Operand A as a pair. -/
def State.pA (s : State) (op : Op) (f : Fields) (l : Nat) : BitVec 64 := pairOf (s.opA op f l)
/-- Operand B as a pair. -/
def State.pB (s : State) (op : Op) (f : Fields) (l : Nat) : BitVec 64 := pairOf (s.opB op f l)

/-- Operand A as the integer of the instruction's TYPE (R158). -/
def State.iA (s : State) (op : Op) (f : Fields) (l : Nat) : Int := tyExt f.ty (s.wA op f l)
/-- Operand B as the integer of the instruction's TYPE. -/
def State.iB (s : State) (op : Op) (f : Fields) (l : Nat) : Int := tyExt f.ty (s.wB op f l)
/-- Operand C as the integer of the instruction's TYPE. -/
def State.iC (s : State) (op : Op) (f : Fields) (l : Nat) : Int := tyExt f.ty (s.wC op f l)

/-- The register operands of an instruction are good in every lane that runs (R110). -/
abbrev State.Good (s : State) (op : Op) (f : Fields) : Prop := s.Reads f fun t => sources op f s.curWarp t false

/-- A register after a result has been written from D up: R21 for a vector destination. -/
def Thread.regAfter (t : Thread) (f : Fields) (ws : List CWord) (r : Nat) : CWord :=
  if f.ud then t.reg r
  else if f.d.toNat ≤ r ∧ r < f.d.toNat + ws.length then ws.getD (r - f.d.toNat) .zero else t.reg r

/-- A predicate after a result has been written. -/
def Thread.predAfter (t : Thread) (ps : List (Nat × Bool)) (k : Nat) : Bool := ((ps.find? fun x => x.1 == k).map (·.2)).getD (t.pred k)

/-- A uniform register after the bundle: with UD the lowest lane that runs writes it (R26). -/
def State.wregAfter (s : State) (f : Fields) (g : Nat → List CWord) (r : Nat) : CWord :=
  match lowestLane (s.qualifying f.g) with
  | some l =>
    if f.ud ∧ f.d.toNat % 64 ≤ r ∧ r < f.d.toNat % 64 + (g l).length then (g l).getD (r - f.d.toNat % 64) .zero
    else s.curWarp.wreg r
  | none => s.curWarp.wreg r

/-- A lane took a result: its destination registers, its predicates in both copies, and its flags; nothing else of it has
changed but the PC, the window and the status. -/
abbrev Thread.Took (t u : Thread) (f : Fields) (r : Res) : Prop :=
  t.KeptBut u ∧ (∀ k, u.reg k = t.regAfter f r.dst k) ∧ (∀ k < 12, u.pred k = t.predAfter r.preds k) ∧
    (∀ k < 12, u.predBad k = if r.preds.any fun x => x.1 == k then false else t.predBad k) ∧ u.fflags = t.fflags ||| r.flags

/-- Every lane that runs took its result, every other lane of the bundle moved on, and nothing else has changed. -/
abbrev State.Wrote (s t : State) (f : Fields) (g : Nat → Res) : Prop :=
  s.Passed t (s.nextPc f) ∧ s.OthersKeep t ∧ s.SameDevice t ∧ s.SameElsewhere t ∧ s.SameWarp t ∧
    (∀ l < 32, s.Runs f l → (s.curWarp.lane l).Took ((t.warp s.cur.wid).lane l) f (g l)) ∧
    (∀ l < 32, s.active l = true → (s.curWarp.lane l).guard f.g = false →
      (s.curWarp.lane l).KeptAll ((t.warp s.cur.wid).lane l)) ∧
    ∀ r, (t.warp s.cur.wid).wreg r = s.wregAfter f (fun l => (g l).dst) r

/-- The instruction completes and each lane that runs takes the result named for it, when nothing stands in the way and its
register operands are good. -/
abbrev State.Gives (s : State) (i : Instr) (op : Op) (f : Fields) (g : Nat → Res) : Prop :=
  s.Clear op f → s.Good op f → ∃ t, exec i s = .next t ∧ s.Wrote t f g

/-- As `Gives`, for one word with a generated residue (R109). -/
abbrev State.GivesWord (s : State) (i : Instr) (op : Op) (f : Fields) (g : Nat → Word) : Prop :=
  s.Gives i op f fun l => { dst := [.gen (g l)] }

/-- As `Gives`, for a pair with generated residues (R17, R20). -/
abbrev State.GivesPair (s : State) (i : Instr) (op : Op) (f : Fields) (g : Nat → BitVec 64) : Prop :=
  s.Gives i op f fun l => { dst := [.gen ((g l).extractLsb' 0 32), .gen ((g l).extractLsb' 32 32)] }

/-- As `Gives`, for a predicate pair: the value and its complement (R177). -/
abbrev State.GivesPreds (s : State) (i : Instr) (op : Op) (f : Fields) (g : Nat → Bool) : Prop :=
  s.Gives i op f fun l => { preds := [(f.d.toNat % 16, g l), (f.d.toNat % 16 + 1, !g l)] }

/-! ## Taking a trap -/

/-- A trap group of the lanes `ls` can enter a handler (R327–R333): none of them holds SFU results or their failures or is
inside a routine, no fault slot changes the cause, the context runs, the handler's level is at most the second, and the
vector table gives the address `pc`. -/
abbrev State.Enters (s : State) (ls : List Nat) (cause : Nat) (pc : Addr) : Prop :=
  ls ≠ [] ∧ s.Bundled ∧ (s.ctx s.curCtx).retired = false ∧ s.reclassify s.curCtx cause = (cause, 0) ∧
    s.vector s.curCore s.curCtx cause = some pc ∧ (∀ e ∈ (s.core s.curCore).sfu, e.wid ≠ s.cur.wid) ∧
    ∀ l ∈ ls, s.active l = true ∧ l < 32 ∧ (s.curWarp.lane l).sfuFails = [] ∧ (s.curWarp.lane l).frames.length < 2 ∧
      (s.curWarp.lane l).frames.length = (s.curWarp.lane (ls.headD 0)).frames.length ∧
      ∀ g ∈ (s.curWarp.lane l).frames, g.emu = none

/-- A lane of the bundle that has entered the handler at `pc` in one group with the lanes `ls`, with a trap (R329). -/
def State.entered (s : State) (ls : List Nat) (x : Trap) (tpc : BitVec 64) (pc : Addr) (l : Nat) : Thread :=
  let u := s.curWarp.lane l
  let frame : Frame :=
    { gid := s.curWarp.next, tfm := BitVec.ofNat 32 ((ls.map fun k => 2 ^ k).sum), tam := s.cur.mask,
      tcause := BitVec.ofNat 16 (x.cause + if u.frames = [] then 0 else 2 ^ 9), tinfo := x.info, tpc := tpc,
      taddr := x.addr, mr := u.mr, since := s.time, emu := none, async := none, wrote := false, entry := none }
  { u with frames := frame :: u.frames, mr := none, pc := pc, hi := 0, bid := s.curWarp.next, status := .ready, window := 0,
           wmask := 0, body := 0, parks := false }

/-- The lanes `ls` of the bundle have entered the handler at `pc` with a trap; the other lanes of the bundle took no trap,
and nothing else has changed. -/
abbrev State.TookTrap (s t : State) (ls : List Nat) (x : Trap) (tpc : BitVec 64) (pc : Addr) : Prop :=
  s.SameDevice t ∧ s.SameElsewhere t ∧ s.OthersKeep t ∧
    t.warp s.cur.wid = { s.curWarp with lanes := (t.warp s.cur.wid).lanes, next := s.curWarp.next + 1 } ∧
    (∀ l ∈ ls, (t.warp s.cur.wid).lane l = s.entered ls x tpc pc l) ∧
    ∀ l < 32, s.active l = true → l ∉ ls → (s.curWarp.lane l).KeptAll ((t.warp s.cur.wid).lane l)

/-! ## Lanes that meet -/

/-- Lanes that met at a lane instruction go on: each lane that runs took its result, the others of the bundle nothing; the
warp now has the partition code `ts`, and nothing else has changed; what lanes hold ready for others at the address, their
`arrivals`, is marked as used (R216). -/
abbrev State.Met (s t : State) (f : Fields) (ts : BitVec 3) (g : Nat → Res) : Prop :=
  s.SameDevice t ∧ s.SameElsewhere t ∧
    t.warp s.cur.wid = { s.curWarp with lanes := (t.warp s.cur.wid).lanes, wregs := (t.warp s.cur.wid).wregs, wpart := ts } ∧
    s.Passed t (s.nextPc f) ∧
    (∀ l < 32, s.active l = false →
      (t.warp s.cur.wid).lane l = { s.curWarp.lane l with arrivals := ((t.warp s.cur.wid).lane l).arrivals }) ∧
    (∀ l < 32, s.Runs f l →
      Thread.Took { s.curWarp.lane l with arrivals := ((t.warp s.cur.wid).lane l).arrivals, age := ((t.warp s.cur.wid).lane l).age }
        ((t.warp s.cur.wid).lane l) f (g l)) ∧
    (∀ l < 32, s.active l = true → (s.curWarp.lane l).guard f.g = false →
      Thread.KeptAll { s.curWarp.lane l with arrivals := ((t.warp s.cur.wid).lane l).arrivals, age := ((t.warp s.cur.wid).lane l).age }
        ((t.warp s.cur.wid).lane l)) ∧
    ∀ r, (t.warp s.cur.wid).wreg r = s.wregAfter f (fun l => (g l).dst) r

/-- Every live lane that a lane of the bundle names (`m`) is in the bundle, and no other lane waits at its address: the
bundle's lanes meet at once (R216). -/
abbrev State.Together (s : State) (m : Nat → List Nat) : Prop :=
  (∀ l < 32, s.active l = true →
    (s.curWarp.lane l).pc = s.cur.pc ∧ ∀ x ∈ m l, (s.curWarp.lane x).live = true → s.active x = true) ∧
  ∀ l < 32, s.active l = false → (s.curWarp.lane l).status ≠ .arrived ∨ (s.curWarp.lane l).pc ≠ s.cur.pc

/-- The lanes of a lane's trap group, or every lane outside handler mode (R332). -/
def State.fellows (s : State) (l : Nat) : List Nat :=
  (List.range 32).filter fun x => match (s.curWarp.lane l).frames with
    | [] => true
    | g :: _ => (s.curWarp.lane x).frames.head?.any fun h => h.gid == g.gid

/-- M(L): the lanes that a lane names, in ascending order: those of the member mask, in its tile, and of its trap group
(R25, R215, R216, R332). -/
def State.named (s : State) (f : Fields) (l : Nat) : List Nat :=
  (s.fellows l).filter fun x =>
    (f.c.getLsbD 8 || ((s.curWarp.wreg (f.cN % 64)).data.getLsbD x)) && x / 2 ^ s.curWarp.wpart.toNat == l / 2 ^ s.curWarp.wpart.toNat

/-- The named lanes that supply a value: those that run (R216). -/
def State.suppliers (s : State) (f : Fields) (l : Nat) : List Nat :=
  (s.named f l).filter fun x => decide (s.Runs f x)

/-! ## Numbers -/

/-- The rational number that a finite value stands for; 0 for the others. -/
def FVal.toRat : FVal → ℚ
  | .fin neg m e => (if neg then -1 else 1) * m * (2 : ℚ) ^ e
  | _ => 0

/-- The magnitude of a code of an IEEE format; at the code of +∞ the value that would follow the largest finite one (R75). -/
def Ieee.magAt (F : Ieee) (c : Nat) : ℚ :=
  if c < 2 ^ F.fb then c * (2 : ℚ) ^ (F.emin - F.fb)
  else ((2 ^ F.fb + c % 2 ^ F.fb : Nat) : ℚ) * (2 : ℚ) ^ (((c / 2 ^ F.fb : Nat) : Int) - F.bias - F.fb)

/-! ## Memory -/

/-- Canonical form of every memory of the device: device memory and each scratchpad (DESIGN CHOICE: the model's own form). -/
abbrev State.MemoryWf (s : State) : Prop :=
  s.mem.wf = true ∧ ∀ e ∈ s.wgs, e.2.pad.wf = true

end Sys2Proof.Machine
end

