-- ==== Sys2Proof/Certificates/Slice0/Obligations.lean ====
section
/-!
DEFINITION. The statements for the provers. Each docstring names the rules of the manual that the statement formalises.
`State.Clear` is the premise that nothing stands in an instruction's way (its bundle exists, it decodes, its guards are
good, no injection is armed); `State.Good` that its register operands are good; `State.Wrote` says what each lane took and
that nothing else has changed.
-/

open Sys2Proof Sys2Proof.Machine

/-! ## Integers, logic, moves and predicates -/

/-- R106, R11: residue arithmetic is taken modulo 15: the powers of 16 and of 2, the inverses of the powers of 2, and the
residue of a complement. -/
def Obligations.ResidueArithmetic : Prop :=
  (∀ j : Nat, 2 ^ (4 * j) % 15 = 1) ∧ (∀ n : Nat, 2 ^ n % 15 = 2 ^ (n % 4) % 15 ∧ 2 ^ (n % 4) ∈ [1, 2, 4, 8]) ∧
    2 * 8 % 15 = 1 ∧ (∀ n : Nat, inv2 n = 2 ^ ((4 - n % 4) % 4) ∧ 2 ^ n * inv2 n % 15 = 1) ∧ res 0xFFFFFFFF = 0 ∧
      ∀ a : Word, (res a).toNat < 15 ∧ (res (~~~a)).toNat = (15 - (res a).toNat) % 15

/-- R158: the TYPE codes fix a width and a signedness; `wrap` reads back as the integer of the type that is congruent to
y, `satw` as the nearest integer of the type, and both are written extended to 32 bits. OPM[3] selects
`satw`; bits of a source above the width do not count. -/
def Obligations.TypedWrite : Prop :=
  ∀ (t : Nat) (x : Word) (y : Int), t < 6 →
    (tyMin t ≤ tyExt t x ∧ tyExt t x ≤ tyMax t ∧ ((2 : Int) ^ tyWidth t) ∣ tyExt t x - x.toNat) ∧
      (∀ z : Word, z.toNat % 2 ^ tyWidth t = x.toNat % 2 ^ tyWidth t → tyExt t z = tyExt t x) ∧
      (∀ f : Fields, f.sat = f.opm.getLsbD 3) ∧
      (((2 : Int) ^ tyWidth t) ∣ tyExt t (tyWrite t false y) - y) ∧
      tyExt t (tyWrite t true y) = (if y < tyMin t then tyMin t else if tyMax t < y then tyMax t else y) ∧
      ∀ sat, (if tySigned t then (tyWrite t sat y).toInt else (tyWrite t sat y).toNat) = tyExt t (tyWrite t sat y)

/-- R163, R158, R21, R26: each add-class form writes the y of its row, wrapped or saturated, in every lane that
runs, and changes nothing else. R164: the carry chain. CIN 15 is a carry of zero, COUT 15 writes no carry. -/
def Obligations.AdditionForms : Prop :=
  (∀ (s : State) (f : Fields),
     s.GivesWord (.add f) .add f (fun l => tyWrite f.ty f.sat (s.iA .add f l + s.iB .add f l)) ∧
     s.GivesWord (.sub f) .sub f (fun l => tyWrite f.ty f.sat (s.iA .sub f l - s.iB .sub f l)) ∧
     s.GivesWord (.neg f) .neg f (fun l => tyWrite f.ty f.sat (-s.iA .neg f l)) ∧
     s.GivesWord (.absI f) .absI f (fun l => tyWrite f.ty f.sat |s.iA .absI f l|) ∧
     s.GivesWord (.minI f) .minI f (fun l => tyWrite f.ty false (min (s.iA .minI f l) (s.iB .minI f l))) ∧
     s.GivesWord (.maxI f) .maxI f (fun l => tyWrite f.ty false (max (s.iA .maxI f l) (s.iB .maxI f l))) ∧
     s.GivesWord (.clamp f) .clamp f
       (fun l => tyWrite f.ty false (min (max (s.iA .clamp f l) (s.iB .clamp f l)) (s.iC .clamp f l))) ∧
     s.GivesWord (.avg f) .avg f
       (fun l => tyWrite f.ty false ((s.iA .avg f l + s.iB .avg f l + if f.opm4 then 0 else 1) / 2)) ∧
     s.GivesWord (.sad f) .sad f (fun l => tyWrite f.ty f.sat (|s.iA .sad f l - s.iB .sad f l| + s.iC .sad f l))) ∧
  (∀ (s : State) (f : Fields),
     (∀ l < 32, s.Runs f l → f.cN % 16 ≠ 15 → (s.curWarp.lane l).predBad (f.cN % 16) = false) →
     let ci (l : Nat) : Nat := if f.cN % 16 = 15 then 0 else ((s.curWarp.lane l).pred (f.cN % 16)).toNat
     let out (c : Bool) : List (Nat × Bool) :=
       if f.cN / 16 % 16 = 15 then [] else [(f.cN / 16 % 16, c), (f.cN / 16 % 16 + 1, !c)]
     s.Gives (.addc f) .addc f (fun l =>
       { dst := [.gen (BitVec.ofNat 32 ((s.wA .addc f l).toNat + (s.wB .addc f l).toNat + ci l))]
         preds := out (2 ^ 32 ≤ (s.wA .addc f l).toNat + (s.wB .addc f l).toNat + ci l) }) ∧
     s.Gives (.subb f) .subb f (fun l =>
       { dst := [.gen (BitVec.ofInt 32 ((s.wA .subb f l).toNat - (s.wB .subb f l).toNat - ci l))]
         preds := out (((s.wA .subb f l).toNat : Int) - (s.wB .subb f l).toNat - ci l < 0) }))

/-- R165, R158: the multiply forms. `.SU` reads B unsigned. R168, R169: the pair forms and the scaled additions. -/
def Obligations.MultiplyForms : Prop :=
  (∀ (s : State) (f : Fields),
     let b (op : Op) (l : Nat) : Int := if f.opm4 then (s.wB op f l).toNat else s.iB op f l
     s.GivesWord (.mul f) .mul f (fun l => tyWrite f.ty f.sat (s.iA .mul f l * s.iB .mul f l)) ∧
     s.GivesWord (.mulh f) .mulh f (fun l => BitVec.ofInt 32 (s.iA .mulh f l * b .mulh l / 2 ^ 32)) ∧
     s.GivesWord (.mad f) .mad f (fun l => tyWrite f.ty f.sat (s.iA .mad f l * s.iB .mad f l + s.iC .mad f l)) ∧
     s.GivesWord (.madh f) .madh f (fun l => BitVec.ofInt 32 ((s.iA .madh f l * b .madh l + s.iC .madh f l) / 2 ^ 32)) ∧
     s.GivesPair (.mulw f) .mulw f (fun l => BitVec.ofInt 64 (s.iA .mulw f l * b .mulw l)) ∧
     s.GivesPair (.madw f) .madw f
       (fun l => BitVec.ofInt 64 (s.iA .madw f l * b .madw l) + pairOf (s.opC .madw f l)) ∧
     s.GivesWord (.idp4 f) .idp4 f (fun l =>
       let signed := f.ty = 4
       let c : Int := if signed then (s.wC .idp4 f l).toInt else (s.wC .idp4 f l).toNat
       let byteA (k : Nat) : Int :=
         let x := (s.wA .idp4 f l).extractLsb' (8 * k) 8
         if signed then x.toInt else x.toNat
       let byteB (k : Nat) : Int :=
         let x := (s.wB .idp4 f l).extractLsb' (8 * k) 8
         if signed ∧ f.opm4 = false then x.toInt else x.toNat
       tyWrite (if signed then 0 else 1) f.sat
         (c + byteA 0 * byteB 0 + byteA 1 * byteB 1 + byteA 2 * byteB 2 + byteA 3 * byteB 3))) ∧
  (∀ (s : State) (f : Fields),
     let ext (v : BitVec 64) : Int := if f.ty = 0 then v.toInt else v.toNat
     let write (y : Int) : BitVec 64 :=
       BitVec.ofInt 64 (if f.sat then if f.ty = 0 then max (-2 ^ 63) (min y (2 ^ 63 - 1)) else max 0 (min y (2 ^ 64 - 1)) else y)
     s.GivesPair (.add64 f) .add64 f (fun l => write (ext (s.pA .add64 f l) + ext (s.pB .add64 f l))) ∧
     s.GivesPair (.sub64 f) .sub64 f (fun l => write (ext (s.pA .sub64 f l) - ext (s.pB .sub64 f l))) ∧
     s.GivesPair (.neg64 f) .neg64 f (fun l => write (-ext (s.pA .neg64 f l))) ∧
     s.GivesPair (.mul64 f) .mul64 f (fun l => s.pA .mul64 f l * s.pB .mul64 f l) ∧
     s.GivesWord (.lea f) .lea f
       (fun l => BitVec.ofNat 32 ((s.wA .lea f l).toNat + (s.wB .lea f l).toNat * 2 ^ (f.opm.toNat % 8))) ∧
     s.GivesPair (.lea64 f) .lea64 f (fun l =>
       BitVec.ofInt 64 ((s.pA .lea64 f l).toNat +
         (if f.opm4 then ((s.wB .lea64 f l).toNat : Int) else (s.wB .lea64 f l).toInt) * 2 ^ (f.opm.toNat % 8))))

/-- R170, R171: the bitwise forms; `BITFN` looks each bit up in its table. R172: shifts and rotates by B[7:0]. R173,
R174: bit fields and bit counts. -/
def Obligations.LogicShiftsFields : Prop :=
  (∀ (s : State) (f : Fields),
     s.GivesWord (.andB f) .andB f (fun l => s.wA .andB f l &&& s.wB .andB f l) ∧
     s.GivesWord (.orB f) .orB f (fun l => s.wA .orB f l ||| s.wB .orB f l) ∧
     s.GivesWord (.xorB f) .xorB f (fun l => s.wA .xorB f l ^^^ s.wB .xorB f l) ∧
     s.GivesWord (.notB f) .notB f (fun l => ~~~s.wA .notB f l) ∧
     s.GivesWord (.andn f) .andn f (fun l => s.wA .andn f l &&& ~~~s.wB .andn f l) ∧
     ∃ g : Nat → Word,
       (∀ l < 32, ∀ k < 32, (g l).getLsbD k =
         ((f.c.extractLsb' 7 2) ++ f.opm : BitVec 8).getLsbD
           (((s.wA .bitfn f l).getLsbD k).toNat + 2 * ((s.wB .bitfn f l).getLsbD k).toNat +
             4 * (((s.curWarp.lane l).reg (f.cN % 128)).data.getLsbD k).toNat)) ∧
       s.GivesWord (.bitfn f) .bitfn f g) ∧
  (∀ (s : State) (f : Fields),
     let n (op : Op) (l : Nat) : Nat := (s.wB op f l).toNat % 256
     s.GivesWord (.shl f) .shl f (fun l => if n .shl l < 32 then BitVec.ofNat 32 ((s.wA .shl f l).toNat * 2 ^ n .shl l) else 0) ∧
     s.GivesWord (.shr f) .shr f (fun l =>
       if f.ty = 0 then
         if n .shr l < 32 then BitVec.ofInt 32 ((s.wA .shr f l).toInt / 2 ^ n .shr l)
         else if (s.wA .shr f l).msb then BitVec.allOnes 32 else 0
       else if n .shr l < 32 then BitVec.ofNat 32 ((s.wA .shr f l).toNat / 2 ^ n .shr l) else 0) ∧
     s.GivesWord (.rol f) .rol f (fun l => (s.wA .rol f l).rotateLeft (n .rol l % 32)) ∧
     s.GivesPair (.shl64 f) .shl64 f
       (fun l => if n .shl64 l < 64 then BitVec.ofNat 64 ((s.pA .shl64 f l).toNat * 2 ^ n .shl64 l) else 0) ∧
     s.GivesPair (.shr64 f) .shr64 f (fun l =>
       if f.ty = 0 then
         if n .shr64 l < 64 then BitVec.ofInt 64 ((s.pA .shr64 f l).toInt / 2 ^ n .shr64 l)
         else if (s.pA .shr64 f l).msb then BitVec.allOnes 64 else 0
       else if n .shr64 l < 64 then BitVec.ofNat 64 ((s.pA .shr64 f l).toNat / 2 ^ n .shr64 l) else 0)) ∧
  (∀ (s : State) (f : Fields),
     let pos (op : Op) (l : Nat) : Nat := (s.wB op f l).toNat % 256
     let len (op : Op) (l : Nat) : Nat := (s.wB op f l).toNat / 256 % 256
     let len2 (op : Op) (l : Nat) : Nat := min (len op l) (32 - pos op l)
     (∃ g : Nat → Word,
       (∀ l < 32, ∀ k < 32, (g l).getLsbD k =
         if 32 ≤ pos .bfx l ∨ len .bfx l = 0 then false
         else if k < len2 .bfx l then (s.wA .bfx f l).getLsbD (pos .bfx l + k)
         else (f.ty == 0) && (s.wA .bfx f l).getLsbD (pos .bfx l + len2 .bfx l - 1)) ∧
       s.GivesWord (.bfx f) .bfx f g) ∧
     (∃ g : Nat → Word,
       (∀ l < 32, ∀ k < 32, (g l).getLsbD k =
         if (32 ≤ pos .bfi l ∨ len .bfi l = 0) ∨ k < pos .bfi l ∨ pos .bfi l + len2 .bfi l ≤ k then (s.wC .bfi f l).getLsbD k
         else (s.wA .bfi f l).getLsbD (k - pos .bfi l)) ∧
       s.GivesWord (.bfi f) .bfi f g) ∧
     s.GivesWord (.popc f) .popc f
       (fun l => BitVec.ofNat 32 ((Finset.range 32).filter fun k => (s.wA .popc f l).getLsbD k = true).card) ∧
     s.GivesWord (.clz f) .clz f
       (fun l => BitVec.ofNat 32 (if s.wA .clz f l = 0 then 32 else 31 - Nat.log2 (s.wA .clz f l).toNat)) ∧
     ∃ g : Nat → Word,
       (∀ l < 32, ∀ k < 32, (g l).getLsbD k = (s.wA .brev f l).getLsbD (31 - k)) ∧ s.GivesWord (.brev f) .brev f g)

/-- R175, R176: moves, selects, extension and byte selection. A move keeps the residue field of the word it reads. R177,
R178, R179, R180: compares and the predicate forms. -/
def Obligations.MovesAndPredicates : Prop :=
  (∀ (s : State) (f : Fields),
     s.Gives (.mov f) .mov f (fun l => { dst := [(s.opA .mov f l).getD 0 .zero] }) ∧
     s.Gives (.mov64 f) .mov64 f (fun l => { dst := [(s.opA .mov64 f l).getD 0 .zero, (s.opA .mov64 f l).getD 1 .zero] }) ∧
     ((∀ l < 32, s.Runs f l → (s.wA .movw f l).toNat < 64 ∧ (s.curWarp.wreg (s.wA .movw f l).toNat).wellFormed = true) →
       s.Gives (.movw f) .movw f (fun l => { dst := [s.curWarp.wreg (s.wA .movw f l).toNat] })) ∧
     ((∀ l < 32, s.Runs f l → (s.curWarp.lane l).predBad (f.cN % 16) = false) →
       s.Gives (.sel f) .sel f (fun l =>
         { dst := [if (s.curWarp.lane l).pred (f.cN % 16) then (s.opA .sel f l).getD 0 .zero else (s.opB .sel f l).getD 0 .zero] })) ∧
     s.GivesWord (.ext f) .ext f (fun l => tyWrite f.ty false (s.iA .ext f l)) ∧
     ∃ g : Nat → Word,
       (∀ l < 32, ∀ i < 4,
         let sel := (s.wB .bsel f l).extractLsb' (8 * i) 5
         let k := sel.toNat % 8
         let x := (s.wC .bsel f l ++ s.wA .bsel f l : BitVec 64).extractLsb' (8 * k) 8
         (g l).extractLsb' (8 * i) 8 =
           if sel.toNat / 8 = 0 then x else if sel.toNat / 8 = 1 then 0 else if sel.toNat / 8 = 2 ∧ x.msb = false then 0 else 255) ∧
       s.GivesWord (.bsel f) .bsel f g) ∧
  (∀ (s : State) (f : Fields),
     let cond (a b : Int) : Bool :=
       [decide (a = b), decide (a ≠ b), decide (a < b), decide (a ≤ b), decide (a > b), decide (a ≥ b)].getD (f.opm.toNat / 8) false
     let ext (v : BitVec 64) : Int := if f.ty = 0 then v.toInt else v.toNat
     let src (l : Nat) (x : BitVec 9) : Bool := x.toNat % 16 == 15 || (s.curWarp.lane l).pred (x.toNat % 16)
     let lut : BitVec 8 := f.b.extractLsb' 4 4 ++ f.a.extractLsb' 4 4
     let t (l : Nat) : Bool := lut.getLsbD ((src l f.a).toNat + 2 * (src l f.b).toNat + 4 * (src l f.c).toNat)
     s.GivesPreds (.cmp f) .cmp f (fun l => cond (s.iA .cmp f l) (s.iB .cmp f l)) ∧
     s.GivesPreds (.cmp64 f) .cmp64 f (fun l => cond (ext (s.pA .cmp64 f l)) (ext (s.pB .cmp64 f l))) ∧
     s.GivesPreds (.pset f) .pset f (fun l => (s.wA .pset f l).getLsbD ((s.wB .pset f l).toNat % 32)) ∧
     ((∀ l < 32, s.Runs f l → ∀ x ∈ [f.a, f.b, f.c], x.toNat % 16 ≠ 15 → (s.curWarp.lane l).predBad (x.toNat % 16) = false) →
       s.Gives (.pcomb f) .pcomb f (fun l =>
         { preds := (f.d.toNat % 16, t l) :: if f.opm4 then [(f.d.toNat % 16 + 1, !t l)] else [] })) ∧
     (f.opm4 = false → (∀ l < 32, s.Runs f l → ∀ k < 12, (s.curWarp.lane l).predBad k = false) →
       s.GivesWord (.pmov f) .pmov f (fun l => (s.curWarp.lane l).preds.zeroExtend 32)) ∧
     (f.opm4 = true →
       s.Gives (.pmov f) .pmov f (fun l =>
         { preds := ((List.range 12).filter fun k => (s.wA .pmov f l).getLsbD (16 + k)).map fun k =>
             (k, (s.wA .pmov f l).getLsbD k) })))

/-! ## Floating point and conversion -/

/-- R97, R98: an IEEE result is the neighbour of the exact value that the mode names: with ties to even under RN, toward
zero under RZ, upward under RU and downward under RD. It is inexact unless the value is a code's own; past the largest
finite value it is infinite, or the largest finite value where the mode rounds away from the overflow. -/
def Obligations.RoundingModes : Prop :=
  ∀ F ∈ [Ieee.f32, Ieee.f16, Ieee.bf16], ∀ rm < 4, ∀ (neg : Bool) (m : Nat) (e : Int),
    let x : ℚ := m * (2 : ℚ) ^ e
    let r := roundMag F rm false neg m e
    let away : Bool := rm = 0 ∨ (rm = 2 ∧ neg = false) ∨ (rm = 3 ∧ neg = true)
    (F.magAt F.infBits ≤ x → r = (if away then F.infBits else F.infBits - 1, flagOF ||| flagNX)) ∧
      ∀ c < F.infBits, F.magAt c ≤ x → x < F.magAt (c + 1) →
        let mid := (F.magAt c + F.magAt (c + 1)) / 2
        let up : Prop := x ≠ F.magAt c ∧ away = true ∧ (rm = 0 → mid < x ∨ (x = mid ∧ c % 2 = 1))
        (up → r.1 = c + 1) ∧ (¬ up → r.1 = c) ∧ (r.2.getLsbD 4 = true ↔ x ≠ F.magAt c) ∧
          (r.2.getLsbD 2 = true ↔ r.1 = F.infBits) ∧ r.2.getLsbD 0 = false ∧ r.2.getLsbD 1 = false

/-- R185, R78: the sum and the product of finite values are exact before the one rounding, a zero sum of opposite signs is
−0 only under RD, and the invalid cases give a NaN with NV. -/
def Obligations.ExactSums : Prop :=
  ∀ (rm : Nat) (a b : Bool) (m n : Nat) (e g : Int),
    (∃ z k q, (addX rm (.fin a m e) (.fin b n g)) = (.fin z k q, 0) ∧
      (FVal.fin z k q).toRat = (FVal.fin a m e).toRat + (FVal.fin b n g).toRat ∧
      (k = 0 → z = if a = b then a else decide (rm = 3))) ∧
    (∃ k q, mulX (.fin a m e) (.fin b n g) = (.fin (a != b) k q, 0) ∧
      (FVal.fin (a != b) k q).toRat = (FVal.fin a m e).toRat * (FVal.fin b n g).toRat) ∧
    (a ≠ b → (addX rm (.inf a) (.inf b)).1.isNan = true ∧ (addX rm (.inf a) (.inf b)).2 = flagNV) ∧
    ((mulX (.inf a) (.fin b 0 e)).1.isNan = true ∧ (mulX (.inf a) (.fin b 0 e)).2 = flagNV) ∧
    (fmaX rm (.inf a) (.fin b 0 e) (.nan false false)).1.isNan = true ∧
    (fmaX rm (.inf a) (.fin b 0 e) (.nan false false)).2 = flagNV

/-- R182, R183, R185: each arithmetic form writes its exact y rounded once under RM, with the flags of that rounding and
of its operands, over the whole word, the low half, or both halves of the word by its TYPE. -/
def Obligations.FloatArithmetic : Prop :=
  ∀ (s : State) (f : Fields),
    let F := Ieee.ofTy f.fty
    let form (op : Op) (y : FVal → FVal → FVal → FVal × BitVec 5) (l : Nat) : Res :=
      onType f.fty (fun a b c =>
        let v := y (F.decode a) (F.decode b) (F.decode c)
        ((roundTo F f.rm v.1).1, v.2 ||| (roundTo F f.rm v.1).2)) (s.wA op f l) (s.wB op f l) (s.wC op f l)
    let half (x : Word) (h : Nat) : FVal := F.decode (x.toNat / 2 ^ (16 * h) % 2 ^ 16)
    s.Gives (.addFloat f) .addFloat f (form .addFloat fun a b _ => addX f.rm a b) ∧
    s.Gives (.subFloat f) .subFloat f (form .subFloat fun a b _ => addX f.rm a b.neg) ∧
    s.Gives (.mulFloat f) .mulFloat f (form .mulFloat fun a b _ => mulX a b) ∧
    s.Gives (.fma f) .fma f (form .fma fun a b c => fmaX f.rm a b c) ∧
    s.Gives (.lerp f) .lerp f (form .lerp fun a b c =>
      ((fmaX f.rm c (addX f.rm b a.neg).1 a).1, (addX f.rm b a.neg).2 ||| (fmaX f.rm c (addX f.rm b a.neg).1 a).2)) ∧
    s.Gives (.scaleb f) .scaleb f (fun l =>
      onType f.fty (fun a _ _ => roundTo F f.rm ((F.decode a).scale (max (-1000) (min (s.wB .scaleb f l).toInt 1000))))
        (s.wA .scaleb f l) 0 0) ∧
    s.Gives (.dot2 f) .dot2 f (fun l =>
      let p := mulX (half (s.wA .dot2 f l) 0) (half (s.wB .dot2 f l) 0)
      let q := mulX (half (s.wA .dot2 f l) 1) (half (s.wB .dot2 f l) 1)
      let u := addX f.rm p.1 q.1
      let v := addX f.rm u.1 (Ieee.f32.decode (s.wC .dot2 f l).toNat)
      let r := roundTo .f32 f.rm v.1
      { dst := [.gen (BitVec.ofNat 32 r.1)], flags := p.2 ||| q.2 ||| u.2 ||| v.2 ||| r.2 })

/-- R186, R187, R188: minimum and maximum, the sign forms, and the integral and fractional parts. R190, R191: float
compares and classes write a predicate and its complement. -/
def Obligations.FloatSelection : Prop :=
  (∀ (s : State) (f : Fields),
     let F := Ieee.ofTy f.fty
     let form (op : Op) (g : FloatFn) (l : Nat) : Res := onType f.fty g (s.wA op f l) (s.wB op f l) (s.wC op f l)
     let pick (max : Bool) : FloatFn := fun a b _ =>
       let x := F.decode a
       let y := F.decode b
       (if x.isNan ∧ y.isNan ∨ (x.isNan ∨ y.isNan) ∧ f.opm4 then F.qnan
        else if x.isNan then b
        else if y.isNan then a
        else if max = beforeX y x then a else b,
        if x.isSig ∨ y.isSig then flagNV else 0)
     s.Gives (.minFloat f) .minFloat f (form .minFloat (pick false)) ∧
     s.Gives (.maxFloat f) .maxFloat f (form .maxFloat (pick true)) ∧
     s.Gives (.absFloat f) .absFloat f (form .absFloat fun a _ _ => (a % F.signBit, 0)) ∧
     s.Gives (.negFloat f) .negFloat f
       (form .negFloat fun a _ _ => (a % F.signBit + (if a / F.signBit % 2 = 0 then F.signBit else 0), 0)) ∧
     s.Gives (.cpys f) .cpys f
       (form .cpys fun a b _ => (a % F.signBit + (if b / F.signBit % 2 = 0 then 0 else F.signBit), 0)) ∧
     s.Gives (.rnd f) .rnd f (form .rnd (rndBits f.rm f.opm4 F)) ∧
     s.Gives (.frc f) .frc f (form .frc (frcBits f.rm F))) ∧
  (∀ (s : State) (f : Fields),
     let F := Ieee.ofTy f.fty
     let a (op : Op) (l : Nat) : FVal := F.decode ((s.wA op f l).toNat % 2 ^ F.width)
     let b (op : Op) (l : Nat) : FVal := F.decode ((s.wB op f l).toNat % 2 ^ F.width)
     let cond := f.opm.toNat / 4 % 8
     let un (l : Nat) : Bool := (a .cmpFloat l).isNan || (b .cmpFloat l).isNan
     let ord (l : Nat) : Ordering := cmpX (a .cmpFloat l) (b .cmpFloat l)
     let t (l : Nat) : Bool :=
       if un l then cond = 1 ∨ cond = 7 ∨ f.opm.toNat / 32 = 1
       else [ord l == .eq, ord l != .eq, ord l == .lt, ord l != .gt, ord l == .gt, ord l != .lt, true, false].getD cond false
     s.Gives (.cmpFloat f) .cmpFloat f (fun l =>
       { preds := [(f.d.toNat % 16, t l), (f.d.toNat % 16 + 1, !t l)]
         flags := if (a .cmpFloat l).isSig ∨ (b .cmpFloat l).isSig ∨ (un l ∧ 2 ≤ cond ∧ cond ≤ 5) then flagNV else 0 }) ∧
     s.GivesPreds (.classF f) .classF f (fun l => (s.wB .classF f l).getLsbD (floatClass F (a .classF l))))

/-- R192, R193, R194: `CVT` between integers and floats by the kinds of its types, `PACK` and `UNPK`. R195, R196, R95:
conversions through format slots, with the header bias in range; a slot without blocks reads no scale. -/
def Obligations.ConversionForms : Prop :=
  (∀ (s : State) (f : Fields),
     let src := f.cN % 16
     let dst := f.cN / 16 % 16
     let rm := f.opm.toNat % 4
     let sat := f.opm.getLsbD 2
     let F := Ieee.ofTy f.fty
     let int (l : Nat) : Int :=
       if src = 6 then (s.pA .cvt f l).toInt else if src = 7 then (s.pA .cvt f l).toNat else tyExt src (s.wA .cvt f l)
     let lo : Int := if dst = 6 then -2 ^ 63 else if dst = 7 then 0 else tyMin dst
     let hi : Int := if dst = 6 then 2 ^ 63 - 1 else if dst = 7 then 2 ^ 64 - 1 else tyMax dst
     let put (y : Int) : List CWord :=
       if 6 ≤ dst then [.gen ((BitVec.ofInt 64 y).extractLsb' 0 32), .gen ((BitVec.ofInt 64 y).extractLsb' 32 32)]
       else [.gen (tyWrite dst false y)]
     let flt (l : Nat) : FVal := (cvtFmt src).decode ((s.wA .cvt f l).toNat % 2 ^ (cvtFmt src).width)
     s.Gives (.cvt f) .cvt f (fun l =>
       if src < 8 ∧ dst < 8 then { dst := put (if sat then max lo (min (int l) hi) else int l) }
       else if dst < 8 then
         match flt l with
         | .nan _ _ => { dst := put 0, flags := flagNV }
         | .inf n => { dst := put (if n then lo else hi), flags := flagNV }
         | .fin n m e =>
           let y : Int := if n then -((roundQ rm n m e 0).1 : Int) else (roundQ rm n m e 0).1
           if y < lo ∨ hi < y then { dst := put (if y < lo then lo else hi), flags := flagNV }
           else { dst := put y, flags := if (roundQ rm n m e 0).2 then flagNX else 0 }
       else
         let v := if src < 8 then FVal.fin (decide (int l < 0)) (int l).natAbs 0 else flt l
         { dst := [.gen (BitVec.ofNat 32 (roundTo (cvtFmt dst) rm v sat).1)], flags := (roundTo (cvtFmt dst) rm v sat).2 }) ∧
     s.Gives (.pack f) .pack f (fun l =>
       let lo := roundTo F f.rm (Ieee.f32.decode (s.wA .pack f l).toNat) f.opm4
       let hi := roundTo F f.rm (Ieee.f32.decode (s.wB .pack f l).toNat) f.opm4
       { dst := [.gen (BitVec.ofNat 32 (lo.1 + hi.1 * 2 ^ 16))], flags := lo.2 ||| hi.2 }) ∧
     s.Gives (.unpk f) .unpk f (fun l =>
       let x := roundTo .f32 0 (F.decode ((s.wA .unpk f l).toNat / 2 ^ (if f.opm4 then 16 else 0) % 2 ^ 16))
       { dst := [.gen (BitVec.ofNat 32 x.1)], flags := x.2 })) ∧
  (∀ (s : State) (f : Fields),
     let k := s.slot (f.opm.toNat % 8)
     let j := s.slot (f.opm.toNat / 8)
     ((∀ l < 32, s.Runs f l → -128 ≤ (s.wB .cvtf f l).toInt ∧ (s.wB .cvtf f l).toInt ≤ 127) →
       s.Gives (.cvtf f) .cvtf f (fun l =>
         let v := decodeElem (slotElem j) ((s.wA .cvtf f l).toNat % 2 ^ elemBits (slotElem j))
         let e := writeElem k (s.wB .cvtf f l).toInt none v
         { dst := [.gen (BitVec.ofNat 32 e.code)], flags := e.flags })) ∧
     ((∀ l < 32, s.Runs f l → -128 ≤ (s.wB .cvtx f l).toInt ∧ (s.wB .cvtx f l).toInt ≤ 127) →
       s.Gives (.cvtx f) .cvtx f (fun l =>
         let x := if slotBlk k then (s.wC .cvtx f l).toNat % 256 else 127
         let r := roundTo .f32 (f.opm.toNat / 8 % 4)
           (blockElem (slotElem k) ((s.wA .cvtx f l).toNat % 2 ^ elemBits (slotElem k)) x (s.wB .cvtx f l).toInt)
         { dst := [.gen (BitVec.ofNat 32 r.1)], flags := r.2 })))

/-- R130, R131, R109: a compact form has the effect of the F64 form with its fields (A is D again but in the one-source
forms, B is A7, OPM[7:5] is M3, no U bit), and continues four bytes on. -/
def Obligations.CompactForms : Prop :=
  ∀ (s : State) (c : Compact),
    let fields (unary : Bool) : Fields :=
      { fmt := .f32, s := c.s, g := c.g, d := c.d7.zeroExtend 9, a := if unary then c.a7.zeroExtend 9 else c.d7.zeroExtend 9,
        b := if unary then 0 else c.a7.zeroExtend 9, c := 0, m := BitVec.ofNat 11 (c.m3.toNat * 32) }
    let same (i : Instr) (full : Fields → Instr) (op : Op) (unary : Bool) : Prop :=
      exec i s = exec (full (fields unary)) s ∧ s.nextPc (fields unary) = s.cur.pc + 4 ∧
        (s.Clear op (fields unary) → s.Good op (fields unary) → ∃ t g, exec i s = .next t ∧ s.Wrote t (fields unary) g)
    same (.addCompact c) .add .add false ∧ same (.subCompact c) .sub .sub false ∧ same (.negCompact c) .neg .neg true ∧
    same (.minCompact c) .minI .minI false ∧ same (.maxCompact c) .maxI .maxI false ∧
    same (.mulCompact c) .mul .mul false ∧ same (.andCompact c) .andB .andB false ∧ same (.orCompact c) .orB .orB false ∧
    same (.xorCompact c) .xorB .xorB false ∧ same (.notCompact c) .notB .notB true ∧
    same (.shlCompact c) .shl .shl false ∧ same (.shrCompact c) .shr .shr false ∧ same (.popcCompact c) .popc .popc true ∧
    same (.movCompact c) .mov .mov true ∧ same (.addFloatCompact c) .addFloat .addFloat false ∧
    same (.subFloatCompact c) .subFloat .subFloat false ∧ same (.mulFloatCompact c) .mulFloat .mulFloat false ∧
    same (.minFloatCompact c) .minFloat .minFloat false ∧ same (.maxFloatCompact c) .maxFloat .maxFloat false ∧
    same (.absFloatCompact c) .absFloat .absFloat true ∧ same (.negFloatCompact c) .negFloat .negFloat true

/-- R167, R189, R139, R140: `IMAD24` and `FMAC` write their results and add the number of lanes that ran to the context's
`depcnt`; with ADVISORY set and not yet PENDING the advisory interrupt is reported. -/
def Obligations.DeprecatedForms : Prop :=
  ∀ (s : State) (f : Fields),
    let n := (s.running f).length
    let k := s.ctx s.curCtx
    let tell : Bool := n ≠ 0 ∧ k.depctl.getLsbD 0 = true ∧ k.depctl.getLsbD 1 = false
    let s1 := s.updCtx s.curCtx fun k =>
      { k with depcnt := k.depcnt + BitVec.ofNat 64 n, depctl := if tell then k.depctl ||| 2 else k.depctl }
    let u := if tell then s1.report (.irq k.pitch 2) else s1
    let low (x : Word) : Int := (x.extractLsb' 0 24).toInt
    let F := Ieee.f32
    (s.Clear .imad24 f → s.Good .imad24 f → ∃ t, exec (.imad24 f) s = .next t ∧ u.Wrote t f fun l =>
      { dst := [.gen (BitVec.ofInt 32 (low (s.wA .imad24 f l) * low (s.wB .imad24 f l) + (s.wC .imad24 f l).toInt))] }) ∧
    (s.Clear .fmac f → s.Good .fmac f → ∃ t, exec (.fmac f) s = .next t ∧ u.Wrote t f fun l =>
      let m := mulX (F.decode (s.wA .fmac f l).toNat) (F.decode (s.wB .fmac f l).toNat)
      let p := roundTo F f.rm m.1
      let a := addX f.rm (F.decode p.1) (F.decode (s.wC .fmac f l).toNat)
      let r := roundTo F f.rm a.1
      { dst := [.gen (BitVec.ofNat 32 r.1)], flags := m.2 ||| p.2 ||| (a.2 ||| r.2) })

/-! ## Special functions -/

/-- R201, R203, R199: a special-function instruction queues one result for each lane that runs and the bundle goes
on; the queue holds 16 instructions, 4 of them of one warp, and past that the instruction does not issue. R200:
the special operands of the special functions in the three formats. -/
def Obligations.SfuForms : Prop :=
  (∀ (s : State) (f : Fields) (c : Compact),
     let q := (s.core s.curCore).sfu
     let count (q : List SfuEntry) : Nat := ((q.map fun e => (e.wid, e.id)).dedup).length
     let full : Prop := 16 ≤ count q ∨ 4 ≤ count (q.filter fun e => e.wid == s.cur.wid)
     let entry (op : Op) (f : Fields) (l : Nat) : SfuEntry :=
       let r := sfuResult op f.fty f.rm (s.wA op f l)
       { id := s.curWarp.next, wid := s.cur.wid, lane := l, dst := ⟨f.ud, if f.ud then f.d.toNat % 64 else f.d.toNat⟩,
         op := op, ty := f.fty, rm := f.rm, src := (s.opA op f l).headD .zero, value := r.1, flags := r.2, pc := s.cur.pc,
         write := some l == (s.running f).head?, after := none }
     let queued (i : Instr) (op : Op) (f : Fields) : Prop :=
       s.Clear op f → s.Good op f →
         (full → exec i s = .next s) ∧
         (¬ full → ∃ t, exec i s = .next t ∧
           ((s.updCore s.curCore fun k => { k with sfu := q ++ (s.running f).map (entry op f) }).updWarp s.cur.wid fun w =>
             { w with next := w.next + 1 }).OnlyMoved t (s.nextPc f))
     queued (.rcp f) .rcp f ∧ queued (.rsq f) .rsq f ∧ queued (.sqrt f) .sqrt f ∧ queued (.exp2 f) .exp2 f ∧
     queued (.log2 f) .log2 f ∧ queued (.sin f) .sin f ∧ queued (.cos f) .cos f ∧ queued (.tanh f) .tanh f ∧
     queued (.sigm f) .sigm f ∧ queued (.erf f) .erf f ∧ queued (.sinpi f) .sinpi f ∧ queued (.cospi f) .cospi f ∧
     queued (.expm1 f) .expm1 f ∧ queued (.log1p f) .log1p f ∧ queued (.rcpCompact c) .rcp (c.expand true) ∧
     queued (.rsqCompact c) .rsq (c.expand true) ∧ queued (.exp2Compact c) .exp2 (c.expand true) ∧
     queued (.log2Compact c) .log2 (c.expand true)) ∧
  (∀ ty < 3, ∀ rm < 4,
     let F := Ieee.ofTy ty
     let gives (op : Op) (x y : Nat) (fl : BitVec 5) : Prop :=
       sfuResult op ty rm (BitVec.ofNat 32 x) = (.gen (BitVec.ofNat 32 y), fl)
     let neg (x : Nat) : Nat := F.signBit + x
     let one := F.bias.toNat * 2 ^ F.fb
     let half := one - 2 ^ F.fb
     let inf := F.infBits
     gives .rcp 0 inf flagDZ ∧ gives .rcp (neg 0) (neg inf) flagDZ ∧ gives .rcp inf 0 0 ∧ gives .rcp (neg inf) (neg 0) 0 ∧
     gives .rsq 0 inf flagDZ ∧ gives .rsq (neg 0) (neg inf) flagDZ ∧ gives .rsq inf 0 0 ∧
     gives .sqrt 0 0 0 ∧ gives .sqrt (neg 0) (neg 0) 0 ∧ gives .sqrt inf inf 0 ∧
     (∀ op ∈ [Op.rsq, .sqrt, .log2, .log1p], gives op (neg inf) F.qnan flagNV) ∧
     (∀ op ∈ [Op.rsq, .sqrt, .log2], ∀ x, 0 < x → x < inf → gives op (neg x) F.qnan flagNV) ∧
     (∀ x ∈ [0, neg 0], gives .exp2 x one 0 ∧ gives .expm1 x x 0 ∧ gives .log2 x (neg inf) flagDZ ∧ gives .log1p x x 0 ∧
       gives .sin x x 0 ∧ gives .sinpi x x 0 ∧ gives .cos x one 0 ∧ gives .cospi x one 0 ∧ gives .tanh x x 0 ∧
       gives .erf x x 0 ∧ gives .sigm x half 0) ∧
     (∀ op ∈ [Op.exp2, .expm1, .log2, .log1p], gives op inf inf 0) ∧ gives .exp2 (neg inf) 0 0 ∧
     gives .expm1 (neg inf) (neg one) 0 ∧ gives .log1p (neg one) (neg inf) flagDZ ∧
     (∀ x, one < x → x < inf → gives .log1p (neg x) F.qnan flagNV) ∧
     (∀ op ∈ [Op.sin, .cos, .sinpi, .cospi], gives op inf F.qnan flagNV ∧ gives op (neg inf) F.qnan flagNV) ∧
     (∀ op ∈ [Op.tanh, .erf], gives op inf one 0 ∧ gives op (neg inf) (neg one) 0) ∧ gives .sigm inf one 0 ∧
     gives .sigm (neg inf) 0 0 ∧
     ∀ op ∈ [Op.rcp, .rsq, .sqrt, .exp2, .expm1, .log2, .log1p, .sin, .cos, .sinpi, .cospi, .tanh, .erf, .sigm],
       ∀ x, inf < x → x < F.signBit →
         gives op x F.qnan (if x.testBit (F.fb - 1) then 0 else flagNV) ∧
           gives op (neg x) F.qnan (if x.testBit (F.fb - 1) then 0 else flagNV))

/-! ## Control -/

/-- R205, R206, R207, R204: the branches. Each lane that runs goes to its successor, with the `mr` write of MRM in both
directions, the other lanes go on to the next instruction, and the bundle splits by address. -/
def Obligations.Branches : Prop :=
  ∀ (s : State) (f : Fields),
    let offset : Int := match f.lit with
      | some l => l.toInt
      | none => (f.c ++ f.b : BitVec 18).toInt
    let target : Addr := s.cur.pc + BitVec.ofInt 55 (4 * offset)
    let meeting : Addr := s.cur.pc + BitVec.ofInt 55 (4 * (f.mrh ++ f.d).toInt)
    let mrw (t : Thread) : Thread :=
      { t with mr := if f.mrm = 1 then none else if f.mrm = 2 then some meeting else t.mr }
    let p : Nat := f.a.toNat % 16
    let taken (t : Thread) : Addr := if t.pred p then target else s.nextPc f
    let good : Prop := ∀ l < 32, s.Runs f l → (s.curWarp.lane l).predBad p = false
    let code (l : Nat) : BitVec 64 := s.pA .brx f l
    let n := (s.running f).length
    (s.Clear .bra f → ∃ t, exec (.bra f) s = .next t ∧ s.Went t f fun _ t => { mrw t with pc := target }) ∧
    (s.Clear .brc f → good → ∃ t, exec (.brc f) s = .next t ∧ s.Went t f fun _ t => { mrw t with pc := taken t }) ∧
    (s.Clear .brx f → s.Good .brx f → (∀ l < 32, s.Runs f l → (code l).toNat % 4 = 0 ∧ (code l).toNat < 2 ^ 55) →
      ∃ t, exec (.brx f) s = .next t ∧ s.Went t f fun l t => { mrw t with pc := (code l).extractLsb' 0 55 }) ∧
    (s.Clear .meet f → ∃ t, exec (.meet f) s = .next t ∧ s.Went t f fun _ t => { mrw t with pc := s.nextPc f }) ∧
    (s.Clear .brcx f → good → ∃ t, exec (.brcx f) s = .next t ∧
      (s.deprecated s.curCtx n).Went t f fun _ t => { t with mr := some meeting, pc := taken t })

/-- R210, R211, R212, R213: calls push the return address and `mr`, `RET` takes both from the top entry. `CALLI`
puts its lanes into callee groups by ascending target, all but the first parked. R209, R210, R214: a push onto
four entries stores the oldest at `csp` − 16 and lowers `csp`; a pop from none reads the entry at `csp` and
raises it; either is an access that the budget pays for (R393). The generation of the entry's return address is counted.
For one lane that runs. -/
def Obligations.CallsAndReturns : Prop :=
  (∀ (s : State) (f : Fields),
     let target := targetAddr f s.cur.pc
     let mrw (t : Thread) : Thread := t.applyMrm f s.cur.pc
     let pushed (t : Thread) : Thread := { mrw t with rstack := ⟨s.nextPc f, (mrw t).mr⟩ :: t.rstack }
     let room : Prop := ∀ l < 32, s.Runs f l → (s.curWarp.lane l).rstack.length < 4 ∧ (s.curWarp.lane l).spl < 2 ^ 24 - 1
     let callee (l : Nat) : Nat := (s.pA .calli f l).toNat
     let rank (l : Nat) : Nat := (((s.running f).map callee).dedup.filter fun a => decide (a < callee l)).length
     (s.Clear .call f → room → ∃ t, exec (.call f) s = .next t ∧ s.Went t f fun _ t => { pushed t with pc := target }) ∧
     (s.Clear .ret f → (∀ l < 32, s.Runs f l → (s.curWarp.lane l).rstack ≠ []) →
       ∃ t, exec (.ret f) s = .next t ∧ s.Went t f fun _ t =>
         match t.rstack with
         | e :: es =>
           { t with rstack := es, mr := e.ma, pc := e.ra,
                    callees := t.callees.filter fun c => c.depth != t.rstack.length + t.spl }
         | [] => t) ∧
     (s.Clear .calli f → s.Good .calli f → room → (∀ l < 32, s.Runs f l → callee l % 4 = 0 ∧ callee l < 2 ^ 55) →
       ∃ t, exec (.calli f) s = .next t ∧
         (s.Went t f fun l t =>
           { pushed t with
             pc := (s.pA .calli f l).extractLsb' 0 55
             callees := ⟨s.curWarp.next, rank l, t.rstack.length + 1 + t.spl⟩ :: t.callees }) ∧
         ∀ l < 32, s.Runs f l → 0 < rank l → ((t.warp s.cur.wid).lane l).status = .callee s.curWarp.next (rank l))) ∧
  (∀ (s : State) (f : Fields) (l : Nat), s.running f = [l] →
     let t0 := s.curWarp.lane l
     (∀ (old : RetEntry) (p q : Place) (v : State), s.Clear .call f → t0.rstack.length = 4 → t0.rstack.getLast? = some old →
       t0.spl < 2 ^ 24 - 1 → s.chargeAccess true [] [] [(t0.csp - 16).toNat, (t0.csp - 8).toNat] = some v →
       v.reachEntry (t0.csp - 16) true = .ok (p, q) →
       let gen := (s.ctx s.curCtx).genOf old.ra
       let mark : BitVec 64 :=
         (old.ma.getD 0).zeroExtend 64 ||| BitVec.ofNat 64 (gen * 2 ^ 55) ||| if old.ma.isSome then BitVec.ofNat 64 (2 ^ 63) else 0
       let u := (((v.storeTo p 8 false (ofPair (old.ra.zeroExtend 64))).storeTo q 8 false (ofPair mark)).updCtx
         s.curCtx fun c => c.countSpill gen true)
       s.SameBundle u → ∃ t, exec (.call f) s = .next t ∧ u.Went t f fun _ t =>
         { t.applyMrm f s.cur.pc with
           rstack := ⟨s.nextPc f, (t.applyMrm f s.cur.pc).mr⟩ :: t.rstack.dropLast
           csp := t.csp - 16, spl := t.spl + 1, pc := targetAddr f s.cur.pc }) ∧
     ∀ (p q : Place) (u : State), s.Clear .ret f → t0.rstack = [] → 0 < t0.spl →
       s.chargeAccess false [] [] [t0.csp.toNat, (t0.csp + 8).toNat] = some u → u.reachEntry t0.csp false = .ok (p, q) →
       let v := (u.fillFor s.curCore s.curCtx 8 0 p).fillFor s.curCore s.curCtx 8 0 q
       let ra := v.wordsAt s.curCore s.curCtx s.curPriv p 8
       let mark := v.wordsAt s.curCore s.curCtx s.curPriv q 8
       (∀ w ∈ ra ++ mark, w.wellFormed = true) → s.SameBundle v →
       let m := (pairOf mark).toNat
       ∃ t, exec (.ret f) s = .next t ∧ (v.updCtx s.curCtx fun c => c.countSpill (m / 2 ^ 55 % 256) false).Went t f fun _ t =>
         { t with pc := (pairOf ra).extractLsb' 0 55, mr := if 2 ^ 63 ≤ m then some (BitVec.ofNat 55 m) else none,
                  csp := t.csp + 16, spl := t.spl - 1, callees := t.callees.filter fun c => c.depth != t.spl })

/-- R208, R206, R231: `NOP` only moves the bundle on; `YIELD` also takes its lanes out of the ready ones; `PREFI`
changes no architectural state: only lines of the caches, translations held for code, and what the
region has used, where no word that it meets is bad and no full metadata cache has to make room. R23, R224–R229: with no lane
that runs, an instruction that acts once for its bundle only moves
the bundle on. R206, R68, R69, R212: a lane that exits is no longer live and holds no return entries, no callee
records and no trap group; where the last lane of a warp exits the warp keeps nothing, and where the last warp
of a workgroup on its own has retired and its engines are idle, the workgroup's resources are freed and its grid
counts it. -/
def Obligations.NoEffectAndExit : Prop :=
  (∀ (s : State) (f : Fields),
     (s.Clear .nop f → ∃ t, exec (.nop f) s = .next t ∧ s.OnlyMoved t (s.nextPc f)) ∧
     (s.Clear .yield f → ∃ t, exec (.yield f) s = .next t ∧ s.OnlyMoved t (s.nextPc f) ∧
       (s.running f ≠ [] → ∀ l < 32, s.active l = true → (s.curWarp.lane l).status = .ready →
         ((t.warp s.cur.wid).lane l).status = .yielded ((s.core s.curCore).issued + 1) s.cycle)) ∧
     (s.Clear .prefi f → (∀ a, (s.mem.word a).mismatched = false) → (∀ k, (KMap.getD s.metas k []).length + 16 ≤ 512) →
       ∃ t u, exec (.prefi f) s = .next t ∧ u.OnlyMoved t (s.nextPc f) ∧
       u = { s with cores := u.cores, regions := u.regions, l2 := u.l2, views := u.views, metas := u.metas, walkers := u.walkers } ∧
       (∀ c, u.core c = { s.core c with icache := (u.core c).icache, itlb := (u.core c).itlb }) ∧
       (∀ a, ∃ us, u.regions.get? a = (s.regions.get? a).map fun r => { r with used := us }) ∧
       (s.running f = [] → u = s))) ∧
  (∀ (s : State) (f : Fields), s.running f = [] →
     let moves (i : Instr) (op : Op) : Prop := s.Clear op f → ∃ t, exec i s = .next t ∧ s.OnlyMoved t (s.nextPc f)
     moves (.bari f) .bari ∧ moves (.bara f) .bara ∧ moves (.bars f) .bars ∧ moves (.post f) .post ∧
     moves (.waitC f) .waitC ∧ moves (.launch f) .launch ∧ moves (.fence f) .fence ∧ moves (.rlck f) .rlck ∧
     moves (.rlrel f) .rlrel ∧ moves (.kick f) .kick ∧ moves (.cancel f) .cancel ∧ moves (.gath f) .gath ∧
     moves (.acc f) .acc ∧ moves (.cmo f) .cmo ∧ moves (.hbind f) .hbind ∧ moves (.pref f) .pref ∧ moves (.macq f) .macq ∧
     moves (.mwait f) .mwait ∧ moves (.tinv f) .tinv ∧ moves (.cgenReg f) .cgenReg ∧ moves (.cgenLive f) .cgenLive ∧
     moves (.cgenDrop f) .cgenDrop) ∧
  ((∀ (s : State) (f : Fields), s.Clear .exitT f → (∀ l < 32, s.Runs f l → (s.curWarp.lane l).spl = 0) →
     ∃ t u, exec (.exitT f) s = .next t ∧ t = u.afterExit s.cur.wid ∧
       (s.Went u f fun _ t =>
         { t with rstack := [], frames := [], callees := [], engTraps := [], sfuFails := [], body := 0, mr := none }) ∧
       ∀ l < 32, s.Runs f l → ((u.warp s.cur.wid).lane l).status = .exited) ∧
   (∀ (s : State) (wid : Nat), (∃ l < 32, ((s.warp wid).lane l).live = true) →
     (∀ t ∈ (s.warp wid).lanes, t.status ≠ .arrived ∧ ∀ c g, t.status ≠ .callee c g) →
     (∃ e ∈ s.warps, wgKey e.1 = wgKey wid ∧ ∃ t ∈ e.2.lanes, t.awaited = true) →
     (∀ e ∈ (s.core (warpCore wid)).engine.queue, e.stuck = false) →
       s.afterExit wid = { s with warps := (s.afterExit wid).warps } ∧ ∀ v, (s.afterExit wid).warps.get? v = s.warps.get? v) ∧
   ∀ (s : State) (wid : Nat) (w : Warp), s.warps.get? wid = some w → (∀ t ∈ w.lanes, t.live = false) →
     let s1 := s.setWarp wid
       { w with lanes := w.lanes.map fun _ => .absent, wregs := [], wpart := 5, tmask := 0, loads := [], asyncs := [] }
     s.tryRetire wid = s1.tryEnd (wgKey wid) ∧
       ((∃ e ∈ s.warps, e.1 ≠ wid ∧ wgKey e.1 = wgKey wid ∧ e.2.live ≠ 0) → s.tryRetire wid = s1) ∧
       ∀ g n, s.wgs.get? (wgKey wid) = some g → g.gang = [⟨wgKey wid, n⟩] → g.ended = false →
         (∀ e ∈ s.warps, wgKey e.1 = wgKey wid → e.2.live = 0) → s.wgBusy (wgKey wid) = false →
         (s.tryRetire wid).wgs.get? (wgKey wid) = none ∧
           ((s.tryRetire wid).grid g.grid).ended = (s.grid g.grid).ended + if (s.grids.get? g.grid).isSome then 1 else 0)

/-! ## Lane instructions -/

/-- R216, R217, R218, R219, R221: votes, shuffles, matches and elections of lanes that meet. A lane sees the values of the
lanes it names that run; the status pair says whether none that it named was excluded. -/
def Obligations.VotesAndShuffles : Prop :=
  ∀ (s : State) (f : Fields),
    let n := 2 ^ s.curWarp.wpart.toNat
    let base (l : Nat) : Nat := l / n * n
    let vals (l : Nat) : List Nat := s.suppliers f l
    let p (x : Nat) : Bool := (s.curWarp.lane x).pred (f.a.toNat % 16)
    let a (op : Op) (x : Nat) : CWord := (s.opA op f x).getD 0 .zero
    let pair (k : Nat) (b : Bool) : List (Nat × Bool) := [(k, b), (k + 1, !b)]
    let status (b : Bool) : List (Nat × Bool) := if f.sp = 15 then [] else pair f.sp b
    let whole (l : Nat) : Bool := (vals l).length == (s.named f l).length
    let d := f.d.toNat % 16
    let mask (q : Nat → Bool) (g : Word) : Prop := ∀ x < 32, g.getLsbD x = q x
    let b (l : Nat) : Nat := (s.wB .shfl f l).toNat
    let source (l : Nat) : Option Nat :=
      if f.sub = 0 then some (base l + b l % n)
      else if f.sub = 1 then if base l + b l ≤ l then some (l - b l) else none
      else if f.sub = 2 then if l + b l < base l + n then some (l + b l) else none
      else some (base l + ((l - base l) ^^^ (b l % n)))
    let supplied (l : Nat) : Option Nat := (source l).filter fun x => (vals l).contains x
    let meets (op : Op) : Prop :=
      s.Clear op f ∧ s.Together (s.named f) ∧ s.Reads f (laneSources op f s.curWarp)
    (meets .vote → (∀ l < 32, s.Runs f l → (s.curWarp.lane l).predBad (f.a.toNat % 16) = false) →
      ∃ t g, exec (.vote f) s = .next t ∧ s.Met t f s.curWarp.wpart g ∧ ∀ l < 32, s.Runs f l →
        (f.sub = 0 → g l = { preds := pair d ((vals l).any p) ++ status (whole l) }) ∧
        (f.sub = 1 → g l = { preds := pair d (whole l && (vals l).all p) ++ status (whole l) }) ∧
        (f.sub = 2 → g l = { preds := pair d ((vals l).all p || (vals l).all fun x => !p x) ++ status (whole l) }) ∧
        (f.sub = 3 → ∃ m, mask (fun x => (vals l).contains x && p x) m ∧
          g l = { dst := [.gen m], preds := status (whole l) })) ∧
    (meets .shfl → ∃ t, exec (.shfl f) s = .next t ∧ s.Met t f s.curWarp.wpart fun l =>
      match supplied l with
      | some x => { dst := [a .shfl x], preds := status true }
      | none => { dst := [a .shfl l], preds := status false }) ∧
    (meets .matchL → ∃ t g, exec (.matchL f) s = .next t ∧ s.Met t f s.curWarp.wpart g ∧ ∀ l < 32, s.Runs f l →
      ∃ m, mask (fun x => (vals l).contains x &&
          decide ((s.opA .matchL f x).map (·.data) = (s.opA .matchL f l).map (·.data))) m ∧
        g l = { dst := [.gen m], preds := status (whole l) }) ∧
    (meets .elect → ∃ t, exec (.elect f) s = .next t ∧ s.Met t f s.curWarp.wpart fun l =>
      { preds := pair d ((vals l).head? == some l) ++ status (whole l) })

/-- R220, R101, R217: reductions and scans of lanes that meet. A reduction of floats adds over the tree of the tile; with no
lane to combine the result is the identity; the manual gives none for that sum, whose value is open but for R105: it is one
function of the lanes named (DESIGN CHOICE, log 7). -/
def Obligations.ReductionsAndScans : Prop :=
  ∃ open' : List Nat → Word, ∀ (s : State) (f : Fields),
    let n := 2 ^ s.curWarp.wpart.toNat
    let code := f.b.toNat % 16
    let vals (l : Nat) : List Nat := s.suppliers f l
    let status (b : Bool) : List (Nat × Bool) := if f.sp = 15 then [] else [(f.sp, b), (f.sp + 1, !b)]
    let whole (l : Nat) : Bool := (vals l).length == (s.named f l).length
    let F := Ieee.f32
    let float (x y : Word) : FVal × FVal := (F.decode x.toNat, F.decode y.toNat)
    let comb (x y : Word) : Word × BitVec 5 :=
      if code = 0 then (x + y, 0)
      else if code = 1 then (if x.toInt ≤ y.toInt then x else y, 0)
      else if code = 2 then (if x.toInt ≤ y.toInt then y else x, 0)
      else if code = 3 then (if x.toNat ≤ y.toNat then x else y, 0)
      else if code = 4 then (if x.toNat ≤ y.toNat then y else x, 0)
      else if code = 5 then (x &&& y, 0)
      else if code = 6 then (x ||| y, 0)
      else if code = 7 then (x ^^^ y, 0)
      else if code = 8 then
        let v := addX 0 (float x y).1 (float x y).2
        (BitVec.ofNat 32 (roundTo F 0 v.1).1, v.2 ||| (roundTo F 0 v.1).2)
      else
        let r := minMaxBits (code == 10) false F x.toNat y.toNat 0
        (BitVec.ofNat 32 r.1, r.2)
    let identity : Word := [0, 0x7FFFFFFF, 0x80000000, 0xFFFFFFFF, 0, 0xFFFFFFFF, 0, 0, 0, 0x7FC00000, 0x7FC00000].getD code 0
    let more (op : Op) (r : Word × BitVec 5) (y : Nat) : Word × BitVec 5 :=
      ((comb r.1 (s.wA op f y)).1, r.2 ||| (comb r.1 (s.wA op f y)).2)
    let fold (op : Op) (xs : List Nat) : Option (Word × BitVec 5) :=
      match xs with
      | [] => none
      | x :: xs => some (if 9 ≤ code then (x :: xs).foldl (more op) (identity, 0) else xs.foldl (more op) (s.wA op f x, 0))
    let join (x y : Option (Word × BitVec 5)) : Option (Word × BitVec 5) :=
      match x, y with
      | some a, some b => some ((comb a.1 b.1).1, a.2 ||| b.2 ||| (comb a.1 b.1).2)
      | some a, none => some a
      | none, y => y
    let leaf (l i : Nat) : Option (Word × BitVec 5) :=
      if (vals l).contains (l / n * n + i) then some (s.wA .red f (l / n * n + i), 0) else none
    let tree (l : Nat) : Option (Word × BitVec 5) :=
      Nat.rec (motive := fun _ => Nat → Option (Word × BitVec 5)) (leaf l) (fun _ sub i => join (sub (2 * i)) (sub (2 * i + 1)))
        s.curWarp.wpart.toNat 0
    let meets (op : Op) : Prop :=
      s.Clear op f ∧ s.Together (s.named f) ∧ s.Reads f (laneSources op f s.curWarp)
    let res (l : Nat) (r : Word × BitVec 5) : Res := { dst := [.gen r.1], flags := r.2, preds := status (whole l) }
    (meets .red → ∃ t g, exec (.red f) s = .next t ∧ s.Met t f s.curWarp.wpart g ∧ ∀ l < 32, s.Runs f l →
      (code ≠ 8 → g l = res l ((fold .red (vals l)).getD (identity, 0))) ∧
      (code = 8 → vals l ≠ [] → g l = res l ((tree l).getD (0, 0))) ∧
      (code = 8 → vals l = [] → g l = res l (open' (s.named f l), 0))) ∧
    (meets .scan → ∃ t, exec (.scan f) s = .next t ∧ s.Met t f s.curWarp.wpart fun l =>
      res l ((fold .scan ((vals l).filter fun x => if f.sub = 0 then decide (x ≤ l) else decide (x < l))).getD (identity, 0)))

/-- R222, R25, R197, R198, R89, R332: `SETPART` gives the warp its tile size when every live lane has arrived, outside
handler mode; `CVTB` makes one block of the lanes of the warp, or of the trap group (R332), and gives each lane that runs its
element, with the
block's scale byte above it. R216, R60: lanes that name a live lane which has not arrived wait at the instruction, and
write nothing. -/
def Obligations.WholeWarpForms : Prop :=
  (∀ (s : State) (f : Fields),
     let k := s.slot (f.opm.toNat % 8)
     let lead := ((s.running f).head?).getD 0
     let bias : Int := (s.wB .cvtb f lead).toInt
     let v (l : Nat) : FVal := if s.Runs f l then Ieee.f32.decode (s.wA .cvtb f l).toNat else .fin false 0 0
     let block := writeBlock k bias ((List.range 32).map v)
     (s.Clear .setpart f → s.curHandler = false → s.Together s.fellows →
       ∃ t, exec (.setpart f) s = .next t ∧ s.Met t f (f.a.extractLsb' 0 3) fun _ => {}) ∧
     (s.Clear .cvtb f → s.Good .cvtb f → slotBlk k = true → s.curWarp.wpart = 5 → s.Together s.fellows →
       (∀ l < 32, s.active l = true → ∀ x < 32, s.active x = true → x ∈ s.fellows l) →
       (s.running f ≠ [] → -128 ≤ bias ∧ bias ≤ 127) →
       ∃ t, exec (.cvtb f) s = .next t ∧ s.Met t f s.curWarp.wpart fun l =>
         { dst := [.gen (BitVec.ofNat 32 ((block.2.getD l ⟨0, 0, false⟩).code + block.1 * 256))]
           flags := (block.2.getD l ⟨0, 0, false⟩).flags })) ∧
  (∀ (s : State) (f : Fields) (x : Nat), x < 32 → (s.curWarp.lane x).live = true → s.active x = false →
     (s.curWarp.lane x).arrivals.get? s.cur.pc.toNat = none →
     (∀ l < 32, s.active l = false → (s.curWarp.lane l).status ≠ .arrived ∨ (s.curWarp.lane l).pc ≠ s.cur.pc) →
     let waits (i : Instr) (op : Op) (names : Nat → List Nat) : Prop :=
       s.Clear op f → s.Reads f (laneSources op f s.curWarp) → (∀ l < 32, s.active l = true → x ∈ names l) →
         ∃ t, exec i s = .next t ∧ s.SameDevice t ∧ s.SameElsewhere t ∧ s.OthersKeep t ∧
           t.warp s.cur.wid = { s.curWarp with lanes := (t.warp s.cur.wid).lanes } ∧
           ∀ l < 32, s.active l = true → ((t.warp s.cur.wid).lane l).status = .arrived ∧
             (t.warp s.cur.wid).lane l =
               { s.curWarp.lane l with status := .arrived, arrivals := ((t.warp s.cur.wid).lane l).arrivals }
     ((∀ l < 32, s.Runs f l → (s.curWarp.lane l).predBad (f.a.toNat % 16) = false) → waits (.vote f) .vote (s.named f)) ∧
       waits (.shfl f) .shfl (s.named f) ∧ waits (.red f) .red (s.named f) ∧ waits (.scan f) .scan (s.named f) ∧
       waits (.matchL f) .matchL (s.named f) ∧ waits (.elect f) .elect (s.named f) ∧
       (s.curHandler = false → waits (.setpart f) .setpart s.fellows) ∧
       (slotBlk (s.slot (f.opm.toNat % 8)) = true → s.curWarp.wpart = 5 → waits (.cvtb f) .cvtb s.fellows))

/-! ## Synchronisation -/

/-- R223, R224, R225, R39, R255: `BARI` writes a barrier object; `BARA` and `BARS` lower its COUNT by the sum of B, raise
the zero event at 0 with the reload of `.RL`, and set UNDER below 0; `BARA` goes on, `BARS` waits unless its own step
raised the event. A release comes first; while it cannot be done the instruction does not issue. -/
def Obligations.Barriers : Prop :=
  ∀ (s : State) (f : Fields) (l : Nat) (ls : List Nat), s.running f = l :: ls →
    let k := wgKey s.cur.wid
    let place (op : Op) (off : Nat) : Prop := off = (s.wA op f l).toNat ∧ off % 8 = 0 ∧ off + 8 ≤ s.curWg.spad
    let sound (off : Nat) : Prop := s.curWg.lineFull off = true ∧ ∀ w ∈ s.curWg.pad.words off 2, w.wellFormed = true
    let step (r : State) (op : Op) (off : Nat) : Word × State :=
      let ws := r.curWg.pad.words off 2
      let count := w0 ws - ((s.running f).map (s.wB op f)).sum
      let new := if count = 0 then if f.x then s.wC op f l else 0 else count
      let flags := w0 (ws.drop 1) ||| if new.msb then 2 else 0
      let u := r.updWg k fun g => { g with pad := g.pad.setWords off [.gen new, .gen flags] }
      (count, if count = 0 then (u.wakeAcquire (coreOf k) fun wid st => match st with
          | .barrier o scope => wgKey wid == k && o == off && 3 ≤ scope
          | _ => false).completeLanes k fun st => match st with
          | .barrier o _ => o == off
          | _ => false
        else u)
    (∀ off r, s.Clear .bari f → s.Good .bari f → place .bari off → s.Released f.scope r →
      ∃ t, exec (.bari f) s = .next t ∧
        (r.updWg k fun g => g.store off 8 [.gen (s.wB .bari f l), .gen 0]).OnlyMoved t (s.nextPc f)) ∧
    (∀ off r, s.Clear .bara f → s.Good .bara f → place .bara off → sound off → s.Released f.scope r →
      ∃ t, exec (.bara f) s = .next t ∧ (step r .bara off).2.OnlyMoved t (s.nextPc f)) ∧
    (∀ off r, s.Clear .bars f → s.Good .bars f → place .bars off → sound off → s.Released f.scope r →
      ∃ t, exec (.bars f) s = .next t ∧
        if (step r .bars off).1 = 0 then ((step r .bars off).2.acquireAt s.curCore f.scope).OnlyMoved t (s.nextPc f)
        else (step r .bars off).2.Stays t fun _ => .barrier off f.scope) ∧
    (s.releaseAt f.scope = none →
      (∀ off, s.Clear .bari f → s.Good .bari f → place .bari off → exec (.bari f) s = .next s) ∧
      (∀ off, s.Clear .bara f → s.Good .bara f → place .bara off → sound off → exec (.bara f) s = .next s) ∧
      ∀ off, s.Clear .bars f → s.Good .bars f → place .bars off → sound off → exec (.bars f) s = .next s)

/-- R226, R227, R139, R140: lanes whose wait completes go on behind their instruction; the lanes of `BARX` wait until
every live lane of the workgroup has arrived, and then all are released and counted in `depcnt`; it does not issue
while remote writes of its lanes are under way. R228, R63: `POST`
makes each lane's event bits pending in the named workgroup of the gang, its own at once and another's by a packet,
after a release. -/
def Obligations.WorkgroupEvents : Prop :=
  ((∀ (s : State) (k : Nat) (p : Status → Bool) (wid l : Nat), (s.warps.get? wid).isSome = true →
     let t := (s.warp wid).lane l
     let u := ((s.completeLanes k p).warp wid).lane l
     (wgKey wid = k → l < (s.warp wid).lanes.length → p t.status = true →
       u = { t with pc := t.pc + 8, window := t.window - 1, wmask := 0, age := s.cycle, parks := false,
                    status := if t.parks then .parked else if t.frames = [] then .joining else .ready }) ∧
     (p t.status = false → t.frames = [] → u = t) ∧ (wgKey wid ≠ k → u = t)) ∧
   ∀ (s : State) (f : Fields), s.Clear .barx f →
     let k := wgKey s.cur.wid
     (s.inFlight s.cur.wid s.cur.mask = true → exec (.barx f) s = .next s) ∧
     (s.inFlight s.cur.wid s.cur.mask = false → ∃ t u : State, exec (.barx f) s = .next t ∧
       (s.Stays u fun l => .barx ((s.curWarp.lane l).guard f.g)) ∧
       t = (if ∀ e ∈ u.warps, wgKey e.1 = k → ∀ x ∈ e.2.lanes, x.awaited = false then (u.deprecated (s.wg k).ctx
           ((u.warps.filter fun e => wgKey e.1 == k).map fun e => e.2.barxCounts).sum).completeLanes k isBarx
         else u))) ∧
  (∀ (s : State) (f : Fields) (r : State), s.Clear .post f → s.Good .post f →
     let rank (l : Nat) : Nat := (s.wB .post f l).toNat % 16
     let bits (l : Nat) : BitVec 8 := (s.wA .post f l).extractLsb' 0 8
     let one (u : State) (l : Nat) : State :=
       let m := s.curWg.gang.getD (rank l) ⟨0, 0⟩
       if m.key = wgKey s.cur.wid then u.updWg m.key fun g => { g with events := g.events ||| (bits l).zeroExtend 16 }
       else u.send s.cur.wid l (coreEndpoint (coreOf m.key)) (.post m.key (bits l))
     s.Released f.scope r → r.curWg.gang = s.curWg.gang → (∀ l < 32, s.Runs f l → rank l < s.curWg.gang.length) →
       ∃ t, exec (.post f) s = .next t ∧ ((s.running f).foldl one r).OnlyMoved t (s.nextPc f))

/-- R62, R63, R64, R65, R229: the conditions of a wait record, and `WAIT`: the result word where the first evaluation
completes it or the time-out is 0, and otherwise the whole bundle waiting with its deadline. R64, R65, R66, R67, R203,
R327, R337, R338, R462: what goes on by itself. A waiting bundle is evaluated again and completes with its result
word, at the latest when its deadline has passed, and with TO where that was so at its resumption; queued SFU results
are written; a whole warp enters the handler of an asynchronous cause; the budget of an emulation routine kills its
context; that of any handler lets a pre-emption proceed that it held back, and changes nothing without one. -/
def Obligations.WaitingForms : Prop :=
  ((∀ x v : Word, compares 0 x v = decide (x = v) ∧ compares 1 x v = decide (x ≠ v) ∧
     compares 2 x v = decide (x.toInt < v.toInt) ∧ compares 3 x v = decide (v.toInt ≤ x.toInt) ∧
     compares 4 x v = decide (x.toNat < v.toNat) ∧ compares 5 x v = decide (v.toNat ≤ x.toNat)) ∧
   (∀ (s : State) (wid : Nat) (priv : Bool) (cs : List Cond) (b : Cond → Bool), (∀ c ∈ cs, c.k < 4) →
     (∀ c ∈ cs, s.observe wid priv c = .ok (b c)) →
       (s.evaluate wid priv cs).2 = none ∧
         ∀ k < 4, ((s.evaluate wid priv cs).1.getLsbD k = true ↔ ∃ c ∈ cs, c.k = k ∧ b c = true)) ∧
   ∀ (s : State) (f : Fields) (l : Nat) (ls : List Nat) (cs : List Cond) (now : BitVec 4) (v : State), s.running f = l :: ls →
     s.Clear .waitC f → s.Good .waitC f → s.waitRecord s.cur.wid (s.wA .waitC f l).toNat = .ok cs →
     s.chargeAccess false [] [] (watchedVas cs) true = some v → v.evaluate s.cur.wid s.curPriv cs = (now, none) →
       let limit := s.wB .waitC f l
       let satisfied : Bool := if f.x then cs.all fun c => now.getLsbD c.k else now ≠ 0
       let w : WaitInfo :=
         { off := s.wA .waitC f l, deadline := if limit = 0xFFFFFFFF then none else some (s.time + limit.toNat), all := f.x,
           late := false, scope := f.scope, seen := now, uni := f.ud, dst := f.d.toNat }
       (∀ c ∈ cs, c.k < 4) →
       if satisfied = true ∨ limit = 0 then
         let u := (v.takeEvents s.cur.wid cs now).acquireAt s.curCore (if satisfied then f.scope else 0)
         ∃ t, exec (.waitC f) s = .next t ∧ u.Wrote t f fun _ =>
           { dst := [.gen (BitVec.ofNat 32 (now.toNat + if satisfied then 0 else 16))] }
       else ∃ t, exec (.waitC f) s = .next t ∧ v.Stays t fun l => .waiting w (decide (s.Runs f l))) ∧
  ((∀ (s : State) (wid bid : Nat) (i : WaitInfo) (cs : List Cond), (s.warps.get? wid).isSome = true →
     (s.warp wid).lanes.length = 32 → (s.warp wid).waitOf bid = some i → s.waitRecord wid i.off.toNat = .ok cs →
     let v := s.pay (warpCore wid) (s.ctxOf wid) (s.gridOf wid)
       (s.accessBill (warpCore wid) (s.ctxOf wid) { user := !(s.gridOf wid).priv } (watchedVas cs) true)
     let now := (v.evaluate wid (s.gridOf wid).priv cs).1
     let enough : Bool := decide (now ≠ 0) && (!i.all || cs.all fun c => (i.seen ||| now).getLsbD c.k)
     let past : Bool := i.deadline.any fun d => decide (d ≤ s.time)
     let waits (l : Nat) : Prop := ∃ j b, ((s.warp wid).lane l).status = .waiting j b ∧ ((s.warp wid).lane l).bid = bid
     let writes (l : Nat) : Bool := match ((s.warp wid).lane l).status with
       | .waiting _ b => b
       | _ => false
     (∀ c ∈ cs, c.k < 4) →
     (enough = true ∨ i.late = true ∨ past = true → ∃ t, exec (.waitEvaluation wid bid) s = .next t ∧
       let x : CWord := .gen (BitVec.ofNat 32 (now.toNat + if enough && !i.late then 0 else 16))
       (i.uni = true → (t.warp wid).wreg (i.dst % 64) = x) ∧
       ∀ l < 32, (¬ waits l → (t.warp wid).lane l = (s.warp wid).lane l) ∧
         (waits l → ((t.warp wid).lane l).pc = ((s.warp wid).lane l).pc + 8 ∧
           ∀ r, ((t.warp wid).lane l).reg r =
             if i.uni = false ∧ r = i.dst ∧ writes l = true then x
             else ((s.warp wid).lane l).reg r)) ∧
     (enough = false → i.late = false → past = false → ∃ t, exec (.waitEvaluation wid bid) s = .next t ∧
       t = { v with warps := t.warps } ∧
       ∀ l < 32, ((t.warp wid).lane l).pc = ((s.warp wid).lane l).pc ∧
         ((t.warp wid).lane l).regs = ((s.warp wid).lane l).regs) ∧
     (past = true → exec (.waitTimeout wid bid) s = exec (.waitEvaluation wid bid) s) ∧
     (past = false → exec (.waitTimeout wid bid) s = .next s)) ∧
   (∀ (s : State) (core : Nat) (e : SfuEntry) (q : List SfuEntry), (s.core core).sfu = e :: q →
     let mine (x : SfuEntry) : Bool := x.wid = e.wid ∧ x.id = e.id
     (s.warps.get? e.wid).isSome = true → (s.warp e.wid).lanes.length = 32 →
     (∀ x ∈ e :: q, mine x = true → x.lane < 32 ∧ x.value.wellFormed = true ∧ x.after = none ∧ x.dst.uni = false) →
     (((e :: q).filter mine).map (·.lane)).Nodup →
       ∃ t, exec (.sfuWriteBack core) s = .next t ∧ (t.core core).sfu = (e :: q).filter (fun x => !mine x) ∧
         ∀ x ∈ e :: q, mine x = true → (t.warp e.wid).lane x.lane =
           if ((s.warp e.wid).lane x.lane).live then
             ({ (s.warp e.wid).lane x.lane with fflags := ((s.warp e.wid).lane x.lane).fflags ||| x.flags }).setReg x.dst.reg
               (sfuResult x.op x.ty x.rm x.src.data).1
           else (s.warp e.wid).lane x.lane) ∧
   (∀ (s : State) (wid : Nat) (a : Async) (as : List Async) (pc : Addr), (s.warp wid).asyncs = a :: as →
     (s.warps.get? wid).isSome = true → (s.warp wid).lanes.length = 32 → (s.warp wid).asyncDue = true →
     (∀ e ∈ (s.core (warpCore wid)).sfu, e.wid ≠ wid) → s.vector (warpCore wid) (s.ctxOf wid) a.cause = some pc →
       ∃ t, exec (.asyncEntry wid) s = .next t ∧ (∀ v, v ≠ wid → t.warp v = s.warp v) ∧
         t.warp wid = { s.warp wid with lanes := (t.warp wid).lanes, asyncs := as, next := (s.warp wid).next + 1 } ∧
         ∀ l < 32, ∃ fr : Frame,
           let u := (s.warp wid).lane l
           (t.warp wid).lane l = { u with frames := fr :: u.frames, mr := none, pc := pc, hi := 0, bid := (s.warp wid).next,
                                          status := .ready, parks := false, window := 0, wmask := 0, body := 0 } ∧
             fr.tfm = 0xFFFFFFFF ∧ fr.tam = (s.warp wid).live ∧ fr.tcause = BitVec.ofNat 16 (a.cause + 256) ∧
             fr.tinfo = a.info ∧ fr.taddr = a.addr ∧ fr.mr = u.mr ∧ fr.async = some ⟨u.pc, u.hi, u.bid, u.parks, u.status⟩) ∧
   ∀ (s : State) (wid gid : Nat),
     let past (emu : Bool) : Bool := (s.warp wid).lanes.any fun t => t.live &&
       t.frames.any fun g => g.gid == gid && (!emu || g.emu.isSome) && decide (g.since + Config.handlerBudget ≤ s.time)
     (past true = false → exec (.emulationTimeout wid gid) s = .next s) ∧
     (past true = true → (s.ctxs.get? (s.ctxOf wid)).isSome = true →
       ∃ t, exec (.emulationTimeout wid gid) s = .next t ∧ (t.ctx (s.ctxOf wid)).retired = true) ∧
     ∃ t, exec (.handlerBudgetExpiry wid gid) s = .next t ∧ (past false = false → t = s) ∧
       (past false = true → exec (.preemptionDone (s.ctx (s.ctxOf wid)).pitch) s = .next t))

/-! ## Traps and system access -/

/-- R56, R233, R327, R329, R331: taking a trap. `TRAP` enters the handler in the lanes that run, with its code and the
next instruction's address; a trap of every active lane reports the instruction's own address. R141, R142, R137:
whatever the instruction, the lowest WHY that its fields meet raises `ILLEGAL` in every active lane, and with none a
privileged instruction in user mode raises `PRIV` there. R110, R112, R329, R21: a lane whose sources hold a bad word
takes the trap and writes nothing, while the other lanes complete; here for `ADD`, where the lanes `ls` of those that
run trap alike. -/
def Obligations.TrapsAreTaken : Prop :=
  (∀ (s : State) (f : Fields) (pc : Addr),
     (s.Clear .trap f → s.Enters (s.running f) 14 pc → ∃ t, exec (.trap f) s = .next t ∧
       s.TookTrap t (s.running f) ⟨14, f.a.zeroExtend 32, s.pc64⟩ ((s.nextPc f).zeroExtend 64) pc ∧
       ∀ l < 32, s.active l = true → l ∉ s.running f → ((t.warp s.cur.wid).lane l).pc = s.nextPc f) ∧
     (s.Clear .trap f → s.running f = [] → ∃ t, exec (.trap f) s = .next t ∧ s.OnlyMoved t (s.nextPc f)) ∧
     ∀ (x : Trap), s.Enters (lanesOf s.cur.mask) x.cause pc →
       s.TookTrap (s.trapActive x) (lanesOf s.cur.mask) x s.pc64 pc) ∧
  (∀ (s : State) (i : Instr) (op : Op) (f : Fields), partsOf i = some (op, f) →
     (∀ w, lowest (f.whys op ++ nWhys op f s.curWg.nreg) = some w → op ∉ [Op.cvtb, .setpart, .tret] ∨ w < 10 →
       exec i s = .next (s.trapActive (illegalTrap op f w s.pc64))) ∧
     (lowest (f.whys op ++ nWhys op f s.curWg.nreg) = none → op ∉ [Op.cvtb, .setpart, .tret] → op.privileged = true →
       s.curPriv = false → exec i s = .next (s.trapActive (privTrap s.pc64)))) ∧
  (∀ (s : State) (f : Fields) (bad : Nat → Bool) (x : Trap) (pc : Addr), s.Clear .add f → f.ud = false →
     (∀ l < 32, s.Runs f l →
       checkSources (sources .add f s.curWarp (s.curWarp.lane l) false) s.pc64 = if bad l then some x else none) →
     let ls := (s.running f).filter bad
     s.Enters ls x.cause pc →
       ∃ t, exec (.add f) s = .next t ∧ s.SameDevice t ∧ s.SameElsewhere t ∧ s.OthersKeep t ∧
         ∀ l < 32, s.Runs f l →
           if bad l then (t.warp s.cur.wid).lane l = s.entered ls x s.pc64 pc l
           else ((t.warp s.cur.wid).lane l).pc = s.nextPc f ∧
             (s.curWarp.lane l).Took ((t.warp s.cur.wid).lane l) f
               { dst := [.gen (tyWrite f.ty f.sat (s.iA .add f l + s.iB .add f l))] })

/-- R234, R334, R333, R338, R59: `TRET` returns each lane to `tpc` with its `mr`, those that return to a handler as a group
of their own; a lane that an asynchronous entry stopped goes
back to what it did, unless the handler wrote `tpc`. Outside a trap group it is `ILLEGAL` with WHY 10. -/
def Obligations.TrapReturn : Prop :=
  ∀ (s : State) (f : Fields),
    let outer (gs : List Frame) : List Frame :=
      match gs with
      | [] => []
      | h :: hs => { h with gid := s.curWarp.next } :: hs
    let back (t : Thread) : Thread :=
      match t.frames with
      | [] => t
      | g :: gs =>
        match g.async with
        | some r =>
          if g.wrote then
            { t with frames := outer gs, mr := none, pc := BitVec.ofNat 55 g.tpc.toNat, hi := g.tpc.extractLsb' 55 9, callees := [],
                     arrivals := [] }
          else { t with frames := outer gs, mr := g.mr, pc := r.pc, hi := r.hi }
        | none => { t with frames := outer gs, mr := g.mr, pc := BitVec.ofNat 55 g.tpc.toNat, hi := g.tpc.extractLsb' 55 9 }
    (s.Clear .tret f → s.curHandler = true →
      (∀ l < 32, s.active l = true → (s.curWarp.lane l).status = .ready ∧
        ∀ g ∈ (s.curWarp.lane l).frames, g.emu = none ∧ g.entry = none ∧
          ∀ r, g.async = some r → r.status ≠ .exited ∧ ∀ c n, r.status ≠ .callee c n) →
      ∃ t, exec (.tret f) s = .next t ∧ (s.deprecated s.curCtx 0).Went t f fun _ t => back t) ∧
    (s.Decodes .tret f → s.curHandler = false → exec (.tret f) s = .next (s.trapActive (illegalTrap .tret f 10 s.pc64)))

/-- R235, R236, R27, R34, R49, R209, R140, R399: `SYSR` reads each special register, zero-extended; the privileged ones only
in privileged mode. Wherever the mode allows it, it completes. -/
def Obligations.SpecialReads : Prop :=
  ∀ (s : State) (f : Fields), s.Clear .sysr f →
    let d := s.gridOf s.cur.wid
    let g := s.curWg
    let k := s.ctx s.curCtx
    let n := f.b.toNat
    let lin (l : Nat) : Nat := s.cur.wid % 32 * 32 + l
    let dim (xs : List Nat) (j : Nat) : Nat := max 1 (xs.getD j 1)
    let frame (l : Nat) (v : Frame → Nat) : Nat := ((s.curWarp.lane l).frames.head?.map v).getD 0
    let emu (l : Nat) (v : Emulation → Nat) : Nat := (((s.curWarp.lane l).frames.head?.bind (·.emu)).map v).getD 0
    let bound (j : Nat) : Bound := k.bounds.getD j .reset
    let reads (wide : Bool) (v : Nat → Nat) : Prop := ∃ t, exec (.sysr f) s = .next t ∧ s.Wrote t f fun l =>
      { dst := if wide then [.gen (BitVec.ofNat 32 (v l)), .gen (BitVec.ofNat 32 (v l / 2 ^ 32 % 2 ^ 32))]
               else [.gen (BitVec.ofNat 32 (v l))] }
    (n = 0x00 → reads false id) ∧
    (n = 0x01 → reads false fun l => lin l % dim d.ntid 0) ∧
    (n = 0x02 → reads false fun l => lin l / dim d.ntid 0 % dim d.ntid 1) ∧
    (n = 0x03 → reads false fun l => lin l / (dim d.ntid 0 * dim d.ntid 1)) ∧
    (∀ j < 3, n = 0x04 + j → reads false fun _ => d.ntid.getD j 1) ∧
    (n = 0x08 → reads false fun _ => g.linear % dim d.nwg 0) ∧
    (n = 0x09 → reads false fun _ => g.linear / dim d.nwg 0 % dim d.nwg 1) ∧
    (n = 0x0A → reads false fun _ => g.linear / (dim d.nwg 0 * dim d.nwg 1)) ∧
    (∀ j < 3, n = 0x0C + j → reads false fun _ => d.nwg.getD j 1) ∧
    (n = 0x10 → reads false fun _ => s.cur.wid % 32) ∧ (n = 0x11 → reads false fun _ => g.linear % max 1 d.gang) ∧
    (n = 0x12 → reads false fun _ => d.gang) ∧ (n = 0x13 → reads false fun _ => s.curCore % 200) ∧
    (n = 0x14 → reads false fun _ => s.curCore / 200) ∧ (n = 0x15 → reads false fun _ => k.pitch) ∧
    (n = 0x16 → reads false fun _ => s.curCtx) ∧ (n = 0x18 → reads true fun _ => s.cycle) ∧
    (n = 0x19 → reads true fun _ => s.time) ∧ (n = 0x1A → reads true fun l => (s.curWarp.lane l).csp.toNat) ∧
    (n = 0x1B → reads true fun _ => d.pool.toNat) ∧
    (n = 0x1C → reads false fun l => (s.curWarp.lane l).rstack.length + (s.curWarp.lane l).spl * 256) ∧
    (n = 0x20 → reads false fun _ => s.curWarp.tmask.toNat) ∧ (n = 0x21 → reads false fun l => frame l (·.tfm.toNat)) ∧
    (n = 0x22 → reads false fun l => frame l (·.tam.toNat)) ∧ (n = 0x23 → reads false fun l => frame l (·.tcause.toNat)) ∧
    (n = 0x24 → reads false fun l => frame l (·.tinfo.toNat)) ∧ (n = 0x25 → reads true fun l => frame l (·.tpc.toNat)) ∧
    (n = 0x26 → reads true fun l => frame l (·.taddr.toNat)) ∧
    (∀ j < 4, n = 0x28 + j → reads false fun _ => ((s.core s.curCore).cwp.getD j 0 - g.view.getD j 0 : Word).toNat) ∧
    (n = 0x2C → reads false fun _ => g.mstat.toNat) ∧ (n = 0x2D → reads false fun l => (s.curWarp.lane l).fflags.toNat) ∧
    (∀ j < 16, (n = 0x30 + 3 * j → reads false fun _ => (bound j).lo.toNat) ∧
      (n = 0x31 + 3 * j → reads false fun _ => (bound j).hi.toNat) ∧
      (n = 0x32 + 3 * j → reads false fun _ => (bound j).ctl.toNat)) ∧
    (n = 0x60 → reads true fun _ => k.depcnt.toNat) ∧ (n = 0x68 → reads false fun _ => s.rnstat s.curCtx) ∧
    (s.curPriv = true →
      (n = 0x61 → reads false fun _ => k.depctl.toNat) ∧
      (n = 0x62 → reads true fun _ => (s.core s.curCore).finj.toNat) ∧ (n = 0x63 → reads true fun _ => k.tvec.toNat) ∧
      (n = 0x64 → reads true fun _ => k.ptroot.toNat) ∧ (n = 0x69 → reads true fun l => emu l (·.key.toNat)) ∧
      (n = 0x6A → reads false fun l => emu l (·.lit.toNat)) ∧ (n = 0x6B → reads true fun l => emu l (·.rnmr.toNat))) ∧
    (s.curPriv = true ∨ ¬ ((0x61 ≤ n ∧ n ≤ 0x64) ∨ (0x69 ≤ n ∧ n ≤ 0x6B)) → ∃ t g, exec (.sysr f) s = .next t ∧ s.Wrote t f g) ∧
    (s.curPriv = false → ∀ pc, (0x61 ≤ n ∧ n ≤ 0x64) ∨ (0x69 ≤ n ∧ n ≤ 0x6B) → s.Enters (s.running f) 2 pc →
      s.running f = lanesOf s.cur.mask →
      ∃ t, exec (.sysr f) s = .next t ∧ s.TookTrap t (s.running f) (privTrap s.pc64) s.pc64 pc)

/-- R235, R236, R27, R34, R119, R140, R295, R411: `SYSW`. A register of a lane takes each lane's value; one that the lanes
share takes the value where the lanes that run agree on it. Whatever the values, and with no lane that runs, it completes where
the mode allows the register and no `csp` is misaligned. -/
def Obligations.SpecialWrites : Prop :=
  (∀ (s : State) (f : Fields), s.Clear .sysw f → s.Reads f (syswSources f s) →
    let n := f.b.toNat
    (s.curPriv = true ∨ n = 0x1A ∨ n = 0x20 ∨ n = 0x25 ∨ n = 0x2C ∨ n = 0x2D ∨ (0x30 ≤ n ∧ n ≤ 0x5F)) →
    (n = 0x1A → ∀ l < 32, s.Runs f l → (s.pA .sysw f l).toNat % 8 = 0) →
      ∃ t, exec (.sysw f) s = .next t ∧
        t = { s with warps := t.warps, ctxs := t.ctxs, wgs := t.wgs, cores := t.cores, free := t.free } ∧
        ∀ l < 32, s.active l = true → ((t.warp s.cur.wid).lane l).pc = s.nextPc f ∧
          ((t.warp s.cur.wid).lane l).regs = (s.curWarp.lane l).regs) ∧
  ∀ (s : State) (f : Fields) (v : BitVec 64), s.Clear .sysw f → s.Reads f (syswSources f s) → s.running f ≠ [] →
    let n := f.b.toNat
    let w : Word := v.extractLsb' 0 32
    let x (l : Nat) : BitVec 64 := s.pA .sysw f l
    let agreed : Prop := ∀ l < 32, s.Runs f l → x l = v
    let moved (u : State) : Prop := ∃ t, exec (.sysw f) s = .next t ∧ ({ u with free := s.free + 1 } : State).OnlyMoved t (s.nextPc f)
    let ctx (g : Context → Context) : State := s.updCtx s.curCtx g
    let each (g : Nat → Thread → Thread) : State :=
      s.updWarp s.cur.wid fun w => w.mapLanes fun l t => if (s.running f).contains l then g l t else t
    let old : Bound := (s.ctx s.curCtx).bounds.getD ((n - 0x30) / 3) .reset
    let bound (b : Bound) : State := ctx fun c => { c with bounds := KMap.set c.bounds ((n - 0x30) / 3) b .reset }
    (n = 0x1A → (∀ l < 32, s.Runs f l → (x l).toNat % 8 = 0) → moved (each fun l t => { t with csp := x l })) ∧
    (n = 0x2D → moved (each fun l t => { t with fflags := (x l).extractLsb' 0 5 })) ∧
    (n ∈ [0x00, 0x10, 0x18, 0x1C, 0x21, 0x26, 0x28, 0x68, 0x69] → s.curPriv = true → moved s) ∧
    (n = 0x6B → s.curPriv = true → moved (each fun l t => t.writeRnmr (x l))) ∧
    (agreed →
      (n = 0x20 → moved (s.updWarp s.cur.wid fun u => { u with tmask := w &&& 3 })) ∧
      (n = 0x2C → moved (s.updWg (wgKey s.cur.wid) fun g =>
        { g with mstat := g.mstat &&& ~~~(w &&& 0x7F) &&& if w.getLsbD 0 then 0xFFFF00FF else 0xFFFFFFFF })) ∧
      (∀ j < 16, (n = 0x30 + 3 * j → moved (bound { old with lo := w })) ∧
        (n = 0x31 + 3 * j → moved (bound { old with hi := w })) ∧
        (n = 0x32 + 3 * j → moved (bound { old with ctl := (w &&& 3) ||| (old.ctl &&& 4 &&& ~~~w) }))) ∧
      (n = 0x25 → (∀ l < 32, s.Runs f l → ∀ g ∈ (s.curWarp.lane l).frames, g.emu = none) →
        (∀ l < 32, s.Runs f l → (s.curWarp.lane l).frames.head?.map (·.gid) =
          (s.curWarp.lane ((s.running f).headD 0)).frames.head?.map (·.gid)) →
        moved (s.updWarp s.cur.wid fun u => u.writeTpc ((s.running f).headD 0) v)) ∧
      (s.curPriv = true →
        (n = 0x60 → moved (ctx fun c => { c with depcnt := v })) ∧
        (n = 0x61 → moved (ctx fun c => { c with depctl := (w &&& 1) ||| (c.depctl &&& 2 &&& ~~~w) })) ∧
        (n = 0x62 → ¬ (v.getLsbD 0 = true ∧ 6 ≤ v.toNat / 2 % 8) →
          moved (s.updCore s.curCore fun c => { c with finj := (v &&& 0x1FFFFFFF) ||| (c.finj &&& 0x100000000 &&& ~~~v) })) ∧
        (n = 0x63 → moved (ctx fun c => { c with tvec := v })) ∧
        (n = 0x64 → moved (ctx fun c => { c with ptroot := v &&& 0x000FFFFFFFFF0001 })))) ∧
    (s.curPriv = false → ∀ pc, n ∈ [0, 0x10, 0x18, 0x60, 0x61, 0x62, 0x63, 0x64] → s.Enters (s.running f) 2 pc →
      s.running f = lanesOf s.cur.mask →
      ∃ t, exec (.sysw f) s = .next t ∧ s.TookTrap t (s.running f) (privTrap s.pc64) s.pc64 pc)

/-- R237, R238, R214: `TINV` drops the issuing context's translations of the pages named, or of all, and the
walkers' entries that serve them; `CGEN` registers,
counts and drops code generations of a context. -/
def Obligations.TranslationsAndGenerations : Prop :=
  ∀ (s : State) (f : Fields) (l : Nat) (ls : List Nat), s.running f = l :: ls →
    let base := (s.pA .tinv f l).toNat
    let pages := (s.wB .tinv f l).toNat
    let keep (t : Tlb) : Bool :=
      t.ctx ≠ s.curCtx ∨ (pages ≠ 0 ∧
        (t.va + (if t.big then 2 ^ 29 else 2 ^ 16) ≤ base ∨ base + 65536 * pages ≤ t.va))
    let keepWalk (w : WalkEntry) : Bool :=
      w.ctx ≠ s.curCtx ∨ (pages ≠ 0 ∧ (w.va + w.size ≤ base ∨ base + 65536 * pages ≤ w.va))
    (∀ r, s.Clear .tinv f → s.Good .tinv f → base % 65536 = 0 → s.Released 5 r → r.curCtx = s.curCtx →
      ∃ t, exec (.tinv f) s = .next t ∧
        ({ r with
          cores := r.cores.mapv fun _ k => { k with dtlb := k.dtlb.filter keep, itlb := k.itlb.filter keep }
          walkers := r.walkers.mapv fun _ l => l.filter keepWalk } : State).OnlyMoved
          t (s.nextPc f)) ∧
    (∀ k, s.Clear .cgenReg f → s.Good .cgenReg f → (s.pA .cgenReg f l).toNat % 128 = 0 →
      s.ctxs.get? (s.wC .cgenReg f l).toNat = some k →
      let lo := (s.pA .cgenReg f l).toNat
      let len := ((s.wB .cgenReg f l).toNat + 127) / 128 * 128
      let clash : Bool := k.gens.any fun e => decide (lo < e.2.base + e.2.len) && decide (e.2.base < lo + len)
      let taken (n : Nat) : Bool := (k.gens.get? n).isSome
      let give (u : State) (n : Nat) : Prop := ∃ t, exec (.cgenReg f) s = .next t ∧ u.Wrote t f fun _ =>
        { dst := [.gen (BitVec.ofNat 32 n)] }
      (clash = true ∨ (∀ n, 1 ≤ n → n ≤ 255 → taken n = true) → give (s.updCtx (s.wC .cgenReg f l).toNat fun _ => k) 0) ∧
        ∀ n, clash = false → 1 ≤ n → n ≤ 255 → taken n = false → (∀ m, 1 ≤ m → m < n → taken m = true) →
          give (s.updCtx (s.wC .cgenReg f l).toNat fun _ => { k with gens := k.gens.put n ⟨lo, len, 0⟩ }) n) ∧
    (s.Clear .cgenLive f → s.Good .cgenLive f → ∃ t, exec (.cgenLive f) s = .next t ∧ s.Wrote t f fun _ =>
      { dst := [.gen (match (s.ctx (s.wC .cgenLive f l).toNat).gens.get? (s.wA .cgenLive f l).toNat with
        | some g => BitVec.ofNat 32 (s.liveCount (s.wC .cgenLive f l).toNat g)
        | none => 0xFFFFFFFF)] }) ∧
    (s.Clear .cgenDrop f → s.Good .cgenDrop f →
      let c := (s.wC .cgenDrop f l).toNat
      let n := (s.wA .cgenDrop f l).toNat
      ∃ t, exec (.cgenDrop f) s = .next t ∧
        match (s.ctx c).gens.get? n with
        | none => s.Wrote t f fun _ => { dst := [.gen 0xFFFFFFFF] }
        | some g =>
          if s.liveCount c g = 0 then
            (s.updCtx c fun k => { k with gens := k.gens.erase n }).Wrote t f fun _ => { dst := [.gen 0] }
          else s.Wrote t f fun _ => { dst := [.gen (BitVec.ofNat 32 (s.liveCount c g))] })

/-! ## Memory -/

/-- R239, R241, R38: the address of each access form and its checks in order: `ALIGN`, `DATA`, `PAGE`, `RANGELOCK`; a pool
access is also checked against its record. `tinfo` of `ALIGN` is open (log 33). -/
def Obligations.Addresses : Prop :=
  ∀ (s : State) (f : Fields) (w : Bool) (l : Nat),
    let n := szBytes f.sz
    let i (op : Op) := s.reads op f w l
    let ea := s.pA .ld f l + (s.wB .ld f l).signExtend 64
    let off := ((s.wA .lds f l).toNat + (s.wB .lds f l).toNat) % 2 ^ 32
    let fault (c : Nat) (info : Word) (a : Nat) : Except Trap Place := .error ⟨c, info, BitVec.ofNat 64 a⟩
    let global (ea : Nat) : Except Trap Place :=
      if ea % n ≠ 0 then .error (alignTrap (BitVec.ofNat 64 ea))
      else if 2 ^ 55 ≤ ea then fault causeData (dataInfo 4 0) ea
      else if w = true ∧ s.inPool ea n = true then fault causeData (dataInfo 8 0) ea
      else match s.translate s.curCore s.curCtx ea { write := w, user := !s.curPriv } with
        | .error info => fault causePage info ea
        | .ok pa => match (s.core s.curCore).locked s.curCtx (wgKey s.cur.wid % 16) false ea n w with
          | some e => fault causeRangelock (lockInfo e) ea
          | none => .ok (.global (BitVec.ofNat 64 ea) pa)
    let pad (off : Nat) : Except Trap Place :=
      if off % n ≠ 0 then .error (alignTrap (BitVec.ofNat 64 off))
      else if s.curWg.spad < off + n then fault causeData (dataInfo 5 0) off
      else match (s.core s.curCore).locked s.curCtx (wgKey s.cur.wid % 16) true off n w with
        | some e => fault causeRangelock (lockInfo e) off
        | none => .ok (.pad (wgKey s.cur.wid) off)
    let idx := f.pix * 512 + f.a.toNat
    s.placeOf .ld f w (i .ld) = global ea.toNat ∧ s.placeOf .st f w (i .st) = s.placeOf .ld f w (i .ld) ∧
    s.placeOf .ldu f w (i .ldu) = global (s.pA .ldu f l + (s.wB .ldu f l).signExtend 64).toNat ∧
    s.placeOf .lds f w (i .lds) = pad off ∧ s.placeOf .sts f w (i .sts) = pad off ∧
    (∀ r, s.poolRecord idx = .ok r →
      let b := (s.wB .ldp f l).toNat
      let pa := (r.base + BitVec.ofNat 64 b).toNat
      s.placeOf .ldp f w (i .ldp) =
        if pa % n ≠ 0 then .error (alignTrap (BitVec.ofNat 64 pa))
        else if (if w then r.wr else r.rd) = false ∨ r.size < b + n then fault causeData (dataInfo 7 idx) pa
        else global pa) ∧
    ∀ m, s.curWg.gang[(s.wA .ldr f l).toNat / 2 ^ 24 % 16]? = some m → m.key ≠ wgKey s.cur.wid →
      (s.wA .ldr f l).toNat < 2 ^ 28 →
      ∀ o : Nat, ((s.wA .ldr f l).toNat % 2 ^ 24 : Int) + (s.wB .ldr f l).toInt = o → o % n = 0 → o + n ≤ (s.wg m.key).spad →
        s.placeOf .ldr f w (i .ldr) = .ok (.pad m.key o)

/-- R243, R242, R248, R245, R139, R361, R362: a load brings the global lines that it misses into L1 and writes the words it
reads, a byte or a half extended to 32 bits; an acquire at gang scope or wider clears the clean words of L1; while a
scratchpad line that it reads is empty, or an outstanding load of a lane reads the same bytes (R308), it is left
outstanding and the bundle goes on. `LDU` counts in `depcnt`. R243, R245, R133: an outstanding load returns once every
line it reads is full and no earlier one of the same bytes is outstanding: its lanes that still live take their words;
until then nothing happens. A load does not issue while an own remote write to its bytes is under way; here none is. -/
def Obligations.LoadForms : Prop :=
  (∀ (s u : State) (f : Fields) (p : Nat → Place),
     let n := szBytes f.sz
     let v := (s.running f).foldl (fun (v : State) l => v.fillFor s.curCore s.curCtx n f.cCh (p l)) u
     let behind : Bool := s.curWarp.behindLoad s.curWarp.next n ((s.running f).map fun l => (l, p l))
     let acquired (v : State) : State :=
       v.acquireAt s.curCore (if s.running f = [] ∨ f.cOrd ≠ 1 then 0 else f.cScope)
     let words (l : Nat) : List CWord := v.wordsAt s.curCore s.curCtx s.curPriv (p l) n
     let part (l : Nat) : Nat := (w0 (words l)).toNat / 2 ^ (8 * (p l).byteInWord) % 2 ^ (8 * n)
     let value (l : Nat) : List CWord :=
       if f.sz = 0 ∨ f.sz = 2 then [.gen (BitVec.ofNat 32 (part l))]
       else if f.sz = 1 then [.gen ((BitVec.ofNat 8 (part l)).signExtend 32)]
       else if f.sz = 3 then [.gen ((BitVec.ofNat 16 (part l)).signExtend 32)]
       else words l
     let ready (op : Op) : Prop :=
       s.Clear op f ∧ s.Good op f ∧ (∀ l < 32, s.Runs f l → s.placeOf op f false (s.reads op f false l) = .ok (p l) ∧
         s.behindOwn l (p l) n = false) ∧
         s.chargeAccess false (s.recordVas op f) [] (globalsOf ((s.running f).map p)) = some u
     let full : Prop := (∀ l < 32, s.Runs f l → u.readable (p l) = true) ∧ behind = false
     let sound : Prop := ∀ l < 32, s.Runs f l → ∀ w ∈ words l, w.wellFormed = true
     let completes (i : Instr) (op : Op) (v : State) : Prop :=
       ready op → full → sound → s.SameBundle v → ∃ t, exec i s = .next t ∧ v.Wrote t f fun l => { dst := value l }
     let scope := if f.cOrd = 1 then f.cScope else 0
     let e : Load :=
       { lanes := (s.running f).map (fun l => (l, p l)), sz := f.sz, dst := ⟨f.ud, f.d.toNat⟩, pc := s.cur.pc, acq := scope, flip := none }
     let out : State := u.updWarp s.cur.wid fun w => { w with loads := w.loads.put w.next e, next := w.next + 1 }
     let waits (i : Instr) (op : Op) (v : State) : Prop :=
       ready op → ¬ full → ∃ t, exec i s = .next t ∧ v.OnlyMoved t (s.nextPc f)
     completes (.ld f) .ld (acquired v) ∧ completes (.lds f) .lds (acquired v) ∧ completes (.ldr f) .ldr (acquired v) ∧
     completes (.ldp f) .ldp (acquired v) ∧
     completes (.ldu f) .ldu ((acquired v).deprecated s.curCtx (s.running f).length) ∧ waits (.ld f) .ld out ∧
     waits (.lds f) .lds out ∧ waits (.ldr f) .ldr out ∧ waits (.ldp f) .ldp out ∧
     waits (.ldu f) .ldu (out.deprecated s.curCtx (s.running f).length)) ∧
  (∀ (s : State) (wid n : Nat) (e : Load), (s.warp wid).loads.get? n = some e → (s.warps.get? wid).isSome = true →
     let words (x : Nat × Place) : List CWord := s.wordsAt (warpCore wid) (s.ctxOf wid) (s.gridOf wid).priv x.2 (szBytes e.sz)
     let full : Prop := ∀ x ∈ e.lanes, s.readable x.2 = true
     let live (l : Nat) : Bool := ((s.warp wid).lane l).live
     let value (x : Nat × Place) : List CWord := loadResult e.sz x.2.byteInWord (words x)
     let behind : Bool := (s.warp wid).behindLoad n (szBytes e.sz) e.lanes
     (¬ full ∨ behind = true → exec (.loadReturn wid n) s = .next s) ∧
     (full → behind = false → e.flip = none → (∀ x ∈ e.lanes, ∀ w ∈ words x, w.wellFormed = true) →
       ∃ t, exec (.loadReturn wid n) s = .next t ∧
         t = { s with warps := t.warps, cores := (s.acquireAt (warpCore wid) e.acq).cores } ∧
         (∀ v, v ≠ wid → t.warp v = s.warp v) ∧
         t.warp wid = { s.warp wid with
           lanes := (t.warp wid).lanes, wregs := (t.warp wid).wregs, loads := (s.warp wid).loads.erase n } ∧
         (e.dst.uni = false → (t.warp wid).wregs = (s.warp wid).wregs ∧ ∀ l < (s.warp wid).lanes.length,
           (t.warp wid).lane l = match e.lanes.find? fun x => x.1 == l && live x.1 with
             | some x => ((s.warp wid).lane l).setRegs e.dst.reg (value x)
             | none => (s.warp wid).lane l) ∧
         (e.dst.uni = true → (∀ l, (t.warp wid).lane l = (s.warp wid).lane l) ∧
           ∀ x, e.lanes.find? (fun x => live x.1) = some x → ∀ r, (t.warp wid).wreg r =
             if e.dst.reg % 64 ≤ r ∧ r < e.dst.reg % 64 + (value x).length then (value x).getD (r - e.dst.reg % 64) .zero
             else (s.warp wid).wreg r)))

/-- R244, R242, R246, R247, R255: a store puts each lane's data where its address function says, in ascending lane order,
after the release of `.REL`; in another workgroup's scratchpad by a packet. No own remote write to its bytes is under way
(R308), and the lines brought in leave the bundle as it was. -/
def Obligations.Stores : Prop :=
  ∀ (s r u : State) (f : Fields), s.running f ≠ [] →
    let n := szBytes f.sz
    let scope := if f.cOrd = 1 then f.cScope else 0
    let ready (op : Op) (src : Fields → State → Thread → List Source) (sc : Nat) (vas : List Nat) : Prop :=
      s.Clear op f ∧ s.Reads f (src f s) ∧ s.Released sc r ∧ r.chargeAccess true (s.recordVas op f) [] vas = some u
    let clear (l : Nat) (p : Place) : Prop := s.behindOwn l p n = false
    let mine := wgKey s.cur.wid
    let remote (v : State) (l : Nat) (m : GangEntry) (off : Nat) (ws : List CWord) : State :=
      if m.key = mine then v.storeTo (.pad m.key off) n false ws
      else v.send s.cur.wid l (coreEndpoint (coreOf m.key)) (.store m.key m.gen off n ws)
    let done (i : Instr) (one : State → Nat → State) : Prop :=
      s.SameBundle ((s.running f).foldl one u) → ∃ t, exec i s = .next t ∧ ((s.running f).foldl one u).OnlyMoved t (s.nextPc f)
    let plain (i : Instr) (op : Op) : Prop := ∀ p : Nat → Place,
      ready op (storeSources op) scope (globalsOf ((s.running f).map p)) →
      (∀ l < 32, s.Runs f l → s.placeOf op f true (s.reads op f true l) = .ok (p l) ∧ clear l (p l)) →
        done i fun v l => v.storeTo (p l) n (f.cCh == 2) (s.opD op f l)
    plain (.st f) .st ∧ plain (.sts f) .sts ∧ plain (.stp f) .stp ∧
    (∀ q : Nat → GangEntry × Nat, ready .str (storeSources .str) scope [] →
      (∀ l < 32, s.Runs f l → s.reachRemote (s.wA .str f l) (s.wB .str f l).toInt n true = .ok (q l) ∧
        ((q l).1.key = mine → clear l (.pad mine (q l).2))) →
        done (.str f) fun v l => remote v l (q l).1 (q l).2 (s.opD .str f l)) ∧
    (∀ q : Nat → List GangEntry × Nat, ready .stm stmSources 0 [] →
      (∀ l < 32, s.Runs f l → s.reachMany (((s.wA .stm f l).toNat + (s.wB .stm f l).toNat) % 2 ^ 32) n
        ((s.curWarp.wreg (f.cN % 64)).data.toNat % 65536) = .ok (q l) ∧
          ((∃ m ∈ (q l).1, m.key = mine) → clear l (.pad mine (q l).2))) →
        done (.stm f) fun v l => (q l).1.foldl (fun v m => remote v l m (q l).2 (s.opD .stm f l)) v)

/-- R244, R245, R108, R361: what one lane's store leaves in memory, and that every other word is as it was: in a
scratchpad, whose line becomes full, and in global memory as the core sees it, where no word of the line is
mismatched. A sub-word keeps the rest of its word.
R242, R244: the frame of `STS` and `ST` without a release: of every scratchpad, and of global memory as the issuing
core sees it, each byte outside those that the lanes store is as it was. -/
def Obligations.StoredBytes : Prop :=
  ((∀ (old : CWord) (k n : Nat) (v : Word), n = 1 ∨ n = 2 → k + n ≤ 4 →
     (∀ b < 4, (storePart old k n v).data.extractLsb' (8 * b) 8 =
       if k ≤ b ∧ b < k + n then v.extractLsb' (8 * (b - k)) 8 else old.data.extractLsb' (8 * b) 8) ∧
     (old.wellFormed = true → (storePart old k n v).wellFormed = true) ∧
     (old.poisoned = true → (storePart old k n v).poisoned = true)) ∧
   ∀ (s : State) (n : Nat) (direct : Bool) (ws : List CWord), n ∈ [1, 2, 4, 8, 16] → ws.length = max 1 (n / 4) →
     (∀ k off, off % n = 0 → (s.wgs.get? k).isSome = true →
       let t := s.storeTo (.pad k off) n direct ws
       t = { s with wgs := t.wgs } ∧ (∀ j, j ≠ k → t.wg j = s.wg j) ∧ (off < 2 ^ 19 → (t.wg k).lineFull off = true) ∧
       (∀ a, a % 4 = 0 → a + 4 ≤ off / 4 * 4 ∨ off + n ≤ a → (t.wg k).pad.word a = (s.wg k).pad.word a) ∧
       (4 ≤ n → ∀ j < n / 4, (t.wg k).pad.word (off + 4 * j) = ws.getD j .zero) ∧
       (n < 4 → (t.wg k).pad.word (off / 4 * 4) = storePart ((s.wg k).pad.word (off / 4 * 4)) (off % 4) n (w0 ws))) ∧
     ∀ (ea : BitVec 64) (pa : Nat), pa % n = 0 → pa < 2 ^ 48 → (s.ctx s.curCtx).retired = false →
       let core := s.curCore
       let p := (s.ctx s.curCtx).pitch
       s.target p s.curPriv pa = .hbm → s.lantern.dead = [] →
       (∀ a ∈ s.dirtyInLine core pa, ∀ d, (s.core core).dirty.get? a = some d → d.ctx = s.curCtx) →
       (∀ a w, (s.core core).held? a = some w → a / 128 ∈ (s.core core).lines) →
       (pa / 128 ∈ (s.core core).lines ∨ (s.core core).setFull (pa / 128 % 512) = false) →
       (∀ w ∈ ws, w.mismatched = false) →
       (∀ a, a / 128 = pa / 128 → a % 4 = 0 →
         (s.mem.word a).mismatched = false ∧ (s.coreWord core p s.curPriv a).mismatched = false) →
       let t := s.storeTo (.global ea pa) n direct ws
       t = { s with cores := t.cores, mem := t.mem, l2 := t.l2 } ∧ (∀ c, c ≠ core → t.core c = s.core c) ∧
         t.core core = { s.core core with
           dirty := (t.core core).dirty, clean := (t.core core).clean, lines := (t.core core).lines, held := (t.core core).held } ∧
         (direct = false → t.mem = s.mem) ∧
         (∀ a, a % 4 = 0 → a + 4 ≤ pa / 4 * 4 ∨ pa + n ≤ a → t.coreWord core p s.curPriv a = s.coreWord core p s.curPriv a) ∧
         (4 ≤ n → ∀ j < n / 4, t.coreWord core p s.curPriv (pa + 4 * j) = ws.getD j .zero) ∧
         (n < 4 → t.coreWord core p s.curPriv (pa / 4 * 4) =
           storePart (s.coreWord core p s.curPriv (pa / 4 * 4)) (pa % 4) n (w0 ws))) ∧
  (∀ (s u t : State) (f : Fields) (p : Nat → Place), f.cOrd ≠ 1 → f.cCh ≠ 2 →
     let n := szBytes f.sz
     let ready (op : Op) : Prop :=
       s.Clear op f ∧ s.Reads f (storeSources op f s) ∧
         (∀ l < 32, s.Runs f l → s.placeOf op f true (s.reads op f true l) = .ok (p l)) ∧
         s.chargeAccess true [] [] (globalsOf ((s.running f).map p)) = some u
     (ready .sts → exec (.sts f) s = .next t → t.mem = s.mem ∧ ∀ k a,
       (∀ l < 32, s.Runs f l → ∀ off, p l = .pad k off → a < off ∨ off + n ≤ a) →
         (t.wg k).pad.byte a = (s.wg k).pad.byte a) ∧
     (ready .st → exec (.st f) s = .next t → (s.ctx s.curCtx).retired = false →
       (∀ l < 32, s.Runs f l → ∀ ea pa, p l = .global ea pa →
         pa % n = 0 ∧ pa < 2 ^ 48 ∧ s.target (s.ctx s.curCtx).pitch s.curPriv pa = .hbm) → s.lantern.dead = [] →
       (∀ a, (s.mem.word a).mismatched = false) →
       (∀ e ∈ (s.core s.curCore).dirty, e.2.ctx = s.curCtx) →
       (∀ a w, (s.core s.curCore).held? a = some w → a / 128 ∈ (s.core s.curCore).lines) →
       (∀ l < 32, s.Runs f l → ∀ ea pa, p l = .global ea pa → pa / 128 ∈ (s.core s.curCore).lines ∨
         ((s.core s.curCore).inSet (pa / 128 % 512)).length + (s.core s.curCore).pinned (pa / 128 % 512) + (s.running f).length ≤ 12) →
       let byte (v : State) (a : Nat) : BitVec 8 :=
         (v.coreWord s.curCore (s.ctx s.curCtx).pitch s.curPriv (a / 4 * 4)).data.extractLsb' (8 * (a % 4)) 8
       (∀ k, (t.wg k).pad = (s.wg k).pad) ∧ ∀ a,
         (∀ l < 32, s.Runs f l → ∀ ea pa, p l = .global ea pa → a < pa ∨ pa + n ≤ a) → byte t a = byte s a))

/-- R251, R252, R96: the function of each atomic operation and of a compare and swap, and one atomic step: D gets
the old words and the place holds the function's value, in one piece. R250, R251, R252, R242: the atomics
complete lane by lane in ascending order, each lane seeing what the one before it left, and D takes the old
value of each; with NR nothing is written. -/
def Obligations.AtomicForms : Prop :=
  ((∀ x y : Word,
     let F := Ieee.f32
     let sum (F : Ieee) (a b : Nat) : Nat := (roundTo F 0 (addX 0 (F.decode a) (F.decode b)).1).1
     let halves (F : Ieee) (r : Word) : Prop := ∀ h < 2,
       r.toNat / 2 ^ (16 * h) % 2 ^ 16 = sum F (x.toNat / 2 ^ (16 * h) % 2 ^ 16) (y.toNat / 2 ^ (16 * h) % 2 ^ 16) % 2 ^ 16
     let one (code : Nat) (r : Word) : Prop := atomFn code [x] [y] = [r]
     one 0 (x + y) ∧ one 1 (x - y) ∧ one 2 (if y.toInt < x.toInt then y else x) ∧ one 3 (if x.toInt < y.toInt then y else x) ∧
     one 4 (if y.toNat < x.toNat then y else x) ∧ one 5 (if x.toNat < y.toNat then y else x) ∧ one 6 (x &&& y) ∧
     one 7 (x ||| y) ∧ one 8 (x ^^^ y) ∧ one 9 y ∧ one 10 (if y.toNat ≤ x.toNat then 0 else x + 1) ∧
     one 11 (if x = 0 ∨ y.toNat < x.toNat then y else x - 1) ∧ one 12 (BitVec.ofNat 32 (sum F x.toNat y.toNat)) ∧
     one 13 (BitVec.ofNat 32 (minMaxBits false false F x.toNat y.toNat 0).1) ∧
     one 14 (BitVec.ofNat 32 (minMaxBits true false F x.toNat y.toNat 0).1) ∧
     (∃ r, one 15 r ∧ halves .bf16 r) ∧ ∃ r, one 16 r ∧ halves .f16 r) ∧
   (∀ x y : BitVec 64,
     let two (v : BitVec 64) : List Word := [v.extractLsb' 0 32, v.extractLsb' 32 32]
     atomFn 17 (two x) (two y) = two (x + y) ∧ atomFn 18 (two x) (two y) = two y) ∧
   (∀ old b c : List Word, casFn old b c = if old = b then c else old) ∧
   ∀ (s t : State) (k off n : Nat) (g : List Word → List Word) (ws : List CWord), n = 4 ∨ n = 8 → off % n = 0 →
     (∀ ws, (g ws).length = ws.length) → (s.wgs.get? k).isSome = true →
       s.atomStep (.pad k off) n g = .ok (t, ws) →
         ws = (s.wg k).pad.words off (n / 4) ∧ t = { s with wgs := t.wgs } ∧ (∀ j, j ≠ k → t.wg j = s.wg j) ∧
           (∀ j < n / 4, ((t.wg k).pad.word (off + 4 * j)).data = (g (ws.map (·.data))).getD j 0) ∧
           ∀ a, a + 4 ≤ off ∨ off + n ≤ a → (t.wg k).pad.word a = (s.wg k).pad.word a) ∧
  (∀ (s r u v : State) (f : Fields) (p : Nat → Place) (old : List (Nat × List CWord)), s.running f ≠ [] →
     let n (op : Op) : Nat := if op = .cas ∨ op = .cass then if f.im then 8 else 4 else if f.cN % 32 = 17 ∨
       f.cN % 32 = 18 then 8 else 4
     let b (op : Op) (l : Nat) : List Word := (s.opB op f l).map (·.data)
     let c (op : Op) (l : Nat) : List Word := (s.opC op f l).map (·.data)
     let fn (op : Op) (l : Nat) : List Word → List Word := fun ws =>
       if op = .cas ∨ op = .cass then casFn ws (b op l) (c op l) else atomFn (f.cN % 32) ws (b op l)
     let place (op : Op) (l : Nat) : Except Trap Place :=
       if op = .atoms ∨ op = .cass then s.reachPad (s.wA op f l).toNat (n op) true else s.reach (s.pA op f l) (n op) true
     let completes (i : Instr) (op : Op) : Prop :=
       s.Clear op f → s.Good op f → (∀ l < 32, s.Runs f l → place op l = .ok (p l) ∧ s.readable (p l) = true ∧
         s.behindOwn l (p l) (n op) = false) →
       s.Released (if f.ord < 2 then 0 else f.scope) r →
       r.chargeAccess true [] [] (globalsOf ((s.running f).map p)) true = some u →
       u.atomLanes (n op) (fn op) (fun _ => none) ((s.running f).map fun l => (l, p l)) = (v, [], old) → s.SameBundle v →
         ∃ t, exec i s = .next t ∧ (v.acquireAt s.curCore (if f.ord % 2 = 1 then f.scope else 0)).Wrote t f fun l =>
           { dst := if f.nr then [] else ((old.find? fun x => x.1 == l).map (·.2)).getD [] }
     completes (.atom f) .atom ∧ completes (.cas f) .cas ∧ completes (.atoms f) .atoms ∧ completes (.cass f) .cass)

/-- R253, R246, R115, R361: remote adds. One to the own scratchpad is performed at once, one elsewhere travels as a packet;
the sum is rounded once, and a target word that is bad stays poisoned. The adds of a bundle's lanes are made in some
order (R104). -/
def Obligations.RemoteAdds : Prop :=
  (∀ (x y : Word) (e : Int),
    let scaled (F : Ieee) (a b : Nat) : Nat := (roundTo F 0 (addX 0 (F.decode a) ((F.decode b).scale e)).1).1
    let halves (F : Ieee) (r : Word) : Prop := ∀ h < 2,
      r.toNat / 2 ^ (16 * h) % 2 ^ 16 = scaled F (x.toNat / 2 ^ (16 * h) % 2 ^ 16) (y.toNat / 2 ^ (16 * h) % 2 ^ 16) % 2 ^ 16
    raddFn 0 e [x] [y] = [x + y] ∧ raddFn 1 e [x] [y] = [BitVec.ofNat 32 (scaled .f32 x.toNat y.toNat)] ∧
      (∃ r, raddFn 2 e [x] [y] = [r] ∧ halves .bf16 r) ∧ ∃ r, raddFn 3 e [x] [y] = [r] ∧ halves .f16 r) ∧
  (∀ (old b : List CWord) (code : Nat) (e : Int),
    (∃ w ∈ old, w.wellFormed = false) → (raddWords code e old b).2 = true ∧
      ∀ j < old.length, ((raddWords code e old b).1.getD j .zero).wellFormed = (old.getD j .zero).wellFormed ∧
        ((old.getD j .zero).wellFormed = false → ((raddWords code e old b).1.getD j .zero).poisoned = true)) ∧
  ∀ (s r u : State) (f : Fields) (e : Int), s.running f ≠ [] → s.rescale f = .ok e →
    let n := if f.cN % 8 = 4 then 8 else 4
    let code := f.cN % 8
    let data (op : Op) (l : Nat) : List CWord := (s.opB op f l).take (n / 4)
    let ready (op : Op) (vas : List Nat) : Prop :=
      s.Clear op f ∧ s.Reads f (raddSources op f s) ∧ s.Released (if f.ord < 2 then 0 else f.scope) r ∧
        r.chargeAccess true [] [] vas true = some u
    let sent (i : Instr) (one : State → Nat → State) : Prop :=
      ∃ (ls : List Nat) (t : State), ls.Perm (s.running f) ∧ exec i s = .next t ∧
        (ls.foldl one { u with free := u.free + (s.running f).length }).OnlyMoved t (s.nextPc f)
    (∀ q : Nat → GangEntry × Nat, ready .radd [] →
      (∀ l < 32, s.Runs f l → s.reachRemote (s.wA .radd f l) 0 n true = .ok (q l)) →
        let one (v : State) (l : Nat) : State :=
          if (q l).1.key = wgKey s.cur.wid then
            v.padAdd s.curCore s.curCtx s.cur.wid (q l).1.key (q l).2 code (data .radd l) e
          else v.send s.cur.wid l (coreEndpoint (coreOf (q l).1.key))
            (.padAdd (q l).1.key (q l).1.gen (q l).2 code (data .radd l) e)
        sent (.radd f) one) ∧
    ∀ q : Nat → BitVec 64 × Nat, ready .raddg ((s.running f).map fun l => (q l).1.toNat) →
      (∀ l < 32, s.Runs f l → s.reach (s.pA .raddg f l) n true = .ok (.global (q l).1 (q l).2)) →
        let one (v : State) (l : Nat) : State :=
          (v.homeOwn s.curCore (q l).2).send s.cur.wid l (memEndpoint (q l).2)
            (.memAdd (q l).2 (q l).1 code (data .raddg l) e)
        sent (.raddg f) one

/-- R255, R257, R258, R245, R249, R322, R362: `FENCE` releases and acquires at its scope; `CMO` cleans or drops lines or
empties scratchpad lines, once the remote writes of its lanes are over and, to empty lines, their loads of them; `HBIND`
puts a checked descriptor into a handle; `PREF` changes what caches and translation buffers hold. -/
def Obligations.FencesAndHandles : Prop :=
  ∀ (s : State) (f : Fields) (l : Nat) (ls : List Nat), s.running f = l :: ls →
    let moved (i : Instr) (u : State) : Prop := ∃ t, exec i s = .next t ∧ u.OnlyMoved t (s.nextPc f)
    let n := (s.wB .cmo f l).toNat
    let pad : Bool := f.cN % 4 = 3
    let a : Nat := if pad then (s.wA .cmo f l).toNat else (s.pA .cmo f l).toNat
    let lines : Nat := (a + n + 127) / 128 - a / 128
    let still : Prop := s.inFlight s.cur.wid s.cur.mask = false
    let spad : Bool := f.cN % 2 = 1
    let d : BitVec 64 := if spad then (s.wA .hbind f l).zeroExtend 64 else s.pA .hbind f l
    (s.Clear .fence f → s.Good .fence f → f.cOrd = 0 → moved (.fence f) (s.acquireAt s.curCore f.cScope)) ∧
    (∀ r, s.Clear .fence f → s.Good .fence f → f.cOrd ≠ 0 → s.Released f.cScope r →
      moved (.fence f) (if f.cOrd = 1 then r else r.acquireAt s.curCore f.cScope)) ∧
    (∀ core scope, s.acquireAt core scope = { s with cores := (s.acquireAt core scope).cores } ∧
      (scope < 3 → s.acquireAt core scope = s) ∧ (3 ≤ scope → (∀ k, k ≠ core → (s.acquireAt core scope).core k = s.core k) ∧
        ((s.acquireAt core scope).core core).dirty = (s.core core).dirty ∧ ∀ p priv pa,
          (s.acquireAt core scope).coreWord core p priv pa = match (s.core core).dirty.get? pa with
            | some d => d.word
            | none => s.physWord p priv pa)) ∧
    (s.Clear .fence f → s.Good .fence f → f.cOrd ≠ 0 → s.releaseAt f.cScope = none → exec (.fence f) s = .next s) ∧
    (s.Clear .pref f → s.Good .pref f → (s.core s.curCore).dirty = [] → (∀ a, (s.mem.word a).mismatched = false) →
      (∀ a w, (s.core s.curCore).clean.get? a = some w → w.mismatched = false) →
      (∀ k, (KMap.getD s.metas k []).length + 32 ≤ 512) → ∃ u : State, moved (.pref f) u ∧
      u = { s with cores := u.cores, regions := u.regions, l2 := u.l2, views := u.views, metas := u.metas, walkers := u.walkers } ∧
      ∀ c, u.core c = { s.core c with
        clean := (u.core c).clean, lines := (u.core c).lines, held := (u.core c).held, dtlb := (u.core c).dtlb }) ∧
    (s.Clear .cmo f → s.Good .cmo f → s.inFlight s.cur.wid s.cur.mask = true → exec (.cmo f) s = .next s) ∧
    (s.Clear .cmo f → s.Good .cmo f → still → n = 0 → moved (.cmo f) s) ∧
    (s.Clear .cmo f → s.Good .cmo f → still → n ≠ 0 → pad = true → s.loadsIn a n = false → a + n ≤ s.curWg.spad →
      ∃ full : BitVec 4096, (∀ k < 4096, full.getLsbD k =
          (s.curWg.full.getLsbD k && !(decide (a / 128 ≤ k) && decide (k < (a + n + 127) / 128)))) ∧
        moved (.cmo f) (s.updWg (wgKey s.cur.wid) fun g => { g with full := full })) ∧
    (∀ u v, s.Clear .cmo f → s.Good .cmo f → still → n ≠ 0 → pad = false → a + n ≤ 2 ^ 55 →
      s.chargeAccess false [] (cmoPages a n) [] = some v →
        v.cmoLines (f.cN % 4) (f.cN / 4 % 4) lines (a / 128 * 128) = (u, none) → u.Bundled → u.cur = s.cur →
        moved (.cmo f) u) ∧
    ∀ ws v, s.Clear .hbind f → s.Good .hbind f → s.chargeAccess false [] [] (if spad then [] else [d.toNat]) = some v →
      v.readDesc spad d = .ok ws → (∀ w ∈ ws, w.wellFormed = true) →
      Desc.check (descOf (ws.map (·.data))) (s.slot (Desc.fslot (descOf (ws.map (·.data))))) s.curWg.spad = none →
        moved (.hbind f) (v.updWg (wgKey s.cur.wid) fun g =>
          { g with handles := g.handles.put (f.d.toNat % 16) (descOf (ws.map (·.data))) })

/-- R259–R264, R254, R397, R401: copy requests. `KICK` accepts records in order until one finds no room and gives their
number, `GATH` and `ACC` queue a request with its locks, `CANCEL` removes the workgroup's requests of a channel and gives
their number. A request whose locks or reservation find no room is not accepted and does not issue. -/
def Obligations.CopyRequests : Prop :=
  ∀ (s : State) (f : Fields) (l : Nat) (ls : List Nat), s.running f = l :: ls →
    let k := wgKey s.cur.wid
    let id := (s.core s.curCore).nreq
    let request (w : Work) (len : Nat) (bar : Nat) : Request :=
      { id := id, wg := k, wid := s.cur.wid, ctx := s.curCtx, work := w, len := len, done := 0, part := 0, disc := false,
        prio := 0, stop := false, since := s.cycle, bar := some bar, event := none, gang := s.curWg.gang, priv := s.curPriv }
    (∀ (a n : Nat) (rs : List (List Word)), s.Clear .kick f → s.Good .kick f → a = (s.wA .kick f l).toNat →
      n = (s.wB .kick f l).toNat → a % 32 = 0 → 1 ≤ n → n ≤ 32 → a + 32 * n ≤ s.curWg.spad →
      (∀ j < n, s.curWg.lineFull (a + 32 * j) = true) → (∀ w ∈ s.curWg.pad.words a (8 * n), w.wellFormed = true) →
      rs = (List.range n).map (fun j => (s.curWg.pad.words (a + 32 * j) 8).map (·.data)) →
      (∀ w ∈ rs, s.recOk w (copyRec w) = true) →
        ∃ t, exec (.kick f) s = .next t ∧ (s.acceptRecs (rs.map copyRec)).2.Wrote t f fun _ =>
          { dst := [.gen (BitVec.ofNat 32 (s.acceptRecs (rs.map copyRec)).1)] }) ∧
    (∀ (q : Nat → BitVec 64 × Nat) (v u : State), s.Clear .gath f → s.Reads f (uniformDC .gath f s) → s.curWg.copyq ≠ 0 →
      let n := if f.b.getLsbD 2 then 8 else 4
      let dst := (s.curWarp.wreg (f.d.toNat % 64)).data.toNat
      let bar := (s.curWarp.wreg (f.cN % 64)).data.toNat
      dst % (32 * n) = 0 → dst + 32 * n ≤ s.curWg.spad → bar % 8 = 0 → bar + 8 ≤ s.curWg.spad →
      (∀ l < 32, s.Runs f l → s.gathAddr (s.reads .gath f false l) n = .ok (q l)) →
      let vas := (s.running f).map fun l => (q l).1.toNat
      s.chargeAccess false [] vas [] = some v →
      v.accept (f.b.toNat % 4) (request (.gath n dst ((s.running f).map fun l => (l, q l))) (n * (s.running f).length) bar)
        [s.lockOf true dst (dst + 32 * n) true 1 (f.b.toNat % 4) id,
         s.lockOf false (vas.foldl min (vas.headD 0)) (vas.foldl max 0 + n) false 1 (f.b.toNat % 4) id] = some u →
        ∃ t, exec (.gath f) s = .next t ∧
          (u.updWg k fun g => g.clearFull dst (dst + 32 * n)).OnlyMoved t (s.nextPc f)) ∧
    (∀ (dst src : Desc) (u : State), s.Clear .acc f → s.Reads f (fun _ => [⟨[s.curWarp.wreg (f.cN % 64)], 6⟩]) →
      s.handle (f.d.toNat % 16) = .ok dst → s.handle (f.a.toNat % 16) = .ok src → s.curWg.copyq ≠ 0 →
      let bar := (s.curWarp.wreg (f.cN % 64)).data.toNat
      let dk := s.slot (Desc.fslot dst)
      let sk := s.slot (Desc.fslot src)
      let db := elemBits (slotElem dk)
      let sb := elemBits (slotElem sk)
      bar % 8 = 0 → bar + 8 ≤ s.curWg.spad → accFormat dk = true → accFormat sk = true → Desc.ndim dst = Desc.ndim src →
      (∀ j < 4, Desc.size dst j = Desc.size src j) → accOverlap src dst sb db = false →
      (∀ x ∈ accPairs src dst sb db, outOfSpace src x.2 sb = false ∧ outOfSpace dst x.1 db = false ∧
        (Desc.space dst ≠ 1 → s.inPool x.1.toNat (db / 8) = false)) →
      s.accept (f.b.toNat % 4)
        (request (.acc src dst sk dk (s.boundOf s.curCtx dst) (s.qualifying f.g) s.cur.pc)
          (Desc.extent dst 0 * Desc.extent dst 1 * Desc.extent dst 2 * Desc.extent dst 3 * (db / 8)) bar)
        [s.lockOf (Desc.space src == 1) (Desc.bounds src sb).1.toNat (Desc.bounds src sb).2.toNat false 0 (f.b.toNat % 4) id,
         s.lockOf (Desc.space dst == 1) (Desc.bounds dst db).1.toNat (Desc.bounds dst db).2.toNat true 0 (f.b.toNat % 4) id] =
          some u →
        ∃ t, exec (.acc f) s = .next t ∧ u.OnlyMoved t (s.nextPc f)) ∧
    (s.Clear .cancel f → s.Good .cancel f →
      let ch := f.a.toNat % 4
      let mine := (((s.core s.curCore).queues.getD ch []).filter fun r => r.wg == k).map (·.id)
      let marked (r : Request) : Request := if r.wg = k then { r with stop := true } else r
      let under : Prop := ∃ r q, (s.core s.curCore).queues.getD ch [] = r :: q ∧ r.wg = k ∧ r.part ≠ 0
      (¬ under →
        ∃ t u : State, exec (.cancel f) s = .next t ∧ (u.Wrote t f fun _ => { dst := [.gen (BitVec.ofNat 32 mine.length)] }) ∧
        u = { s with cores := u.cores } ∧ (∀ c, c ≠ s.curCore → u.core c = s.core c) ∧
        u.core s.curCore = { s.core s.curCore with
          queues := (s.core s.curCore).queues.mapIdx fun i (q : List Request) => if i = ch then q.filter fun r => !mine.contains r.id else q
          locks := (s.core s.curCore).locks.filter fun e => !(decide (e.2.owner < 2) && mine.contains e.2.req) }) ∧
      (under → ∃ t : State, exec (.cancel f) s = .next t ∧ t = { s with cores := t.cores } ∧
        (∀ c, c ≠ s.curCore → t.core c = s.core c) ∧
        t.core s.curCore = { s.core s.curCore with
          queues := (s.core s.curCore).queues.mapIdx fun i (q : List Request) => if i = ch then q.map marked else q })) ∧
    ∀ (ch : Nat) (r : Request) (xs : List Lock),
      let c := s.core s.curCore
      let free := ((List.range 32).filter fun j => (c.locks.get? j).isNone)
      (s.curWg.copyq ≤ s.requestsOf r.wg ∨ free.length < xs.length → s.accept ch r xs = none) ∧
      (s.requestsOf r.wg < s.curWg.copyq → xs.length ≤ free.length → ∃ u, s.accept ch r xs = some u ∧
        u = { s with cores := u.cores } ∧ (u.core s.curCore).nreq = c.nreq + 1 ∧
        (u.core s.curCore).queues = c.queues.mapIdx (fun i q => if i = ch then q ++ [r] else q) ∧
        ∀ j < xs.length, (u.core s.curCore).locks.get? (free.getD j 0) = xs[j]?)

/-- R267, R265, R266, R401: `RLCK` takes the lowest free entry of the range-lock table and gives its number, or
`0xFFFF_FFFF`; `RLREL` releases an entry that the workgroup took. R261, R245, R246, R265, R393, R398, R365: one line of a
copy into the own scratchpad: at most the rest of the destination line, from the front of the request at the head of a channel
whose turn it is; the words of full
source lines before the first empty one are stored, the channel's count rises by them, and after its last chunk the
request is gone. Nothing moves while the next source line is empty, a budget that the line is charged to is used up, or, at the
start of a chunk, `CANCEL` has stopped the request or its context stops. How a line is cut at an empty one is the model's choice
(log 54), as is the mark (log 53). A sweep of an old allocation generation ends once no remote write that a core of its die sent
before the sweep is on its way (log 109). -/
def Obligations.LocksAndChunks : Prop :=
  (∀ (s : State) (f : Fields) (l : Nat) (ls : List Nat), s.running f = l :: ls →
     let c := s.core s.curCore
     let pad : Bool := f.cN / 2 % 2 = 1
     let a := if pad then (s.wA .rlck f l).toNat else (s.pA .rlck f l).toNat
     let n := (s.wB .rlck f l).toNat
     let lock : Lock :=
       { ctx := s.curCtx, slot := wgKey s.cur.wid % 16, pad := pad, lo := a, hi := a + n, write := f.cN % 2 = 1, owner := 3,
         ch := 0, req := wgKey s.cur.wid, bad := false }
     let free (e : Nat) : Prop := e < 32 ∧ c.locks.get? e = none
     (s.Clear .rlck f → s.Good .rlck f → n ≠ 0 → (if pad then a + n ≤ s.curWg.spad else a < 2 ^ 55) →
       (∀ e, free e → (∀ j < e, ¬ free j) → ∃ t, exec (.rlck f) s = .next t ∧
         (s.updCore s.curCore fun c => { c with locks := c.locks.put e lock }).Wrote t f fun _ =>
           { dst := [.gen (BitVec.ofNat 32 e)] }) ∧
       ((∀ e, ¬ free e) → ∃ t, exec (.rlck f) s = .next t ∧ s.Wrote t f fun _ => { dst := [.gen 0xFFFFFFFF] })) ∧
     ∀ x, s.Clear .rlrel f → s.Good .rlrel f → c.locks.get? (s.wA .rlrel f l).toNat = some x → x.owner = 3 →
       x.req = wgKey s.cur.wid → ∃ t, exec (.rlrel f) s = .next t ∧
         (s.updCore s.curCore fun c => { c with locks := c.locks.erase (s.wA .rlrel f l).toNat }).OnlyMoved t (s.nextPc f)) ∧
  ((∀ (s : State) (core ch : Nat), (s.core core).queues.getD ch [] = [] → exec (.copyChunk core ch) s = .next s) ∧
   (∀ (s : State) (core ch : Nat) (r : Request) (q : List Request) (src dst ssp srank : Nat) (dmask : BitVec 16)
     (ps : List Place), (s.core core).queues.getD ch [] = r :: q → r.work = .copy src dst ssp 1 srank dmask →
     let left := min 4096 (r.len - r.done) - r.part
     let off := r.done + r.part
     let n := min left (128 - (dst + off) % 128)
     let all := if r.part = 0 then left else n
     let pad := (r.pads ssp [srank]).head?.map (·.key)
     let u : Access := { copy := some ch, user := !r.priv }
     let whole : Bill := (if ssp = 0 then s.accessBill core r.ctx u (linesFrom (src + off) left) true else {}).add
       { copy := (left + 127) / 128 }
     let walks := if ssp = 0 then (s.accessBill core r.ctx u (linesFrom (src + off) n) true).walks else []
     let bill : Bill := if r.part = 0 then whole else { walks := walks }
     (r.part = 0 → r.stop = true ∧ s.wgRetired r.wg = false ∨ r.stop = false ∧ (s.ctx r.ctx).stopped = true →
       exec (.copyChunk core ch) s = .next s) ∧
     (r.stop = false ∧ (s.ctx r.ctx).stopped = false ∨ r.part ≠ 0 →
      s.enginePlaces core r.ctx r.priv pad (src + off) (all / 4) u = .ok ps →
       let rs := (ps.take (n / 4)).takeWhile s.readable
       let m := rs.length
       let waits : Prop := rs = [] ∨ s.canPay (s.grid (s.wg r.wg).grid) bill = false
       (waits → exec (.copyChunk core ch) s = .next s) ∧
       (¬ waits → s.ladleTurn core ch = false → exec (.copyChunk core ch) s = .next s) ∧
       (¬ waits → s.ladleTurn core ch = true → r.bar = none → r.event = none → n % 4 = 0 → (dst + off) % 4 = 0 →
         (s.wgs.get? r.wg).isSome = true → s.wgRetired r.wg = false →
         (s.core (coreOf r.wg)).finj.getLsbD 0 = false → ch < (s.core core).queues.length →
         ch < (s.core core).cwp.length → (∀ p ∈ rs, (s.placeWord core r.ctx r.priv p).mismatched = false) →
           let moved (d p : Nat) (x : Bool) := (r :: q).map fun (y : Request) => if y.id = r.id then { y with done := d, part := p, disc := x } else y
           let part := r.part + 4 * m
           ∃ t, exec (.copyChunk core ch) s = .next t ∧ (t.core core).served = ch ∧
             (∀ j < m, (t.wg r.wg).pad.word (dst + off + 4 * j) = s.placeWord core r.ctx r.priv (rs.getD j (.pad 0 0))) ∧
             (∀ a, (∀ j < m, a + 4 ≤ dst + off + 4 * j ∨ dst + off + 4 * j + 4 ≤ a) →
               (t.wg r.wg).pad.word a = (s.wg r.wg).pad.word a) ∧
             (t.core core).cwp.getD ch 0 = (s.core core).cwp.getD ch 0 + BitVec.ofNat 32 (4 * m) ∧
             (t.core core).queues.getD ch [] =
               if part < min 4096 (r.len - r.done) then moved r.done part r.disc
               else if r.done + min 4096 (r.len - r.done) < r.len then moved (r.done + min 4096 (r.len - r.done)) 0 false
               else (r :: q).filter fun x => x.id ≠ r.id))) ∧
   ∀ (s : State) (core slot : Nat),
     let before (n : Nat) (k : Packet) : Prop :=
       k.done = false ∧ k.id < n ∧ dieOf (endpointCore k.src) = dieOf core ∧ match k.op with
         | .store _ _ _ _ _ | .padAdd _ _ _ _ _ _ => True
         | _ => False
     (((s.core core).sweeps.find? fun x => x.slot == slot) = none → exec (.generationSweep core slot) s = .next s) ∧
     ∀ x, ((s.core core).sweeps.find? fun x => x.slot == slot) = some x →
       ((∃ k ∈ s.fabric.packets, before x.upto k) → exec (.generationSweep core slot) s = .next s) ∧
       ((∀ k ∈ s.fabric.packets, ¬ before x.upto k) →
         ∃ t, exec (.generationSweep core slot) s = .next t ∧ t = { s with cores := t.cores } ∧
           t.core core = { s.core core with sweeps := (s.core core).sweeps.erase x }))

/-! ## The matrix engine -/

/-- R270, R272, R273, R274, R278–R290, R297, R299, R304: by the workgroup that holds the engine, an instruction makes one
entry of the engine queue for its bundle, or (`MMUL`, `MCNT`) one for each quarter with a qualifying lane, in ascending
order. An entry holds what was captured at issue and takes the locks of what it reads or writes. With no room in the queue
or the lock table the instruction does not issue. -/
def Obligations.MatrixEntries : Prop :=
  ∀ (s : State) (f : Fields), s.running f ≠ [] → s.holdsEngine = true →
    let all : Word := s.qualifying f.g
    let quarters : List Word := ([0x000000FF, 0x0000FF00, 0x00FF0000, 0xFF000000].map fun (m : Word) => all &&& m).filter (· ≠ 0)
    let low (m : Word) : Nat := (lowestLane m).getD 0
    let put (u : State) (op : Op) (m : Word) (d : Desc) (x : BitVec 64) (y : Word) (locks : List Lock) : Option State :=
      let c := u.core s.curCore
      if 32 ≤ c.engine.queue.length then none
      else (c.lock locks).map fun c1 => u.setCore s.curCore
        { c1 with
          nreq := c.nreq + 1
          engine := { c.engine with queue := c.engine.queue ++
            [{ id := c.nreq, op := op, f := f, wid := s.cur.wid, lanes := m, pc := s.cur.pc, hdl := d,
               slot := s.slot (Desc.fslot d), bound := s.boundOf s.curCtx d, x := x, y := y, args := [], stuck := false,
               priv := s.curPriv, since := s.cycle, paid := false, ahead := [] }] } }
    let makes (i : Instr) (op : Op) (ms : List Word) (one : State → Word → Option State) : Prop :=
      s.Clear op f → (∀ m ∈ ms, checkSources (sources op f s.curWarp (s.curWarp.lane (low m)) false) s.pc64 = none) →
        match ms.foldl (fun (u : Option State) m => u.bind fun v => one v m) (some s) with
        | none => exec i s = .next s
        | some u => ∃ t, exec i s = .next t ∧ u.OnlyMoved t (s.nextPc f)
    let plain (i : Instr) (op : Op) : Prop := makes i op [all] fun u m => put u op m 0 0 0 []
    let tensor (i : Instr) (op : Op) (ms : List Word) (ok : BitVec 16 → Bool) (write : Bool) (rows cols : Nat → Nat) : Prop :=
      ∀ d, s.handle (f.a.toNat % 16) = .ok d → ok (s.slot (Desc.fslot d)) = true →
        makes i op ms fun u m =>
          let cls := matClass (slotElem (s.slot (Desc.fslot d)))
          put u op m d ((s.wB op f (low m)).zeroExtend 64) (s.wC op f (low m))
            (s.engineLocks d write (s.wB op f (low m)).toNat (rows cls) (s.wC op f (low m)).toNat (cols cls)
              (u.core s.curCore).nreq)
    let image (i : Instr) (op : Op) (write : Bool) : Prop :=
      let off := (s.wB op f (low all)).toNat
      off % 128 = 0 → off + 328960 ≤ s.curWg.spad →
        makes i op [all] fun u m => put u op m 0 (BitVec.ofNat 64 off) 0
          [s.lockOf true off (off + 328960) write 2 0 (u.core s.curCore).nreq]
    let save (i : Instr) (op : Op) : Prop :=
      let a := s.pB op f (low all)
      a.toNat % 4096 = 0 → a.toNat < 2 ^ 55 → makes i op [all] fun u m => put u op m 0 a 0 []
    let plane (k : BitVec 16) : Bool := slotValid k && matClass (slotElem k) ≠ 3
    let depth (cls : Nat) : Nat := if f.dirCv then planeN cls else planeK cls
    let vr : Nat := viewRows f.dirCv
    let vc : Nat := viewCols f.dirCv
    plain (.mswap f) .mswap ∧ plain (.cdrain f) .cdrain ∧ plain (.cclr f) .cclr ∧ plain (.mzero f) .mzero ∧
      plain (.mchk f) .mchk ∧ tensor (.mlds f) .mlds [all] plane false planeN planeK ∧
      tensor (.mmul f) .mmul quarters plane false (fun _ => 8) depth ∧
      tensor (.mcnt f) .mcnt quarters plane false (fun _ => 8) depth ∧
      tensor (.mdrain f) .mdrain [all] slotValid true (fun _ => vr) (fun _ => vc) ∧
      tensor (.mst f) .mst [all] slotValid true (fun _ => vr) (fun _ => vc) ∧
      tensor (.mlda f) .mlda [all] (fun k => slotValid k && slotElem k ≠ 11) false (fun _ => vr) (fun _ => vc) ∧
      image (.cmerge f) .cmerge false ∧ image (.mstBank f) .mstBank true ∧ save (.msave f) .msave ∧ save (.mrest f) .mrest

/-- R272, R275, R276, R291, R302: `MRD`, `MWR` and `CRD` make one entry with the index and value of each lane; `MACQ` gives
a predicate pair and the engine, in the state without values, when it was free or already held; `MREL` makes its entry and
ends the holding; `MWAIT` orders as a release and goes on with an empty queue, and otherwise waits. -/
def Obligations.MatrixControl : Prop :=
  ∀ (s : State) (f : Fields), s.running f ≠ [] →
    let all : Word := s.qualifying f.g
    let c := s.core s.curCore
    let e : Entry :=
      { id := c.nreq, op := .mrel, f := f, wid := s.cur.wid, lanes := all, pc := s.cur.pc, hdl := 0, slot := s.slot 0,
        bound := s.boundOf s.curCtx 0, x := 0, y := 0, args := [], stuck := false, priv := s.curPriv,
        since := s.cycle, paid := false, ahead := [] }
    let queued (h : Option Nat) (x : Entry) : State :=
      s.setCore s.curCore { c with nreq := c.nreq + 1, engine := { c.engine with queue := c.engine.queue ++ [x], holder := h } }
    let words (i : Instr) (op : Op) (limit : Nat) (val : Nat → CWord) : Prop :=
      s.holdsEngine = true → s.Clear op f → s.Good op f → (∀ l < 32, s.Runs f l → (s.wB op f l).toNat < limit) →
        if c.engine.queue.length < 32 then
          ∃ t, exec i s = .next t ∧
            (queued c.engine.holder { e with op := op, args := (s.running f).map fun l => (l, (s.wB op f l).toNat, val l) }).OnlyMoved
              t (s.nextPc f)
        else exec i s = .next s
    words (.mrd f) .mrd 4096 (fun _ => .zero) ∧ words (.crd f) .crd 81920 (fun _ => .zero) ∧
      words (.mwr f) .mwr 4096 (fun l => (s.opC .mwr f l).headD .zero) ∧
      (s.holdsEngine = true → s.Clear .mrel f → s.Good .mrel f → c.engine.queue.length < 32 →
        ∃ t, exec (.mrel f) s = .next t ∧ (queued none e).OnlyMoved t (s.nextPc f)) ∧
      (s.Clear .macq f →
        let take : Bool := !s.holdsEngine && s.mayAcquire
        let ok : Bool := s.holdsEngine || s.mayAcquire
        let u : State := if take then
            s.setCore s.curCore { c with engine := { Engine.empty with holder := some (wgKey s.cur.wid) } } else s
        ∃ t, exec (.macq f) s = .next t ∧
          u.Wrote t f fun _ => { preds := [(f.d.toNat % 16, ok), (f.d.toNat % 16 + 1, !ok)] }) ∧
      ∀ r, s.holdsEngine = true → s.Clear .mwait f → s.Released f.mscope r →
        if (r.core s.curCore).engine.queue = [] then
          ∃ t, exec (.mwait f) s = .next t ∧ (r.acquireAt s.curCore f.mscope).OnlyMoved t (s.nextPc f)
        else ∃ t, exec (.mwait f) s = .next t ∧ r.Stays t fun _ => .mwait (r.core s.curCore).nreq f.mscope

/-- R273, R276, R279, R286, R289, R291, R299, R302: the entry at the head of a queue takes effect and leaves with its locks:
`MSWAP` exchanges the planes, `CCLR` empties the banks, `MZERO` a tile, `MWR` writes words in lane order, `MREL` leaves the
state without values, `MRD` and `CRD` give each lane that is alive its word. A held entry stays (R300). -/
def Obligations.EngineQueue : Prop :=
  ∀ (s : State) (core : Nat) (e : Entry) (q : List Entry), (s.core core).engine.queue = e :: q →
    (e.stuck = true → exec (.engineEntryPerform core) s = .next s) ∧
    (e.stuck = false → e.paid = false → (∀ x ∈ q, x.id ≠ e.id) → s.mayStart (s.gridOf e.wid) fieldMecyc = true →
      let g := (s.core core).engine
      let t := e.f.d.toNat % 4
      let v := s.charge (s.gridOf e.wid) fieldMecyc (passCost g e 1)
      let becomes (h : Engine) : Prop :=
        exec (.engineEntryPerform core) s = .next ((v.updCore core fun c => { c with engine := h }).dropEntry core e)
      let gives (word : Nat → CWord) : Prop :=
        e.f.ud = false → (s.core core).finj.getLsbD 0 = false → (∀ a ∈ e.args, (word a.2.1).wellFormed = true) →
          exec (.engineEntryPerform core) s = .next ((v.updWarp e.wid fun w =>
            e.args.foldl (fun (w : Warp) a => w.updLane a.1 fun x => if x.live then x.setReg e.f.d.toNat (word a.2.1) else x) w).dropEntry
              core e)
      (e.op = .mswap → becomes { g with active := g.shadow, shadow := g.active }) ∧
      (e.op = .mrel → becomes { Engine.empty with queue := g.queue }) ∧
      (e.op = .mzero → becomes (g.setTile t .zero)) ∧
      (e.op = .cclr → becomes (g.cclr t)) ∧
      (e.op = .mwr → (∀ a ∈ e.args, isWild a.2.2.data = false) → ∃ u : State,
        u = { v with cores := u.cores, wgs := u.wgs } ∧ (∀ k, u.wg k = v.wg k) ∧ (∀ c, c ≠ core → u.core c = v.core c) ∧
          u.core core = { v.core core with
            engine := e.args.foldl (fun h a => h.setTileWord (e.f.a.toNat % 4) a.2.1 a.2.2) (v.core core).engine } ∧
          exec (.engineEntryPerform core) s = .next (u.dropEntry core e)) ∧
      (e.op = .mrd → gives fun i => g.tileWord (e.f.a.toNat % 4) i) ∧
      (e.op = .crd → gives fun i => (g.bank (i / 20)).word (i % 20))) ∧
    ((s.wgs.get? (wgKey e.wid)).isNone = true → (s.core core).dirty = [] →
      ((s.dropEntry core e).core core).engine.queue = q.filter (fun x => x.id ≠ e.id) ∧
      ∀ k x, ((s.dropEntry core e).core core).locks.get? k = some x → ¬ (x.owner = 2 ∧ x.req = e.id))

/-- R15, R106, R108, R109, R162, R166: the residue that each row predicts from good sources is the residue of the row's result: sums,
shifts, logic, the extension of a TYPE, and a product with an addend, wrapped or saturated, or as a pair. R117, R118, R283,
R284, R286, R102, R294: a counter with a true residue passes its check when it is added to or shifted and keeps
a true residue; a bank stands for the sum of its counters by their weights, times a power of 2, and a block adds
its histogram to the counters; a contribution is added to an accumulator word with one rounding, to nearest
even. -/
def Obligations.ResiduesAndCounters : Prop :=
  (∀ (a b c : CWord) (ci sat : Bool) (n t : Nat), n < 32 → a.wellFormed = true → b.wellFormed = true → c.wellFormed = true →
     let x := a.data
     let y := b.data
     let p : Int := tyExt t x * tyExt t y + tyExt t c.data
     let e := ((exactOf t a).mul (exactOf t b)).add (exactOf t c)
     predictAdd a b ci = res (x + y + BitVec.ofNat 32 ci.toNat) ∧ predictSub a b ci = res (x - y - BitVec.ofNat 32 ci.toNat) ∧
       predictShl a n = res (x <<< n) ∧ predictShr a n = res (x >>> n) ∧ predictSar a n = res (x.sshiftRight n) ∧
       predictRol a n = res (x.rotateLeft n) ∧ predictOr a b = res (x ||| y) ∧ predictXor a b = res (x ^^^ y) ∧
       predictNot a = res (~~~x) ∧ extWord t a = .gen (tyWrap t (tyExt t x)) ∧ e.typed t sat = .gen (tyWrite t sat p) ∧
       (∀ k < 2, e.word 2 k = .gen (intWord p k)) ∧ (res x).toNat = x.toNat % 15 ∧ (CWord.gen x).wellFormed = true) ∧
  ((∀ (c : Counter) (x : BitVec 24), c.ok = true → c.add x = some ⟨c.value + x, res24 (c.value + x)⟩) ∧
   (∀ (c : Counter) (d : Nat), c.ok = true → c.shl d = some ⟨c.value <<< d, res24 (c.value <<< d)⟩) ∧
   (∀ (el : Nat) (b : Bank), (bankValue el b).toRat =
     ((List.range 18).map fun j => ((b.get j).val : ℚ) * ((curdWeights el).getD j 0 : ℚ)).sum * (2 : ℚ) ^ (b.tag + curdExp el)) ∧
   (∀ (b : Bank) (h : List Int) (d : Nat), (∀ j < 18, (b.get j).ok = true) → b.fits 0 h d = true →
     ∃ c, b.addHist h d = some c ∧ c = { b with cnt := c.cnt } ∧
       ∀ j < 18, (c.get j).ok = true ∧ (c.get j).val = (b.get j).val + h.getD j 0 * 2 ^ d) ∧
   ∀ (w : Bench) (p : Pass) (kind t i row col blk n : Nat) (smax : Int) (v : FVal), w.inj = none →
     (w.eng.tileWord t i).wellFormed = true → (p.ts = false ∨ suspect p v n smax = false) →
       ∃ u, w.addTo p kind t i row col blk n smax v = .ok u ∧
         u.eng = w.eng.setTileWord t i
           (.gen (BitVec.ofNat 32 (roundTo .f32 0 (addX 0 (Ieee.f32.decode (w.eng.tileWord t i).data.toNat) v).1).1)) ∧
         (suspect p v n smax = true → u.mstat.getLsbD 4 = true))

/-! ## Issue, waiting and time -/

/-- R134, R135, R141, R142: a clause header opens a window for the bundle, and in the lanes that are inside a window it is
`ILLEGAL` with
WHY 9; an encoding that is no instruction raises `ILLEGAL` in every active lane. R122, R123, R124, R366, R414,
R415, R420: an instruction has as many words as its LEN says; a fetch that finds them leaves the bundle to
issue, and one that fails traps in every active lane; a walk that a live warp of the context on the core waits for is charged
to its grid; it puts its translation into the buffer and
the entries it met into its walker's cache, and
a fault is never held. -/
def Obligations.FetchAndHeaders : Prop :=
  (∀ (s : State), s.Bundled →
     (∀ h : Header, (∀ l < 32, s.active l = true → (s.curWarp.lane l).window = 0) → ∃ t, exec (.clauseHeader h) s = .next t ∧
       s.SameDevice t ∧ s.SameElsewhere t ∧
       s.OthersKeep t ∧ t.warp s.cur.wid = { s.curWarp with lanes := (t.warp s.cur.wid).lanes } ∧
       ∀ l < 32, s.active l = true → (t.warp s.cur.wid).lane l =
         { s.curWarp.lane l with pc := s.cur.pc + 8, window := h.cnt.toNat + 1, wmask := h.wmask }) ∧
     (∀ (h : Header) (pc : Addr),
       let ls := (List.range 32).filter fun l => s.active l && (s.curWarp.lane l).window != 0
       s.Enters ls causeIllegal pc → ∃ t, exec (.clauseHeader h) s = .next t ∧
         s.TookTrap t ls ⟨causeIllegal, illegalInfo ⟨9, 3, 0, false⟩, s.pc64⟩ s.pc64 pc ∧
         ∀ l < 32, s.active l = true → l ∉ ls → ((t.warp s.cur.wid).lane l).pc = s.cur.pc + 8) ∧
     ∀ (e : Illegal) (pc : Addr), s.Enters (lanesOf s.cur.mask) causeIllegal pc →
       ∃ t, exec (.notAnInstruction e) s = .next t ∧
         s.TookTrap t (lanesOf s.cur.mask) ⟨causeIllegal, illegalInfo e, s.pc64⟩ s.pc64 pc) ∧
  ((∀ (s s1 : State) (ws : List Word), s.fetch = (s1, .ok ws) →
     ws.length = wordsIn ((ws.headD 0).extractLsb' 0 2) ∧ s.leader.hi = 0 ∧ s.leader.pc.toNat % 4 = 0 ∧
       ((∀ a, (s.mem.word a).mismatched = false) → (∀ k, (KMap.getD s.metas k []).length + 8 ≤ 512) →
         s1.warps = s.warps ∧ s1.wgs = s.wgs)) ∧
   (∀ (s : State), s.leader.hi ≠ 0 → ∃ x : Trap, s.fetch = (s, .error (.trap x)) ∧ x.cause = causeFetch ∧ x.addr = s.leader.fullPc) ∧
   (∀ (s s1 : State) (wid bid : Nat) (ws : List Word), (s.atBundle wid bid).cur.mask ≠ 0 →
     (s.atBundle wid bid).fetch = (s1, .ok ws) → exec (.instructionFetch wid bid) s = .next s1) ∧
   (∀ (s s1 : State) (wid bid : Nat) (x : Trap), (s.atBundle wid bid).cur.mask ≠ 0 →
     (s.atBundle wid bid).fetch = (s1, .error (.trap x)) → exec (.instructionFetch wid bid) s = .next (s1.fetchFails x)) ∧
   ∀ (s : State) (core c : Nat) (va : Addr) (code : Bool),
     let live := (s.liveWarps c).find? fun w => warpCore w == core
     (live = none ∨ s.needsWalk core c va.toNat code = false → exec (.pageWalk core c va code) s = .next s) ∧
     ∀ w, live = some w → s.needsWalk core c va.toNat code = true →
       let g := s.gridOf w
       (s.mayStart g fieldWalks = false → exec (.pageWalk core c va code) s = .next s) ∧
       (∀ e, s.mayStart g fieldWalks = true → s.walk (dieOf core) c va.toNat = .error e →
         ∃ t, exec (.pageWalk core c va code) s = .next t ∧
           t = { s with walkers := t.walkers, regions := (s.charge g fieldWalks 1).regions }) ∧
       ∀ x, s.mayStart g fieldWalks = true → s.walk (dieOf core) c va.toNat = .ok x →
         ∃ t, exec (.pageWalk core c va code) s = .next t ∧
           t = { s with cores := t.cores, walkers := t.walkers, regions := (s.charge g fieldWalks 1).regions } ∧
           (∀ e w, w ∈ t.walker e → w ∈ s.walker e ∨ (e = dieOf core ∧ w ∈ s.walkMeets e c va.toNat)) ∧
           t.lookup core c va.toNat code = .ok x ∧ ∀ k, k ≠ core → t.core k = s.core k)

/-- R54, R55, R57, R58, R133, R208: at a regroup point the threads that the bundle former may place are ready in one bundle
for each address, and the others stay; a `YIELD` is over after another bundle's issue or 32 cycles, and a switch marker then parks
its bundle. -/
def Obligations.Regrouping : Prop :=
  ∀ (s : State) (wid : Nat), (s.warps.get? wid).isSome = true → (s.warp wid).lanes.length = 32 →
    (let u := ((s.unpark wid).releaseHeld wid).warp wid
     (∀ l < 32, (u.lane l).bid < u.next) → ∃ t, exec (.regroupPoint wid) s = .next t ∧ t = { s with warps := t.warps } ∧
       (∀ v, v ≠ wid → t.warp v = s.warp v) ∧
       (∀ l < 32, (u.lane l).placeable = false → (t.warp wid).lane l = u.lane l) ∧
       (∀ l < 32, (u.lane l).placeable = true → (t.warp wid).lane l =
         { u.lane l with status := .ready, bid := ((t.warp wid).lane l).bid }) ∧
       ∀ l < 32, ∀ k < 32, (u.lane l).placeable = true → (u.lane k).placeable = true →
         (((t.warp wid).lane l).bid = ((t.warp wid).lane k).bid ↔ (u.lane l).fullPc = (u.lane k).fullPc)) ∧
    ∃ t, exec (.yieldExpiry wid) s = .next t ∧ t = { s with warps := t.warps } ∧ (∀ v, v ≠ wid → t.warp v = s.warp v) ∧
      ∀ l < 32, (t.warp wid).lane l =
        match ((s.warp wid).lane l).status with
        | .yielded n since =>
          if n < (s.core (warpCore wid)).issued ∨ since + 32 ≤ s.cycle then
            { (s.warp wid).lane l with
              status := if ((s.warp wid).lane l).parks = true then .parked
                else if ((s.warp wid).lane l).frames = [] then .joining else .ready, parks := false, age := s.cycle }
          else (s.warp wid).lane l
        | _ => (s.warp wid).lane l

/-- R230, R386, R388: `LAUNCH` reads a record after a release at the device's scope, enqueues it in a device queue
of the issuer's pitch that has room, and gives 0; or it gives 3, 2 or 1 and enqueues nothing. R388, R390, R386:
`ADMISSION` takes the record at the head of a queue: it becomes a grid, or its refusal is reported; the head
moves on. `GRID_COMPLETION` ends a grid whose workgroups have all ended, once its writes have reached their
ends, with its completion word. -/
def Obligations.LaunchAndGrids : Prop :=
  ((∀ (s : State) (f : Fields) (l : Nat) (ls : List Nat) (pa pb : Nat) (v r : State), s.running f = l :: ls →
     s.Clear .launch f → s.Good .launch f →
     let a := s.pA .launch f l
     let b := s.pB .launch f l
     a.toNat % 128 = 0 → b.toNat % 256 = 0 → a.toNat < 2 ^ 55 → b.toNat < 2 ^ 55 →
     s.chargeAccess false [] [b.toNat] [a.toNat] = some v →
     v.translate v.curCore v.curCtx a.toNat (v.dataAccess false) = .ok pa →
     v.translate v.curCore v.curCtx b.toNat (v.dataAccess false) = .ok pb → v.Released 5 r →
       let cs := r.wordsAt r.curCore r.curCtx r.curPriv (.global a pa) 128
       ∃ t, exec (.launch f) s = .next t ∧ (r.enqueueRecord pb cs).1.Wrote t f fun _ =>
         { dst := [.gen (BitVec.ofNat 32 (r.enqueueRecord pb cs).2)] }) ∧
   ∀ (s : State) (a : Nat) (cs : List CWord),
     let p := (s.ctx s.curCtx).pitch
     (s.regions.get? a = none → s.enqueueRecord a cs = (s, 3)) ∧
     ∀ q, s.regions.get? a = some q →
       let g := gridOfRec (cs.map (·.data)) a q.qtail
       let refused : Prop := q.devq = false ∨ s.recordWhy q cs g (some (s.curCtx, s.curPriv)) ≠ 0
       let full : Prop := 2 ^ q.qlog ≤ (q.qtail + 2 ^ 32 - q.qhead) % 2 ^ 32
       (q.pitch ≠ p → s.enqueueRecord a cs = (s, 3)) ∧
       (q.pitch = p → refused → s.enqueueRecord a cs = (s, 2)) ∧
       (q.pitch = p → ¬ refused → full → s.enqueueRecord a cs = (s, 1)) ∧
       (q.pitch = p → ¬ refused → ¬ full → ∃ t, s.enqueueRecord a cs = (t, 0) ∧
         t = { s with mem := t.mem, l2 := t.l2, views := t.views, metas := t.metas, regions := t.regions } ∧
         t.regions.get? a = some { q with qtail := (q.qtail + 1) % 2 ^ 32 } ∧ ∀ b, b ≠ a → t.regions.get? b = s.regions.get? b)) ∧
  ((∀ (s : State) (a : Nat), (s.regions.get? a = none ∨ ∃ r, s.regions.get? a = some r ∧ r.qhead = r.qtail) →
     exec (.admission a) s = .next s) ∧
   (∀ (s : State) (a : Nat) (r : Region), s.regions.get? a = some r → r.qhead ≠ r.qtail →
     let cs := s.physWords r.pitch (r.qbase + 128 * (r.qhead % 2 ^ r.qlog)) 32
     let g := gridOfRec (cs.map (·.data)) a r.qhead
     ∃ t, exec (.admission a) s = .next t ∧
       (∀ b, t.regions.get? b = if b = a then some { r with qhead := (r.qhead + 1) % 2 ^ 32 } else s.regions.get? b) ∧
       t.wgs = s.wgs ∧ t.warps = s.warps ∧ t.cores = s.cores ∧
       (s.recordWhy r cs g none ≠ 0 → t.grids = s.grids ∧ t.reports = s.reports ++ [.irq r.pitch 0]) ∧
       (s.recordWhy r cs g none = 0 → t.reports = s.reports ∧ ∃ i x, (∀ e ∈ s.grids, e.1 < i) ∧ t.grids = s.grids.put i x ∧
         x = { g with fields := x.fields, resv := x.resv } ∧
         (∀ b ∈ s.chain 8 a, x.fields.get? b = (s.regions.get? b).map (·.resolved)) ∧
         ∀ b q, s.regions.get? b = some q → q.pitch = r.pitch → x.resv.get? b = some (q.resolved.getD 7 0))) ∧
   (∀ (s : State) (i : Nat), s.grids.get? i = none → exec (.gridCompletion i) s = .next s) ∧
   ∀ (s : State) (i : Nat) (g : Grid), s.grids.get? i = some g →
     let busy : Prop := g.ended < g.total ∨ ∃ k ∈ s.fabric.packets, k.grid = i ∧ k.done = false
     (busy → exec (.gridCompletion i) s = .next s) ∧
     (¬ busy → ∃ t, exec (.gridCompletion i) s = .next t ∧ t.grids.get? i = none ∧
       (∀ j, j ≠ i → t.grids.get? j = s.grids.get? j) ∧
       ∀ pa, g.caddr ≠ 0 → g.caddr.toNat < 2 ^ 55 →
         let u := s.writeBackCtx g.ctx
         (u.ctxs.get? g.ctx).isSome = true → (u.ctx g.ctx).retired = false →
         (∀ r, u.regions.get? g.region = some r → r.pitch = (u.ctx g.ctx).pitch) →
         u.translate 1600 g.ctx g.caddr.toNat { write := true } = .ok pa → pa % 8 = 0 →
         u.target (u.ctx g.ctx).pitch true pa = .hbm → u.isData (u.ctx g.ctx).pitch pa = true →
           t.mem.words pa 2 = ofPair (BitVec.ofNat 64 (1 + g.qidx * 2 ^ 32))))

/-! ## Copies under way, packets, the host -/

/-- R246, R364, R423–R428, R430, R432, R434, R440, R447: a packet is accepted in the order of its numbers and performed once, a
duplicate is only acknowledged, one ahead of its turn is not taken, and a copy with a bad header is discarded and replayed; a write
of an old allocation is dropped; an acknowledged packet leaves; a flit that fails its CRC for the eighth time in a row kills its
link; a dead link advances the routing version and every packet of its fabric travels again, on the port that the tables then
choose; a port trains where both ends agree on the carriage; a peer's access that no inbound window admits is refused.
R109, R321, R436, R451, R453: the host writes words with generated residues into a stack of a pitch that is neither
frozen nor being reset (R445), and reads words with the flag of poisoned data; what lies outside is unsupported. Host memory
answers with
generated residues, and after an error with poison (log 23). -/
def Obligations.PacketsAndHost : Prop :=
  ((∀ (s : State) (n : Nat) (k : Packet), (s.fabric.packets.find? fun x => x.id == n) = some k →
     let key := k.stream
     let want := s.fabric.expect.getD key 0
     let taken (u : State) (next : Nat) : State :=
       { u with fabric := { u.fabric with
           packets := u.fabric.packets.map fun x => if x.id = n then { x with done := true, sent := false } else x
           expect := u.fabric.expect.put key next } }
     (k.sent = false ∨ s.routed k = false → exec (.packetAccept n) s = .next s) ∧
     (k.sent = true → s.routed k = true →
       (k.seq = want → exec (.packetAccept n) s = .next (taken (s.deliver k) ((want + 1) % 65536))) ∧
       (k.seq ≠ want → (want + 65536 - k.seq) % 65536 < 32768 → exec (.packetAccept n) s = .next (taken s want)) ∧
       (k.seq ≠ want → 32768 ≤ (want + 65536 - k.seq) % 65536 → exec (.packetAccept n) s = .next s))) ∧
   (∀ (s : State) (k : Packet), (s.ctxs.get? k.ctx).isSome = true → (s.ctx k.ctx).retired = false →
     (∀ t gen off n ws, k.op = .store t gen off n ws → s.corePitch (coreOf t) = k.pitch → (∀ w ∈ ws, w.mismatched = false) →
       s.deliver k = if (s.wgs.get? t).isSome = true ∧ (s.core (coreOf t)).gens.getD (t % 16) 0 = gen then
         s.updWg t fun g => g.store off n ws else s) ∧
     ∀ t b, k.op = .post t b → s.corePitch (coreOf t) = k.pitch →
       s.deliver k = s.updWg t fun g => { g with events := g.events ||| b.zeroExtend 16 }) ∧
   (∀ (s : State) (n : Nat), exec (.packetAck n) s =
     .next { s with fabric := { s.fabric with packets := s.fabric.packets.filter fun k => !(k.id = n ∧ k.done = true) } }) ∧
   (∀ (s : State) (n src : Nat),
     s.perform (.badHeader n) = .next { s with fabric := { s.fabric with
       packets := s.fabric.packets.map fun k => if k.id = n then { k with sent := false } else k } } ∧
     s.perform (.replay src) = .next { s with fabric := { s.fabric with
       packets := s.fabric.packets.map fun k => if k.src = src ∧ k.done = false then { k with sent := true } else k } }) ∧
   (∀ (s : State) (link : Nat), ∃ (t : State) (r : Record), exec (.flitCrcFailure link) s = .next t ∧
     t = { s with lantern := { s.lantern with log := (r :: s.lantern.log).take 65536 }, fabric := t.fabric, agenda := t.agenda } ∧
     r.cls = 1 ∧ r.sev = 0 ∧ r.endpt = link % 65536 ∧
     t.fabric = { s.fabric with crc := t.fabric.crc, dead := t.fabric.dead } ∧
     let n := (s.fabric.crc.get? link).getD 0 + 1
     (n < 8 ∨ link ∈ s.fabric.dead → t.fabric.crc.get? link = some n ∧ t.fabric.dead = s.fabric.dead ∧ t.agenda = s.agenda) ∧
     (8 ≤ n → link ∉ s.fabric.dead → t.fabric.dead = s.fabric.dead ++ [link] ∧
       ∃ lost, t.agenda = s.agenda ++ [.event (.linkDeath (tetherLink link) lost)])) ∧
   (∀ (s : State) (tether : Bool) (lost : List Nat),
     let v := ((if tether then s.fabric.tver else s.fabric.gver) + 1) % 16
     ∃ t, exec (.linkDeath tether lost) s = .next t ∧
       t.fabric.packets = s.fabric.packets.map (fun k => if k.peer.isSome = tether then
         { k with ver := v, sent := true, dst := match k.peer with
           | some d => portEndpoint (t.portTo d)
           | none => k.dst } else k) ∧
       (if tether then t.fabric.tver else t.fabric.gver) = v ∧ t.fabric.nadv = min (s.fabric.nadv + 1) 65535 ∧
       (tether = true → ∀ d, t.fabric.lost.get? d = if d ∈ lost then some s.time else s.fabric.lost.get? d) ∧
       (tether = false → lost ≠ [] → ∀ p, (s.pitches.get? p).isSome = true → (t.pitch p).frozen = true)) ∧
   (∀ (s : State) (d : Nat),
     (s.fabric.lost.get? d = none → exec (.routeLossTimeout d) s = .next s) ∧
     ∀ x, s.fabric.lost.get? d = some x →
       if s.time < x + 100000 then exec (.routeLossTimeout d) s = .next s
       else ∃ t, exec (.routeLossTimeout d) s = .next t ∧
         t.fabric.packets = s.fabric.packets.filter (fun k => !(k.peer == some d && !k.done)) ∧
         ∀ k ∈ s.fabric.packets, k.peer = some d → k.done = false →
           t.fabric.expect.get? k.stream = some (s.fabric.nextSeq.getD k.stream 0)) ∧
   (∀ (s : State) (port : Nat) (own peer : Bool), ∃ t, s.perform (.trainPort port own peer) = .next t ∧
     t = { s with fabric := { s.fabric with ports := t.fabric.ports } } ∧
     t.fabric.ports.get? (port % 18) = some ⟨own == peer, own⟩) ∧
   ∀ (s : State) (port dev src p iwin off : Nat) (op : PeerOp),
     (s.portUp (port % 18) = false → s.perform (.peerAccess port dev src p iwin off op) = .next s) ∧
     (s.portUp (port % 18) = true → s.peerTarget dev src p iwin off op = none →
       s.perform (.peerAccess port dev src p iwin off op) = .next (s.report (.peerReply dev src false [])))) ∧
  ((∀ (s : State) (p off pa : Nat) (w : Word), (s.pitches.get? p).isSome = true → (s.pitch p).frozen = false →
     s.linkDown p = false → s.bar2 p (off / 4 * 4) = some pa → pa / 65536 ∉ s.lantern.dead →
       ∃ t, exec (.hostWrite p off [w]) s = .next t ∧ t = { s with mem := s.mem.setWord pa (.gen w), l2 := t.l2 }) ∧
   (∀ (s : State) (p off : Nat) (w : Word), (s.pitches.get? p = none ∨ (s.pitch p).frozen = true ∨
     s.linkDown p = true ∨ s.bar2 p (off / 4 * 4) = none) → exec (.hostWrite p off [w]) s = .next (s.report (.unsupported p))) ∧
   (∀ (s : State) (p off n : Nat) (pa : Nat → Nat), (s.pitches.get? p).isSome = true →
     ((s.pitch p).frozen = false ∨ (s.pitch p).dumped = true) → s.linkDown p = false →
       (∀ k < n, s.bar2 p (off / 4 * 4 + 4 * k) = some (pa k)) →
       let ws := (List.range n).map fun k => s.physWord p true (pa k)
       ∃ t, exec (.hostRead p off n) s = .next t ∧
         t = { s.report (.read p (ws.map (·.data)) (ws.any fun w => !w.wellFormed)) with l2 := t.l2 }) ∧
   (∀ (s : State) (p off n : Nat), (s.pitches.get? p = none ∨ (∃ k < n, s.bar2 p (off / 4 * 4 + 4 * k) = none) ∨
     s.linkDown p = true ∨ ((s.pitch p).frozen = true ∧ (s.pitch p).dumped = false)) →
       exec (.hostRead p off n) s = .next (s.report (.unsupported p))) ∧
   (∀ (s : State) (p off : Nat), s.bar2 p off =
     ((((List.range 16).filter fun u => s.units.getD u 16 = p)[off / 2 ^ 36]?).map fun u => u * 2 ^ 36 + off % 2 ^ 36)) ∧
   ∀ (s : State) (pa : Nat) (ws : List Word) (error : Bool),
     let at' := (List.range ws.length).map fun k => pa / 4 * 4 + 4 * k
     let rest := s.hostErrs.filter fun a => !at'.contains a
     exec (.hostCompletion pa ws error) s = .next (if pa / 2 ^ 48 = 8 then
       { s with mem := s.mem.setWords (pa / 4 * 4) (ws.map fun w => if error then CWord.poison ⟨w, 0⟩ else .gen w)
                hostErrs := if error then rest ++ at' else rest } else s))

/-! ## Regions and grids -/

/-- R381, R382, R383, R384, R44: `rlink`, `rsync` and `runlink` on the block that the register value names, each with its
RES code; a linked block that passes its checks is one level below its parent, and the resolved value of a field is its
own where IMASK selects it, else the parent's. -/
def Obligations.RegionLinks : Prop :=
  (∀ (s : State) (p : Nat) (v : BitVec 64), (s.pitches.get? p).isSome = true →
    let a := v.toNat % 2 ^ 52 / 256 * 256
    let cs := s.physWords p a 64
    let ws := cs.map (·.data)
    let bad : Prop := ∃ w ∈ cs, w.wellFormed = false
    let ends (i : Instr) (res : Nat) : Prop :=
      ∃ t, exec i s = .next t ∧ t = { s with pitches := t.pitches } ∧ (t.pitch p).rlstat = BitVec.ofNat 32 res
    ((s.regions.get? a).isSome = true → ends (.rlink p v) 7) ∧
    (s.regions.get? a = none → bad → ends (.rlink p v) 6) ∧
    (∀ n, s.regions.get? a = none → ¬ bad → s.linkCheck p ws = .error n → ends (.rlink p v) n) ∧
    (∀ lv, s.regions.get? a = none → ¬ bad → s.linkCheck p ws = .ok lv →
      ∃ t, exec (.rlink p v) s = .next t ∧ (t.pitch p).rlstat = 0 ∧ ∃ r, t.regions.get? a = some r ∧ r.pitch = p ∧
        r.level = lv ∧ r.parent = wordPair ws 0 ∧ r.own = rcbFields ws ∧ r.imask = ws.getD 3 0) ∧
    (s.regions.get? a = none → ends (.rsync p v) 7 ∧ ends (.runlink p v) 7) ∧
    ∀ r, s.regions.get? a = some r →
      (r.pitch ≠ p → ends (.rsync p v) 7 ∧ ends (.runlink p v) 7) ∧
      (r.pitch = p →
        let again : Nat := if rcbBad ws then 1 else if wordPair ws 0 ≠ r.parent then 8
          else if r.parent = 0 ∧ (ws.getD 3 0 ≠ 0x3FFF ∨ wordBits ws 68 1 = 0) then 4 else 0
        (bad → ends (.rsync p v) 6) ∧
        (¬ bad → again ≠ 0 → ends (.rsync p v) again) ∧
        (¬ bad → again = 0 → ∃ t, exec (.rsync p v) s = .next t ∧ (t.pitch p).rlstat = 0 ∧ ∃ x, t.regions.get? a = some x ∧
          x.own = rcbFields ws ∧ x.imask = ws.getD 3 0 ∧ x.parent = r.parent ∧ x.level = r.level) ∧
        let inUse : Prop := r.qhead ≠ s.tailOf a r ∨ (∃ g ∈ s.grids, g.2.region = a) ∨ ∃ e ∈ s.regions, e.2.parent = a
        (inUse → ends (.runlink p v) 5) ∧
        (¬ inUse → ∃ t, exec (.runlink p v) s = .next t ∧ (t.pitch p).rlstat = 0 ∧
          ∀ b, t.regions.get? b = if b = a then none else s.regions.get? b))) ∧
  (∀ (s : State) (p : Nat) (ws : List Word) (lv : Nat), s.linkCheck p ws = .ok lv →
    lv = match s.regions.get? (wordPair ws 0) with
      | some q => if wordPair ws 0 = 0 then 1 else q.level + 1
      | none => 1) ∧
  ∀ (s : State),
    (∀ a r, s.regions.get? a = some r → r.level ≤ 8 ∧
      (r.parent = 0 ∧ 1 ≤ r.level ∨ r.parent ≠ 0 ∧ ∃ q, s.regions.get? r.parent = some q ∧ q.level + 1 = r.level)) →
    ∀ a r, s.regions.get? a = some r → ∃ x, s.resolveAll.regions.get? a = some x ∧ x = { r with resolved := x.resolved } ∧
      ∀ k < 14, x.resolved.getD k 0 =
        if r.imask.getLsbD k = true ∨ r.parent = 0 then r.own.getD k 0
        else ((s.resolveAll.regions.get? r.parent).map (·.resolved.getD k 0)).getD 0

/-- R386, R387, R392, R393, R44: the doorbells and the budget period. `qdoor` takes the tail of a host queue from memory;
`edoor` makes event bits 8 to 15 pending in every workgroup of the region's grids; a period begins with what the last one
used beyond its limit, as far as it charged it itself. -/
def Obligations.DoorbellsAndPeriods : Prop :=
  (∀ (s : State) (p : Nat) (v : BitVec 64) (r : Region),
    let a := v.toNat % 2 ^ 52 / 256 * 256
    let w := s.physWord p true (a + 32)
    s.regions.get? a = some r →
    (r.pitch = p → r.devq = false → w.wellFormed = true →
      ∃ t, exec (.qdoor p v) s = .next t ∧ t = { s with regions := t.regions } ∧
        ∀ b, t.regions.get? b = if b = a then some { r with qtail := w.data.toNat } else s.regions.get? b) ∧
    (r.pitch ≠ p ∨ r.devq = true → exec (.qdoor p v) s = .next s) ∧
    (r.pitch = p → ∃ t, exec (.edoor p v) s = .next t ∧ t = { s with wgs := t.wgs, saved := t.saved } ∧
      ∀ k g, s.wgs.get? k = some g → t.wgs.get? k =
        some (if (s.grid g.grid).region = a ∧ g.ended = false then
          { g with events := g.events ||| BitVec.ofNat 16 (v.toNat % 256 * 256) } else g)) ∧
    (r.pitch ≠ p → exec (.edoor p v) s = .next s)) ∧
  (∀ (s : State) (p : Nat) (v : BitVec 64), s.regions.get? (v.toNat % 2 ^ 52 / 256 * 256) = none →
    exec (.qdoor p v) s = .next s ∧ exec (.edoor p v) s = .next s) ∧
  ∀ (s : State), ∃ t, exec .budgetPeriod s = .next t ∧ t = { s with regions := t.regions, grids := t.grids } ∧
    (∀ a r, s.regions.get? a = some r → ∃ x, t.regions.get? a = some x ∧ x.carried = x.used ∧
      x = { r with used := x.used, carried := x.carried } ∧ ∀ k < 6,
        let limit := r.resolved.getD (8 + k) 0
        x.used.getD k 0 = if limit = 0xFFFFFFFF then 0
          else min (r.used.getD k 0 - r.carried.getD k 0) (r.used.getD k 0 - limit)) ∧
    ∀ i g, s.grids.get? i = some g → ∃ x, t.grids.get? i = some x ∧ x = { g with fields := x.fields, resv := x.resv } ∧
      (∀ a ∈ s.chain 8 g.region, x.fields.get? a = (s.regions.get? a).map (·.resolved)) ∧
      ∀ r a q, s.regions.get? g.region = some r → s.regions.get? a = some q → q.pitch = r.pitch →
        x.resv.get? a = some (q.resolved.getD 7 0)

/-- R46, R48, R49, R52, R364, R385, R391, R453: `WORKGROUP_PLACEMENT` serves the first ready grid, in the order of
arbitration, that has room for its next workgroup or gang; the order is priority, then round robin, among equals by number from the
one served last (that the numbers give the order is the model's choice, log 113); every thread begins at the entry with its own
stack. -/
def Obligations.Placement : Prop :=
  (∀ (s : State) (p : Nat), ((s.pitch p).frozen = true ∨ ∀ e ∈ s.arbitration p, s.placeGrid p e.1 e.2 = (s, false)) →
    exec (.workgroupPlacement p) s = .next s) ∧
  (∀ (s u : State) (p i : Nat) (g : Grid) (xs ys : List (Nat × Grid)), (s.pitch p).frozen = false →
    s.arbitration p = xs ++ (i, g) :: ys → (∀ e ∈ xs, s.placeGrid p e.1 e.2 = (s, false)) → s.placeGrid p i g = (u, true) →
      exec (.workgroupPlacement p) s = .next u) ∧
  (∀ (s : State) (p : Nat),
    let after (e : Nat × Grid) : Prop := (s.pitch p).turns.getD e.2.prio 0 < e.1
    (s.arbitration p).Pairwise fun a b => b.2.prio < a.2.prio ∨
      b.2.prio = a.2.prio ∧ (after a ∧ ¬ after b ∨ (after a ↔ after b) ∧ a.1 ≤ b.1 ∨ 2 ^ 64 ≤ a.1 + b.1)) ∧
  (∀ (s : State) (p : Nat), ∀ e ∈ s.arbitration p, e ∈ s.grids ∧ e.2.placed < e.2.total ∧
    e.2.killed = false ∧ (s.ctx e.2.ctx).retired = false ∧ (s.ctx e.2.ctx).stopped = false ∧
    ∀ d ∈ s.grids, d.2.region = e.2.region → d.1 < e.1 → d.2.total ≤ d.2.placed) ∧
  (∀ (s : State) (p i : Nat) (g : Grid) (cs : List Nat), s.grids.get? i = some g → g.threads ≤ 1024 →
    s.pickCores p (s.pitch p).closed g = some cs → (g.slines = 0 → (s.placeGrid p i g).2 = true) ∧
    ∀ u, s.placeGrid p i g = (u, true) → (g.slines = 0 ∨ ∀ c ∈ cs, (s.core c).dirty = []) →
      ((s.pitches.get? p).isSome = true → (u.pitch p).turns.get? g.prio = some i) ∧
      (u.grid i).placed = g.placed + cs.length ∧ cs.length = g.gang ∧ cs.Nodup ∧
      ∀ j < cs.length, ∀ c, cs[j]? = some c → ∃ slot < 16, s.wgs.get? (c * 16 + slot) = none ∧
        let k := c * 16 + slot
        (u.wg k).grid = i ∧ (u.wg k).linear = g.placed + j ∧ (u.wg k).ctx = g.ctx ∧ (u.wg k).nreg = g.nreg ∧
          (u.wg k).spad = 128 * g.slines ∧ (u.wg k).warps = g.warpsN ∧ (u.wg k).gang.length = cs.length ∧
          ∀ w < g.warpsN, ∀ l < 32,
            let t := (u.warp (k * 32 + w)).lane l
            let n := 32 * w + l
            if n < g.threads then t.pc = g.entry ∧ t.status = .joining ∧
              t.csp = g.stack + BitVec.ofNat 64 (g.sstr * ((g.placed + j) * g.threads + n + 1))
            else t.live = false)

/-! ## Contexts and pitches -/

/-- R336, R337, R339, R340, R342, R345, R346, R347, R348, R443: the requests on a context. A request that fails ends with
FAIL and its WHY; a pre-emption stops the context and, once nothing defers it and no unit of its engines is under way, saves
it, workgroups or none,
and frees its places; a kill
retires the number, discards the work and ends when every point has acknowledged; a resumption places what was saved. -/
def Obligations.PreemptKillResume : Prop :=
  ∀ (s : State) (p : Nat), (s.pitches.get? p).isSome = true →
    let q := s.pitch p
    let c := q.pcreq.toNat % 4096
    let op : Nat := if q.pcreq.getLsbD 15 then q.pcreq.toNat / 4096 % 4 else 0
    let bound : Prop := (s.ctxs.get? c).isSome = true ∧ (s.ctx c).retired = false ∧ (s.ctx c).pitch = p
    let ends (t u : State) (fail : Bool) (why n : Nat) : Prop :=
      u = { t with pitches := u.pitches, reports := t.reports ++ [.irq p 1] } ∧ (u.pitch p).pcreq = q.pcreq &&& 0xFFFF7FFF ∧
        (u.pitch p).pcstat =
          ((t.pitch p).pcstat &&& 6) ||| BitVec.ofNat 32 ((if fail then 4 else 2) + why % 256 * 256 + n % 65536 * 65536)
    let fails (i : Instr) (why : Nat) : Prop := ∃ u, exec i s = .next u ∧ ends s u true why 0
    let badBase : Prop := q.pcsave.toNat % 4096 ≠ 0 ∨ 2 ^ 55 ≤ q.pcsave.toNat
    let held : Prop := (∃ w ∈ s.liveWarps c, (s.warp w).defers s.time = true) ∨ (∃ k ∈ s.fabric.packets, k.ctx = c ∧ k.done = false) ∨
      ∃ e ∈ s.cores, s.unitRuns c e.1 = true
    (op ≠ 1 → exec (.preempt p) s = .next s ∧ exec (.preemptionDone p) s = .next s) ∧
    (op ≠ 2 → exec (.kill p) s = .next s) ∧
    (op ≠ 3 → exec (.resume p) s = .next s ∧ exec (.resumptionDone p) s = .next s) ∧
    (op = 1 → ¬ bound → fails (.preempt p) 4) ∧ (op = 2 → ¬ bound → fails (.kill p) 4) ∧
    (op = 3 → ¬ bound → fails (.resume p) 4) ∧
    (op = 1 → bound → badBase → ∃ u, exec (.preempt p) s = .next u ∧ (u.ctx c).stopped = true ∧
      (u.pitch p).pcstat = (q.pcstat &&& 6) ||| BitVec.ofNat 32 (4 + 256)) ∧
    (op = 1 → bound → ¬ badBase → ∃ u, exec (.preempt p) s = .next u ∧ (u.ctx c).stopped = true ∧ u.wgs = s.wgs ∧
      u.agenda = s.agenda ++ [.event (.preemptionDone p)] ∧
      (s.warps.sorted = true → ∀ v, (∀ l < 32, ((u.warp v).lane l) = ((s.warp v).lane l)) ∧
        ((u.warp v).asyncs = (s.warp v).asyncs ∨ (u.warp v).asyncs = (s.warp v).asyncs ++ [⟨causePreempt, 0, 0⟩]))) ∧
    (op = 1 → bound → (s.ctx c).stopped = false ∨ held → exec (.preemptionDone p) s = .next s) ∧
    (op = 1 → bound → (s.ctx c).stopped = true → ¬ held →
      ∀ s2, (s.cores.foldl (fun s e => s.drainSfu e.1 fun x => s.ctxOf x.wid == c) s).flushAll c = (s2, false) →
        ∀ pas, 4 * (s2.saveImage c (s.wgsOf c)).1.length ≤ q.pcsize.toNat * 4096 →
          s2.areaPas c q.pcsave.toNat (4 * (s2.saveImage c (s.wgsOf c)).1.length) true = some pas →
            ∃ u, exec (.preemptionDone p) s = .next u ∧ (u.saved.get? c).isSome = true ∧ (∀ e ∈ u.wgs, e.2.ctx ≠ c) ∧
              (u.pitch p).pcreq.getLsbD 15 = false ∧ (u.pitch p).pcstat.getLsbD 1 = true ∧
              (u.pitch p).pcstat.getLsbD 2 = (s2.pitch p).pcstat.getLsbD 2) ∧
    (op = 2 → bound → ∃ u, exec (.kill p) s = .next u ∧ (u.ctx c).retired = true ∧ (∀ e ∈ u.wgs, e.2.ctx ≠ c) ∧
      (∀ e ∈ u.warps, wgKey e.1 ∉ s.wgsOf c) ∧ (∀ e ∈ u.grids, e.2.ctx ≠ c) ∧ u.saved.get? c = none ∧
      (∀ e ∈ u.cores, ∀ d ∈ e.2.dirty, d.2.ctx ≠ c) ∧ (∀ e ∈ u.l2, ∀ d, e.dirty = some d → d.1 ≠ c) ∧
      u.agenda = s.agenda ++ [.event (.killDone c)] ∧
      (u.pitch p).pcstat = (q.pcstat &&& 0xFF) ||| BitVec.ofNat 32 (256 + (s.wgsOf c).length % 65536 * 65536)) ∧
    ((s.ctx c).retired = false → exec (.killDone c) s = .next s) ∧
    ((s.ctx c).retired = true → (s.ctx c).pitch = p → ∃ u, exec (.killDone c) s = .next u ∧ u.ctxs.get? c = none ∧
      (∀ k ∈ u.fabric.packets, k.ctx = c → c = 0xFFF) ∧ (u.pitch p).pcreq.getLsbD 15 = false ∧
      (u.pitch p).pcstat.getLsbD 0 = false ∧ (u.pitch p).pcstat.getLsbD 1 = true) ∧
    (∀ why, op = 3 → bound → s.readArea p c = .fail why → fails (.resume p) why ∧ fails (.resumptionDone p) why) ∧
    (op = 3 → bound → s.readArea p c = .bad →
      ∃ u, exec (.resume p) s = .next u ∧ (u.ctx c).retired = true ∧ (∀ e ∈ u.wgs, e.2.ctx ≠ c)) ∧
    ∀ ws, op = 3 → bound → s.readArea p c = .good ws →
      exec (.resume p) s = .next { s with agenda := s.agenda ++ [.event (.resumptionDone p)] } ∧
      ∀ v, s.saved.get? c = some v →
        (s.seatAll p v v.wgs.length v.wgs [] = none → exec (.resumptionDone p) s = .next s) ∧
        ((s.seatAll p v v.wgs.length v.wgs []).isSome = true → ∃ u, exec (.resumptionDone p) s = .next u ∧
          (u.ctx c).stopped = false ∧ u.saved.get? c = none ∧ (u.pitch p).pcreq.getLsbD 15 = false ∧
          (u.pitch p).pcstat.getLsbD 1 = true)

/-- R411, R327, R416, R418, R443: the context commands: the number is checked, then bound with the values of `cxroot`,
`cxvec` and `cxflags`, released, rewritten or read; a failed check is a RES code and changes nothing else. `tlbinv` drops
the translations of a page of a context, or of all its pages, on every core, with the walkers' entries that serve them,
and no other. -/
def Obligations.ContextCommands : Prop :=
  ∀ (s : State) (p : Nat), (s.pitches.get? p).isSome = true →
    let q := s.pitch p
    let c := q.cxcmd.toNat % 4096
    let op : Nat := if q.cxcmd.getLsbD 15 then q.cxcmd.toNat / 4096 % 8 else 0
    let k := s.ctxs.get? c
    let values : Prop := ptrootWrite q.cxroot ≠ q.cxroot ∨ q.cxvec.toNat % 256 ≠ 0 ∨ 2 ^ 55 ≤ q.cxvec.toNat
    let range : Prop := c < q.ctxLo ∨ q.ctxLo + q.ctxN ≤ c ∨ c = 0xFFF
    let idle : Prop := (∀ e ∈ s.grids, e.2.ctx ≠ c) ∧ s.saved.get? c = none
    let mine (x : Context) : Prop := k = some x ∧ x.retired = false ∧ x.pitch = p
    let done (i : Instr) (ctxs : KMap Context) : Prop := ∃ t, exec i s = .next t ∧
      t = { s with ctxs := ctxs, pitches := t.pitches, cores := t.cores, walkers := t.walkers } ∧ (t.pitch p).cxstat = 2 ∧
        (t.pitch p).cxcmd = q.cxcmd &&& 0xFFFF7FFF
    let fails (i : Instr) (res : Nat) : Prop :=
      ∃ t, exec i s = .next t ∧ t = { s with pitches := t.pitches } ∧ (t.pitch p).cxstat = BitVec.ofNat 32 (2 + res * 256)
    let all : List (Nat × Instr) := [(1, .contextBind p), (2, .contextRelease p), (3, .contextWrite p), (4, .contextRead p)]
    (∀ x ∈ all, op ≠ x.1 → exec x.2 s = .next s) ∧
    (∀ x ∈ all, op = x.1 → (op = 1 ∨ op = 3) → values → fails x.2 1) ∧
    (∀ x ∈ all, op = x.1 → (op = 2 ∨ op = 4 ∨ ¬ values) → range → fails x.2 2) ∧
    (∀ x ∈ all, op = x.1 → (op = 2 ∨ op = 4 ∨ ¬ values) → ¬ range → (∃ y, k = some y ∧ y.retired = true) → fails x.2 4) ∧
    (op = 1 → ¬ values → ¬ range → (∃ y, k = some y ∧ y.retired = false) → fails (.contextBind p) 3) ∧
    (∀ x ∈ all, op = x.1 → op ≠ 1 → (op ≠ 3 ∨ ¬ values) → ¬ range → (k = none ∨ ∃ y, k = some y ∧ y.retired = false ∧ y.pitch ≠ p) →
      fails x.2 3) ∧
    (∀ y, mine y → ¬ range → ¬ idle → (op = 2 → fails (.contextRelease p) 5) ∧ (op = 3 → ¬ values → fails (.contextWrite p) 5)) ∧
    (op = 1 → ¬ values → ¬ range → k = none → done (.contextBind p) (s.ctxs.put c
      { Context.absent with pitch := p, ptroot := q.cxroot, tvec := q.cxvec, hqpriv := q.cxflags.getLsbD 0 })) ∧
    (∀ y, mine y → ¬ range →
      (op = 2 → idle → done (.contextRelease p) (s.ctxs.erase c)) ∧
      (op = 3 → ¬ values → idle → done (.contextWrite p) (s.ctxs.put c
        { y with ptroot := q.cxroot, tvec := q.cxvec, hqpriv := q.cxflags.getLsbD 0 })) ∧
      (op = 4 → ∃ t, exec (.contextRead p) s = .next t ∧ t = { s with pitches := t.pitches } ∧ (t.pitch p).cxstat = 2 ∧
        (t.pitch p).cxroot = y.ptroot ∧ (t.pitch p).cxvec = y.tvec ∧ (t.pitch p).cxflags = if y.hqpriv then 1 else 0)) ∧
    ∀ (v : BitVec 64) (d : Nat), d = v.toNat % 4096 →
      let bound : Prop := (s.ctxs.get? d).isSome = true ∧ (s.ctx d).retired = false ∧ (s.ctx d).pitch = p
      let lo := v.toNat / 2 ^ 16 % 2 ^ 39 * 2 ^ 16
      let gone (x : Tlb) : Prop := x.ctx = d ∧
        (v.getLsbD 12 = true ∨ (lo < x.va + (if x.big then 2 ^ 29 else 2 ^ 16) ∧ x.va < lo + 2 ^ 16))
      (¬ bound → exec (.tlbinv p v) s = .next s) ∧
      (bound → ∃ t, exec (.tlbinv p v) s = .next t ∧ t = { s with cores := t.cores, walkers := t.walkers } ∧
        (∀ e w, w ∈ t.walker e ↔ w ∈ s.walker e ∧
          ¬ (w.ctx = d ∧ (v.getLsbD 12 = true ∨ (lo < w.va + w.size ∧ w.va < lo + 2 ^ 16)))) ∧ ∀ e x,
        (x ∈ (t.core e).dtlb ↔ x ∈ (s.core e).dtlb ∧ ¬ gone x) ∧ (x ∈ (t.core e).itlb ↔ x ∈ (s.core e).itlb ∧ ¬ gone x))

/-- R9, R10, R339, R372, R442, R443, R452, R453, R454, R468, R470: writes of registers that are reached from outside: a
field that software may write takes the value, a write-one-to-clear bit clears, GO starts a request; a frozen pitch takes
no write. While an aperture is enabled only its EN can change. R381, R418: a write that starts a region or a translation operation
sets BUSY, and is ignored while BUSY is set. That a narrower write leaves a register's other bytes is the model's choice (log 106). -/
def Obligations.RegisterWrites : Prop :=
  ∀ (s : State) (p : Nat) (v : BitVec 64), (s.pitches.get? p).isSome = true →
    let q := s.pitch p
    let w : Word := v.extractLsb' 0 32
    let wr (off : Nat) (x : Pitch) : Prop := ∃ t, exec (.registerWrite (.pitch p) off v) s = .next t ∧
      t = { s with pitches := t.pitches } ∧ t.pitch p = x ∧ ∀ r, r ≠ p → t.pitch r = s.pitch r
    (q.frozen = true → ∀ off, exec (.registerWrite (.pitch p) off v) s = .next s) ∧
    (q.frozen = false →
      wr 0x038 { q with twbase := v &&& 0x000FFFFFFFFFF000 } ∧ wr 0x040 { q with tibase := v &&& 0x000FFFFFFFFFF000 } ∧
      wr 0x048 { q with twcnt := w &&& 0x1FFF3FFF } ∧ wr 0x068 { q with erbase := v &&& 0x000FFFFFFFFFE000 } ∧
      wr 0x078 { q with dmpbase := v &&& 0x000FFFFFFFFF0001 } ∧ wr 0x090 { q with cxstat := q.cxstat &&& ~~~(w &&& 2) } ∧
      wr 0x098 { q with cxroot := v } ∧ wr 0x0A0 { q with cxvec := v } ∧ wr 0x0A8 { q with cxflags := w &&& 1 } ∧
      wr 0x100 { q with pcsave := v } ∧ wr 0x108 { q with pcsize := w } ∧ wr 0x118 { q with pcstat := q.pcstat &&& ~~~(w &&& 6) } ∧
      (q.pcstat.getLsbD 0 = true → wr 0x110 q) ∧
      (q.pcstat.getLsbD 0 = false → w.getLsbD 15 = true → w.toNat / 4096 % 4 = 2 →
        ∃ t, exec (.registerWrite (.pitch p) 0x110 v) s = .next t ∧ t.agenda = s.agenda ++ [.event (.kill p)] ∧
          t.pitch p = { q with pcreq := w &&& 0xFFFF, pcstat := q.pcstat ||| 1 }) ∧
      (q.cxstat.getLsbD 0 = false → w.getLsbD 15 = true → w.toNat / 4096 % 8 = 1 →
        ∃ t, exec (.registerWrite (.pitch p) 0x088 v) s = .next t ∧ t.agenda = s.agenda ++ [.event (.contextBind p)] ∧
          t.pitch p = { q with cxcmd := w &&& 0xFFFF, cxstat := 1 })) ∧
    ((∀ off ∈ [0x000, 0x008, 0x010],
        (q.rlstat.getLsbD 4 = true → s.perform (.regBytes p off v 0xFF) = .next s) ∧
        (q.rlstat.getLsbD 4 = false → q.frozen = false → s.linkDown p = false →
          ∃ t, s.perform (.regBytes p off v 0xFF) = .next t ∧ t.agenda = s.agenda ++ [.regRun p off v] ∧
          t.pitch p = { q with rlstat := q.rlstat ||| 0x10 })) ∧
      (q.tlbBusy = true → s.perform (.regBytes p 0x030 v 0xFF) = .next s) ∧
      (q.tlbBusy = false → q.frozen = false → s.linkDown p = false → ∃ t, s.perform (.regBytes p 0x030 v 0xFF) = .next t ∧
        t.agenda = s.agenda ++ [.regRun p 0x030 v] ∧
        t.pitch p = { q with tlbBusy := true }) ∧
      s.perform (.regRun p 0x000 v) = exec (.rlink p v) s ∧ s.perform (.regRun p 0x008 v) = exec (.rsync p v) s ∧
      s.perform (.regRun p 0x010 v) = exec (.runlink p v) s ∧
      (∃ t : State, t.pitch p = { q with tlbBusy := false } ∧ s.perform (.regRun p 0x030 v) = exec (.tlbinv p v) t) ∧
      ((q.frozen = true ∨ s.linkDown p = true) → ∀ off, s.perform (.regBytes p off v 0xFF) = .next s) ∧
      (q.frozen = false → s.linkDown p = false →
        (∃ t, s.perform (.regBytes p 0x100 v 0x0F) = .next t ∧
          t.pitch p = { q with pcsave := q.pcsave.extractLsb' 32 32 ++ w }) ∧
        ∃ t, s.perform (.regBytes p 0x118 v 0xF0) = .next t ∧ t.pitch p = q)) ∧
    (s.lantern.mbstat.getLsbD 0 = false → exec (.registerWrite .mailbox 0x000 v) s =
      .next { s with lantern := { s.lantern with mbaddr := v &&& 0xFFFFFFFFFFFFFF80 } }) ∧
    (exec (.registerWrite .mailbox 0x010 v) s =
      .next { s with lantern := { s.lantern with mbstat := s.lantern.mbstat &&& ~~~(w &&& 2) } }) ∧
    (∃ t, exec (.registerWrite .mailbox 0x018 v) s = .next t ∧
      t = { s with lantern := { s.lantern with pwrlim := t.lantern.pwrlim } } ∧
      (s.code ≠ .zlm4P → 1000 ≤ w.toNat % 65536 → t.lantern.pwrlim.toNat = min 6500 (w.toNat % 65536))) ∧
    (s.lantern.mbstat.getLsbD 0 = false → v.getLsbD 63 = true → v.toNat % 256 = 4 →
      ∃ t, exec (.registerWrite .mailbox 0x008 v) s = .next t ∧ t.agenda = s.agenda ++ [.event .sensorSnapshot] ∧
        t.lantern.mbstat = 1 ∧ t.lantern.mbcmd = v &&& 0x8000FFFFFFFF00FF) ∧
    ∀ (n word : Nat), word < 4 → ∃ t, exec (.apertureWrite p n word v) s = .next t ∧
      t = { s with pitches := t.pitches, views := t.views, metas := t.metas, mem := t.mem, l2 := t.l2 } ∧
      let old := q.apert.getD n .off
      let a := (t.pitch p).apert.getD n .off
      t.pitch p = { q with apert := (t.pitch p).apert } ∧ (∀ m, m ≠ n → (t.pitch p).apert.getD m .off = q.apert.getD m .off) ∧
        (old.en = true → a = { old with en := if word = 2 then v.getLsbD 32 else true }) ∧
        (old.en = false → word = 0 → a = { old with buf := v.toNat / 2 ^ 12 % 2 ^ 40 * 2 ^ 12 }) ∧
        (old.en = false → word = 1 → a = { old with md := v.toNat / 2 ^ 5 % 2 ^ 47 * 2 ^ 5 }) ∧
        (old.en = false → word = 3 → a = { old with rows := v.toNat % 2 ^ 20, cols := v.toNat / 2 ^ 32 % 2 ^ 20 }) ∧
        (old.en = false → word = 2 → v.getLsbD 32 = true → (v.toNat / 2 ^ 33 % 8 < 5 ∧ v.toNat / 2 ^ 36 % 4 < 3) →
          a = { old with len := v.toNat % 2 ^ 24, xf := v.toNat / 2 ^ 33 % 8, esz := v.toNat / 2 ^ 36 % 4, en := true })

/-- R442, R444, R445, R446, R451, R453, R454, R469: the partition commands: a command that fails a check ends with its
STATUS and changes nothing else; a pitch gets its units and its range of contexts; units leave when they are drained and
scrubbed; a reset or a destruction ends the pitch's contexts, regions and grids, and waits for the sweeps of its cores; a scrub
leaves zeros; a frozen pitch is
dumped and its contexts are retired. -/
def Obligations.PartitionCommands : Prop :=
  ∀ (s : State),
    let c := s.partCmd
    let p := c.pitch
    let closes (u t : State) (st : Nat) : Prop :=
      t = { u with mem := t.mem, lantern := t.lantern, reports := u.reports ++ [.mailbox] } ∧
        t.lantern = { u.lantern with
          mbcmd := u.lantern.mbcmd &&& 0x7FFFFFFFFFFFFFFF, mbstat := BitVec.ofNat 32 (2 + if st = 0 then 0 else 5 * 256)
          partition := none } ∧
        t.mem.byte (2 ^ 51 + u.lantern.mbaddr.toNat % 2 ^ 48 + 16) = BitVec.ofNat 8 st
    let refuses (i : Instr) (st : Nat) : Prop := ∃ t, exec i s = .next t ∧ closes s t st
    let runs (op : Nat) : Prop := s.mailOp = 1 ∧ c.op = op
    let idle : Prop := s.lantern.partition = none
    let there : Prop := (s.pitches.get? p).isSome = true
    let owned : Prop := ∃ u < 16, c.units.getLsbD u = true ∧ ((s.units.get? u).isSome = true ∨ (8 ≤ u ∧ s.code = .zlm4P))
    let few : Prop := s.code = .zlm4P ∧ 8 ≤ p
    let gets (u t : State) : Prop := closes u t 0 ∧
      (∀ k < 16, t.units.get? k = if c.units.getLsbD k then some p else s.units.get? k) ∧
      ∀ k < 16, (t.pitch p).units.getLsbD k = decide (t.units.getD k 16 = p)
    let all : List (Nat × Instr) :=
      [(1, .pitchCreate), (2, .pitchAddUnits), (3, .pitchRemoveUnits), (4, .pitchReset), (5, .pitchDestroy)]
    (∀ x ∈ all, ¬ runs x.1 → exec x.2 s = .next s) ∧
    (∀ x ∈ all, runs x.1 → idle → c.bad = true → refuses x.2 1) ∧
    (runs 1 → c.n = 0 ∨ 4095 < c.n ∨ few → refuses .pitchCreate 1) ∧
    (∀ x ∈ all, x.1 ≠ 1 → runs x.1 → idle → c.bad = false → ¬ there → refuses x.2 2) ∧
    (runs 1 → c.bad = false → 1 ≤ c.n → c.n ≤ 4095 → ¬ few →
      (there → refuses .pitchCreate 2) ∧
      (¬ there → c.units = 0 ∨ owned → refuses .pitchCreate 3) ∧
      (¬ there → c.units ≠ 0 → ¬ owned → s.rangeBad c.lo c.n = true → refuses .pitchCreate 6) ∧
      (¬ there → c.units ≠ 0 → ¬ owned → s.rangeBad c.lo c.n = false →
        ∃ u t : State, exec .pitchCreate s = .next t ∧ gets u t ∧ u = { s with pitches := u.pitches, units := u.units } ∧
          t.pitch p = { Pitch.reset with ctxLo := c.lo, ctxN := c.n, units := (t.pitch p).units })) ∧
    (runs 2 → c.bad = false → there →
      (owned → refuses .pitchAddUnits 3) ∧ (¬ owned → (s.pitch p).frozen = true → refuses .pitchAddUnits 5) ∧
      (¬ owned → (s.pitch p).frozen = false → ∃ u t : State, exec .pitchAddUnits s = .next t ∧ gets u t ∧
        u = { s with pitches := u.pitches, units := u.units } ∧ t.pitch p = { s.pitch p with units := (t.pitch p).units })) ∧
    (runs 3 → idle → c.bad = false → there →
      let mine := (s.pitch p).units
      let wrong : Prop := c.units &&& ~~~mine ≠ 0 ∨ mine &&& ~~~c.units = 0
      (wrong → refuses .pitchRemoveUnits 3) ∧
      (¬ wrong → (s.pitch p).frozen = true → refuses .pitchRemoveUnits 5) ∧
      (¬ wrong → (s.pitch p).frozen = false → ∃ t, exec .pitchRemoveUnits s = .next t ∧
        t.lantern.partition = some ⟨3, p, c.units, c.tmo, s.time, true⟩ ∧
        if s.drained c.units then (t.pitch p).closed = 0 ∧ ∀ k < 16, c.units.getLsbD k = true → t.units.get? k = none
        else (t.pitch p).closed = c.units ∧ t.units = s.units)) ∧
    (∀ op i, (op, i) ∈ [(4, Instr.pitchReset), (5, Instr.pitchDestroy)] → runs op → idle → c.bad = false → there →
      ∃ u t : State, exec i s = .next t ∧ (∀ e ∈ t.ctxs, e.2.pitch ≠ p) ∧ (∀ e ∈ t.regions, e.2.pitch ≠ p) ∧
        let m := (s.pitch p).units
        (op = 4 → c.scrub = false → (∀ k ∈ s.fabric.packets, k.done = true) → closes u t 0 ∧ t.pitch p =
          { Pitch.reset with units := m, ctxLo := (s.pitch p).ctxLo, ctxN := (s.pitch p).ctxN }) ∧
        (op = 4 → c.scrub = false → (s.stopPitch p).swept m = false → t.lantern.partition = some ⟨4, p, m, 0, s.time, false⟩) ∧
        (op = 5 ∨ c.scrub = true → t.lantern.partition = some ⟨op, p, m, 0, s.time, true⟩)) ∧
    (idle → exec .drainTimeout s = .next s ∧ ∀ bad, exec (.scrubComplete bad) s = .next s) ∧
    (∀ x, s.lantern.partition = some x → (s.pitches.get? x.pitch).isSome = true →
      let early : Prop := x.op ≠ 3 ∨ x.tmo = 0 ∨ (s.pitch x.pitch).closed = 0 ∨ s.time < x.since + 1024 * x.tmo
      (early → exec .drainTimeout s = .next s) ∧
      (¬ early → ∃ u t : State, exec .drainTimeout s = .next t ∧ closes u t 4 ∧ (t.pitch x.pitch).closed = 0 ∧ t.units = s.units) ∧
      ∀ bad, if x.scrub = false ∨ (x.op = 3 ∧ (s.pitch x.pitch).closed ≠ 0) ∨ s.swept x.units = false then
          exec (.scrubComplete bad) s = .next s
        else ∃ u t : State, exec (.scrubComplete bad) s = .next t ∧ closes u t 0 ∧
          (∀ a < 2 ^ 40, x.units.getLsbD (a / 2 ^ 36) = true → t.mem.byte a = 0) ∧
          (x.op ≠ 3 → x.op ≠ 4 → t.pitches.get? x.pitch = none ∧ ∀ k, x.units.getLsbD k = true → t.units.get? k = none) ∧
          (x.op = 4 → t.pitch x.pitch = { Pitch.reset with
            units := (s.pitch x.pitch).units, ctxLo := (s.pitch x.pitch).ctxLo, ctxN := (s.pitch x.pitch).ctxN })) ∧
    ∀ r, (s.pitches.get? r).isSome = true →
      ((s.pitch r).frozen = false ∨ (s.pitch r).dumped = true → exec (.dumpComplete r) s = .next s) ∧
      ((s.pitch r).frozen = true → (s.pitch r).dumped = false → ∃ t, exec (.dumpComplete r) s = .next t ∧
        (t.pitch r).dumped = true ∧ (t.pitch r).frozen = true ∧
        (t.pitch r).dmpstat = (if s.dumpFits r then BitVec.ofNat 32 (2 + (s.pitch r).units.toNat * 2 ^ 16) else 3) ∧
        ∀ d k, s.ctxs.get? d = some k → k.pitch = r → (t.ctx d).retired = true)

/-! ## Lantern -/

/-- R458, R463, R465, R466, R467, R468, R469, R473, R475, R472: images and power. An image that fails a check ends with
its RESULT and changes nothing; a Rennet image replaces the slots of its mask and its SEQ becomes the floor; a
firmware image goes to the other bank; bring-up starts from the state after reset with the boot slots, and where neither bank
verifies the step is logged and the link stays
down (as which record, log 83); a loss of power
keeps only module flash, and a device without power does nothing. R468, R470, R471, R472, R474, R453: sensors, the log
and measurements. A snapshot gives the last sample and a log read the newest records; a sample enters the average of
ten; an island at 105 °C is held at step 8; at 115 °C every pitch is frozen. -/
def Obligations.LanternServices : Prop :=
  (∀ (s : State),
     let cs := s.mailData
     let ws := cs.map (·.data)
     let closes (u t : State) (result : Nat) : Prop :=
       t = { u with lantern := t.lantern, reports := u.reports ++ [.mailbox] } ∧ t.lantern = { u.lantern with
         mbcmd := u.lantern.mbcmd &&& 0x7FFFFFFFFFFFFFFF, mbstat := BitVec.ofNat 32 (2 + result * 256) }
     let bad : Prop := ∃ w ∈ cs, w.wellFormed = false
     let check (op min rev head : Nat) (floor : Word) (more : Nat) (i : Instr) (ok : Prop) : Prop :=
       (s.mailOp ≠ op → exec i s = .next s) ∧
       (s.mailOp = op → s.mailLen < min ∨ s.mailLen % 4 ≠ 0 → ∃ t, exec i s = .next t ∧ closes s t 1) ∧
       (s.mailOp = op → min ≤ s.mailLen → s.mailLen % 4 = 0 →
         (bad → ∃ t, exec i s = .next t ∧ closes s t 6) ∧
         (¬ bad →
           let r := if imageResult ws s.mailLen rev head floor ≠ 0 then imageResult ws s.mailLen rev head floor else more
           (r ≠ 0 → ∃ t, exec i s = .next t ∧ closes s t r) ∧ (r = 0 → ok)))
     check 2 0x990 1 0x900 s.lantern.floor (rennetResult ws) .rennetImageLoad
       (let m := ws.getD 2 0
        if s.emulating m then exec .rennetImageLoad s = .next { s with rennet := { s.rennet with
          loading := some (m, (List.range 16).map fun k => slotOf ((ws.drop (64 + 32 * k)).take 32)) } }
        else ∃ u t : State, exec .rennetImageLoad s = .next t ∧ closes u t 0 ∧ t.lantern.floor = ws.getD 1 0 ∧
          t.rennet.seq = ws.getD 1 0 ∧ (t.lantern.log.head?.map (·.cls)) = some 20 ∧
          t.rennet.slots.length = s.rennet.slots.length ∧
          ∀ k < s.rennet.slots.length, t.rennet.slots.getD k .unused =
            if m.getLsbD k then slotOf ((ws.drop (64 + 32 * k)).take 32) else s.rennet.slots.getD k .unused) ∧
     check 3 0x190 2 0x100 s.lantern.fwFloor (if ws.getD 2 0 ≠ 0 then 1 else 0) .firmwareUpdate
       (∃ u t : State, exec .firmwareUpdate s = .next t ∧ closes u t 0 ∧ t.lantern.bank = 1 - s.lantern.running ∧
         t.lantern.banks = s.lantern.banks.set (1 - s.lantern.running) (bytesOf ws) ∧ t.lantern.running = s.lantern.running ∧
         t.lantern.fwFloor = s.lantern.fwFloor ∧ (t.lantern.log.head?.map (·.cls)) = some 19) ∧
     (∀ n rev head floor, imageResult ws n rev head floor = 0 → n = head + (ws.getD 3 0).toNat + 144 ∧
       Config.signatureVerifies (bytesOf ws) = true ∧ floor.toNat ≤ (ws.getD 1 0).toNat ∧ ws.getD 5 0 = Config.deviceRevision ∧
       (ws.getD 0 0).toNat = rev) ∧
     (let verifies (k : Nat) : Bool := Config.signatureVerifies (s.lantern.banks.getD k [])
      let boots (k : Nat) : Prop := ∃ t, exec .bringUp s = .next t ∧ t.life = .up ∧ t.code = s.code ∧
        t.lantern.pwrlim = (if s.code = .zlm4P then 3400 else 6500) ∧ t.lantern.running = k ∧
        t.rennet.slots = List.replicate 13 .unused ++ [bootSlot 0xC802, bootSlot 0x18601, bootSlot 0xC801] ∧
        t.pitches = State.reset.pitches ∧ t.ctxs = State.reset.ctxs ∧ t.warps = State.reset.warps ∧ t.wgs = State.reset.wgs ∧
        t.units = State.reset.units ∧ t.fabric = State.reset.fabric ∧ t.lantern.floor = s.lantern.floor ∧
        t.lantern.frames = s.lantern.frames ∧ (∀ a < 2 ^ 40, t.mem.byte a = 0) ∧ (∀ a, 2 ^ 40 ≤ a → t.mem.byte a = s.mem.byte a)
      let off : Prop := s.life ≠ .up ∧ s.life ≠ .dark
      (¬ off → exec .bringUp s = .next s) ∧
      (off → verifies s.lantern.bank = true → boots s.lantern.bank) ∧
      (off → verifies s.lantern.bank = false → verifies (1 - s.lantern.bank) = true → boots (1 - s.lantern.bank)) ∧
      (off → verifies s.lantern.bank = false → verifies (1 - s.lantern.bank) = false → ∃ r : Record,
        exec .bringUp s = .next { s with life := .dark, lantern := { s.lantern with log := (r :: s.lantern.log).take 65536 } } ∧
          r.cls = 19 ∧ r.endpt = 1)) ∧
     (∃ t, exec .powerLoss s = .next t ∧ t.life = .dead ∧ t.code = s.code ∧ (∀ a < 2 ^ 40, t.mem.byte a = 0) ∧
       (∀ a, 2 ^ 40 ≤ a → t.mem.byte a = s.mem.byte a) ∧ t.warps = State.reset.warps ∧
       t.wgs = State.reset.wgs ∧ t.pitches = State.reset.pitches ∧ t.rennet = State.reset.rennet ∧
       t.lantern = { Lantern.reset with
         pwrlim := if s.code = .zlm4P then 3400 else 6500
         bank := s.lantern.bank, banks := s.lantern.banks, floor := s.lantern.floor, fwFloor := s.lantern.fwFloor
         frames := s.lantern.frames, log := s.lantern.log }) ∧
     (s.life = .dead → s.agenda.head? ≠ some (.event .bringUp) → step s = .fault .noPower)) ∧
  (∀ (s : State),
     let answers (i : Instr) (op : Nat) (good : Prop) (ws : List Word) : Prop :=
       (s.mailOp ≠ op → exec i s = .next s) ∧
       (s.mailOp = op → ∃ t, exec i s = .next t ∧
         t = { s with mem := t.mem, lantern := t.lantern, reports := s.reports ++ [.mailbox] } ∧
         t.lantern = { s.lantern with mbcmd := s.lantern.mbcmd &&& 0x7FFFFFFFFFFFFFFF, mbstat := t.lantern.mbstat } ∧
         (¬ good → t.mem = s.mem ∧ t.lantern.mbstat = 0x102) ∧
         (good → t.mem = s.mem.setWords (2 ^ 51 + s.lantern.mbaddr.toNat % 2 ^ 48) (ws.map CWord.gen) ∧ t.lantern.mbstat = 2))
     answers .sensorSnapshot 4 (s.mailLen = 5696) (s.lantern.snapshot s.code) ∧
     answers .logRead 5 (s.mailLen ≠ 0 ∧ s.mailLen % 32 = 0) ((s.lantern.log.take (s.mailLen / 32)).flatMap Record.words) ∧
     (s.lantern.snapshot s.code).length = 1424 ∧
     (exec (.getMeasurements 1) s = .next (s.report (.measurement 1 (Config.digest (s.lantern.banks.getD s.lantern.running []))))) ∧
     (exec (.getMeasurements 3) s = .next (s.report (.measurement 3 s.rennet.digest))) ∧
     (∃ v : BitVec 512, exec (.getMeasurements 5) s = .next (s.report (.measurement 5 v)) ∧
       ∀ r < 16, ∀ k < 16, v.getLsbD (16 * r + k) = (s.pitch r).units.getLsbD k) ∧
     (∀ n, n = 0 ∨ 5 < n → exec (.getMeasurements n) s = .next s) ∧
     ∀ x : Sample, ∃ t, exec (.sensorSample x) s = .next t ∧ t.lantern.sample = x ∧ t.lantern.sampleAt = s.time ∧
       t.lantern.powers = (x.power :: s.lantern.powers).take 10 ∧
       ((∀ i, s.lantern.steps.getD i 0 ≤ 8) → ∀ i, t.lantern.steps.getD i 0 ≤ 8) ∧
       (∀ i < 480, s.code ≠ .zlm4P → i % 60 < 58 → 1680 ≤ (x.islands.getD i (0, 0, 0)).2.2 → t.lantern.steps.getD i 0 = 8) ∧
       (∀ i < 480, s.code ≠ .zlm4P → i % 60 < 58 → s.lantern.steps.getD i 0 = 8 → 1600 ≤ (x.islands.getD i (0, 0, 0)).2.2 →
         t.lantern.steps.getD i 0 = 8) ∧
       (∀ k c, s.cores.get? k = some c → (t.core k).step = t.lantern.steps.getD (k / 200 * 60 + k % 200 / 4) 0) ∧
       ((∃ y ∈ x.thermal, 1840 ≤ y) ∨ (∃ y ∈ x.islands, 1840 ≤ y.2.2) →
         ∀ r, (s.pitches.get? r).isSome = true → (t.pitch r).frozen = true))

/-! ## Encoding, the step, the invariants -/

/-- R122, R125, R129, R134: decoding the encoding of a well-formed instruction gives it back, in whatever bytes follow. -/
def Obligations.RoundTrip : Prop :=
  ∀ (i : Instr), i.isEvent = false → i.wf = true →
    decode (encodeBits i) = i ∧ ∀ rest : List (BitVec 8), decodeBytes ((encode i).flatMap bytesOfWord ++ rest) = i

/-- R122, R125, R129, R134, R141: what is decoded is a well-formed instruction whose encoding has every bit that was read,
or it is no instruction. -/
def Obligations.DecodedIsEncoded : Prop :=
  ∀ (v : BitVec 96), (∃ e, decode v = .notAnInstruction e) ∨
    ((decode v).wf = true ∧ (decode v).isEvent = false ∧
      ∀ k < 96, (encodeBits (decode v)).getLsbD k =
        (decide (k < 32 * wordsIn (v.extractLsb' 0 2)) && v.getLsbD k))

/-- R122, R125, R126, R129, R130, R131, R134, R144: words that the manual writes out decode to the instructions that it
gives for them, and the encodings that it calls illegal to their WHY. -/
def Obligations.ManualWords : Prop :=
  let f (d a b c : BitVec 9) (m : BitVec 11) : Fields :=
    { fmt := .f64, s := false, g := 15, d := d, a := a, b := b, c := c, m := m }
  let read (ws : List Word) : Instr := decode (bitsOfWords ws)
  read [0x00080179, 0x0402F010] = .addc (f 4 0 2 0x2F 0x020) ∧
    read [0x10080015, 0x01000008] = .add { f 4 4 1 0 0x008 with s := true, g := 2 } ∧
    read [0x0810C1F9, 0x00004018] = .fma (f 8 2 3 4 0) ∧
    read [0x80038878] = .addFloatCompact { s := false, g := 15, d7 := 7, a7 := 0, m3 := 0b100 } ∧
    read [0x024380F8] = .addCompact { s := false, g := 15, d7 := 7, a7 := 9, m3 := 0 } ∧
    read [0x0814047A, 0x01000000, 0x00010003] = .mul { f 10 2 0 0 0x008 with fmt := .f96 0x00010003 } ∧
    read [0x140D60F9, 0x4D100008] = .shfl (f 6 5 1 0x100 0x268) ∧
    read [0x084180F9, 0x00800080] = .brc (f 32 2 16 0 0x004) ∧
    read [0x0811C079, 0x11000080] = .ld (f 8 2 16 0 0x088) ∧
    read [0x1003E279, 0x00001030] = .radd (f 1 4 6 1 0) ∧
    read [0x000018D7, 0x00000000] = .clauseHeader { cnt := 5, eng := 3, wmask := 0b1100 } ∧
    read [0x0814047A, 0x01000028, 0x00010003] = .notAnInstruction ⟨3, 2, 0x008, false⟩ ∧
    read [0x00000000] = .notAnInstruction ⟨0, 0, 0, true⟩ ∧ read [0x024380E8] = .notAnInstruction ⟨2, 0, 0, true⟩ ∧
    read [0xFFFFFFFF, 0xFFFFFFFF] = .notAnInstruction ⟨4, 3, 0, false⟩

/-- R55, R122, R123, R138, R331, R394, R467: a step issues the instruction at a bundle's PC: where no slot of Rennet claims the
words and they decode to an instruction that has nothing to wait for, and no bundle stands before this one, the step is that
instruction, then the release of
its warp's meeting points, and one cycle; where it has to wait, nothing but time moves; the forms that only Rennet
executes are illegal. What follows an instruction sets the ages of the core's threads (log 114), its issue slots and the release of
meeting points, and nothing else. -/
def Obligations.StepRunsDecoded : Prop :=
  (∀ (s t : State) (wid bid : Nat),
    let u := t.settled s wid bid
    u = { t with warps := u.warps, cores := u.cores } ∧ (∀ c, u.core c = { t.core c with taken := (u.core c).taken }) ∧
    ∀ w, u.warp w = { t.warp w with lanes := (u.warp w).lanes, next := (u.warp w).next } ∧ ∀ l,
      let x := (u.warp w).lane l
      x = { (t.warp w).lane l with age := x.age, mr := x.mr, status := x.status, bid := x.bid }) ∧
  ∀ (s v : State) (wid bid : Nat) (rest : List Pick) (ws : List Word), s.agenda = .issue wid bid :: rest → s.life ≠ .dead →
    let u : State := { s with agenda := rest }
    let b := u.atBundle wid bid
    let i := decode (bitsOfWords ws)
    let after (o : Host.Outcome State Fault Refusal) : Host.Outcome State Fault Refusal :=
      match o with
      | .next t => .next ((t.settled u wid bid).tick 1)
      | x => x
    u.mayIssue wid bid = true → u.frozenCore (warpCore wid) = false → u.halted wid = false → (u.warp wid).asyncDue = false →
      b.cur.mask ≠ 0 →
    b.waitMask = 0 → b.leader.body = 0 → b.sfuPending = [] → b.engPending = [] → b.fetch = (v, .ok ws) →
    v.loadStalls (bitsOfWords ws) = false → v.claim (bitsOfWords ws) = none →
      (∀ w, (∀ e, i ≠ .notAnInstruction e) → (∀ f, i ≠ .fmac f ∧ i ≠ .brcx f) → v.badLock i = none → v.dependOn i = some w →
        step s = after (exec i w)) ∧
      ((∀ e, i ≠ .notAnInstruction e) → (∀ f, i ≠ .fmac f ∧ i ≠ .brcx f) → v.badLock i = none → v.dependOn i = none →
        step s = after (.next v)) ∧
      ∀ f, (i = .fmac f → step s = after (exec (.notAnInstruction ⟨0, f.fmt.code, 0x190, false⟩) v)) ∧
        (i = .brcx f → step s = after (exec (.notAnInstruction ⟨0, f.fmt.code, 0x30C, false⟩) v))

/-- R143, R455, R456, R457, R458, R461, R464, R467: a slot claims an encoding of its context and pitch, the one of the
highest priority and then of the lowest number. The trap action raises the slot's cause in every active lane; the emulate
action puts the lanes that run into an emulation group at its routine, and the others go on; a boot slot runs its form. -/
def Obligations.ClaimedEncodings : Prop :=
  (∀ (s : State) (x : BitVec 96),
    let key : BitVec 64 := keyOf x
    let fits (n : Nat) : Bool := match s.rennet.slots[n]? with
      | some y => y.kind == 1 && (key ^^^ y.match_) &&& y.mask == 0 && (y.anyc || y.ctx == s.curCtx) &&
          y.pmask.getLsbD (s.ctx s.curCtx).pitch
      | none => false
    let prio (n : Nat) : Nat := (s.rennet.slots.getD n .unused).prio
    (s.claim x = none ↔ ∀ n < s.rennet.slots.length, fits n = false) ∧
    ∀ k, s.claim x = some k → fits k.n = true ∧ k.slot = s.rennet.slots.getD k.n .unused ∧
      ∀ n, fits n = true → prio n < prio k.n ∨ (prio n = prio k.n ∧ k.n ≤ n)) ∧
  ∀ (s : State) (k : Claim), s.Bundled →
    (k.slot.ofBoot = false → k.slot.act = 0 → s.patched k = .next (s.trapActive ⟨k.slot.cause,
      (if k.slot.cause = causeIllegal then illegalInfo (claimedInfo k.v) ||| BitVec.ofNat 32 (k.n * 2 ^ 17)
       else BitVec.ofNat 32 k.n), s.pc64⟩)) ∧
    (∀ i op f w, k.slot.ofBoot = true → s.decoded k.v = i → i.view = .full op f → lowest (nWhys op f s.curWg.nreg) = none →
      s.dependOn i = some w → s.patched k = exec i w) ∧
    (k.slot.ofBoot = false → k.slot.act = 2 → s.claimBad k = 0 → (∀ e ∈ (s.core s.curCore).sfu, e.wid ≠ s.cur.wid) →
      ∃ t, s.patched k = .next t ∧ s.SameDevice t ∧ ∀ l < 32,
        let u := s.curWarp.lane l
        let after := (t.warp s.cur.wid).lane l
        (s.active l = false → after = u) ∧
        (s.active l = true → (s.claimLanes k).getLsbD l = false → after.pc = k.next s.cur.pc ∧ after.frames = u.frames ∧
          after.regs = u.regs) ∧
        ((s.claimLanes k).getLsbD l = true → after.pc = BitVec.ofNat 55 (0xF000001000000 + 4 * k.slot.routine) ∧
          after.regs = u.regs ∧ ∃ g, after.frames = g :: u.frames ∧ g.tfm = s.claimLanes k ∧ g.tam = s.cur.mask ∧
            g.tpc = (k.next s.cur.pc).zeroExtend 64 ∧ g.taddr = s.pc64 ∧ g.tinfo = BitVec.ofNat 32 k.n ∧ g.emu.isSome = true))

/-- R15, R27, R34, R49, R119, R268, R339, R372, R378, R433, R442, R443, R455, R468, R475: the state after reset: power is good and
bring-up has not run; no pitch, context, grid, workgroup or warp exists; the registers have their reset values. That the
counts `cwp` are 0 and that memory which nothing has written reads 0 are the model's choices (log 5, log 31). -/
def Obligations.ResetState : Prop :=
  let s := State.reset
  s.life = .reset ∧ s.warps = [] ∧ s.wgs = [] ∧ s.grids = [] ∧ s.ctxs = [] ∧ s.pitches = [] ∧ s.regions = [] ∧ s.units = [] ∧
    s.cycle = 0 ∧ s.agenda = [] ∧ s.fabric.packets = [] ∧ s.fabric.gver = 0 ∧ s.fabric.tver = 0 ∧ s.l2 = [] ∧ s.views = [] ∧
    s.metas = [] ∧ s.hostErrs = [] ∧ s.saved = [] ∧ s.reports = [] ∧ s.mem.wf = true ∧ (∀ a, s.mem.byte a = 0) ∧
      s.lantern.pwrlim = 6500 ∧ s.lantern.mbcmd = 0 ∧
    s.lantern.mbstat = 0 ∧ s.lantern.mbaddr = 0 ∧ s.rennet.slots = List.replicate 16 .unused ∧
    (∀ k, (s.core k).finj = 0 ∧ (s.core k).engine.holder = none ∧ (s.core k).engine.queue = [] ∧
      (s.core k).cwp = [0, 0, 0, 0]) ∧
    (∀ p, (s.pitch p).pcreq = 0 ∧ (s.pitch p).pcstat = 0 ∧ (s.pitch p).cxcmd = 0 ∧ (s.pitch p).cxstat = 0 ∧
      (s.pitch p).rlstat = 0 ∧ (s.pitch p).units = 0 ∧ ∀ n, (s.pitch p).apert.getD n .off = .off) ∧
    (∀ c n, KMap.getD (s.ctx c).bounds n Bound.reset = ⟨0xFF800000, 0x7F800000, 0⟩)

/-- The form of every memory is the model's own (DESIGN CHOICE, log 29): addresses strictly rising, no byte listed that an
unlisted address reads as, residues listed in rising order. It holds at reset, and every step keeps it. -/
def Obligations.MemoryStaysCanonical : Prop :=
  let good (m : Mem) : Prop := KMap.canonical m.bytes 0 = true ∧ KMap.sorted m.tags = true
  let inv (s : State) : Prop := good s.mem ∧ (∀ e ∈ s.wgs, good e.2.pad) ∧ ∀ x ∈ s.saved, ∀ e ∈ x.2.wgs, good e.2.pad
  inv State.reset ∧ ∀ s t : State, inv s → step s = .next t → inv t
end

