-- ==== Sys2Proof/Laws/Cache.lean ====
section
/-!
SUPPORT. What the operations of the caches change: an access or a claim at an L2 slice changes only which lines the slices
hold, a write at the home only memory beside them, and an acquire only the clean words of one core's L1.
-/

namespace Sys2Proof.Machine

theorem State.l2Touch_eq (s : State) (n : Nat) : s.l2Touch n = { s with l2 := (s.l2Touch n).l2 } := by
  unfold State.l2Touch
  split
  · rfl
  · dsimp only
    split
    · rfl
    · split <;> rfl

theorem State.l2Access_eq (s : State) (pa : Nat) : s.l2Access pa = { s with l2 := (s.l2Access pa).l2 } := by
  unfold State.l2Access
  split
  · exact s.l2Touch_eq _
  · rfl

theorem State.l2Claim_eq (s : State) (c pa : Nat) : s.l2Claim c pa = { s with l2 := (s.l2Claim c pa).l2 } := by
  unfold State.l2Claim
  split
  · rw [s.l2Touch_eq]
  · rfl

/-- A word written at its home: memory takes it, poisoned where its residue does not match (R379), and the slice its line. -/
theorem State.homeWord_eq (s : State) (c pa : Nat) (w : CWord) :
    s.homeWord c pa w = { s with mem := s.mem.setWord pa w.sound, l2 := (s.homeWord c pa w).l2 } := by
  unfold State.homeWord
  rw [s.l2Claim_eq]

@[simp] theorem State.homeWord_mem (s : State) (c pa : Nat) (w : CWord) : (s.homeWord c pa w).mem = s.mem.setWord pa w.sound := by
  rw [s.homeWord_eq]

/-- A good word leaves any place as it is (R114). -/
@[simp] theorem CWord.sound_eq {w : CWord} (h : w.wellFormed = true) : w.sound = w := by simp [CWord.sound, CWord.mismatched, h]

@[simp] theorem State.cleanL2_mem (s : State) (p : L2Line → Bool) : (s.cleanL2 p).mem = s.mem := rfl

/-- A line that leaves the slices without write-back, and is not dirty, changes no word. -/
theorem State.dropL2_clean (s : State) (p : L2Line → Bool) (h : ∀ e ∈ s.l2, p e = true → e.dirty = none) :
    (s.dropL2 p).mem = s.mem := by
  have key : ∀ (l : List L2Line) (m : Mem), (∀ e ∈ l, e.dirty = none) →
      l.foldl (fun m e => match e.dirty with
        | some (_, ws) => m.setWords (128 * e.line) ws
        | none => m) m = m := by
    intro l
    induction l with
    | nil => intro m _; rfl
    | cons e l ih =>
      intro m hl
      simp only [List.foldl_cons, hl e (List.mem_cons_self ..)]
      exact ih m fun x hx => hl x (List.mem_cons_of_mem _ hx)
  exact key _ _ fun e he => h e (List.mem_filter.1 he).1 (List.mem_filter.1 he).2

@[simp] theorem Core.dropClean_dirty (c : Core) : c.dropClean.dirty = c.dirty := rfl
@[simp] theorem Core.dropClean_clean (c : Core) : c.dropClean.clean = [] := rfl
@[simp] theorem Core.tidy_dirty (c : Core) : c.tidy.dirty = c.dirty := rfl
@[simp] theorem Core.tidy_clean (c : Core) : c.tidy.clean = c.clean := rfl

/-- After an acquire L1 holds a word exactly if it is dirty (R362). -/
theorem Core.dropClean_held (c : Core) (pa : Nat) : c.dropClean.held? pa = (c.dirty.get? pa).map (·.word) := by
  unfold Core.held?
  rw [Core.dropClean_dirty, Core.dropClean_clean]
  cases c.dirty.get? pa <;> rfl

/-- An acquire below gang scope does not act on L1 (R362). -/
theorem State.acquireAt_low (s : State) (core scope : Nat) (h : scope < 3) : s.acquireAt core scope = s := by
  simp [State.acquireAt, h]

/-- An acquire at gang scope or wider clears the clean words of one core (R362). -/
theorem State.acquireAt_high (s : State) (core scope : Nat) (h : 3 ≤ scope) :
    s.acquireAt core scope = s.updCore core Core.dropClean := by
  simp [State.acquireAt, Nat.not_lt.2 h]

/-- An acquire changes the cores alone. -/
theorem State.acquireAt_eq (s : State) (core scope : Nat) :
    s.acquireAt core scope = { s with cores := (s.acquireAt core scope).cores } := by
  unfold State.acquireAt
  split <;> rfl

end Sys2Proof.Machine
end

