-- ==== Sys2Proof/Laws/Map.lean ====
section
/-!
SUPPORT. Laws of the sparse tables and of checked memory: what a read gives after a write, and that every write keeps the
canonical form.
-/

namespace Sys2Proof.Machine

/-! ## Reads of tables -/

@[simp] theorem KMap.get?_nil {α : Type} (k : Nat) : KMap.get? ([] : KMap α) k = none := rfl

@[simp] theorem KMap.get?_put_self {α : Type} (m : KMap α) (k : Nat) (v : α) : (m.put k v).get? k = some v := by
  induction m with
  | nil => simp [KMap.put, KMap.get?]
  | cons e m ih =>
    obtain ⟨j, w⟩ := e
    simp only [KMap.put]
    split
    · simp [KMap.get?]
    · split
      · simp [KMap.get?]
      · simp [KMap.get?, *]

theorem KMap.get?_put_ne {α : Type} (m : KMap α) {j k : Nat} (v : α) (h : j ≠ k) : (m.put k v).get? j = m.get? j := by
  induction m with
  | nil => simp [KMap.put, KMap.get?, Ne.symm h]
  | cons e m ih =>
    obtain ⟨i, w⟩ := e
    simp only [KMap.put]
    split
    · simp [KMap.get?, Ne.symm h]
    · split
      · subst_vars
        simp [KMap.get?, Ne.symm h]
      · simp [KMap.get?, ih]

theorem KMap.get?_put {α : Type} (m : KMap α) (j k : Nat) (v : α) :
    (m.put k v).get? j = if j = k then some v else m.get? j := by
  split
  · subst_vars
    simp
  · exact KMap.get?_put_ne m v ‹_›

theorem KMap.get?_erase {α : Type} (m : KMap α) (j k : Nat) : (m.erase k).get? j = if j = k then none else m.get? j := by
  unfold KMap.erase
  induction m with
  | nil => simp
  | cons e m ih =>
    obtain ⟨i, w⟩ := e
    by_cases hi : i = k
    · subst hi
      rw [List.filter_cons_of_neg (by simp), ih, KMap.get?]
      split
      · rfl
      · rw [if_neg (Ne.symm ‹_›)]
    · rw [List.filter_cons_of_pos (by simpa using hi), KMap.get?, KMap.get?, ih]
      split
      · subst_vars
        simp [hi]
      · rfl

@[simp] theorem KMap.getD_put_self {α : Type} (m : KMap α) (k : Nat) (v d : α) : (m.put k v).getD k d = v := by
  simp [KMap.getD]

theorem KMap.getD_set {α : Type} [DecidableEq α] (m : KMap α) (j k : Nat) (v d : α) :
    KMap.getD (KMap.set m k v d) j d = if j = k then v else m.getD j d := by
  unfold KMap.set KMap.getD
  split
  · rw [KMap.get?_erase]
    split
    · simp [*]
    · rfl
  · rw [KMap.get?_put]
    split <;> rfl

theorem KMap.get?_mapv {α β : Type} (m : KMap α) (f : Nat → α → β) (k : Nat) :
    (KMap.mapv m f).get? k = (m.get? k).map (f k) := by
  induction m with
  | nil => rfl
  | cons e m ih =>
    obtain ⟨i, w⟩ := e
    simp only [KMap.mapv, List.map, KMap.get?] at ih ⊢
    split
    · subst_vars
      rfl
    · exact ih

/-! ## Sorted tables -/

/-- The first key of a table lies above a bound. -/
def KMap.above {α : Type} (m : KMap α) (k : Nat) : Prop := ∀ e ∈ m.head?, k < e.1

theorem KMap.sorted_cons {α : Type} (j : Nat) (v : α) (m : KMap α) :
    KMap.sorted ((j, v) :: m) = true ↔ m.above j ∧ m.sorted = true := by
  cases m with
  | nil => simp [KMap.sorted, KMap.above]
  | cons e m => simp [KMap.sorted, KMap.above]

theorem KMap.above_put {α : Type} {m : KMap α} {j k : Nat} (v : α) (h : m.above j) (hk : j < k) : (m.put k v).above j := by
  cases m with
  | nil => simpa [KMap.above, KMap.put] using hk
  | cons e m =>
    simp only [KMap.above, List.head?_cons, Option.mem_some_iff, forall_eq', KMap.put] at h ⊢
    split
    · simpa using hk
    · split
      · simpa using hk
      · simpa using h

theorem KMap.sorted_put {α : Type} {m : KMap α} (k : Nat) (v : α) (h : m.sorted = true) : (m.put k v).sorted = true := by
  induction m with
  | nil => rfl
  | cons e m ih =>
    obtain ⟨j, w⟩ := e
    have h' := (KMap.sorted_cons j w m).1 h
    simp only [KMap.put]
    split
    · rw [KMap.sorted_cons]
      exact ⟨by simpa [KMap.above], h⟩
    · split
      · subst_vars
        rw [KMap.sorted_cons]
        exact h'
      · rw [KMap.sorted_cons]
        exact ⟨KMap.above_put v h'.1 (by omega), ih h'.2⟩

theorem KMap.above_mono {α : Type} {m : KMap α} {i j : Nat} (h : m.above j) (hi : i ≤ j) : m.above i := by
  intro e he
  exact Nat.lt_of_le_of_lt hi (h e he)

theorem KMap.above_filter {α : Type} {m : KMap α} {k : Nat} (p : Nat × α → Bool) (h : m.above k) (hs : m.sorted = true) :
    KMap.above (m.filter p) k := by
  induction m generalizing k with
  | nil => simpa using h
  | cons e m ih =>
    obtain ⟨j, w⟩ := e
    have h' := (KMap.sorted_cons j w m).1 hs
    have hk : k < j := h (j, w) (by simp)
    simp only [List.filter]
    split
    · simpa [KMap.above] using hk
    · exact ih (KMap.above_mono h'.1 hk.le) h'.2

theorem KMap.sorted_filter {α : Type} {m : KMap α} (p : Nat × α → Bool) (h : m.sorted = true) :
    KMap.sorted (m.filter p) = true := by
  induction m with
  | nil => rfl
  | cons e m ih =>
    obtain ⟨j, w⟩ := e
    have h' := (KMap.sorted_cons j w m).1 h
    simp only [List.filter]
    split
    · exact (KMap.sorted_cons j w _).2 ⟨KMap.above_filter p h'.1 h'.2, ih h'.2⟩
    · exact ih h'.2

theorem KMap.sorted_erase {α : Type} {m : KMap α} (k : Nat) (h : m.sorted = true) : (m.erase k).sorted = true :=
  KMap.sorted_filter _ h

theorem KMap.sorted_set {α : Type} [DecidableEq α] {m : KMap α} (k : Nat) (v d : α) (h : m.sorted = true) :
    KMap.sorted (KMap.set m k v d) = true := by
  unfold KMap.set
  split
  · exact KMap.sorted_erase k h
  · exact KMap.sorted_put k v h

theorem KMap.mem_put {α : Type} {m : KMap α} {k : Nat} {v : α} {e : Nat × α} (h : e ∈ m.put k v) : e = (k, v) ∨ e ∈ m := by
  induction m with
  | nil => simpa [KMap.put] using h
  | cons x m ih =>
    obtain ⟨j, w⟩ := x
    simp only [KMap.put] at h
    split at h
    · simpa using h
    · split at h
      · subst_vars
        rcases List.mem_cons.1 h with h | h
        · exact .inl h
        · exact .inr (List.mem_cons_of_mem _ h)
      · rcases List.mem_cons.1 h with h | h
        · exact .inr (by simp [h])
        · exact (ih h).imp id (List.mem_cons_of_mem _)

/-- In a sorted table a listed entry is what its key reads as. -/
theorem KMap.get?_of_mem {α : Type} {m : KMap α} {k : Nat} {v : α} (hs : m.sorted = true) (h : (k, v) ∈ m) :
    m.get? k = some v := by
  induction m with
  | nil => simp at h
  | cons x m ih =>
    obtain ⟨j, w⟩ := x
    have h' := (KMap.sorted_cons j w m).1 hs
    rcases List.mem_cons.1 h with h | h
    · cases h
      simp [KMap.get?]
    · have hj : j ≠ k := by
        intro hjk
        subst hjk
        have : ∀ (m : KMap α), m.above j → m.sorted = true → (j, v) ∉ m := by
          intro m
          induction m with
          | nil => simp
          | cons y m ih =>
            obtain ⟨i, u⟩ := y
            intro ha hm hmem
            have hi : j < i := ha (i, u) (by simp)
            have hm' := (KMap.sorted_cons i u m).1 hm
            rcases List.mem_cons.1 hmem with he | he
            · cases he
              omega
            · exact ih (KMap.above_mono hm'.1 hi.le) hm'.2 he
        exact this m h'.1 h'.2 h
      simp [KMap.get?, hj, ih h'.2 h]

theorem KMap.mem_of_get? {α : Type} {m : KMap α} {k : Nat} {v : α} (h : m.get? k = some v) : (k, v) ∈ m := by
  induction m with
  | nil => simp at h
  | cons x m ih =>
    obtain ⟨j, w⟩ := x
    simp only [KMap.get?] at h
    split at h
    · subst_vars
      cases h
      simp
    · exact List.mem_cons_of_mem _ (ih h)

theorem KMap.canonical_set {α : Type} [DecidableEq α] {m : KMap α} {d : α} (k : Nat) (v : α)
    (h : m.canonical d = true) : KMap.canonical (KMap.set m k v d) d = true := by
  simp only [KMap.canonical, Bool.and_eq_true, List.all_eq_true, decide_eq_true_eq] at h ⊢
  refine ⟨KMap.sorted_set k v d h.1, fun e he => ?_⟩
  unfold KMap.set at he
  split at he
  · exact h.2 e (List.mem_of_mem_filter he)
  · rcases KMap.mem_put he with rfl | he
    · assumption
    · exact h.2 e he

/-! ## Bytes and words of memory -/

theorem KMap.get?_filter_key {α : Type} (m : KMap α) (p : Nat → Bool) (k : Nat) :
    KMap.get? (m.filter fun e => p e.1) k = if p k then m.get? k else none := by
  induction m with
  | nil => simp
  | cons e m ih =>
    obtain ⟨j, w⟩ := e
    simp only [List.filter]
    by_cases hj : j = k
    · subst hj
      cases h : p j <;> simp [h, KMap.get?, ih]
    · cases h : p j <;> simp [KMap.get?, hj, ih]

theorem setBytes_get (b : List Host.Cell) (a : Nat) (w : Word) (x : Nat) :
    KMap.getD (setBytes b a w) x (0 : BitVec 8) =
      if x = a + 3 then w.extractLsb' 24 8 else if x = a + 2 then w.extractLsb' 16 8 else if x = a + 1 then w.extractLsb' 8 8
      else if x = a then w.extractLsb' 0 8 else KMap.getD b x 0 := by
  simp [setBytes, KMap.getD_set]

/-- A byte outside a stored word reads as before. -/
theorem Mem.byte_setWord (m : Mem) (a : Nat) (w : CWord) (x : Nat) (h : x < a ∨ a + 4 ≤ x) :
    (m.setWord a w).byte x = m.byte x := by
  simp only [Mem.byte, Mem.setWord, setBytes_get]
  rw [if_neg (by omega), if_neg (by omega), if_neg (by omega), if_neg (by omega)]

/-- The data of a word just stored. -/
theorem Mem.data_setWord_self (m : Mem) (a : Nat) (w : CWord) : (m.setWord a w).data a = w.data := by
  have h0 : (m.setWord a w).byte a = w.data.extractLsb' 0 8 := by
    unfold Mem.byte Mem.setWord
    rw [setBytes_get]
    simp
  have h1 : (m.setWord a w).byte (a + 1) = w.data.extractLsb' 8 8 := by
    unfold Mem.byte Mem.setWord
    rw [setBytes_get]
    simp
  have h2 : (m.setWord a w).byte (a + 2) = w.data.extractLsb' 16 8 := by
    unfold Mem.byte Mem.setWord
    rw [setBytes_get]
    simp
  have h3 : (m.setWord a w).byte (a + 3) = w.data.extractLsb' 24 8 := by
    unfold Mem.byte Mem.setWord
    rw [setBytes_get]
    simp
  rw [Mem.data, h0, h1, h2, h3]
  ext i hi
  simp only [BitVec.getElem_append, BitVec.getElem_extractLsb']
  split <;> (try split) <;> (try split) <;> (rw [← BitVec.getLsbD_eq_getElem]; congr 1; omega)

/-- A word just stored reads back, data and residue. -/
theorem Mem.word_setWord_self (m : Mem) (a : Nat) (w : CWord) : (m.setWord a w).word a = w := by
  have hd := Mem.data_setWord_self m a w
  unfold Mem.word
  rw [hd]
  simp only [Mem.setWord]
  rw [KMap.getD_set]
  simp

/-- The data of a word that a store does not meet. -/
theorem Mem.data_setWord (m : Mem) (a : Nat) (w : CWord) (x : Nat) (h : x + 4 ≤ a ∨ a + 4 ≤ x) :
    (m.setWord a w).data x = m.data x := by
  simp only [Mem.data]
  rw [Mem.byte_setWord _ _ _ _ (by omega), Mem.byte_setWord _ _ _ _ (by omega), Mem.byte_setWord _ _ _ _ (by omega),
    Mem.byte_setWord _ _ _ _ (by omega)]

theorem KMap.getD_set_ne {α : Type} [DecidableEq α] (m : KMap α) {j k : Nat} (v d d' : α) (h : j ≠ k) :
    KMap.getD (KMap.set m k v d) j d' = m.getD j d' := by
  unfold KMap.set KMap.getD
  split
  · rw [KMap.get?_erase, if_neg h]
  · rw [KMap.get?_put_ne _ _ h]

/-- A word that a store does not meet reads as before, data and residue. -/
theorem Mem.word_setWord (m : Mem) (a : Nat) (w : CWord) (x : Nat) (h : x + 4 ≤ a ∨ a + 4 ≤ x) :
    (m.setWord a w).word x = m.word x := by
  have hd := Mem.data_setWord m a w x h
  unfold Mem.word
  rw [hd, CWord.mk.injEq]
  refine ⟨rfl, ?_⟩
  simp only [Mem.setWord]
  exact KMap.getD_set_ne _ _ _ _ (by omega)

theorem setBytes_canonical {b : List Host.Cell} (a : Nat) (w : Word) (h : KMap.canonical b (0 : BitVec 8) = true) :
    KMap.canonical (setBytes b a w) (0 : BitVec 8) = true := by
  simp only [setBytes]
  exact KMap.canonical_set _ _ (KMap.canonical_set _ _ (KMap.canonical_set _ _ (KMap.canonical_set _ _ h)))

/-- A store of an aligned word keeps the canonical form. -/
theorem Mem.wf_setWord {m : Mem} {a : Nat} (w : CWord) (ha : a % 4 = 0) (h : m.wf = true) : (m.setWord a w).wf = true := by
  simp only [Mem.wf, Bool.and_eq_true, List.all_eq_true, beq_iff_eq, bne_iff_ne] at h ⊢
  obtain ⟨⟨hb, ht⟩, hr⟩ := h
  refine ⟨⟨setBytes_canonical a _ hb, KMap.sorted_set _ _ _ ht⟩, fun e he => ?_⟩
  simp only [Mem.setWord, KMap.set] at he
  split at he
  · have hm := List.mem_of_mem_filter he
    have hne : e.1 ≠ a := by
      have := List.of_mem_filter he
      simpa using this
    obtain ⟨h1, h2⟩ := hr e hm
    exact ⟨h1, by rw [Mem.data_setWord _ _ _ _ (by omega)]; exact h2⟩
  · by_cases hea : e.1 = a
    · have hs := KMap.sorted_put a w.tag ht
      have := KMap.get?_of_mem hs (k := e.1) (v := e.2) he
      rw [hea, KMap.get?_put_self, Option.some.injEq] at this
      rw [hea, ← this]
      exact ⟨ha, by rw [Mem.data_setWord_self]; assumption⟩
    · rcases KMap.mem_put he with h' | h'
      · exact absurd (by rw [h']) hea
      · obtain ⟨h1, h2⟩ := hr e h'
        exact ⟨h1, by rw [Mem.data_setWord _ _ _ _ (by omega)]; exact h2⟩

/-- A store of words from an aligned address keeps the canonical form. -/
theorem Mem.wf_setWords {m : Mem} {a : Nat} (ws : List CWord) (ha : a % 4 = 0) (h : m.wf = true) :
    (m.setWords a ws).wf = true := by
  induction ws generalizing m a with
  | nil => exact h
  | cons w ws ih => exact ih (by omega) (Mem.wf_setWord w ha h)

/-- A byte outside stored words reads as before. -/
theorem Mem.byte_setWords (m : Mem) (a : Nat) (ws : List CWord) (x : Nat) (h : x < a ∨ a + 4 * ws.length ≤ x) :
    (m.setWords a ws).byte x = m.byte x := by
  induction ws generalizing m a with
  | nil => rfl
  | cons w ws ih =>
    simp only [List.length_cons] at h
    rw [Mem.setWords, ih _ _ (by omega), Mem.byte_setWord _ _ _ _ (by omega)]

/-- A word outside stored words reads as before. -/
theorem Mem.word_setWords (m : Mem) (a : Nat) (ws : List CWord) (x : Nat) (h : x + 4 ≤ a ∨ a + 4 * ws.length ≤ x) :
    (m.setWords a ws).word x = m.word x := by
  induction ws generalizing m a with
  | nil => rfl
  | cons w ws ih =>
    simp only [List.length_cons] at h
    rw [Mem.setWords, ih _ _ (by omega), Mem.word_setWord _ _ _ _ (by omega)]

/-- The first of stored words reads back. -/
theorem Mem.word_setWords_head (m : Mem) (a : Nat) (w : CWord) (ws : List CWord) : (m.setWords a (w :: ws)).word a = w := by
  rw [Mem.setWords, Mem.word_setWords _ _ _ _ (by omega), Mem.word_setWord_self]

theorem Mem.wf_empty : Mem.empty.wf = true := rfl

end Sys2Proof.Machine
end

