-- ==== Sys2Proof/Laws/State.lean ====
section
/-!
SUPPORT. One lemma for each field and each update of the state, a warp and a thread: what the update leaves, and what it
writes. No later proof unfolds a record update.
-/

namespace Sys2Proof.Machine

/-! ## Replacing a part of the state -/

@[simp] theorem State.setWarp_code (s : State) (wid : Nat) (w : Warp) : (s.setWarp wid w).code = s.code := rfl
@[simp] theorem State.setWarp_life (s : State) (wid : Nat) (w : Warp) : (s.setWarp wid w).life = s.life := rfl
@[simp] theorem State.setWarp_cycle (s : State) (wid : Nat) (w : Warp) : (s.setWarp wid w).cycle = s.cycle := rfl
@[simp] theorem State.setWarp_agenda (s : State) (wid : Nat) (w : Warp) : (s.setWarp wid w).agenda = s.agenda := rfl
@[simp] theorem State.setWarp_rota (s : State) (wid : Nat) (w : Warp) : (s.setWarp wid w).rota = s.rota := rfl
@[simp] theorem State.setWarp_cur (s : State) (wid : Nat) (w : Warp) : (s.setWarp wid w).cur = s.cur := rfl
@[simp] theorem State.setWarp_free (s : State) (wid : Nat) (w : Warp) : (s.setWarp wid w).free = s.free := rfl
@[simp] theorem State.setWarp_wgs (s : State) (wid : Nat) (w : Warp) : (s.setWarp wid w).wgs = s.wgs := rfl
@[simp] theorem State.setWarp_grids (s : State) (wid : Nat) (w : Warp) : (s.setWarp wid w).grids = s.grids := rfl
@[simp] theorem State.setWarp_ctxs (s : State) (wid : Nat) (w : Warp) : (s.setWarp wid w).ctxs = s.ctxs := rfl
@[simp] theorem State.setWarp_cores (s : State) (wid : Nat) (w : Warp) : (s.setWarp wid w).cores = s.cores := rfl
@[simp] theorem State.setWarp_mem (s : State) (wid : Nat) (w : Warp) : (s.setWarp wid w).mem = s.mem := rfl
@[simp] theorem State.setWarp_hostErrs (s : State) (wid : Nat) (w : Warp) : (s.setWarp wid w).hostErrs = s.hostErrs := rfl
@[simp] theorem State.setWarp_l2 (s : State) (wid : Nat) (w : Warp) : (s.setWarp wid w).l2 = s.l2 := rfl
@[simp] theorem State.setWarp_views (s : State) (wid : Nat) (w : Warp) : (s.setWarp wid w).views = s.views := rfl
@[simp] theorem State.setWarp_metas (s : State) (wid : Nat) (w : Warp) : (s.setWarp wid w).metas = s.metas := rfl
@[simp] theorem State.setWarp_walkers (s : State) (wid : Nat) (w : Warp) : (s.setWarp wid w).walkers = s.walkers := rfl
@[simp] theorem State.setWarp_units (s : State) (wid : Nat) (w : Warp) : (s.setWarp wid w).units = s.units := rfl
@[simp] theorem State.setWarp_pitches (s : State) (wid : Nat) (w : Warp) : (s.setWarp wid w).pitches = s.pitches := rfl
@[simp] theorem State.setWarp_regions (s : State) (wid : Nat) (w : Warp) : (s.setWarp wid w).regions = s.regions := rfl
@[simp] theorem State.setWarp_fabric (s : State) (wid : Nat) (w : Warp) : (s.setWarp wid w).fabric = s.fabric := rfl
@[simp] theorem State.setWarp_rennet (s : State) (wid : Nat) (w : Warp) : (s.setWarp wid w).rennet = s.rennet := rfl
@[simp] theorem State.setWarp_lantern (s : State) (wid : Nat) (w : Warp) : (s.setWarp wid w).lantern = s.lantern := rfl
@[simp] theorem State.setWarp_saved (s : State) (wid : Nat) (w : Warp) : (s.setWarp wid w).saved = s.saved := rfl
@[simp] theorem State.setWarp_quar (s : State) (wid : Nat) (w : Warp) : (s.setWarp wid w).quar = s.quar := rfl
@[simp] theorem State.setWarp_reports (s : State) (wid : Nat) (w : Warp) : (s.setWarp wid w).reports = s.reports := rfl

@[simp] theorem State.setWg_code (s : State) (k : Nat) (g : Workgroup) : (s.setWg k g).code = s.code := rfl
@[simp] theorem State.setWg_life (s : State) (k : Nat) (g : Workgroup) : (s.setWg k g).life = s.life := rfl
@[simp] theorem State.setWg_cycle (s : State) (k : Nat) (g : Workgroup) : (s.setWg k g).cycle = s.cycle := rfl
@[simp] theorem State.setWg_agenda (s : State) (k : Nat) (g : Workgroup) : (s.setWg k g).agenda = s.agenda := rfl
@[simp] theorem State.setWg_rota (s : State) (k : Nat) (g : Workgroup) : (s.setWg k g).rota = s.rota := rfl
@[simp] theorem State.setWg_cur (s : State) (k : Nat) (g : Workgroup) : (s.setWg k g).cur = s.cur := rfl
@[simp] theorem State.setWg_free (s : State) (k : Nat) (g : Workgroup) : (s.setWg k g).free = s.free := rfl
@[simp] theorem State.setWg_warps (s : State) (k : Nat) (g : Workgroup) : (s.setWg k g).warps = s.warps := rfl
@[simp] theorem State.setWg_grids (s : State) (k : Nat) (g : Workgroup) : (s.setWg k g).grids = s.grids := rfl
@[simp] theorem State.setWg_ctxs (s : State) (k : Nat) (g : Workgroup) : (s.setWg k g).ctxs = s.ctxs := rfl
@[simp] theorem State.setWg_cores (s : State) (k : Nat) (g : Workgroup) : (s.setWg k g).cores = s.cores := rfl
@[simp] theorem State.setWg_mem (s : State) (k : Nat) (g : Workgroup) : (s.setWg k g).mem = s.mem := rfl
@[simp] theorem State.setWg_hostErrs (s : State) (k : Nat) (g : Workgroup) : (s.setWg k g).hostErrs = s.hostErrs := rfl
@[simp] theorem State.setWg_l2 (s : State) (k : Nat) (g : Workgroup) : (s.setWg k g).l2 = s.l2 := rfl
@[simp] theorem State.setWg_views (s : State) (k : Nat) (g : Workgroup) : (s.setWg k g).views = s.views := rfl
@[simp] theorem State.setWg_metas (s : State) (k : Nat) (g : Workgroup) : (s.setWg k g).metas = s.metas := rfl
@[simp] theorem State.setWg_walkers (s : State) (k : Nat) (g : Workgroup) : (s.setWg k g).walkers = s.walkers := rfl
@[simp] theorem State.setWg_units (s : State) (k : Nat) (g : Workgroup) : (s.setWg k g).units = s.units := rfl
@[simp] theorem State.setWg_pitches (s : State) (k : Nat) (g : Workgroup) : (s.setWg k g).pitches = s.pitches := rfl
@[simp] theorem State.setWg_regions (s : State) (k : Nat) (g : Workgroup) : (s.setWg k g).regions = s.regions := rfl
@[simp] theorem State.setWg_fabric (s : State) (k : Nat) (g : Workgroup) : (s.setWg k g).fabric = s.fabric := rfl
@[simp] theorem State.setWg_rennet (s : State) (k : Nat) (g : Workgroup) : (s.setWg k g).rennet = s.rennet := rfl
@[simp] theorem State.setWg_lantern (s : State) (k : Nat) (g : Workgroup) : (s.setWg k g).lantern = s.lantern := rfl
@[simp] theorem State.setWg_saved (s : State) (k : Nat) (g : Workgroup) : (s.setWg k g).saved = s.saved := rfl
@[simp] theorem State.setWg_quar (s : State) (k : Nat) (g : Workgroup) : (s.setWg k g).quar = s.quar := rfl
@[simp] theorem State.setWg_reports (s : State) (k : Nat) (g : Workgroup) : (s.setWg k g).reports = s.reports := rfl

@[simp] theorem State.setCore_code (s : State) (c : Nat) (k : Core) : (s.setCore c k).code = s.code := rfl
@[simp] theorem State.setCore_life (s : State) (c : Nat) (k : Core) : (s.setCore c k).life = s.life := rfl
@[simp] theorem State.setCore_cycle (s : State) (c : Nat) (k : Core) : (s.setCore c k).cycle = s.cycle := rfl
@[simp] theorem State.setCore_agenda (s : State) (c : Nat) (k : Core) : (s.setCore c k).agenda = s.agenda := rfl
@[simp] theorem State.setCore_rota (s : State) (c : Nat) (k : Core) : (s.setCore c k).rota = s.rota := rfl
@[simp] theorem State.setCore_cur (s : State) (c : Nat) (k : Core) : (s.setCore c k).cur = s.cur := rfl
@[simp] theorem State.setCore_free (s : State) (c : Nat) (k : Core) : (s.setCore c k).free = s.free := rfl
@[simp] theorem State.setCore_warps (s : State) (c : Nat) (k : Core) : (s.setCore c k).warps = s.warps := rfl
@[simp] theorem State.setCore_wgs (s : State) (c : Nat) (k : Core) : (s.setCore c k).wgs = s.wgs := rfl
@[simp] theorem State.setCore_grids (s : State) (c : Nat) (k : Core) : (s.setCore c k).grids = s.grids := rfl
@[simp] theorem State.setCore_ctxs (s : State) (c : Nat) (k : Core) : (s.setCore c k).ctxs = s.ctxs := rfl
@[simp] theorem State.setCore_mem (s : State) (c : Nat) (k : Core) : (s.setCore c k).mem = s.mem := rfl
@[simp] theorem State.setCore_hostErrs (s : State) (c : Nat) (k : Core) : (s.setCore c k).hostErrs = s.hostErrs := rfl
@[simp] theorem State.setCore_l2 (s : State) (c : Nat) (k : Core) : (s.setCore c k).l2 = s.l2 := rfl
@[simp] theorem State.setCore_views (s : State) (c : Nat) (k : Core) : (s.setCore c k).views = s.views := rfl
@[simp] theorem State.setCore_metas (s : State) (c : Nat) (k : Core) : (s.setCore c k).metas = s.metas := rfl
@[simp] theorem State.setCore_walkers (s : State) (c : Nat) (k : Core) : (s.setCore c k).walkers = s.walkers := rfl
@[simp] theorem State.setCore_units (s : State) (c : Nat) (k : Core) : (s.setCore c k).units = s.units := rfl
@[simp] theorem State.setCore_pitches (s : State) (c : Nat) (k : Core) : (s.setCore c k).pitches = s.pitches := rfl
@[simp] theorem State.setCore_regions (s : State) (c : Nat) (k : Core) : (s.setCore c k).regions = s.regions := rfl
@[simp] theorem State.setCore_fabric (s : State) (c : Nat) (k : Core) : (s.setCore c k).fabric = s.fabric := rfl
@[simp] theorem State.setCore_rennet (s : State) (c : Nat) (k : Core) : (s.setCore c k).rennet = s.rennet := rfl
@[simp] theorem State.setCore_lantern (s : State) (c : Nat) (k : Core) : (s.setCore c k).lantern = s.lantern := rfl
@[simp] theorem State.setCore_saved (s : State) (c : Nat) (k : Core) : (s.setCore c k).saved = s.saved := rfl
@[simp] theorem State.setCore_quar (s : State) (c : Nat) (k : Core) : (s.setCore c k).quar = s.quar := rfl
@[simp] theorem State.setCore_reports (s : State) (c : Nat) (k : Core) : (s.setCore c k).reports = s.reports := rfl

@[simp] theorem State.updCore_code (s : State) (c : Nat) (f : Core → Core) : (s.updCore c f).code = s.code := rfl
@[simp] theorem State.updCore_life (s : State) (c : Nat) (f : Core → Core) : (s.updCore c f).life = s.life := rfl
@[simp] theorem State.updCore_cycle (s : State) (c : Nat) (f : Core → Core) : (s.updCore c f).cycle = s.cycle := rfl
@[simp] theorem State.updCore_agenda (s : State) (c : Nat) (f : Core → Core) : (s.updCore c f).agenda = s.agenda := rfl
@[simp] theorem State.updCore_rota (s : State) (c : Nat) (f : Core → Core) : (s.updCore c f).rota = s.rota := rfl
@[simp] theorem State.updCore_cur (s : State) (c : Nat) (f : Core → Core) : (s.updCore c f).cur = s.cur := rfl
@[simp] theorem State.updCore_free (s : State) (c : Nat) (f : Core → Core) : (s.updCore c f).free = s.free := rfl
@[simp] theorem State.updCore_warps (s : State) (c : Nat) (f : Core → Core) : (s.updCore c f).warps = s.warps := rfl
@[simp] theorem State.updCore_wgs (s : State) (c : Nat) (f : Core → Core) : (s.updCore c f).wgs = s.wgs := rfl
@[simp] theorem State.updCore_grids (s : State) (c : Nat) (f : Core → Core) : (s.updCore c f).grids = s.grids := rfl
@[simp] theorem State.updCore_ctxs (s : State) (c : Nat) (f : Core → Core) : (s.updCore c f).ctxs = s.ctxs := rfl
@[simp] theorem State.updCore_mem (s : State) (c : Nat) (f : Core → Core) : (s.updCore c f).mem = s.mem := rfl
@[simp] theorem State.updCore_hostErrs (s : State) (c : Nat) (f : Core → Core) : (s.updCore c f).hostErrs = s.hostErrs := rfl
@[simp] theorem State.updCore_l2 (s : State) (c : Nat) (f : Core → Core) : (s.updCore c f).l2 = s.l2 := rfl
@[simp] theorem State.updCore_views (s : State) (c : Nat) (f : Core → Core) : (s.updCore c f).views = s.views := rfl
@[simp] theorem State.updCore_metas (s : State) (c : Nat) (f : Core → Core) : (s.updCore c f).metas = s.metas := rfl
@[simp] theorem State.updCore_walkers (s : State) (c : Nat) (f : Core → Core) : (s.updCore c f).walkers = s.walkers := rfl
@[simp] theorem State.updCore_units (s : State) (c : Nat) (f : Core → Core) : (s.updCore c f).units = s.units := rfl
@[simp] theorem State.updCore_pitches (s : State) (c : Nat) (f : Core → Core) : (s.updCore c f).pitches = s.pitches := rfl
@[simp] theorem State.updCore_regions (s : State) (c : Nat) (f : Core → Core) : (s.updCore c f).regions = s.regions := rfl
@[simp] theorem State.updCore_fabric (s : State) (c : Nat) (f : Core → Core) : (s.updCore c f).fabric = s.fabric := rfl
@[simp] theorem State.updCore_rennet (s : State) (c : Nat) (f : Core → Core) : (s.updCore c f).rennet = s.rennet := rfl
@[simp] theorem State.updCore_lantern (s : State) (c : Nat) (f : Core → Core) : (s.updCore c f).lantern = s.lantern := rfl
@[simp] theorem State.updCore_saved (s : State) (c : Nat) (f : Core → Core) : (s.updCore c f).saved = s.saved := rfl
@[simp] theorem State.updCore_quar (s : State) (c : Nat) (f : Core → Core) : (s.updCore c f).quar = s.quar := rfl
@[simp] theorem State.updCore_reports (s : State) (c : Nat) (f : Core → Core) : (s.updCore c f).reports = s.reports := rfl

@[simp] theorem State.report_code (s : State) (r : Report) : (s.report r).code = s.code := rfl
@[simp] theorem State.report_life (s : State) (r : Report) : (s.report r).life = s.life := rfl
@[simp] theorem State.report_cycle (s : State) (r : Report) : (s.report r).cycle = s.cycle := rfl
@[simp] theorem State.report_agenda (s : State) (r : Report) : (s.report r).agenda = s.agenda := rfl
@[simp] theorem State.report_rota (s : State) (r : Report) : (s.report r).rota = s.rota := rfl
@[simp] theorem State.report_cur (s : State) (r : Report) : (s.report r).cur = s.cur := rfl
@[simp] theorem State.report_free (s : State) (r : Report) : (s.report r).free = s.free := rfl
@[simp] theorem State.report_warps (s : State) (r : Report) : (s.report r).warps = s.warps := rfl
@[simp] theorem State.report_wgs (s : State) (r : Report) : (s.report r).wgs = s.wgs := rfl
@[simp] theorem State.report_grids (s : State) (r : Report) : (s.report r).grids = s.grids := rfl
@[simp] theorem State.report_ctxs (s : State) (r : Report) : (s.report r).ctxs = s.ctxs := rfl
@[simp] theorem State.report_cores (s : State) (r : Report) : (s.report r).cores = s.cores := rfl
@[simp] theorem State.report_mem (s : State) (r : Report) : (s.report r).mem = s.mem := rfl
@[simp] theorem State.report_hostErrs (s : State) (r : Report) : (s.report r).hostErrs = s.hostErrs := rfl
@[simp] theorem State.report_l2 (s : State) (r : Report) : (s.report r).l2 = s.l2 := rfl
@[simp] theorem State.report_views (s : State) (r : Report) : (s.report r).views = s.views := rfl
@[simp] theorem State.report_metas (s : State) (r : Report) : (s.report r).metas = s.metas := rfl
@[simp] theorem State.report_walkers (s : State) (r : Report) : (s.report r).walkers = s.walkers := rfl
@[simp] theorem State.report_units (s : State) (r : Report) : (s.report r).units = s.units := rfl
@[simp] theorem State.report_pitches (s : State) (r : Report) : (s.report r).pitches = s.pitches := rfl
@[simp] theorem State.report_regions (s : State) (r : Report) : (s.report r).regions = s.regions := rfl
@[simp] theorem State.report_fabric (s : State) (r : Report) : (s.report r).fabric = s.fabric := rfl
@[simp] theorem State.report_rennet (s : State) (r : Report) : (s.report r).rennet = s.rennet := rfl
@[simp] theorem State.report_lantern (s : State) (r : Report) : (s.report r).lantern = s.lantern := rfl
@[simp] theorem State.report_saved (s : State) (r : Report) : (s.report r).saved = s.saved := rfl
@[simp] theorem State.report_quar (s : State) (r : Report) : (s.report r).quar = s.quar := rfl

@[simp] theorem State.logRecord_code (s : State) (r : Record) : (s.logRecord r).code = s.code := rfl
@[simp] theorem State.logRecord_life (s : State) (r : Record) : (s.logRecord r).life = s.life := rfl
@[simp] theorem State.logRecord_cycle (s : State) (r : Record) : (s.logRecord r).cycle = s.cycle := rfl
@[simp] theorem State.logRecord_agenda (s : State) (r : Record) : (s.logRecord r).agenda = s.agenda := rfl
@[simp] theorem State.logRecord_rota (s : State) (r : Record) : (s.logRecord r).rota = s.rota := rfl
@[simp] theorem State.logRecord_cur (s : State) (r : Record) : (s.logRecord r).cur = s.cur := rfl
@[simp] theorem State.logRecord_free (s : State) (r : Record) : (s.logRecord r).free = s.free := rfl
@[simp] theorem State.logRecord_warps (s : State) (r : Record) : (s.logRecord r).warps = s.warps := rfl
@[simp] theorem State.logRecord_wgs (s : State) (r : Record) : (s.logRecord r).wgs = s.wgs := rfl
@[simp] theorem State.logRecord_grids (s : State) (r : Record) : (s.logRecord r).grids = s.grids := rfl
@[simp] theorem State.logRecord_ctxs (s : State) (r : Record) : (s.logRecord r).ctxs = s.ctxs := rfl
@[simp] theorem State.logRecord_cores (s : State) (r : Record) : (s.logRecord r).cores = s.cores := rfl
@[simp] theorem State.logRecord_mem (s : State) (r : Record) : (s.logRecord r).mem = s.mem := rfl
@[simp] theorem State.logRecord_hostErrs (s : State) (r : Record) : (s.logRecord r).hostErrs = s.hostErrs := rfl
@[simp] theorem State.logRecord_l2 (s : State) (r : Record) : (s.logRecord r).l2 = s.l2 := rfl
@[simp] theorem State.logRecord_views (s : State) (r : Record) : (s.logRecord r).views = s.views := rfl
@[simp] theorem State.logRecord_metas (s : State) (r : Record) : (s.logRecord r).metas = s.metas := rfl
@[simp] theorem State.logRecord_walkers (s : State) (r : Record) : (s.logRecord r).walkers = s.walkers := rfl
@[simp] theorem State.logRecord_units (s : State) (r : Record) : (s.logRecord r).units = s.units := rfl
@[simp] theorem State.logRecord_pitches (s : State) (r : Record) : (s.logRecord r).pitches = s.pitches := rfl
@[simp] theorem State.logRecord_regions (s : State) (r : Record) : (s.logRecord r).regions = s.regions := rfl
@[simp] theorem State.logRecord_fabric (s : State) (r : Record) : (s.logRecord r).fabric = s.fabric := rfl
@[simp] theorem State.logRecord_rennet (s : State) (r : Record) : (s.logRecord r).rennet = s.rennet := rfl
@[simp] theorem State.logRecord_saved (s : State) (r : Record) : (s.logRecord r).saved = s.saved := rfl
@[simp] theorem State.logRecord_quar (s : State) (r : Record) : (s.logRecord r).quar = s.quar := rfl
@[simp] theorem State.logRecord_reports (s : State) (r : Record) : (s.logRecord r).reports = s.reports := rfl

/-! ## Changing a part that may not be there -/

@[simp] theorem State.updWarp_code (s : State) (wid : Nat) (f : Warp → Warp) : (s.updWarp wid f).code = s.code := by
  unfold State.updWarp; split <;> rfl
@[simp] theorem State.updWarp_life (s : State) (wid : Nat) (f : Warp → Warp) : (s.updWarp wid f).life = s.life := by
  unfold State.updWarp; split <;> rfl
@[simp] theorem State.updWarp_cycle (s : State) (wid : Nat) (f : Warp → Warp) : (s.updWarp wid f).cycle = s.cycle := by
  unfold State.updWarp; split <;> rfl
@[simp] theorem State.updWarp_agenda (s : State) (wid : Nat) (f : Warp → Warp) : (s.updWarp wid f).agenda = s.agenda := by
  unfold State.updWarp; split <;> rfl
@[simp] theorem State.updWarp_rota (s : State) (wid : Nat) (f : Warp → Warp) : (s.updWarp wid f).rota = s.rota := by
  unfold State.updWarp; split <;> rfl
@[simp] theorem State.updWarp_cur (s : State) (wid : Nat) (f : Warp → Warp) : (s.updWarp wid f).cur = s.cur := by
  unfold State.updWarp; split <;> rfl
@[simp] theorem State.updWarp_free (s : State) (wid : Nat) (f : Warp → Warp) : (s.updWarp wid f).free = s.free := by
  unfold State.updWarp; split <;> rfl
@[simp] theorem State.updWarp_wgs (s : State) (wid : Nat) (f : Warp → Warp) : (s.updWarp wid f).wgs = s.wgs := by
  unfold State.updWarp; split <;> rfl
@[simp] theorem State.updWarp_grids (s : State) (wid : Nat) (f : Warp → Warp) : (s.updWarp wid f).grids = s.grids := by
  unfold State.updWarp; split <;> rfl
@[simp] theorem State.updWarp_ctxs (s : State) (wid : Nat) (f : Warp → Warp) : (s.updWarp wid f).ctxs = s.ctxs := by
  unfold State.updWarp; split <;> rfl
@[simp] theorem State.updWarp_cores (s : State) (wid : Nat) (f : Warp → Warp) : (s.updWarp wid f).cores = s.cores := by
  unfold State.updWarp; split <;> rfl
@[simp] theorem State.updWarp_mem (s : State) (wid : Nat) (f : Warp → Warp) : (s.updWarp wid f).mem = s.mem := by
  unfold State.updWarp; split <;> rfl
@[simp] theorem State.updWarp_hostErrs (s : State) (wid : Nat) (f : Warp → Warp) : (s.updWarp wid f).hostErrs = s.hostErrs := by
  unfold State.updWarp; split <;> rfl
@[simp] theorem State.updWarp_l2 (s : State) (wid : Nat) (f : Warp → Warp) : (s.updWarp wid f).l2 = s.l2 := by
  unfold State.updWarp; split <;> rfl
@[simp] theorem State.updWarp_views (s : State) (wid : Nat) (f : Warp → Warp) : (s.updWarp wid f).views = s.views := by
  unfold State.updWarp; split <;> rfl
@[simp] theorem State.updWarp_metas (s : State) (wid : Nat) (f : Warp → Warp) : (s.updWarp wid f).metas = s.metas := by
  unfold State.updWarp; split <;> rfl
@[simp] theorem State.updWarp_walkers (s : State) (wid : Nat) (f : Warp → Warp) : (s.updWarp wid f).walkers = s.walkers := by
  unfold State.updWarp; split <;> rfl
@[simp] theorem State.updWarp_units (s : State) (wid : Nat) (f : Warp → Warp) : (s.updWarp wid f).units = s.units := by
  unfold State.updWarp; split <;> rfl
@[simp] theorem State.updWarp_pitches (s : State) (wid : Nat) (f : Warp → Warp) : (s.updWarp wid f).pitches = s.pitches := by
  unfold State.updWarp; split <;> rfl
@[simp] theorem State.updWarp_regions (s : State) (wid : Nat) (f : Warp → Warp) : (s.updWarp wid f).regions = s.regions := by
  unfold State.updWarp; split <;> rfl
@[simp] theorem State.updWarp_fabric (s : State) (wid : Nat) (f : Warp → Warp) : (s.updWarp wid f).fabric = s.fabric := by
  unfold State.updWarp; split <;> rfl
@[simp] theorem State.updWarp_rennet (s : State) (wid : Nat) (f : Warp → Warp) : (s.updWarp wid f).rennet = s.rennet := by
  unfold State.updWarp; split <;> rfl
@[simp] theorem State.updWarp_lantern (s : State) (wid : Nat) (f : Warp → Warp) : (s.updWarp wid f).lantern = s.lantern := by
  unfold State.updWarp; split <;> rfl
@[simp] theorem State.updWarp_saved (s : State) (wid : Nat) (f : Warp → Warp) : (s.updWarp wid f).saved = s.saved := by
  unfold State.updWarp; split <;> rfl
@[simp] theorem State.updWarp_quar (s : State) (wid : Nat) (f : Warp → Warp) : (s.updWarp wid f).quar = s.quar := by
  unfold State.updWarp; split <;> rfl
@[simp] theorem State.updWarp_reports (s : State) (wid : Nat) (f : Warp → Warp) : (s.updWarp wid f).reports = s.reports := by
  unfold State.updWarp; split <;> rfl

@[simp] theorem State.updWg_code (s : State) (k : Nat) (f : Workgroup → Workgroup) : (s.updWg k f).code = s.code := by
  unfold State.updWg; split <;> rfl
@[simp] theorem State.updWg_life (s : State) (k : Nat) (f : Workgroup → Workgroup) : (s.updWg k f).life = s.life := by
  unfold State.updWg; split <;> rfl
@[simp] theorem State.updWg_cycle (s : State) (k : Nat) (f : Workgroup → Workgroup) : (s.updWg k f).cycle = s.cycle := by
  unfold State.updWg; split <;> rfl
@[simp] theorem State.updWg_agenda (s : State) (k : Nat) (f : Workgroup → Workgroup) : (s.updWg k f).agenda = s.agenda := by
  unfold State.updWg; split <;> rfl
@[simp] theorem State.updWg_rota (s : State) (k : Nat) (f : Workgroup → Workgroup) : (s.updWg k f).rota = s.rota := by
  unfold State.updWg; split <;> rfl
@[simp] theorem State.updWg_cur (s : State) (k : Nat) (f : Workgroup → Workgroup) : (s.updWg k f).cur = s.cur := by
  unfold State.updWg; split <;> rfl
@[simp] theorem State.updWg_free (s : State) (k : Nat) (f : Workgroup → Workgroup) : (s.updWg k f).free = s.free := by
  unfold State.updWg; split <;> rfl
@[simp] theorem State.updWg_warps (s : State) (k : Nat) (f : Workgroup → Workgroup) : (s.updWg k f).warps = s.warps := by
  unfold State.updWg; split <;> rfl
@[simp] theorem State.updWg_grids (s : State) (k : Nat) (f : Workgroup → Workgroup) : (s.updWg k f).grids = s.grids := by
  unfold State.updWg; split <;> rfl
@[simp] theorem State.updWg_ctxs (s : State) (k : Nat) (f : Workgroup → Workgroup) : (s.updWg k f).ctxs = s.ctxs := by
  unfold State.updWg; split <;> rfl
@[simp] theorem State.updWg_cores (s : State) (k : Nat) (f : Workgroup → Workgroup) : (s.updWg k f).cores = s.cores := by
  unfold State.updWg; split <;> rfl
@[simp] theorem State.updWg_mem (s : State) (k : Nat) (f : Workgroup → Workgroup) : (s.updWg k f).mem = s.mem := by
  unfold State.updWg; split <;> rfl
@[simp] theorem State.updWg_hostErrs (s : State) (k : Nat) (f : Workgroup → Workgroup) : (s.updWg k f).hostErrs = s.hostErrs := by
  unfold State.updWg; split <;> rfl
@[simp] theorem State.updWg_l2 (s : State) (k : Nat) (f : Workgroup → Workgroup) : (s.updWg k f).l2 = s.l2 := by
  unfold State.updWg; split <;> rfl
@[simp] theorem State.updWg_views (s : State) (k : Nat) (f : Workgroup → Workgroup) : (s.updWg k f).views = s.views := by
  unfold State.updWg; split <;> rfl
@[simp] theorem State.updWg_metas (s : State) (k : Nat) (f : Workgroup → Workgroup) : (s.updWg k f).metas = s.metas := by
  unfold State.updWg; split <;> rfl
@[simp] theorem State.updWg_walkers (s : State) (k : Nat) (f : Workgroup → Workgroup) : (s.updWg k f).walkers = s.walkers := by
  unfold State.updWg; split <;> rfl
@[simp] theorem State.updWg_units (s : State) (k : Nat) (f : Workgroup → Workgroup) : (s.updWg k f).units = s.units := by
  unfold State.updWg; split <;> rfl
@[simp] theorem State.updWg_pitches (s : State) (k : Nat) (f : Workgroup → Workgroup) : (s.updWg k f).pitches = s.pitches := by
  unfold State.updWg; split <;> rfl
@[simp] theorem State.updWg_regions (s : State) (k : Nat) (f : Workgroup → Workgroup) : (s.updWg k f).regions = s.regions := by
  unfold State.updWg; split <;> rfl
@[simp] theorem State.updWg_fabric (s : State) (k : Nat) (f : Workgroup → Workgroup) : (s.updWg k f).fabric = s.fabric := by
  unfold State.updWg; split <;> rfl
@[simp] theorem State.updWg_rennet (s : State) (k : Nat) (f : Workgroup → Workgroup) : (s.updWg k f).rennet = s.rennet := by
  unfold State.updWg; split <;> rfl
@[simp] theorem State.updWg_lantern (s : State) (k : Nat) (f : Workgroup → Workgroup) : (s.updWg k f).lantern = s.lantern := by
  unfold State.updWg; split <;> rfl
@[simp] theorem State.updWg_saved (s : State) (k : Nat) (f : Workgroup → Workgroup) : (s.updWg k f).saved = s.saved := by
  unfold State.updWg; split <;> rfl
@[simp] theorem State.updWg_quar (s : State) (k : Nat) (f : Workgroup → Workgroup) : (s.updWg k f).quar = s.quar := by
  unfold State.updWg; split <;> rfl
@[simp] theorem State.updWg_reports (s : State) (k : Nat) (f : Workgroup → Workgroup) : (s.updWg k f).reports = s.reports := by
  unfold State.updWg; split <;> rfl

@[simp] theorem State.updGrid_code (s : State) (g : Nat) (f : Grid → Grid) : (s.updGrid g f).code = s.code := by
  unfold State.updGrid; split <;> rfl
@[simp] theorem State.updGrid_life (s : State) (g : Nat) (f : Grid → Grid) : (s.updGrid g f).life = s.life := by
  unfold State.updGrid; split <;> rfl
@[simp] theorem State.updGrid_cycle (s : State) (g : Nat) (f : Grid → Grid) : (s.updGrid g f).cycle = s.cycle := by
  unfold State.updGrid; split <;> rfl
@[simp] theorem State.updGrid_agenda (s : State) (g : Nat) (f : Grid → Grid) : (s.updGrid g f).agenda = s.agenda := by
  unfold State.updGrid; split <;> rfl
@[simp] theorem State.updGrid_rota (s : State) (g : Nat) (f : Grid → Grid) : (s.updGrid g f).rota = s.rota := by
  unfold State.updGrid; split <;> rfl
@[simp] theorem State.updGrid_cur (s : State) (g : Nat) (f : Grid → Grid) : (s.updGrid g f).cur = s.cur := by
  unfold State.updGrid; split <;> rfl
@[simp] theorem State.updGrid_free (s : State) (g : Nat) (f : Grid → Grid) : (s.updGrid g f).free = s.free := by
  unfold State.updGrid; split <;> rfl
@[simp] theorem State.updGrid_warps (s : State) (g : Nat) (f : Grid → Grid) : (s.updGrid g f).warps = s.warps := by
  unfold State.updGrid; split <;> rfl
@[simp] theorem State.updGrid_wgs (s : State) (g : Nat) (f : Grid → Grid) : (s.updGrid g f).wgs = s.wgs := by
  unfold State.updGrid; split <;> rfl
@[simp] theorem State.updGrid_ctxs (s : State) (g : Nat) (f : Grid → Grid) : (s.updGrid g f).ctxs = s.ctxs := by
  unfold State.updGrid; split <;> rfl
@[simp] theorem State.updGrid_cores (s : State) (g : Nat) (f : Grid → Grid) : (s.updGrid g f).cores = s.cores := by
  unfold State.updGrid; split <;> rfl
@[simp] theorem State.updGrid_mem (s : State) (g : Nat) (f : Grid → Grid) : (s.updGrid g f).mem = s.mem := by
  unfold State.updGrid; split <;> rfl
@[simp] theorem State.updGrid_hostErrs (s : State) (g : Nat) (f : Grid → Grid) : (s.updGrid g f).hostErrs = s.hostErrs := by
  unfold State.updGrid; split <;> rfl
@[simp] theorem State.updGrid_l2 (s : State) (g : Nat) (f : Grid → Grid) : (s.updGrid g f).l2 = s.l2 := by
  unfold State.updGrid; split <;> rfl
@[simp] theorem State.updGrid_views (s : State) (g : Nat) (f : Grid → Grid) : (s.updGrid g f).views = s.views := by
  unfold State.updGrid; split <;> rfl
@[simp] theorem State.updGrid_metas (s : State) (g : Nat) (f : Grid → Grid) : (s.updGrid g f).metas = s.metas := by
  unfold State.updGrid; split <;> rfl
@[simp] theorem State.updGrid_walkers (s : State) (g : Nat) (f : Grid → Grid) : (s.updGrid g f).walkers = s.walkers := by
  unfold State.updGrid; split <;> rfl
@[simp] theorem State.updGrid_units (s : State) (g : Nat) (f : Grid → Grid) : (s.updGrid g f).units = s.units := by
  unfold State.updGrid; split <;> rfl
@[simp] theorem State.updGrid_pitches (s : State) (g : Nat) (f : Grid → Grid) : (s.updGrid g f).pitches = s.pitches := by
  unfold State.updGrid; split <;> rfl
@[simp] theorem State.updGrid_regions (s : State) (g : Nat) (f : Grid → Grid) : (s.updGrid g f).regions = s.regions := by
  unfold State.updGrid; split <;> rfl
@[simp] theorem State.updGrid_fabric (s : State) (g : Nat) (f : Grid → Grid) : (s.updGrid g f).fabric = s.fabric := by
  unfold State.updGrid; split <;> rfl
@[simp] theorem State.updGrid_rennet (s : State) (g : Nat) (f : Grid → Grid) : (s.updGrid g f).rennet = s.rennet := by
  unfold State.updGrid; split <;> rfl
@[simp] theorem State.updGrid_lantern (s : State) (g : Nat) (f : Grid → Grid) : (s.updGrid g f).lantern = s.lantern := by
  unfold State.updGrid; split <;> rfl
@[simp] theorem State.updGrid_saved (s : State) (g : Nat) (f : Grid → Grid) : (s.updGrid g f).saved = s.saved := by
  unfold State.updGrid; split <;> rfl
@[simp] theorem State.updGrid_quar (s : State) (g : Nat) (f : Grid → Grid) : (s.updGrid g f).quar = s.quar := by
  unfold State.updGrid; split <;> rfl
@[simp] theorem State.updGrid_reports (s : State) (g : Nat) (f : Grid → Grid) : (s.updGrid g f).reports = s.reports := by
  unfold State.updGrid; split <;> rfl

@[simp] theorem State.updCtx_code (s : State) (c : Nat) (f : Context → Context) : (s.updCtx c f).code = s.code := by
  unfold State.updCtx; split <;> rfl
@[simp] theorem State.updCtx_life (s : State) (c : Nat) (f : Context → Context) : (s.updCtx c f).life = s.life := by
  unfold State.updCtx; split <;> rfl
@[simp] theorem State.updCtx_cycle (s : State) (c : Nat) (f : Context → Context) : (s.updCtx c f).cycle = s.cycle := by
  unfold State.updCtx; split <;> rfl
@[simp] theorem State.updCtx_agenda (s : State) (c : Nat) (f : Context → Context) : (s.updCtx c f).agenda = s.agenda := by
  unfold State.updCtx; split <;> rfl
@[simp] theorem State.updCtx_rota (s : State) (c : Nat) (f : Context → Context) : (s.updCtx c f).rota = s.rota := by
  unfold State.updCtx; split <;> rfl
@[simp] theorem State.updCtx_cur (s : State) (c : Nat) (f : Context → Context) : (s.updCtx c f).cur = s.cur := by
  unfold State.updCtx; split <;> rfl
@[simp] theorem State.updCtx_free (s : State) (c : Nat) (f : Context → Context) : (s.updCtx c f).free = s.free := by
  unfold State.updCtx; split <;> rfl
@[simp] theorem State.updCtx_warps (s : State) (c : Nat) (f : Context → Context) : (s.updCtx c f).warps = s.warps := by
  unfold State.updCtx; split <;> rfl
@[simp] theorem State.updCtx_wgs (s : State) (c : Nat) (f : Context → Context) : (s.updCtx c f).wgs = s.wgs := by
  unfold State.updCtx; split <;> rfl
@[simp] theorem State.updCtx_grids (s : State) (c : Nat) (f : Context → Context) : (s.updCtx c f).grids = s.grids := by
  unfold State.updCtx; split <;> rfl
@[simp] theorem State.updCtx_cores (s : State) (c : Nat) (f : Context → Context) : (s.updCtx c f).cores = s.cores := by
  unfold State.updCtx; split <;> rfl
@[simp] theorem State.updCtx_mem (s : State) (c : Nat) (f : Context → Context) : (s.updCtx c f).mem = s.mem := by
  unfold State.updCtx; split <;> rfl
@[simp] theorem State.updCtx_hostErrs (s : State) (c : Nat) (f : Context → Context) : (s.updCtx c f).hostErrs = s.hostErrs := by
  unfold State.updCtx; split <;> rfl
@[simp] theorem State.updCtx_l2 (s : State) (c : Nat) (f : Context → Context) : (s.updCtx c f).l2 = s.l2 := by
  unfold State.updCtx; split <;> rfl
@[simp] theorem State.updCtx_views (s : State) (c : Nat) (f : Context → Context) : (s.updCtx c f).views = s.views := by
  unfold State.updCtx; split <;> rfl
@[simp] theorem State.updCtx_metas (s : State) (c : Nat) (f : Context → Context) : (s.updCtx c f).metas = s.metas := by
  unfold State.updCtx; split <;> rfl
@[simp] theorem State.updCtx_walkers (s : State) (c : Nat) (f : Context → Context) : (s.updCtx c f).walkers = s.walkers := by
  unfold State.updCtx; split <;> rfl
@[simp] theorem State.updCtx_units (s : State) (c : Nat) (f : Context → Context) : (s.updCtx c f).units = s.units := by
  unfold State.updCtx; split <;> rfl
@[simp] theorem State.updCtx_pitches (s : State) (c : Nat) (f : Context → Context) : (s.updCtx c f).pitches = s.pitches := by
  unfold State.updCtx; split <;> rfl
@[simp] theorem State.updCtx_regions (s : State) (c : Nat) (f : Context → Context) : (s.updCtx c f).regions = s.regions := by
  unfold State.updCtx; split <;> rfl
@[simp] theorem State.updCtx_fabric (s : State) (c : Nat) (f : Context → Context) : (s.updCtx c f).fabric = s.fabric := by
  unfold State.updCtx; split <;> rfl
@[simp] theorem State.updCtx_rennet (s : State) (c : Nat) (f : Context → Context) : (s.updCtx c f).rennet = s.rennet := by
  unfold State.updCtx; split <;> rfl
@[simp] theorem State.updCtx_lantern (s : State) (c : Nat) (f : Context → Context) : (s.updCtx c f).lantern = s.lantern := by
  unfold State.updCtx; split <;> rfl
@[simp] theorem State.updCtx_saved (s : State) (c : Nat) (f : Context → Context) : (s.updCtx c f).saved = s.saved := by
  unfold State.updCtx; split <;> rfl
@[simp] theorem State.updCtx_quar (s : State) (c : Nat) (f : Context → Context) : (s.updCtx c f).quar = s.quar := by
  unfold State.updCtx; split <;> rfl
@[simp] theorem State.updCtx_reports (s : State) (c : Nat) (f : Context → Context) : (s.updCtx c f).reports = s.reports := by
  unfold State.updCtx; split <;> rfl

@[simp] theorem State.updPitch_code (s : State) (p : Nat) (f : Pitch → Pitch) : (s.updPitch p f).code = s.code := by
  unfold State.updPitch; split <;> rfl
@[simp] theorem State.updPitch_life (s : State) (p : Nat) (f : Pitch → Pitch) : (s.updPitch p f).life = s.life := by
  unfold State.updPitch; split <;> rfl
@[simp] theorem State.updPitch_cycle (s : State) (p : Nat) (f : Pitch → Pitch) : (s.updPitch p f).cycle = s.cycle := by
  unfold State.updPitch; split <;> rfl
@[simp] theorem State.updPitch_agenda (s : State) (p : Nat) (f : Pitch → Pitch) : (s.updPitch p f).agenda = s.agenda := by
  unfold State.updPitch; split <;> rfl
@[simp] theorem State.updPitch_rota (s : State) (p : Nat) (f : Pitch → Pitch) : (s.updPitch p f).rota = s.rota := by
  unfold State.updPitch; split <;> rfl
@[simp] theorem State.updPitch_cur (s : State) (p : Nat) (f : Pitch → Pitch) : (s.updPitch p f).cur = s.cur := by
  unfold State.updPitch; split <;> rfl
@[simp] theorem State.updPitch_free (s : State) (p : Nat) (f : Pitch → Pitch) : (s.updPitch p f).free = s.free := by
  unfold State.updPitch; split <;> rfl
@[simp] theorem State.updPitch_warps (s : State) (p : Nat) (f : Pitch → Pitch) : (s.updPitch p f).warps = s.warps := by
  unfold State.updPitch; split <;> rfl
@[simp] theorem State.updPitch_wgs (s : State) (p : Nat) (f : Pitch → Pitch) : (s.updPitch p f).wgs = s.wgs := by
  unfold State.updPitch; split <;> rfl
@[simp] theorem State.updPitch_grids (s : State) (p : Nat) (f : Pitch → Pitch) : (s.updPitch p f).grids = s.grids := by
  unfold State.updPitch; split <;> rfl
@[simp] theorem State.updPitch_ctxs (s : State) (p : Nat) (f : Pitch → Pitch) : (s.updPitch p f).ctxs = s.ctxs := by
  unfold State.updPitch; split <;> rfl
@[simp] theorem State.updPitch_cores (s : State) (p : Nat) (f : Pitch → Pitch) : (s.updPitch p f).cores = s.cores := by
  unfold State.updPitch; split <;> rfl
@[simp] theorem State.updPitch_mem (s : State) (p : Nat) (f : Pitch → Pitch) : (s.updPitch p f).mem = s.mem := by
  unfold State.updPitch; split <;> rfl
@[simp] theorem State.updPitch_hostErrs (s : State) (p : Nat) (f : Pitch → Pitch) : (s.updPitch p f).hostErrs = s.hostErrs := by
  unfold State.updPitch; split <;> rfl
@[simp] theorem State.updPitch_l2 (s : State) (p : Nat) (f : Pitch → Pitch) : (s.updPitch p f).l2 = s.l2 := by
  unfold State.updPitch; split <;> rfl
@[simp] theorem State.updPitch_views (s : State) (p : Nat) (f : Pitch → Pitch) : (s.updPitch p f).views = s.views := by
  unfold State.updPitch; split <;> rfl
@[simp] theorem State.updPitch_metas (s : State) (p : Nat) (f : Pitch → Pitch) : (s.updPitch p f).metas = s.metas := by
  unfold State.updPitch; split <;> rfl
@[simp] theorem State.updPitch_walkers (s : State) (p : Nat) (f : Pitch → Pitch) : (s.updPitch p f).walkers = s.walkers := by
  unfold State.updPitch; split <;> rfl
@[simp] theorem State.updPitch_units (s : State) (p : Nat) (f : Pitch → Pitch) : (s.updPitch p f).units = s.units := by
  unfold State.updPitch; split <;> rfl
@[simp] theorem State.updPitch_regions (s : State) (p : Nat) (f : Pitch → Pitch) : (s.updPitch p f).regions = s.regions := by
  unfold State.updPitch; split <;> rfl
@[simp] theorem State.updPitch_fabric (s : State) (p : Nat) (f : Pitch → Pitch) : (s.updPitch p f).fabric = s.fabric := by
  unfold State.updPitch; split <;> rfl
@[simp] theorem State.updPitch_rennet (s : State) (p : Nat) (f : Pitch → Pitch) : (s.updPitch p f).rennet = s.rennet := by
  unfold State.updPitch; split <;> rfl
@[simp] theorem State.updPitch_lantern (s : State) (p : Nat) (f : Pitch → Pitch) : (s.updPitch p f).lantern = s.lantern := by
  unfold State.updPitch; split <;> rfl
@[simp] theorem State.updPitch_saved (s : State) (p : Nat) (f : Pitch → Pitch) : (s.updPitch p f).saved = s.saved := by
  unfold State.updPitch; split <;> rfl
@[simp] theorem State.updPitch_quar (s : State) (p : Nat) (f : Pitch → Pitch) : (s.updPitch p f).quar = s.quar := by
  unfold State.updPitch; split <;> rfl
@[simp] theorem State.updPitch_reports (s : State) (p : Nat) (f : Pitch → Pitch) : (s.updPitch p f).reports = s.reports := by
  unfold State.updPitch; split <;> rfl

@[simp] theorem State.updRegion_code (s : State) (a : Nat) (f : Region → Region) : (s.updRegion a f).code = s.code := by
  unfold State.updRegion; split <;> rfl
@[simp] theorem State.updRegion_life (s : State) (a : Nat) (f : Region → Region) : (s.updRegion a f).life = s.life := by
  unfold State.updRegion; split <;> rfl
@[simp] theorem State.updRegion_cycle (s : State) (a : Nat) (f : Region → Region) : (s.updRegion a f).cycle = s.cycle := by
  unfold State.updRegion; split <;> rfl
@[simp] theorem State.updRegion_agenda (s : State) (a : Nat) (f : Region → Region) : (s.updRegion a f).agenda = s.agenda := by
  unfold State.updRegion; split <;> rfl
@[simp] theorem State.updRegion_rota (s : State) (a : Nat) (f : Region → Region) : (s.updRegion a f).rota = s.rota := by
  unfold State.updRegion; split <;> rfl
@[simp] theorem State.updRegion_cur (s : State) (a : Nat) (f : Region → Region) : (s.updRegion a f).cur = s.cur := by
  unfold State.updRegion; split <;> rfl
@[simp] theorem State.updRegion_free (s : State) (a : Nat) (f : Region → Region) : (s.updRegion a f).free = s.free := by
  unfold State.updRegion; split <;> rfl
@[simp] theorem State.updRegion_warps (s : State) (a : Nat) (f : Region → Region) : (s.updRegion a f).warps = s.warps := by
  unfold State.updRegion; split <;> rfl
@[simp] theorem State.updRegion_wgs (s : State) (a : Nat) (f : Region → Region) : (s.updRegion a f).wgs = s.wgs := by
  unfold State.updRegion; split <;> rfl
@[simp] theorem State.updRegion_grids (s : State) (a : Nat) (f : Region → Region) : (s.updRegion a f).grids = s.grids := by
  unfold State.updRegion; split <;> rfl
@[simp] theorem State.updRegion_ctxs (s : State) (a : Nat) (f : Region → Region) : (s.updRegion a f).ctxs = s.ctxs := by
  unfold State.updRegion; split <;> rfl
@[simp] theorem State.updRegion_cores (s : State) (a : Nat) (f : Region → Region) : (s.updRegion a f).cores = s.cores := by
  unfold State.updRegion; split <;> rfl
@[simp] theorem State.updRegion_mem (s : State) (a : Nat) (f : Region → Region) : (s.updRegion a f).mem = s.mem := by
  unfold State.updRegion; split <;> rfl
@[simp] theorem State.updRegion_hostErrs (s : State) (a : Nat) (f : Region → Region) : (s.updRegion a f).hostErrs = s.hostErrs := by
  unfold State.updRegion; split <;> rfl
@[simp] theorem State.updRegion_l2 (s : State) (a : Nat) (f : Region → Region) : (s.updRegion a f).l2 = s.l2 := by
  unfold State.updRegion; split <;> rfl
@[simp] theorem State.updRegion_views (s : State) (a : Nat) (f : Region → Region) : (s.updRegion a f).views = s.views := by
  unfold State.updRegion; split <;> rfl
@[simp] theorem State.updRegion_metas (s : State) (a : Nat) (f : Region → Region) : (s.updRegion a f).metas = s.metas := by
  unfold State.updRegion; split <;> rfl
@[simp] theorem State.updRegion_walkers (s : State) (a : Nat) (f : Region → Region) : (s.updRegion a f).walkers = s.walkers := by
  unfold State.updRegion; split <;> rfl
@[simp] theorem State.updRegion_units (s : State) (a : Nat) (f : Region → Region) : (s.updRegion a f).units = s.units := by
  unfold State.updRegion; split <;> rfl
@[simp] theorem State.updRegion_pitches (s : State) (a : Nat) (f : Region → Region) : (s.updRegion a f).pitches = s.pitches := by
  unfold State.updRegion; split <;> rfl
@[simp] theorem State.updRegion_fabric (s : State) (a : Nat) (f : Region → Region) : (s.updRegion a f).fabric = s.fabric := by
  unfold State.updRegion; split <;> rfl
@[simp] theorem State.updRegion_rennet (s : State) (a : Nat) (f : Region → Region) : (s.updRegion a f).rennet = s.rennet := by
  unfold State.updRegion; split <;> rfl
@[simp] theorem State.updRegion_lantern (s : State) (a : Nat) (f : Region → Region) : (s.updRegion a f).lantern = s.lantern := by
  unfold State.updRegion; split <;> rfl
@[simp] theorem State.updRegion_saved (s : State) (a : Nat) (f : Region → Region) : (s.updRegion a f).saved = s.saved := by
  unfold State.updRegion; split <;> rfl
@[simp] theorem State.updRegion_quar (s : State) (a : Nat) (f : Region → Region) : (s.updRegion a f).quar = s.quar := by
  unfold State.updRegion; split <;> rfl
@[simp] theorem State.updRegion_reports (s : State) (a : Nat) (f : Region → Region) : (s.updRegion a f).reports = s.reports := by
  unfold State.updRegion; split <;> rfl

/-! ## Threads and warps -/

@[simp] theorem Thread.setReg_status (t : Thread) (n : Nat) (w : CWord) : (t.setReg n w).status = t.status := rfl
@[simp] theorem Thread.setReg_pc (t : Thread) (n : Nat) (w : CWord) : (t.setReg n w).pc = t.pc := rfl
@[simp] theorem Thread.setReg_hi (t : Thread) (n : Nat) (w : CWord) : (t.setReg n w).hi = t.hi := rfl
@[simp] theorem Thread.setReg_bid (t : Thread) (n : Nat) (w : CWord) : (t.setReg n w).bid = t.bid := rfl
@[simp] theorem Thread.setReg_preds (t : Thread) (n : Nat) (w : CWord) : (t.setReg n w).preds = t.preds := rfl
@[simp] theorem Thread.setReg_preds' (t : Thread) (n : Nat) (w : CWord) : (t.setReg n w).preds' = t.preds' := rfl
@[simp] theorem Thread.setReg_mr (t : Thread) (n : Nat) (w : CWord) : (t.setReg n w).mr = t.mr := rfl
@[simp] theorem Thread.setReg_csp (t : Thread) (n : Nat) (w : CWord) : (t.setReg n w).csp = t.csp := rfl
@[simp] theorem Thread.setReg_rstack (t : Thread) (n : Nat) (w : CWord) : (t.setReg n w).rstack = t.rstack := rfl
@[simp] theorem Thread.setReg_spl (t : Thread) (n : Nat) (w : CWord) : (t.setReg n w).spl = t.spl := rfl
@[simp] theorem Thread.setReg_fflags (t : Thread) (n : Nat) (w : CWord) : (t.setReg n w).fflags = t.fflags := rfl
@[simp] theorem Thread.setReg_window (t : Thread) (n : Nat) (w : CWord) : (t.setReg n w).window = t.window := rfl
@[simp] theorem Thread.setReg_wmask (t : Thread) (n : Nat) (w : CWord) : (t.setReg n w).wmask = t.wmask := rfl
@[simp] theorem Thread.setReg_age (t : Thread) (n : Nat) (w : CWord) : (t.setReg n w).age = t.age := rfl
@[simp] theorem Thread.setReg_parks (t : Thread) (n : Nat) (w : CWord) : (t.setReg n w).parks = t.parks := rfl
@[simp] theorem Thread.setReg_frames (t : Thread) (n : Nat) (w : CWord) : (t.setReg n w).frames = t.frames := rfl
@[simp] theorem Thread.setReg_callees (t : Thread) (n : Nat) (w : CWord) : (t.setReg n w).callees = t.callees := rfl
@[simp] theorem Thread.setReg_arrivals (t : Thread) (n : Nat) (w : CWord) : (t.setReg n w).arrivals = t.arrivals := rfl
@[simp] theorem Thread.setReg_engTraps (t : Thread) (n : Nat) (w : CWord) : (t.setReg n w).engTraps = t.engTraps := rfl
@[simp] theorem Thread.setReg_sfuFails (t : Thread) (n : Nat) (w : CWord) : (t.setReg n w).sfuFails = t.sfuFails := rfl
@[simp] theorem Thread.setReg_body (t : Thread) (n : Nat) (w : CWord) : (t.setReg n w).body = t.body := rfl

@[simp] theorem Thread.setPred_status (t : Thread) (n : Nat) (b : Bool) : (t.setPred n b).status = t.status := rfl
@[simp] theorem Thread.setPred_pc (t : Thread) (n : Nat) (b : Bool) : (t.setPred n b).pc = t.pc := rfl
@[simp] theorem Thread.setPred_hi (t : Thread) (n : Nat) (b : Bool) : (t.setPred n b).hi = t.hi := rfl
@[simp] theorem Thread.setPred_bid (t : Thread) (n : Nat) (b : Bool) : (t.setPred n b).bid = t.bid := rfl
@[simp] theorem Thread.setPred_regs (t : Thread) (n : Nat) (b : Bool) : (t.setPred n b).regs = t.regs := rfl
@[simp] theorem Thread.setPred_mr (t : Thread) (n : Nat) (b : Bool) : (t.setPred n b).mr = t.mr := rfl
@[simp] theorem Thread.setPred_csp (t : Thread) (n : Nat) (b : Bool) : (t.setPred n b).csp = t.csp := rfl
@[simp] theorem Thread.setPred_rstack (t : Thread) (n : Nat) (b : Bool) : (t.setPred n b).rstack = t.rstack := rfl
@[simp] theorem Thread.setPred_spl (t : Thread) (n : Nat) (b : Bool) : (t.setPred n b).spl = t.spl := rfl
@[simp] theorem Thread.setPred_fflags (t : Thread) (n : Nat) (b : Bool) : (t.setPred n b).fflags = t.fflags := rfl
@[simp] theorem Thread.setPred_window (t : Thread) (n : Nat) (b : Bool) : (t.setPred n b).window = t.window := rfl
@[simp] theorem Thread.setPred_wmask (t : Thread) (n : Nat) (b : Bool) : (t.setPred n b).wmask = t.wmask := rfl
@[simp] theorem Thread.setPred_age (t : Thread) (n : Nat) (b : Bool) : (t.setPred n b).age = t.age := rfl
@[simp] theorem Thread.setPred_parks (t : Thread) (n : Nat) (b : Bool) : (t.setPred n b).parks = t.parks := rfl
@[simp] theorem Thread.setPred_frames (t : Thread) (n : Nat) (b : Bool) : (t.setPred n b).frames = t.frames := rfl
@[simp] theorem Thread.setPred_callees (t : Thread) (n : Nat) (b : Bool) : (t.setPred n b).callees = t.callees := rfl
@[simp] theorem Thread.setPred_arrivals (t : Thread) (n : Nat) (b : Bool) : (t.setPred n b).arrivals = t.arrivals := rfl
@[simp] theorem Thread.setPred_engTraps (t : Thread) (n : Nat) (b : Bool) : (t.setPred n b).engTraps = t.engTraps := rfl
@[simp] theorem Thread.setPred_sfuFails (t : Thread) (n : Nat) (b : Bool) : (t.setPred n b).sfuFails = t.sfuFails := rfl
@[simp] theorem Thread.setPred_body (t : Thread) (n : Nat) (b : Bool) : (t.setPred n b).body = t.body := rfl

@[simp] theorem Thread.goto_status (t : Thread) (pc : Addr) : (t.goto pc).status = t.status := rfl
@[simp] theorem Thread.goto_hi (t : Thread) (pc : Addr) : (t.goto pc).hi = t.hi := rfl
@[simp] theorem Thread.goto_bid (t : Thread) (pc : Addr) : (t.goto pc).bid = t.bid := rfl
@[simp] theorem Thread.goto_regs (t : Thread) (pc : Addr) : (t.goto pc).regs = t.regs := rfl
@[simp] theorem Thread.goto_preds (t : Thread) (pc : Addr) : (t.goto pc).preds = t.preds := rfl
@[simp] theorem Thread.goto_preds' (t : Thread) (pc : Addr) : (t.goto pc).preds' = t.preds' := rfl
@[simp] theorem Thread.goto_mr (t : Thread) (pc : Addr) : (t.goto pc).mr = t.mr := rfl
@[simp] theorem Thread.goto_csp (t : Thread) (pc : Addr) : (t.goto pc).csp = t.csp := rfl
@[simp] theorem Thread.goto_rstack (t : Thread) (pc : Addr) : (t.goto pc).rstack = t.rstack := rfl
@[simp] theorem Thread.goto_spl (t : Thread) (pc : Addr) : (t.goto pc).spl = t.spl := rfl
@[simp] theorem Thread.goto_fflags (t : Thread) (pc : Addr) : (t.goto pc).fflags = t.fflags := rfl
@[simp] theorem Thread.goto_age (t : Thread) (pc : Addr) : (t.goto pc).age = t.age := rfl
@[simp] theorem Thread.goto_parks (t : Thread) (pc : Addr) : (t.goto pc).parks = t.parks := rfl
@[simp] theorem Thread.goto_frames (t : Thread) (pc : Addr) : (t.goto pc).frames = t.frames := rfl
@[simp] theorem Thread.goto_callees (t : Thread) (pc : Addr) : (t.goto pc).callees = t.callees := rfl
@[simp] theorem Thread.goto_arrivals (t : Thread) (pc : Addr) : (t.goto pc).arrivals = t.arrivals := rfl
@[simp] theorem Thread.goto_engTraps (t : Thread) (pc : Addr) : (t.goto pc).engTraps = t.engTraps := rfl
@[simp] theorem Thread.goto_sfuFails (t : Thread) (pc : Addr) : (t.goto pc).sfuFails = t.sfuFails := rfl
@[simp] theorem Thread.goto_body (t : Thread) (pc : Addr) : (t.goto pc).body = t.body := rfl

@[simp] theorem Warp.setWreg_lanes (t : Warp) (n : Nat) (x : CWord) : (t.setWreg n x).lanes = t.lanes := rfl
@[simp] theorem Warp.setWreg_wpart (t : Warp) (n : Nat) (x : CWord) : (t.setWreg n x).wpart = t.wpart := rfl
@[simp] theorem Warp.setWreg_tmask (t : Warp) (n : Nat) (x : CWord) : (t.setWreg n x).tmask = t.tmask := rfl
@[simp] theorem Warp.setWreg_loads (t : Warp) (n : Nat) (x : CWord) : (t.setWreg n x).loads = t.loads := rfl
@[simp] theorem Warp.setWreg_asyncs (t : Warp) (n : Nat) (x : CWord) : (t.setWreg n x).asyncs = t.asyncs := rfl
@[simp] theorem Warp.setWreg_next (t : Warp) (n : Nat) (x : CWord) : (t.setWreg n x).next = t.next := rfl

@[simp] theorem Warp.mapLanes_wregs (t : Warp) (f : Nat → Thread → Thread) : (t.mapLanes f).wregs = t.wregs := rfl
@[simp] theorem Warp.mapLanes_wpart (t : Warp) (f : Nat → Thread → Thread) : (t.mapLanes f).wpart = t.wpart := rfl
@[simp] theorem Warp.mapLanes_tmask (t : Warp) (f : Nat → Thread → Thread) : (t.mapLanes f).tmask = t.tmask := rfl
@[simp] theorem Warp.mapLanes_loads (t : Warp) (f : Nat → Thread → Thread) : (t.mapLanes f).loads = t.loads := rfl
@[simp] theorem Warp.mapLanes_asyncs (t : Warp) (f : Nat → Thread → Thread) : (t.mapLanes f).asyncs = t.asyncs := rfl
@[simp] theorem Warp.mapLanes_next (t : Warp) (f : Nat → Thread → Thread) : (t.mapLanes f).next = t.next := rfl

@[simp] theorem Warp.updLane_wregs (t : Warp) (l : Nat) (f : Thread → Thread) : (t.updLane l f).wregs = t.wregs := rfl
@[simp] theorem Warp.updLane_wpart (t : Warp) (l : Nat) (f : Thread → Thread) : (t.updLane l f).wpart = t.wpart := rfl
@[simp] theorem Warp.updLane_tmask (t : Warp) (l : Nat) (f : Thread → Thread) : (t.updLane l f).tmask = t.tmask := rfl
@[simp] theorem Warp.updLane_loads (t : Warp) (l : Nat) (f : Thread → Thread) : (t.updLane l f).loads = t.loads := rfl
@[simp] theorem Warp.updLane_asyncs (t : Warp) (l : Nat) (f : Thread → Thread) : (t.updLane l f).asyncs = t.asyncs := rfl
@[simp] theorem Warp.updLane_next (t : Warp) (l : Nat) (f : Thread → Thread) : (t.updLane l f).next = t.next := rfl

@[simp] theorem Thread.goto_pc (t : Thread) (pc : Addr) : (t.goto pc).pc = pc := rfl
@[simp] theorem Thread.goto_wmask (t : Thread) (pc : Addr) : (t.goto pc).wmask = 0 := rfl
@[simp] theorem Thread.goto_window (t : Thread) (pc : Addr) : (t.goto pc).window = t.window - 1 := rfl
@[simp] theorem Warp.mapLanes_lanes (w : Warp) (f : Nat → Thread → Thread) : (w.mapLanes f).lanes = w.lanes.mapIdx f := rfl

@[simp] theorem Thread.setRegs_status (t : Thread) (n : Nat) (ws : List CWord) : (t.setRegs n ws).status = t.status := by
  induction ws generalizing t n with
  | nil => rfl
  | cons w ws ih => exact (ih _ _).trans rfl
@[simp] theorem Thread.setRegs_pc (t : Thread) (n : Nat) (ws : List CWord) : (t.setRegs n ws).pc = t.pc := by
  induction ws generalizing t n with
  | nil => rfl
  | cons w ws ih => exact (ih _ _).trans rfl
@[simp] theorem Thread.setRegs_hi (t : Thread) (n : Nat) (ws : List CWord) : (t.setRegs n ws).hi = t.hi := by
  induction ws generalizing t n with
  | nil => rfl
  | cons w ws ih => exact (ih _ _).trans rfl
@[simp] theorem Thread.setRegs_bid (t : Thread) (n : Nat) (ws : List CWord) : (t.setRegs n ws).bid = t.bid := by
  induction ws generalizing t n with
  | nil => rfl
  | cons w ws ih => exact (ih _ _).trans rfl
@[simp] theorem Thread.setRegs_preds (t : Thread) (n : Nat) (ws : List CWord) : (t.setRegs n ws).preds = t.preds := by
  induction ws generalizing t n with
  | nil => rfl
  | cons w ws ih => exact (ih _ _).trans rfl
@[simp] theorem Thread.setRegs_preds' (t : Thread) (n : Nat) (ws : List CWord) : (t.setRegs n ws).preds' = t.preds' := by
  induction ws generalizing t n with
  | nil => rfl
  | cons w ws ih => exact (ih _ _).trans rfl
@[simp] theorem Thread.setRegs_mr (t : Thread) (n : Nat) (ws : List CWord) : (t.setRegs n ws).mr = t.mr := by
  induction ws generalizing t n with
  | nil => rfl
  | cons w ws ih => exact (ih _ _).trans rfl
@[simp] theorem Thread.setRegs_csp (t : Thread) (n : Nat) (ws : List CWord) : (t.setRegs n ws).csp = t.csp := by
  induction ws generalizing t n with
  | nil => rfl
  | cons w ws ih => exact (ih _ _).trans rfl
@[simp] theorem Thread.setRegs_rstack (t : Thread) (n : Nat) (ws : List CWord) : (t.setRegs n ws).rstack = t.rstack := by
  induction ws generalizing t n with
  | nil => rfl
  | cons w ws ih => exact (ih _ _).trans rfl
@[simp] theorem Thread.setRegs_spl (t : Thread) (n : Nat) (ws : List CWord) : (t.setRegs n ws).spl = t.spl := by
  induction ws generalizing t n with
  | nil => rfl
  | cons w ws ih => exact (ih _ _).trans rfl
@[simp] theorem Thread.setRegs_fflags (t : Thread) (n : Nat) (ws : List CWord) : (t.setRegs n ws).fflags = t.fflags := by
  induction ws generalizing t n with
  | nil => rfl
  | cons w ws ih => exact (ih _ _).trans rfl
@[simp] theorem Thread.setRegs_window (t : Thread) (n : Nat) (ws : List CWord) : (t.setRegs n ws).window = t.window := by
  induction ws generalizing t n with
  | nil => rfl
  | cons w ws ih => exact (ih _ _).trans rfl
@[simp] theorem Thread.setRegs_wmask (t : Thread) (n : Nat) (ws : List CWord) : (t.setRegs n ws).wmask = t.wmask := by
  induction ws generalizing t n with
  | nil => rfl
  | cons w ws ih => exact (ih _ _).trans rfl
@[simp] theorem Thread.setRegs_age (t : Thread) (n : Nat) (ws : List CWord) : (t.setRegs n ws).age = t.age := by
  induction ws generalizing t n with
  | nil => rfl
  | cons w ws ih => exact (ih _ _).trans rfl
@[simp] theorem Thread.setRegs_parks (t : Thread) (n : Nat) (ws : List CWord) : (t.setRegs n ws).parks = t.parks := by
  induction ws generalizing t n with
  | nil => rfl
  | cons w ws ih => exact (ih _ _).trans rfl
@[simp] theorem Thread.setRegs_frames (t : Thread) (n : Nat) (ws : List CWord) : (t.setRegs n ws).frames = t.frames := by
  induction ws generalizing t n with
  | nil => rfl
  | cons w ws ih => exact (ih _ _).trans rfl
@[simp] theorem Thread.setRegs_callees (t : Thread) (n : Nat) (ws : List CWord) : (t.setRegs n ws).callees = t.callees := by
  induction ws generalizing t n with
  | nil => rfl
  | cons w ws ih => exact (ih _ _).trans rfl
@[simp] theorem Thread.setRegs_arrivals (t : Thread) (n : Nat) (ws : List CWord) : (t.setRegs n ws).arrivals = t.arrivals := by
  induction ws generalizing t n with
  | nil => rfl
  | cons w ws ih => exact (ih _ _).trans rfl
@[simp] theorem Thread.setRegs_engTraps (t : Thread) (n : Nat) (ws : List CWord) : (t.setRegs n ws).engTraps = t.engTraps := by
  induction ws generalizing t n with
  | nil => rfl
  | cons w ws ih => exact (ih _ _).trans rfl
@[simp] theorem Thread.setRegs_sfuFails (t : Thread) (n : Nat) (ws : List CWord) : (t.setRegs n ws).sfuFails = t.sfuFails := by
  induction ws generalizing t n with
  | nil => rfl
  | cons w ws ih => exact (ih _ _).trans rfl
@[simp] theorem Thread.setRegs_body (t : Thread) (n : Nat) (ws : List CWord) : (t.setRegs n ws).body = t.body := by
  induction ws generalizing t n with
  | nil => rfl
  | cons w ws ih => exact (ih _ _).trans rfl

@[simp] theorem Thread.setPreds_status (t : Thread) (ps : List (Nat × Bool)) : (t.setPreds ps).status = t.status := by
  induction ps generalizing t with
  | nil => rfl
  | cons p ps ih => exact (ih _).trans rfl
@[simp] theorem Thread.setPreds_pc (t : Thread) (ps : List (Nat × Bool)) : (t.setPreds ps).pc = t.pc := by
  induction ps generalizing t with
  | nil => rfl
  | cons p ps ih => exact (ih _).trans rfl
@[simp] theorem Thread.setPreds_hi (t : Thread) (ps : List (Nat × Bool)) : (t.setPreds ps).hi = t.hi := by
  induction ps generalizing t with
  | nil => rfl
  | cons p ps ih => exact (ih _).trans rfl
@[simp] theorem Thread.setPreds_bid (t : Thread) (ps : List (Nat × Bool)) : (t.setPreds ps).bid = t.bid := by
  induction ps generalizing t with
  | nil => rfl
  | cons p ps ih => exact (ih _).trans rfl
@[simp] theorem Thread.setPreds_regs (t : Thread) (ps : List (Nat × Bool)) : (t.setPreds ps).regs = t.regs := by
  induction ps generalizing t with
  | nil => rfl
  | cons p ps ih => exact (ih _).trans rfl
@[simp] theorem Thread.setPreds_mr (t : Thread) (ps : List (Nat × Bool)) : (t.setPreds ps).mr = t.mr := by
  induction ps generalizing t with
  | nil => rfl
  | cons p ps ih => exact (ih _).trans rfl
@[simp] theorem Thread.setPreds_csp (t : Thread) (ps : List (Nat × Bool)) : (t.setPreds ps).csp = t.csp := by
  induction ps generalizing t with
  | nil => rfl
  | cons p ps ih => exact (ih _).trans rfl
@[simp] theorem Thread.setPreds_rstack (t : Thread) (ps : List (Nat × Bool)) : (t.setPreds ps).rstack = t.rstack := by
  induction ps generalizing t with
  | nil => rfl
  | cons p ps ih => exact (ih _).trans rfl
@[simp] theorem Thread.setPreds_spl (t : Thread) (ps : List (Nat × Bool)) : (t.setPreds ps).spl = t.spl := by
  induction ps generalizing t with
  | nil => rfl
  | cons p ps ih => exact (ih _).trans rfl
@[simp] theorem Thread.setPreds_fflags (t : Thread) (ps : List (Nat × Bool)) : (t.setPreds ps).fflags = t.fflags := by
  induction ps generalizing t with
  | nil => rfl
  | cons p ps ih => exact (ih _).trans rfl
@[simp] theorem Thread.setPreds_window (t : Thread) (ps : List (Nat × Bool)) : (t.setPreds ps).window = t.window := by
  induction ps generalizing t with
  | nil => rfl
  | cons p ps ih => exact (ih _).trans rfl
@[simp] theorem Thread.setPreds_wmask (t : Thread) (ps : List (Nat × Bool)) : (t.setPreds ps).wmask = t.wmask := by
  induction ps generalizing t with
  | nil => rfl
  | cons p ps ih => exact (ih _).trans rfl
@[simp] theorem Thread.setPreds_age (t : Thread) (ps : List (Nat × Bool)) : (t.setPreds ps).age = t.age := by
  induction ps generalizing t with
  | nil => rfl
  | cons p ps ih => exact (ih _).trans rfl
@[simp] theorem Thread.setPreds_parks (t : Thread) (ps : List (Nat × Bool)) : (t.setPreds ps).parks = t.parks := by
  induction ps generalizing t with
  | nil => rfl
  | cons p ps ih => exact (ih _).trans rfl
@[simp] theorem Thread.setPreds_frames (t : Thread) (ps : List (Nat × Bool)) : (t.setPreds ps).frames = t.frames := by
  induction ps generalizing t with
  | nil => rfl
  | cons p ps ih => exact (ih _).trans rfl
@[simp] theorem Thread.setPreds_callees (t : Thread) (ps : List (Nat × Bool)) : (t.setPreds ps).callees = t.callees := by
  induction ps generalizing t with
  | nil => rfl
  | cons p ps ih => exact (ih _).trans rfl
@[simp] theorem Thread.setPreds_arrivals (t : Thread) (ps : List (Nat × Bool)) : (t.setPreds ps).arrivals = t.arrivals := by
  induction ps generalizing t with
  | nil => rfl
  | cons p ps ih => exact (ih _).trans rfl
@[simp] theorem Thread.setPreds_engTraps (t : Thread) (ps : List (Nat × Bool)) : (t.setPreds ps).engTraps = t.engTraps := by
  induction ps generalizing t with
  | nil => rfl
  | cons p ps ih => exact (ih _).trans rfl
@[simp] theorem Thread.setPreds_sfuFails (t : Thread) (ps : List (Nat × Bool)) : (t.setPreds ps).sfuFails = t.sfuFails := by
  induction ps generalizing t with
  | nil => rfl
  | cons p ps ih => exact (ih _).trans rfl
@[simp] theorem Thread.setPreds_body (t : Thread) (ps : List (Nat × Bool)) : (t.setPreds ps).body = t.body := by
  induction ps generalizing t with
  | nil => rfl
  | cons p ps ih => exact (ih _).trans rfl

@[simp] theorem Warp.setWregs_lanes (w : Warp) (n : Nat) (xs : List CWord) : (w.setWregs n xs).lanes = w.lanes := by
  induction xs generalizing w n with
  | nil => rfl
  | cons y ys ih => exact (ih _ _).trans rfl
@[simp] theorem Warp.setWregs_wpart (w : Warp) (n : Nat) (xs : List CWord) : (w.setWregs n xs).wpart = w.wpart := by
  induction xs generalizing w n with
  | nil => rfl
  | cons y ys ih => exact (ih _ _).trans rfl
@[simp] theorem Warp.setWregs_tmask (w : Warp) (n : Nat) (xs : List CWord) : (w.setWregs n xs).tmask = w.tmask := by
  induction xs generalizing w n with
  | nil => rfl
  | cons y ys ih => exact (ih _ _).trans rfl
@[simp] theorem Warp.setWregs_loads (w : Warp) (n : Nat) (xs : List CWord) : (w.setWregs n xs).loads = w.loads := by
  induction xs generalizing w n with
  | nil => rfl
  | cons y ys ih => exact (ih _ _).trans rfl
@[simp] theorem Warp.setWregs_asyncs (w : Warp) (n : Nat) (xs : List CWord) : (w.setWregs n xs).asyncs = w.asyncs := by
  induction xs generalizing w n with
  | nil => rfl
  | cons y ys ih => exact (ih _ _).trans rfl
@[simp] theorem Warp.setWregs_next (w : Warp) (n : Nat) (xs : List CWord) : (w.setWregs n xs).next = w.next := by
  induction xs generalizing w n with
  | nil => rfl
  | cons y ys ih => exact (ih _ _).trans rfl

/-! ## What an update writes -/

@[simp] theorem State.setWarp_warps (s : State) (wid : Nat) (w : Warp) : (s.setWarp wid w).warps = s.warps.put wid w := rfl
@[simp] theorem State.setCore_cores (s : State) (c : Nat) (k : Core) :
    (s.setCore c k).cores = KMap.set s.cores c k .reset := rfl

@[simp] theorem State.warp_setWarp (s : State) (wid : Nat) (w : Warp) : (s.setWarp wid w).warp wid = w := by
  simp [State.warp]

theorem State.warp_setWarp_ne (s : State) {wid v : Nat} (w : Warp) (h : v ≠ wid) : (s.setWarp wid w).warp v = s.warp v := by
  simp [State.warp, KMap.getD, KMap.get?_put_ne _ _ h]

/-- A warp that is there, after a change. -/
theorem State.warp_updWarp (s : State) (wid : Nat) (f : Warp → Warp) (h : (s.warps.get? wid).isSome) :
    (s.updWarp wid f).warp wid = f (s.warp wid) := by
  obtain ⟨w, hw⟩ := Option.isSome_iff_exists.1 h
  simp [State.updWarp, hw, State.warp, KMap.getD]

theorem State.warp_updWarp_ne (s : State) {wid v : Nat} (f : Warp → Warp) (h : v ≠ wid) :
    (s.updWarp wid f).warp v = s.warp v := by
  unfold State.updWarp
  split
  · exact State.warp_setWarp_ne s _ h
  · rfl

@[simp] theorem State.updWarp_isSome (s : State) (wid v : Nat) (f : Warp → Warp) :
    ((s.updWarp wid f).warps.get? v).isSome = (s.warps.get? v).isSome := by
  unfold State.updWarp
  split
  · rename_i w hw
    by_cases hv : v = wid
    · subst hv
      simp [hw]
    · simp [KMap.get?_put_ne _ _ hv]
  · rfl

theorem State.core_setCore (s : State) (c d : Nat) (k : Core) : (s.setCore c k).core d = if d = c then k else s.core d := by
  simp only [State.core, State.setCore]
  exact KMap.getD_set _ _ _ _ _

theorem State.core_updCore (s : State) (c d : Nat) (f : Core → Core) :
    (s.updCore c f).core d = if d = c then f (s.core c) else s.core d := State.core_setCore _ _ _ _

@[simp] theorem State.core_updCore_self (s : State) (c : Nat) (f : Core → Core) : (s.updCore c f).core c = f (s.core c) := by
  simp [State.core_updCore]

@[simp] theorem State.warp_updCore (s : State) (c v : Nat) (f : Core → Core) : (s.updCore c f).warp v = s.warp v := rfl
@[simp] theorem State.core_updWarp (s : State) (wid c : Nat) (f : Warp → Warp) : (s.updWarp wid f).core c = s.core c := by
  simp [State.core]

/-! ## Lanes -/

theorem Warp.lane_mapLanes (w : Warp) (f : Nat → Thread → Thread) (l : Nat) (h : l < w.lanes.length) :
    (w.mapLanes f).lane l = f l (w.lane l) := by
  simp [Warp.lane, Warp.mapLanes, List.getElem?_mapIdx, h]

theorem Warp.lane_updLane (w : Warp) (i l : Nat) (f : Thread → Thread) (h : l < w.lanes.length) :
    (w.updLane i f).lane l = if l = i then f (w.lane l) else w.lane l := Warp.lane_mapLanes w _ l h

@[simp] theorem Warp.length_mapLanes (w : Warp) (f : Nat → Thread → Thread) :
    (w.mapLanes f).lanes.length = w.lanes.length := by
  simp [Warp.mapLanes]

@[simp] theorem Warp.length_updLane (w : Warp) (i : Nat) (f : Thread → Thread) :
    (w.updLane i f).lanes.length = w.lanes.length := Warp.length_mapLanes w _

@[simp] theorem Warp.lane_setWreg (w : Warp) (n l : Nat) (x : CWord) : (w.setWreg n x).lane l = w.lane l := rfl
@[simp] theorem Warp.lane_setWregs (w : Warp) (n l : Nat) (xs : List CWord) : (w.setWregs n xs).lane l = w.lane l := by
  simp [Warp.lane]

theorem Thread.reg_setReg (t : Thread) (m n : Nat) (w : CWord) : (t.setReg n w).reg m = if m = n then w else t.reg m :=
  KMap.getD_set _ _ _ _ _

/-- Registers outside consecutive written ones read as before. -/
theorem Thread.reg_setRegs_ne (t : Thread) (m n : Nat) (ws : List CWord) (h : m < n ∨ n + ws.length ≤ m) :
    (t.setRegs n ws).reg m = t.reg m := by
  induction ws generalizing t n with
  | nil => rfl
  | cons w ws ih =>
    simp only [List.length_cons] at h
    rw [Thread.setRegs, ih _ _ (by omega), Thread.reg_setReg, if_neg (by omega)]

/-- The first of consecutive written registers. -/
theorem Thread.reg_setRegs_head (t : Thread) (n : Nat) (w : CWord) (ws : List CWord) : (t.setRegs n (w :: ws)).reg n = w := by
  rw [Thread.setRegs, Thread.reg_setRegs_ne _ _ _ _ (by omega), Thread.reg_setReg, if_pos rfl]

theorem Warp.wreg_setWreg (w : Warp) (m n : Nat) (x : CWord) : (w.setWreg n x).wreg m = if m = n then x else w.wreg m :=
  KMap.getD_set _ _ _ _ _

end Sys2Proof.Machine
end

