-- ==== Sys2Proof/Laws/Lanewise.lean ====
section
/-!
SUPPORT. What the shared operations of the lane-wise families do when nothing stands in the way: the checks at decode
pass (`issue_next`), and the bundle's lanes take their results and move on (`lanewiseOn_next`).
-/

namespace Sys2Proof.Machine

/-! ## Masks -/

theorem mem_lanesOf {m : Word} {l : Nat} : l ∈ lanesOf m ↔ l < 32 ∧ m.getLsbD l = true := by
  simp [lanesOf]

theorem getLsbD_one_shift {w : Nat} (n k : Nat) (hk : k < w) : ((1#w) <<< n).getLsbD k = decide (k = n) := by
  rw [BitVec.getLsbD_shiftLeft, BitVec.getLsbD_one]
  rcases Nat.lt_trichotomy k n with h | h | h
  · simp [h]; omega
  · subst h; simp [hk]; omega
  · have h1 : ¬ k < n := by omega
    have h2 : ¬ k - n = 0 := by omega
    have h3 : ¬ k = n := by omega
    simp [h2, h3]

theorem getLsbD_maskFold (p : Nat → Bool) (n k : Nat) (m : Word) (hn : n ≤ 32) (hk : k < 32) :
    ((List.range n).foldl (fun (m : Word) i => if p i then m ||| (1 <<< i) else m) m).getLsbD k
      = (m.getLsbD k || (decide (k < n) && p k)) := by
  induction n with
  | zero => simp
  | succ n ih =>
    rw [List.range_succ, List.foldl_append, List.foldl_cons, List.foldl_nil]
    have h1 : (((1 <<< n : Nat)) : Word).getLsbD k = decide (k = n) := by
      rw [BitVec.natCast_eq_ofNat, BitVec.getLsbD_ofNat, Nat.one_shiftLeft, Nat.testBit_two_pow]
      simp [hk, eq_comm]
    have h2 : k ≠ n → decide (k < n + 1) = decide (k < n) := fun h => by simp; omega
    split
    · rename_i hp
      rw [BitVec.getLsbD_or, ih (by omega), h1]
      by_cases hkn : k = n
      · subst hkn; simp [hp]
      · rw [h2 hkn]; simp [hkn]
    · rename_i hp
      rw [ih (by omega)]
      by_cases hkn : k = n
      · subst hkn; simp [hp]
      · rw [h2 hkn]

/-- A bit of the mask of the lanes that a test names. -/
theorem Warp.getLsbD_maskOf (w : Warp) (p : Nat → Thread → Bool) (k : Nat) (hk : k < 32) :
    (w.maskOf p).getLsbD k = p k (w.lane k) := by
  unfold Warp.maskOf
  rw [getLsbD_maskFold (fun i => p i (w.lane i)) 32 k 0 (by omega) hk]
  simp [hk]

theorem State.getLsbD_qualifying (s : State) (g : BitVec 4) (k : Nat) (hk : k < 32) :
    (s.qualifying g).getLsbD k = (s.active k && (s.curWarp.lane k).guard g) := Warp.getLsbD_maskOf _ _ _ hk

/-! ## Writing -/

theorem Thread.reg_setRegs (t : Thread) (n m : Nat) (ws : List CWord) :
    (t.setRegs n ws).reg m = if n ≤ m ∧ m < n + ws.length then ws.getD (m - n) .zero else t.reg m := by
  induction ws generalizing t n with
  | nil => simp [Thread.setRegs, show ¬(n ≤ m ∧ m < n) by omega]
  | cons w ws ih =>
    rw [Thread.setRegs, ih, Thread.reg_setReg]
    simp only [List.length_cons]
    by_cases h : m = n
    · subst h; simp
    · by_cases h1 : n + 1 ≤ m ∧ m < n + 1 + ws.length
      · rw [if_pos h1, if_pos (by omega), show m - n = (m - (n + 1)) + 1 by omega, List.getD_cons_succ]
      · rw [if_neg h1, if_neg h, if_neg (by omega)]

theorem Warp.wreg_setWregs (w : Warp) (n m : Nat) (ws : List CWord) :
    (w.setWregs n ws).wreg m = if n ≤ m ∧ m < n + ws.length then ws.getD (m - n) .zero else w.wreg m := by
  induction ws generalizing w n with
  | nil => simp [Warp.setWregs, show ¬(n ≤ m ∧ m < n) by omega]
  | cons x ws ih =>
    rw [Warp.setWregs, ih, Warp.wreg_setWreg]
    simp only [List.length_cons]
    by_cases h : m = n
    · subst h; simp
    · by_cases h1 : n + 1 ≤ m ∧ m < n + 1 + ws.length
      · rw [if_pos h1, if_pos (by omega), show m - n = (m - (n + 1)) + 1 by omega, List.getD_cons_succ]
      · rw [if_neg h1, if_neg h, if_neg (by omega)]

theorem getLsbD_setBit12 (x : BitVec 12) (n k : Nat) (b : Bool) (hk : k < 12) :
    (setBit12 x n b).getLsbD k = if k = n then b else x.getLsbD k := by
  have h1 := getLsbD_one_shift (w := 12) n k hk
  unfold setBit12
  cases b
  · simp only [Bool.false_eq_true, if_false, BitVec.getLsbD_and, BitVec.getLsbD_not, h1]
    by_cases h : k = n <;> simp [h]
    omega
  · simp only [if_true, BitVec.getLsbD_or, h1]
    by_cases h : k = n <;> simp [h]

theorem Thread.pred_setPreds (t : Thread) (ps : List (Nat × Bool)) (k : Nat) (hk : k < 12) (hn : (ps.map (·.1)).Nodup) :
    (t.setPreds ps).preds.getLsbD k = ((ps.find? fun x => x.1 == k).map (·.2)).getD (t.preds.getLsbD k) ∧
      (t.setPreds ps).preds'.getLsbD k = ((ps.find? fun x => x.1 == k).map (·.2)).getD (t.preds'.getLsbD k) := by
  induction ps generalizing t with
  | nil => simp [Thread.setPreds]
  | cons p ps ih =>
    obtain ⟨n, b⟩ := p
    simp only [List.map_cons, List.nodup_cons] at hn
    obtain ⟨h1, h2⟩ := ih (t.setPred n b) hn.2
    have e1 : (t.setPred n b).preds.getLsbD k = if k = n then b else t.preds.getLsbD k := getLsbD_setBit12 _ _ _ _ hk
    have e2 : (t.setPred n b).preds'.getLsbD k = if k = n then b else t.preds'.getLsbD k := getLsbD_setBit12 _ _ _ _ hk
    rw [Thread.setPreds, h1, h2, e1, e2, List.find?_cons]
    by_cases h : n = k
    · subst h
      have : ps.find? (fun x => x.1 == n) = none := by
        rw [List.find?_eq_none]
        intro x hx hxn
        exact hn.1 (List.mem_map.2 ⟨x, hx, by simpa using hxn⟩)
      simp [this]
    · have hb : (n == k) = false := by simpa using h
      simp [hb, Ne.symm h]

theorem Thread.setPreds_eq (t : Thread) (ps : List (Nat × Bool)) :
    t.setPreds ps = { t with preds := (t.setPreds ps).preds, preds' := (t.setPreds ps).preds' } := by
  induction ps generalizing t with
  | nil => rfl
  | cons p ps ih => obtain ⟨n, b⟩ := p; rw [Thread.setPreds, ih]; rfl

theorem Thread.setRegs_eq (t : Thread) (n : Nat) (ws : List CWord) :
    t.setRegs n ws = { t with regs := (t.setRegs n ws).regs } := by
  induction ws generalizing t n with
  | nil => rfl
  | cons w ws ih => rw [Thread.setRegs, ih]; rfl

/-- What `Thread.write` followed by `Thread.goto` leaves. -/
theorem Thread.took_write (t : Thread) (f : Fields) (r : Res) (next : Addr) (st : Status) (pk : Bool) (hn : (r.preds.map (·.1)).Nodup) :
    t.Took { (t.write f r).goto next with status := st, parks := pk } f r := by
  have hp := Thread.setPreds_eq t r.preds
  refine ⟨?_, fun k => ?_, fun k hk => ?_, fun k hk => ?_, ?_⟩
  · unfold Thread.KeptBut Thread.write Thread.goto
    split
    · rw [hp]
    · rw [Thread.setRegs_eq, hp]
  · simp only [Thread.write, Thread.goto, Thread.regAfter]
    split
    · simp [Thread.reg]
    · have := Thread.reg_setRegs { t.setPreds r.preds with fflags := t.fflags ||| r.flags } f.d.toNat k r.dst
      simp only [Thread.reg] at this ⊢
      rw [this]
      simp
  · have h := (Thread.pred_setPreds t r.preds k hk hn).1
    simp only [Thread.write, Thread.goto, Thread.pred, Thread.predAfter]
    split
    · exact h
    · rw [Thread.setRegs_eq]; exact h
  · obtain ⟨h1, h2⟩ := Thread.pred_setPreds t r.preds k hk hn
    have key : (t.setPreds r.preds).predBad k = if r.preds.any (fun x => x.1 == k) then false else t.predBad k := by
      simp only [Thread.predBad, h1, h2]
      cases hf : r.preds.find? (fun x => x.1 == k) with
      | none =>
        have : r.preds.any (fun x => x.1 == k) = false := by
          rw [List.find?_eq_none] at hf
          rw [List.any_eq_false]
          exact hf
        simp [this]
      | some x =>
        have : r.preds.any (fun x => x.1 == k) = true := by
          rw [List.any_eq_true]
          exact ⟨x, List.mem_of_find?_eq_some hf, by simpa using List.find?_some hf⟩
        simp [this]
    rw [← key]
    simp only [Thread.write, Thread.goto, Thread.predBad]
    split
    · rfl
    · rw [Thread.setRegs_eq]
  · simp only [Thread.write, Thread.goto]
    split
    · rfl
    · rw [Thread.setRegs_eq]

/-! ## The checks at decode -/

/-- An instruction that decodes without complaint goes on to its effect (R142). -/
theorem State.issue_next {s : State} {op : Op} {f : Fields} (h : s.Decodes op f) (k : State → Out) :
    s.issue op f [] k = k s := by
  unfold State.issue
  rw [List.append_nil, h.1]
  simp [h.2]

@[simp] theorem State.injection_quiet {s : State} (h : s.Quiet) (n : Nat) (g : BitVec 4) : s.injection n g = none := by
  have hv : (s.core s.curCore).finj.toNat % 2 = 0 := by
    have : (s.core s.curCore).finj.getLsbD 0 = false := h
    rw [BitVec.getLsbD, Nat.testBit_zero] at this
    simpa using this
  simp [State.injection, Core.injection, hv]

/-- With no injection armed no instruction takes one. -/
@[simp] theorem State.shot_quiet {s : State} (h : s.Quiet) (f : Fields) (k : RClass) (xs : List Lane) : s.shot f k xs = none := by
  unfold State.shot
  cases k.icls with
  | none => rfl
  | some n => simp [State.injection_quiet h]

@[simp] theorem State.afterInjection_none (s : State) : s.afterInjection none = s := rfl

/-- The check before write-back passes a lane whose words are good (R107). -/
theorem Lane.checked_eq {x : Lane} {k : RClass} (h : ∀ r, x = .done r → k = .p ∨ k = .c → ∀ w ∈ r.covered, w.wellFormed = true)
    (load inj : Bool) (pc : BitVec 64) : x.checked k load inj pc = x := by
  unfold Lane.checked
  cases x with
  | done r =>
    dsimp only
    split
    · next hk =>
      have hk' : k = .p ∨ k = .c := by simpa using hk
      have : (r.covered.zipIdx).find? (fun w => !w.1.wellFormed) = none := by
        rw [List.find?_eq_none]
        rintro ⟨w, i⟩ hw
        have := h r rfl hk' w ((List.mem_zipIdx' hw).2 ▸ List.getElem_mem _)
        simp [this]
      rw [this]
    · rfl
  | _ => rfl

/-- Without an injection, and with good words, the lanes stand as they are (R107). -/
theorem State.verify_none {s : State} {k : RClass} {xs : List Lane}
    (h : ∀ x ∈ xs, ∀ r, x = .done r → k = .p ∨ k = .c → ∀ w ∈ r.covered, w.wellFormed = true) (load : Bool) :
    s.verify k load none xs = xs := by
  apply List.ext_getElem
  · simp [State.verify]
  · intro i h1 h2
    simp only [State.verify, List.getElem_mapIdx, Option.filter_none]
    exact Lane.checked_eq (h _ (List.getElem_mem h2)) _ _ _

/-! ## Moving on -/

/-- What a switch marker may leave of a lane: its status or the mark that it parks later. -/
theorem Thread.marked_eq (t : Thread) (busy : Bool) :
    t.marked busy = { t with status := (t.marked busy).status, parks := (t.marked busy).parks } ∧
      ((t.marked busy).status = t.status ∨ (t.marked busy).status = .parked) := by
  unfold Thread.marked
  constructor
  · split <;> (try split) <;> rfl
  · split <;> (try split) <;> simp_all

/-- After an instruction without traps the core has counted a bundle and the marker may have parked lanes. -/
theorem State.finish_nil (s : State) (f : Fields) :
    s.finish f [] = (s.updCore s.curCore fun c => { c with issued := c.issued + 1 }) ∨
      ∃ busy, s.finish f [] = (s.updCore s.curCore fun c => { c with issued := c.issued + 1 }).updWarp s.cur.wid fun w =>
        w.mapLanes fun l t => if s.active l then t.marked busy else t := by
  have hm : s.cur.mask &&& ~~~(maskOfLanes ((([] : List (Nat × Trap))).map (·.1))) = s.cur.mask := by
    have h : ~~~(0 : Word) = BitVec.allOnes 32 := rfl
    simp only [List.map_nil, maskOfLanes, List.foldl_nil, h, BitVec.and_allOnes]
  simp only [State.finish, State.finishAt, List.isEmpty_nil, if_true, hm]
  split
  · exact .inr ⟨_, rfl⟩
  · exact .inl rfl

theorem State.finish_nil_warp (s : State) (f : Fields) (h : (s.warps.get? s.cur.wid).isSome = true) :
    ∃ (st : Thread → Status) (pk : Thread → Bool), (∀ t, st t = t.status ∨ st t = .parked) ∧
      (s.finish f []).warp s.cur.wid = (s.warp s.cur.wid).mapLanes fun l t =>
        if s.active l then { t with status := st t, parks := pk t } else t := by
  rcases State.finish_nil s f with e | ⟨busy, e⟩
  · refine ⟨fun t => t.status, fun t => t.parks, fun _ => .inl rfl, ?_⟩
    rw [e, State.warp_updCore]
    have : (fun (l : Nat) (t : Thread) => if s.active l = true then { t with status := t.status, parks := t.parks } else t) =
        fun _ t => t := by
      funext l t
      split <;> rfl
    rw [this, Warp.mapLanes]
    simp [List.mapIdx_eq_zipIdx_map]
  · refine ⟨fun t => (t.marked busy).status, fun t => (t.marked busy).parks, fun t => (t.marked_eq busy).2, ?_⟩
    rw [e, State.warp_updWarp _ _ _ (by simpa using h), State.warp_updCore]
    congr 1
    funext l t
    split
    · exact (t.marked_eq busy).1
    · rfl

/-- Apart from the bundle's warp, an instruction without traps changes only its core's count of issued bundles. -/
theorem State.finish_nil_rest (s : State) (f : Fields) :
    s.SameDevice (s.finish f []) ∧ s.SameElsewhere (s.finish f []) := by
  rcases State.finish_nil s f with e | ⟨busy, e⟩ <;> rw [e]
  · refine ⟨?_, fun v _ => rfl, fun c hc => ?_, ?_⟩
    · simp [State.SameDevice, State.updCore, State.setCore]
    · rw [State.core_updCore, if_neg hc]
    · rw [State.core_updCore_self]
  · refine ⟨?_, fun v hv => ?_, fun c hc => ?_, ?_⟩
    · simp only [State.SameDevice, State.updWarp, State.updCore, State.setCore]
      split <;> rfl
    · rw [State.warp_updWarp_ne _ _ hv]; rfl
    · rw [State.core_updWarp, State.core_updCore, if_neg hc]
    · rw [State.core_updWarp, State.core_updCore_self]

theorem State.sameDevice_iff {s t : State} : s.SameDevice t ↔ ∃ w c, t = { s with warps := w, cores := c } := by
  constructor
  · exact fun h => ⟨_, _, h⟩
  · rintro ⟨w, c, rfl⟩
    rfl

theorem State.SameDevice.trans {s t u : State} (h : s.SameDevice t) (h' : t.SameDevice u) : s.SameDevice u := by
  obtain ⟨w, c, rfl⟩ := State.sameDevice_iff.1 h
  obtain ⟨w', c', rfl⟩ := State.sameDevice_iff.1 h'
  exact State.sameDevice_iff.2 ⟨w', c', rfl⟩

/-! ## Lanes -/

/-- The lanes of an instruction whose bundle it completes. -/
theorem runLane_ok {s : State} {op : Op} {f : Fields} {src : Thread → List Source} {body : Ins → Except Trap Res}
    {g : Nat → Res} (hc : s.Clear op f) (hr : s.Reads f src)
    (hb : ∀ l < 32, s.Runs f l → body (insOf l (s.curWarp.lane l) (src (s.curWarp.lane l))) = .ok (g l)) (l : Nat) (hl : l < 32) :
    runLane f s.cur.mask s.pc64 src body l (s.curWarp.lane l) =
      if s.active l then if (s.curWarp.lane l).guard f.g then .done (g l) else .skip else .idle := by
  unfold runLane
  by_cases ha : s.active l = true
  · have hm : s.cur.mask.getLsbD l = true := ha
    rw [hm, hc.2.2.1 l hl ha, ha]
    by_cases hg : (s.curWarp.lane l).guard f.g = true
    · rw [hg, hr l hl ⟨ha, hg⟩]
      simp [hb l hl ⟨ha, hg⟩]
    · simp [hg]
  · have hm : s.cur.mask.getLsbD l = false := by simpa [State.active] using ha
    simp [hm, ha]

theorem trapsOf_nil (xs : List Lane) (h : ∀ x ∈ xs, ∀ t, x ≠ .trap t) : trapsOf xs = [] := by
  unfold trapsOf
  rw [List.filterMap_eq_nil_iff]
  rintro ⟨x, i⟩ hx
  have hm : x ∈ xs := (List.mem_zipIdx' hx).2 ▸ List.getElem_mem _
  cases x with
  | trap t => exact absurd rfl (h _ hm t)
  | _ => rfl

theorem uniformResult_eq (q : Nat → Bool) (g : Nat → Res) (n : Nat) (hn : n ≠ 0) (hg : ∀ i, q i = true → (g i).dst.length = n)
    (xs : List Lane) (k : Nat) (h : ∀ i (hi : i < xs.length), xs[i] = if q (k + i) then .done (g (k + i)) else xs[i])
    (h' : ∀ i (hi : i < xs.length), q (k + i) = false → ∀ r, xs[i] ≠ .done r) :
    uniformResult xs = ((List.range' k xs.length).filter q).head?.map fun l => (g l).dst := by
  induction xs generalizing k with
  | nil => rfl
  | cons x xs ih =>
    have hx := h 0 (by simp)
    have hx' := h' 0 (by simp)
    simp only [List.getElem_cons_zero, Nat.add_zero] at hx hx'
    have ih' := ih (k + 1)
      (fun i hi => by have := h (i + 1) (by simpa using hi); simpa [Nat.add_assoc, Nat.add_comm 1 i] using this)
      (fun i hi => by have := h' (i + 1) (by simpa using hi); simpa [Nat.add_assoc, Nat.add_comm 1 i] using this)
    rw [List.length_cons, List.range'_succ, List.filter_cons]
    by_cases hq : q k = true
    · rw [if_pos hq] at hx
      subst hx
      have : (g k).dst.isEmpty = false := by
        rw [List.isEmpty_eq_false_iff_exists_mem]
        have := hg k hq
        exact List.exists_mem_of_length_pos (by omega)
      simp [uniformResult, this, hq]
    · have hq' : q k = false := by simpa using hq
      rw [hq']
      cases x with
      | done r => exact absurd rfl (hx' hq' r)
      | _ => simpa [uniformResult] using ih'

theorem uniformResult_nil (xs : List Lane) (h : ∀ x ∈ xs, ∀ r, x = .done r → r.dst = []) : uniformResult xs = none := by
  induction xs with
  | nil => rfl
  | cons x xs ih =>
    have ih' := ih fun y hy => h y (by simp [hy])
    cases x with
    | done r => simp [uniformResult, h _ (by simp) r rfl, ih']
    | _ => simpa [uniformResult] using ih'

/-- Lane results written back without a trap: each lane that runs takes its result, and nothing else changes. -/
theorem State.commit_wrote {s : State} {f : Fields} {g : Nat → Res} {n : Nat} (xs : List Lane) (hb : s.Bundled) (hxl : xs.length = 32)
    (hx : ∀ l (h : l < 32), xs[l]'(by omega) =
      if s.active l then if (s.curWarp.lane l).guard f.g then .done (g l) else .skip else .idle)
    (hn : ∀ l < 32, s.Runs f l → (g l).dst.length = n) (hp : ∀ l < 32, s.Runs f l → ((g l).preds.map (·.1)).Nodup) :
    s.Wrote (s.commit f xs) f g := by
  obtain ⟨hw, h32⟩ := hb
  have hxD : ∀ l < 32, xs.getD l .idle =
      if s.active l then if (s.curWarp.lane l).guard f.g then .done (g l) else .skip else .idle := by
    intro l h
    rw [List.getD_eq_getElem _ _ (by omega), hx l h]
  have htr : trapsOf xs = [] := by
    apply trapsOf_nil
    intro x hm t
    obtain ⟨l, hl, rfl⟩ := List.getElem_of_mem hm
    rw [hx l (by omega)]
    split <;> [split <;> simp; simp]
  -- the state
  let w' := s.curWarp.commit f (s.nextPc f) xs
  let s1 := s.updWarp s.cur.wid fun w => w.commit f (s.nextPc f) xs
  have hs1 : s1.warp s.cur.wid = w' := State.warp_updWarp _ _ _ hw
  have hs1' : (s1.warps.get? s.cur.wid).isSome = true := by
    simp only [s1, State.updWarp]
    cases h : s.warps.get? s.cur.wid with
    | none => simp [h] at hw
    | some v => simp [State.setWarp]
  have hfin : s.commit f xs = s1.finish f [] := by
    rw [State.commit, htr]
  rw [hfin]
  have hcur : s1.cur = s.cur := by simp [s1]
  obtain ⟨st, pk, -, hst⟩ := State.finish_nil_warp s1 f (by rw [hcur]; exact hs1')
  rw [hcur, hs1] at hst
  have hact : ∀ l, s1.active l = s.active l := fun l => by simp [State.active, hcur]
  obtain ⟨hdev, helse⟩ := State.finish_nil_rest s1 f
  have hlen : w'.lanes.length = 32 := by
    simp only [w', Warp.commit]
    split
    · split
      · simp [h32]
      · simp [h32]
    · simp [h32]
  have hwl : ∀ l < 32, w'.lane l = (xs.getD l .idle).apply f (s.nextPc f) (s.curWarp.lane l) := by
    intro l hl
    simp only [w', Warp.commit]
    split
    · split
      · rw [Warp.lane_setWregs, Warp.lane_mapLanes _ _ _ (by omega)]
      · rw [Warp.lane_mapLanes _ _ _ (by omega)]
    · rw [Warp.lane_mapLanes _ _ _ (by omega)]
  have hl' : ∀ l < 32, ((s1.finish f []).warp s.cur.wid).lane l =
      if s.active l then { w'.lane l with status := st (w'.lane l), parks := pk (w'.lane l) } else w'.lane l := by
    intro l hl
    rw [hst, Warp.lane_mapLanes _ _ _ (by omega), hact]
  have hcore : ∀ c, s1.core c = s.core c := fun c => State.core_updWarp _ _ _ _
  have hcc : s1.curCore = s.curCore := by simp [State.curCore, hcur]
  refine ⟨fun l hl ha => ?_, fun l hl ha => ?_, ?_, ⟨fun v hv => ?_, fun c hc' => ?_, ?_⟩, ?_, fun l hl hrun => ?_,
    fun l hl ha hg' => ?_, fun r => ?_⟩
  · rw [hl' l hl, if_pos ha, hwl l hl, hxD l hl, if_pos ha]
    split
    · simp only [Lane.apply, Thread.goto, Thread.write, true_and]
      split
      · rw [Thread.setPreds_eq]
      · rw [Thread.setRegs_eq, Thread.setPreds_eq]
    · simp [Lane.apply, Thread.goto]
  · rw [hl' l hl, if_neg (by simp [ha]), hwl l hl, hxD l hl, if_neg (by simp [ha])]
    rfl
  · refine State.SameDevice.trans (State.sameDevice_iff.2 ⟨s1.warps, s.cores, ?_⟩) hdev
    simp only [s1, State.updWarp]
    split <;> rfl
  · rw [helse.1 v (by rw [hcur]; exact hv)]
    simp only [s1]
    rw [State.warp_updWarp_ne _ _ hv]
  · rw [helse.2.1 c (by rw [hcc]; exact hc'), hcore]
  · have := helse.2.2
    rw [hcc, hcore] at this
    exact this
  · show (s1.finish f []).warp s.cur.wid = _
    have hww : w' = { s.curWarp with lanes := w'.lanes, wregs := w'.wregs } := by
      simp only [w', Warp.commit]
      split
      · split
        · have hk : ∀ (w : Warp) (n : Nat) (ws : List CWord), w.setWregs n ws = { w with wregs := (w.setWregs n ws).wregs } := by
            intro w n ws
            induction ws generalizing w n with
            | nil => rfl
            | cons x ws ih => rw [Warp.setWregs, ih]; rfl
          rw [hk]
          rfl
        · rfl
      · rfl
    rw [hst]
    simp only [Warp.mapLanes]
    rw [hww]
  · have := Thread.took_write (s.curWarp.lane l) f (g l) (s.nextPc f) (st (w'.lane l)) (pk (w'.lane l)) (hp l hl hrun)
    rw [hl' l hl, if_pos hrun.1, hwl l hl, hxD l hl, if_pos hrun.1, if_pos hrun.2]
    rw [hwl l hl, hxD l hl, if_pos hrun.1, if_pos hrun.2] at this
    exact this
  · rw [hl' l hl, if_pos ha, hwl l hl, hxD l hl, if_pos ha, if_neg (by simp [hg'])]
    simp [Lane.apply, Thread.goto, Thread.KeptAll]
  · have hwr : ((s1.finish f []).warp s.cur.wid).wreg r = w'.wreg r := by rw [hst]; rfl
    rw [hwr]
    have hq' : ∀ i < 32, (s.qualifying f.g).getLsbD i = (s.active i && (s.curWarp.lane i).guard f.g) :=
      fun i hi => State.getLsbD_qualifying s f.g i hi
    let q : Nat → Bool := fun i => decide (i < 32) && (s.qualifying f.g).getLsbD i
    have hqr : ∀ i, q i = true → i < 32 ∧ s.Runs f i := by
      intro i hi
      simp only [q, Bool.and_eq_true, decide_eq_true_eq] at hi
      rw [hq' i hi.1] at hi
      exact ⟨hi.1, by simpa using hi.2⟩
    have hlow : lowestLane (s.qualifying f.g) = ((List.range' 0 xs.length).filter q).head? := by
      rw [hxl]
      simp only [lowestLane, lanesOf, List.range_eq_range']
      congr 1
    have hqx : ∀ i (hi : i < xs.length), xs[i] = if q (0 + i) then .done (g (0 + i)) else xs[i] := by
      intro i hi
      rw [Nat.zero_add]
      by_cases h : q i = true
      · rw [if_pos h]
        obtain ⟨h1, h2⟩ := hqr i h
        rw [hx i h1, if_pos h2.1, if_pos h2.2]
      · rw [if_neg h]
    have hqx' : ∀ i (hi : i < xs.length), q (0 + i) = false → ∀ r, xs[i] ≠ .done r := by
      intro i hi h r
      rw [Nat.zero_add] at h
      have h3 : i < 32 := by omega
      simp only [q, h3, decide_true, Bool.true_and, hq' i h3, Bool.and_eq_false_iff] at h
      rw [hx i h3]
      rcases h with h | h <;> simp [h]
      split <;> simp
    simp only [State.wregAfter]
    by_cases hud : f.ud = true
    · by_cases hn0 : n = 0
      · have hnone : uniformResult xs = none := by
          apply uniformResult_nil
          intro x hm r' e
          obtain ⟨i, hi, rfl⟩ := List.getElem_of_mem hm
          by_cases h : q i = true
          · obtain ⟨h1, h2⟩ := hqr i h
            rw [hx i h1, if_pos h2.1, if_pos h2.2] at e
            injection e with e
            subst e
            exact List.eq_nil_of_length_eq_zero (by rw [hn i h1 h2, hn0])
          · exact absurd e (hqx' i hi (by simpa using h) r')
        have e1 : w'.wreg r = s.curWarp.wreg r := by
          simp only [w', Warp.commit, hud, if_true, hnone]
          rfl
        rw [e1]
        cases hlo : lowestLane (s.qualifying f.g) with
        | none => rfl
        | some l =>
          rw [hlow] at hlo
          have hml := List.mem_of_head? hlo
          have hql : q l = true := (List.mem_filter.1 hml).2
          obtain ⟨h1, h2⟩ := hqr l hql
          simp only [hn l h1 h2, hn0]
          rw [if_neg (by omega)]
      · have hu := uniformResult_eq q g n hn0 (fun i hi => hn i (hqr i hi).1 (hqr i hi).2) xs 0 hqx hqx'
        rw [← hlow] at hu
        simp only [w', Warp.commit, hud, if_true, hu]
        cases lowestLane (s.qualifying f.g) with
        | none => rfl
        | some l =>
          simp only [Option.map_some, Warp.wreg_setWregs]
          simp
          rfl
    · have hu : f.ud = false := by simpa using hud
      simp only [w', Warp.commit, hu]
      cases lowestLane (s.qualifying f.g) with
      | none => rfl
      | some l => simp; rfl

/-- An instruction that works lane by lane completes: each lane that runs takes the result of the instruction's function,
and nothing else changes. -/
theorem State.lanewiseOn_next {s : State} {op : Op} {f : Fields} {k : RClass} {src : State → Thread → List Source}
    {body : Ins → Except Trap Res} {g : Nat → Res} {n : Nat} (hc : s.Clear op f) (hr : s.Reads f (src s))
    (hb : ∀ l < 32, s.Runs f l → body (insOf l (s.curWarp.lane l) (src s (s.curWarp.lane l))) = .ok (g l))
    (hn : ∀ l < 32, s.Runs f l → (g l).dst.length = n) (hp : ∀ l < 32, s.Runs f l → ((g l).preds.map (·.1)).Nodup)
    (hw : ∀ l < 32, s.Runs f l → k = .p ∨ k = .c → ∀ w ∈ (g l).covered, w.wellFormed = true) :
    ∃ t, s.lanewiseOn op f k src body = .next t ∧ s.Wrote t f g := by
  have h32 := hc.1.2
  have hq := hc.2.2.2
  let xs := s.runLanes f (src s) body
  have hxl : xs.length = 32 := by simp [xs, State.runLanes, h32]
  have hlane : ∀ l (h : l < 32), s.curWarp.lanes[l]'(by omega) = s.curWarp.lane l := by
    intro l h
    simp [Warp.lane, List.getD, h32, h]
  have hx : ∀ l (h : l < 32), xs[l]'(by omega) =
      if s.active l then if (s.curWarp.lane l).guard f.g then .done (g l) else .skip else .idle := by
    intro l h
    have := runLane_ok hc hr hb l h
    simp only [xs, State.runLanes, List.getElem_mapIdx]
    rw [hlane l h, this]
  have hv : s.verify k false none xs = xs := by
    refine State.verify_none (fun x hx' r e => ?_) false
    obtain ⟨l, hl, rfl⟩ := List.getElem_of_mem hx'
    rw [hx l (by omega)] at e
    split at e
    · next ha =>
      split at e
      · next hg => injection e with e; subst e; exact hw l (by omega) ⟨ha, hg⟩
      · exact Lane.noConfusion e
    · exact Lane.noConfusion e
  refine ⟨s.commit f xs, ?_, State.commit_wrote xs hc.1 hxl hx hn hp⟩
  rw [State.lanewiseOn, State.issue_next hc.2.1]
  dsimp only
  rw [State.shot_quiet hq, State.afterInjection_none, hv]

/-! ## Operands -/

theorem findWord_none {p : CWord → Bool} {ss : List Source} (h : findWord p ss = none) {x : Source} (hx : x ∈ ss) {w : CWord}
    (hw : w ∈ x.words) : p w = false := by
  induction ss with
  | nil => cases hx
  | cons y ys ih =>
    rw [findWord] at h
    split at h
    · cases h
    · next h1 =>
      rw [List.find?_eq_none] at h1
      rcases List.mem_cons.1 hx with rfl | hx
      · obtain ⟨i, hi, rfl⟩ := List.getElem_of_mem hw
        have hm : (x.words[i], i) ∈ x.words.zipIdx := List.mk_mem_zipIdx_iff_getElem?.2 (List.getElem?_eq_getElem hi)
        simpa using h1 _ hm
      · exact ih h hx

/-- Sources that pass the checks of R110 are good words. -/
theorem checkSources_none {ss : List Source} {pc : BitVec 64} (h : checkSources ss pc = none) {x : Source} (hx : x ∈ ss) {w : CWord}
    (hw : w ∈ x.words) : w.wellFormed = true := by
  unfold checkSources at h
  split at h
  · cases h
  · next h1 =>
    split at h
    · cases h
    · next h2 =>
      have hp := findWord_none h1 hx hw
      have hm := findWord_none h2 hx hw
      simpa [CWord.mismatched, hp] using hm

/-- The words of the operands of a lane that runs are good (R110). -/
theorem State.Good.words {s : State} {op : Op} {f : Fields} (h : s.Good op f) (hop : op ≠ .bitfn) {l : Nat} (hl : l < 32)
    (hr : s.Runs f l) {w : CWord} (hw : w ∈ s.opA op f l ∨ w ∈ s.opB op f l ∨ w ∈ s.opC op f l) : w.wellFormed = true := by
  have h1 := h l hl hr
  have hc : sources op f s.curWarp (s.curWarp.lane l) false = [sourceOf s.curWarp (s.curWarp.lane l) f (op.form f).a f.a f.ua
      ((op.form f).slot == 1 && f.im) 0, sourceOf s.curWarp (s.curWarp.lane l) f (op.form f).b f.b f.ub ((op.form f).slot == 2 && f.im) 1,
      sourceOf s.curWarp (s.curWarp.lane l) f (op.form f).c f.c f.uc false 2] := by
    simp [sources, hop]
  have h1 : checkSources (sources op f s.curWarp (s.curWarp.lane l) false) s.pc64 = none := h1
  rw [hc] at h1
  rcases hw with hw | hw | hw
  · exact checkSources_none h1 (by simp) hw
  · exact checkSources_none h1 (x := sourceOf s.curWarp (s.curWarp.lane l) f (op.form f).b f.b f.ub
      ((op.form f).slot == 2 && f.im) 1) (by simp) hw
  · exact checkSources_none h1 (x := sourceOf s.curWarp (s.curWarp.lane l) f (op.form f).c f.c f.uc false 2) (by simp) hw

/-- The first word of an operand is good when its words are: an operand without words reads as a good 0. -/
theorem c0_wellFormed {ws : List CWord} (h : ∀ w ∈ ws, w.wellFormed = true) : (c0 ws).wellFormed = true := by
  cases ws with
  | nil => decide
  | cons w ws => exact h w (by simp)

/-- As `c0_wellFormed`, for the second word. -/
theorem c1_wellFormed {ws : List CWord} (h : ∀ w ∈ ws, w.wellFormed = true) : (c1 ws).wellFormed = true :=
  c0_wellFormed fun w hw => h w (List.mem_of_mem_tail hw)

/-- What a lane reads through its opcode's form. -/
theorem State.insOf_sources (s : State) (op : Op) (f : Fields) (l : Nat) (h : op ≠ .bitfn) :
    insOf l (s.curWarp.lane l) (sources op f s.curWarp (s.curWarp.lane l) false) =
      ⟨l, s.curWarp.lane l, s.opA op f l, s.opB op f l, s.opC op f l, []⟩ := by
  simp [insOf, sources, State.opA, State.opB, State.opC, h]

/-- A lane-wise instruction over the operands of its form completes. -/
theorem State.lanewise_next {s : State} {op : Op} {f : Fields} {k : RClass} {body : Ins → Except Trap Res} {g : Nat → Res}
    {n : Nat} (hop : op ≠ .bitfn) (hc : s.Clear op f) (hr : s.Good op f)
    (hb : ∀ l < 32, s.Runs f l → body ⟨l, s.curWarp.lane l, s.opA op f l, s.opB op f l, s.opC op f l, []⟩ = .ok (g l))
    (hn : ∀ l < 32, s.Runs f l → (g l).dst.length = n) (hp : ∀ l < 32, s.Runs f l → ((g l).preds.map (·.1)).Nodup)
    (hw : ∀ l < 32, s.Runs f l → k = .p ∨ k = .c → ∀ w ∈ (g l).covered, w.wellFormed = true) :
    ∃ t, s.lanewise op f k false body = .next t ∧ s.Wrote t f g :=
  State.lanewiseOn_next hc hr (fun l hl h => by rw [State.insOf_sources _ _ _ _ hop]; exact hb l hl h) hn hp hw

/-- As `lanewise_next`, for a function that cannot trap. -/
theorem State.lanePure_next {s : State} {op : Op} {f : Fields} {k : RClass} {body : Ins → Res} {n : Nat} (hop : op ≠ .bitfn)
    (hc : s.Clear op f) (hr : s.Good op f) (hn : ∀ i, (body i).dst.length = n) (hp : ∀ i, ((body i).preds.map (·.1)).Nodup)
    (hw : ∀ l < 32, s.Runs f l → k = .p ∨ k = .c →
      ∀ w ∈ (body ⟨l, s.curWarp.lane l, s.opA op f l, s.opB op f l, s.opC op f l, []⟩).covered, w.wellFormed = true) :
    ∃ t, s.lanePure op f k body = .next t ∧
      s.Wrote t f fun l => body ⟨l, s.curWarp.lane l, s.opA op f l, s.opB op f l, s.opC op f l, []⟩ :=
  State.lanewise_next hop hc hr (fun _ _ _ => rfl) (fun _ _ _ => hn _) (fun _ _ _ => hp _) hw

end Sys2Proof.Machine
end

