-- ==== Sys2Proof/Laws/Once.lean ====
section
/-!
SUPPORT. What the instructions that act once for a bundle do: the lanes they gather (`gather_ok`), the bundle that moves on
(`onlyMoved_advanceBut`), and the completion of one whose effect is done (`once_done`).
-/

namespace Sys2Proof.Machine

/-! ## Changes of one warp -/

theorem KMap.put_put {α : Type} (m : KMap α) (k : Nat) (v w : α) : (m.put k v).put k w = m.put k w := by
  induction m with
  | nil => simp [KMap.put]
  | cons e m ih =>
    obtain ⟨j, x⟩ := e
    simp only [KMap.put]
    by_cases h : k < j
    · simp [KMap.put, h]
    · by_cases h' : j = k
      · subst h'; simp [KMap.put]
      · simp [KMap.put, h, h', ih]

theorem State.updWarp_updWarp (s : State) (wid : Nat) (f g : Warp → Warp) :
    (s.updWarp wid f).updWarp wid g = s.updWarp wid fun w => g (f w) := by
  unfold State.updWarp
  cases h : s.warps.get? wid with
  | none => simp [h]
  | some w => simp [State.setWarp, KMap.put_put]

theorem State.updWarp_id (s : State) (wid : Nat) (h : (s.warps.get? wid).isSome = true) :
    s.updWarp wid (fun w => w) = s.setWarp wid (s.warp wid) := by
  unfold State.updWarp State.warp KMap.getD
  cases hw : s.warps.get? wid with
  | none => simp [hw] at h
  | some w => rfl

theorem State.updWarp_congr (s : State) (wid : Nat) {f g : Warp → Warp} (h : f (s.warp wid) = g (s.warp wid)) :
    s.updWarp wid f = s.updWarp wid g := by
  unfold State.updWarp
  cases hw : s.warps.get? wid with
  | none => rfl
  | some w =>
    have : s.warp wid = w := by simp [State.warp, KMap.getD, hw]
    rw [this] at h
    simp only [h]

theorem State.isSome_updWarp (s : State) (wid v : Nat) (f : Warp → Warp) (h : (s.warps.get? v).isSome = true) :
    ((s.updWarp wid f).warps.get? v).isSome = true := by
  unfold State.updWarp
  cases hw : s.warps.get? wid with
  | none => exact h
  | some w =>
    simp only [State.setWarp, KMap.get?_put]
    split <;> simp [h]

theorem Warp.mapLanes_mapLanes (w : Warp) (f g : Nat → Thread → Thread) :
    (w.mapLanes f).mapLanes g = w.mapLanes fun l t => g l (f l t) := by
  simp [Warp.mapLanes, List.mapIdx_mapIdx, Function.comp_def]

theorem Warp.mapLanes_congr (w : Warp) {f g : Nat → Thread → Thread} (h : ∀ l < w.lanes.length, f l (w.lane l) = g l (w.lane l)) :
    w.mapLanes f = w.mapLanes g := by
  simp only [Warp.mapLanes]
  congr 1
  apply List.ext_getElem (by simp)
  intro i hi _
  have hi' : i < w.lanes.length := by simpa using hi
  have := h i hi'
  simpa [Warp.lane, hi'] using this

theorem Warp.mapLanes_id (w : Warp) : (w.mapLanes fun _ t => t) = w := by
  simp [Warp.mapLanes, List.mapIdx_eq_zipIdx_map]

/-! ## Moving on -/

/-- A bundle that moves on without traps changes nothing else. -/
theorem State.onlyMoved_advanceBut {s : State} (f : Fields) (h : s.Bundled) : s.OnlyMoved (s.advanceBut f []) (s.nextPc f) := by
  obtain ⟨hw, h32⟩ := h
  let g : Nat → Thread → Thread := fun l t => if s.active l then t.goto (s.nextPc f) else t
  let s1 := s.updWarp s.cur.wid fun w => w.mapLanes g
  have hs : s.advanceBut f [] = s1.finish f [] := by simp [State.advanceBut, s1, g]
  have hcur : s1.cur = s.cur := by simp [s1]
  have hs1 : s1.warp s.cur.wid = s.curWarp.mapLanes g := State.warp_updWarp _ _ _ hw
  have hs1' : (s1.warps.get? s.cur.wid).isSome = true := by
    simp only [s1, State.updWarp]
    cases h : s.warps.get? s.cur.wid with
    | none => simp [h] at hw
    | some v => simp [State.setWarp]
  obtain ⟨st, pk, -, hst⟩ := State.finish_nil_warp s1 f (by rw [hcur]; exact hs1')
  rw [hcur, hs1] at hst
  have hact : ∀ l, s1.active l = s.active l := fun l => by simp [State.active, hcur]
  obtain ⟨hdev, helse⟩ := State.finish_nil_rest s1 f
  have hl' : ∀ l < 32, ((s1.finish f []).warp s.cur.wid).lane l =
      if s.active l then { g l (s.curWarp.lane l) with status := st (g l (s.curWarp.lane l)), parks := pk (g l (s.curWarp.lane l)) }
      else s.curWarp.lane l := by
    intro l hl
    rw [hst, Warp.lane_mapLanes _ _ _ (by simp [h32, hl]), Warp.lane_mapLanes _ _ _ (by omega), hact]
    by_cases ha : s.active l <;> simp [ha, g]
  have hcc : s1.curCore = s.curCore := by simp [State.curCore, hcur]
  have hcore : ∀ c, s1.core c = s.core c := fun c => State.core_updWarp _ _ _ _
  rw [hs]
  refine ⟨fun l hl ha => ?_, fun l hl ha => ?_, ?_, ⟨fun v hv => ?_, fun c hc' => ?_, ?_⟩, ?_, ?_, fun l hl => ?_⟩
  · rw [hl' l hl, if_pos ha]
    simp [g, ha, Thread.goto]
  · rw [hl' l hl, if_neg (by simp [ha])]
  · refine State.SameDevice.trans (State.sameDevice_iff.2 ⟨s1.warps, s.cores, ?_⟩) hdev
    simp only [s1, State.updWarp]
    split <;> rfl
  · rw [helse.1 v (by rw [hcur]; exact hv)]
    simp only [s1]
    rw [State.warp_updWarp_ne _ _ hv]
  · rw [helse.2.1 c (by rw [hcc]; exact hc'), hcore]
  · have := helse.2.2
    rw [hcc, hcore] at this
    exact this
  · show (s1.finish f []).warp s.cur.wid = _
    rw [hst]
    rfl
  · rw [hst]
    rfl
  · rw [hl' l hl]
    by_cases ha : s.active l <;> simp [ha, g, Thread.goto, Thread.KeptAll]

/-- The lanes of a bundle that act, when every guard and every source is good. -/
theorem State.gather_ok {s : State} {f : Fields} {src : Thread → List Source} (hg : s.Guards f) (hr : s.Reads f src) :
    s.gather f src = ((s.running f).map fun l => insOf l (s.curWarp.lane l) (src (s.curWarp.lane l)), []) := by
  have key : ∀ (ls : List Nat) (acc : List Ins), (∀ l ∈ ls, l < 32 ∧ s.active l = true) →
      ls.foldl (fun (acc : List Ins × List (Nat × Trap)) l =>
        let t := s.curWarp.lane l
        if f.g != 15 && t.predBad f.g.toNat then (acc.1, acc.2 ++ [(l, predTrap s.pc64)])
        else if !t.guard f.g then acc
        else
          match checkSources (src t) s.pc64 with
          | some tr => (acc.1, acc.2 ++ [(l, tr)])
          | none => (acc.1 ++ [insOf l t (src t)], acc.2)) (acc, []) =
        (acc ++ (ls.filter fun l => (s.curWarp.lane l).guard f.g).map fun l =>
          insOf l (s.curWarp.lane l) (src (s.curWarp.lane l)), []) := by
    intro ls
    induction ls with
    | nil => intro acc _; simp
    | cons l ls ih =>
      intro acc h
      obtain ⟨hl, ha⟩ := h l (by simp)
      have ih' := fun acc => ih acc fun x hx => h x (by simp [hx])
      rw [List.foldl_cons]
      simp only [hg l hl ha]
      by_cases hgd : (s.curWarp.lane l).guard f.g = true
      · simp only [hgd, hr l hl ⟨ha, hgd⟩, Bool.not_true, Bool.false_eq_true, if_false]
        rw [ih']
        simp [hgd]
      · have hgd' : (s.curWarp.lane l).guard f.g = false := by simpa using hgd
        simp only [hgd', Bool.not_false, Bool.false_eq_true, if_false, if_true]
        rw [ih']
        simp [hgd']
  have hact : ∀ l ∈ lanesOf s.cur.mask, l < 32 ∧ s.active l = true := fun l h => mem_lanesOf.1 h
  unfold State.gather
  refine (key _ [] hact).trans ?_
  have : s.running f = (lanesOf s.cur.mask).filter fun l => (s.curWarp.lane l).guard f.g := by
    simp only [State.running, lanesOf, List.filter_filter]
    apply List.filter_congr
    intro l hl
    rw [State.getLsbD_qualifying _ _ _ (by simpa using hl), Bool.and_comm]
    rfl
  rw [this]
  simp

/-- An instruction that acts once, and whose effect is done, completes: the effect, and the bundle moves on. -/
theorem State.once_done {s u : State} {op : Op} {f : Fields} {more : List Nat} {whole : Bool}
    {src : State → Thread → List Source} {body : State → Ins → List Ins → Did} {l : Nat} {ls : List Nat}
    (hc : s.Clear op f) (hm : more = []) (hr : s.Reads f (src s)) (hl : s.running f = l :: ls)
    (hb : body s (insOf l (s.curWarp.lane l) (src s (s.curWarp.lane l)))
      ((s.running f).map fun k => insOf k (s.curWarp.lane k) (src s (s.curWarp.lane k))) = .done u) :
    s.once op f more whole src body = .next (u.advanceBut f []) := by
  subst hm
  unfold State.once
  rw [State.issue_next hc.2.1]
  simp only [State.gather_ok hc.2.2.1 hr]
  rw [hl, List.map_cons] at hb ⊢
  simp only [hb]

/-- An instruction that acts once and for which no lane qualifies only moves on. -/
theorem State.once_none {s : State} {op : Op} {f : Fields} {whole : Bool} {src : State → Thread → List Source}
    {body : State → Ins → List Ins → Did} (hc : s.Clear op f) (hl : s.running f = []) :
    s.once op f [] whole src body = .next (s.advanceBut f []) := by
  have hr : s.Reads f (src s) := by
    intro l h32 hrun
    have : l ∈ s.running f := mem_lanesOf.2 ⟨h32, by rw [State.getLsbD_qualifying _ _ _ h32, hrun.1, hrun.2]; rfl⟩
    rw [hl] at this
    simp at this
  unfold State.once
  rw [State.issue_next hc.2.1]
  simp only [State.gather_ok hc.2.2.1 hr, hl, List.map_nil]

/-! ## A result for the bundle -/

theorem State.mem_running {s : State} {f : Fields} {l : Nat} : l ∈ s.running f ↔ l < 32 ∧ s.Runs f l := by
  simp only [State.running, mem_lanesOf]
  constructor
  · rintro ⟨h, h'⟩
    rw [State.getLsbD_qualifying _ _ _ h] at h'
    exact ⟨h, by simpa using h'⟩
  · rintro ⟨h, h'⟩
    exact ⟨h, by rw [State.getLsbD_qualifying _ _ _ h]; simpa using h'⟩

/-- A word given to every lane that runs, and the bundle moving on, is one result that each of them takes (R26). -/
theorem State.wrote_give {s : State} {f : Fields} (x : CWord) (hb : s.Bundled) (hne : s.running f ≠ []) :
    s.Wrote ((s.give f (s.running f) x).advanceBut f []) f fun _ => { dst := [x] } := by
  let xs : List Lane := (List.range 32).map fun l =>
    if s.active l then if (s.curWarp.lane l).guard f.g then .done { dst := [x] } else .skip else .idle
  have hxl : xs.length = 32 := by simp [xs]
  have hx : ∀ l (h : l < 32), xs[l]'(by omega) =
      if s.active l then if (s.curWarp.lane l).guard f.g then .done { dst := [x] } else .skip else .idle := by
    intro l h; simp [xs]
  have htr : trapsOf xs = [] := by
    apply trapsOf_nil
    intro y hm t
    obtain ⟨l, hl, rfl⟩ := List.getElem_of_mem hm
    rw [hx l (by omega)]
    split <;> [split <;> simp; simp]
  have hu : f.ud = true → uniformResult xs = (s.running f).head?.map fun _ => [x] := by
    intro _
    have h := uniformResult_eq (fun i => decide (i < 32) && (s.qualifying f.g).getLsbD i) (fun _ => { dst := [x] }) 1 (by omega)
      (fun _ _ => rfl) xs 0 (fun i hi => by
        rw [Nat.zero_add, hx i (by omega), State.getLsbD_qualifying _ _ _ (by omega)]
        by_cases h1 : s.active i <;> by_cases h2 : (s.curWarp.lane i).guard f.g <;> simp [h1, h2, show i < 32 by omega])
      (fun i hi h r => by
        rw [Nat.zero_add, State.getLsbD_qualifying _ _ _ (by omega)] at h
        rw [hx i (by omega)]
        by_cases h1 : s.active i <;> by_cases h2 : (s.curWarp.lane i).guard f.g <;> simp_all)
    rw [h, hxl]
    simp only [State.running, lanesOf, List.range_eq_range']
    rfl
  have heq : (s.give f (s.running f) x).advanceBut f [] = s.commit f xs := by
    have hcur : (s.give f (s.running f) x).cur = s.cur := by simp [State.give]
    rw [State.commit, htr, State.advanceBut]
    simp only [State.active, hcur, State.nextPc]
    rw [State.give, State.updWarp_updWarp]
    congr 1
    apply State.updWarp_congr
    have h32 := hb.2
    simp only [Warp.commit]
    have hlane : ∀ l < 32, (xs.getD l .idle).apply f (s.nextPc f) (s.curWarp.lane l) =
        if s.active l then
          ((if s.Runs f l ∧ f.ud = false then (s.curWarp.lane l).setReg f.d.toNat x else s.curWarp.lane l)).goto (s.nextPc f)
        else s.curWarp.lane l := by
      intro l hl
      rw [List.getD_eq_getElem _ _ (by omega), hx l hl]
      by_cases h1 : s.active l
      · by_cases h2 : (s.curWarp.lane l).guard f.g
        · cases hud : f.ud <;> simp [h1, h2, hud, Lane.apply, Thread.write, Thread.setPreds, Thread.setRegs, State.Runs]
        · simp [h1, h2, Lane.apply, State.Runs]
      · simp [h1, Lane.apply]
    cases hud : f.ud
    · simp only [Bool.false_eq_true, if_false, Warp.mapLanes_mapLanes]
      apply Warp.mapLanes_congr
      intro l hl
      have hl' : l < 32 := by have := hb.2; simp only [State.curWarp] at this; omega
      refine Eq.trans ?_ (hlane l hl').symm
      have hc : (s.running f).contains l = decide (s.Runs f l) := by
        rw [Bool.eq_iff_iff]
        simp only [List.contains_iff_mem, State.mem_running, decide_eq_true_eq]
        exact ⟨fun h => h.2, fun h => ⟨hl', h⟩⟩
      simp only [hc, hud, List.any_nil, Bool.not_false, Bool.and_true, and_true, decide_eq_true_eq]
      by_cases ha : s.active l = true
      · rw [if_pos ha]
        exact if_pos ha
      · have hn : ¬ s.Runs f l := fun h => ha h.1
        rw [if_neg ha, if_neg hn]
        exact if_neg ha
    · obtain ⟨l0, ls, hls⟩ := List.exists_cons_of_ne_nil hne
      have hml : (s.warp s.cur.wid).mapLanes (fun l t => if s.active l then t.goto (s.nextPc f) else t) =
          (s.warp s.cur.wid).mapLanes (fun l t => (xs.getD l .idle).apply f (s.nextPc f) t) := by
        apply Warp.mapLanes_congr
        intro l hl
        have hl' : l < 32 := by simp only [State.curWarp] at h32; omega
        refine Eq.trans ?_ (hlane l hl').symm
        simp only [hud, Bool.true_eq_false, and_false, if_false]
        rfl
      simp only [if_true, hu hud, hls, List.head?_cons, Option.map_some, Warp.setWregs]
      refine Eq.trans ?_ (congrArg (fun w => w.setWreg (f.d.toNat % 64) x) hml)
      simp only [List.any_nil, Bool.not_false, Bool.and_true]
      rfl
  rw [heq]
  exact State.commit_wrote (n := 1) xs hb hxl hx (fun _ _ _ => rfl) (fun _ _ _ => by simp)

end Sys2Proof.Machine
end

