-- ==== Sys2Proof/Laws/Control.lean ====
section
/-!
SUPPORT. What a segment end does: the lanes take their turns (`perLane_lanes`), the bundle splits, and callee groups are
looked at again (`segmentEnd_next`).
-/

namespace Sys2Proof.Machine

/-- What each lane of a bundle becomes when it runs `g`, or only moves on. -/
def State.turn (s : State) (f : Fields) (g : Nat → Thread → Thread) (l : Nat) (t : Thread) : Thread :=
  if s.active l then if (s.curWarp.lane l).guard f.g then g l t else t.goto (s.nextPc f) else t

/-- Only the lanes of the bundle's warp differ, each changed by a function. -/
structure State.LanesBy (s s' : State) (h : Nat → Thread → Thread) : Prop where
  rest : s' = { s with warps := s'.warps }
  others : ∀ v, v ≠ s.cur.wid → s'.warp v = s.warp v
  there : (s'.warps.get? s.cur.wid).isSome = true
  lanes : s'.warp s.cur.wid = s.curWarp.mapLanes h

theorem State.LanesBy.cur {s s' : State} {h : Nat → Thread → Thread} (e : s.LanesBy s' h) : s'.cur = s.cur := by
  rw [e.rest]

theorem State.LanesBy.lane {s s' : State} {h : Nat → Thread → Thread} (e : s.LanesBy s' h) (hb : s.Bundled) (l : Nat)
    (hl : l < 32) : s'.curWarp.lane l = h l (s.curWarp.lane l) := by
  simp only [State.curWarp, e.cur]
  have := hb.2
  rw [e.lanes, Warp.lane_mapLanes _ _ _ (by omega)]
  rfl

theorem State.LanesBy.bundled {s s' : State} {h : Nat → Thread → Thread} (e : s.LanesBy s' h) (hb : s.Bundled) : s'.Bundled := by
  refine ⟨?_, ?_⟩
  · rw [e.cur]; exact e.there
  · simp only [State.curWarp, e.cur]
    rw [e.lanes, Warp.length_mapLanes]
    exact hb.2

theorem State.LanesBy.step {s s' : State} {h : Nat → Thread → Thread} (e : s.LanesBy s' h) (k : Nat → Thread → Thread) :
    s.LanesBy (s'.updWarp s.cur.wid fun w => w.mapLanes k) fun l t => k l (h l t) := by
  refine ⟨?_, fun v hv => ?_, State.isSome_updWarp _ _ _ _ e.there, ?_⟩
  · conv_lhs => rw [e.rest]
    simp only [State.updWarp]
    split <;> rfl
  · rw [State.warp_updWarp_ne _ _ hv, e.others v hv]
  · rw [State.warp_updWarp _ _ _ e.there, e.lanes, Warp.mapLanes_mapLanes]

theorem State.LanesBy.congr {s s' : State} {h k : Nat → Thread → Thread} (e : s.LanesBy s' h) (hb : s.Bundled)
    (hk : ∀ l < 32, h l (s.curWarp.lane l) = k l (s.curWarp.lane l)) : s.LanesBy s' k := by
  refine ⟨e.rest, e.others, e.there, ?_⟩
  rw [e.lanes]
  exact Warp.mapLanes_congr _ fun l hl => hk l (by have := hb.2; omega)

theorem State.LanesBy.refl {s : State} (hb : s.Bundled) : s.LanesBy s fun _ t => t :=
  ⟨rfl, fun _ _ => rfl, hb.1, by rw [Warp.mapLanes_id]; rfl⟩

/-- The lanes of a bundle take their turns, when every guard and source is good and each turn changes its own lane. -/
theorem State.perLane_lanes {s : State} {f : Fields} {src : Thread → List Source} {body : State → Ins → Except Trap State}
    {g : Nat → Thread → Thread} (hb : s.Bundled) (hg : s.Guards f) (hr : s.Reads f src)
    (h : ∀ l < 32, s.Runs f l → ∀ st : State, st.cur = s.cur → st.Bundled → st.curWarp.lane l = s.curWarp.lane l →
      body st (insOf l (s.curWarp.lane l) (src (s.curWarp.lane l))) = .ok (st.lane! l (g l))) :
    ∃ s', s.perLane f src body = (s', []) ∧ s.LanesBy s' (s.turn f g) := by
  have key : ∀ (ls : List Nat) (P : Nat → Bool) (st : State), (∀ l ∈ ls, l < 32 ∧ s.active l = true ∧ P l = false) → ls.Nodup →
      s.LanesBy st (fun l t => if P l then s.turn f g l t else t) →
      ∃ s', ls.foldl (fun (acc : State × List (Nat × Trap)) l =>
        let t := s.curWarp.lane l
        if f.g != 15 && t.predBad f.g.toNat then (acc.1, acc.2 ++ [(l, predTrap s.pc64)])
        else if !t.guard f.g then (acc.1.updWarp s.cur.wid fun w => w.updLane l (·.goto (s.nextPc f)), acc.2)
        else
          match checkSources (src t) s.pc64 with
          | some tr => (acc.1, acc.2 ++ [(l, tr)])
          | none =>
            match body acc.1 (insOf l t (src t)) with
            | .error tr => (acc.1, acc.2 ++ [(l, tr)])
            | .ok s' => (s', acc.2)) (st, []) = (s', []) ∧
        s.LanesBy s' fun l t => if P l || decide (l ∈ ls) then s.turn f g l t else t := by
    intro ls
    induction ls with
    | nil => intro P st _ _ e; exact ⟨st, rfl, by simpa using e⟩
    | cons l ls ih =>
      intro P st hls hn e
      obtain ⟨hl, ha, hP⟩ := hls l (by simp)
      simp only [List.nodup_cons] at hn
      have hnext : ∀ k : Thread → Thread, (∀ t, k t = s.turn f g l t) →
          s.LanesBy (st.updWarp s.cur.wid fun w => w.updLane l k) fun i t => if P i || i == l then s.turn f g i t else t := by
        intro k hk
        refine (e.step _).congr hb fun i _ => ?_
        by_cases hi : i = l
        · subst hi; simp [hP, hk]
        · simp [hi]
      have hrec : ∀ st', (s.LanesBy st' fun i t => if P i || i == l then s.turn f g i t else t) → ∃ s', _ := fun st' e' =>
        ih (fun i => P i || i == l) st' (fun x hx => by
          obtain ⟨h1, h2, h3⟩ := hls x (by simp [hx])
          have : x ≠ l := fun e => hn.1 (e ▸ hx)
          exact ⟨h1, h2, by simp [h3, this]⟩) hn.2 e'
      have hP' : ∀ i, ((P i || i == l) || decide (i ∈ ls)) = (P i || decide (i ∈ l :: ls)) := by
        intro i
        by_cases hi : i = l
        · simp [hi]
        · have : (i == l) = false := by simpa using hi
          simp [hi, this]
      simp only [hP'] at hrec
      rw [List.foldl_cons]
      simp only [hg l hl ha, Bool.false_eq_true, if_false]
      by_cases hgd : (s.curWarp.lane l).guard f.g = true
      · have hlane : st.curWarp.lane l = s.curWarp.lane l := by rw [e.lane hb l hl]; simp [hP]
        have h1 := h l hl ⟨ha, hgd⟩ st e.cur (e.bundled hb) hlane
        simp only [hgd, Bool.not_true, Bool.false_eq_true, if_false, hr l hl ⟨ha, hgd⟩, h1, State.lane!, e.cur]
        exact hrec _ (hnext (g l) fun t => by simp [State.turn, ha, hgd])
      · have hgd' : (s.curWarp.lane l).guard f.g = false := by simpa using hgd
        simp only [hgd', Bool.not_false, if_true]
        exact hrec _ (hnext _ fun t => by simp [State.turn, ha, hgd'])
  obtain ⟨s', h1, h2⟩ := key (lanesOf s.cur.mask) (fun _ => false) s
    (fun l hl => ⟨(mem_lanesOf.1 hl).1, (mem_lanesOf.1 hl).2, rfl⟩) (List.Nodup.filter _ List.nodup_range)
    ((State.LanesBy.refl hb).congr hb fun l _ => by simp)
  refine ⟨s', h1, h2.congr hb fun l hl => ?_⟩
  by_cases ha : s.active l = true
  · have : l ∈ lanesOf s.cur.mask := mem_lanesOf.2 ⟨hl, ha⟩
    simp [this]
  · have : l ∉ lanesOf s.cur.mask := fun h => ha (mem_lanesOf.1 h).2
    simp [this, State.turn, ha]

/-! ## Splitting -/

theorem mem_firsts {α : Type} [BEq α] [LawfulBEq α] (xs : List α) (x : α) : x ∈ firsts xs ↔ x ∈ xs := by
  induction xs with
  | nil => simp [firsts]
  | cons y xs ih =>
    simp only [firsts, List.mem_cons, List.mem_filter, ih]
    by_cases h : x = y
    · simp [h]
    · have : (x == y) = false := by simpa using h
      simp [h, this]

/-- The lanes of a bundle that splits: those that are ready get a number for their address; nothing else changes. -/
theorem Warp.split_lane (w : Warp) (m : Word) (l : Nat) (hl : l < w.lanes.length) :
    (w.split m).lane l = { w.lane l with bid := ((w.split m).lane l).bid, window := ((w.split m).lane l).window,
                                         wmask := ((w.split m).lane l).wmask } ∧
      ((m.getLsbD l && (w.lane l).status == .ready) = false → (w.split m).lane l = w.lane l) := by
  simp only [Warp.split]
  constructor
  · rw [show ∀ (a : Warp) (n : Nat), ({ a with next := n } : Warp).lane l = a.lane l from fun _ _ => rfl,
      Warp.lane_mapLanes _ _ _ hl]
    split <;> rfl
  · intro h
    rw [show ∀ (a : Warp) (n : Nat), ({ a with next := n } : Warp).lane l = a.lane l from fun _ _ => rfl,
      Warp.lane_mapLanes _ _ _ hl, if_neg (by simp [h])]

/-- Ready lanes of a split bundle are together exactly where their addresses agree (R54). -/
theorem Warp.split_bid (w : Warp) (m : Word) (b : Nat) (l k : Nat) (hl : l < w.lanes.length) (hk : k < w.lanes.length)
    (hl32 : l < 32) (hk32 : k < 32) (hml : m.getLsbD l = true) (hmk : m.getLsbD k = true) (hsl : (w.lane l).status = .ready)
    (hsk : (w.lane k).status = .ready) (hbl : (w.lane l).bid = b) (hbk : (w.lane k).bid = b) (hb : b < w.next) :
    ((w.split m).lane l).bid = ((w.split m).lane k).bid ↔ (w.lane l).pc = (w.lane k).pc := by
  let pcs := firsts ((lanesOf m).filterMap fun l => if m.getLsbD l && (w.lane l).status == .ready then some (w.lane l).pc else none)
  have hmem : ∀ l < 32, m.getLsbD l = true → (w.lane l).status = .ready → (w.lane l).pc ∈ pcs := by
    intro l h1 h2 h3
    rw [mem_firsts, List.mem_filterMap]
    exact ⟨l, mem_lanesOf.2 ⟨h1, h2⟩, by simp [h2, h3]⟩
  have hbid : ∀ l < w.lanes.length, l < 32 → m.getLsbD l = true → (w.lane l).status = .ready → (w.lane l).bid = b →
      ((w.split m).lane l).bid = if pcs.idxOf (w.lane l).pc = 0 then b else w.next + (pcs.idxOf (w.lane l).pc - 1) := by
    intro l h1 _ h2 h3 h4
    simp only [Warp.split]
    rw [show ∀ (a : Warp) (n : Nat), ({ a with next := n } : Warp).lane l = a.lane l from fun _ _ => rfl,
      Warp.lane_mapLanes _ _ _ h1, if_pos (by simp [h2, h3])]
    simp only [h4]
    rfl
  rw [hbid l hl hl32 hml hsl hbl, hbid k hk hk32 hmk hsk hbk]
  have hi : pcs.idxOf (w.lane l).pc = pcs.idxOf (w.lane k).pc ↔ (w.lane l).pc = (w.lane k).pc := by
    constructor
    · intro h
      have h1 := List.getElem_idxOf (List.idxOf_lt_length_of_mem (hmem l hl32 hml hsl))
      have h2 := List.getElem_idxOf (List.idxOf_lt_length_of_mem (hmem k hk32 hmk hsk))
      rw [← h1, ← h2]
      simp only [h]
    · intro h; rw [h]
  rw [← hi]
  split <;> split <;> omega

/-! ## Callee groups -/

/-- Looking at callee groups again changes at most the status, the mark S = 1 leaves and the ready time of parked lanes (R212). -/
theorem Warp.releaseCallees_lane (w : Warp) (now l : Nat) (hl : l < w.lanes.length) :
    (w.releaseCallees now).lane l = { w.lane l with status := ((w.releaseCallees now).lane l).status,
                                                    age := ((w.releaseCallees now).lane l).age,
                                                    parks := ((w.releaseCallees now).lane l).parks } ∧
      ((∀ c g, (w.lane l).status ≠ .callee c g) → (w.releaseCallees now).lane l = w.lane l) := by
  unfold Warp.releaseCallees
  rw [Warp.lane_mapLanes _ _ _ hl]
  constructor
  · split
    · split <;> rfl
    · rfl
  · intro h
    split
    · rename_i c g hs
      exact absurd hs (h c g)
    · rfl

/-! ## Segment ends -/

/-- What follows the turns of a bundle's lanes at a segment end. -/
theorem State.went {s s' : State} {f : Fields} {g : Nat → Thread → Thread} (hb : s.Bundled) (e : s.LanesBy s' (s.turn f g))
    (hg : ∀ l t, (g l t).status = t.status ∧ (g l t).bid = t.bid) :
    s.Went (((s'.finish f []).splitBundle s.cur.wid (s.cur.mask &&& ~~~(maskOfLanes ([] : List Nat)))).releaseCallees s.cur.wid)
      f g := by
  have hm : s.cur.mask &&& ~~~(maskOfLanes ([] : List Nat)) = s.cur.mask := by
    have h : ~~~(0 : Word) = BitVec.allOnes 32 := rfl
    simp only [maskOfLanes, List.foldl_nil, h, BitVec.and_allOnes]
  rw [hm]
  have hcur := e.cur
  have h32 := hb.2
  have hact : ∀ l, s'.active l = s.active l := fun l => by simp [State.active, hcur]
  obtain ⟨st, pk, hstat, hst⟩ := State.finish_nil_warp s' f (by rw [hcur]; exact e.there)
  obtain ⟨hdev, helse⟩ := State.finish_nil_rest s' f
  rw [hcur, e.lanes, Warp.mapLanes_mapLanes] at hst
  -- the state after the marker
  let s2 := s'.finish f []
  have hs2c : s2.cur = s.cur := by
    obtain ⟨w, c, h⟩ := State.sameDevice_iff.1 hdev
    simp only [s2]
    rw [h]
    exact hcur
  have hthere : (s2.warps.get? s.cur.wid).isSome = true := by
    rcases State.finish_nil s' f with h | ⟨_, h⟩ <;> simp only [s2, h]
    · exact e.there
    · exact State.isSome_updWarp _ _ _ _ e.there
  let w2 := s2.warp s.cur.wid
  let w3 := w2.split s.cur.mask
  let t := (s2.splitBundle s.cur.wid s.cur.mask).releaseCallees s.cur.wid
  have ht : t.warp s.cur.wid = w3.releaseCallees s2.cycle := by
    simp only [t, State.releaseCallees, State.splitBundle, State.updWarp_updWarp, State.updWarp_cycle]
    rw [State.warp_updWarp _ _ _ hthere]
  have hw2 : w2 = s.curWarp.mapLanes fun l x =>
      if s.active l then
        { s.turn f g l x with status := st (s.turn f g l x), parks := pk (s.turn f g l x) } else s.turn f g l x := by
    simp only [w2, s2, hst, hact]
  have hl2 : w2.lanes.length = 32 := by rw [hw2, Warp.length_mapLanes, h32]
  have hl3 : w3.lanes.length = 32 := by simp [w3, Warp.split, hl2]
  have h2 : ∀ l < 32, w2.lane l = if s.active l then
      { s.turn f g l (s.curWarp.lane l) with
        status := st (s.turn f g l (s.curWarp.lane l)), parks := pk (s.turn f g l (s.curWarp.lane l)) } else s.curWarp.lane l := by
    intro l hl
    rw [hw2, Warp.lane_mapLanes _ _ _ (by omega)]
    by_cases ha : s.active l <;> simp [ha, State.turn]
  have h3 : ∀ l < 32, _ := fun l hl => Warp.split_lane w2 s.cur.mask l (by omega)
  have h4 : ∀ l < 32, _ := fun l hl => Warp.releaseCallees_lane w3 s2.cycle l (by omega)
  -- each lane after all of it
  have hchain : ∀ l < 32, (w2.lane l).GoesOn ((t.warp s.cur.wid).lane l) := by
    intro l hl
    rw [ht]
    have a := (h4 l hl).1
    have b := (h3 l hl).1
    unfold Thread.GoesOn
    rw [a]
    rw [show w3.lane l = _ from b]
  show s.Went t f g
  refine ⟨?_, ⟨fun v hv => ?_, fun c hc => ?_, ?_⟩, ?_, fun l hl hrun => ?_, fun l hl ha hgd => ?_, fun l hl ha => ⟨?_, fun hcal => ?_⟩, ?_⟩
  · refine State.SameDevice.trans (State.sameDevice_iff.2 ⟨s'.warps, s.cores, ?_⟩) (State.SameDevice.trans hdev
      (State.sameDevice_iff.2 ⟨t.warps, s2.cores, ?_⟩))
    · conv_lhs => rw [e.rest]
    · simp only [t, State.releaseCallees, State.splitBundle, State.updWarp_updWarp]
      simp only [State.updWarp]
      split <;> rfl
  · simp only [t, State.releaseCallees, State.splitBundle]
    rw [State.warp_updWarp_ne _ _ hv, State.warp_updWarp_ne _ _ hv, helse.1 v (by rw [hcur]; exact hv), e.others v hv]
  · simp only [t, State.releaseCallees, State.splitBundle, State.core_updWarp]
    rw [helse.2.1 c (by simpa [State.curCore, hcur] using hc), e.rest]
    rfl
  · simp only [t, State.releaseCallees, State.splitBundle, State.core_updWarp]
    have := helse.2.2
    simp only [State.curCore, hcur] at this ⊢
    have hc' : s'.core (warpCore s.cur.wid) = s.core (warpCore s.cur.wid) := by rw [e.rest]; rfl
    rw [hc'] at this
    exact this
  · rw [ht]
    have : w2 = { s.curWarp with lanes := w2.lanes } := by rw [hw2]; rfl
    simp only [Warp.releaseCallees, w3, Warp.split, Warp.mapLanes]
    rw [this]
  · have := hchain l hl
    rw [h2 l hl, if_pos hrun.1] at this
    simp only [State.turn, hrun.1, hrun.2, if_true] at this
    exact this
  · have := hchain l hl
    rw [h2 l hl, if_pos ha] at this
    simp only [State.turn, ha, hgd, if_true] at this
    simpa [Thread.GoesOn, Thread.goto] using this
  · have := hchain l hl
    rw [h2 l hl, if_neg (by simp [ha])] at this
    exact this
  · have hb' : w3.lane l = w2.lane l := (h3 l hl).2 (by
      have : s.cur.mask.getLsbD l = false := ha
      simp [this])
    rw [ht, (h4 l hl).2 (by
      rw [hb', h2 l hl, if_neg (by simp [ha])]
      exact hcal), hb', h2 l hl, if_neg (by simp [ha])]
  · intro hbun l hl k hk hal hak hrl hrk
    have hturn : ∀ l, (s.turn f g l (s.curWarp.lane l)).bid = (s.curWarp.lane l).bid := by
      intro l
      simp only [State.turn]
      split
      · split
        · exact (hg _ _).2
        · rfl
      · rfl
    have hturn' : ∀ l, (s.turn f g l (s.curWarp.lane l)).status = (s.curWarp.lane l).status := by
      intro l
      simp only [State.turn]
      split
      · split
        · exact (hg _ _).1
        · rfl
      · rfl
    -- a lane that is ready at the end was ready before the split
    have hready : ∀ l < 32, s.active l = true → ((t.warp s.cur.wid).lane l).status = .ready → (w2.lane l).status = .ready := by
      intro l hl ha h
      have hs : (w2.lane l).status = .ready ∨ (w2.lane l).status = .parked := by
        rw [h2 l hl, if_pos ha]
        rcases hstat (s.turn f g l (s.curWarp.lane l)) with h' | h'
        · exact .inl (h'.trans ((hturn' l).trans (hbun l hl ha).1))
        · exact .inr h'
      rcases hs with hs | hs
      · exact hs
      · exfalso
        have h3' : w3.lane l = w2.lane l := (h3 l hl).2 (by simp [hs])
        rw [ht, (h4 l hl).2 (by rw [h3', hs]; simp), h3', hs] at h
        exact absurd h (by decide)
    have hkeep : ∀ l < 32, s.active l = true → ((t.warp s.cur.wid).lane l).status = .ready →
        ((t.warp s.cur.wid).lane l).bid = (w3.lane l).bid ∧ ((t.warp s.cur.wid).lane l).pc = (w2.lane l).pc := by
      intro l hl ha h
      have hr := hready l hl ha h
      have hs3 : (w3.lane l).status = .ready := by rw [(h3 l hl).1]; exact hr
      have e4 := (h4 l hl).2 (by rw [hs3]; simp)
      rw [ht, e4]
      exact ⟨rfl, by rw [(h3 l hl).1]⟩
    have hbl : ∀ l < 32, s.active l = true → (w2.lane l).bid = (s.curWarp.lane ((lowestLane s.cur.mask).getD 0)).bid := by
      intro l hl ha
      rw [h2 l hl, if_pos ha]
      exact (hturn l).trans (hbun l hl ha).2.1
    rw [(hkeep l hl hal hrl).1, (hkeep k hk hak hrk).1, (hkeep l hl hal hrl).2, (hkeep k hk hak hrk).2]
    have hnx : w2.next = s.curWarp.next := by rw [hw2]; rfl
    exact Warp.split_bid w2 s.cur.mask _ l k (by omega) (by omega) hl hk hal hak (hready l hl hal hrl) (hready k hk hak hrk)
      (hbl l hl hal) (hbl k hk hak) (by
        rw [hnx, ← (hbun l hl hal).2.1]
        exact (hbun l hl hal).2.2)

/-- A segment end completes: each lane that runs becomes what its turn makes of it, and the bundle splits. -/
theorem segmentEnd_next {s : State} {op : Op} {f : Fields} {src : Op → Fields → State → Thread → List Source}
    {body : State → Ins → Except Trap State} {g : Nat → Thread → Thread} (hc : s.Clear op f) (hr : s.Reads f (src op f s))
    (hg : ∀ l t, (g l t).status = t.status ∧ (g l t).bid = t.bid)
    (h : ∀ l < 32, s.Runs f l → ∀ st : State, st.cur = s.cur → st.Bundled → st.curWarp.lane l = s.curWarp.lane l →
      body st (insOf l (s.curWarp.lane l) (src op f s (s.curWarp.lane l))) = .ok (st.lane! l (g l))) :
    ∃ t, segmentEnd op src body f s = .next t ∧ s.Went t f g := by
  obtain ⟨s', h1, h2⟩ := State.perLane_lanes hc.1 hc.2.2.1 hr h
  refine ⟨_, ?_, State.went hc.1 h2 hg⟩
  unfold segmentEnd
  rw [State.issue_next hc.2.1, State.segment, h1]
  rfl

end Sys2Proof.Machine
end

