-- ==== Sys2Proof/Laws/Residue.lean ====
section
/-!
SUPPORT. The predictor path agrees with the datapath (R106–R108): from well-formed sources each row forms the residue of its
result, so that the check before write-back finds nothing.
-/

namespace Sys2Proof.Machine

/-! ## Residues as integers modulo 15 -/

theorem nibbleSum_mod (k n : Nat) : nibbleSum k n % 15 = n % 16 ^ k % 15 := by
  induction k generalizing n with
  | zero => simp [nibbleSum, Nat.mod_one]
  | succ k ih =>
    have h := ih (n / 16)
    have e : n % 16 ^ (k + 1) = n % 16 + 16 * (n / 16 % 16 ^ k) := by
      rw [pow_succ, mul_comm, Nat.mod_mul]
    rw [nibbleSum, e]
    omega

theorem res_toNat (w : Word) : (res w).toNat = w.toNat % 15 := by
  have h := nibbleSum_mod 8 w.toNat
  have hw : w.toNat < 16 ^ 8 := w.isLt
  rw [Nat.mod_eq_of_lt hw] at h
  rw [res, BitVec.toNat_ofNat, h, Nat.mod_eq_of_lt (by omega)]

theorem mod15_toNat (x : Int) : ((mod15 x).toNat : Int) = x % 15 := by
  rw [mod15, BitVec.toNat_ofNat, Nat.mod_eq_of_lt (by omega)]
  omega

/-- A prediction is right when it agrees modulo 15. -/
theorem mod15_eq_res {x : Int} {w : Word} (h : x ≡ w.toNat [ZMOD 15]) : mod15 x = res w := by
  apply BitVec.eq_of_toNat_eq
  have h1 := mod15_toNat x
  have h2 := res_toNat w
  rw [Int.ModEq] at h
  omega

theorem wellFormed_iff {w : CWord} : w.wellFormed = true ↔ w.tag = res w.data := by simp [CWord.wellFormed]

theorem CWord.eq_gen {w : CWord} (h : w.wellFormed = true) : w = .gen w.data := by
  obtain ⟨d, t⟩ := w
  rw [wellFormed_iff] at h
  exact congrArg (CWord.mk d) h

@[simp] theorem CWord.gen_wellFormed (d : Word) : (CWord.gen d).wellFormed = true := by simp [CWord.wellFormed, CWord.gen]
@[simp] theorem CWord.gen_data (d : Word) : (CWord.gen d).data = d := rfl
theorem CWord.zero_eq_gen : CWord.zero = .gen 0 := rfl

/-- A word with a prediction that agrees is the word with a generated residue. -/
theorem CWord.mk_eq_gen {w : Word} {x : Int} (h : x ≡ w.toNat [ZMOD 15]) : (⟨w, mod15 x⟩ : CWord) = .gen w := by
  rw [CWord.gen, mod15_eq_res h]

theorem srcRes_mod {w : CWord} (h : w.wellFormed = true) : srcRes w ≡ w.data.toNat [ZMOD 15] := by
  rw [wellFormed_iff] at h
  have := res_toNat w.data
  rw [srcRes, h, Int.ModEq]
  omega

theorem resI_mod (w : Word) : resI w ≡ w.toNat [ZMOD 15] := by
  have := res_toNat w
  rw [resI, Int.ModEq]
  omega

/-- Powers of 2 modulo 15 go round after four. -/
theorem pow2_mod (n : Nat) : (2 : Int) ^ n ≡ 2 ^ (n % 4) [ZMOD 15] := by
  have h : ((2 : Int) ^ 4) ^ (n / 4) ≡ 1 ^ (n / 4) [ZMOD 15] := Int.ModEq.pow _ (by decide)
  have := h.mul_right (2 ^ (n % 4))
  rw [one_pow, one_mul, ← pow_mul, ← pow_add, Nat.div_add_mod] at this
  exact this

theorem pow2_32_mod (k : Nat) : (2 : Int) ^ (32 * k) ≡ 1 [ZMOD 15] := by
  have := pow2_mod (32 * k)
  rwa [show 32 * k % 4 = 0 by omega, pow_zero] at this

theorem inv2_mul (n : Nat) : 2 ^ n * inv2 n ≡ 1 [ZMOD 15] := by
  refine ((pow2_mod n).mul_right _).trans ?_
  rw [inv2]
  have h : n % 4 < 4 := Nat.mod_lt _ (by decide)
  interval_cases n % 4 <;> decide

/-- Division by a power of 2 modulo 15. -/
theorem inv2_cancel {n : Nat} {x y : Int} (h : x ≡ 2 ^ n * y [ZMOD 15]) : inv2 n * x ≡ y [ZMOD 15] := by
  have e := (inv2_mul n).mul_right y
  rw [one_mul, show 2 ^ n * inv2 n * y = inv2 n * (2 ^ n * y) by ring] at e
  exact (h.mul_left _).trans e

/-! ## Bits and sums -/

theorem or_add_and_nat (a b : Nat) : (a ||| b) + (a &&& b) = a + b := by
  induction a using Nat.strongRecOn generalizing b with
  | _ a ih =>
    rcases Nat.eq_zero_or_pos a with rfl | h
    · simp
    · have h1 := ih (a / 2) (by omega) (b / 2)
      have o1 : (a ||| b) / 2 = a / 2 ||| b / 2 := Nat.or_div_two
      have o2 : (a &&& b) / 2 = a / 2 &&& b / 2 := Nat.and_div_two
      have m1 : (a ||| b) % 2 = a % 2 ||| b % 2 := by simpa using Nat.or_mod_two_pow (a := a) (b := b) (n := 1)
      have m2 : (a &&& b) % 2 = a % 2 &&& b % 2 := by simpa using Nat.and_mod_two_pow (a := a) (b := b) (n := 1)
      have m3 : (a % 2 ||| b % 2) + (a % 2 &&& b % 2) = a % 2 + b % 2 := by
        rcases Nat.mod_two_eq_zero_or_one a with h | h <;> rcases Nat.mod_two_eq_zero_or_one b with h' | h' <;> rw [h, h'] <;> rfl
      omega

theorem xor_add_and_nat (a b : Nat) : (a ^^^ b) + 2 * (a &&& b) = a + b := by
  induction a using Nat.strongRecOn generalizing b with
  | _ a ih =>
    rcases Nat.eq_zero_or_pos a with rfl | h
    · simp
    · have h1 := ih (a / 2) (by omega) (b / 2)
      have o1 : (a ^^^ b) / 2 = a / 2 ^^^ b / 2 := Nat.xor_div_two
      have o2 : (a &&& b) / 2 = a / 2 &&& b / 2 := Nat.and_div_two
      have m1 : (a ^^^ b) % 2 = a % 2 ^^^ b % 2 := by simpa using Nat.xor_mod_two_pow (a := a) (b := b) (n := 1)
      have m2 : (a &&& b) % 2 = a % 2 &&& b % 2 := by simpa using Nat.and_mod_two_pow (a := a) (b := b) (n := 1)
      have m3 : (a % 2 ^^^ b % 2) + 2 * (a % 2 &&& b % 2) = a % 2 + b % 2 := by
        rcases Nat.mod_two_eq_zero_or_one a with h | h <;> rcases Nat.mod_two_eq_zero_or_one b with h' | h' <;> rw [h, h'] <;> rfl
      omega

theorem lowBits_toNat {n : Nat} (hn : n ≤ 32) (w : Word) : (lowBits n w).toNat = w.toNat % 2 ^ n := by
  have h : 2 ^ n - 1 < 2 ^ 32 := by
    have := Nat.pow_le_pow_right (n := 2) (by decide) hn
    omega
  rw [lowBits, BitVec.toNat_and, BitVec.toNat_ofNat, Nat.mod_eq_of_lt h, Nat.and_two_pow_sub_one_eq_mod]

/-! ## The rows on words (R108) -/

theorem predictShl_eq {a : CWord} (ha : a.wellFormed = true) {n : Nat} (hn : n < 32) : predictShl a n = res (a.data <<< n) := by
  apply mod15_eq_res
  refine (((srcRes_mod ha).mul_left _).sub (resI_mod _)).trans ?_
  have h := a.data.isLt
  have hp : 2 ^ n * 2 ^ (32 - n) = 2 ^ 32 := by rw [← pow_add]; congr 1; omega
  have hs : (shiftedOut a.data n).toNat = a.data.toNat / 2 ^ (32 - n) := by
    unfold shiftedOut
    split
    · next h0 => subst h0; simp; omega
    · simp [Nat.shiftRight_eq_div_pow]
  rw [hs, BitVec.toNat_shiftLeft, Nat.shiftLeft_eq]
  have e : 2 ^ n * a.data.toNat = a.data.toNat * 2 ^ n % 2 ^ 32 + 2 ^ 32 * (a.data.toNat / 2 ^ (32 - n)) := by
    rw [← hp, mul_comm (a.data.toNat) (2 ^ n), Nat.mul_mod_mul_left, mul_assoc, ← mul_add]
    congr 1
    have := Nat.mod_add_div a.data.toNat (2 ^ (32 - n))
    omega
  rw [Int.ModEq]
  have e' : (2 : Int) ^ n * (a.data.toNat : Int) = ((a.data.toNat * 2 ^ n % 2 ^ 32 : Nat) : Int) + 2 ^ 32 * ((a.data.toNat / 2 ^ (32 - n) : Nat) : Int) := by
    exact_mod_cast e
  rw [e']
  omega

/-- What is left of a word after a shift right by `n`, times 2^n. -/
theorem shr_cancel {a : CWord} (ha : a.wellFormed = true) {n : Nat} (hn : n ≤ 32) :
    inv2 n * (srcRes a - resI (lowBits n a.data)) ≡ ((a.data.toNat / 2 ^ n : Nat) : Int) [ZMOD 15] := by
  apply inv2_cancel
  refine ((srcRes_mod ha).sub (resI_mod _)).trans ?_
  rw [lowBits_toNat hn]
  have : a.data.toNat = 2 ^ n * (a.data.toNat / 2 ^ n) + a.data.toNat % 2 ^ n := (Nat.div_add_mod _ _).symm
  have e : (a.data.toNat : Int) - ((a.data.toNat % 2 ^ n : Nat) : Int) = 2 ^ n * ((a.data.toNat / 2 ^ n : Nat) : Int) := by
    have h : (a.data.toNat : Int) = ((2 ^ n * (a.data.toNat / 2 ^ n) + a.data.toNat % 2 ^ n : Nat) : Int) := congrArg _ this
    rw [h]; push_cast; ring
  rw [e]

theorem predictShr_eq {a : CWord} (ha : a.wellFormed = true) {n : Nat} (hn : n < 32) : predictShr a n = res (a.data >>> n) := by
  apply mod15_eq_res
  rw [BitVec.toNat_ushiftRight, Nat.shiftRight_eq_div_pow]
  exact shr_cancel ha (by omega)

theorem sshiftRight_toNat (w : Word) {n : Nat} (hn : n ≤ 32) :
    (w.sshiftRight n).toNat = w.toNat / 2 ^ n + if w.msb then 2 ^ 32 - 2 ^ (32 - n) else 0 := by
  have hp : 2 ^ n * 2 ^ (32 - n) = 2 ^ 32 := by rw [← pow_add]; congr 1; omega
  have hw := w.isLt
  rw [BitVec.toNat_sshiftRight]
  split
  · next h =>
    have h1 : 2 ^ (32 - n) ≤ 2 ^ 32 := Nat.pow_le_pow_right (by decide) (by omega)
    have h2 : (2 ^ 32 - 1 - w.toNat) / 2 ^ n = 2 ^ (32 - n) - 1 - w.toNat / 2 ^ n := by
      apply Nat.div_eq_of_lt_le
      · have := Nat.div_mul_le_self w.toNat (2 ^ n)
        have := Nat.mod_lt w.toNat (Nat.two_pow_pos n)
        have := Nat.div_add_mod w.toNat (2 ^ n)
        have h5 : w.toNat / 2 ^ n < 2 ^ (32 - n) := by
          rw [Nat.div_lt_iff_lt_mul (Nat.two_pow_pos n), mul_comm, hp]; exact hw
        have h6 : (2 ^ (32 - n) - 1 - w.toNat / 2 ^ n) * 2 ^ n = 2 ^ 32 - 2 ^ n - 2 ^ n * (w.toNat / 2 ^ n) := by
          rw [Nat.sub_mul, Nat.sub_mul, one_mul, mul_comm (2 ^ (32 - n)), hp, mul_comm (w.toNat / 2 ^ n)]
        rw [h6]; omega
      · have := Nat.div_add_mod w.toNat (2 ^ n)
        have := Nat.mod_lt w.toNat (Nat.two_pow_pos n)
        have h5 : w.toNat / 2 ^ n < 2 ^ (32 - n) := by
          rw [Nat.div_lt_iff_lt_mul (Nat.two_pow_pos n), mul_comm, hp]; exact hw
        have h6 : (2 ^ (32 - n) - 1 - w.toNat / 2 ^ n + 1) * 2 ^ n = 2 ^ 32 - 2 ^ n * (w.toNat / 2 ^ n) := by
          rw [show 2 ^ (32 - n) - 1 - w.toNat / 2 ^ n + 1 = 2 ^ (32 - n) - w.toNat / 2 ^ n by omega, Nat.sub_mul, mul_comm (2 ^ (32 - n)), hp,
            mul_comm (w.toNat / 2 ^ n)]
        rw [h6]; omega
    have h5 : w.toNat / 2 ^ n < 2 ^ (32 - n) := by
      rw [Nat.div_lt_iff_lt_mul (Nat.two_pow_pos n), mul_comm, hp]; exact hw
    rw [Nat.shiftRight_eq_div_pow, h2]
    clear h2 hp
    generalize w.toNat / 2 ^ n = q at *
    generalize 2 ^ (32 - n) = p at *
    omega
  · rw [Nat.shiftRight_eq_div_pow, add_zero]

theorem predictSar_eq {a : CWord} (ha : a.wellFormed = true) {n : Nat} (hn : n < 32) :
    predictSar a n = res (a.data.sshiftRight n) := by
  apply mod15_eq_res
  rw [sshiftRight_toNat _ (by omega), Nat.cast_add]
  refine ((shr_cancel ha (by omega)).add_right _).trans ?_
  apply Int.ModEq.add_left
  cases a.data.msb
  · simp
  · have h1 : 2 ^ (32 - n) ≤ 2 ^ 32 := Nat.pow_le_pow_right (by decide) (by omega)
    simp only [Bool.toNat_true, Nat.cast_one, one_mul, if_true]
    rw [Nat.cast_sub h1]
    push_cast
    have e : inv2 n ≡ (2 : Int) ^ (32 - n) [ZMOD 15] := by
      have h2 : (2 : Int) ^ 32 ≡ 2 ^ n * 2 ^ (32 - n) [ZMOD 15] := by
        rw [← pow_add, show n + (32 - n) = 32 by omega]
      have h3 := inv2_cancel (n := n) h2
      have h4 : (2 : Int) ^ 32 ≡ 1 [ZMOD 15] := by decide
      have h5 := h4.mul_left (inv2 n)
      rw [mul_one] at h5
      exact h5.symm.trans h3
    exact Int.ModEq.sub (by decide) e

theorem predictRol_eq {a : CWord} (ha : a.wellFormed = true) {n : Nat} (hn : n < 32) :
    predictRol a n = res (a.data.rotateLeft n) := by
  apply mod15_eq_res
  refine ((srcRes_mod ha).mul_left _).trans ?_
  have h := a.data.isLt
  have hp : 2 ^ n * 2 ^ (32 - n) = 2 ^ 32 := by rw [← pow_add]; congr 1; omega
  rw [BitVec.toNat_rotateLeft, Nat.mod_eq_of_lt hn, Nat.shiftLeft_eq, Nat.shiftRight_eq_div_pow]
  have hq : a.data.toNat / 2 ^ (32 - n) < 2 ^ n := by
    rw [Nat.div_lt_iff_lt_mul (Nat.two_pow_pos _), hp]; exact h
  have e1 : a.data.toNat * 2 ^ n % 2 ^ 32 = 2 ^ n * (a.data.toNat % 2 ^ (32 - n)) := by
    rw [← hp, mul_comm (a.data.toNat) (2 ^ n), Nat.mul_mod_mul_left]
  have e2 : 2 ^ n * (a.data.toNat % 2 ^ (32 - n)) ||| a.data.toNat / 2 ^ (32 - n) =
      2 ^ n * (a.data.toNat % 2 ^ (32 - n)) + a.data.toNat / 2 ^ (32 - n) := (Nat.two_pow_add_eq_or_of_lt hq _).symm
  rw [e1, e2]
  have e3 := Nat.div_add_mod a.data.toNat (2 ^ (32 - n))
  have e4 : (2 : Int) ^ n * a.data.toNat = 2 ^ n * ((a.data.toNat % 2 ^ (32 - n) : Nat) : Int) + 2 ^ 32 * ((a.data.toNat / 2 ^ (32 - n) : Nat) : Int) := by
    have : 2 ^ n * a.data.toNat = 2 ^ n * (a.data.toNat % 2 ^ (32 - n)) + 2 ^ 32 * (a.data.toNat / 2 ^ (32 - n)) := by
      rw [← hp, mul_assoc, ← mul_add]; congr 1; omega
    exact_mod_cast this
  rw [e4]
  push_cast
  apply Int.ModEq.add_left
  have h4 : (2 : Int) ^ 32 ≡ 1 [ZMOD 15] := by decide
  simpa using h4.mul_right _

section two
variable {a b : CWord} (ha : a.wellFormed = true) (hb : b.wellFormed = true)
include ha hb

theorem predictAdd_eq (ci : Bool) : predictAdd a b ci = res (a.data + b.data + BitVec.ofNat 32 ci.toNat) := by
  apply mod15_eq_res
  refine ((((srcRes_mod ha).add (srcRes_mod hb)).add_right _).sub_right _).trans ?_
  have h1 := a.data.isLt
  have h2 := b.data.isLt
  have h3 := Bool.toNat_le ci
  have hc : (carryOut a.data b.data ci).toNat = (a.data.toNat + b.data.toNat + ci.toNat) / 2 ^ 32 := by
    unfold carryOut
    by_cases h : 2 ^ 32 ≤ a.data.toNat + b.data.toNat + ci.toNat <;> simp only [h, decide_true, decide_false, Bool.toNat_true, Bool.toNat_false] <;> omega
  rw [hc, Int.ModEq, BitVec.toNat_add, BitVec.toNat_add, BitVec.toNat_ofNat]
  omega

theorem predictSub_eq (ci : Bool) : predictSub a b ci = res (a.data - b.data - BitVec.ofNat 32 ci.toNat) := by
  apply mod15_eq_res
  refine ((((srcRes_mod ha).sub (srcRes_mod hb)).sub_right _).add_right _).trans ?_
  have h1 := a.data.isLt
  have h2 := b.data.isLt
  have h3 := Bool.toNat_le ci
  have hc : (borrowOut a.data b.data ci).toNat = if a.data.toNat < b.data.toNat + ci.toNat then 1 else 0 := by
    unfold borrowOut
    split <;> simp [*]
  rw [hc, Int.ModEq, BitVec.toNat_sub, BitVec.toNat_sub, BitVec.toNat_ofNat]
  split <;> omega

theorem predictOr_eq : predictOr a b = res (a.data ||| b.data) := by
  apply mod15_eq_res
  refine (((srcRes_mod ha).add (srcRes_mod hb)).sub (resI_mod _)).trans ?_
  have := or_add_and_nat a.data.toNat b.data.toNat
  rw [BitVec.toNat_or, BitVec.toNat_and, Int.ModEq]
  omega

theorem predictXor_eq : predictXor a b = res (a.data ^^^ b.data) := by
  apply mod15_eq_res
  refine (((srcRes_mod ha).add (srcRes_mod hb)).sub ((resI_mod _).mul_left 2)).trans ?_
  have := xor_add_and_nat a.data.toNat b.data.toNat
  rw [BitVec.toNat_xor, BitVec.toNat_and, Int.ModEq]
  omega

theorem orWord_eq : orWord a b = .gen (a.data ||| b.data) := by rw [orWord, predictOr_eq ha hb]; rfl
theorem xorWord_eq : xorWord a b = .gen (a.data ^^^ b.data) := by rw [xorWord, predictXor_eq ha hb]; rfl
theorem addWord_eq : addWord a b = .gen (a.data + b.data) := by
  have h := predictAdd_eq ha hb false
  rw [addWord, h]
  simp [CWord.gen]

end two

theorem predictNot_eq {a : CWord} (ha : a.wellFormed = true) : predictNot a = res (~~~a.data) := by
  apply mod15_eq_res
  refine ((srcRes_mod ha).sub_left _).trans ?_
  have := a.data.isLt
  rw [BitVec.toNat_not, Int.ModEq]
  omega

theorem notWord_eq {a : CWord} (ha : a.wellFormed = true) : notWord a = .gen (~~~a.data) := by
  rw [notWord, predictNot_eq ha]; rfl

theorem shlWord_eq {a : CWord} (ha : a.wellFormed = true) (n : Nat) : shlWord a n = .gen (a.data <<< n) := by
  unfold shlWord
  split
  · next h => rw [predictShl_eq ha h]; rfl
  · next h =>
    have : a.data <<< n = 0 := BitVec.shiftLeft_eq_zero (by omega)
    rw [this]; rfl

theorem shrWord_eq {a : CWord} (ha : a.wellFormed = true) (signed : Bool) (n : Nat) :
    shrWord signed a n = .gen (if signed then a.data.sshiftRight n else a.data >>> n) := by
  unfold shrWord
  cases signed
  · simp only [Bool.false_eq_true, if_false]
    split
    · next h => rw [predictShr_eq ha h]; rfl
    · next h =>
      have : a.data >>> n = 0 := by
        apply BitVec.eq_of_toNat_eq
        have := a.data.isLt
        rw [BitVec.toNat_ushiftRight, Nat.shiftRight_eq_div_pow,
          Nat.div_eq_of_lt (lt_of_lt_of_le this (Nat.pow_le_pow_right (by decide) (by omega)))]
        rfl
      rw [this]; rfl
  · simp only [if_true]
    split
    · next h => rw [predictSar_eq ha h]; rfl
    · next h =>
      have : a.data.sshiftRight n = if a.data.msb then BitVec.allOnes 32 else 0 := by
        ext i hi
        rw [BitVec.getElem_sshiftRight]
        rw [dif_neg (show ¬ n + i < 32 by omega)]
        cases a.data.msb
        · simp
        · rw [if_pos rfl, BitVec.getElem_allOnes]
      rw [this]
      cases a.data.msb <;> rfl

/-! ## Exact integers (R162, R166, R168) -/

/-- The predictor path has formed the residue of the value. -/
def Exact.Ok (e : Exact) : Prop := e.pre ≡ e.val [ZMOD 15]

theorem Exact.ok_const (n : Int) : (Exact.const n).Ok := rfl
theorem Exact.Ok.add {a b : Exact} (ha : a.Ok) (hb : b.Ok) : (a.add b).Ok := Int.ModEq.add ha hb
theorem Exact.Ok.sub {a b : Exact} (ha : a.Ok) (hb : b.Ok) : (a.sub b).Ok := Int.ModEq.sub ha hb
theorem Exact.Ok.mul {a b : Exact} (ha : a.Ok) (hb : b.Ok) : (a.mul b).Ok := Int.ModEq.mul ha hb
theorem Exact.Ok.neg {a : Exact} (ha : a.Ok) : a.neg.Ok := Int.ModEq.neg ha
theorem Exact.Ok.abs {a : Exact} (ha : a.Ok) : a.abs.Ok := by
  unfold Exact.abs
  split
  · exact ha.neg
  · exact ha
theorem Exact.Ok.half {a : Exact} (ha : a.Ok) : a.half.Ok := by
  refine inv2_cancel (n := 1) ?_
  refine (Int.ModEq.sub_right _ ha).trans ?_
  have : a.val - a.val % 2 = 2 ^ 1 * (a.val / 2) := by omega
  rw [this]
  rfl
theorem Exact.Ok.clamp {a : Exact} (ha : a.Ok) (lo hi : Int) : (a.clamp lo hi).Ok := by
  unfold Exact.clamp
  split
  · exact Exact.ok_const _
  · split
    · exact Exact.ok_const _
    · exact ha

@[simp] theorem Exact.add_val (a b : Exact) : (a.add b).val = a.val + b.val := rfl
@[simp] theorem Exact.sub_val (a b : Exact) : (a.sub b).val = a.val - b.val := rfl
@[simp] theorem Exact.mul_val (a b : Exact) : (a.mul b).val = a.val * b.val := rfl
@[simp] theorem Exact.neg_val (a : Exact) : a.neg.val = -a.val := rfl
@[simp] theorem Exact.const_val (n : Int) : (Exact.const n).val = n := rfl
@[simp] theorem Exact.half_val (a : Exact) : a.half.val = a.val / 2 := rfl
@[simp] theorem Exact.abs_val (a : Exact) : a.abs.val = |a.val| := by
  unfold Exact.abs
  split
  · rw [abs_of_neg (by assumption)]; rfl
  · rw [abs_of_nonneg (by omega)]
@[simp] theorem Exact.clamp_val (a : Exact) (lo hi : Int) : (a.clamp lo hi).val = clampInt lo hi a.val := by
  unfold Exact.clamp clampInt
  split
  · rfl
  · split <;> rfl

/-! ## Sources -/

theorem predictExt_eq {w : CWord} (h : w.wellFormed = true) (t : Nat) :
    (predictExt t w).toNat ≡ ((w.data.toNat % 2 ^ tyWidth t : Nat) : Int) [ZMOD 15] := by
  unfold predictExt
  split
  · next h32 =>
    have := srcRes_mod h
    rw [h32, Nat.mod_eq_of_lt w.data.isLt]
    exact this
  · have hle : tyWidth t ≤ 32 := by unfold tyWidth; split <;> [omega; split <;> omega]
    have := resI_mod (lowBits (tyWidth t) w.data)
    rwa [lowBits_toNat hle] at this

theorem tyWidth_cases (t : Nat) : tyWidth t = 32 ∨ tyWidth t = 16 ∨ tyWidth t = 8 := by
  unfold tyWidth
  split
  · exact .inl rfl
  · split
    · exact .inr (.inl rfl)
    · exact .inr (.inr rfl)

/-- The integer of a source agrees with its low bits, less 2^n where it is negative. -/
theorem tyExt_low (t : Nat) (x : Word) :
    tyExt t x = ((x.toNat % 2 ^ tyWidth t : Nat) : Int) - if tyExt t x < 0 then 2 ^ tyWidth t else 0 := by
  unfold tyExt
  rcases tyWidth_cases t with h | h | h <;> rw [h] <;> cases tySigned t <;>
    simp only [sextN, Bool.false_eq_true, if_false, if_true] <;> split <;> omega

theorem exactOf_ok {w : CWord} (h : w.wellFormed = true) (t : Nat) : (exactOf t w).Ok := by
  unfold Exact.Ok exactOf
  dsimp only
  refine ((predictExt_eq h t).sub_right _).trans ?_
  have e := tyExt_low t w.data
  rcases tyWidth_cases t with h | h | h <;> rw [h] at e ⊢ <;> split at e <;> rename_i hn <;> simp only [hn, if_true, if_false, Int.ModEq] <;> omega

@[simp] theorem exactOf_val (t : Nat) (w : CWord) : (exactOf t w).val = tyExt t w.data := rfl

theorem exactPair_ok {lo hi : CWord} (hl : lo.wellFormed = true) (hh : hi.wellFormed = true) (signed : Bool) :
    (exactPair signed lo hi).Ok := by
  unfold Exact.Ok exactPair
  dsimp only
  refine (((srcRes_mod hl).add (srcRes_mod hh)).sub_right _).trans ?_
  have h1 := lo.data.isLt
  have h2 := hi.data.isLt
  have h3 : (hi.data ++ lo.data).toNat = hi.data.toNat * 2 ^ 32 + lo.data.toNat := by
    rw [BitVec.toNat_append, ← Nat.shiftLeft_add_eq_or_of_lt h1, Nat.shiftLeft_eq]
  unfold ext64
  cases signed
  · simp only [Bool.false_eq_true, if_false, Bool.false_and, h3, Int.ModEq]
    omega
  · simp only [if_true, Bool.true_and, BitVec.toInt_eq_msb_cond, h3, BitVec.msb_append, Int.ModEq]
    have : ¬ (32 = 0) := by decide
    simp only [this, if_false]
    split <;> omega

@[simp] theorem exactPair_val (signed : Bool) (lo hi : CWord) : (exactPair signed lo hi).val = ext64 signed (hi.data ++ lo.data) := rfl

/-! ## Results -/

theorem ofInt_toNat (y : Int) : ((BitVec.ofInt 32 y).toNat : Int) = y % 2 ^ 32 := by
  rw [BitVec.toNat_ofInt]
  omega

theorem intWord_toNat (y : Int) (k : Nat) : ((intWord y k).toNat : Int) = y / 2 ^ (32 * k) % 2 ^ 32 := by
  rw [intWord, BitVec.toNat_ofInt]
  omega

theorem sum_words (y : Int) (n : Nat) :
    y ≡ ((List.range n).map fun i => ((intWord y i).toNat : Int)).sum + y / 2 ^ (32 * n) [ZMOD 15] := by
  induction n with
  | zero => simp
  | succ n ih =>
    rw [List.range_succ, List.map_append, List.sum_append, List.map_singleton, List.sum_singleton, intWord_toNat]
    refine ih.trans ?_
    rw [add_assoc]
    apply Int.ModEq.add_left
    have e : y / 2 ^ (32 * (n + 1)) = y / 2 ^ (32 * n) / 2 ^ 32 := by
      rw [mul_add, mul_one, pow_add, Int.ediv_ediv_of_nonneg (by positivity)]
    rw [e, Int.ModEq]
    omega

theorem sum_erase {α : Type} [DecidableEq α] (f : α → Int) (k : α) (l : List α) (hn : l.Nodup) (hk : k ∈ l) :
    (l.map f).sum = f k + ((l.filter (· != k)).map f).sum := by
  induction l with
  | nil => simp at hk
  | cons a l ih =>
    rw [List.nodup_cons] at hn
    by_cases h : a = k
    · subst h
      have : l.filter (· != a) = l := by
        rw [List.filter_eq_self]
        intro x hx
        have : x ≠ a := fun e => hn.1 (e ▸ hx)
        simpa using this
      simp [this]
    · have hk' : k ∈ l := by simpa [Ne.symm h] using hk
      have hb : (a != k) = true := by simpa using h
      have : (a :: l).filter (· != k) = a :: l.filter (· != k) := by simp [hb]
      rw [this, List.map_cons, List.sum_cons, List.map_cons, List.sum_cons, ih hn.2 hk']
      ring

theorem sum_resI (y : Int) (l : List Nat) :
    (l.map fun i => resI (intWord y i)).sum ≡ (l.map fun i => ((intWord y i).toNat : Int)).sum [ZMOD 15] := by
  induction l with
  | nil => rfl
  | cons a l ih => exact (resI_mod _).add ih

/-- A word of an exact integer carries the residue of its data. -/
theorem Exact.Ok.word {e : Exact} (h : e.Ok) {n k : Nat} (hk : k < n) : e.word n k = .gen (intWord e.val k) := by
  apply CWord.mk_eq_gen
  refine (((h.trans (sum_words e.val n)).sub (sum_resI _ _)).sub_right _).trans ?_
  rw [sum_erase _ k _ List.nodup_range (List.mem_range.2 hk)]
  rw [Int.ModEq]
  congr 1
  ring

theorem intWord_zero (y : Int) : intWord y 0 = BitVec.ofInt 32 y := by simp [intWord]

theorem typed_tag {e : Exact} (h : e.Ok) (t : Nat) (z : Int) (hz : z % 2 ^ tyWidth t = e.val % 2 ^ tyWidth t)
    (hr : tyMin t ≤ z ∧ z ≤ tyMax t) :
    (if tyWidth t = 32 then (e.word 1 0).tag else res (lowBits (tyWidth t) (intWord e.val 0))) = res (BitVec.ofInt 32 z) := by
  have hw := h.word (n := 1) (k := 0) (by decide)
  have h1 := ofInt_toNat e.val
  have h2 := ofInt_toNat z
  rw [intWord_zero] at hw ⊢
  split
  · next h32 =>
    rw [h32] at hz
    rw [hw]
    refine congrArg res (BitVec.eq_of_toNat_eq ?_)
    omega
  · apply BitVec.eq_of_toNat_eq
    rw [res_toNat, res_toNat]
    unfold tyMin tyMax at hr
    rcases tyWidth_cases t with h | h | h
    · contradiction
    all_goals
      rw [h] at hz hr ⊢
      rw [lowBits_toNat (by decide)]
      have hf : z / 2 ^ 32 = 0 ∧ 0 ≤ z ∧ z < 65536 ∨ z / 2 ^ 32 = -1 ∧ -65536 ≤ z ∧ z < 0 := by
        cases hs : tySigned t <;> simp only [hs, Bool.false_eq_true, if_false, if_true] at hr <;> omega
      rcases hf with hf | hf <;> cases hs : tySigned t <;> simp only [hs, Bool.false_eq_true, if_false, if_true] at hr <;> omega

theorem tyExt_range (t : Nat) (x : Word) : tyMin t ≤ tyExt t x ∧ tyExt t x ≤ tyMax t := by
  unfold tyMin tyMax tyExt
  rcases tyWidth_cases t with h | h | h <;> rw [h] <;> cases tySigned t <;>
    simp only [sextN, Bool.false_eq_true, if_false, if_true] <;> (try split) <;> omega

theorem tyExt_mod (t : Nat) (x : Word) : tyExt t x % 2 ^ tyWidth t = (x.toNat : Int) % 2 ^ tyWidth t := by
  have e := tyExt_low t x
  rcases tyWidth_cases t with h | h | h <;> rw [h] at e ⊢ <;> split at e <;> omega

/-- The word that R158 writes carries the residue of its data (R162). -/
theorem Exact.Ok.typed {e : Exact} (h : e.Ok) (t : Nat) (sat : Bool) : e.typed t sat = .gen (tyWrite t sat e.val) := by
  unfold Exact.typed CWord.gen
  cases sat
  · simp only [Bool.false_eq_true, if_false, tyWrite, tyWrap]
    rw [typed_tag h t (tyExt t (BitVec.ofInt 32 (e.val % 2 ^ tyWidth t))) ?_ (tyExt_range t _)]
    have h1 := ofInt_toNat (e.val % 2 ^ tyWidth t)
    rw [tyExt_mod, h1]
    rcases tyWidth_cases t with h | h | h <;> rw [h] <;> omega
  · simp only [if_true, tyWrite, tySat]
    rw [typed_tag (h.clamp (tyMin t) (tyMax t)) t (clampInt (tyMin t) (tyMax t) e.val) (by rw [Exact.clamp_val]) ?_]
    unfold clampInt tyMin tyMax
    rcases tyWidth_cases t with h | h | h <;> rw [h] <;> cases tySigned t <;>
      simp only [Bool.false_eq_true, if_false, if_true] <;> split <;> (try split) <;> omega

/-- The extension row (R158). -/
theorem extWord_eq {w : CWord} (h : w.wellFormed = true) (t : Nat) : extWord t w = .gen (tyWrap t (tyExt t w.data)) := by
  have e := (exactOf_ok h t).typed t false
  have hm := tyExt_mod t w.data
  have h1 := ofInt_toNat (tyExt t w.data)
  have h2 := w.data.isLt
  rw [show tyWrap t (tyExt t w.data) = tyWrite t false (exactOf t w).val from rfl, ← e]
  unfold extWord Exact.typed
  congr 1
  simp only [Bool.false_eq_true, if_false]
  have hw := (exactOf_ok h t).word (n := 1) (k := 0) (by decide)
  rw [intWord_zero, exactOf_val] at hw
  rw [hw, intWord_zero, exactOf_val]
  unfold predictExt
  split
  · next h32 =>
    rw [h32] at hm
    rw [wellFormed_iff.1 h]
    refine congrArg res (BitVec.eq_of_toNat_eq ?_)
    omega
  · congr 1
    apply BitVec.eq_of_toNat_eq
    rcases tyWidth_cases t with h | h | h
    · contradiction
    all_goals
      rw [h] at hm ⊢
      rw [lowBits_toNat (by decide), lowBits_toNat (by decide)]
      omega

/-! ## Pairs (R168, R169, R172) -/

theorem ofPair_eq (v : BitVec 64) : ofPair v = [.gen (v.extractLsb' 0 32), .gen (v.extractLsb' 32 32)] := rfl

theorem lo_toNat (v : BitVec 64) : (v.extractLsb' 0 32).toNat = v.toNat % 2 ^ 32 := by simp
theorem hi_toNat (v : BitVec 64) : (v.extractLsb' 32 32).toNat = v.toNat / 2 ^ 32 := by
  have := v.isLt
  rw [BitVec.extractLsb'_toNat, Nat.shiftRight_eq_div_pow]
  omega

theorem append_toNat (hi lo : Word) : (hi ++ lo).toNat = hi.toNat * 2 ^ 32 + lo.toNat := by
  rw [BitVec.toNat_append, ← Nat.shiftLeft_add_eq_or_of_lt lo.isLt, Nat.shiftLeft_eq]

/-- A pair whose predicted words carry the right residues. -/
theorem pairWith_eq {v : BitVec 64} {p : CWord × CWord} (h1 : p.1.tag = res (v.extractLsb' 0 32))
    (h2 : p.2.tag = res (v.extractLsb' 32 32)) : pairWith v p = ofPair v := by
  rw [pairWith, h1, h2]
  rfl

theorem pairWith_gen {v : BitVec 64} {p : CWord × CWord} (h1 : p.1 = .gen (v.extractLsb' 0 32))
    (h2 : p.2 = .gen (v.extractLsb' 32 32)) : pairWith v p = ofPair v :=
  pairWith_eq (by rw [h1]; rfl) (by rw [h2]; rfl)

theorem ofInt64_toNat (y : Int) : ((BitVec.ofInt 64 y).toNat : Int) = y % 2 ^ 64 := by
  rw [BitVec.toNat_ofInt]
  omega

theorem ofInt64_lo (y : Int) : (BitVec.ofInt 64 y).extractLsb' 0 32 = intWord y 0 := by
  apply BitVec.eq_of_toNat_eq
  have h1 := ofInt64_toNat y
  have h2 := intWord_toNat y 0
  rw [lo_toNat]
  simp only [mul_zero, pow_zero, Int.ediv_one] at h2
  omega

theorem ofInt64_hi (y : Int) : (BitVec.ofInt 64 y).extractLsb' 32 32 = intWord y 1 := by
  apply BitVec.eq_of_toNat_eq
  have h1 := ofInt64_toNat y
  have h2 := intWord_toNat y 1
  rw [hi_toNat]
  simp only [mul_one] at h2
  omega

/-- A pair that the predictor path forms from one exact integer, in `n` words. -/
theorem pairWith_word {e : Exact} (h : e.Ok) {n : Nat} (hn : 2 ≤ n) :
    pairWith (BitVec.ofInt 64 e.val) (e.word n 0, e.word n 1) = ofPair (BitVec.ofInt 64 e.val) :=
  pairWith_gen ((h.word (by omega)).trans (by rw [ofInt64_lo])) ((h.word (by omega)).trans (by rw [ofInt64_hi]))

section pairs
variable {a b : CWord × CWord} (ha1 : a.1.wellFormed = true) (ha2 : a.2.wellFormed = true) (hb1 : b.1.wellFormed = true)
  (hb2 : b.2.wellFormed = true)
include ha1 ha2 hb1 hb2

theorem chainWords_add (v : BitVec 64) (hv : v = (a.2.data ++ a.1.data) + (b.2.data ++ b.1.data)) :
    pairWith v (chainWords .add a b) = ofPair v := by
  have h1 : (⟨a.1.data.toNat, srcRes a.1⟩ : Exact).Ok := srcRes_mod ha1
  have h2 : (⟨a.2.data.toNat, srcRes a.2⟩ : Exact).Ok := srcRes_mod ha2
  have h3 : (⟨b.1.data.toNat, srcRes b.1⟩ : Exact).Ok := srcRes_mod hb1
  have h4 : (⟨b.2.data.toNat, srcRes b.2⟩ : Exact).Ok := srcRes_mod hb2
  have e1 := append_toNat a.2.data a.1.data
  have e2 := append_toNat b.2.data b.1.data
  have l1 := a.1.data.isLt
  have l2 := b.1.data.isLt
  apply pairWith_gen
  · rw [chainWords]
    dsimp only
    rw [(h1.add h3).word (by decide), intWord_zero]
    refine congrArg _ (BitVec.eq_of_toNat_eq ?_)
    rw [lo_toNat, hv, BitVec.toNat_add, e1, e2]
    have := ofInt_toNat ((Exact.add ⟨a.1.data.toNat, srcRes a.1⟩ ⟨b.1.data.toNat, srcRes b.1⟩).val)
    rw [Exact.add_val] at this ⊢
    dsimp only at this ⊢
    omega
  · rw [chainWords]
    dsimp only
    rw [((h2.add h4).add (Exact.ok_const _)).word (by decide), intWord_zero]
    refine congrArg _ (BitVec.eq_of_toNat_eq ?_)
    rw [hi_toNat, hv, BitVec.toNat_add, e1, e2]
    simp only [Exact.add_val, Exact.const_val]
    have := ofInt_toNat ((a.2.data.toNat : Int) + b.2.data.toNat + ((a.1.data.toNat : Int) + b.1.data.toNat) / 2 ^ 32)
    omega

theorem chainWords_sub (v : BitVec 64) (hv : v = (a.2.data ++ a.1.data) - (b.2.data ++ b.1.data)) :
    pairWith v (chainWords .sub a b) = ofPair v := by
  have h1 : (⟨a.1.data.toNat, srcRes a.1⟩ : Exact).Ok := srcRes_mod ha1
  have h2 : (⟨a.2.data.toNat, srcRes a.2⟩ : Exact).Ok := srcRes_mod ha2
  have h3 : (⟨b.1.data.toNat, srcRes b.1⟩ : Exact).Ok := srcRes_mod hb1
  have h4 : (⟨b.2.data.toNat, srcRes b.2⟩ : Exact).Ok := srcRes_mod hb2
  have e1 := append_toNat a.2.data a.1.data
  have e2 := append_toNat b.2.data b.1.data
  have l1 := a.1.data.isLt
  have l2 := b.1.data.isLt
  apply pairWith_gen
  · rw [chainWords]
    dsimp only
    rw [(h1.sub h3).word (by decide), intWord_zero]
    refine congrArg _ (BitVec.eq_of_toNat_eq ?_)
    rw [lo_toNat, hv, BitVec.toNat_sub, e1, e2]
    have := ofInt_toNat ((a.1.data.toNat : Int) - b.1.data.toNat)
    simp only [Exact.sub_val]
    omega
  · rw [chainWords]
    dsimp only
    rw [((h2.sub h4).add (Exact.ok_const _)).word (by decide), intWord_zero]
    refine congrArg _ (BitVec.eq_of_toNat_eq ?_)
    rw [hi_toNat, hv, BitVec.toNat_sub, e1, e2]
    simp only [Exact.sub_val, Exact.add_val, Exact.const_val]
    have := ofInt_toNat ((a.2.data.toNat : Int) - b.2.data.toNat + ((a.1.data.toNat : Int) - b.1.data.toNat) / 2 ^ 32)
    omega

end pairs

theorem ext64_mod (signed : Bool) (v : BitVec 64) : ext64 signed v % 2 ^ 64 = (v.toNat : Int) % 2 ^ 64 := by
  unfold ext64
  cases signed
  · rfl
  · simp only [if_true, BitVec.toInt_eq_msb_cond]
    split <;> omega

theorem shlPair_eq {lo hi : CWord} (hl : lo.wellFormed = true) (hh : hi.wellFormed = true) (n : Nat) :
    pairWith ((hi.data ++ lo.data) <<< n) (shlPair lo hi n) = ofPair ((hi.data ++ lo.data) <<< n) := by
  have e := append_toNat hi.data lo.data
  have l1 := lo.data.isLt
  have l2 := hi.data.isLt
  unfold shlPair
  dsimp only
  split
  · next hn =>
    have hp : 2 ^ n * 2 ^ (32 - n) = 2 ^ 32 := by rw [← pow_add]; congr 1; omega
    have low : ((hi.data ++ lo.data) <<< n).extractLsb' 0 32 = lo.data <<< n := by
      apply BitVec.eq_of_toNat_eq
      rw [lo_toNat, BitVec.toNat_shiftLeft, BitVec.toNat_shiftLeft, e, Nat.shiftLeft_eq, Nat.shiftLeft_eq]
      have : (hi.data.toNat * 2 ^ 32 + lo.data.toNat) * 2 ^ n = lo.data.toNat * 2 ^ n + 2 ^ 32 * (hi.data.toNat * 2 ^ n) := by ring
      rw [this]
      omega
    apply pairWith_eq
    · dsimp only
      rw [low, predictShl_eq hl hn]
    · dsimp only
      apply mod15_eq_res
      refine ((((srcRes_mod hh).mul_left _).add (resI_mod _)).sub (resI_mod _)).trans ?_
      have hs : ∀ w : Word, (shiftedOut w n).toNat = w.toNat / 2 ^ (32 - n) := by
        intro w
        have := w.isLt
        unfold shiftedOut
        split
        · next h0 => subst h0; simp; omega
        · simp [Nat.shiftRight_eq_div_pow]
      have hv : (((hi.data ++ lo.data) <<< n).extractLsb' 32 32).toNat =
          hi.data.toNat * 2 ^ n % 2 ^ 32 + lo.data.toNat / 2 ^ (32 - n) := by
        rw [hi_toNat, BitVec.toNat_shiftLeft, e, Nat.shiftLeft_eq]
        have h1 : (hi.data.toNat * 2 ^ 32 + lo.data.toNat) * 2 ^ n = lo.data.toNat * 2 ^ n + 2 ^ 32 * (hi.data.toNat * 2 ^ n) := by ring
        have h2 : lo.data.toNat * 2 ^ n / 2 ^ 32 = lo.data.toNat / 2 ^ (32 - n) := by
          rw [← hp, mul_comm (lo.data.toNat), Nat.mul_div_mul_left _ _ (Nat.two_pow_pos n)]
        have h3 : lo.data.toNat / 2 ^ (32 - n) < 2 ^ n := by
          rw [Nat.div_lt_iff_lt_mul (Nat.two_pow_pos _), hp]; exact l1
        have h4 : hi.data.toNat * 2 ^ n % 2 ^ 32 = 2 ^ n * (hi.data.toNat % 2 ^ (32 - n)) := by
          rw [← hp, mul_comm (hi.data.toNat), Nat.mul_mod_mul_left]
        have h5 : hi.data.toNat % 2 ^ (32 - n) + 1 ≤ 2 ^ (32 - n) := Nat.mod_lt _ (Nat.two_pow_pos _)
        have h6 : 2 ^ n * (hi.data.toNat % 2 ^ (32 - n)) + 2 ^ n ≤ 2 ^ 32 := by
          have := Nat.mul_le_mul_left (2 ^ n) h5
          rw [hp, mul_add, mul_one] at this
          exact this
        rw [h1, ← h2]
        rw [← h4] at h6
        rw [← h2] at h3
        generalize hi.data.toNat * 2 ^ n = x at *
        generalize lo.data.toNat * 2 ^ n = y at *
        omega
      rw [hv, hs, hs]
      have e' : (2 : Int) ^ n * (hi.data.toNat : Int) = ((hi.data.toNat * 2 ^ n % 2 ^ 32 : Nat) : Int) + 2 ^ 32 * ((hi.data.toNat / 2 ^ (32 - n) : Nat) : Int) := by
        have : 2 ^ n * hi.data.toNat = hi.data.toNat * 2 ^ n % 2 ^ 32 + 2 ^ 32 * (hi.data.toNat / 2 ^ (32 - n)) := by
          rw [← hp, mul_comm (hi.data.toNat) (2 ^ n), Nat.mul_mod_mul_left, mul_assoc, ← mul_add]
          congr 1
          have := Nat.mod_add_div hi.data.toNat (2 ^ (32 - n))
          omega
        exact_mod_cast this
      rw [e', Int.ModEq]
      push_cast
      omega
  · next hn =>
    have low : ((hi.data ++ lo.data) <<< n).extractLsb' 0 32 = 0 := by
      ext i hi'
      simp
      omega
    have high : ((hi.data ++ lo.data) <<< n).extractLsb' 32 32 = lo.data <<< (n - 32) := by
      ext i hi'
      rw [BitVec.getElem_extractLsb', BitVec.getLsbD_shiftLeft, BitVec.getElem_shiftLeft, BitVec.getLsbD_append]
      by_cases h1 : i < n - 32
      · simp [h1, show 32 + i < n by omega]
      · simp only [show ¬ 32 + i < n by omega, h1, show 32 + i - n < 32 by omega, show 32 + i < 64 by omega, if_true, decide_true,
          decide_false, Bool.not_false, Bool.true_and, show i - (n - 32) = 32 + i - n by omega]
        rw [BitVec.getLsbD_eq_getElem (by omega)]
    apply pairWith_eq
    · dsimp only
      rw [low]; rfl
    · dsimp only
      rw [high]
      split
      · rw [predictShl_eq hl (by omega)]
      · rw [BitVec.shiftLeft_eq_zero (by omega)]; rfl

theorem shr_bit (w : Word) (signed : Bool) (m i : Nat) (hi : i < 32) :
    (if signed then w.sshiftRight m else w >>> m : Word).getLsbD i = if m + i < 32 then w.getLsbD (m + i) else signed && w.msb := by
  cases signed
  · simp only [Bool.false_eq_true, if_false, BitVec.getLsbD_ushiftRight, Bool.false_and]
    split
    · rfl
    · exact BitVec.getLsbD_of_ge _ _ (by omega)
  · simp only [if_true, BitVec.getLsbD_sshiftRight, Bool.true_and, show ¬ 32 ≤ i by omega, decide_false, Bool.not_false]

theorem shrPair_eq {lo hi : CWord} (hl : lo.wellFormed = true) (hh : hi.wellFormed = true) (signed : Bool) (n : Nat) :
    let v := if signed then (hi.data ++ lo.data).sshiftRight n else (hi.data ++ lo.data) >>> n
    pairWith v (shrPair signed lo hi n) = ofPair v := by
  intro v
  have e := append_toNat hi.data lo.data
  have l1 := lo.data.isLt
  have l2 := hi.data.isLt
  have hm : (hi.data ++ lo.data).msb = hi.data.msb := by rw [BitVec.msb_append]; simp
  have bit : ∀ k < 64, v.getLsbD k = if n + k < 32 then lo.data.getLsbD (n + k) else if n + k < 64 then hi.data.getLsbD (n + k - 32)
      else signed && hi.data.msb := by
    intro k hk
    simp only [v]
    cases signed
    · simp only [Bool.false_eq_true, if_false, BitVec.getLsbD_ushiftRight, BitVec.getLsbD_append, Bool.false_and]
      split
      · rfl
      · split
        · rfl
        · exact BitVec.getLsbD_of_ge _ _ (by omega)
    · simp only [if_true, BitVec.getLsbD_sshiftRight, BitVec.getLsbD_append, hm, Bool.true_and, show ¬ 64 ≤ k by omega, decide_false,
        Bool.not_false]
      by_cases h1 : n + k < 64
      · simp only [h1, if_true]
      · simp only [h1, if_false, show ¬ n + k < 32 by omega]
  have high : v.extractLsb' 32 32 = if signed then hi.data.sshiftRight n else hi.data >>> n := by
    apply BitVec.eq_of_getLsbD_eq
    intro i hi'
    rw [BitVec.getLsbD_extractLsb', shr_bit _ _ _ _ hi', bit _ (by omega)]
    simp only [hi', decide_true, Bool.true_and, show ¬ n + (32 + i) < 32 by omega, if_false, show n + (32 + i) - 32 = n + i by omega]
    split <;> split <;> first | rfl | omega
  have hw := shrWord_eq hh signed n
  unfold shrPair
  dsimp only
  split
  · next hn =>
    apply pairWith_eq
    · dsimp only
      apply mod15_eq_res
      have hlo : (v.extractLsb' 0 32).toNat = 2 ^ (32 - n) * (hi.data.toNat % 2 ^ n) + lo.data.toNat / 2 ^ n := by
        have h1 : v.extractLsb' 0 32 = ((hi.data ++ lo.data) >>> n).extractLsb' 0 32 := by
          apply BitVec.eq_of_getLsbD_eq
          intro i hi'
          rw [BitVec.getLsbD_extractLsb', BitVec.getLsbD_extractLsb', bit _ (by omega), BitVec.getLsbD_ushiftRight, BitVec.getLsbD_append]
          simp only [hi', decide_true, Bool.true_and, zero_add, show n + i < 64 by omega, if_true]
        have hp : 2 ^ n * 2 ^ (32 - n) = 2 ^ 32 := by rw [← pow_add]; congr 1; omega
        have h2 : (hi.data.toNat * 2 ^ 32 + lo.data.toNat) / 2 ^ n = 2 ^ (32 - n) * hi.data.toNat + lo.data.toNat / 2 ^ n := by
          rw [← hp, show hi.data.toNat * (2 ^ n * 2 ^ (32 - n)) + lo.data.toNat = lo.data.toNat + 2 ^ n * (2 ^ (32 - n) * hi.data.toNat) by ring,
            Nat.add_mul_div_left _ _ (Nat.two_pow_pos n), add_comm]
        have h3 : 2 ^ (32 - n) * (hi.data.toNat % 2 ^ n) = 2 ^ (32 - n) * hi.data.toNat % 2 ^ 32 := by
          rw [← hp, mul_comm (2 ^ n), Nat.mul_mod_mul_left]
        have h4 : lo.data.toNat / 2 ^ n < 2 ^ (32 - n) := by
          rw [Nat.div_lt_iff_lt_mul (Nat.two_pow_pos _), mul_comm, hp]; exact l1
        have h5 : hi.data.toNat % 2 ^ n + 1 ≤ 2 ^ n := Nat.mod_lt _ (Nat.two_pow_pos n)
        have h6 : 2 ^ (32 - n) * (hi.data.toNat % 2 ^ n) + 2 ^ (32 - n) ≤ 2 ^ 32 := by
          have := Nat.mul_le_mul_left (2 ^ (32 - n)) h5
          rw [mul_comm _ (2 ^ n), hp, mul_add, mul_one] at this
          exact this
        rw [h1, lo_toNat, BitVec.toNat_ushiftRight, e, Nat.shiftRight_eq_div_pow, h2]
        rw [h3] at h6 ⊢
        generalize 2 ^ (32 - n) * hi.data.toNat = x at *
        generalize lo.data.toNat / 2 ^ n = y at *
        omega
      apply inv2_cancel
      refine (((srcRes_mod hl).sub (resI_mod _)).add (resI_mod _)).trans ?_
      rw [lowBits_toNat (by omega), lowBits_toNat (by omega), hlo]
      have hp : (2 : Int) ^ n * 2 ^ (32 - n) = 2 ^ 32 := by rw [← pow_add]; congr 1; omega
      have h1 : (lo.data.toNat : Int) = 2 ^ n * ((lo.data.toNat / 2 ^ n : Nat) : Int) + ((lo.data.toNat % 2 ^ n : Nat) : Int) := by
        exact_mod_cast (Nat.div_add_mod lo.data.toNat (2 ^ n)).symm
      have h2 : (2 : Int) ^ n * ((2 ^ (32 - n) * (hi.data.toNat % 2 ^ n) + lo.data.toNat / 2 ^ n : Nat) : Int) =
          2 ^ 32 * ((hi.data.toNat % 2 ^ n : Nat) : Int) + 2 ^ n * ((lo.data.toNat / 2 ^ n : Nat) : Int) := by
        rw [← hp]; push_cast; ring
      rw [h2]
      conv_lhs => rw [h1]
      rw [Int.ModEq]
      generalize (2 : Int) ^ n * ((lo.data.toNat / 2 ^ n : Nat) : Int) = x
      omega
    · rw [hw, high]; rfl
  · next hn =>
    have fill : ∀ m, (32 ≤ m) → (if signed then hi.data.sshiftRight m else hi.data >>> m : Word) =
        if signed then hi.data.sshiftRight n else hi.data >>> n := by
      intro m hm'
      apply BitVec.eq_of_getLsbD_eq
      intro i hi'
      rw [shr_bit _ _ _ _ hi', shr_bit _ _ _ _ hi', if_neg (by omega), if_neg (by omega)]
    have low : v.extractLsb' 0 32 = if signed then hi.data.sshiftRight (n - 32) else hi.data >>> (n - 32) := by
      apply BitVec.eq_of_getLsbD_eq
      intro i hi'
      rw [BitVec.getLsbD_extractLsb', shr_bit _ _ _ _ hi', bit _ (by omega)]
      simp only [hi', decide_true, Bool.true_and, zero_add, show ¬ n + i < 32 by omega, if_false, show n + i - 32 = n - 32 + i by omega]
      split <;> split <;> first | rfl | omega
    split
    · exact pairWith_gen (by dsimp only; rw [shrWord_eq hh, low]) (by dsimp only; rw [hw, high])
    · exact pairWith_gen (by dsimp only; rw [hw, low, fill (n - 32) (by omega)]) (by dsimp only; rw [hw, high])

theorem shlPair_gen {lo hi : CWord} (hl : lo.wellFormed = true) (hh : hi.wellFormed = true) (n : Nat) :
    shlPair lo hi n = (.gen (((hi.data ++ lo.data) <<< n).extractLsb' 0 32), .gen (((hi.data ++ lo.data) <<< n).extractLsb' 32 32)) := by
  have h := shlPair_eq hl hh n
  rw [pairWith, ofPair_eq] at h
  simp only [List.cons.injEq, and_true] at h
  rw [← h.1, ← h.2]
  unfold shlPair
  dsimp only
  split <;> rfl

/-- What a pair form writes (R168): the clamped value with its own residues. -/
theorem pairInt_dst {signed sat : Bool} {z : Int} {p : CWord × CWord}
    (h : pairWith (BitVec.ofInt 64 z) p = ofPair (BitVec.ofInt 64 z)) :
    (if sat && write64 signed sat z != write64 signed false z then ofPair (write64 signed sat z) else pairWith (write64 signed sat z) p) =
      ofPair (write64 signed sat z) := by
  have e : write64 signed false z = BitVec.ofInt 64 z := rfl
  split
  · rfl
  · next hn =>
    have : write64 signed sat z = BitVec.ofInt 64 z := by
      cases sat
      · rfl
      · rw [← e]; simpa using hn
    rw [this, h]

theorem mod64_eq {x : Int} {v : BitVec 64} (h : x % 2 ^ 64 = (v.toNat : Int) % 2 ^ 64) : BitVec.ofInt 64 x = v := by
  apply BitVec.eq_of_toNat_eq
  have h1 := ofInt64_toNat x
  have h2 := v.isLt
  omega

theorem ofInt64_add (signed : Bool) (a b : BitVec 64) : BitVec.ofInt 64 (ext64 signed a + ext64 signed b) = a + b := by
  have h1 := ext64_mod signed a
  have h2 := ext64_mod signed b
  apply mod64_eq
  rw [BitVec.toNat_add]
  omega

theorem ofInt64_sub (signed : Bool) (a b : BitVec 64) : BitVec.ofInt 64 (ext64 signed a - ext64 signed b) = a - b := by
  have h1 := ext64_mod signed a
  have h2 := ext64_mod signed b
  have h3 := b.isLt
  apply mod64_eq
  rw [BitVec.toNat_sub]
  omega

theorem ofInt64_neg (signed : Bool) (a : BitVec 64) : BitVec.ofInt 64 (-ext64 signed a) = 0 - a := by
  have h1 := ext64_mod signed a
  have h2 := a.isLt
  apply mod64_eq
  rw [BitVec.toNat_sub]
  simp only [BitVec.ofNat_eq_ofNat, BitVec.toNat_ofNat]
  omega

theorem productWords_eq {a b : CWord × CWord} (ha1 : a.1.wellFormed = true) (ha2 : a.2.wellFormed = true)
    (hb1 : b.1.wellFormed = true) (hb2 : b.2.wellFormed = true) (signed : Bool) :
    let z := ext64 signed (a.2.data ++ a.1.data) * ext64 signed (b.2.data ++ b.1.data)
    pairWith (BitVec.ofInt 64 z) (productWords signed a b) = ofPair (BitVec.ofInt 64 z) :=
  pairWith_word ((exactPair_ok ha1 ha2 signed).mul (exactPair_ok hb1 hb2 signed)) (n := 4) (by decide)

/-! ## Products of bytes and of 24 bits (R165, R167) -/

theorem byteExact_ok (signed : Bool) (x : Word) (k : Nat) : (byteExact signed x k).Ok := by
  unfold Exact.Ok byteExact
  dsimp only
  have h1 := resI_mod (lowBits 8 (x >>> (8 * k)))
  rw [lowBits_toNat (by decide)] at h1
  have h2 := lowBits_toNat (n := 8) (by decide) (x >>> (8 * k))
  refine (h1.sub_right _).trans ?_
  rw [h2]
  cases signed
  · simp only [Bool.false_eq_true, if_false, Int.ModEq]
    rw [if_neg (by omega)]
    omega
  · simp only [if_true, sextN, Int.ModEq]
    split <;> split <;> omega

theorem byteExact_val (signed : Bool) (x : Word) (k : Nat) :
    (byteExact signed x k).val = if signed then (x.extractLsb' (8 * k) 8).toInt else (x.extractLsb' (8 * k) 8).toNat := by
  unfold byteExact
  dsimp only
  have h2 := lowBits_toNat (n := 8) (by decide) (x >>> (8 * k))
  have h3 : (x.extractLsb' (8 * k) 8).toNat = (x >>> (8 * k)).toNat % 2 ^ 8 := by
    rw [BitVec.extractLsb'_toNat, BitVec.toNat_ushiftRight]
  rw [h2]
  cases signed
  · simp only [Bool.false_eq_true, if_false]
    rw [h3]
  · simp only [if_true]
    rw [BitVec.toInt_eq_toNat_cond, h3, sextN]
    have : (x >>> (8 * k)).toNat % 2 ^ 8 % 2 ^ 8 = (x >>> (8 * k)).toNat % 2 ^ 8 := by omega
    split <;> split <;> omega

theorem idp4Sum_ok (f : Fields) (a b : Word) {c : CWord} (hc : c.wellFormed = true) (ta tb : BitVec 4) :
    (idp4Sum f ⟨a, ta⟩ ⟨b, tb⟩ c).Ok := by
  unfold idp4Sum
  simp only [List.range_succ, List.range_zero, List.nil_append, List.foldl_append, List.foldl_cons, List.foldl_nil]
  exact ((((exactOf_ok hc _).add ((byteExact_ok _ _ _).mul (byteExact_ok _ _ _))).add ((byteExact_ok _ _ _).mul (byteExact_ok _ _ _))).add
    ((byteExact_ok _ _ _).mul (byteExact_ok _ _ _))).add ((byteExact_ok _ _ _).mul (byteExact_ok _ _ _))

theorem exact24_ok (w : Word) : (exact24 w).Ok := by
  unfold Exact.Ok exact24
  dsimp only
  have h1 := resI_mod (lowBits 24 w)
  rw [lowBits_toNat (by decide)] at h1
  refine (h1.sub_right _).trans ?_
  simp only [sextN, Int.ModEq]
  split <;> split <;> omega

/-! ## Bit fields and bytes (R173, R176) -/

theorem bfxChecked_eq {a b : CWord} (ha : a.wellFormed = true) (signed : Bool) :
    bfxChecked signed a b = .gen (bfxWord signed a.data b.data) := by
  unfold bfxChecked bfxWord
  cases hs : fieldSpan b.data with
  | none => show (⟨0, 0⟩ : CWord) = .gen 0; decide
  | some x =>
    obtain ⟨pos, n⟩ := x
    dsimp only
    rw [shrWord_eq ha]
    simp only [andWord, CWord.gen_data, Bool.false_eq_true, if_false]
    split
    · rw [predictOr_eq (CWord.gen_wellFormed _) (CWord.gen_wellFormed _)]; rfl
    · rfl

theorem bfiChecked_eq {a b c : CWord} (ha : a.wellFormed = true) (hc : c.wellFormed = true) :
    bfiChecked a b c = .gen (bfiWord a.data b.data c.data) := by
  unfold bfiChecked bfiWord
  cases hs : fieldSpan b.data with
  | none => exact congrArg (CWord.mk c.data) (wellFormed_iff.1 hc)
  | some x =>
    obtain ⟨pos, n⟩ := x
    dsimp only
    rw [shlWord_eq (a := andWord a (.gen (ones n))) (CWord.gen_wellFormed _),
      orWord_eq (a := andWord c (.gen (~~~(ones n <<< pos)))) (CWord.gen_wellFormed _) (CWord.gen_wellFormed _)]
    rfl

theorem bselByte_lt (a b c : Word) (i : Nat) : bselByte a b c i < 256 := by
  unfold bselByte
  dsimp only
  split <;> (try split) <;> (try split) <;> omega

theorem bsel_tag (a b c : Word) : mod15 (((List.range 4).map fun k => (bselByte a b c k : Int)).sum) = res (bselWord a b c) := by
  apply mod15_eq_res
  have h0 := bselByte_lt a b c 0
  have h1 := bselByte_lt a b c 1
  have h2 := bselByte_lt a b c 2
  have h3 := bselByte_lt a b c 3
  unfold bselWord
  rw [BitVec.toNat_ofNat, Nat.mod_eq_of_lt (by omega), Int.ModEq]
  simp only [List.range_succ, List.range_zero, List.nil_append, List.map_append, List.map_cons, List.map_nil, List.sum_append,
    List.sum_cons, List.sum_nil, List.singleton_append, List.cons_append]
  omega

/-! ## Conversions (R193) -/

theorem cvtExact_ok {ws : List CWord} (h0 : (c0 ws).wellFormed = true) (h1 : (c1 ws).wellFormed = true) (code : Nat) :
    (cvtExact code ws).Ok := by
  unfold cvtExact
  split
  · exact exactPair_ok h0 h1 _
  · exact exactOf_ok h0 _

theorem cvtExactWords_eq {e : Exact} (h : e.Ok) (code : Nat) : cvtExactWords code e = cvtPut code e.val := by
  unfold cvtExactWords cvtPut
  split
  · rw [h.word (by decide), h.word (by decide), ofPair_eq, ofInt64_lo, ofInt64_hi]
  · rw [h.typed]; rfl

end Sys2Proof.Machine
end

