-- ==== Sys2Proof/Tests/Slice0.lean ====
section
/-!
SUPPORT. Tests of the model: well-formedness, decoding of words written out from the manual's encodings, the manual's
worked examples, one step each, and for every statement with premises a state and operands that meet them.
-/

set_option maxRecDepth 100000
set_option exponentiation.threshold 5000

namespace Sys2Proof.Tests

open Sys2Proof Sys2Proof.Machine

/-! ## Well-formedness: a term that each check of R141 refuses -/

/-- Fields of an F64 instruction under guard 15. -/
def tf (d a b c m : Nat) : Fields :=
  { fmt := .f64, s := false, g := 15, d := BitVec.ofNat 9 d, a := BitVec.ofNat 9 a, b := BitVec.ofNat 9 b,
    c := BitVec.ofNat 9 c, m := BitVec.ofNat 11 m }

theorem test_wf_accepts : (Instr.add (tf 4 2 6 0 0)).wf = true ∧ (Instr.addCompact ⟨false, 15, 7, 9, 0⟩).wf = true ∧
    (Instr.clauseHeader ⟨5, 3, 0b1100⟩).wf = true := by decide
theorem test_wf_type : (Instr.ext (tf 4 2 0 0 0)).wf = false := by decide
theorem test_wf_guard : (Instr.add { tf 4 2 6 0 0 with g := 12 }).wf = false := by decide
theorem test_wf_literal : (Instr.mul { tf 4 2 1 0 8 with fmt := .f96 5 }).wf = false := by decide
theorem test_wf_reserved_field : (Instr.nop (tf 1 0 0 0 0)).wf = false := by decide
theorem test_wf_uniform_bit : (Instr.movw (tf 4 2 0 0 1)).wf = false := by decide
theorem test_wf_odd_pair : (Instr.add64 (tf 5 2 6 0 0)).wf = false := by decide
theorem test_wf_predicate : (Instr.cmp (tf 3 2 6 0 0)).wf = false := by decide
theorem test_wf_compact_guard : (Instr.addCompact ⟨false, 13, 7, 9, 0⟩).wf = false := by decide
theorem test_wf_header : (Instr.clauseHeader ⟨5, 6, 0⟩).wf = false := by decide

/-! ## Decoding: words put together from the fields of R125, R129 and R134 -/

/-- The bits of an F64 word: LEN, S, G, OP10, D9, A9, B9, C9 and M11 at their places (R125). -/
def f64 (op d a b c m : Nat) : BitVec 96 :=
  BitVec.ofNat 96 (0b01 + 15 * 2 ^ 3 + op * 2 ^ 7 + d * 2 ^ 17 + a * 2 ^ 26 + b * 2 ^ 35 + c * 2 ^ 44 + m * 2 ^ 53)

theorem test_decode_sub : decode (f64 0x001 4 2 6 0 0) = .sub (tf 4 2 6 0 0) := by decide
theorem test_decode_madw : decode (f64 0x00D 4 2 6 8 0) = .madw (tf 4 2 6 8 0) := by decide
theorem test_decode_xor : decode (f64 0x0C2 4 2 6 0 0) = .xorB (tf 4 2 6 0 0) := by decide
theorem test_decode_bsel : decode (f64 0x0D4 4 2 6 8 0) = .bsel (tf 4 2 6 8 0) := by decide
theorem test_decode_cmp : decode (f64 0x140 4 2 6 0 0) = .cmp (tf 4 2 6 0 0) := by decide
theorem test_decode_lerp : decode (f64 0x18D 4 2 6 8 0) = .lerp (tf 4 2 6 8 0) := by decide
theorem test_decode_cvt : decode (f64 0x220 4 2 0 0x80 0) = .cvt (tf 4 2 0 0x80 0) := by decide
theorem test_decode_tanh : decode (f64 0x287 4 2 0 0 0) = .tanh (tf 4 2 0 0 0) := by decide
theorem test_decode_mmul : decode (f64 0x2A4 3 2 6 8 0) = .mmul (tf 3 2 6 8 0) := by decide
theorem test_decode_vote : decode (f64 0x2C0 4 2 0 0x100 0) = .vote (tf 4 2 0 0x100 0) := by decide
theorem test_decode_ret : decode (f64 0x305 0 0 0 0 0) = .ret (tf 0 0 0 0 0) := by decide
theorem test_decode_barx : decode (f64 0x345 0 0 0 0 0) = .barx (tf 0 0 0 0 0) := by decide
theorem test_decode_trap : decode (f64 0x3F0 0 511 0 0 0) = .trap (tf 0 511 0 0 0) := by decide
theorem test_decode_sysr : decode (f64 0x3F2 4 0 0x18 0 0) = .sysr (tf 4 0 0x18 0 0) := by decide
theorem test_decode_ld : decode (f64 0x380 4 2 6 0 0x80) = .ld (tf 4 2 6 0 0x80) := by decide
theorem test_decode_cas : decode (f64 0x3C1 4 2 6 8 0) = .cas (tf 4 2 6 8 0) := by decide
theorem test_decode_cancel : decode (f64 0x3E1 4 2 0 0 24) = .cancel (tf 4 2 0 0 24) := by decide
/-- F32: OP8 0x11 is `SUB` of floats (R131). -/
theorem test_decode_compact : decode (BitVec.ofNat 96 (15 * 2 ^ 3 + 0x11 * 2 ^ 7 + 7 * 2 ^ 15 + 9 * 2 ^ 22 + 1 * 2 ^ 29)) =
    .subFloatCompact ⟨false, 15, 7, 9, 1⟩ := by decide
/-- H64: LEN `0b11`, CNT, ENG and WMASK (R134). -/
theorem test_decode_header : decode (BitVec.ofNat 96 (0b11 + 15 * 2 ^ 2 + 4 * 2 ^ 6 + 0xFF * 2 ^ 9)) =
    .clauseHeader ⟨15, 4, 0xFF⟩ := by decide
/-- F96: the literal is the third word (R128). -/
theorem test_decode_literal : decodeTableWord 96 (0b10 + 15 * 2 ^ 3 + 0x008 * 2 ^ 7 + 10 * 2 ^ 17 + 5 * 2 ^ 26 +
    8 * 2 ^ 53 + 0x00010003 * 2 ^ 64) = some (.mul { tf 10 5 0 0 8 with fmt := .f96 0x00010003 }) := by decide
theorem test_decode_refuses : decodeTableWord 64 (0b01 + 15 * 2 ^ 3 + 0x3FF * 2 ^ 7) = none := by decide
theorem test_encode_sub : encodeBits (.sub (tf 4 2 6 0 0)) = f64 0x001 4 2 6 0 0 := by decide

/-! ## A small state -/

/-- A ready lane at an address, with words in its vector registers. -/
def tLane (pc bid : Nat) (rs : List (Nat × Word)) : Thread :=
  { Thread.absent with status := .ready, pc := BitVec.ofNat 55 pc, bid := bid, csp := 0x20800, regs := rs.map fun e => (e.1, .gen e.2) }

/-- A warp whose lanes 0 and 1 are one bundle with registers `rs` and `qs`; lane 2 lives in another; `ws` are uniform. -/
def tWarp (rs qs ws : List (Nat × Word)) : Warp :=
  { Warp.absent with
    lanes := tLane 0x10000 0 rs :: tLane 0x10000 0 qs :: tLane 0x10400 1 [] :: List.replicate 29 .absent
    wregs := ws.map fun e => (e.1, .gen e.2)
    next := 2 }

/-- A workgroup of that warp in slot 0 of core 0, alone in its gang, with 4 KiB of full scratchpad. -/
def tWg : Workgroup :=
  { Workgroup.absent with
    grid := 1, ctx := 1, warps := 1, nreg := 512, spad := 4096, copyq := 4, full := BitVec.allOnes 4096, gang := [⟨0, 0⟩]
    ended := false }

/-- A privileged grid; format slot 0 is binary32 without blocks, slot 1 E4M3 with blocks, slot 2 E4M3 without. -/
def tGrid : Grid :=
  { Grid.absent with ctx := 1, region := 0x900, nreg := 512, slines := 32, priv := true, slots := [0x0000, 0x0036, 0x0006] }

/-- A vector table at 0x40000: causes 0 to 15 go to 0x50000. -/
def tTable : Mem := Mem.empty.setWords 0x40000 ((List.range 16).flatMap fun _ => [.gen 0x50000, .gen 0x80000000])

/-- A device that is up and runs that warp; translations of the pages 0x20000 and 0x40000 are held. -/
def tBase (rs qs ws : List (Nat × Word)) : State :=
  { State.reset with
    life := .up, cycle := 1000, cur := ⟨0, 3, 0x10000⟩, warps := [(0, tWarp rs qs ws)], wgs := [(0, tWg)], grids := [(1, tGrid)]
    ctxs := [(1, { Context.absent with tvec := 0x40000 })], pitches := [(0, { Pitch.reset with units := 1, ctxLo := 1, ctxN := 8 })]
    units := [(0, 0)], rennet := bootRennet, mem := tTable
    cores := [(0, { Core.reset with
      dtlb := [⟨1, 0x20000, false, 0x20000, true, false, true⟩, ⟨1, 0x40000, false, 0x40000, true, false, true⟩] })] }

/-- That device with every register 0. -/
def tZero : State := tBase [] [] []

/-- Fields that an opcode accepts. -/
def tOk (op : Op) : Fields :=
  let (d, a, b, c, m) : Nat × Nat × Nat × Nat × Nat := match op with
  | .add | .sub | .minI | .maxI | .mul | .mulh | .mulw | .add64 | .sub64 | .mul64 | .lea | .lea64 | .avg
  | .andB | .orB | .xorB | .andn | .shl | .shr | .rol | .shl64 | .shr64 | .bfx | .cmp | .cmp64 | .cmpFloat
  | .classF | .pset | .addFloat | .subFloat | .mulFloat | .minFloat | .maxFloat | .scaleb | .cpys | .cvtf
  | .mrd => (4, 2, 6, 0, 0)
  | .mad | .madh | .madw | .sad | .clamp | .imad24 | .bitfn | .bfi | .sel | .bsel | .pcomb | .fma | .lerp
  | .fmac | .cvtx | .mmul | .shfl | .red | .scan | .brcx
  | .stm | .atom | .cas | .atoms | .cass => (4, 2, 6, 8, 0)
  | .neg | .absI | .neg64 | .notB | .popc | .clz | .brev | .mov | .movw | .mov64 | .absFloat | .negFloat
  | .rnd | .frc | .cvt | .rcp | .rsq | .sqrt | .exp2 | .log2 | .sin | .cos | .tanh | .sigm | .erf | .sinpi
  | .cospi | .expm1 | .log1p | .vote | .matchL => (4, 2, 0, 0, 0)
  | .ld | .st | .lds | .sts | .ldr | .str | .ldp | .stp => (4, 2, 6, 0, 0x80)
  | .mrel | .mswap | .cdrain | .cmerge | .cclr | .mzero | .msave | .mrest | .ret | .exitT | .nop | .yield
  | .barx | .tret | .fence => (0, 0, 0, 0, 0)
  | .pmov | .macq | .mstBank | .mchk | .crd | .elect | .prefi | .sysr => (4, 0, 0, 0, 0)
  | .mlds | .mcnt | .mdrain | .mst | .mlda | .mwr => (0, 2, 6, 8, 0)
  | .bra | .call | .meet => (4, 0, 0, 0, 4)
  | .brx | .calli | .acc => (4, 2, 0, 0, 4)
  | .launch | .rlck | .kick => (4, 2, 6, 0, 19)
  | .addc | .subb => (4, 2, 6, 8, 32)
  | .setpart | .trap => (0, 2, 0, 0, 0)
  | .bari | .tinv => (0, 2, 6, 0, 3)
  | .bara | .bars => (0, 2, 6, 0, 65)
  | .sysw | .pref => (0, 2, 6, 0, 0)
  | .radd | .raddg => (4, 2, 6, 0, 16)
  | .idp4 => (4, 2, 6, 8, 128)
  | .ext => (4, 2, 0, 0, 64)
  | .dot2 => (4, 2, 6, 8, 64)
  | .cvtb => (4, 2, 6, 0, 2)
  | .pack => (4, 2, 6, 0, 32)
  | .unpk => (4, 2, 0, 0, 32)
  | .mwait => (0, 0, 0, 0, 256)
  | .brc => (4, 2, 6, 8, 4)
  | .post => (0, 2, 6, 0, 128)
  | .waitC => (4, 2, 6, 0, 3)
  | .cgenReg => (4, 2, 6, 8, 23)
  | .cgenLive => (4, 2, 0, 0, 53)
  | .cgenDrop => (4, 2, 0, 0, 85)
  | .cmo => (0, 2, 6, 8, 3)
  | .hbind => (4, 2, 0, 0, 1)
  | .gath => (4, 2, 6, 8, 20)
  | .rlrel => (0, 2, 0, 0, 1)
  | .ldu => (4, 2, 6, 0, 145)
  | .cancel => (4, 2, 0, 0, 24)
  tf d a b c m

/-- What a register of a lane of the warp holds after a step. -/
def regAfter (o : Host.Outcome State Fault Refusal) (l r : Nat) : Option Word :=
  match o with
  | .next t => some (((t.warp 0).lane l).reg r).data
  | _ => none

/-- A lane's flags after a step. -/
def flagsAfter (o : Host.Outcome State Fault Refusal) (l : Nat) : Option (BitVec 5) :=
  match o with
  | .next t => some ((t.warp 0).lane l).fflags
  | _ => none

/-! ## The manual's worked examples, one step each -/

/-- Integer instructions: the table at the end of the chapter; `ADD.SAT.I8`. -/
theorem test_add_sat_i8 : regAfter (exec (.add (tf 4 2 6 0 0x180)) (tBase [(2, 0x64), (6, 0x32)] [] [])) 0 4 = some 0x7F := by decide
theorem test_add_i8_wraps :
    regAfter (exec (.add (tf 4 2 6 0 0x080)) (tBase [(2, 0x64), (6, 0x32)] [] [])) 0 4 = some 0xFFFFFF96 := by decide
theorem test_add_u8_wraps : regAfter (exec (.add (tf 4 2 6 0 0x0A0)) (tBase [(2, 0xC8), (6, 0x64)] [] [])) 0 4 = some 0x2C := by decide
theorem test_abs_sat : regAfter (exec (.absI (tf 4 2 0 0 0x100)) (tBase [(2, 0x80000000)] [] [])) 0 4 = some 0x7FFFFFFF := by decide
theorem test_shr_past_width :
    regAfter (exec (.shr (tf 4 2 6 0 0)) (tBase [(2, 0x80000000), (6, 40)] [] [])) 0 4 = some 0xFFFFFFFF := by decide
theorem test_clz_zero : regAfter (exec (.clz (tf 4 2 0 0 0)) tZero) 0 4 = some 32 := by decide
theorem test_bfx_past_end :
    regAfter (exec (.bfx (tf 4 2 6 0 0)) (tBase [(2, 0xF0000000), (6, 0x81C)] [] [])) 0 4 = some 0xFFFFFFFF := by decide
theorem test_min_i8 : regAfter (exec (.minI (tf 4 2 6 0 0x080)) (tBase [(2, 0x1FF), (6, 5)] [] [])) 0 4 = some 0xFFFFFFFF := by decide
/-- A 64-bit sum through carries: the low word, with the carry out to p2. -/
theorem test_addc_carry : regAfter (exec (.addc (tf 4 0 2 0x2F 0x020)) (tBase [(0, 0xFFFFFFFF), (2, 3)] [] [])) 0 4 = some 2 ∧
    (match exec (.addc (tf 4 0 2 0x2F 0x020)) (tBase [(0, 0xFFFFFFFF), (2, 3)] [] []) with
      | .next t => (((t.warp 0).lane 0).pred 2, ((t.warp 0).lane 0).pred 3)
      | _ => (false, true)) = (true, false) := by decide
/-- `FMA` rounds once, `FMAC` twice. -/
theorem test_fma_rounds_once : regAfter (exec (.fma (tf 8 2 3 4 0)) (tBase [(2, 0x3F800001), (3, 0x3F7FFFFE), (4, 0xBF800000)] [] [])) 0 8 =
    some 0xA8800000 := by decide
theorem test_fmac_rounds_twice :
    let o := exec (.fmac (tf 8 2 3 4 0)) (tBase [(2, 0x3F800001), (3, 0x3F7FFFFE), (4, 0xBF800000)] [] [])
    regAfter o 0 8 = some 0 ∧ flagsAfter o 0 = some 0b10000 := by decide
/-- A source that is also the destination. -/
theorem test_sub_in_place : regAfter (exec (.sub (tf 2 2 2 0 0)) (tBase [(2, 7)] [(2, 9)] [])) 1 2 = some 0 := by decide
/-- A store is seen by the load that reads it back. -/
theorem test_store_then_load :
    (match exec (.sts (tf 4 2 6 0 0x80)) (tBase [(2, 16), (4, 0x12345678)] [(2, 20), (4, 9)] []) with
      | .next t => (((t.wg 0).pad.word 16).data, ((t.wg 0).pad.word 20).data)
      | _ => (0, 0)) = (0x12345678, 9) := by decide

/-! ## Witnesses: for each statement, states and operands that meet its premises, one for each clause -/

/-- Nothing stands in the way of an opcode, and its operands are good, in the device with every register 0. -/
abbrev Ready (op : Op) : Prop := tZero.Clear op (tOk op) ∧ tZero.Good op (tOk op)

theorem meets_TypedWrite : (0 : Nat) < 6 ∧ (5 : Nat) < 6 := by decide

theorem meets_AdditionForms : (∀ op ∈ [Op.add, .sub, .neg, .absI, .minI, .maxI, .clamp, .avg, .sad, .addc, .subb], Ready op) ∧
    (∀ l < 32, tZero.Runs (tOk .addc) l → (tOk .addc).cN % 16 ≠ 15 → (tZero.curWarp.lane l).predBad ((tOk .addc).cN % 16) = false) ∧
    (let f := tf 4 2 6 0xFF 0x20
     tZero.Clear .addc f ∧ tZero.Good .addc f ∧
       ∀ l < 32, tZero.Runs f l → f.cN % 16 ≠ 15 → (tZero.curWarp.lane l).predBad (f.cN % 16) = false) :=
  ⟨by decide, by decide, by decide⟩

theorem meets_MultiplyForms :
    ∀ op ∈ [Op.mul, .mulh, .mad, .madh, .mulw, .madw, .idp4, .add64, .sub64, .neg64, .mul64, .lea, .lea64], Ready op := by decide

theorem meets_LogicShiftsFields : ∀ op ∈ [Op.andB, .orB, .xorB, .notB, .andn, .bitfn, .shl, .shr, .rol, .shl64, .shr64,
    .bfx, .bfi, .popc, .clz, .brev], Ready op := by decide

/-- `MOVW` at the last index, 63. -/
theorem meets_MovesAndPredicates :
    (∀ op ∈ [Op.mov, .mov64, .sel, .ext, .bsel, .cmp, .cmp64, .pset, .pcomb, .pmov], Ready op) ∧
    (let s := tBase [(2, 63)] [(2, 0)] [(63, 5)]
     let f := tOk .movw
     s.Clear .movw f ∧ s.Good .movw f ∧
       ∀ l < 32, s.Runs f l → (s.wA .movw f l).toNat < 64 ∧ (s.curWarp.wreg (s.wA .movw f l).toNat).wellFormed = true) ∧
    (∀ l < 32, tZero.Runs (tOk .sel) l → (tZero.curWarp.lane l).predBad ((tOk .sel).cN % 16) = false) ∧
    (∀ l < 32, tZero.Runs (tOk .pcomb) l → ∀ x ∈ [(tOk .pcomb).a, (tOk .pcomb).b, (tOk .pcomb).c],
      (tZero.curWarp.lane l).predBad (x.toNat % 16) = false) ∧
    ((tOk .pmov).opm4 = false ∧ ∀ l < 32, tZero.Runs (tOk .pmov) l → ∀ k < 12, (tZero.curWarp.lane l).predBad k = false) ∧
    (let f := tf 0 2 0 0 0x200
     f.opm4 = true ∧ tZero.Clear .pmov f ∧ tZero.Good .pmov f) :=
  ⟨by decide, by decide, by decide, by decide, by decide, by decide⟩

/-- The overflow clause at 2^128, the first value past the finite ones; the other clause at 1. -/
theorem meets_RoundingModes : Ieee.f32.magAt Ieee.f32.infBits ≤ ((1 : Nat) : ℚ) * (2 : ℚ) ^ (128 : Int) ∧
    (0x3F800000 < Ieee.f32.infBits ∧ Ieee.f32.magAt 0x3F800000 ≤ ((1 : Nat) : ℚ) * (2 : ℚ) ^ (0 : Int) ∧
      ((1 : Nat) : ℚ) * (2 : ℚ) ^ (0 : Int) < Ieee.f32.magAt (0x3F800000 + 1)) := by
  norm_num [Ieee.magAt, Ieee.infBits, Ieee.f32, Ieee.bias, Ieee.emin]

theorem meets_ExactSums : (true ≠ false) ∧ ((0 : Nat) = 0) := by decide

theorem meets_FloatArithmetic :
    ∀ op ∈ [Op.addFloat, .subFloat, .mulFloat, .fma, .lerp, .scaleb, .dot2], Ready op := by decide

theorem meets_FloatSelection : ∀ op ∈ [Op.minFloat, .maxFloat, .absFloat, .negFloat, .cpys, .rnd, .frc, .cmpFloat, .classF],
    Ready op := by decide

/-- The header bias at both ends of its range. -/
theorem meets_ConversionForms : (∀ op ∈ [Op.cvt, .pack, .unpk], Ready op) ∧
    let s := tBase [(6, 0xFFFFFF80)] [(6, 127)] []
    ∀ op ∈ [Op.cvtf, .cvtx], s.Clear op (tOk op) ∧ s.Good op (tOk op) ∧
      ∀ l < 32, s.Runs (tOk op) l → -128 ≤ (s.wB op (tOk op) l).toInt ∧ (s.wB op (tOk op) l).toInt ≤ 127 := by decide

theorem meets_CompactForms :
    let f (un : Bool) : Fields :=
      { fmt := .f32, s := false, g := 15, d := 7, a := if un then 9 else 7, b := if un then 0 else 9, c := 0, m := 0 }
    (∀ op ∈ [Op.add, .sub, .minI, .maxI, .mul, .andB, .orB, .xorB, .shl, .shr, .addFloat, .subFloat, .mulFloat, .minFloat,
      .maxFloat], tZero.Clear op (f false) ∧ tZero.Good op (f false)) ∧
    ∀ op ∈ [Op.neg, .notB, .popc, .mov, .absFloat, .negFloat], tZero.Clear op (f true) ∧ tZero.Good op (f true) := by decide

theorem meets_DeprecatedForms : Ready .imad24 ∧ Ready .fmac := by decide

/-- An SFU entry of the warp's instruction `id`. -/
def tSfu (wid id : Nat) : SfuEntry :=
  { id := id, wid := wid, lane := 0, dst := ⟨false, 4⟩, op := .rcp, ty := 0, rm := 0, src := .zero, value := .zero, flags := 0,
    pc := 0, write := true, after := none }

/-- The queue with room, full for the warp at 4 instructions, and full at 16; a positive code that ends each format's finite
range. -/
theorem meets_SfuForms :
    (∀ op ∈ [Op.rcp, .rsq, .sqrt, .exp2, .log2, .sin, .cos, .tanh, .sigm, .erf, .sinpi, .cospi, .expm1, .log1p], Ready op) ∧
    (∀ op ∈ [Op.rcp, .rsq, .exp2, .log2], tZero.Clear op ((⟨false, 15, 7, 9, 0⟩ : Compact).expand true) ∧
      tZero.Good op ((⟨false, 15, 7, 9, 0⟩ : Compact).expand true)) ∧
    (let count (q : List SfuEntry) : Nat := ((q.map fun e => (e.wid, e.id)).dedup).length
     let mine := (List.range 4).map (tSfu 0)
     let other := (List.range 16).map fun k => tSfu (k + 1) k
     (¬ (16 ≤ count [] ∨ 4 ≤ count [])) ∧ 4 ≤ count (mine.filter fun e => e.wid == 0) ∧ 16 ≤ count other) ∧
    ∀ ty < 3, 0 < (Ieee.ofTy ty).infBits - 1 ∧ (Ieee.ofTy ty).infBits + 1 < (Ieee.ofTy ty).signBit ∧
      (Ieee.ofTy ty).bias.toNat * 2 ^ (Ieee.ofTy ty).fb < (Ieee.ofTy ty).infBits := by decide

/-- An operation that answered. -/
def isOk {ε α : Type} (x : Except ε α) : Bool := match x with
  | .ok _ => true
  | .error _ => false

/-- The state with its two active lanes changed. -/
def tMap (s : State) (g : Thread → Thread) : State :=
  s.updWarp 0 fun w => w.mapLanes fun l t => if l < 2 then g t else t

/-- The state whose bundle is lane 0 alone. -/
def tOne (s : State) : State := { s with cur := ⟨0, 1, 0x10000⟩ }

/-- The state in which lanes 0 and 1 are the only live lanes. -/
def tPair (s : State) : State :=
  s.updWarp 0 fun w => w.mapLanes fun l t => if l < 2 then t else .absent

/-- The target of `BRX` at the last code address. -/
theorem meets_Branches : (∀ op ∈ [Op.bra, .brc, .meet, .brcx], tZero.Clear op (tOk op)) ∧
    (∀ op ∈ [Op.brc, .brcx], ∀ l < 32, tZero.Runs (tOk op) l → (tZero.curWarp.lane l).predBad ((tOk op).a.toNat % 16) = false) ∧
    (let s := tBase [(2, 0xFFFFFFFC), (3, 0x7FFFFF)] [] []
     s.Clear .brx (tOk .brx) ∧ s.Good .brx (tOk .brx) ∧
       ∀ l < 32, s.Runs (tOk .brx) l → (s.pA .brx (tOk .brx) l).toNat % 4 = 0 ∧ (s.pA .brx (tOk .brx) l).toNat < 2 ^ 55) :=
  ⟨by decide, by decide, by decide⟩

/-- Room for one more entry; an entry to return to; a push onto four entries and a pop of a spilled one. -/
theorem meets_CallsAndReturns :
    (let s := tMap tZero fun t => { t with rstack := List.replicate 3 ⟨0x10, none⟩, spl := 2 ^ 24 - 2 }
     let room (f : Fields) : Prop := ∀ l < 32, s.Runs f l → (s.curWarp.lane l).rstack.length < 4 ∧ (s.curWarp.lane l).spl < 2 ^ 24 - 1
     (s.Clear .call (tOk .call) ∧ room (tOk .call)) ∧
       (s.Clear .ret (tOk .ret) ∧ ∀ l < 32, s.Runs (tOk .ret) l → (s.curWarp.lane l).rstack ≠ []) ∧
       s.Clear .calli (tOk .calli) ∧ s.Good .calli (tOk .calli) ∧ room (tOk .calli) ∧
       ∀ l < 32, s.Runs (tOk .calli) l → (s.pA .calli (tOk .calli) l).toNat % 4 = 0 ∧ (s.pA .calli (tOk .calli) l).toNat < 2 ^ 55) ∧
    (let s := tOne (tMap tZero fun t => { t with rstack := List.replicate 4 ⟨0x10, none⟩ })
     let t := s.curWarp.lane 0
     s.running (tOk .call) = [0] ∧ s.Clear .call (tOk .call) ∧ t.rstack.length = 4 ∧ t.rstack.getLast?.isSome = true ∧
       t.spl < 2 ^ 24 - 1 ∧ (s.chargeAccess true [] [] [(t.csp - 16).toNat, (t.csp - 8).toNat]).any (fun v =>
         match v.reachEntry (t.csp - 16) true with
         | .ok (p, q) => decide (s.SameBundle (((v.storeTo p 8 false (ofPair 0x10)).storeTo q 8 false (ofPair 0)).updCtx s.curCtx
             fun c => c.countSpill 0 true))
         | .error _ => false) = true) ∧
    (let s := tOne (tMap tZero fun t => { t with spl := 1 })
     let t := s.curWarp.lane 0
     s.running (tOk .ret) = [0] ∧ s.Clear .ret (tOk .ret) ∧ t.rstack = [] ∧ 0 < t.spl ∧
       (s.chargeAccess false [] [] [t.csp.toNat, (t.csp + 8).toNat]).any (fun u => match u.reachEntry t.csp false with
         | .ok (p, q) =>
           let v := (u.fillFor 0 1 8 0 p).fillFor 0 1 8 0 q
           let words (p : Place) : List CWord := v.wordsAt s.curCore s.curCtx s.curPriv p 8
           (words p ++ words q).all (·.wellFormed) && decide (s.SameBundle v)
         | .error _ => false) = true) :=
  ⟨⟨by decide, by decide, by decide, by decide, by decide, by decide⟩, by decide, by decide⟩

/-- No word of a memory without residue exceptions is mismatched. -/
theorem noMismatch (m : Mem) (h : m.tags = []) (a : Nat) : (m.word a).mismatched = false := by
  simp [Mem.word, h, KMap.getD, KMap.get?, CWord.mismatched, CWord.wellFormed]

/-- Nothing runs under a false guard; a warp with a live lane, one with none, alone and beside a live one. -/
theorem meets_NoEffectAndExit :
    ((∀ a, (tZero.mem.word a).mismatched = false) ∧ ∀ k, (KMap.getD tZero.metas k []).length + 32 ≤ 512) ∧
    (∀ op ∈ [Op.nop, .yield, .prefi], tZero.Clear op (tOk op)) ∧
    (∀ op ∈ [Op.bari, .bara, .bars, .post, .waitC, .launch, .fence, .rlck, .rlrel, .kick, .cancel, .gath, .acc, .cmo, .hbind,
      .pref, .macq, .mwait, .tinv, .cgenReg, .cgenLive, .cgenDrop, .prefi],
      tZero.running { tOk op with g := 0 } = [] ∧ tZero.Clear op { tOk op with g := 0 }) ∧
    (tZero.Clear .exitT (tOk .exitT) ∧ ∀ l < 32, tZero.Runs (tOk .exitT) l → (tZero.curWarp.lane l).spl = 0) ∧
    ((∃ l < 32, ((tZero.warp 0).lane l).live = true) ∧ (∀ t ∈ (tZero.warp 0).lanes, t.status = .ready ∨ t.status = .exited) ∧
      (∃ e ∈ tZero.warps, wgKey e.1 = wgKey 0 ∧ ∃ t ∈ e.2.lanes, t.awaited = true) ∧
      ∀ e ∈ (tZero.core (warpCore 0)).engine.queue, e.stuck = false) ∧
    (let dead : Warp := { Warp.absent with lanes := List.replicate 32 .absent }
     let s := { tZero with warps := [(0, dead), (1, tWarp [] [] [])] }
     let u := { tZero with warps := [(0, dead)] }
     (s.warps.get? 0 = some dead ∧ (∀ t ∈ dead.lanes, t.live = false) ∧
       ∃ e ∈ s.warps, e.1 ≠ 0 ∧ wgKey e.1 = wgKey 0 ∧ e.2.live ≠ 0) ∧
     (u.warps.get? 0 = some dead ∧ u.wgs.get? (wgKey 0) = some tWg ∧ tWg.gang = [⟨wgKey 0, 0⟩] ∧ tWg.ended = false ∧
       (∀ e ∈ u.warps, wgKey e.1 = wgKey 0 → e.2.live = 0) ∧ u.wgBusy (wgKey 0) = false)) :=
  ⟨⟨noMismatch _ (by decide), fun _ => (by decide : 0 + 32 ≤ 512)⟩, by decide, by decide, by decide, by decide, by decide, by decide⟩

/-- Lanes 0 and 1 meet: every lane that the member mask w8 names is in the bundle. -/
def tMeet : State := tBase [] [] [(8, 3)]

theorem meets_VotesAndShuffles :
    (∀ op ∈ [Op.vote, .shfl, .matchL, .elect], tMeet.Clear op { tOk op with c := 8 } ∧
      tMeet.Reads { tOk op with c := 8 } (laneSources op { tOk op with c := 8 } tMeet.curWarp)) ∧
    (∀ op ∈ [Op.vote, .shfl, .matchL, .elect], tMeet.Together (tMeet.named { tOk op with c := 8 })) ∧
      ∀ l < 32, tMeet.Runs (tOk .vote) l → (tMeet.curWarp.lane l).predBad ((tOk .vote).a.toNat % 16) = false :=
  ⟨by decide, by decide, by decide⟩

/-- The float sum over lanes 0 and 1, and over no lane. -/
theorem meets_ReductionsAndScans :
    (∀ op ∈ [Op.red, .scan], ∀ b ∈ [0, 8], ∀ c ∈ [0, 8],
      tMeet.Clear op (tf 4 2 b c 0) ∧ tMeet.Reads (tf 4 2 b c 0) (laneSources op (tf 4 2 b c 0) tMeet.curWarp)) ∧
    (∀ b ∈ [0, 8], ∀ c ∈ [0, 8], tMeet.Together (tMeet.named (tf 4 2 b c 0))) ∧
    tMeet.suppliers (tf 4 2 8 8 0) 0 = [0, 1] ∧ tMeet.suppliers (tf 4 2 8 0 0) 0 = [] :=
  ⟨by decide, by decide, by decide, by decide⟩

/-- Every live lane is in the bundle; `CVTB` at both ends of the bias. -/
theorem meets_WholeWarpForms_done :
    ((tPair tZero).Clear .setpart (tOk .setpart) ∧ (tPair tZero).curHandler = false) ∧ (tPair tZero).Together (tPair tZero).fellows ∧
    (∀ w ∈ [4294967168, 127], (tPair (tBase [] [] [(6, BitVec.ofNat 32 w)])).Clear .cvtb (tf 4 2 6 0 0x22)) ∧
    (∀ w ∈ [4294967168, 127], (tPair (tBase [] [] [(6, BitVec.ofNat 32 w)])).Good .cvtb (tf 4 2 6 0 0x22)) ∧
    (∀ w ∈ [4294967168, 127], -128 ≤ ((tPair (tBase [] [] [(6, BitVec.ofNat 32 w)])).wB .cvtb (tf 4 2 6 0 0x22) 0).toInt ∧
      ((tPair (tBase [] [] [(6, BitVec.ofNat 32 w)])).wB .cvtb (tf 4 2 6 0 0x22) 0).toInt ≤ 127) ∧
    slotBlk ((tPair tZero).slot ((tf 4 2 6 0 0x22).opm.toNat % 8)) = true ∧ (tPair tZero).curWarp.wpart = 5 ∧
    ∀ l < 32, ((tPair tZero).curWarp.lane l).live = true → (tPair tZero).active l = true :=
  ⟨by decide, by decide, by decide, by decide, by decide, by decide, by decide, by decide⟩

/-- Lane 2 is live and elsewhere, so lanes 0 and 1 wait for it. -/
theorem meets_WholeWarpForms_waits :
    ((tZero.curWarp.lane 2).live = true ∧ tZero.active 2 = false ∧
      (tZero.curWarp.lane 2).arrivals.get? tZero.cur.pc.toNat = none) ∧
    (∀ l < 32, tZero.active l = false → (tZero.curWarp.lane l).status ≠ .arrived ∨ (tZero.curWarp.lane l).pc ≠ tZero.cur.pc) ∧
    (∀ op ∈ [Op.vote, .shfl, .red, .scan, .matchL, .elect], tZero.Clear op { tOk op with c := 0x100 }) ∧
    (∀ op ∈ [Op.vote, .shfl, .red, .scan, .matchL, .elect],
      tZero.Reads { tOk op with c := 0x100 } (laneSources op { tOk op with c := 0x100 } tZero.curWarp)) ∧
    (∀ op ∈ [Op.vote, .shfl, .red, .scan, .matchL, .elect], ∀ l < 32, tZero.active l = true → 2 ∈ tZero.named { tOk op with c := 0x100 } l) ∧
    (∀ l < 32, tZero.Runs (tOk .vote) l → (tZero.curWarp.lane l).predBad ((tOk .vote).a.toNat % 16) = false) ∧
    (tZero.Clear .setpart (tOk .setpart) ∧ tZero.Clear .cvtb (tf 4 2 6 0 0x22) ∧ tZero.curHandler = false) ∧
    (∀ l < 32, tZero.active l = true → 2 ∈ tZero.fellows l) ∧
    tZero.Reads (tOk .setpart) (laneSources .setpart (tOk .setpart) tZero.curWarp) ∧
    tZero.Reads (tf 4 2 6 0 0x22) (laneSources .cvtb (tf 4 2 6 0 0x22) tZero.curWarp) ∧
    slotBlk (tZero.slot ((tf 4 2 6 0 0x22).opm.toNat % 8)) = true ∧ tZero.curWarp.wpart = 5 :=
  ⟨by decide, by decide, by decide, by decide, by decide, by decide, by decide, by decide, by decide, by decide, by decide, by decide⟩

/-- A release at a scope is done without a trap, and the bundle is as it was. -/
def released (s : State) (scope : Nat) : Bool :=
  match s.releaseAt scope with
  | some (r, none) => decide (r.Bundled ∧ r.cur = s.cur)
  | _ => false

/-- A packet of the warp that has not arrived. -/
def tPacket : Packet :=
  { id := 0, src := 0, dst := 1, seq := 0, ver := 0, peer := none, ctx := 1, pitch := 0, wid := 0, lane := 0, grid := 1,
    op := .store 0 0 0 4 [.zero], done := false, sent := true }

/-- The state with that packet on its way. -/
def tSending (s : State) : State := { s with fabric := { s.fabric with packets := [tPacket] } }

/-- The object at the last place of the scratchpad; a release that is done, and one that has to wait for a packet. -/
theorem meets_Barriers :
    let s := tBase [(2, 4088)] [(2, 4088)] [(2, 4088)]
    let at6 (op : Op) : Fields := { tOk op with m := (tOk op).m ||| 0xC0 }
    let place (op : Op) : Prop := (s.wA op (at6 op) 0).toNat = 4088 ∧ 4088 % 8 = 0 ∧ 4088 + 8 ≤ s.curWg.spad
    (∀ op ∈ [Op.bari, .bara, .bars], s.running (at6 op) = [0, 1] ∧ s.Clear op (at6 op) ∧ s.Good op (at6 op) ∧ place op ∧
      released s (at6 op).scope = true ∧ (tSending s).Clear op (at6 op) ∧ (tSending s).Good op (at6 op) ∧
      (tSending s).releaseAt (at6 op).scope = none) ∧
    s.curWg.lineFull 4088 = true ∧ ∀ w ∈ s.curWg.pad.words 4088 2, w.wellFormed = true := by
  refine ⟨by decide, by decide, by decide⟩

/-- The lanes, the next workgroup's warp and a posting lane of rank 0. -/
theorem meets_WorkgroupEvents :
    ((tZero.warps.get? 0).isSome = true ∧ wgKey 0 = 0 ∧ 31 < (tZero.warp 0).lanes.length ∧ wgKey 0 ≠ 1 ∧
      ((tZero.warp 0).lane 2).frames = []) ∧
    tZero.Clear .barx (tOk .barx) ∧ (tZero.Clear .post (tOk .post) ∧ tZero.Good .post (tOk .post)) ∧
    released tZero (tOk .post).scope = true ∧
    (match tZero.releaseAt (tOk .post).scope with
      | some (r, _) => decide (r.curWg.gang = tZero.curWg.gang)
      | none => false) = true ∧
    ∀ l < 32, tZero.Runs (tOk .post) l → (tZero.wB .post (tOk .post) l).toNat % 16 < tZero.curWg.gang.length :=
  ⟨by decide, by decide, by decide, by decide, by decide, by decide⟩

/-- A wait record at offset 0 with one condition, line 31 full; `full` is what the line bits are. -/
def tRecord (full : BitVec 4096) (ws : List (Nat × Word)) : State :=
  (tBase [] [] ws).updWg 0 fun g => { g with full := full, pad := g.pad.setWords 0 [.gen 5, .gen 0, .gen 4000, .gen 0] }

/-- The warp waiting in bundle 0 on that record until a deadline. -/
def tWaits (full : BitVec 4096) (deadline : Option Nat) : State :=
  tMap (tRecord full []) fun t => { t with status := .waiting ⟨0, deadline, false, false, 3, 0, false, 4⟩ true }

/-- The record's conditions, and what an evaluation gives. -/
def tConds (s : State) : List Cond := match s.waitRecord 0 0 with
  | .ok cs => cs
  | .error _ => []

/-- The first evaluation satisfied, ended by a time-out of 0, and neither. -/
theorem meets_WaitingForms_issue :
    (∀ full ∈ ([0, 2 ^ 31] : List Nat), ∀ limit ∈ ([0, 5] : List Nat),
      let s := tRecord (BitVec.ofNat 4096 full) [(6, BitVec.ofNat 32 limit)]
      s.running (tOk .waitC) = [0, 1] ∧ s.Clear .waitC (tOk .waitC) ∧ s.Good .waitC (tOk .waitC)) ∧
    (∀ full ∈ ([0, 2 ^ 31] : List Nat),
      let s := tRecord (BitVec.ofNat 4096 full) []
      isOk (s.waitRecord 0 0) = true ∧ (tConds s).length = 1 ∧ (∀ c ∈ tConds s, c.k < 4) ∧
        (∀ c ∈ tConds s, isOk (s.observe 0 true c) = true) ∧
        (s.chargeAccess false [] [] (watchedVas (tConds s)) true).any (fun v =>
          decide (v.evaluate 0 true (tConds s) = (if full = 0 then 0 else 1, none))) = true) :=
  ⟨by decide, by decide⟩

/-- A waiting bundle whose line is full, whose deadline has passed, and one that goes on waiting. -/
theorem meets_WaitingForms_evaluation :
    ∀ x ∈ ([(2 ^ 31, none, true, false), (0, some 80, false, true), (0, some 81, false, false)] : List (Nat × Option Nat × Bool × Bool)),
      let s := tWaits (BitVec.ofNat 4096 x.1) x.2.1
      (s.warps.get? 0).isSome = true ∧ (s.warp 0).lanes.length = 32 ∧
        ((s.warp 0).waitOf 0 = some ⟨0, x.2.1, false, false, 3, 0, false, 4⟩) ∧ isOk (s.waitRecord 0 0) = true ∧
        (∀ c ∈ tConds s, c.k < 4) ∧
        (((s.pay 0 (s.ctxOf 0) (s.gridOf 0) (s.accessBill 0 (s.ctxOf 0) { user := !(s.gridOf 0).priv } (watchedVas (tConds s)) true)).evaluate
          0 (s.gridOf 0).priv (tConds s)).1 != 0) = x.2.2.1 ∧
        (x.2.1.any fun d => decide (d ≤ s.time)) = x.2.2.2 := by decide

/-- An SFU result to write back, a due whole-warp entry, and a routine whose time is over and one whose is not. -/
theorem meets_WaitingForms_ends :
    (let q := [tSfu 0 5, { tSfu 0 5 with lane := 31 }]
     let mine (x : SfuEntry) : Bool := x.wid = 0 ∧ x.id = 5
     (∀ x ∈ q, mine x = true → x.lane < 32 ∧ x.value.wellFormed = true ∧ x.after = none ∧ x.dst.uni = false) ∧
       ((q.filter mine).map (·.lane)).Nodup) ∧
    (let s := tZero.updWarp 0 fun w => { w with asyncs := [⟨17, 0, 0⟩] }
     (s.warp 0).asyncs = [⟨17, 0, 0⟩] ∧ (s.warps.get? 0).isSome = true ∧ (s.warp 0).lanes.length = 32 ∧
       (s.warp 0).asyncDue = true ∧ (∀ e ∈ (s.core (warpCore 0)).sfu, e.wid ≠ 0) ∧
       (s.vector (warpCore 0) (s.ctxOf 0) 12).isSome = true) ∧
    (∀ since ∈ ([80 - 80, 81] : List Nat),
      let fr : Frame := ⟨7, 3, 3, 1, 0, 0, 0, none, since, some ⟨15, 0, 0, 0, 0, false, false⟩, none, false, none⟩
      let s := { tMap tZero fun t => { t with frames := [fr] } with cycle := 819200 + 25 * 2 }
      ((s.warp 0).lanes.any fun t => t.live && t.frames.any fun g => g.gid == 7 && g.emu.isSome &&
        decide (g.since + Config.handlerBudget ≤ s.time)) = decide (since = 0) ∧ (s.ctxs.get? (s.ctxOf 0)).isSome = true) :=
  ⟨by decide, by decide, by decide⟩

/-- The trap whose address the vector table gives; no lane that runs; a source word with a wrong residue in lane 1. -/
theorem meets_TrapsAreTaken :
    (tZero.Clear .trap (tOk .trap) ∧ tZero.Enters (tZero.running (tOk .trap)) 14 0x50000) ∧
    (tZero.Clear .trap { tOk .trap with g := 0 } ∧ tZero.running { tOk .trap with g := 0 } = []) ∧
    (∀ cause ∈ ([1, 15] : List Nat), tZero.Enters (lanesOf tZero.cur.mask) cause 0x50000) ∧
    (partsOf (.add (tf 512 2 6 0 0x400)) = some (.add, tf 512 2 6 0 0x400) ∧
      (lowest ((tf 512 2 6 0 0x400).whys .add ++ nWhys .add (tf 512 2 6 0 0x400) tZero.curWg.nreg)).isSome = true) ∧
    (let s := { tZero with grids := [(1, { tGrid with priv := false })] }
     lowest ((tOk .tinv).whys .tinv ++ nWhys .tinv (tOk .tinv) s.curWg.nreg) = none ∧ Op.tinv.privileged = true ∧
       s.curPriv = false) ∧
    (let s := tZero.updWarp 0 fun w => w.mapLanes fun l t => if l = 1 then { t with regs := [(2, ⟨7, 3⟩)] } else t
     let f := tOk .add
     s.Clear .add f ∧ f.ud = false ∧
       (checkSources (sources .add f s.curWarp (s.curWarp.lane 0) false) s.pc64 = none) ∧
       ((checkSources (sources .add f s.curWarp (s.curWarp.lane 1) false) s.pc64).any fun x =>
         decide (s.Enters [1] x.cause 0x50000)) = true) :=
  ⟨by decide, by decide, by decide, by decide, by decide, by decide⟩

/-- A frame of a handler of the two lanes. -/
def tFrame : Frame := ⟨7, 3, 3, 1, 0, 0x20, 0, none, 0, none, none, false, none⟩

/-- In a synchronous handler, in an asynchronous one, and outside. -/
theorem meets_TrapReturn :
    (∀ a ∈ [none, some (⟨0x30, 0, 0, false, .ready⟩ : Resume)],
      let s := tMap tZero fun t => { t with frames := [{ tFrame with async := a }] }
      s.Clear .tret (tOk .tret) ∧ s.curHandler = true ∧
        (∀ l < 32, s.active l = true → (s.curWarp.lane l).status = .ready ∧
          ∀ g ∈ (s.curWarp.lane l).frames, g.emu = none ∧ g.entry = none ∧ g.async = a) ∧
        ∀ r, a = some r → r.status ≠ .exited ∧ ∀ c n, r.status ≠ .callee c n) ∧
    tZero.Decodes .tret (tOk .tret) ∧ tZero.curHandler = false := by
  refine ⟨?_, by decide, by decide⟩
  intro a h
  fin_cases h
  · exact ⟨by decide, by decide, by decide, fun r hr => nomatch hr⟩
  · refine ⟨by decide, by decide, by decide, fun r hr => ?_⟩
    cases hr
    exact ⟨by decide, fun _ _ => by simp⟩

/-- Every register number that `SYSR` reads; and in user mode the trap of the privileged ones. -/
theorem meets_SpecialReads :
    (∀ n ∈ (List.range 0x6C).filter fun n => n ∉ [0x07, 0x0B, 0x0F, 0x17, 0x1D, 0x1E, 0x1F, 0x27, 0x2E, 0x2F, 0x65, 0x66, 0x67],
      tZero.Clear .sysr (tf 4 0 n 0 0)) ∧ tZero.curPriv = true ∧
    (let s := { tZero with grids := [(1, { tGrid with priv := false })] }
     s.curPriv = false ∧ s.Clear .sysr (tf 4 0 0x61 0 0) ∧ s.Enters (s.running (tf 4 0 0x61 0 0)) 2 0x50000 ∧
       s.running (tf 4 0 0x61 0 0) = lanesOf s.cur.mask) :=
  ⟨by decide, by decide, by decide⟩

/-- Every register number that `SYSW` writes, with the lanes agreed on 0; an aligned `csp`; one group in a handler for `tpc`;
the last KIND of `finj`; and in user mode the trap. -/
theorem meets_SpecialWrites :
    (∀ n ∈ ([0x00, 0x10, 0x18, 0x1A, 0x1C, 0x20, 0x21, 0x25, 0x26, 0x28, 0x2C, 0x2D, 0x30, 0x31, 0x32, 0x5D, 0x5E, 0x5F, 0x60,
        0x61, 0x62, 0x63, 0x64, 0x68, 0x69, 0x6B] : List Nat),
      let f := tf 0 2 n 0 0
      tZero.Clear .sysw f ∧ tZero.Reads f (syswSources f tZero) ∧ tZero.running f = [0, 1] ∧
        ∀ l < 32, tZero.Runs f l → tZero.pA .sysw f l = 0 ∧ (tZero.pA .sysw f l).toNat % 8 = 0) ∧
    (let s := tMap tZero fun t => { t with frames := [tFrame] }
     let f := tf 0 2 0x25 0 0
     s.Clear .sysw f ∧ (∀ l < 32, s.Runs f l → ∀ g ∈ (s.curWarp.lane l).frames, g.emu = none) ∧
       ∀ l < 32, s.Runs f l → (s.curWarp.lane l).frames.head?.map (·.gid) =
         (s.curWarp.lane ((s.running f).headD 0)).frames.head?.map (·.gid)) ∧
    (let v : BitVec 64 := 1 + 2 * 5
     ¬ (v.getLsbD 0 = true ∧ 6 ≤ v.toNat / 2 % 8)) ∧
    (let s := { tZero with grids := [(1, { tGrid with priv := false })] }
     let f := tf 0 2 0x64 0 0
     s.curPriv = false ∧ s.Clear .sysw f ∧ s.Reads f (syswSources f s) ∧ s.Enters (s.running f) 2 0x50000 ∧
       s.running f = lanesOf s.cur.mask) :=
  ⟨by decide, by decide, by decide, by decide⟩

/-- The fields of `CGEN.REG`, with the context in w8. -/
def tGens (gens : KMap CodeGen) : State :=
  (tBase [] [] [(6, 0x80), (8, 1)]).updCtx 1 fun c => { c with gens := gens }

/-- A free number, the last free one, none free, and a range that clashes. -/
theorem meets_TranslationsAndGenerations :
    (tZero.running (tOk .tinv) = [0, 1] ∧ tZero.Clear .tinv (tOk .tinv) ∧ tZero.Good .tinv (tOk .tinv) ∧
      (tZero.pA .tinv (tOk .tinv) 0).toNat % 65536 = 0 ∧ released tZero 5 = true ∧
      (match tZero.releaseAt 5 with
        | some (r, _) => decide (r.curCtx = tZero.curCtx)
        | none => false) = true) ∧
    (∀ gens ∈ [[], [(1, ⟨0x40, 0x80, 0⟩)], (List.range 254).map fun k => (k + 1, (⟨0x1000, 0, 0⟩ : CodeGen)),
        (List.range 255).map fun k => (k + 1, (⟨0x1000, 0, 0⟩ : CodeGen))],
      let s := tGens gens
      s.Clear .cgenReg (tOk .cgenReg) ∧ s.Good .cgenReg (tOk .cgenReg) ∧ (s.pA .cgenReg (tOk .cgenReg) 0).toNat % 128 = 0 ∧
        (s.ctxs.get? (s.wC .cgenReg (tOk .cgenReg) 0).toNat).isSome = true) ∧
    (let gens : KMap CodeGen := (List.range 254).map fun k => (k + 1, ⟨0x1000, 0, 0⟩)
     (∀ m, 1 ≤ m → m < 255 → (KMap.get? gens m).isSome = true) ∧ (KMap.get? gens 255).isSome = false) ∧
    ∀ op ∈ [Op.cgenLive, .cgenDrop], tZero.Clear op (tOk op) ∧ tZero.Good op (tOk op) := by
  refine ⟨by decide, by decide, ⟨?_, by decide⟩, by decide⟩
  intro m h1 h2
  interval_cases m <;> rfl

/-- A pool of one record, readable and writable, of 0x100 bytes at 0x20100. -/
def tPool (s : State) : State :=
  { s with
    grids := [(1, { tGrid with pool := 0x20000, pooln := 1 })]
    mem := s.mem.setWords 0x20000 [.gen 0x20100, .gen 0, .gen 0x100, .gen 0, .gen 3] }

/-- A gang of two: rank 1 is a workgroup in slot 0 of core 1. -/
def tGang (s : State) : State :=
  let g : Workgroup := { tWg with gang := [⟨0, 0⟩, ⟨16, 0⟩] }
  { s with wgs := [(0, g), (16, g)] }

/-- A pool record; a place at the end of another rank's scratchpad. -/
theorem meets_Addresses :
    isOk ((tPool tZero).poolRecord 0) = true ∧
    (let s := tGang (tBase [(2, 0x01000FFC)] [] [])
     let f := tOk .ldr
     let a := (s.wA .ldr f 0).toNat
     (s.curWg.gang[a / 2 ^ 24 % 16]?.map (·.key)) = some 16 ∧ 16 ≠ wgKey s.cur.wid ∧ a < 2 ^ 28 ∧
       (a % 2 ^ 24 : Int) + (s.wB .ldr f 0).toInt = (4092 : Nat) ∧ 4092 % szBytes f.sz = 0 ∧ 4092 + szBytes f.sz ≤ (s.wg 16).spad) :=
  ⟨by decide, by decide⟩

/-- Where a lane's access goes, once that is known to be answered. -/
def tPlace (s : State) (op : Op) (f : Fields) (w : Bool) (l : Nat) : Place :=
  match s.placeOf op f w (s.reads op f w l) with
  | .ok p => p
  | .error _ => .pad 0 0

/-- The addresses of all lanes are good and the region's budget admits them. -/
abbrev Placed (s : State) (op : Op) (f : Fields) (w : Bool) : Prop :=
  (∀ l < 32, s.Runs f l → isOk (s.placeOf op f w (s.reads op f w l)) = true) ∧
    (∀ l < 32, s.Runs f l → s.behindOwn l (tPlace s op f w l) (szBytes f.sz) = false) ∧
    (s.chargeAccess w (s.recordVas op f) [] (globalsOf ((s.running f).map (tPlace s op f w)))).isSome = true

/-- A load of one word by the two lanes comes to its end at once: its lines are filled, the words are good, and the bundle is as
it was, after an acquire too. -/
def loadEnds (s : State) (op : Op) (f : Fields) : Bool :=
  (s.chargeAccess false (s.recordVas op f) [] (globalsOf ((s.running f).map (tPlace s op f false)))).any fun u =>
    let v := (s.running f).foldl (fun (v : State) l => v.fillFor 0 1 4 f.cCh (tPlace s op f false l)) u
    decide (s.SameBundle v) && decide (s.SameBundle (v.acquireAt s.curCore 5)) &&
      !s.curWarp.behindLoad s.curWarp.next 4 ((s.running f).map fun l => (l, tPlace s op f false l)) &&
      (s.running f).all fun l => u.readable (tPlace s op f false l) &&
        (v.wordsAt s.curCore s.curCtx s.curPriv (tPlace s op f false l) 4).all (·.wellFormed)

/-- Loads of every form: bytes, halves, words and four words, complete and left outstanding. -/
theorem meets_LoadForms :
    (∀ m ∈ ([0x00, 0x60, 0x80, 0xC0] : List Nat),
      let s := tBase [(2, 0x207F0)] [(2, 0x20800)] []
      let f := tf 4 2 6 0 m
      s.Clear .ld f ∧ s.Good .ld f ∧ Placed s .ld f false) ∧
    (let s := tBase [(2, 0x207F0)] [(2, 0x20800)] []
     loadEnds s .ld (tOk .ld) = true ∧
     ((s.updWarp 0 fun w => { w with loads := [(1, ⟨[(0, .global 0x207F0 0x207F0)], 4, ⟨false, 9⟩, 0, 0, none⟩)] }).curWarp.behindLoad 2 4
       [(0, .global 0x207F0 0x207F0)]) = true) ∧
    (let s := tBase [] [] [(2, 0x20800)]
     s.Clear .ldu (tOk .ldu) ∧ s.Good .ldu (tOk .ldu) ∧ Placed s .ldu (tOk .ldu) false ∧ loadEnds s .ldu (tOk .ldu) = true) ∧
    (let s := tBase [(2, 4092)] [] []
     (s.Clear .lds (tOk .lds) ∧ s.Good .lds (tOk .lds) ∧ Placed s .lds (tOk .lds) false) ∧
      loadEnds s .lds (tOk .lds) = true) ∧
    (let s := tGang (tBase [(2, 0x01000FFC)] [] [])
     (s.Clear .ldr (tOk .ldr) ∧ s.Good .ldr (tOk .ldr) ∧ Placed s .ldr (tOk .ldr) false) ∧
      loadEnds s .ldr (tOk .ldr) = true) ∧
    (let s := tPool tZero
     let f := tf 4 0 6 0 0x80
     s.Clear .ldp f ∧ s.Good .ldp f ∧ Placed s .ldp f false ∧ loadEnds s .ldp f = true) ∧
    (let s := tZero.updWg 0 fun g => { g with full := 0 }
     ∀ op ∈ [Op.lds, .ldr], s.Clear op (tOk op) ∧ s.Good op (tOk op) ∧ Placed s op (tOk op) false ∧
       ∃ l < 32, s.Runs (tOk op) l ∧ s.readable (tPlace s op (tOk op) false l) = false) :=
  ⟨by decide, by decide, by decide, by decide, by decide, by decide, by decide⟩

/-- An outstanding load of two lanes, to vector or uniform registers. -/
def tLoading (uni : Bool) (full : BitVec 4096) : State :=
  ((tZero.updWg 0 fun g => { g with full := full }).updWarp 0 fun w =>
    { w with loads := [(9, ⟨[(0, .pad 0 0), (1, .pad 0 4)], 4, ⟨uni, 4⟩, 0, 0, none⟩)] })

theorem meets_LoadForms_return : ∀ uni ∈ [false, true], ∀ full ∈ ([0, 1] : List Nat),
    let s := tLoading uni (BitVec.ofNat 4096 full)
    let e : Load := ⟨[(0, .pad 0 0), (1, .pad 0 4)], 4, ⟨uni, 4⟩, 0, 0, none⟩
    (s.warp 0).loads.get? 9 = some e ∧ (s.warps.get? 0).isSome = true ∧
      (e.lanes.all fun x => s.readable x.2) = decide (full = 1) ∧ ((s.warp 0).lane 0).live = true ∧
      (s.warp 0).behindLoad 9 (szBytes e.sz) e.lanes = false ∧
      ({ s.warp 0 with loads := [(8, e), (9, e)] }).behindLoad 9 (szBytes e.sz) e.lanes = true ∧
      ∀ x ∈ e.lanes, ∀ w ∈ s.wordsAt (warpCore 0) (s.ctxOf 0) (s.gridOf 0).priv x.2 4, w.wellFormed = true := by decide

/-- After its release a store is paid for, and what it does leaves the bundle as it was. -/
def storeEnds (s : State) (op : Op) (f : Fields) (vas : List Nat) (one : State → Nat → State) : Bool :=
  match s.releaseAt (if f.cOrd = 1 then f.cScope else 0) with
  | some (r, none) => (r.chargeAccess true (s.recordVas op f) [] vas).any fun u => decide (s.SameBundle ((s.running f).foldl one u))
  | _ => false

/-- As `storeEnds`, at the places that the lanes' address functions give. -/
def plainEnds (s : State) (op : Op) (f : Fields) : Bool :=
  storeEnds s op f (globalsOf ((s.running f).map (tPlace s op f true))) fun v l =>
    v.storeTo (tPlace s op f true l) (szBytes f.sz) (f.cCh == 2) (s.opD op f l)

/-- Stores without and with a release at scope 4, of one byte and of a word; `STR` and `STM` to both ranks of a gang. -/
theorem meets_Stores :
    (∀ x ∈ ([(0, 0), (0x80, 0), (0x80, 12)] : List (Nat × Nat)),
      let s := tBase [(2, 0x20000)] [(2, 0x20800)] []
      let f := tf 4 2 6 x.2 x.1
      s.running f = [0, 1] ∧ s.Clear .st f ∧ s.Reads f (storeSources .st f s) ∧ released s (if f.cOrd = 1 then f.cScope else 0) = true ∧
        Placed s .st f true ∧ plainEnds s .st f = true) ∧
    (let f := tOk .sts
     tZero.Clear .sts f ∧ tZero.Reads f (storeSources .sts f tZero) ∧ Placed tZero .sts f true ∧ plainEnds tZero .sts f = true) ∧
    (let s := tPool tZero
     let f := tf 4 0 6 0 0x80
     s.Clear .stp f ∧ s.Reads f (storeSources .stp f s) ∧ Placed s .stp f true ∧ plainEnds s .stp f = true) ∧
    (∀ a ∈ ([0, 0x01000FFC] : List Nat),
      let s := tGang (tBase [(2, BitVec.ofNat 32 a)] [] [])
      let f := tOk .str
      s.Clear .str f ∧ s.Reads f (storeSources .str f s) ∧ storeEnds s .str f [] (fun v l => v.send 0 l 16 (.store 16 0 0 4 [.zero])) = true ∧
        storeEnds s .str f [] (fun v _ => v.storeTo (.pad 0 0) 4 false [.zero]) = true ∧
        ∀ l < 32, s.Runs f l → isOk (s.reachRemote (s.wA .str f l) (s.wB .str f l).toInt (szBytes f.sz) true) = true ∧
          s.behindOwn l (.pad 0 0) 4 = false) ∧
    (∀ mask ∈ ([1, 3] : List Nat),
      let s := tGang (tBase [] [] [(8, BitVec.ofNat 32 mask)])
      let f := tf 4 2 6 8 0x80
      s.Clear .stm f ∧ s.Reads f (stmSources f s) ∧
        ∀ l < 32, s.Runs f l → isOk (s.reachMany (((s.wA .stm f l).toNat + (s.wB .stm f l).toNat) % 2 ^ 32) (szBytes f.sz)
          ((s.curWarp.wreg (f.cN % 64)).data.toNat % 65536)) = true) :=
  ⟨by decide, by decide, by decide, by decide, by decide⟩

/-- The last place of a scratchpad and of the device's stack 0 for each size; and the stores of the frame. -/
theorem meets_StoredBytes :
    (∀ n ∈ ([1, 2, 4, 8, 16] : List Nat), (2 ^ 19 - n) % n = 0 ∧ 2 ^ 19 - n < 2 ^ 19) ∧ (tZero.wgs.get? 0).isSome = true ∧
    ((3 : Nat) + 1 ≤ 4 ∧ (2 : Nat) + 2 ≤ 4) ∧ ((⟨7, res 7⟩ : CWord).wellFormed = true ∧ (⟨7, 15⟩ : CWord).poisoned = true) ∧
    (∀ n ∈ ([1, 2, 4, 8, 16] : List Nat), (2 ^ 36 - n) % n = 0 ∧ 2 ^ 36 - n < 2 ^ 48 ∧
      tZero.target (tZero.ctx tZero.curCtx).pitch tZero.curPriv (2 ^ 36 - n) = .hbm) ∧
    ((tZero.ctx tZero.curCtx).retired = false ∧ tZero.lantern.dead = [] ∧
      (tZero.core tZero.curCore).dirty = [] ∧ (tZero.core tZero.curCore).clean = [] ∧
      (∀ n ∈ ([1, 2, 4, 8, 16] : List Nat), (tZero.core tZero.curCore).setFull ((2 ^ 36 - n) / 128 % 512) = false) ∧
      ∀ k < 32, (tZero.mem.word (2 ^ 36 - 128 + 4 * k)).mismatched = false ∧
        (tZero.coreWord 0 0 tZero.curPriv (2 ^ 36 - 128 + 4 * k)).mismatched = false) ∧
    (let f := tOk .sts
     f.cOrd ≠ 1 ∧ f.cCh ≠ 2 ∧ tZero.Clear .sts f ∧ tZero.Reads f (storeSources .sts f tZero) ∧ Placed tZero .sts f true ∧
       (match exec (.sts f) tZero with
         | .next _ => true
         | _ => false) = true) ∧
    (let s := tBase [(2, 0x20000)] [(2, 0x20800)] []
     let f := tOk .st
     s.Clear .st f ∧ s.Reads f (storeSources .st f s) ∧ Placed s .st f true ∧ (s.core s.curCore).dirty = [] ∧
       (s.core s.curCore).clean = [] ∧ (s.core s.curCore).lines = [] ∧ (s.core s.curCore).pins = [] ∧ (s.running f).length ≤ 12 ∧
       (match exec (.st f) s with
         | .next _ => true
         | _ => false) = true) :=
  ⟨by decide, by decide, by decide, by decide, by decide, by decide, by decide, by decide⟩

/-- Atomics on words and on pairs, in global memory and in the scratchpad, with a release and without. -/
theorem meets_AtomicForms :
    (∀ n ∈ ([4, 8] : List Nat),
      (match tZero.atomStep (.pad 0 (4096 - n)) n id with
        | .ok _ => true
        | .error _ => false) = true) ∧
    (∀ x ∈ [(Op.atom, 8, 0), (.atom, 17, 0), (.atom, 8, 0x280), (.cas, 8, 0), (.cas, 8, 8)],
      let s := tBase [(2, 0x20000)] [(2, 0x20800)] []
      let f := tf 4 2 6 x.2.1 x.2.2
      let n := if x.1 = .cas then if f.im then 8 else 4 else if x.2.1 = 17 then 8 else 4
      s.running f = [0, 1] ∧ s.Clear x.1 f ∧ s.Good x.1 f ∧ released s (if f.ord < 2 then 0 else f.scope) = true ∧
        (∀ l < 32, s.Runs f l → isOk (s.reach (s.pA x.1 f l) n true) = true ∧ s.behindOwn l (.global 0x20000 0x20000) n = false ∧
          s.readable (.global 0x20000 0x20000) = true) ∧
        (s.chargeAccess true [] [] [0x20000, 0x20800] true).any (fun u =>
          let o := u.atomLanes n (fun _ ws => ws) (fun _ => none) [(0, .global 0x20000 0x20000), (1, .global 0x20800 0x20800)]
          o.2.1 = [] && decide (s.SameBundle o.1) && decide (s.SameBundle (o.1.acquireAt s.curCore 5))) = true) ∧
    (∀ op ∈ [Op.atoms, .cass], tZero.Clear op (tOk op) ∧ tZero.Good op (tOk op) ∧
      (∀ l < 32, tZero.Runs (tOk op) l → isOk (tZero.reachPad (tZero.wA op (tOk op) l).toNat 4 true) = true) ∧
      tZero.readable (.pad 0 0) = true ∧ tZero.behindOwn 0 (.pad 0 0) 4 = false ∧
      (tZero.chargeAccess true [] [] [] true).isSome = true ∧
      tZero.SameBundle (tZero.atomLanes 4 (fun _ => id) (fun _ => none) [(0, .pad 0 0), (1, .pad 0 0)]).1 ∧
      (tZero.atomLanes 4 (fun _ => id) (fun _ => none) [(0, .pad 0 0), (1, .pad 0 0)]).2.1 = []) :=
  ⟨by decide, by decide, by decide⟩

/-- A remote add to the own scratchpad and to another's, and to global memory, at both ends of the exponent. -/
theorem meets_RemoteAdds :
    (∀ d ∈ ([1, 0xFF, 0x101] : List Nat), isOk (tZero.rescale (tf d 2 6 1 0)) = true) ∧
    (∃ w ∈ [(⟨7, 3⟩ : CWord)], w.wellFormed = false) ∧
    (∀ a ∈ ([0, 0x01000FFC] : List Nat),
      let s := tGang (tBase [(2, BitVec.ofNat 32 a)] [] [])
      let f := tf 0xFF 2 6 1 0
      s.Clear .radd f ∧ s.Reads f (raddSources .radd f s) ∧ released s (if f.ord < 2 then 0 else f.scope) = true ∧
        (s.chargeAccess true [] [] [] true).isSome = true ∧ s.running f = [0, 1] ∧
        ∀ l < 32, s.Runs f l → isOk (s.reachRemote (s.wA .radd f l) 0 4 true) = true) ∧
    (let s := tBase [(2, 0x20000)] [(2, 0x20800)] []
     let f := tf 0xFF 2 6 1 0
     released s (if f.ord < 2 then 0 else f.scope) = true ∧ s.running f = [0, 1] ∧ s.Clear .raddg f ∧ s.Reads f (raddSources .raddg f s) ∧ (s.chargeAccess true [] [] [0x20000, 0x20800] true).isSome = true ∧
       ∀ l < 32, s.Runs f l → isOk (s.reach (s.pA .raddg f l) 4 true) = true) :=
  ⟨by decide, by decide, by decide, by decide⟩

/-- A descriptor of 64 binary32 elements at offset 0x400 of the scratchpad. -/
def tDesc : List CWord :=
  (List.range 16).map fun k => .gen (if k = 0 then 0x400 else if k = 2 then 0x2000 else if k = 4 then 64 else 0)

/-- A fence with nothing to order, one that is done and one that waits; cache operations; and that descriptor. -/
theorem meets_FencesAndHandles :
    (tZero.running (tOk .fence) = [0, 1] ∧ tZero.Clear .fence (tOk .fence) ∧ tZero.Good .fence (tOk .fence) ∧ (tOk .fence).cOrd = 0) ∧
    (let f := tf 0 0 0 12 0
     tZero.Clear .fence f ∧ tZero.Good .fence f ∧ f.cOrd ≠ 0 ∧ released tZero f.cScope = true ∧ (tSending tZero).Clear .fence f ∧
       (tSending tZero).Good .fence f ∧ (tSending tZero).releaseAt f.cScope = none) ∧
    (tZero.Clear .pref (tOk .pref) ∧ tZero.Good .pref (tOk .pref) ∧ (tZero.core tZero.curCore).dirty = [] ∧
      (tZero.core tZero.curCore).clean = [] ∧ tZero.mem.tags = [] ∧ tZero.metas = []) ∧
    ((tSending tZero).Clear .cmo (tOk .cmo) ∧ (tSending tZero).Good .cmo (tOk .cmo) ∧
      (tSending tZero).inFlight (tSending tZero).cur.wid (tSending tZero).cur.mask = true) ∧
    (tZero.inFlight tZero.cur.wid tZero.cur.mask = false ∧ tZero.Clear .cmo (tOk .cmo) ∧ tZero.Good .cmo (tOk .cmo) ∧ (tZero.wB .cmo (tOk .cmo) 0).toNat = 0) ∧
    (let s := tBase [] [] [(2, 4095), (6, 1)]
     let f := tf 0 2 6 3 3
     s.Clear .cmo f ∧ s.Good .cmo f ∧ f.cN % 4 = 3 ∧ s.inFlight 0 3 = false ∧ s.loadsIn 4095 1 = false ∧ (s.wA .cmo f 0).toNat + (s.wB .cmo f 0).toNat = s.curWg.spad) ∧
    (let s := tBase [] [] [(2, 0x20000), (6, 129)]
     let f := tf 0 2 6 8 3
     s.Clear .cmo f ∧ s.Good .cmo f ∧ f.cN % 4 = 0 ∧ s.inFlight 0 3 = false ∧
       (s.chargeAccess false [] (cmoPages 0x20000 129) []).any (fun v => match v.cmoLines (f.cN % 4) (f.cN / 4 % 4) 2 0x20000 with
         | (u, none) => decide (u.Bundled ∧ u.cur = s.cur)
         | _ => false) = true) ∧
    (let s := tZero.updWg 0 fun g => { g with pad := g.pad.setWords 0 tDesc }
     let f := tf 4 2 0 1 1
     s.Clear .hbind f ∧ s.Good .hbind f ∧ (s.chargeAccess false [] [] []).any (fun v => isOk (v.readDesc true 0)) = true ∧ (∀ w ∈ s.curWg.pad.words 0 16, w.wellFormed = true) ∧
       Desc.check (descOf ((s.curWg.pad.words 0 16).map (·.data))) (s.slot 0) s.curWg.spad = none) :=
  ⟨by decide, by decide, by decide, by decide, by decide, by decide, by decide⟩

/-- A copy record: 4 bytes from global 0x20000 to offset 0x800 of the own scratchpad. -/
def tRec : List CWord := [.gen 0x20000, .gen 0, .gen 0x800, .gen 0, .gen 4, .gen 0x200000, .gen 0, .gen 0]

/-- A descriptor of 64 binary32 elements of the scratchpad at `base`, or of E4M3 elements of slot 2. -/
def tTensor (base fslot stride1 : Nat) : Desc :=
  BitVec.ofNat 512 (base + 2 ^ 64 + fslot * 2 ^ 66 + 2 ^ 77 + 64 * 2 ^ 128 + 2 * 2 ^ 160 + stride1 * 2 ^ 256)

/-- Two handles bound: 2 and 4 to binary32 tensors at 0x400 and 0x800. -/
def tBound : State := tZero.updWg 0 fun g => { g with handles := [(2, tTensor 0x400 0 256), (4, tTensor 0x800 0 256)] }

/-- A request of the workgroup without a barrier object. -/
def tRequest (wg len done : Nat) : Request :=
  { id := 0, wg := wg, wid := 0, ctx := 1, work := .copy 0x20000 0x800 0 1 0 0, len := len, done := done, part := 0
    disc := false, prio := 0, stop := false, since := 1000, bar := none, event := none, gang := [⟨0, 0⟩], priv := true }

/-- The core's state changed. -/
def tCore (s : State) (g : Core → Core) : State := { s with cores := s.cores.map fun e => (e.1, g e.2) }

/-- A range-lock entry of the workgroup's `RLCK`. -/
def tLock : Lock := ⟨1, 0, true, 0, 128, true, 3, 0, 0, false⟩

/-- The state with `n` records at offset `a`. -/
def tRecords (a n : Nat) : State :=
  (tBase [] [] [(2, BitVec.ofNat 32 a), (6, BitVec.ofNat 32 n)]).updWg 0 fun g =>
    { g with pad := g.pad.setWords a (List.replicate n tRec).flatten }

/-- One record at the end of the scratchpad, and 32 of them. -/
theorem meets_CopyRequests_kick : ∀ x ∈ ([(4064, 1), (0, 32)] : List (Nat × Nat)),
    (tRecords x.1 x.2).Clear .kick (tOk .kick) ∧ (tRecords x.1 x.2).Good .kick (tOk .kick) ∧
      ((tRecords x.1 x.2).wA .kick (tOk .kick) 0).toNat = x.1 ∧ ((tRecords x.1 x.2).wB .kick (tOk .kick) 0).toNat = x.2 ∧
      x.1 % 32 = 0 ∧ 1 ≤ x.2 ∧ x.2 ≤ 32 ∧ x.1 + 32 * x.2 ≤ (tRecords x.1 x.2).curWg.spad ∧
      ((tRecords x.1 x.2).curWg.pad.words x.1 (8 * x.2)).all (·.wellFormed) = true ∧
      ∀ j < x.2, (tRecords x.1 x.2).curWg.lineFull (x.1 + 32 * j) = true ∧
        (tRecords x.1 x.2).recOk (((tRecords x.1 x.2).curWg.pad.words (x.1 + 32 * j) 8).map (·.data))
          (copyRec (((tRecords x.1 x.2).curWg.pad.words (x.1 + 32 * j) 8).map (·.data))) = true := by decide +kernel

/-- `GATH`, `ACC` and `CANCEL`; room and none. -/
theorem meets_CopyRequests :
    (let s := tBase [(2, 0x20000)] [(2, 0x20800)] [(8, 4088)]
     let f := tOk .gath
     s.running f = [0, 1] ∧ s.Clear .gath f ∧ s.Reads f (uniformDC .gath f s) ∧ s.curWg.copyq ≠ 0 ∧
       (∀ l < 32, s.Runs f l → isOk (s.gathAddr (s.reads .gath f false l) 8) = true) ∧
       (s.wC .gath f 0).toNat % 8 = 0 ∧
       (s.chargeAccess false [] [0x20000, 0x20800] []).any (fun v => (v.accept (f.b.toNat % 4) (tRequest 0 16 0) [s.lockOf true 0 256 true 1 2 0, s.lockOf false 0x20000 0x20808 false 1 2 0]).isSome) = true) ∧
    (tBound.Clear .acc (tOk .acc) ∧ tBound.Reads (tOk .acc) (fun _ => [⟨[tBound.curWarp.wreg 0], 6⟩]) ∧
      isOk (tBound.handle 4) = true ∧ isOk (tBound.handle 2) = true ∧ accFormat (tBound.slot 0) = true ∧
      Desc.fslot (tTensor 0x400 0 256) = 0 ∧ Desc.ndim (tTensor 0x800 0 256) = Desc.ndim (tTensor 0x400 0 256) ∧
      accOverlap (tTensor 0x400 0 256) (tTensor 0x800 0 256) 32 32 = false ∧ Desc.space (tTensor 0x400 0 256) = 1 ∧
      Desc.space (tTensor 0x800 0 256) = 1 ∧ tBound.curWg.copyq ≠ 0 ∧ (∀ j < 4, Desc.size (tTensor 0x800 0 256) j = Desc.size (tTensor 0x400 0 256) j) ∧
      (tBound.accept 0 (tRequest 0 512 0) [tLock, tLock]).isSome = true) ∧
    (tZero.Clear .cancel (tOk .cancel) ∧ tZero.Good .cancel (tOk .cancel) ∧
      (let r := { tRequest 0 8 0 with part := 4 }
       let s := tCore tZero fun c => { c with queues := [[], [], [r], []] }
       s.Clear .cancel (tOk .cancel) ∧ s.Good .cancel (tOk .cancel) ∧
         (s.core s.curCore).queues.getD ((tOk .cancel).a.toNat % 4) [] = [r] ∧ r.wg = wgKey s.cur.wid ∧ r.part ≠ 0)) ∧
    (tZero.requestsOf 0 < tZero.curWg.copyq ∧ ([tLock] : List Lock).length ≤ 32) ∧
    (let s := tCore tZero fun c => { c with queues := [List.replicate 4 (tRequest 0 4 0), [], [], []] }
     s.curWg.copyq ≤ s.requestsOf 0) ∧
    (let s := tCore tZero fun c => { c with locks := (List.range 32).map fun k => (k, tLock) }
     ((List.range 32).filter fun j => ((s.core s.curCore).locks.get? j).isNone).length < ([tLock] : List Lock).length) :=
  ⟨by decide, by decide, by decide, by decide, by decide, by decide⟩

/-- A range to the end of the scratchpad, with a free entry and with none; an entry to release; chunks of the last bytes and
the rest of one; sweeps with a write on its way and without. -/
theorem meets_LocksAndChunks :
    (let s := tBase [] [] [(2, 4095), (6, 1)]
     let f := tf 4 2 6 2 19
     s.running f = [0, 1] ∧ s.Clear .rlck f ∧ s.Good .rlck f ∧ (s.wB .rlck f 0).toNat ≠ 0 ∧
       (s.wA .rlck f 0).toNat + (s.wB .rlck f 0).toNat ≤ s.curWg.spad ∧ (s.core s.curCore).locks.get? 0 = none) ∧
    (let s := tBase [] [] [(3, 0x7FFFFF), (6, 1)]
     let f := tf 4 2 6 0 19
     s.Clear .rlck f ∧ s.Good .rlck f ∧ (s.pA .rlck f 0).toNat < 2 ^ 55) ∧
    (let locks : KMap Lock := (List.range 32).map fun k => (k, tLock)
     ∀ e < 32, locks.get? e ≠ none) ∧
    (let s := tCore tZero fun c => { c with locks := [(0, tLock)] }
     s.Clear .rlrel (tOk .rlrel) ∧ s.Good .rlrel (tOk .rlrel) ∧
       (s.core s.curCore).locks.get? (s.wA .rlrel (tOk .rlrel) 0).toNat = some tLock ∧ tLock.owner = 3 ∧
       tLock.req = wgKey s.cur.wid) ∧
    (tZero.core 0).queues.getD 0 [] = [] ∧
    (∀ x ∈ ([(8, 4, 0), (12, 4, 0), (8, 0, 4)] : List (Nat × Nat × Nat)),
      let r := { tRequest 0 x.1 x.2.1 with id := 3, part := x.2.2 }
      let s := tCore tZero fun c => { c with queues := [[r], [], [], []] }
      let left := min 4096 (r.len - r.done) - r.part
      let n := min left (128 - (0x800 + (r.done + r.part)) % 128)
      let u : Access := { copy := some 0, user := !r.priv }
      let near (k : Nat) : Bill := s.accessBill 0 r.ctx u (linesFrom (0x20000 + (r.done + r.part)) k) true
      let bill : Bill := if r.part = 0 then (near left).add { copy := (left + 127) / 128 } else { walks := (near n).walks }
      (s.core 0).queues.getD 0 [] = [r] ∧ ((r.pads 0 [0]).head?.map (·.key)) = none ∧
        r.stop = false ∧ (s.ctx r.ctx).stopped = false ∧
        (match s.enginePlaces 0 r.ctx r.priv none (0x20000 + (r.done + r.part)) ((if r.part = 0 then left else n) / 4) u with
          | .ok ps => ps.all fun p => s.readable p && !(s.placeWord 0 r.ctx r.priv p).mismatched
          | .error _ => false) = true ∧ s.canPay (s.grid (s.wg r.wg).grid) bill = true ∧ s.ladleTurn 0 0 = true ∧
        n % 4 = 0 ∧ (0x800 + (r.done + r.part)) % 4 = 0 ∧ (s.wgs.get? r.wg).isSome = true ∧
        s.wgRetired r.wg = false ∧ (s.core (coreOf r.wg)).finj.getLsbD 0 = false ∧ 0 < (s.core 0).queues.length ∧
        0 < (s.core 0).cwp.length) ∧
    (let r := { tRequest 0 8 0 with work := .copy 0x800 0xC00 1 1 0 0 }
     let s := (tCore tZero fun c => { c with queues := [[r], [r], [], []] }).updWg 0 fun g => { g with full := 1 }
     let far := tCore tZero fun c => { c with queues := [[tRequest 0 8 0], [tRequest 0 8 0], [], []] }
     (match s.enginePlaces 0 1 true (some 0) 0x800 2 { copy := some 0, user := false } with
       | .ok ps => ps.all fun p => !s.readable p
       | .error _ => false) = true ∧ ((r.pads 1 [0]).head?.map (·.key)) = some 0 ∧ far.ladleTurn 0 1 = false ∧
       far.ladleTurn 0 0 = true) ∧
    ((tRequest 0 8 0).part = 0 ∧ ({ tRequest 0 8 0 with stop := true }).stop = true ∧ tZero.wgRetired 0 = false ∧
      ((tZero.updCtx 1 fun c => { c with stopped := true }).ctx 1).stopped = true) ∧
    (let s := tCore tZero fun c => { c with sweeps := [⟨0, 0, 1⟩] }
     let fly := { s with fabric := { s.fabric with packets := [tPacket] } }
     ((s.core 0).sweeps.find? fun x => x.slot == 0) = some ⟨0, 0, 1⟩ ∧ ((s.core 0).sweeps.find? fun x => x.slot == 1) = none ∧
       s.fabric.packets = [] ∧ ∃ k ∈ fly.fabric.packets, k.done = false ∧ k.id < 1 ∧ dieOf (endpointCore k.src) = dieOf 0 ∧
         k.op = .store 0 0 0 4 [.zero]) :=
  ⟨by decide, by decide, by decide, by decide, by decide, by decide, by decide, by decide, by decide⟩

/-- The workgroup holds the engine; its queue holds `n` entries; handle 2 is an E4M3 tensor. -/
def tEntry (id : Nat) (op : Op) : Entry :=
  { id := id, op := op, f := tOk op, wid := 0, lanes := 3, pc := 0x10000, hdl := 0, slot := 0, bound := (16, .reset), x := 0, y := 0
    args := [], stuck := false, priv := true, since := 1000, paid := false, ahead := [] }

/-- The device whose workgroup holds the engine. -/
def tHolds (q : List Entry) (ws : List (Nat × Word)) : State :=
  (tCore (tBase [] [] ws) fun c => { c with engine := { Engine.empty with holder := some 0, queue := q } }).updWg 0 fun g =>
    { g with spad := 2 ^ 19, handles := [(2, tTensor 0x400 2 64)] }

/-- Room in the queue and none; a tensor; an image that ends at the end of a scratchpad; a save area at the last page. -/
theorem meets_MatrixEntries :
    (∀ q ∈ [[], List.replicate 32 (tEntry 0 .mswap)],
      let s := tHolds q []
      s.running (tOk .mswap) ≠ [] ∧ s.holdsEngine = true ∧
        (∀ op ∈ [Op.mswap, .cdrain, .cclr, .mzero, .mchk], s.Clear op (tOk op) ∧
          checkSources (sources op (tOk op) s.curWarp (s.curWarp.lane 0) false) s.pc64 = none)) ∧
    (let s := tHolds [] []
     ∀ op ∈ [Op.mlds, .mmul, .mcnt, .mdrain, .mst, .mlda],
       (s.handle ((tOk op).a.toNat % 16) |> isOk) = true ∧ s.Clear op (tOk op) ∧
         checkSources (sources op (tOk op) s.curWarp (s.curWarp.lane 0) false) s.pc64 = none) ∧
    (let k := (tHolds [] []).slot (Desc.fslot (tTensor 0x400 2 64))
     slotValid k = true ∧ matClass (slotElem k) ≠ 3 ∧ slotElem k ≠ 11) ∧
    (∀ op ∈ [Op.cmerge, .mstBank],
      let s := tHolds [] [(0, BitVec.ofNat 32 ((2 ^ 19 - 328960) / 128 * 128))]
      let off := (s.wB op (tOk op) 0).toNat
      s.Clear op (tOk op) ∧ off % 128 = 0 ∧ off + 328960 ≤ s.curWg.spad ∧
        checkSources (sources op (tOk op) s.curWarp (s.curWarp.lane 0) false) s.pc64 = none) ∧
    (∀ op ∈ [Op.msave, .mrest],
      let s := tHolds [] [(0, 0xFFFFF000), (1, 0x7FFFFF)]
      let a := (s.pB op (tOk op) 0).toNat
      s.Clear op (tOk op) ∧ a % 4096 = 0 ∧ a < 2 ^ 55 ∧
        checkSources (sources op (tOk op) s.curWarp (s.curWarp.lane 0) false) s.pc64 = none) :=
  ⟨by decide, by decide, by decide, by decide, by decide⟩

/-- The last index of a tile and of the banks; the engine held, free and held by another; an empty queue and a full one. -/
theorem meets_MatrixControl :
    (∀ x ∈ ([(Op.mrd, 4095), (.mwr, 4095), (.crd, 81919)] : List (Op × Nat)), ∀ q ∈ [[], List.replicate 32 (tEntry 0 .mswap)],
      let s := tHolds q []
      let f := tf (if x.1 = .mwr then 0 else 4) (if x.1 = .crd then 0 else 2) 6 (if x.1 = .mwr then 8 else 0) 0
      let t := tMap s fun t => { t with regs := [(6, .gen (BitVec.ofNat 32 x.2))] }
      t.holdsEngine = true ∧ t.Clear x.1 f ∧ t.Good x.1 f ∧ ∀ l < 32, t.Runs f l → (t.wB x.1 f l).toNat = x.2) ∧
    (let s := tHolds [] []
     s.holdsEngine = true ∧ s.Clear .mrel (tOk .mrel) ∧ s.Good .mrel (tOk .mrel) ∧ (s.core s.curCore).engine.queue.length < 32) ∧
    (tZero.Clear .macq (tOk .macq) ∧ tZero.mayAcquire = true ∧ (tHolds [] []).Clear .macq (tOk .macq)) ∧
    (∀ q ∈ [[], [tEntry 0 .mswap]],
      let s := tHolds q []
      s.holdsEngine = true ∧ s.Clear .mwait (tOk .mwait) ∧ released s (tOk .mwait).mscope = true) :=
  ⟨by decide, by decide, by decide, by decide⟩

/-- Each entry at the head, held and free; a value to store and a lane to write. -/
theorem meets_EngineQueue :
    (∀ op ∈ [Op.mswap, .mrel, .mzero, .cclr, .mwr, .mrd, .crd], ∀ stuck ∈ [true, false],
      let e := { tEntry 0 op with args := [(0, 0, .gen 5), (1, 0, .gen 6)], stuck := stuck }
      let s := tHolds [e, tEntry 1 .mswap] []
      (s.core 0).engine.queue = [e, tEntry 1 .mswap] ∧ (∀ x ∈ [tEntry 1 .mswap], x.id ≠ e.id) ∧
        s.mayStart (s.gridOf e.wid) fieldMecyc = true ∧ e.f.ud = false ∧ (s.core 0).finj.getLsbD 0 = false ∧ e.paid = false ∧
        (∀ a ∈ e.args, isWild a.2.2.data = false) ∧ (s.core 0).engine.tileWord 0 0 = .zero ∧
        (((s.core 0).engine.bank 0).word 0).wellFormed = true) ∧
    ({ tHolds [tEntry 0 .mswap] [] with wgs := [] }.wgs.get? (wgKey 0)).isNone = true ∧ ((tHolds [tEntry 0 .mswap] []).core 0).dirty = [] :=
  ⟨by decide, by decide⟩

/-- A counter at both ends; an empty bank; an engine whose words are good. -/
theorem meets_ResiduesAndCounters :
    ((31 : Nat) < 32 ∧ (CWord.gen 0xFFFFFFFF).wellFormed = true) ∧ (∀ v ∈ ([0, 2 ^ 23, 2 ^ 24 - 1] : List Nat),
      (⟨BitVec.ofNat 24 v, res24 (BitVec.ofNat 24 v)⟩ : Counter).ok = true) ∧
    ((∀ j < 18, (Bank.empty.get j).ok = true) ∧ Bank.empty.fits 0 [1, -1] 0 = true) ∧
    (let w : Bench := ⟨Engine.empty, 0, none, false, false, 0⟩
     w.inj = none ∧ (w.eng.tileWord 0 0).wellFormed = true ∧ suspect ⟨0, true, 6, 6⟩ (.fin false 1 0) 1 0 = false ∧
       suspect ⟨0, false, 6, 6⟩ (.fin false 1 100) 1 0 = true) :=
  ⟨by decide, by decide, by decide, by decide⟩

/-- A page table of three levels at 0x100000 for the pages from 0: page 6 is mapped, page 7 is not. -/
def tPaged : State :=
  let s := tZero.updCtx 1 fun c => { c with ptroot := 0x100001 }
  let m := (s.mem.setWords 0x100000 [.gen 0x110001, .gen 0]).setWords 0x110000 [.gen 0x120001, .gen 0]
  { s with mem := m.setWords 0x120030 [.gen 0x2001F, .gen 0] }

/-- The device after reset with a `NOP` placed, at its bundle. -/
def tFetch : State := (State.reset.withFetchWord 64 (0b01 + 15 * 2 ^ 3 + 0x308 * 2 ^ 7)).atBundle 0 0

/-- Inside a window and outside; a fetch that finds its words and two that fail; walks that succeed and fail. -/
theorem meets_FetchAndHeaders :
    (tZero.Bundled ∧ tZero.leader.window = 0 ∧ (tMap tZero fun t => { t with window := 1 }).leader.window ≠ 0 ∧
      (∀ l < 32, tZero.active l = true → (tZero.curWarp.lane l).window = 0) ∧
      tZero.Enters (lanesOf tZero.cur.mask) causeIllegal 0x50000) ∧
    (let s := tZero.updWarp 0 fun w => w.mapLanes fun l t => if l = 1 then { t with window := 1 } else t
     s.Bundled ∧ ((List.range 32).filter fun l => s.active l && (s.curWarp.lane l).window != 0) = [1] ∧ s.Enters [1] causeIllegal 0x50000) ∧
    (tFetch.cur.mask ≠ 0 ∧ isOk tFetch.fetch.2 = true ∧ tFetch.mem.tags = [] ∧ tFetch.metas = []) ∧
    (∀ x ∈ ([(1, 0), (0, 2)] : List (Nat × Nat)),
      let s := tMap tZero fun t => { t with hi := BitVec.ofNat 9 x.1, pc := BitVec.ofNat 55 (0x10000 + x.2) }
      (s.atBundle 0 0).cur.mask ≠ 0 ∧ isOk (s.atBundle 0 0).fetch.2 = false ∧
        (match (s.atBundle 0 0).fetch.2 with
          | .error (.trap _) => true
          | _ => false) = true) ∧
    (tMap tZero fun t => { t with hi := 1 }).leader.hi ≠ 0 ∧
    (((tPaged.liveWarps 1).find? fun w => warpCore w == 0) = some 0 ∧ ((tPaged.liveWarps 2).find? fun w => warpCore w == 0) = none ∧
      tPaged.mayStart (tPaged.gridOf 0) fieldWalks = true ∧
      (let g := { tGrid with fields := [(0x900, [])] }
       ({ tPaged with grids := [(1, g)], regions := [(0x900, ⟨0, 0, 1, false, 0, 0, 0, 0, 0, [], [], [0, 0, 0, 1], []⟩)] }).mayStart
         g fieldWalks = false)) ∧
    ((tPaged.ctxs.get? 1).isSome = true ∧ (tPaged.ctx 1).retired = false ∧ tPaged.needsWalk 0 1 0x60000 true = true ∧
      isOk (tPaged.walk 0 1 0x60000) = true ∧ isOk (tPaged.walk 0 1 0x70000) = false ∧
      tPaged.needsWalk 0 1 0x70000 true = true ∧
      tPaged.needsWalk 0 1 0x20000 false = false ∧ tPaged.ctxs.get? 2 = none) :=
  ⟨by decide, by decide, by decide, by decide, by decide, by decide, by decide⟩

/-- A warp of 32 lanes whose bundle numbers are in use. -/
theorem meets_Regrouping : (tZero.warps.get? 0).isSome = true ∧ (tZero.warp 0).lanes.length = 32 ∧
    (∀ l < 32, ((((tZero.unpark 0).releaseHeld 0).warp 0).lane l).bid < (((tZero.unpark 0).releaseHeld 0).warp 0).next) ∧
    (∃ l < 32, ((((tZero.unpark 0).releaseHeld 0).warp 0).lane l).placeable = true) ∧
    (∃ l < 32, ((((tZero.unpark 0).releaseHeld 0).warp 0).lane l).placeable = false) := by decide

/-- A root region at 0x900 with a device queue of 16 records at 0x1000, and what its quotas are. -/
def tRegion (devq : Bool) (head tail : Nat) : Region :=
  { pitch := 0, parent := 0, level := 1, devq := devq, imask := 0x3FFF, qbase := 0x1000, qlog := 4, qhead := head, qtail := tail
    own := [0, 1, 16, 8192, 5632, 64, 200, 0], resolved := [0, 1, 16, 8192, 5632, 64, 200, 0], used := [], carried := [] }

/-- The device with that region. -/
def tRegions (devq : Bool) (head tail : Nat) : State := { tZero with regions := [(0x900, tRegion devq head tail)] }

/-- A launch record: one workgroup of one thread with 16 registers, privileged, in context 1. -/
def tLaunch : List CWord :=
  (List.range 32).map fun k => .gen (if 4 ≤ k ∧ k ≤ 6 then 1 else if k = 7 then 0x10001 else
    if k = 8 then 1 + 2 ^ 16 + 2 ^ 21 else if k = 17 then 1 else 0)

/-- A record and a queue to name; no region, another pitch's, a refused record, a full queue, room. -/
theorem meets_LaunchAndGrids_queue :
    (let s := tBase [] [] [(2, 0x20000), (6, 0x20800)]
     let f := tOk .launch
     s.running f = [0, 1] ∧ s.Clear .launch f ∧ s.Good .launch f ∧ (s.pA .launch f 0).toNat % 128 = 0 ∧
       (s.pB .launch f 0).toNat % 256 = 0 ∧ (s.pA .launch f 0).toNat < 2 ^ 55 ∧ (s.pB .launch f 0).toNat < 2 ^ 55 ∧
       (s.chargeAccess false [] [0x20800] [0x20000]).any (fun v => isOk (v.translate v.curCore v.curCtx 0x20000 (v.dataAccess false)) &&
         isOk (v.translate v.curCore v.curCtx 0x20800 (v.dataAccess false)) && released v 5) = true) ∧
    (tZero.regions.get? 0x900 = none ∧ (tRegions true 0 0).regions.get? 0x900 = some (tRegion true 0 0) ∧
      (tRegion true 0 0).pitch = (tZero.ctx tZero.curCtx).pitch ∧ { tRegion true 0 0 with pitch := 3 }.pitch ≠ 0 ∧
      (tRegion false 0 0).devq = false) ∧
    ((tRegions true 0 0).recordWhy (tRegion true 0 0) tLaunch (gridOfRec (tLaunch.map (·.data)) 0x900 0) (some (1, true)) = 0) ∧
    ((tRegions true 0 0).recordWhy (tRegion true 0 0) (List.replicate 32 .zero) (gridOfRec (List.replicate 32 0) 0x900 0)
      (some (1, true)) ≠ 0) ∧
    (2 ^ 4 ≤ (16 + 2 ^ 32 - 0) % 2 ^ 32 ∧ ¬ 2 ^ 4 ≤ (15 + 2 ^ 32 - 0) % 2 ^ 32 ∧ 2 ^ 4 ≤ (0 + 2 ^ 32 - (2 ^ 32 - 16)) % 2 ^ 32) := by
  refine ⟨by decide, by decide, by decide +kernel, by decide +kernel, by decide⟩

/-- A queue with a record to be admitted and one to refuse, an empty queue; a grid that has ended and one that is busy. -/
theorem meets_LaunchAndGrids_grids :
    ((tRegions false 1 1).regions.get? 0x900 = some (tRegion false 1 1) ∧ (tRegion false 0 1).qhead ≠ (tRegion false 0 1).qtail) ∧
    (let s := { tRegions false 0 1 with mem := Mem.empty.setWords 0x1000 tLaunch, ctxs := [(1, { Context.absent with hqpriv := true })] }
     let cs := s.physWords 0 0x1000 32
     s.recordWhy (tRegion false 0 1) cs (gridOfRec (cs.map (·.data)) 0x900 0) none = 0) ∧
    (let s := tRegions false 0 1
     let cs := s.physWords 0 0x1000 32
     s.recordWhy (tRegion false 0 1) cs (gridOfRec (cs.map (·.data)) 0x900 0) none ≠ 0) ∧
    (let g : Grid := { tGrid with placed := 1, ended := 1, caddr := 0x20000 }
     let s := { tRegions false 0 1 with grids := [(1, g)] }
     s.grids.get? 1 = some g ∧ ¬ g.ended < g.total ∧ (∀ k ∈ s.fabric.packets, ¬ (k.grid = 1 ∧ k.done = false)) ∧ g.caddr ≠ 0 ∧
       (∃ k ∈ (tSending s).fabric.packets, k.grid = 1 ∧ k.done = false) ∧
       (s.regions.get? g.region).all (fun r => r.pitch == (s.ctx g.ctx).pitch) = true ∧
       isOk ((s.writeBackCtx g.ctx).translate 1600 1 0x20000 { write := true }) = false ∧
       ((s.writeBackCtx g.ctx).ctxs.get? g.ctx).isSome = true ∧ ((s.writeBackCtx g.ctx).ctx g.ctx).retired = false) ∧
    (let s := tPaged.updCtx 1 fun c => { c with tvec := 0 }
     isOk (s.translate 1600 1 0x60000 { write := true }) = true ∧ s.isData 0 0x20000 = true ∧
       s.target (s.ctx 1).pitch true 0x20000 = .hbm ∧ 0x20000 % 8 = 0) ∧ tGrid.ended < tGrid.total := by
  refine ⟨by decide, by decide +kernel, by decide +kernel, by decide, by decide, by decide⟩

/-- A packet of the device whose number is expected, has been seen, and is ahead; one of a live context. -/
theorem meets_PacketsAndHost :
    (∀ want ∈ ([0, 1, 65535] : List Nat),
      let s := { tSending tZero with fabric := { (tSending tZero).fabric with expect := [(tPacket.stream, want)] } }
      (s.fabric.packets.find? fun x => x.id == 0) = some tPacket ∧ tPacket.sent = true ∧ s.routed tPacket = true ∧
        s.fabric.expect.getD tPacket.stream 0 = want) ∧
    ((0 : Nat) ≠ 1 ∧ (1 + 65536 - 0) % 65536 < 32768 ∧ (0 : Nat) ≠ 65535 ∧ 32768 ≤ (65535 + 65536 - 0) % 65536) ∧
    ((tZero.ctxs.get? tPacket.ctx).isSome = true ∧ (tZero.ctx tPacket.ctx).retired = false ∧
      tZero.corePitch (coreOf 0) = tPacket.pitch ∧ tPacket.op = .store 0 0 0 4 [.zero] ∧ CWord.zero.mismatched = false ∧ (tZero.wgs.get? 0).isSome = true ∧ (tZero.core 0).gens.getD (0 % 16) 0 = 0) ∧
    (let f := { tZero.fabric with crc := [(5, 7)], dead := [6] }
     (f.crc.get? 5).getD 0 + 1 = 8 ∧ 5 ∉ f.dead ∧ 6 ∈ f.dead ∧ (f.crc.get? 4).getD 0 + 1 < 8 ∧
       tZero.portUp (19 % 18) = true ∧ { tZero with fabric := { tZero.fabric with ports := [(1, ⟨false, true⟩)] } }.portUp (19 % 18) = false ∧
       tZero.peerTarget 0 0 0 0 0 (.read 1) = none ∧ (2 ^ 51 : Nat) / 2 ^ 48 = 8 ∧ (0 : Nat) / 2 ^ 48 ≠ 8) ∧
    (let s := { tZero with fabric := { tZero.fabric with lost := [(3, 80)] } }
     s.fabric.lost.get? 3 = some 80 ∧ s.fabric.lost.get? 2 = none ∧ s.time < 80 + 100000 ∧
       ¬ ({ s with cycle := 1251000 }).time < 80 + 100000) ∧
    ((tZero.pitches.get? 0).isSome = true ∧ (tZero.pitch 0).frozen = false ∧ tZero.linkDown 0 = false ∧
      { tZero with lantern := { tZero.lantern with partition := some ⟨4, 0, 1, 0, 0, true⟩ } }.linkDown 0 = true ∧
      tZero.bar2 0 (2 ^ 36 - 4) = some (2 ^ 36 - 4) ∧
      (2 ^ 36 - 4) / 65536 ∉ tZero.lantern.dead ∧ tZero.bar2 0 (2 ^ 36) = none ∧ tZero.pitches.get? 1 = none ∧
      (let q := { Pitch.reset with frozen := true, dumped := true }
       q.frozen = true ∧ q.dumped = true)) := by
  refine ⟨by decide, by decide, by decide, by decide, by decide, by decide⟩

/-- A root block and a child block in memory. -/
def tBlock (parent : Nat) : List CWord :=
  (List.range 64).map fun k => .gen (if k = 0 then BitVec.ofNat 32 parent else if k = 2 then 0x10 else
    if k = 3 ∧ parent = 0 then 0x3FFF else if k = 10 then 1 else 0)

/-- The device with the block in memory at 0x900, and no region. -/
def tBlocks (parent : Nat) : State := { tZero with mem := Mem.empty.setWords 0x900 (tBlock parent) }

/-- A block that links as a root, one that names no parent, a poisoned one; a linked region in use and not in use, whose
block reads as it did and otherwise. -/
theorem meets_RegionLinks :
    ((tZero.pitches.get? 0).isSome = true ∧ (0x900 : Nat) % 2 ^ 52 / 256 * 256 = 0x900) ∧
    ((tBlocks 0).regions.get? 0x900 = none ∧ ((tBlocks 0).physWords 0 0x900 64).all (·.wellFormed) = true ∧
      isOk ((tBlocks 0).linkCheck 0 (((tBlocks 0).physWords 0 0x900 64).map (·.data))) = true) ∧
    isOk ((tBlocks 0x800).linkCheck 0 (((tBlocks 0x800).physWords 0 0x900 64).map (·.data))) = false ∧
    (let s := { tBlocks 0 with mem := Mem.empty.setWords 0x900 [⟨0, 15⟩] }
     (s.physWords 0 0x900 64).all (·.wellFormed) = false) ∧
    (let s := { tBlocks 0 with regions := [(0x900, tRegion false 0 0)], grids := [] }
     let ws := (s.physWords 0 0x900 64).map (·.data)
     s.regions.get? 0x900 = some (tRegion false 0 0) ∧ rcbBad ws = false ∧ wordPair ws 0 = 0 ∧ ws.getD 3 0 = 0x3FFF ∧
       wordBits ws 68 1 = 1 ∧ (tRegion false 0 0).qhead = s.tailOf 0x900 (tRegion false 0 0) ∧ (∀ g ∈ s.grids, g.2.region ≠ 0x900) ∧
       ∀ e ∈ s.regions, e.2.parent ≠ 0x900) ∧
    (∃ g ∈ tZero.grids, g.2.region = 0x900) ∧
    (let s := { tRegions true 0 0 with regions := [(0x900, tRegion true 0 0),
        (0xA00, { tRegion true 0 0 with parent := 0x900, level := 2, imask := 1 })] }
     ∀ e ∈ s.regions, e.2.level ≤ 8 ∧ (e.2.parent = 0 ∨ (s.regions.get? e.2.parent).any fun q => q.level + 1 == e.2.level)) := by
  refine ⟨by decide, by decide, by decide, by decide, by decide, by decide, by decide⟩

theorem meets_DoorbellsAndPeriods :
    (tRegions false 0 0).regions.get? 0x900 = some (tRegion false 0 0) ∧ (tRegion false 0 0).pitch = 0 ∧
      (tRegion false 0 0).devq = false ∧ (tRegion true 0 0).devq = true ∧
      ((tRegions false 0 0).physWord 0 true (0x900 + 32)).wellFormed = true ∧ (tGrid.region = 0x900 ∧ tWg.ended = false) ∧
      tZero.regions.get? 0x900 = none := by decide

/-- A grid that waits for placement, alone in its pitch. -/
def tPlaceGrid : Grid := { tGrid with nreg := 16, slines := 4, fields := [] }

/-- The device with that grid and its region. -/
def tPlacement : State := { tRegions false 0 0 with grids := [(1, tPlaceGrid)] }

/-- A ready grid, and a core for its workgroup; a frozen pitch; no grid. -/
theorem meets_Placement : tPlacement.arbitration 0 = [] ++ (1, tPlaceGrid) :: [] ∧
    (tPlacement.pitch 0).frozen = false ∧ tPlacement.grids.get? 1 = some tPlaceGrid ∧ tPlaceGrid.threads ≤ 1024 ∧
    (tPlacement.pickCores 0 (tPlacement.pitch 0).closed tPlaceGrid).isSome = true ∧ (tPlacement.cores.all fun e => e.2.dirty.isEmpty) = true ∧ { Pitch.reset with frozen := true }.frozen = true := by
  have h : (tPlacement.grids.filter fun e => tPlacement.gridReady 0 e.1 e.2) = [(1, tPlaceGrid)] := by decide +kernel
  refine ⟨?_, by decide, by decide, by decide, ?_, by decide, by decide⟩
  · simp only [State.arbitration, h, List.mergeSort_singleton, List.nil_append]
  · simp only [State.pickCores, List.findSome?_isSome_iff]
    have m : (0 : Nat) ∈ (tPlacement.pitchCores 0).filter fun c =>
        !(tPlacement.pitch 0).closed.getLsbD (unitOf c) && tPlacement.eligible c 0 tPlaceGrid := by decide +kernel
    refine ⟨0, List.mem_mergeSort.2 m, ?_⟩
    have l : tPlaceGrid.gang ≤ (((((tPlacement.pitchCores 0).filter fun c =>
        !(tPlacement.pitch 0).closed.getLsbD (unitOf c) && tPlacement.eligible c 0 tPlaceGrid).mergeSort fun a b =>
          tPlacement.rowsUsed a < tPlacement.rowsUsed b || (tPlacement.rowsUsed a == tPlacement.rowsUsed b && a ≤ b)).filter
            fun d => dieOf d == dieOf 0)).length :=
      List.length_pos_of_mem (List.mem_filter.2 ⟨List.mem_mergeSort.2 m, by simp⟩)
    simp only [l, if_true, Option.isSome_some]

/-- A list of places without scratchpad lines is always taken. -/
theorem placeAll_bare (i : Nat) (g : Grid) (h : g.slines = 0) (gang : List GangEntry) (ks : List (Nat × Nat)) (s : State) :
    (s.placeAll i g gang ks).2 = true := by
  induction ks generalizing s with
  | nil => rfl
  | cons k ks ih => simp only [State.placeAll, State.pinPad, h, if_true]; exact ih _

/-- A grid without scratchpad that finds its core is placed; a pitch without grids has none to serve. -/
theorem meets_Placement_placed : ∀ (s : State) (i : Nat) (g : Grid), g.slines = 0 → (s.pickCores 0 (s.pitch 0).closed g).isSome = true →
    ∃ u, s.placeGrid 0 i g = (u, true) := by
  intro s i g h c
  obtain ⟨cs, hc⟩ := Option.isSome_iff_exists.1 c
  simp only [State.placeGrid, hc]
  have p := placeAll_bare i g h
  split
  · exact ⟨_, rfl⟩
  · next e => have := congrArg Prod.snd e; rw [p] at this; cases this

/-- R414, R416, R237: a walk leaves its two non-leaf entries in the walker's cache; an invalidation of a page that they
serve removes them, one elsewhere does not. -/
theorem test_walker_holds : (((tPaged.touch 0 1 0x60000 { fetch := true }).walker 0).length = 2 ∧
    (((tPaged.touch 0 1 0x60000 { fetch := true }).dropTlbs 1 (some (0x60000, 0x70000))).walker 0).length = 0 ∧
    (((tPaged.touch 0 1 0x60000 { fetch := true }).dropTlbs 1 (some (2 ^ 43, 2 ^ 43 + 0x10000))).walker 0).length = 2) := by decide +kernel

/-- A pitch that asks for operation `op` on context `c`; its save area is the 8 KiB from 0x20000. -/
def tReq (s : State) (op c : Nat) : State :=
  let t := s.updPitch 0 fun q => { q with pcreq := BitVec.ofNat 32 (0x8000 + 4096 * op + c), pcsave := 0x20000, pcsize := 2 }
  { t with cores := t.cores ++ [(1600, { Core.reset with dtlb := [⟨1, 0x20000, false, 0x20000, true, false, true⟩] })] }

/-- Context 1 has one workgroup without warps and without scratchpad, and is stopped. -/
def tStopped : State :=
  let s := { tZero with warps := [], wgs := [(0, { Workgroup.absent with grid := 1, ctx := 1 })] }
  s.updCtx 1 fun c => { c with stopped := true }

/-- That workgroup as it was captured. -/
def tHeld : Saved := ⟨0x20000, 0, [(0, { Workgroup.absent with grid := 1, ctx := 1 })], [], [], [], [], [], []⟩

/-- That workgroup saved: the first words of the area are `m`. -/
def tSaved (m : List CWord) : State :=
  { tReq tStopped 3 1 with
    wgs := [], mem := Mem.empty.setWords 0x20000 m
    saved := [(1, tHeld)] }

/-- Requests of each kind, for a bound context and for one that is not; a pre-emption held by a packet, and one whose area
takes the workgroup. -/
theorem meets_PreemptKillResume_ends :
    (∀ op < 4, ∀ c ∈ ([1, 5] : List Nat),
      let s := tReq tZero op c
      (s.pitches.get? 0).isSome = true ∧ (s.pitch 0).pcreq.toNat % 4096 = c ∧ (s.pitch 0).pcreq.getLsbD 15 = true ∧
        (s.pitch 0).pcreq.toNat / 4096 % 4 = op ∧ ((s.ctxs.get? c).isSome = true ↔ c = 1) ∧ (s.ctx c).retired = false ∧
        (s.ctx c).pitch = 0 ∧ (s.pitch 0).pcsave.toNat % 4096 = 0 ∧ (s.pitch 0).pcsave.toNat < 2 ^ 55 ∧
        s.warps.sorted = true ∧ (s.ctx 1).stopped = false) ∧
    (let s := (tReq tZero 1 1).updPitch 0 fun q => { q with pcsave := 0x20008 }
     (s.pitch 0).pcsave.toNat % 4096 ≠ 0) ∧
    (∃ k ∈ (tSending (tReq tStopped 1 1)).fabric.packets, k.ctx = 1 ∧ k.done = false) ∧
    ((tCore (tReq tStopped 1 1) fun c => { c with queues := [[{ tRequest 0 8 0 with part := 4 }], [], [], []] }).unitRuns 1 0 = true ∧
      ((tReq tStopped 1 1).cores.all fun e => !(tReq tStopped 1 1).unitRuns 1 e.1) = true ∧ (tReq tStopped 1 1).fabric.packets = []) ∧
    (let s := tReq tStopped 1 1
     let s2 := ((s.cores.foldl (fun s e => s.drainSfu e.1 fun x => s.ctxOf x.wid == 1) s).flushAll 1).1
     (s.ctx 1).stopped = true ∧ (∀ w ∈ s.liveWarps 1, (s.warp w).defers s.time = false) ∧
       ((s.cores.foldl (fun s e => s.drainSfu e.1 fun x => s.ctxOf x.wid == 1) s).flushAll 1).2 = false ∧ s.wgsOf 1 ≠ [] ∧
       4 * (s2.saveImage 1 (s.wgsOf 1)).1.length ≤ (s.pitch 0).pcsize.toNat * 4096 ∧
       (s2.areaPas 1 (s.pitch 0).pcsave.toNat (4 * (s2.saveImage 1 (s.wgsOf 1)).1.length) true).isSome = true) ∧
    (let s := tZero.updCtx 1 fun c => { c with retired := true }
     (s.ctx 1).retired = true ∧ (s.ctx 1).pitch = 0) := by
  refine ⟨by decide, by decide, by decide, by decide, ?_, by decide⟩
  exact ⟨by decide, by decide, by decide, by decide, by decide +kernel, by decide +kernel⟩

/-- The save area's page is mapped. -/
theorem tSaved_translate (m : List CWord) (k : Nat) (h : k < 2048) :
    (tSaved m).translate 1600 1 (0x20000 + 4 * k) { write := false } = .ok (0x20000 + 4 * k) := by
  have l : (tSaved m).lookup 1600 1 (0x20000 + 4 * k) false = .ok ⟨1, 0x20000, false, 0x20000, true, false, true⟩ := by
    have c : ((tSaved m).core 1600).dtlb = [⟨1, 0x20000, false, 0x20000, true, false, true⟩] := rfl
    have e : 0x20000 = (0x20000 + 4 * k) / 65536 * 65536 := by omega
    simp [State.lookup, c, Tlb.hits, ← e]
  simp only [State.translate, l, Tlb.denies]
  simp; omega

/-- The save area's words are words of the stack. -/
theorem tSaved_target (m : List CWord) (k : Nat) (h : k < 2048) : (tSaved m).target 0 true (0x20000 + 4 * k) = .hbm := by
  have a : (0x20000 + 4 * k) / 2 ^ 48 = 0 := by omega
  have b : (0x20000 + 4 * k) / 2 ^ 40 = 0 := by omega
  have c : (0x20000 + 4 * k) / 2 ^ 36 = 0 := by omega
  have o : (tSaved m).ownsStack 0 (0x20000 + 4 * k) = true := by
    simp only [State.ownsStack, b, c]; rfl
  simp only [State.target, a, o]; rfl

/-- The addresses of the area. -/
theorem tSaved_areaPas (m : List CWord) :
    (tSaved m).areaPas 1 0x20000 8192 false = some ((List.range 2048).map fun k => 0x20000 + 4 * k) := by
  have h : ∀ l : List Nat, (∀ k ∈ l, k < 2048) → (l.mapM fun k => match (tSaved m).translate 1600 1 (0x20000 + 4 * k) { write := false } with
      | .error _ => none
      | .ok pa => if ((tSaved m).physRefused 0 true pa false).isSome then none else some pa) =
      some (l.map fun k => 0x20000 + 4 * k) := by
    intro l hl
    induction l with
    | nil => rfl
    | cons k l ih =>
      have r : ((tSaved m).physRefused 0 true (0x20000 + 4 * k) false).isSome = false := by
        simp only [State.physRefused, tSaved_target m k (hl k (by simp))]; rfl
      simp only [List.mapM_cons, tSaved_translate m k (hl k (by simp)), r, ih fun j hj => hl j (by simp [hj])]
      rfl
  exact h _ (by simp)

/-- A word of the area, as memory holds it. -/
theorem tSaved_word (m : List CWord) (k : Nat) (h : k < 2048) :
    (tSaved m).physWord 0 true (0x20000 + 4 * k) = ((Mem.empty.setWords 0x20000 m).word (0x20000 + 4 * k)).sound := by
  have d : (tSaved m).lantern.dead = [] := rfl
  simp only [State.physWord, tSaved_target m k h, d]; rfl

/-- The words of the area. -/
@[irreducible] def tArea (m : List CWord) : List CWord := 
  (List.range 2048).map fun k => ((Mem.empty.setWords 0x20000 m).word (0x20000 + 4 * k)).sound

/-- What the area is read as. -/
theorem tSaved_readArea (m : List CWord) : (tSaved m).readArea 0 1 =
    if (tArea m).any (fun w => !w.wellFormed) then .bad
    else if ((tArea m).getD 0 .zero).data != Config.imageRevision || ((tArea m).getD 1 .zero).data != 1 ||
      ((tArea m).getD 2 .zero).data != 1 then .fail 3 else .good (tArea m) := by
  have pas := tSaved_areaPas m
  have ws : ((List.range 2048).map fun k => 0x20000 + 4 * k).map (fun pa => (tSaved m).physWord 0 true pa) = tArea m := by
    rw [List.map_map]; unfold tArea
    exact List.map_congr_left fun k hk => tSaved_word m k (List.mem_range.1 hk)
  have g : (tSaved m).saved.get? 1 = some tHeld := rfl
  have e : (tSaved m).pitch 0 = { Pitch.reset with units := 1, ctxLo := 1, ctxN := 8, pcreq := 0xB001, pcsave := 0x20000, pcsize := 2 } := rfl
  have b : (((tSaved m).pitch 0).badBase || decide (((tSaved m).pitch 0).pcsize.toNat * 4096 < 8192)) = false := by
    rw [e]; decide
  have n : up4k (64 + 8 * tHeld.wgs.length) + (tHeld.wgs.map fun e => recordBytes e.2 (tHeld.holds e.1)).sum = 8192 := rfl
  have a : ((tSaved m).pitch 0).pcsave.toNat = 0x20000 := rfl
  have q : ((tSaved m).ctx 1).pitch = 0 := rfl
  have l : BitVec.ofNat 32 tHeld.wgs.length = 1#32 := rfl
  simp only [State.readArea, g, n, b, a, q, pas, ws, l]
  simp

/-- The words of the area beyond those stored. -/
theorem tArea_rest (m : List CWord) (k : Nat) (h : k < 2048) (hm : m.length ≤ k) : (tArea m).getD k .zero = .zero := by
  simp only [tArea, List.getD_eq_getElem?_getD, List.getElem?_map, List.getElem?_range h, Option.map_some, Option.getD_some]
  rw [Mem.word_setWords _ _ _ _ (by omega)]
  simp only [Mem.word, Mem.data, Mem.byte, Mem.empty, KMap.getD, KMap.get?_nil, Option.getD_none]
  decide

/-- The words stored in the area. -/
theorem tArea_three (a b c : CWord) (ha : a.sound = a) (hb : b.sound = b) (hc : c.sound = c) :
    (tArea [a, b, c]).getD 0 .zero = a ∧ (tArea [a, b, c]).getD 1 .zero = b ∧ (tArea [a, b, c]).getD 2 .zero = c := by
  have g (k : Nat) (h : k < 2048) :
      (tArea [a, b, c]).getD k .zero = ((Mem.empty.setWords 0x20000 [a, b, c]).word (0x20000 + 4 * k)).sound := by
    simp only [tArea, List.getD_eq_getElem?_getD, List.getElem?_map, List.getElem?_range h, Option.map_some, Option.getD_some]
  rw [g 0 (by omega), g 1 (by omega), g 2 (by omega)]
  refine ⟨by rw [Mem.word_setWords_head _ _ _ _, ha], ?_, ?_⟩
  · rw [Mem.setWords, Mem.word_setWords_head _ _ _ _, hb]
  · rw [Mem.setWords, Mem.setWords, Mem.word_setWords_head _ _ _ _, hc]

/-- An area that reads as an image of the workgroup in the device's revision; one whose first word is poisoned; none. -/
theorem meets_PreemptKillResume_areas :
    (let s := tSaved [.gen Config.imageRevision, .gen 1, .gen 1]
     s.readArea 0 1 = .good (tArea [.gen Config.imageRevision, .gen 1, .gen 1]) ∧ s.saved.get? 1 = some tHeld ∧
       (s.seatAll 0 tHeld 1 tHeld.wgs []).isSome = true ∧
       { s with units := [] }.seatAll 0 tHeld 1 tHeld.wgs [] = none) ∧
    (tSaved [⟨0, 15⟩, .zero, .zero]).readArea 0 1 = .bad ∧ (tReq tZero 3 1).readArea 0 1 = .fail 3 := by
  have len (m : List CWord) : (tArea m).length = 2048 := by simp [tArea]
  have all (a b c : CWord) (h : a.wellFormed = true ∧ b.wellFormed = true ∧ c.wellFormed = true) :
      (tArea [a, b, c]).any (fun w => !w.wellFormed) = false := by
    have so (w : CWord) (h : w.wellFormed = true) : w.sound = w := by simp [CWord.sound, CWord.mismatched, h]
    obtain ⟨ga, gb, gc⟩ := tArea_three a b c (so a h.1) (so b h.2.1) (so c h.2.2)
    rw [List.any_eq_false]
    intro w hw
    obtain ⟨k, hk, rfl⟩ := List.getElem_of_mem hw
    have e : (tArea [a, b, c])[k] = (tArea [a, b, c]).getD k .zero := by simp [List.getD_eq_getElem?_getD, hk]
    rw [len] at hk
    rw [e]
    match k with
    | 0 => rw [ga]; simp [h.1]
    | 1 => rw [gb]; simp [h.2.1]
    | 2 => rw [gc]; simp [h.2.2]
    | k + 3 => rw [tArea_rest _ _ hk (by simp)]; decide
  refine ⟨⟨?_, rfl, by decide +kernel, by decide +kernel⟩, ?_, by decide⟩
  · obtain ⟨ga, gb, gc⟩ := tArea_three (.gen Config.imageRevision) (.gen 1) (.gen 1) (by simp [CWord.sound, CWord.mismatched, CWord.wellFormed, CWord.gen])
      (by decide) (by decide)
    have w (d : Word) : (CWord.gen d).wellFormed = true := by simp [CWord.wellFormed, CWord.gen]
    rw [tSaved_readArea, all _ _ _ ⟨w _, w _, w _⟩, ga, gb, gc]
    simp [CWord.gen]
  · obtain ⟨ga, -, -⟩ := tArea_three ⟨0, 15⟩ .zero .zero (by decide) (by decide) (by decide)
    have m : (⟨0, 15⟩ : CWord) ∈ tArea [⟨0, 15⟩, .zero, .zero] := by
      have l := len [⟨0, 15⟩, .zero, .zero]
      generalize tArea [⟨0, 15⟩, .zero, .zero] = ws at ga l
      cases ws with
      | nil => simp at l
      | cons w ws => rw [List.getD_cons_zero] at ga; simp [ga]
    rw [tSaved_readArea, if_pos (List.any_eq_true.2 ⟨_, m, by decide⟩)]

/-- A context command of pitch 0. -/
def tCx (s : State) (op c root vec : Nat) : State :=
  s.updPitch 0 fun q =>
    { q with cxcmd := BitVec.ofNat 32 (0x8000 + 4096 * op + c), cxroot := BitVec.ofNat 64 root, cxvec := BitVec.ofNat 64 vec }

/-- Each command on a bound number, a free one, one out of range, a retired one, and one that its grids hold. -/
theorem meets_ContextCommands :
    (∀ op < 5, ∀ c ∈ ([0, 1, 2, 8, 9, 0xFFF] : List Nat),
      let q := (tCx tZero op c 0x100001 0x40000).pitch 0
      (tZero.pitches.get? 0).isSome = true ∧ q.cxcmd.toNat % 4096 = c ∧ q.cxcmd.getLsbD 15 = true ∧
        q.cxcmd.toNat / 4096 % 8 = op ∧ (ptrootWrite q.cxroot = q.cxroot ∧ q.cxvec.toNat % 256 = 0 ∧ q.cxvec.toNat < 2 ^ 55) ∧
        ((c < q.ctxLo ∨ q.ctxLo + q.ctxN ≤ c ∨ c = 0xFFF) ↔ (c = 0 ∨ c = 9 ∨ c = 0xFFF)) ∧
        ((tZero.ctxs.get? c).isSome = true ↔ c = 1)) ∧
    (ptrootWrite 2 ≠ 2 ∧ (0x40001 : BitVec 64).toNat % 256 ≠ 0 ∧ 2 ^ 55 ≤ (2 ^ 55 : BitVec 64).toNat) ∧
    (tZero.ctx 1).retired = false ∧ (tZero.ctx 1).pitch = 0 ∧ ((tZero.updCtx 1 fun c => { c with retired := true }).ctx 1).retired = true ∧
    ((tZero.updCtx 1 fun c => { c with pitch := 3 }).ctx 1).pitch ≠ 0 ∧ (∃ e ∈ tZero.grids, e.2.ctx = 1) ∧
    (tZero.grids.all fun e => e.2.ctx != 2) = true ∧ tZero.saved.get? 1 = none ∧
    (∃ x ∈ (tZero.core 0).dtlb, x.ctx = (0x20001 : BitVec 64).toNat % 4096 ∧
      (0x20001 : BitVec 64).toNat / 2 ^ 16 % 2 ^ 39 * 2 ^ 16 < x.va + 2 ^ 16 ∧
      x.va < (0x20001 : BitVec 64).toNat / 2 ^ 16 % 2 ^ 39 * 2 ^ 16 + 2 ^ 16) ∧
    (∃ x ∈ (tZero.core 0).dtlb, x.va + 2 ^ 16 ≤ (0x50001 : BitVec 64).toNat / 2 ^ 16 % 2 ^ 39 * 2 ^ 16) := by
  refine ⟨by decide, by decide, by decide, by decide, by decide, by decide, by decide, by decide, by decide, by decide, by decide⟩

/-- A pitch that runs and one that is frozen, requests that are taken and that are not; an aperture enabled and not. -/
theorem meets_RegisterWrites :
    ((tZero.pitches.get? 0).isSome = true ∧ (tZero.pitch 0).frozen = false ∧ tZero.linkDown 0 = false ∧ (tZero.pitch 0).pcstat.getLsbD 0 = false ∧
      (tZero.pitch 0).cxstat.getLsbD 0 = false ∧ tZero.code ≠ .zlm4P ∧ tZero.lantern.mbstat.getLsbD 0 = false ∧ (tZero.pitch 0).apert.getD 3 .off = .off ∧
      Aperture.off.en = false) ∧
    ((tZero.updPitch 0 fun q => { q with frozen := true, pcstat := 1 }).pitch 0).frozen = true ∧
    ((tZero.updPitch 0 fun q => { q with pcstat := 1 }).pitch 0).pcstat.getLsbD 0 = true ∧
    ((tZero.pitch 0).rlstat.getLsbD 4 = false ∧ (tZero.pitch 0).tlbBusy = false ∧
      ((tZero.updPitch 0 fun q => { q with rlstat := 0x10, tlbBusy := true }).pitch 0).rlstat.getLsbD 4 = true ∧
      ((tZero.updPitch 0 fun q => { q with rlstat := 0x10, tlbBusy := true }).pitch 0).tlbBusy = true) ∧
    ((0xA001 : Word).getLsbD 15 = true ∧ (0xA001 : Word).toNat / 4096 % 4 = 2 ∧ (0x9001 : Word).getLsbD 15 = true ∧
      (0x9001 : Word).toNat / 4096 % 8 = 1) ∧
    ((0x8000000016400004 : BitVec 64).getLsbD 63 = true ∧ (0x8000000016400004 : BitVec 64).toNat % 256 = 4) ∧
    ((0x1100000040 : BitVec 64).getLsbD 32 = true ∧ (0x1100000040 : BitVec 64).toNat / 2 ^ 33 % 8 < 5 ∧
      (0x1100000040 : BitVec 64).toNat / 2 ^ 36 % 4 < 3) ∧
    { Aperture.off with en := true }.en = true := by decide

/-- A partition command in host memory at 0: its first three words and the range. -/
def tPart (s : State) (w0 w1 w2 w3 : Nat) : State :=
  { s with
    mem := Mem.empty.setWords (2 ^ 51) ([w0, w1, w2, w3, 0, 0, 0, 0].map fun n => .gen (BitVec.ofNat 32 n))
    lantern := { s.lantern with mbcmd := 0x8000000000200001, mbstat := 1 } }

/-- Commands that pass their checks and that fail each of them; a running command, early and past its limit. -/
theorem meets_PartitionCommands :
    (∀ op < 6, ∀ p ∈ ([0, 1] : List Nat), ∀ u ∈ ([0, 1, 2, 3] : List Nat),
      let s := tPart tZero (op + 16 * p) u 0 (9 + 4 * 2 ^ 12)
      let c := s.partCmd
      s.mailOp = 1 ∧ c.op = op ∧ c.pitch = p ∧ c.units = BitVec.ofNat 16 u ∧ c.lo = 9 ∧ c.n = 4 ∧ c.bad = false ∧
        s.lantern.partition = none ∧ ((s.pitches.get? p).isSome = true ↔ p = 0) ∧ s.rangeBad c.lo c.n = false ∧
        (s.pitch p).frozen = false ∧ s.linkDown p = false) ∧
    (tZero.units.get? 0).isSome = true ∧ (tZero.units.get? 1) = none ∧ ({ tPart tZero 0x91 0 0 0 with code := .zlm4P }).code = .zlm4P ∧ 8 ≤ ({ tPart tZero 0x91 0 0 0 with code := .zlm4P }).partCmd.pitch ∧
    (tPart tZero 1 2 0 (8 + 4 * 2 ^ 12)).rangeBad 8 4 = true ∧
    (tPart tZero 0x201 2 0 0).partCmd.bad = true ∧ (tPart tZero 1 2 0 0).partCmd.n = 0 ∧ 4095 < (tPart tZero 1 2 0 (4096 * 2 ^ 12)).partCmd.n ∧
    (let s := (tPart tZero 3 1 0 0).updPitch 0 fun q => { q with units := 3 }
     let mine := (s.pitch 0).units
     s.partCmd.units &&& ~~~mine = 0 ∧ mine &&& ~~~s.partCmd.units ≠ 0 ∧ s.drained s.partCmd.units = false ∧
       ({ s with wgs := [] }).drained s.partCmd.units = true) ∧
    (let s := (tPart tZero 3 1 0 0)
     s.partCmd.units &&& ~~~(s.pitch 0).units = 0 ∧ (s.pitch 0).units &&& ~~~s.partCmd.units = 0) ∧
    ((tPart tZero 4 0 0 0).partCmd.scrub = false ∧ (tPart tZero 0x104 0 0 0).partCmd.scrub = true) ∧
    (let s := ({ tZero with lantern := { tZero.lantern with partition := some ⟨3, 0, 1, 1, 0, false⟩ } }).updPitch 0 fun q => { q with closed := 1 }
     (s.pitches.get? 0).isSome = true ∧ tZero.swept 1 = true ∧ (tZero.stopPitch 0).swept 1 = true ∧
       (let v := { tSending (tCore tZero fun c => { c with sweeps := [⟨0, 0, 1⟩] }) with wgs := [] }
        v.swept 1 = false ∧ (v.stopPitch 0).swept 1 = false) ∧ (s.pitch 0).closed ≠ 0 ∧ s.time < 0 + 1024 * 1 ∧
       ¬ ({ s with cycle := 12800 }).time < 0 + 1024 * 1) ∧
    ((tZero.updPitch 0 fun q => { q with frozen := true }).pitch 0).frozen = true ∧ (tZero.pitch 0).dumped = false ∧
    (tZero.ctx 1).pitch = 0 := by
  refine ⟨by decide +kernel, by decide, by decide, by decide, by decide, by decide, by decide, by decide, by decide, by decide,
    by decide, by decide, by decide, by decide⟩

/-! ## Images -/

/-- Stored words read back in a row. -/
theorem words_setWords (m : Mem) (a : Nat) (ws : List CWord) : (m.setWords a ws).words a ws.length = ws := by
  have h : ∀ (ws : List CWord) (m : Mem) (a k : Nat) (hk : k < ws.length), (m.setWords a ws).word (a + 4 * k) = ws[k] := by
    intro ws
    induction ws with
    | nil => intro m a k hk; simp at hk
    | cons w ws ih =>
      intro m a k hk
      match k with
      | 0 => exact Mem.word_setWords_head m a w ws
      | k + 1 =>
        have e : a + 4 * (k + 1) = a + 4 + 4 * k := by omega
        rw [Mem.setWords, e]
        exact ih (m.setWord a w) (a + 4) k (by simpa using hk)
  apply List.ext_getElem
  · simp [Mem.words]
  · intro k h1 h2
    simp only [Mem.words, List.getElem_map, List.getElem_range]
    exact h ws m a k h2

/-- An image with revision `rev` of its form for this device, and zeros to its length. -/
def tImage (rev n : Nat) : List Word := [BitVec.ofNat 32 rev, 1, 0, 0, 0, Config.deviceRevision] ++ List.replicate n 0

/-- Host memory with words at 0. -/
@[irreducible] def tBuffer (ws : List CWord) : Mem := Mem.empty.setWords (2 ^ 51) ws

/-- The device with an image in host memory at 0, and the command that loads it. -/
def tUpload (op rev n : Nat) : State :=
  { tZero with
    mem := tBuffer ((tImage rev n).map CWord.gen)
    lantern := { tZero.lantern with mbcmd := BitVec.ofNat 64 (2 ^ 63 + 4 * (n + 6) * 2 ^ 16 + op), mbstat := 1 } }

/-- What the mailbox reads is the image. -/
theorem tUpload_data (op rev n : Nat) (h : (tUpload op rev n).mailLen = 4 * (n + 6)) :
    (tUpload op rev n).mailData = (tImage rev n).map CWord.gen := by
  have a : hostPa (tUpload op rev n).lantern.mbaddr.toNat = 2 ^ 51 := by
    have z : (tUpload op rev n).lantern.mbaddr = 0 := rfl
    rw [z]; decide
  have m : (tUpload op rev n).mem = tBuffer ((tImage rev n).map CWord.gen) := rfl
  have k : 4 * (n + 6) / 4 = ((tImage rev n).map CWord.gen).length := by simp [tImage]
  unfold State.mailData State.mailWords
  rw [h, a, m, k]
  unfold tBuffer
  exact words_setWords _ _ _

/-- The words of an image are well formed. -/
theorem image_wellFormed (ws : List Word) : ¬ ∃ w ∈ ws.map CWord.gen, w.wellFormed = false := by
  rintro ⟨w, hw, h⟩
  obtain ⟨d, -, rfl⟩ := List.mem_map.1 hw
  simp [CWord.wellFormed, CWord.gen] at h

/-- A Rennet image and a firmware image that pass every check of the device while their signature verifies (which is open,
log 11), and end with RESULT 2 while it does not; too short ones; a poisoned word; a device after reset, without power and up. -/
theorem meets_LanternServices :
    (∀ op rev n : Nat, (op, rev, n) ∈ [(2, 1, 606), (3, 2, 94)] →
      (tUpload op rev n).mailOp = op ∧ (tUpload op rev n).mailLen = 4 * (n + 6) ∧
        (tUpload op rev n).mailData.map (·.data) = tImage rev n ∧ ¬ ∃ w ∈ (tUpload op rev n).mailData, w.wellFormed = false) ∧
    (Config.signatureVerifies (bytesOf (tImage 1 606)) = true → imageResult (tImage 1 606) 0x990 1 0x900 0 = 0) ∧
    (Config.signatureVerifies (bytesOf (tImage 1 606)) = false → imageResult (tImage 1 606) 0x990 1 0x900 0 = 2) ∧
    (Config.signatureVerifies (bytesOf (tImage 2 94)) = true → imageResult (tImage 2 94) 0x190 2 0x100 0 = 0) ∧
    rennetResult (tImage 1 606) = 0 ∧ tZero.emulating ((tImage 1 606).getD 2 0) = false ∧
    ((tUpload 2 1 6).mailLen < 0x990 ∧ (tUpload 3 2 6).mailLen < 0x190) ∧
    ((CWord.mk 0 15).wellFormed = false ∧ imageResult (List.replicate 612 0) 0x994 1 0x900 0 = 1) ∧
    (tZero.life = .up ∧ State.reset.life ≠ .up ∧ tZero.mailOp ≠ 4 ∧ (tPart tZero 1 1 0 0).mailOp ≠ 4 ∧
      ({ State.reset with life := .dead }).agenda.head? ≠ some (.event .bringUp) ∧ State.reset.life ≠ .dark ∧
      ({ State.reset with life := .dark }).life = .dark ∧
      (tMap tZero fun t => { t with body := 1 }).emulating 1 = true ∧
      ({ tUpload 2 1 606 with rennet := { tZero.rennet with slots := [] } }).mailOp = 2) ∧
    (∀ x ∈ ([(4, 5696), (4, 64), (5, 64), (5, 0), (5, 33)] : List (Nat × Nat)),
      let s := { tZero with lantern := { tZero.lantern with mbcmd := BitVec.ofNat 64 (2 ^ 63 + x.2 * 2 ^ 16 + x.1) } }
      s.mailOp = x.1 ∧ s.mailLen = x.2) := by
  have v : ∀ op rev n : Nat, (op, rev, n) ∈ [(2, 1, 606), (3, 2, 94)] →
      (tUpload op rev n).mailOp = op ∧ (tUpload op rev n).mailLen = 4 * (n + 6) := by
    intro op rev n h
    simp only [List.mem_cons, Prod.mk.injEq, List.not_mem_nil, or_false] at h
    obtain ⟨rfl, rfl, rfl⟩ | ⟨rfl, rfl, rfl⟩ := h <;> exact ⟨rfl, rfl⟩
  have same : (Config.deviceRevision != Config.deviceRevision) = false := by simp
  have at5 (rev n : Nat) : (tImage rev n).getD 5 0 = Config.deviceRevision := rfl
  refine ⟨fun op rev n h => ?_, fun h => ?_, fun h => ?_, fun h => ?_, ?_, by decide, by decide, by decide, by decide, by decide⟩
  · obtain ⟨a, b⟩ := v op rev n h
    have d := tUpload_data op rev n b
    exact ⟨a, b, by rw [d, List.map_map]; simp [Function.comp_def, CWord.gen], d ▸ image_wellFormed _⟩
  · simp only [imageResult, h, at5, same]; decide
  · simp only [imageResult, h, at5, same]; decide
  · simp only [imageResult, h, at5, same]; decide
  · decide +kernel

/-! ## Encoding, the step, the invariants -/

/-- A wide, a compact and a header instruction that are well formed and no events. -/
theorem meets_RoundTrip : ∀ i ∈ ([.add (tf 4 2 6 0 0), .addCompact ⟨false, 15, 7, 9, 0⟩, .clauseHeader ⟨5, 3, 0b1100⟩,
    .mul { tf 10 2 0 0 8 with fmt := .f96 0x10003 }] : List Instr), i.isEvent = false ∧ i.wf = true := by decide

/-- A word that decodes, and one that does not. -/
theorem meets_DecodedIsEncoded : decode (f64 0x001 4 2 6 0 0) = .sub (tf 4 2 6 0 0) ∧
    ∃ e, decode (bitsOfWords [0xFFFFFFFF, 0xFFFFFFFF]) = .notAnInstruction e := ⟨by decide, _, rfl⟩

/-- What the step needs of a placed instruction. -/
def tStepOk (s : State) : Bool :=
  let b := { s with agenda := [] }.atBundle 0 0
  let v := b.fetch.1
  s.agenda == [.issue 0 0] && s.life != .dead && !s.frozenCore 0 && !s.halted 0 && !(s.warp 0).asyncDue && b.cur.mask != 0 &&
    { s with agenda := [] }.mayIssue 0 0 && b.waitMask == 0 && b.leader.body == 0 && b.sfuPending.isEmpty && b.engPending.isEmpty &&
    match b.fetch.2 with
    | .ok ws => !v.loadStalls (bitsOfWords ws) && (v.claim (bitsOfWords ws)).isNone && (v.badLock (decode (bitsOfWords ws))).isNone
    | .error _ => false

/-- Whether the placed instruction has nothing to wait for. -/
def tReady (s : State) : Bool :=
  let b := { s with agenda := [] }.atBundle 0 0
  match b.fetch.2 with
  | .ok ws => (b.fetch.1.dependOn (decode (bitsOfWords ws))).isSome
  | .error _ => false

/-- The device after reset with `ADD R4, R2, 5` placed. -/
def tPlaced : State := State.reset.withFetchWord 64 (0b01 + 15 * 2 ^ 3 + 4 * 2 ^ 17 + 2 * 2 ^ 26 + 5 * 2 ^ 35 + 8 * 2 ^ 53)

/-- With nothing to wait for, and behind a load of R4 that is outstanding; an `FMAC` that no slot claims. -/
theorem meets_StepRunsDecoded :
    (tStepOk tPlaced = true ∧ tReady tPlaced = true) ∧
    (let s := tPlaced.updWarp 0 fun w => { w with loads := [(9, ⟨[(0, .pad 0 0)], 4, ⟨false, 4⟩, 0, 0, none⟩)] }
     tStepOk s = true ∧ tReady s = false) ∧
    (let s := { State.reset.withFetchWord 64 (0b01 + 15 * 2 ^ 3 + 0x190 * 2 ^ 7) with rennet := State.reset.rennet }
     tStepOk s = true ∧ tReady s = true) := by
  refine ⟨by decide +kernel, by decide +kernel, by decide +kernel⟩

/-- A step of the placed instruction: the sum is written, and the lane goes on. -/
theorem test_step : ∃ t, step tPlaced = .next t ∧ ((t.warp 0).lane 0).reg 4 = .gen 5 ∧ ((t.warp 0).lane 0).pc = 0x10008 ∧
    t.agenda = [] ∧ t.cycle = 1 := by
  have h : (match step tPlaced with
      | .next t => ((t.warp 0).lane 0).reg 4 == .gen 5 && ((t.warp 0).lane 0).pc == 0x10008 && t.agenda.isEmpty && t.cycle == 1
      | _ => false) = true := by decide +kernel
  match e : step tPlaced with
  | .next t =>
    rw [e] at h
    simp only [Bool.and_eq_true, beq_iff_eq, List.isEmpty_iff] at h
    exact ⟨t, rfl, h.1.1.1, h.1.1.2, h.1.2, h.2⟩
  | .fault _ => rw [e] at h; simp at h
  | .refused _ => rw [e] at h; simp at h

/-- R394: of two ready bundles of a core the older goes first; the younger does not issue in that slot. -/
theorem test_oldest_first :
    let s := { tPlaced with cycle := 10, warps := [(0, tPlaced.warp 0), (1, (tPlaced.warp 0).mapLanes fun _ t => { t with age := 5 })] }
    (s.mayIssue 0 0, s.mayIssue 1 0) = (true, false) := by decide +kernel

/-- The device with a slot 3 that claims every `ADD` of F64, with an action. -/
def tClaiming (act : Nat) : State :=
  let x := { Slot.unused with
    match_ := 1, mask := 0x1FF83, kind := 1, act := act, anyc := true, pmask := 0xFFFF, cause := 1, routine := 64 }
  { tZero with rennet := { State.reset.rennet with slots := State.reset.rennet.slots.set 3 x } }

/-- Slots that trap and emulate, a boot slot, and words that no slot claims. -/
theorem meets_ClaimedEncodings :
    (tZero.Bundled ∧ tZero.claim (f64 0x001 4 2 6 0 0) = none) ∧
    (∀ act ∈ ([0, 2] : List Nat),
      ((tClaiming act).claim (f64 0 4 2 6 0 0)).any (fun k => k.n == 3 && k.slot.act == act && !k.slot.ofBoot &&
        (tClaiming act).claimBad k == 0) = true ∧ (tClaiming act).Bundled) ∧
    (tClaiming 2).cores.all (fun e => e.2.sfu.isEmpty) = true ∧
    ((tZero.claim (f64 0x190 4 2 6 8 0)).any fun k => k.slot.ofBoot && (tZero.decoded k.v == .fmac (tf 4 2 6 8 0)) &&
      (lowest (nWhys .fmac (tf 4 2 6 8 0) tZero.curWg.nreg)).isNone && (tZero.dependOn (.fmac (tf 4 2 6 8 0))).isSome) = true := by
  refine ⟨by decide, by decide, by decide, by decide +kernel⟩

/-- A step that answers next from a state that meets the invariant. -/
theorem meets_MemoryStaysCanonical : KMap.canonical tPlaced.mem.bytes 0 = true ∧ KMap.sorted tPlaced.mem.tags = true ∧
    (tPlaced.wgs.all fun e => KMap.canonical e.2.pad.bytes 0 && KMap.sorted e.2.pad.tags) = true ∧ tPlaced.saved = [] := by decide

/-! ## Caches (R257, R361, R362, R347, R370, R478) -/

/-- Core 0 holds the line of 0x20000 clean in L1 with zeros, while its home has 7 in the first word. -/
def tStale : State :=
  let s := (tZero.loadFill 0 1 0 0x20000 4 0).homeWord 0xFFF 0x20000 (.gen 7)
  s

/-- A load hits the old copy; after an acquire at gang scope, not one at workgroup scope, it reads the home (R311, R362). -/
theorem test_acquire_drops_clean :
    (tStale.coreWord 0 0 false 0x20000).data = 0 ∧ ((tStale.acquireAt 0 2).coreWord 0 0 false 0x20000).data = 0 ∧
      ((tStale.acquireAt 0 3).coreWord 0 0 false 0x20000).data = 7 ∧ (tStale.coreWord 1 0 false 0x20000).data = 7 := by decide

/-- A store is seen by its own core at once and at home after its write-back, which dirties the L2 line; a kill of its context
discards that line (R347, R361, R369). -/
theorem test_kill_drops_dirty_line :
    let who : Issuer := ⟨0, 1, some 0, false, 0x20000⟩
    let s := tZero.storeWord who false 0x20000 (.gen 9)
    let t := s.writeBack 0 0x400
    (s.coreWord 0 0 false 0x20000).data = 9 ∧ (s.physWord 0 false 0x20000).data = 0 ∧
      (t.physWord 0 false 0x20000).data = 9 ∧ (t.l2.map fun e => (e.line, e.dirty.map (·.1))) = [(0x400, some 1)] ∧
      ((t.killOne 1 1).physWord 0 true 0x20000).data = 0 ∧
      (((t.cleanL2 fun _ => true).killOne 1 1).physWord 0 true 0x20000).data = 9 := by decide +kernel

/-- The thirteenth line of a set takes the way of the least recently used one (R360, R361). -/
theorem test_l1_replaces_lru :
    let s := (List.range 12).foldl (fun (s : State) k => s.loadFill 0 1 0 (0x10000 * (k + 2)) 4 0) tZero
    let t := (s.loadFill 0 1 0 0x20000 4 0).loadFill 0 1 0 0x1000000 4 0
    (t.core 0).lines.length = 12 ∧ (t.core 0).lines.contains 0x400 = true ∧ (t.core 0).lines.contains 0x600 = false := by
  decide +kernel

/-- The bad dirty line of the manual's example: its words stay where its owner's kill cannot reach them, half of them
poisoned, its way is quarantined and the next line of the set takes another (R370, R478). -/
theorem test_bad_dirty_line :
    let s := tZero.homeWords 1 0x40000 [.gen 0x2000, .gen 0x2001]
    let t := s.upset 2 0 0 0x40000
    let u := t.l2Touch 0x800
    (t.mem.word 0x40000).poisoned = true ∧ (t.mem.word 0x40004).data = 0x2001 ∧ (t.ctx 1).retired = true ∧
      t.quar = [(264, [(170, 0)])] ∧ (u.l2.map (·.way)) = [1] := by decide +kernel

end Sys2Proof.Tests
end

section
/-!
SUPPORT. The canonical form of memory (R7, R15; log 29), and the reasoning rules for it: one lemma for each operation of the
model, in the order of the model's files, that says the operation keeps it. `State.Canon.f h` is the lemma of `State.f`.
-/

namespace Sys2Proof.Machine

/-! ## The form -/

/-- Canonical form of one memory: rising addresses, no listed zero byte, and residues listed in rising order. -/
def Mem.Canon (m : Mem) : Prop := KMap.canonical m.bytes 0 = true ∧ KMap.sorted m.tags = true

/-- The scratchpads of a table of workgroups are canonical. -/
def PadsCanon (wgs : KMap Workgroup) : Prop := ∀ e ∈ wgs, e.2.pad.Canon

/-- Every memory of a state is canonical: device memory, the scratchpads, and those of the saved contexts. -/
structure State.Canon (s : State) : Prop where
  mem   : s.mem.Canon
  pads  : PadsCanon s.wgs
  saved : ∀ x ∈ s.saved, PadsCanon x.2.wgs

theorem Mem.Canon.empty : Mem.empty.Canon := ⟨rfl, rfl⟩

theorem Mem.Canon.setWord {m : Mem} {a w} (h : m.Canon) : (m.setWord a w).Canon :=
  ⟨setBytes_canonical a _ h.1, KMap.sorted_set _ _ _ h.2⟩

theorem Mem.Canon.setWords {m : Mem} {a ws} (h : m.Canon) : (m.setWords a ws).Canon := by
  induction ws generalizing m a with
  | nil => exact h
  | cons w ws ih => exact ih h.setWord

/-- Leaving out bytes and residues keeps the form. -/
theorem Mem.Canon.filter {m : Mem} {p q} (h : m.Canon) : Mem.Canon ⟨m.bytes.filter p, m.tags.filter q⟩ := by
  obtain ⟨hb, ht⟩ := h
  simp only [KMap.canonical, Bool.and_eq_true, List.all_eq_true] at hb
  refine ⟨?_, KMap.sorted_filter _ ht⟩
  simp only [KMap.canonical, Bool.and_eq_true, List.all_eq_true]
  exact ⟨KMap.sorted_filter _ hb.1, fun e he => hb.2 e (List.mem_of_mem_filter he)⟩

theorem PadsCanon.put {wgs : KMap Workgroup} {k} {g : Workgroup} (h : PadsCanon wgs) (hg : g.pad.Canon) :
    PadsCanon (wgs.put k g) := by
  intro e he
  rcases KMap.mem_put he with rfl | he
  · exact hg
  · exact h e he

theorem PadsCanon.filter {wgs : KMap Workgroup} {p} (h : PadsCanon wgs) : PadsCanon (wgs.filter p) :=
  fun e he => h e (List.mem_of_mem_filter he)

theorem PadsCanon.mapv {wgs : KMap Workgroup} {f : Nat → Workgroup → Workgroup} (h : PadsCanon wgs)
    (hf : ∀ k g, g.pad.Canon → (f k g).pad.Canon) : PadsCanon (wgs.mapv f) := by
  intro e he
  obtain ⟨x, hx, rfl⟩ := List.mem_map.1 he
  exact hf _ _ (h x hx)

/-! ## Ways to a new state -/

variable {s t : State}

/-- A state that differs outside its memories. -/
theorem State.Canon.elsewhere {code life cycle agenda rota cur free warps grids ctxs cores hostErrs l2 views metas walkers units
      pitches regions fabric rennet lantern quar reports} (h : s.Canon) :
    State.Canon ⟨code, life, cycle, agenda, rota, cur, free, warps, s.wgs, grids, ctxs, cores, s.mem, hostErrs, l2, views, metas,
      walkers, units, pitches, regions, fabric, rennet, lantern, s.saved, quar, reports⟩ := ⟨h.mem, h.pads, h.saved⟩

theorem State.Canon.ite {p : Prop} [Decidable p] (hs : s.Canon) (ht : t.Canon) : (if p then s else t).Canon := by
  split <;> assumption

theorem State.Canon.foldl {α : Type} {f : State → α → State} {xs : List α} (h : s.Canon)
    (hf : ∀ s x, s.Canon → (f s x).Canon) : (xs.foldl f s).Canon := by
  induction xs generalizing s with
  | nil => exact h
  | cons x xs ih => exact ih (hf s x h)

/-- A fold that carries more than the state. -/
theorem State.Canon.foldl_fst {α β : Type} {f : State × β → α → State × β} {xs : List α} {x : State × β} (h : x.1.Canon)
    (hf : ∀ x a, x.1.Canon → (f x a).1.Canon) : (xs.foldl f x).1.Canon := by
  induction xs generalizing x with
  | nil => exact h
  | cons a xs ih => exact ih (hf x a h)

/-- The state that an option may hold is canonical. -/
inductive OptCanon : Option State → Prop where
  | none : OptCanon none
  | some {s : State} (h : s.Canon) : OptCanon (some s)

/-- The state of a result is canonical; an error holds none. -/
inductive OkCanon {ε : Type} : Except ε State → Prop where
  | error {x : ε} : OkCanon (.error x)
  | ok {s : State} (h : s.Canon) : OkCanon (.ok s)

/-- The next state of an outcome is canonical. -/
inductive OutCanon : Out → Prop where
  | next {s : State} (h : s.Canon) : OutCanon (.next s)
  | fault {x : Fault} : OutCanon (.fault x)
  | refused {x : Refusal} : OutCanon (.refused x)

theorem OptCanon.get {o : Option State} (h : OptCanon o) (e : o = .some s) : s.Canon := by
  subst e
  cases h
  assumption

theorem OkCanon.get {ε : Type} {x : Except ε State} (h : OkCanon x) (e : x = .ok s) : s.Canon := by
  subst e
  cases h
  assumption

theorem OutCanon.get {o : Out} (h : OutCanon o) (e : o = .next s) : s.Canon := by
  subst e
  cases h
  assumption

theorem OutCanon.ite {p : Prop} [Decidable p] {x y : Out} (hx : OutCanon x) (hy : OutCanon y) :
    OutCanon (if p then x else y) := by
  split <;> assumption

/-! ## Slices and parts of the state -/

theorem State.Canon.l2Touch {n} (h : s.Canon) : (s.l2Touch n).Canon := by
  rw [s.l2Touch_eq]
  exact h.elsewhere

theorem State.Canon.l2Access {pa} (h : s.Canon) : (s.l2Access pa).Canon := by
  rw [s.l2Access_eq]
  exact h.elsewhere

theorem State.Canon.homeWord {c pa w} (h : s.Canon) : (s.homeWord c pa w).Canon := by
  rw [s.homeWord_eq]
  exact ⟨h.mem.setWord, h.pads, h.saved⟩

theorem State.Canon.homeWords {c pa ws} (h : s.Canon) : (s.homeWords c pa ws).Canon :=
  h.foldl fun _ _ h => h.homeWord

theorem State.Canon.cleanL2 {p} (h : s.Canon) : (s.cleanL2 p).Canon := h.elsewhere

theorem State.Canon.dropL2 {p} (h : s.Canon) : (s.dropL2 p).Canon := by
  refine ⟨?_, h.pads, h.saved⟩
  have key : ∀ (l : List L2Line) (m : Mem), m.Canon → (l.foldl (fun m e => match e.dirty with
      | some (_, ws) => m.setWords (128 * e.line) ws
      | none => m) m).Canon := by
    intro l
    induction l with
    | nil => exact fun _ h => h
    | cons e l ih =>
      intro m hm
      refine ih _ ?_
      dsimp only
      split
      · exact hm.setWords
      · exact hm
  exact key _ _ h.mem

theorem State.Canon.setWarp {wid w} (h : s.Canon) : (s.setWarp wid w).Canon := h.elsewhere

theorem State.Canon.updWarp {wid f} (h : s.Canon) : (s.updWarp wid f).Canon := by
  unfold State.updWarp
  split
  · exact h.setWarp
  · exact h

theorem State.Canon.wg {k} (h : s.Canon) : (s.wg k).pad.Canon := by
  unfold State.wg KMap.getD
  cases e : s.wgs.get? k with
  | none => exact .empty
  | some g => exact h.pads _ (KMap.mem_of_get? e)

theorem State.Canon.setWg {k g} (h : s.Canon) (hg : g.pad.Canon) : (s.setWg k g).Canon :=
  ⟨h.mem, h.pads.put hg, h.saved⟩

theorem State.Canon.updWg {k f} (h : s.Canon) (hf : ∀ g, g.pad.Canon → (f g).pad.Canon) : (s.updWg k f).Canon := by
  unfold State.updWg
  split
  next g e => exact h.setWg (hf _ (h.pads _ (KMap.mem_of_get? e)))
  next => exact h

theorem State.Canon.updGrid {g f} (h : s.Canon) : (s.updGrid g f).Canon := by
  unfold State.updGrid
  split
  · exact h.elsewhere
  · exact h

theorem State.Canon.updCtx {c f} (h : s.Canon) : (s.updCtx c f).Canon := by
  unfold State.updCtx
  split
  · exact h.elsewhere
  · exact h

theorem State.Canon.setCore {c k} (h : s.Canon) : (s.setCore c k).Canon := h.elsewhere

theorem State.Canon.updCore {c f} (h : s.Canon) : (s.updCore c f).Canon := h.setCore

theorem State.Canon.updPitch {p f} (h : s.Canon) : (s.updPitch p f).Canon := by
  unfold State.updPitch
  split
  · exact h.elsewhere
  · exact h

theorem State.Canon.updRegion {a f} (h : s.Canon) : (s.updRegion a f).Canon := by
  unfold State.updRegion
  split
  · exact h.elsewhere
  · exact h

theorem State.Canon.report {r} (h : s.Canon) : (s.report r).Canon := h.elsewhere

theorem State.Canon.reportIf {p : Prop} [Decidable p] {r} (h : s.Canon) : (if p then s.report r else s).Canon := .ite h.report h

theorem State.Canon.fresh (h : s.Canon) : s.fresh.2.Canon := h.elsewhere

theorem State.Canon.logRecord {r} (h : s.Canon) : (s.logRecord r).Canon := h.elsewhere

theorem State.Canon.reportError {p r} (h : s.Canon) : (s.reportError p r).Canon :=
  .report (.ite h (.ite h.updPitch.report h.homeWords.updPitch.report))

theorem State.Canon.corrected {c core pa} (h : s.Canon) : (s.corrected c core pa).Canon := h.reportError

theorem State.Canon.ucerr {c core named src cls pa addr extra flags found} (h : s.Canon) :
    (s.ucerr c core named src cls pa addr extra flags found).Canon := by
  unfold State.ucerr
  dsimp only
  split
  · exact h.reportError
  · exact h.reportError.updWarp

/-! ## Physical addresses -/

theorem State.Canon.bufferWords {c xs} (h : s.Canon) : (s.bufferWords c xs).Canon := h.foldl fun _ _ h => h.homeWord

theorem State.Canon.viewBack {key} (h : s.Canon) : (s.viewBack key).Canon := by
  unfold State.viewBack
  split
  · exact h
  split
  · exact h
  · exact (h.foldl fun _ _ h => .ite h.bufferWords.cleanL2 h).elsewhere

theorem State.Canon.viewOut {key} (h : s.Canon) : (s.viewOut key).Canon := h.viewBack.elsewhere

theorem State.Canon.viewWords {c p a xs} (h : s.Canon) : (s.viewWords c p a xs).Canon := by
  unfold State.viewWords
  split
  · exact h
  · exact (State.Canon.ite h.viewBack h).elsewhere

theorem State.Canon.metaBack {e} (h : s.Canon) : (s.metaBack e).Canon := by
  unfold State.metaBack
  split
  · exact h.homeWords
  · exact h

theorem State.Canon.metaPut {n e} (h : s.Canon) : (s.metaPut n e).Canon := h.elsewhere.foldl fun _ _ h => h.metaBack

theorem State.Canon.metaOut {p} (h : s.Canon) : (s.metaOut p).Canon :=
  h.elsewhere.foldl fun _ _ h => h.foldl fun _ _ h => h.metaBack

theorem State.Canon.chunkWords {c a off xs} (h : s.Canon) : (s.chunkWords c a off xs).1.Canon := by
  unfold State.chunkWords
  dsimp only
  split
  · exact h.homeWords.metaPut
  · exact h.metaPut

theorem State.Canon.placeWords {c p priv xs} (h : s.Canon) : (s.placeWords c p priv xs).1.Canon := by
  unfold State.placeWords
  split
  · exact h
  split
  · split
    · exact h
    split
    · dsimp only
      exact h.viewWords
    · exact h.chunkWords
  · exact h.foldl fun _ _ h => h.homeWord
  · exact h.foldl fun _ _ h => .ite h.homeWord h.homeWord.report
  · exact h.foldl fun _ _ h => h.homeWord

theorem State.Canon.regBytes {p off n w} (h : s.Canon) : (s.regBytes p off n w).Canon := h.elsewhere

theorem State.Canon.physWrites {who xs} (h : s.Canon) : (s.physWrites who xs).Canon := by
  unfold State.physWrites
  split
  · exact h
  dsimp only
  split
  · exact h
  split
  · exact h.ucerr
  split
  · exact h.foldl fun _ _ h => h.regBytes
  · exact (State.Canon.ite h.placeWords h.placeWords.ucerr).foldl fun _ _ h => h.ucerr

theorem State.Canon.physWrite {who pa w} (h : s.Canon) : (s.physWrite who pa w).Canon := h.physWrites

theorem State.Canon.sweepLine {core c pa} (h : s.Canon) : (s.sweepLine core c pa).Canon :=
  h.foldl fun _ _ h => .ite (State.Canon.ucerr ⟨h.mem.setWord, h.pads, h.saved⟩) h

theorem State.Canon.fetchLine {core c p pa} (h : s.Canon) : (s.fetchLine core c p pa).1.Canon := by
  unfold State.fetchLine
  dsimp only
  split
  · split
    · exact h
    · exact .ite h.elsewhere h.metaPut
  · exact h.l2Access.sweepLine
  · exact h

theorem State.Canon.codeLine {core c p pa} (h : s.Canon) : (s.codeLine core c p pa).Canon := by
  unfold State.codeLine
  refine .ite ?_ h
  split
  · exact h.updCore
  · exact h.fetchLine.updCore

theorem State.Canon.writeBack {core n} (h : s.Canon) : (s.writeBack core n).Canon := by
  unfold State.writeBack
  dsimp only
  split
  · exact h
  · exact h.updCore.physWrites

theorem State.Canon.writeBacks {core pas} (h : s.Canon) : (s.writeBacks core pas).Canon := h.foldl fun _ _ h => h.writeBack

/-! ## Translation -/

theorem State.Canon.walked {die c va} (h : s.Canon) : (s.walked die c va).Canon := .ite h h.elsewhere

theorem State.Canon.install {core code x} (h : s.Canon) : (s.install core code x).Canon := h.updCore

theorem State.Canon.touch {core c va u} (h : s.Canon) : (s.touch core c va u).Canon := by
  unfold State.touch
  refine .ite ?_ h
  dsimp only
  split
  · exact .ite h.walked h.walked.install
  · exact h.walked

theorem State.Canon.dropTlbs {c page} (h : s.Canon) : (s.dropTlbs c page).Canon := h.elsewhere

/-! ## SFU results, kills and traps -/

theorem State.Canon.sfuWrite {e} (h : s.Canon) : (s.sfuWrite e).Canon := (State.Canon.ite h h.corrected).updWarp

theorem State.Canon.drainSfu {core p} (h : s.Canon) : (s.drainSfu core p).Canon := by
  unfold State.drainSfu
  exact State.Canon.updCore (h.foldl fun _ _ h => h.sfuWrite)

theorem State.Canon.complete {g st why} (h : s.Canon) : (s.complete g st why).Canon := by
  refine .reportIf (.ite h ?_)
  split
  · exact h
  · exact .ite h.placeWords h

theorem State.Canon.freeWg {k} (h : s.Canon) : (s.freeWg k).Canon := ⟨h.mem, h.pads.filter, h.saved⟩

theorem State.Canon.eraseSaved {c} (h : s.Canon) : State.Canon { s with saved := s.saved.erase c } :=
  ⟨h.mem, h.pads, fun x hx => h.saved x (List.mem_of_mem_filter hx)⟩

theorem State.Canon.killOne {c why} (h : s.Canon) : (s.killOne c why).Canon := by
  have h2 := (h.foldl (xs := s.wgsOf c) fun _ k h => h.freeWg (k := k))
  exact ((((h2.foldl fun _ _ h => h.complete).eraseSaved.elsewhere).elsewhere.dropL2.dropTlbs.updCtx).updPitch).elsewhere

theorem State.Canon.kill {c why orig} (h : s.Canon) : (s.kill c why orig).Canon :=
  h.killOne.foldl fun _ _ h => h.killOne.reportError

theorem State.Canon.enterGroup {wid tam tpc x ls} (h : s.Canon) : (s.enterGroup wid tam tpc x ls).Canon := by
  unfold State.enterGroup
  refine .ite h.drainSfu.kill ?_
  split
  · exact h.drainSfu.kill
  · exact h.drainSfu.setWarp

theorem State.Canon.enterTraps {wid tam tpc ts} (h : s.Canon) : (s.enterTraps wid tam tpc ts).Canon :=
  h.foldl fun _ _ h => .ite h h.enterGroup

theorem State.Canon.trapLanes {wid tam pc tpc ts} (h : s.Canon) : (s.trapLanes wid tam pc tpc ts).Canon :=
  .ite h.enterTraps h.updWarp.enterTraps.enterTraps

theorem State.Canon.enterAsync {wid a} (h : s.Canon) : (s.enterAsync wid a).Canon := by
  unfold State.enterAsync
  dsimp only
  split
  · exact h.drainSfu.kill
  · exact h.drainSfu.setWarp

end Sys2Proof.Machine
end

section
/-! SUPPORT. Issue, operands and results, budgets, the L1 of a core, and the accesses of a bundle keep memory canonical. -/

namespace Sys2Proof.Machine

variable {s : State}

/-! ## Issue and results -/

theorem State.Canon.trapActive {x} (h : s.Canon) : (s.trapActive x).Canon := h.updCore.trapLanes

theorem State.Canon.issue {op f more k} (h : s.Canon) (hk : OutCanon (k s)) : OutCanon (s.issue op f more k) := by
  unfold State.issue
  split
  · exact .next h.trapActive
  · exact .ite (.next h.trapActive) hk

theorem State.Canon.park {wid m} (h : s.Canon) : (s.park wid m).Canon := h.updWarp

theorem State.Canon.finishAt {f tpc ts} (h : s.Canon) : (s.finishAt f tpc ts).Canon :=
  have h1 := State.Canon.ite h.updCore h.updCore.updWarp.trapLanes
  .ite h1.park h1

theorem State.Canon.finish {f ts} (h : s.Canon) : (s.finish f ts).Canon := h.finishAt

theorem State.Canon.perLane {f src body} (h : s.Canon) (hb : ∀ t i, t.Canon → OkCanon (body t i)) :
    (s.perLane f src body).1.Canon := by
  refine h.foldl_fst fun x l hx => ?_
  dsimp only
  split
  · exact hx
  split
  · exact hx.updWarp
  split
  · exact hx
  split
  · exact hx
  next e => exact (hb _ _ hx).get e

theorem State.Canon.afterInjection {j} (h : s.Canon) : (s.afterInjection j).Canon := by
  cases j with
  | none => exact h
  | some j => exact h.updCore

theorem State.Canon.commit {f xs} (h : s.Canon) : (s.commit f xs).Canon := h.updWarp.finish

theorem State.Canon.lanewiseOn {op f k src body} (h : s.Canon) : OutCanon (s.lanewiseOn op f k src body) := by
  unfold State.lanewiseOn
  exact h.issue (.next h.afterInjection.commit)

theorem State.Canon.deprecated {c n} (h : s.Canon) : (s.deprecated c n).Canon := .ite h.updCtx.updCtx.report h.updCtx

theorem State.Canon.deprecatedLanes {op f k body} (h : s.Canon) : OutCanon (deprecatedLanes op k body f s) := by
  unfold Machine.deprecatedLanes
  exact h.issue (.next h.afterInjection.deprecated.commit)

/-! ## Budgets -/

theorem State.Canon.charge {g k n} (h : s.Canon) : (s.charge g k n).Canon :=
  .ite h (h.foldl fun _ _ h => h.updRegion)

theorem State.Canon.pay {core c g b} (h : s.Canon) : (s.pay core c g b).Canon :=
  State.Canon.foldl (h.foldl fun _ _ h => h.charge) fun _ _ h => h.touch

theorem State.Canon.chargeLines {core c g u vas own} (h : s.Canon) : OptCanon (s.chargeLines core c g u vas own) := by
  unfold State.chargeLines
  dsimp only
  split
  · exact .some h.pay
  · exact .none

/-! ## L1 -/

theorem State.Canon.evictFault {core c info addr} (h : s.Canon) : (s.evictFault core c info addr).Canon := by
  unfold State.evictFault
  dsimp only
  split
  · exact h.updWarp
  · exact h.kill

theorem State.Canon.backWalk {core pas} (h : s.Canon) : (s.backWalk core pas).Canon := by
  refine h.foldl fun _ _ h => ?_
  split
  · exact h
  · exact h.pay

theorem State.Canon.cleanLine {core n} (h : s.Canon) : (s.cleanLine core n).Canon := by
  refine .ite h ?_
  split
  · exact h.backWalk.updCore.evictFault
  · exact h.backWalk.writeBacks

theorem State.Canon.evictLine {core n} (h : s.Canon) : (s.evictLine core n).1.Canon := by
  unfold State.evictLine
  dsimp only
  split
  · exact h.cleanLine
  · dsimp only
    exact h.cleanLine.updCore

theorem State.Canon.evictWord {core pa} (h : s.Canon) : (s.evictWord core pa).Canon := by
  unfold State.evictWord
  exact (State.Canon.ite h.cleanLine h).updCore

theorem State.Canon.makeRoom {core ns} (h : s.Canon) : (s.makeRoom core ns).1.Canon := by
  induction ns generalizing s with
  | nil => exact h
  | cons n ns ih =>
    have h1 := h.evictLine (core := core) (n := n)
    unfold State.makeRoom
    split
    next e => rwa [e] at h1
    next e => exact ih (by rwa [e] at h1)

theorem State.Canon.freeWay {core set} (h : s.Canon) : (s.freeWay core set).1.Canon := by
  unfold State.freeWay
  dsimp only
  split
  · exact h.makeRoom
  · exact h

theorem State.Canon.fillLine {core c p pa last} (h : s.Canon) : (s.fillLine core c p pa last).1.Canon := by
  have h1 : (if (s.core core).lines.contains (pa / 128) then (s, true) else s.freeWay core (pa / 128 % 512)).1.Canon := by
    split
    · exact h
    · exact h.freeWay
  unfold State.fillLine
  dsimp only
  split
  next e => rwa [e] at h1
  next e =>
    rw [e] at h1
    dsimp only at h1 ⊢
    exact h1.fetchLine.updCore

theorem State.Canon.loadFill {core c p pa size ch} (h : s.Canon) : (s.loadFill core c p pa size ch).Canon :=
  .ite h (.ite h.updCore (.ite (.ite (.ite h.updCore.fillLine.corrected h.updCore.fillLine) h.updCore)
    (.ite h.fetchLine h.fillLine)))

theorem State.Canon.storeWord {who direct pa w} (h : s.Canon) : (s.storeWord who direct pa w).Canon := by
  unfold State.storeWord
  refine .ite h (.ite ?_ h.updCore.physWrite)
  extract_lets line foreign s1
  have h1 : s1.Canon := .ite h h.writeBacks
  have h2 : (if (s1.core who.core).lines.contains (pa / 128) then (s1.updCore who.core fun c => c.touchL1 (pa / 128), true)
      else s1.fillLine who.core who.ctx (s.pitchOf who) pa false).1.Canon := by
    split
    · dsimp only
      exact h1.updCore
    · exact h1.fillLine
  split
  next e =>
    rw [e] at h2
    exact h2.updCore.physWrite
  next e =>
    rw [e] at h2
    exact h2.updCore

theorem State.Canon.storeWords {who direct pa ws} (h : s.Canon) : (s.storeWords who direct pa ws).Canon :=
  .ite (h.foldl fun _ _ h => h.storeWord) h.updCore.physWrites

theorem State.Canon.acquireAt {core scope} (h : s.Canon) : (s.acquireAt core scope).Canon := .ite h h.updCore

theorem State.Canon.pinLines {core slot fuel n counts} (h : s.Canon) : (s.pinLines core slot fuel n counts).1.Canon := by
  induction fuel generalizing s n counts with
  | zero => cases n <;> exact h
  | succ fuel ih =>
    cases n with
    | zero => exact h
    | succ n =>
      unfold State.pinLines
      split
      · exact h
      next k _ =>
        have h1 := h.freeWay (core := core) (set := k)
        split
        next e => exact ih (by rwa [e] at h1)
        next e => exact ih (State.Canon.updCore (by rwa [e] at h1))

theorem State.Canon.pinPad {core slot lines} (h : s.Canon) : (s.pinPad core slot lines).1.Canon := by
  unfold State.pinPad
  split
  · exact h
  · exact h.pinLines

/-! ## Accesses of a bundle -/

theorem State.Canon.chargeAccess {write recs faults vas own} (h : s.Canon) :
    OptCanon (s.chargeAccess write recs faults vas own) := by
  unfold State.chargeAccess
  dsimp only
  split
  · exact .some h.pay
  · exact .none

theorem State.Canon.fillFor {core c size ch p} (h : s.Canon) : (s.fillFor core c size ch p).Canon := by
  cases p with
  | pad => exact h
  | global => exact h.loadFill

theorem Workgroup.store_pad_canon {g : Workgroup} {off size ws} (h : g.pad.Canon) : (g.store off size ws).pad.Canon := by
  show Mem.Canon (if size < 4 then _ else _)
  split
  · exact h.setWord
  · exact h.setWords

theorem State.Canon.storeTo {p size direct ws} (h : s.Canon) : (s.storeTo p size direct ws).Canon := by
  cases p with
  | pad => exact h.updWg fun _ hg => Workgroup.store_pad_canon hg
  | global ea pa =>
    refine .ite ?_ h.storeWords
    split
    · exact h.regBytes
    · exact h.storeWord

theorem State.Canon.flush {core pas} (h : s.Canon) : (s.flush core pas).1.Canon := by
  induction pas generalizing s with
  | nil => exact h
  | cons pa pas ih =>
    unfold State.flush
    split
    · exact ih h
    split
    · dsimp only
      exact h.updCore
    · exact ih h.backWalk.writeBack

theorem State.Canon.releaseAt {scope} (h : s.Canon) : OptCanon ((s.releaseAt scope).map (·.1)) := by
  have h1 := h.flush (core := s.curCore) (pas := s.dirtyOf s.curCore s.curCtx)
  unfold State.releaseAt
  split
  · exact .some h
  split
  · exact .none
  split
  · exact .some h
  split
  next e => exact .some (by rwa [e] at h1)
  next e =>
    rw [e] at h1
    exact .some (h1.foldl fun _ _ h => h.cleanLine)

theorem State.Canon.released {scope x} {t : State} (h : s.Canon) (e : s.releaseAt scope = some (t, x)) : t.Canon := by
  have h1 := h.releaseAt (scope := scope)
  rw [e] at h1
  exact h1.get rfl

end Sys2Proof.Machine
end

section
/-! SUPPORT. Control, lane instructions, bundles, synchronisation and exit keep memory canonical. -/

namespace Sys2Proof.Machine

variable {s : State}

/-! ## Segment ends -/

theorem State.Canon.splitBundle {wid m} (h : s.Canon) : (s.splitBundle wid m).Canon := h.updWarp

theorem State.Canon.tryEnd {k} (h : s.Canon) : (s.tryEnd k).Canon := by
  have h1 {f} : ((s.updWg k fun g => { g with ended := true }).updCore (coreOf k) f).Canon :=
    State.Canon.updCore (h.updWg fun _ hg => hg)
  exact .ite h (.ite (h1.updGrid.foldl fun _ _ h => h.freeWg) h1.updGrid)

theorem State.Canon.tryRetire {wid} (h : s.Canon) : (s.tryRetire wid).Canon := by
  unfold State.tryRetire
  split
  · exact h
  · exact .ite h.setWarp.tryEnd h

theorem State.Canon.releaseCallees {wid} (h : s.Canon) : (s.releaseCallees wid).Canon := h.updWarp

theorem State.Canon.segment {f src body} (h : s.Canon) (hb : ∀ t i, t.Canon → OkCanon (body t i)) :
    (s.segment f src body).Canon := (h.perLane hb).finish.splitBundle.releaseCallees

theorem State.Canon.segmentEnd {op src body f} (h : s.Canon) (hb : ∀ t i, t.Canon → OkCanon (body t i)) :
    OutCanon (segmentEnd op src body f s) := h.issue (.next (h.segment hb))

theorem State.Canon.spillEnd {op push k f} (h : s.Canon) (hk : ∀ t, t.Canon → (k t).Canon) :
    OutCanon (spillEnd op push k f s) := by
  refine h.issue ?_
  split
  · exact .next h
  next e => exact .next (hk _ (h.chargeAccess.get e))

theorem State.Canon.lane! {l g} (h : s.Canon) : (s.lane! l g).Canon := h.updWarp

theorem State.Canon.branchTo {op src dest f} (h : s.Canon) : OutCanon (branchTo op src dest f s) := by
  refine h.segmentEnd fun t i ht => ?_
  split
  · exact .error
  · exact .ok ht.lane!

theorem State.Canon.execBrcx {f} (h : s.Canon) : OutCanon (execBrcx f s) := by
  refine h.issue ?_
  dsimp only
  refine .next (State.Canon.releaseCallees (State.Canon.splitBundle (State.Canon.finish (State.Canon.deprecated ?_))))
  refine h.perLane fun t i ht => ?_
  split
  · exact .error
  · exact .ok ht.lane!

/-! ## The return stack and calls -/

theorem State.Canon.push {l e} (h : s.Canon) : OkCanon (s.push l e) := by
  unfold State.push
  dsimp only
  split
  · exact .error
  split
  · exact .ok h.lane!
  split
  · exact .error
  · exact .ok h.storeTo.storeTo.updCtx.lane!

theorem State.Canon.pop {l} (h : s.Canon) : OkCanon ((s.pop l).map (·.2)) := by
  unfold State.pop
  dsimp only
  split
  · exact .ok h.lane!
  split
  · exact .error
  split
  · exact .error
  split
  · exact .error
  · exact .ok h.fillFor.fillFor.updCtx.lane!

theorem State.Canon.dropSpilled {core c n a} (h : s.Canon) : (s.dropSpilled core c n a).Canon := by
  induction n generalizing s a with
  | zero => exact h
  | succ n ih =>
    unfold State.dropSpilled
    refine ih ?_
    split
    · exact h
    · exact .ite h h.updCtx

theorem callLane_canon {f} {st : State} {l pc} (h : st.Canon) : OkCanon (callLane f s st l pc) := by
  unfold callLane
  dsimp only
  split
  · exact .error
  next e => exact .ok (h.lane!.push.get e).lane!

theorem State.Canon.execCall {f} (h : s.Canon) : OutCanon (execCall f s) :=
  h.spillEnd fun _ h => h.segment fun _ _ h => callLane_canon h

theorem State.Canon.execCalli {f} (h : s.Canon) : OutCanon (execCalli f s) := by
  refine h.spillEnd fun s h => ?_
  dsimp only
  refine State.Canon.splitBundle (State.Canon.finish (State.Canon.updWarp ?_))
  refine h.perLane fun t i ht => ?_
  split
  · exact .error
  · exact callLane_canon ht

theorem State.Canon.execRet {f} (h : s.Canon) : OutCanon (execRet f s) := by
  refine h.spillEnd fun s h => h.segment fun t i ht => ?_
  have h1 := ht.pop (l := i.l)
  split
  · exact .error
  next e =>
    rw [e] at h1
    exact .ok (State.Canon.lane! (h1.get rfl))

/-! ## The rest of control -/

theorem State.Canon.guarded {op f k} (h : s.Canon) (hk : ∀ ts, OutCanon (k s ts)) : OutCanon (s.guarded op f k) :=
  h.issue (hk _)

theorem State.Canon.advanceBut {f ts} (h : s.Canon) : (s.advanceBut f ts).Canon := h.updWarp.finish

theorem State.Canon.execNop {f} (h : s.Canon) : OutCanon (execNop f s) := h.guarded fun _ => .next h.advanceBut

theorem State.Canon.prefetchCode {va} (h : s.Canon) : (s.prefetchCode va).Canon := by
  refine .ite h ?_
  split
  · exact h.pay
  · exact .ite h.pay h.pay.codeLine

theorem State.Canon.execPrefi {f} (h : s.Canon) : OutCanon (execPrefi f s) :=
  h.guarded fun _ => .next (State.Canon.advanceBut (.ite h (h.foldl fun _ _ h => h.prefetchCode)))

theorem State.Canon.execYield {f} (h : s.Canon) : OutCanon (execYield f s) :=
  h.guarded fun _ => .ite (.next h.advanceBut) (.next (.ite h.advanceBut.updWarp.park h.advanceBut.updWarp))

/-! ## Lane instructions -/

theorem State.Canon.meetLanes {wid pc} (h : s.Canon) : (s.meetLanes wid pc).Canon := by
  unfold State.meetLanes
  split
  · exact h
  dsimp only
  split
  · exact h
  · exact h.setWarp.trapLanes

theorem State.Canon.meetAgain {wid} (h : s.Canon) : (s.meetAgain wid).Canon := h.foldl fun _ _ h => h.meetLanes

theorem State.Canon.laneInstr {op more f} (h : s.Canon) : OutCanon (laneInstr op more f s) :=
  h.issue (.next h.afterInjection.updWarp.finish.meetLanes)

/-! ## One effect for a bundle -/

/-- The state that an effect leaves is canonical. -/
inductive DidCanon : Did → Prop where
  | stall : DidCanon .stall
  | hold {s : State} (h : s.Canon) : DidCanon (.hold s)
  | trap {s : State} {x} (h : s.Canon) : DidCanon (.trap s x)
  | done {s : State} (h : s.Canon) : DidCanon (.done s)
  | partly {s : State} {ts} (h : s.Canon) : DidCanon (.partly s ts)
  | wait {s : State} (h : s.Canon) : DidCanon (.wait s)

theorem DidCanon.ite {p : Prop} [Decidable p] {x y : Did} (hx : DidCanon x) (hy : DidCanon y) :
    DidCanon (if p then x else y) := by
  split <;> assumption

theorem State.Canon.once {op f more whole src body} (h : s.Canon) (hb : ∀ i is, DidCanon (body s i is)) :
    OutCanon (s.once op f more whole src body) := by
  refine h.issue ?_
  dsimp only
  split
  · exact .next h.advanceBut
  next i is e =>
    have h1 := hb i (s.gather f (src s)).1
    generalize body s i _ = x at h1 ⊢
    cases h1 with
    | stall => exact .next h
    | hold h => exact .next h
    | trap h => exact .next h.advanceBut
    | done h => exact .next h.advanceBut
    | partly h => exact .next h.advanceBut
    | wait h => exact .next h.finish

theorem State.Canon.give {f ls x} (h : s.Canon) : (s.give f ls x).Canon := h.updWarp

theorem State.Canon.releasing {scope k} (h : s.Canon) (hk : ∀ t, t.Canon → DidCanon (k t)) :
    DidCanon (s.releasing scope k) := by
  unfold State.releasing
  split
  · exact .stall
  next e => exact .trap (h.released e)
  next e => exact hk _ (h.released e)

theorem State.Canon.send {wid lane dst op} (h : s.Canon) : (s.send wid lane dst op).Canon := h.elsewhere

/-! ## Barriers -/

theorem State.Canon.wakeAcquire {core p} (h : s.Canon) : (s.wakeAcquire core p).Canon := .ite h.acquireAt h

theorem State.Canon.completeLanes {k p} (h : s.Canon) : (s.completeLanes k p).Canon := h.elsewhere

theorem State.Canon.barrierStep {k off n disc r} (h : s.Canon) : (s.barrierStep k off n disc r).Canon := by
  have h1 {ws} : (s.updWg k fun g => { g with pad := g.pad.setWords off ws }).Canon := h.updWg fun _ hg => hg.setWords
  exact .ite h1.wakeAcquire.completeLanes h1

theorem State.Canon.execBari {f} (h : s.Canon) : OutCanon (execBari f s) := by
  refine h.once fun i is => ?_
  split
  · exact .trap h
  · exact h.releasing fun _ h => .done (h.updWg fun _ hg => Workgroup.store_pad_canon hg)

theorem State.Canon.arriveBarrier {f i is k} (h : s.Canon) (hk : ∀ t off z, t.Canon → DidCanon (k t off z)) :
    DidCanon (s.arriveBarrier f i is k) := by
  unfold State.arriveBarrier
  split
  · exact .trap h
  refine .ite .stall ?_
  split
  · exact .trap h
  · exact h.releasing fun _ h => hk _ _ _ h.barrierStep

theorem State.Canon.execBara {f} (h : s.Canon) : OutCanon (execBara f s) :=
  h.once fun _ _ => h.arriveBarrier fun _ _ _ h => .done h

theorem State.Canon.stayAs {st} (h : s.Canon) : (s.stayAs st).Canon := h.updWarp

theorem State.Canon.execBars {f} (h : s.Canon) : OutCanon (execBars f s) :=
  h.once fun _ _ => h.arriveBarrier fun _ _ _ h => .ite (.done h.acquireAt) (.wait h.stayAs)

theorem State.Canon.tryBarx {k} (h : s.Canon) : (s.tryBarx k).Canon := .ite h h.deprecated.completeLanes

theorem State.Canon.execBarx {f} (h : s.Canon) : OutCanon (execBarx f s) :=
  h.issue (.ite (.next h) (.next h.stayAs.finish.tryBarx))

theorem State.Canon.cleanAll {core c} (h : s.Canon) : (s.cleanAll core c).Canon := h.foldl fun _ _ h => h.cleanLine

theorem State.Canon.tryMwait {core} (h : s.Canon) : (s.tryMwait core).Canon :=
  State.Canon.elsewhere (State.Canon.wakeAcquire (h.foldl fun _ _ h => h.cleanAll))

/-! ## Events and waiting -/

theorem State.Canon.postEvents {k bits} (h : s.Canon) : (s.postEvents k bits).Canon := h.updWg fun _ hg => hg

theorem State.Canon.postTo {l rank bits} (h : s.Canon) : OkCanon (s.postTo l rank bits) := by
  unfold State.postTo
  split
  · exact .error
  split
  · exact .ok h.postEvents
  · exact .ok h.send

theorem State.Canon.execPost {f} (h : s.Canon) : OutCanon (execPost f s) := by
  refine h.once fun i is => h.releasing fun s h => ?_
  dsimp only
  refine .partly (h.foldl_fst fun x i hx => ?_)
  split
  · exact hx
  next e => exact hx.postTo.get e

theorem State.Canon.takeEvents {wid cs now} (h : s.Canon) : (s.takeEvents wid cs now).Canon :=
  .ite h (h.updWg fun _ hg => hg)

theorem State.Canon.execWaitC {f} (h : s.Canon) : OutCanon (execWaitC f s) := by
  refine h.once fun i is => ?_
  dsimp only
  split
  · exact .trap h
  split
  · exact .stall
  next e =>
    have h1 := h.chargeAccess.get e
    split
    · exact .trap h1
    split
    · exact .done h1.takeEvents.give.acquireAt
    · exact .wait h1.stayAs

theorem State.Canon.reevaluate {wid bid} (h : s.Canon) : (s.reevaluate wid bid).Canon := by
  unfold State.reevaluate
  dsimp only
  split
  · exact h
  split
  · exact h.pay.takeEvents.updWarp.acquireAt
  · exact h.pay.updWarp

theorem State.Canon.execWaitTimeout {wid bid} (h : s.Canon) : OutCanon (execWaitTimeout wid bid s) := by
  unfold Machine.execWaitTimeout
  split
  · exact .ite (.next h.reevaluate) (.next h)
  · exact .next h

/-! ## Exit -/

theorem State.Canon.dropStuck {core} (h : s.Canon) : (s.dropStuck core).Canon := .ite h h.updCore.tryMwait

theorem State.Canon.afterExit {wid} (h : s.Canon) : (s.afterExit wid).Canon :=
  .ite h h.meetAgain.releaseCallees.tryBarx.dropStuck.tryRetire

theorem State.Canon.execExitT {f} (h : s.Canon) : OutCanon (execExitT f s) := by
  refine h.issue ?_
  dsimp only
  exact .next (State.Canon.afterExit (State.Canon.splitBundle (State.Canon.finish
    (h.perLane fun _ _ h => .ok h.dropSpilled.lane!))))

end Sys2Proof.Machine
end

section
/-! SUPPORT. System instructions, fetch, loads and stores, atomics, fences and the acceptance of copies keep memory canonical. -/

namespace Sys2Proof.Machine

variable {s : State}

/-! ## System instructions -/

theorem State.Canon.execTrap {f} (h : s.Canon) : OutCanon (execTrap f s) := h.issue (.next h.updWarp.trapLanes.finishAt)

theorem State.Canon.execTret {f} (h : s.Canon) : OutCanon (execTret f s) := by
  have h1 {g k c n} : (((((s.updWarp s.cur.wid g).updWarp s.cur.wid k).updCore s.curCore c).deprecated s.curCtx n).finish f
      []).Canon := h.updWarp.updWarp.updCore.deprecated.finish
  refine h.issue ?_
  exact .next (.ite h1.splitBundle.releaseCallees.afterExit h1.splitBundle.releaseCallees)

theorem State.Canon.sysWrite {l n v} (h : s.Canon) : OkCanon (s.sysWrite l n v) := by
  unfold State.sysWrite
  dsimp only
  split
  · exact .ok h.updCtx
  split
  case h_1 =>
    split
    · exact .error
    · exact .ok h.lane!
  case h_4 => exact .ok (h.updWg fun _ hg => hg)
  case h_12 => exact .ok h
  case h_2 | h_3 => exact .ok h.updWarp
  case h_5 | h_11 => exact .ok h.lane!
  case h_8 => exact .ok h.updCore
  all_goals exact .ok h.updCtx

theorem State.Canon.execSysw {f} (h : s.Canon) : OutCanon (execSysw f s) := by
  refine h.issue ?_
  dsimp only
  split
  · exact .next h.advanceBut
  · refine .next (State.Canon.advanceBut ?_)
    refine State.Canon.foldl_fst h.elsewhere fun x l hx => ?_
    split
    · exact hx
    split
    · exact hx
    next e => exact hx.sysWrite.get e

theorem State.Canon.execTinv {f} (h : s.Canon) : OutCanon (execTinv f s) :=
  h.once fun _ _ => .ite (.trap h) (h.releasing fun _ h => .done h.dropTlbs)

theorem State.Canon.execCgenReg {f} (h : s.Canon) : OutCanon (execCgenReg f s) := by
  refine h.once fun i is => .ite (.trap h) ?_
  split
  · exact .done h.give
  · exact .done h.updCtx.give

theorem State.Canon.execCgenLive {f} (h : s.Canon) : OutCanon (execCgenLive f s) := h.once fun _ _ => .done h.give

theorem State.Canon.execCgenDrop {f} (h : s.Canon) : OutCanon (execCgenDrop f s) := by
  refine h.once fun i is => ?_
  dsimp only
  split
  · exact .done h.give
  · exact .done (State.Canon.give (.ite h.updCtx h))

/-! ## Fetch -/

theorem State.Canon.releaseHeld {wid} (h : s.Canon) : (s.releaseHeld wid).Canon := h.updWarp

theorem State.Canon.atBundle {wid bid} (h : s.Canon) : (s.atBundle wid bid).Canon := h.elsewhere

theorem State.Canon.unpark {wid} (h : s.Canon) : (s.unpark wid).Canon := h.updWarp

theorem State.Canon.execRegroupPoint {wid} (h : s.Canon) : OutCanon (execRegroupPoint wid s) :=
  .next h.unpark.releaseHeld.updWarp

theorem State.Canon.execYieldExpiry {wid} (h : s.Canon) : OutCanon (execYieldExpiry wid s) := .next h.updWarp

theorem State.Canon.fetchCode {wid emu va} (h : s.Canon) : (s.fetchCode wid emu va).1.Canon := by
  unfold State.fetchCode
  dsimp only
  split
  · exact h
  split
  · exact h
  split
  · exact h.pay
  split
  · exact h.pay.codeLine
  split
  · exact h.pay.codeLine
  split
  · exact h.pay.codeLine.updCore.codeLine.corrected
  · exact h.pay.codeLine.updCore.codeLine

theorem State.Canon.fetchFrom {wid emu pc n k ws} (h : s.Canon) : (s.fetchFrom wid emu pc n k ws).1.Canon := by
  induction n generalizing s k ws with
  | zero => exact h
  | succ n ih =>
    have h1 := h.fetchCode (wid := wid) (emu := emu) (va := pc + BitVec.ofNat 55 (4 * k))
    unfold State.fetchFrom
    split
    next e => exact ih (by rwa [e] at h1)
    next e => rwa [e] at h1

theorem State.Canon.fetch (h : s.Canon) : s.fetch.1.Canon := by
  unfold State.fetch
  dsimp only
  split
  · exact h
  split
  · exact h
  split
  next e =>
    refine State.Canon.fetchFrom ?_
    have h1 := h.fetchFrom (wid := s.cur.wid) (emu := s.leader.frames.head?.any fun f => f.emu.isSome) (pc := s.cur.pc) (n := 1)
      (k := 0) (ws := [])
    rwa [e] at h1
  next => exact h.fetchFrom

theorem State.Canon.fetchFails {x} (h : s.Canon) : (s.fetchFails x).Canon := h.updCore.trapLanes

theorem State.Canon.execInstructionFetch {wid bid} (h : s.Canon) : OutCanon (execInstructionFetch wid bid s) := by
  have h1 := (h.atBundle (wid := wid) (bid := bid)).fetch
  refine .ite (.next h) ?_
  split
  next e => exact .next (State.Canon.fetchFails (by rwa [e] at h1))
  next e => exact .next (by rwa [e] at h1)

theorem State.Canon.execPageWalk {core c va code} (h : s.Canon) : OutCanon (execPageWalk core c va code s) := by
  refine .next ?_
  split
  · exact h
  · exact .ite h.pay h

theorem State.Canon.execClauseHeader {x} (h : s.Canon) : OutCanon (execClauseHeader x s) :=
  .next h.updCore.updWarp.trapLanes

theorem State.Canon.execSfuWriteBack {core} (h : s.Canon) : OutCanon (execSfuWriteBack core s) := by
  unfold Machine.execSfuWriteBack
  split
  · exact .next h
  · exact .next h.drainSfu

theorem State.Canon.failSfu {core} (h : s.Canon) : (s.failSfu core).Canon := by
  unfold State.failSfu
  split
  · exact h
  · exact h.updCore.updWarp

theorem State.Canon.execAsyncEntry {wid} (h : s.Canon) : OutCanon (execAsyncEntry wid s) := by
  unfold Machine.execAsyncEntry
  dsimp only
  split
  · exact .next h
  · exact .ite (.next h) (.next h.updWarp.enterAsync)

theorem State.Canon.execEmulationTimeout {wid gid} (h : s.Canon) : OutCanon (execEmulationTimeout wid gid s) :=
  .ite (.next h.kill) (.next h)

/-! ## Dependences -/

theorem State.Canon.drainUpTo {p} (h : s.Canon) : (s.drainUpTo p).Canon := by
  unfold State.drainUpTo
  split
  · exact h
  · exact h.drainSfu

theorem State.Canon.depend {op f} (h : s.Canon) : OptCanon (s.depend op f) := by
  unfold State.depend
  split
  · exact .none
  · exact .some h.drainUpTo

theorem State.Canon.dependOn {i} (h : s.Canon) : OptCanon (s.dependOn i) := by
  unfold State.dependOn
  split
  · exact h.depend
  · exact h.depend
  · exact .some h
  · exact .some h

theorem State.Canon.clauseWait {m} (h : s.Canon) : OptCanon (s.clauseWait m) := by
  unfold State.clauseWait
  dsimp only
  split
  · exact .none
  split
  · exact .none
  split
  · exact .some h.drainUpTo
  · exact .some h

/-! ## Loads and stores -/

theorem State.Canon.fillInjection {pas} (h : s.Canon) : (s.fillInjection pas).Canon := by
  unfold State.fillInjection
  split
  · exact .ite h.updCore.updCore h.updCore.corrected
  · exact h

theorem State.Canon.load {op count f} (h : s.Canon) : OutCanon (load op count f s) := by
  refine h.issue ?_
  dsimp only
  split
  · exact .next h
  next s0 e =>
    have h0 := h.chargeAccess.get e
    refine .ite (.next h) (.ite (.next ?_) (.next ?_))
    · have h1 := State.Canon.foldl (xs := (splitLanes ((s.gather f (onceSources op f s)).1.map fun i => (i.l,
        s.placeOf op f false i))).2) h0 fun s x h => h.fillFor (core := s.curCore) (c := s.curCtx) (size := szBytes f.sz)
        (ch := f.cCh) (p := x.2)
      exact (State.Canon.ite h1.afterInjection.fillInjection.acquireAt.deprecated
        h1.afterInjection.fillInjection.acquireAt).commit
    · exact (State.Canon.ite h0.afterInjection.updWarp.deprecated h0.afterInjection.updWarp).advanceBut

theorem State.Canon.returnLoad {wid n} (h : s.Canon) : (s.returnLoad wid n).Canon := by
  unfold State.returnLoad
  split
  · exact h
  · exact .ite h h.updWarp.acquireAt.trapLanes

theorem State.Canon.flipStored {p j} (h : s.Canon) : (s.flipStored p j).Canon := by
  cases p with
  | pad => exact h.updWg fun _ hg => hg.setWord
  | global =>
    unfold State.flipStored
    exact h.updCore

/-- The flip of a stored word, where an injection asks for one. -/
theorem State.Canon.flipped {o : Option (Nat × Place × Inj)} (h : s.Canon) :
    State.Canon (match o with
      | some (_, p, j) => s.flipStored p j
      | none => s) := by
  split
  · exact h.flipStored
  · exact h

theorem State.Canon.storeAll {α : Type} {f bad oks} {own : α → Option Place} {put} (h : s.Canon)
    (hp : ∀ t l x, t.Canon → (put t l x).Canon) : (s.storeAll f bad oks own put).Canon := by
  unfold State.storeAll
  dsimp only
  refine State.Canon.advanceBut ?_
  have h1 {t : State} {xs : List (Nat × α)} (h : t.Canon) : (xs.foldl (fun s x => put s x.1 x.2) t).Canon :=
    h.foldl fun _ _ h => hp _ _ _ h
  split
  · exact h1 (.ite h.updCore h)
  · exact State.Canon.flipStored (h1 (.ite h.updCore h))

theorem State.Canon.store {α : Type} {op scope src} {place : State → Ins → Except Trap α} {vas own put f} (h : s.Canon)
    (hp : ∀ t l ws x, t.Canon → (put t l ws x).Canon) : OutCanon (store op scope src place vas own put f s) := by
  refine h.issue ?_
  refine .ite (.next h) ?_
  split
  · exact .next h
  next e => exact .next (h.released e).advanceBut
  next e =>
    split
    · exact .next h
    next e2 => exact .next (((h.released e).chargeAccess.get e2).storeAll fun _ _ _ h => hp _ _ _ _ h)

theorem State.Canon.plainStore {op f} (h : s.Canon) : OutCanon (plainStore op f s) := h.store fun _ _ _ _ h => h.storeTo

theorem State.Canon.storeRemote {m l off size ws} (h : s.Canon) : (s.storeRemote m l off size ws).Canon :=
  .ite h.storeTo h.send

theorem State.Canon.execStr {f} (h : s.Canon) : OutCanon (execStr f s) := h.store fun _ _ _ _ h => h.storeRemote

theorem State.Canon.execStm {f} (h : s.Canon) : OutCanon (execStm f s) := by
  unfold Machine.execStm
  exact h.store fun _ _ _ _ h => h.foldl fun _ _ h => h.storeRemote

theorem State.Canon.prefetchData {f is} (h : s.Canon) : (s.prefetchData f is).Canon := by
  unfold State.prefetchData
  dsimp only
  split
  · exact h
  next e => exact (h.chargeAccess.get e).foldl fun _ _ h => .ite h.fillFor h.l2Access

theorem State.Canon.execPref {f} (h : s.Canon) : OutCanon (execPref f s) := h.once fun _ _ => .done h.prefetchData

/-! ## Atomics -/

theorem State.Canon.homeOwn {core pa} (h : s.Canon) : (s.homeOwn core pa).Canon := h.writeBacks.updCore.l2Access

theorem State.Canon.atomRead {p size} (h : s.Canon) : (s.atomRead p size).1.Canon := by
  cases p with
  | pad => exact h
  | global => exact h.homeOwn

theorem State.Canon.atomWrite {p ws} (h : s.Canon) : (s.atomWrite p ws).Canon := by
  cases p with
  | pad => exact h.updWg fun _ hg => Workgroup.store_pad_canon hg
  | global => exact h.physWrites

theorem State.Canon.atomStep {p size g} (h : s.Canon) : OkCanon ((s.atomStep p size g).map (·.1)) := by
  unfold State.atomStep
  dsimp only
  split
  · exact .error
  · exact .ok (.ite h.atomRead h.atomRead.atomWrite)

theorem State.Canon.atomLanes {size g pre oks} (h : s.Canon) : (s.atomLanes size g pre oks).1.Canon := by
  refine h.foldl_fst fun x a hx => ?_
  have h1 := hx.atomStep (p := a.2) (size := size) (g := g a.1)
  split
  · exact hx
  · exact hx
  next e _ =>
    rw [e] at h1
    exact h1.get rfl

theorem State.Canon.atomic {op pad size g f} (h : s.Canon) : OutCanon (atomic op pad size g f s) := by
  refine h.issue ?_
  dsimp only
  refine .ite (.next h) ?_
  split
  · exact .next h
  next e => exact .next (h.released e).advanceBut
  next e =>
    split
    · exact .next h
    next e2 =>
      have h2 := (h.released e).chargeAccess.get e2
      refine .next (State.Canon.commit (State.Canon.acquireAt ?_))
      exact .ite (State.Canon.updCore (State.Canon.flipped h2.atomLanes)) (State.Canon.flipped h2.atomLanes)

theorem State.Canon.padAdd {core ctx wid k off code b e} (h : s.Canon) : (s.padAdd core ctx wid k off code b e).Canon := by
  have h1 {n ws} : (s.updWg k fun g => g.store off n ws).Canon := h.updWg fun _ hg => Workgroup.store_pad_canon hg
  exact .ite h1.ucerr h1

theorem State.Canon.memAdd {who pa code b e} (h : s.Canon) : (s.memAdd who pa code b e).Canon :=
  .ite h.l2Access.physWrites.ucerr h.l2Access.physWrites

theorem State.Canon.remoteAdd {α : Type} {op} {place : State → Ins → Except Trap α} {vas put f} (h : s.Canon)
    (hp : ∀ t e l ws x, t.Canon → (put t e l ws x).Canon) : OutCanon (remoteAdd op place vas put f s) := by
  refine h.issue ?_
  dsimp only
  split
  · exact .next h
  next e => exact .next (h.released e).advanceBut
  next e =>
    split
    · exact .next h
    next e2 =>
      have h2 := (h.released e).chargeAccess.get e2
      exact .next (State.Canon.advanceBut (h2.elsewhere.foldl fun _ _ h => hp _ _ _ _ _ h))

theorem State.Canon.execRadd {f} (h : s.Canon) : OutCanon (execRadd f s) :=
  h.remoteAdd fun _ _ _ _ _ h => .ite h.padAdd h.send

theorem State.Canon.execRaddg {f} (h : s.Canon) : OutCanon (execRaddg f s) := by
  refine h.remoteAdd fun t e l ws x h => ?_
  split
  · exact h.homeOwn.send
  · exact h

/-! ## Fences and descriptors -/

theorem State.Canon.execFence {f} (h : s.Canon) : OutCanon (execFence f s) :=
  h.once fun _ _ => .ite (.done h.acquireAt) (h.releasing fun _ h => .ite (.done h) (.done h.acquireAt))

theorem State.Canon.dropLine {c pa core} (h : s.Canon) : (s.dropLine c pa core).Canon := by
  unfold State.dropLine
  exact h.writeBacks.updCore

theorem State.Canon.dropSlice {c p pa} (h : s.Canon) : (s.dropSlice c p pa).Canon :=
  (State.Canon.ite h.cleanL2.dropL2.viewBack h.cleanL2.dropL2).elsewhere

theorem State.Canon.cmoLine {op lvl pa} (h : s.Canon) : (s.cmoLine op lvl pa).1.Canon := by
  have h1 : (if op = 1 then (s, none) else s.flush s.curCore (s.dirtyInLine s.curCore pa)).1.Canon := by
    split
    · exact h
    · exact h.flush
  unfold State.cmoLine
  dsimp only
  split
  next e => rwa [e] at h1
  next s1 e =>
    rw [e] at h1
    dsimp only at h1 ⊢
    have h2 {t : State} {xs : List Nat} (h : t.Canon) : (xs.foldl (fun s c => s.dropLine s.curCtx pa c) t).Canon :=
      h.foldl fun _ _ h => h.dropLine
    have h3 := State.Canon.viewBack (key := viewKey (s.ctx s.curCtx).pitch pa) (h1.cleanL2 (p := fun e => e.line == pa / 128))
    split
    · exact .ite h3 h1
    · exact .ite (h2 (.ite h3 h1)) (State.Canon.dropSlice (h2 (.ite h3 h1)))

theorem State.Canon.cmoLines {op lvl n va} (h : s.Canon) : (s.cmoLines op lvl n va).1.Canon := by
  induction n generalizing s va with
  | zero => exact h
  | succ n ih =>
    unfold State.cmoLines
    split
    · exact h
    next pa _ =>
      have h1 := h.cmoLine (op := op) (lvl := lvl) (pa := pa)
      split
      next e => rwa [e] at h1
      next e => exact ih (by rwa [e] at h1)

theorem State.Canon.clearFull {k lo hi} (h : s.Canon) : (s.updWg k fun g => g.clearFull lo hi).Canon := h.updWg fun _ hg => hg

theorem State.Canon.execCmo {f} (h : s.Canon) : OutCanon (execCmo f s) := by
  refine h.once fun i is => .ite .stall (.ite (.ite (.done h) (.ite (.trap h) (.done h.clearFull)))
    (.ite (.done h) (.ite (.trap h) ?_)))
  split
  · exact .stall
  next e =>
    have h1 := (h.chargeAccess.get e).cmoLines (op := f.cN % 4) (lvl := f.cN / 4 % 4)
      (n := lineCount (pairOf i.a).toNat (w0 i.b).toNat) (va := (pairOf i.a).toNat / 128 * 128)
    split
    next e => exact .trap (by rwa [e] at h1)
    next e => exact .done (by rwa [e] at h1)

theorem State.Canon.execHbind {f} (h : s.Canon) : OutCanon (execHbind f s) := by
  refine h.once fun i is => ?_
  dsimp only
  split
  · exact .stall
  next e =>
    have h1 := h.chargeAccess.get e
    split
    · exact .trap h1
    split
    · exact .trap h1
    split
    · exact .trap h1
    · exact .done (h1.updWg fun _ hg => hg)

/-! ## Copies accepted -/

theorem State.Canon.accept {ch r ls} (h : s.Canon) : OptCanon (s.accept ch r ls) := by
  unfold State.accept
  split
  · exact .none
  split
  · exact .none
  · exact .some h.setCore

theorem State.Canon.acceptRec {r} (h : s.Canon) : OptCanon (s.acceptRec r) := by
  have key {o : Option State} {g : State → State} (ho : OptCanon o) (hg : ∀ t : State, t.Canon → (g t).Canon) :
      OptCanon (o.map g) := by
    cases ho with
    | none => exact .none
    | some h => exact .some (hg _ h)
  exact key h.accept fun _ h => .ite h.clearFull h

theorem State.Canon.acceptRecs {rs} (h : s.Canon) : (s.acceptRecs rs).2.Canon := by
  induction rs generalizing s with
  | nil => exact h
  | cons r rs ih =>
    unfold State.acceptRecs
    split
    · exact h
    next e => exact ih (h.acceptRec.get e)

theorem State.Canon.execKick {f} (h : s.Canon) : OutCanon (execKick f s) := by
  refine h.once fun i is => .ite (.trap h) (.ite (.trap h) (.ite (.trap h) (.ite .stall ?_)))
  dsimp only
  split
  · exact .trap h
  split
  · exact .trap h
  · exact .done h.acceptRecs.give

theorem State.Canon.execCancel {f} (h : s.Canon) : OutCanon (execCancel f s) :=
  h.once fun _ _ => .ite (.hold h.updCore) (.done h.updCore.give)

theorem State.Canon.execGath {f} (h : s.Canon) : OutCanon (execGath f s) := by
  refine h.once fun i is => ?_
  dsimp only
  split
  · exact .trap h
  · exact .trap h
  refine .ite (.trap h) ?_
  split
  · exact .stall
  next e =>
    have h1 := h.chargeAccess.get e
    refine .ite (.partly h1) ?_
    split
    · exact .stall
    next e => exact .partly (h1.accept.get e).clearFull

theorem State.Canon.execAcc {f} (h : s.Canon) : OutCanon (execAcc f s) := by
  refine h.once fun i is => ?_
  dsimp only
  split
  · exact .trap h
  · exact .trap h
  · exact .trap h
  refine .ite (.trap h) (.ite (.trap h) (.ite (.trap h) (.ite (.trap h) ?_)))
  split
  · exact .stall
  next e => exact .done (h.accept.get e)

theorem State.Canon.execRlck {f} (h : s.Canon) : OutCanon (execRlck f s) := by
  refine h.once fun i is => .ite (.trap h) (.ite (.trap h) (.ite (.trap h) ?_))
  split
  · exact .done h.updCore.give
  · exact .done h.give

theorem State.Canon.execRlrel {f} (h : s.Canon) : OutCanon (execRlrel f s) := by
  refine h.once fun i is => ?_
  dsimp only
  split
  · exact .ite (.done h.updCore) (.trap h)
  · exact .trap h

end Sys2Proof.Machine
end

section
/-! SUPPORT. The ladle keeps memory canonical. -/

namespace Sys2Proof.Machine

variable {s : State}

/-! ## Words of the ladle -/

theorem State.Canon.hit {c n} (h : s.Canon) : (s.hit c n).Canon := h.updCtx

theorem State.Canon.enginePut {core ctx wid priv p w} (h : s.Canon) : (s.enginePut core ctx wid priv p w).Canon := by
  cases p with
  | pad => exact h.updWg fun _ hg => hg.setWord
  | global => exact h.writeBacks.updCore.physWrite

theorem State.Canon.carry {core ctx wid x} (h : s.Canon) : (s.carry core ctx wid x).1.Canon := by
  unfold State.carry
  split
  · exact h.ucerr
  · exact h

theorem State.Canon.carryAll {core ctx wid xs} (h : s.Canon) : (s.carryAll core ctx wid xs).1.Canon :=
  h.foldl_fst fun _ _ h => h.carry

theorem State.Canon.strikePad {k ctx wid a n} (h : s.Canon) : (s.strikePad k ctx wid a n).Canon := by
  unfold State.strikePad
  split
  · exact h
  split
  · exact h
  · extract_lets s1 off w put
    have h1 x : (put x).Canon := State.Canon.updWg h.updCore fun _ hg => hg.setWord
    exact .ite (h1 _) (h1 _).ucerr

/-! ## Ends of requests -/

theorem State.Canon.endRequest {core ch r} (h : s.Canon) : (s.endRequest core ch r).Canon := by
  unfold State.endRequest
  exact h.updCore.tryEnd

theorem State.Canon.stopRequest {core ch r e} (h : s.Canon) : (s.stopRequest core ch r e).Canon := by
  unfold State.stopRequest
  dsimp only
  refine State.Canon.endRequest ?_
  split
  · split
    · exact h.updCore.updWarp
    · exact h.updCore
  · exact h.updCore.ucerr

theorem State.Canon.countBytes {core r bytes disc} (h : s.Canon) : (s.countBytes core r bytes disc).Canon := by
  unfold State.countBytes
  split
  · exact h
  · exact .ite (State.Canon.ucerr (h.updWg fun _ hg => hg.setWords)) h.barrierStep

theorem State.Canon.lineStep {core ch r n mult disc rd wr} (h : s.Canon) :
    (s.lineStep core ch r n mult disc rd wr).Canon := by
  unfold State.lineStep
  extract_lets chunk part s1 put s2 s3
  have h1 : s1.Canon := h.updCore
  have hp t d p b (h : t.Canon) : (put t d p b).Canon := h.updCore
  have h2 : s2.Canon := h1.countBytes
  have h3 : s3.Canon := by
    unfold s3
    split
    · exact h2.postEvents
    · exact h2
  exact .ite (hp _ _ _ _ h1) (.ite (hp _ _ _ _ h2) h3.endRequest)

/-! ## Copies -/

theorem Workgroup.fillLines_pad {g : Workgroup} {dst len done} : (g.fillLines dst len done).pad = g.pad := by
  have key (xs : List Nat) (p : Nat → Bool) (l : Nat → Nat) :
      ∀ g : Workgroup, (xs.foldl (fun g k => if p k then g.fill (l k) else g) g).pad = g.pad := by
    induction xs with
    | nil => exact fun _ => rfl
    | cons x xs ih =>
      intro g
      rw [List.foldl_cons, ih]
      split <;> rfl
  simpa [Workgroup.fillLines] using key (List.range (lineCount dst done))
    (fun k => decide (min ((dst / 128 + k + 1) * 128) (dst + len) ≤ dst + done)) (fun k => (dst / 128 + k) * 128) g

theorem Workgroup.fillLines_pad_canon {g : Workgroup} {dst len done} (h : g.pad.Canon) :
    (g.fillLines dst len done).pad.Canon := by
  rwa [Workgroup.fillLines_pad]

theorem State.Canon.deliverPad {m remote dst len done ws} (h : s.Canon) :
    (s.deliverPad m remote dst len done ws).1.Canon := by
  unfold State.deliverPad
  split
  · exact h
  · exact State.Canon.strikePad (h.updWg fun _ hg => Workgroup.fillLines_pad_canon hg.setWords)

theorem State.Canon.copyLine {core ch r src dst ssp dsp srank dmask} (h : s.Canon) :
    OptCanon (s.copyLine core ch r src dst ssp dsp srank dmask) := by
  unfold State.copyLine
  extract_lets left off n all ranks mult u v bill b s0
  split
  · exact .some h.stopRequest
  split
  · exact .some h.stopRequest
  extract_lets rs k
  split
  · exact .none
  dsimp only
  have h1 {xs} : (s0.carryAll core r.ctx r.wid xs).1.Canon := h.pay.carryAll
  refine .some (State.Canon.lineStep ?_)
  split
  · exact h1.foldl fun _ _ h => h.enginePut
  · exact State.Canon.foldl_fst h1 fun _ _ h => h.deliverPad

theorem State.Canon.gathLine {core ch r size dst src} (h : s.Canon) : OptCanon (s.gathLine core ch r size dst src) := by
  unfold State.gathLine
  extract_lets rest now p b s1 s2
  split
  · exact .some h.stopRequest
  split
  · exact .none
  have h1 : s1.Canon := h.pay.foldl fun _ _ h => State.Canon.strikePad (h.carryAll.updWg fun _ hg => hg.setWords)
  exact .some (State.Canon.lineStep (.ite h1 (h1.updWg fun _ hg => Workgroup.fillLines_pad_canon hg)))

theorem State.Canon.accBound {wid lanes pc} (h : s.Canon) : (s.accBound wid lanes pc).Canon := h.updWarp

theorem State.Canon.accStep {core ch r src dst sk dk b x} (h : s.Canon) :
    OkCanon (s.accStep core ch r src dst sk dk b x) := by
  unfold State.accStep
  dsimp only
  split
  · exact .error
  · exact .error
  split
  · exact .error
  split
  · exact .ok h.carry.carry.enginePut
  split
  · exact .error
  · exact .ok (.ite h.carry.carry.enginePut.hit h.carry.carry.enginePut)

theorem State.Canon.accSteps {core ch r src dst sk dk b k xs} (h : s.Canon) :
    (s.accSteps core ch r src dst sk dk b k xs).1.Canon := by
  induction xs generalizing s k with
  | nil => exact h
  | cons x xs ih =>
    unfold State.accSteps
    split
    next e => exact ih (h.accStep.get e)
    · exact h

theorem State.Canon.accLine {core ch r src dst sk dk b lanes pc} (h : s.Canon) :
    OptCanon (s.accLine core ch r src dst sk dk b lanes pc) := by
  unfold State.accLine
  extract_lets left db sb rest chunk now u v bill pay
  split
  · exact .none
  have h1 := (h.pay (core := core) (c := r.ctx) (g := s.requestGrid r) (b := pay)).accSteps (core := core) (ch := ch) (r := r)
    (src := src) (dst := dst) (sk := sk) (dk := dk) (b := b) (k := 0) (xs := now)
  split
  next e =>
    rw [e] at h1
    exact .some h1.stopRequest
  next e =>
    rw [e] at h1
    exact .some (State.Canon.endRequest (State.Canon.updCore h1.hit.accBound))
  · exact .none
  next e =>
    rw [e] at h1
    exact .some h1.lineStep

/-! ## Service -/

theorem State.Canon.headLine {core ch} (h : s.Canon) : OptCanon (s.headLine core ch) := by
  unfold State.headLine
  split
  · exact .none
  split
  · split
    · exact .some h.endRequest
    · exact .none
  split
  · exact .none
  split
  · exact h.copyLine
  · exact h.gathLine
  · exact h.accLine

theorem State.Canon.execCopyChunk {core ch} (h : s.Canon) : OutCanon (execCopyChunk core ch s) := by
  refine .next ?_
  split
  · exact h
  next e => exact .ite (h.headLine.get e).updCore h

end Sys2Proof.Machine
end

section
/-! SUPPORT. The matrix engine keeps memory canonical. -/

namespace Sys2Proof.Machine

variable {s : State}

/-! ## The engine's side of the state -/

theorem State.Canon.putBench {core e b} (h : s.Canon) : (s.putBench core e b).Canon := by
  unfold State.putBench
  extract_lets s1
  have h1 : s1.Canon := State.Canon.updWg h.charge.updCore fun _ hg => hg
  exact .ite h1.corrected h1

theorem State.Canon.tried {core e x} (h : s.Canon) : (s.tried core e x).1.Canon := by
  unfold State.tried
  split
  · exact h.putBench
  · exact h.putBench

theorem State.Canon.updEngine {core f} (h : s.Canon) : (s.updEngine core f).Canon := h.updCore

theorem State.Canon.performMlds {core e} (h : s.Canon) : (s.performMlds core e).1.Canon := by
  unfold State.performMlds
  extract_lets n0 k0 slay put
  have hp p : (put s p).Canon := h.updEngine
  split
  · dsimp only
    exact h.updEngine
  split
  · exact hp _
  split
  · exact h
  split
  · exact State.Canon.corrected ((hp _).updWg fun _ hg => hg)
  · exact h

theorem State.Canon.performStream {core e} (h : s.Canon) : (s.performStream core e).1.Canon := by
  unfold State.performStream
  dsimp only
  split
  · exact h
  split
  · exact h
  · exact h.tried

theorem State.Canon.performCmerge {core e} (h : s.Canon) : (s.performCmerge core e).1.Canon := by
  unfold State.performCmerge
  split
  · exact h
  · exact h.tried

/-! ## Tiles -/

theorem Workgroup.fills_pad {off : Nat} {ks : List Nat} {g : Workgroup} :
    (ks.foldl (fun g i => g.fill (off + 128 * i)) g).pad = g.pad := by
  induction ks generalizing g with
  | nil => rfl
  | cons k ks ih =>
    rw [List.foldl_cons, ih]
    rfl

theorem State.Canon.storePad {e off ws} (h : s.Canon) : (s.storePad e off ws).Canon := by
  unfold State.storePad
  refine State.Canon.strikePad (h.updWg fun g hg => ?_)
  rw [Workgroup.fills_pad]
  exact hg.setWords

theorem State.Canon.entryPut {core e p w} (h : s.Canon) : (s.entryPut core e p w).Canon := by
  cases p with
  | pad => exact h.updWg fun _ hg => hg.setWord
  | global => exact h.storeWord

theorem State.Canon.putSpread {e pad m} (h : s.Canon) : OkCanon (s.putSpread e pad m) := by
  unfold State.putSpread
  split
  · exact .ok (h.foldl fun _ _ h => h.storePad)
  split
  · exact .error
  · exact .ok (h.foldl fun _ _ h => h.entryPut)

theorem State.Canon.performMst {core e zero} (h : s.Canon) : (s.performMst core e zero).1.Canon := by
  unfold State.performMst
  extract_lets g t row0 col0 bias o
  split
  · exact h
  split
  · exact h
  split
  · exact h
  next e1 =>
    extract_lets s2 s3
    have h2 : s2.Canon := (h.putSpread.get e1).updWg fun _ hg => hg
    have h3 : s3.Canon := .ite h2.hit h2
    split
    · dsimp only
      exact h3
    · dsimp only
      exact .ite h3.updEngine h3

theorem State.Canon.performMlda {core e} (h : s.Canon) : (s.performMlda core e).1.Canon := by
  unfold State.performMlda
  split
  · exact h
  · dsimp only
    exact State.Canon.updWg h.updEngine fun _ hg => hg

/-! ## Words by index, `MSAVE` and `MREST` -/

theorem State.Canon.putLaneWords {core e xs} (h : s.Canon) : (s.putLaneWords core e xs).1.Canon := by
  unfold State.putLaneWords
  dsimp only
  split
  · split
    · exact State.Canon.updWarp (.ite h.updCore h)
    · exact State.Canon.updWarp (State.Canon.updWarp (.ite h.updCore h))
  · exact State.Canon.updWarp (.ite h.updCore h)

theorem State.Canon.performRead {core e word} (h : s.Canon) : (s.performRead core e word).1.Canon := by
  unfold State.performRead
  dsimp only
  split
  · exact h
  · exact h.putLaneWords

theorem State.Canon.performMwr {core e} (h : s.Canon) : (s.performMwr core e).1.Canon := by
  refine h.updEngine.updWg fun g hg => ?_
  split
  · exact hg
  · exact hg

theorem State.Canon.performMchk {core e} (h : s.Canon) : (s.performMchk core e).1.Canon := by
  unfold State.performMchk
  split
  · exact h
  · exact h.updWarp

theorem State.Canon.performMsave {core e} (h : s.Canon) : (s.performMsave core e).1.Canon := by
  unfold State.performMsave
  extract_lets a ctl
  split
  · exact h
  · exact h.elsewhere.foldl fun _ _ h => h.entryPut

theorem State.Canon.performMrest {core e} (h : s.Canon) : (s.performMrest core e).1.Canon := by
  unfold State.performMrest
  split
  · exact h
  split
  · exact h
  · dsimp only
    exact h.updEngine

/-! ## One entry -/

theorem State.Canon.performOp {core e} (h : s.Canon) : (s.performOp core e).1.Canon := by
  unfold State.performOp
  dsimp only
  split
  case h_2 => exact h.performMlds
  case h_4 | h_5 => exact h.performStream
  case h_6 => exact h.tried
  case h_7 => exact h.performCmerge
  case h_9 | h_10 => exact h.performMst
  case h_11 =>
    dsimp only
    exact h.storePad
  case h_12 => exact h.performMlda
  case h_14 => exact h.performMchk
  case h_15 | h_17 => exact h.performRead
  case h_16 => exact h.performMwr
  case h_18 => exact h.performMsave
  case h_19 => exact h.performMrest
  case h_20 => exact h
  all_goals
    dsimp only
    exact h.updEngine

theorem State.Canon.engineTrap {core e t held} (h : s.Canon) : (s.engineTrap core e t held).Canon := by
  unfold State.engineTrap
  split
  · exact h.ucerr
  · exact h.updWarp

theorem State.Canon.dropEntry {core e} (h : s.Canon) : (s.dropEntry core e).Canon := by
  unfold State.dropEntry
  exact h.updCore.tryMwait.tryEnd

theorem State.Canon.performHead {core} (h : s.Canon) : (s.performHead core).1.Canon := by
  unfold State.performHead
  split
  · exact h
  next e _ _ =>
    have h1 := h.performOp (core := core) (e := e)
    split
    · exact h
    split
    next e1 =>
      rw [e1] at h1
      exact h1.dropEntry
    · exact h
    · split
      · exact h.engineTrap.dropEntry
      · exact h.updEngine.engineTrap
    next e1 =>
      rw [e1] at h1
      exact h1.engineTrap.dropEntry

theorem State.Canon.mapEntries {core f} (h : s.Canon) : (s.mapEntries core f).Canon := h.updEngine

theorem State.Canon.performPass {core} (h : s.Canon) : (s.performPass core).Canon := by
  unfold State.performPass
  split
  · exact h
  dsimp only
  exact .ite h (.ite h (State.Canon.performHead (.ite h.pay h.pay.mapEntries)))

theorem State.Canon.execEngineEntryPerform {core} (h : s.Canon) : OutCanon (execEngineEntryPerform core s) :=
  .next h.performPass

theorem State.Canon.fetchAhead {core id} (h : s.Canon) : (s.fetchAhead core id).Canon := by
  unfold State.fetchAhead
  split
  · exact h
  · exact .ite h h.pay.mapEntries

/-! ## Issue of matrix instructions -/

theorem State.Canon.unitStep {src body acc u} (h : OptCanon (acc.map (·.1)))
    (hb : ∀ s i u, s.Canon → DidCanon (body s i u)) : OptCanon ((State.unitStep src body acc u).map (·.1)) := by
  cases acc with
  | none => exact .none
  | some x =>
    obtain ⟨s, ts⟩ := x
    have hs : s.Canon := h.get rfl
    unfold State.unitStep
    dsimp only
    split
    · exact .some hs
    next =>
      have h1 := hb s (insOf ((lanesOf u).headD 0) (s.curWarp.lane ((lanesOf u).headD 0))
        (src s (s.curWarp.lane ((lanesOf u).headD 0)))) u hs
      generalize body s _ u = x at h1 ⊢
      cases h1 with
      | stall => exact .none
      | hold h => exact .none
      | trap h => exact .some h
      | done h => exact .some h
      | partly h => exact .some h
      | wait h => exact .some h

theorem State.Canon.unitSteps {src body us} {acc : Option (State × List (Nat × Trap))} (h : OptCanon (acc.map (·.1)))
    (hb : ∀ s i u, s.Canon → DidCanon (body s i u)) :
    OptCanon (((us : List Word).foldl (State.unitStep src body) acc).map (·.1)) := by
  induction us generalizing acc with
  | nil => exact h
  | cons u us ih => exact ih (State.Canon.unitStep h hb)

theorem State.Canon.byUnit {op f units body} (h : s.Canon) (hb : ∀ s i u, s.Canon → DidCanon (body s i u)) :
    OutCanon (s.byUnit op f units body) := by
  refine h.issue ?_
  have h1 := State.Canon.unitSteps (src := onceSources op f) (us := units (s.unitLanes f))
    (acc := some (s, s.badGuards f)) (OptCanon.some h) hb
  split
  · exact .next h
  next e =>
    rw [e] at h1
    exact .next (State.Canon.advanceBut (h1.get rfl))

theorem State.Canon.enqueue {op f u hdl x y args ls} (h : s.Canon) : DidCanon (s.enqueue op f u hdl x y args ls) := by
  unfold State.enqueue
  dsimp only
  refine .ite .stall ?_
  split
  · exact .stall
  · exact .done h.setCore

theorem State.Canon.tensorOp {op f units ok write shape} (h : s.Canon) :
    OutCanon (s.tensorOp op f units ok write shape) := by
  refine h.byUnit fun s i u h => ?_
  split
  · exact .trap h
  · exact h.enqueue

theorem State.Canon.plainEntry {op f} (h : s.Canon) : OutCanon (s.plainEntry op f) :=
  h.byUnit fun _ _ _ h => .ite (.trap h) h.enqueue

theorem State.Canon.imageOp {op f write} (h : s.Canon) : OutCanon (s.imageOp op f write) := by
  refine h.byUnit fun s i u h => .ite (.trap h) ?_
  split
  · exact .trap h
  · exact h.enqueue

theorem State.Canon.saveOp {op f} (h : s.Canon) : OutCanon (s.saveOp op f) :=
  h.byUnit fun _ _ _ h => .ite (.trap h) (.ite (.trap h) (.ite (.trap h) h.enqueue))

theorem DidCanon.get {t : State} {d : Did} (h : DidCanon d) (e : d = .done t) : t.Canon := by
  subst e
  cases h
  assumption

theorem State.Canon.laneEntry {op f limit val} (h : s.Canon) : OutCanon (s.laneEntry op f limit val) := by
  refine h.issue ?_
  dsimp only
  split
  · exact .next h.advanceBut
  refine .ite (.next h.advanceBut) (.ite (.next h.advanceBut) (.ite (.next h.advanceBut) ?_))
  split
  next e => exact .next (State.Canon.advanceBut (h.enqueue.get e))
  · exact .next h

theorem State.Canon.execMacq {f} (h : s.Canon) : OutCanon (execMacq f s) :=
  h.once fun _ _ => .done (State.Canon.updWarp (.ite h.updEngine h))

theorem State.Canon.execMrel {f} (h : s.Canon) : OutCanon (execMrel f s) := by
  refine h.byUnit fun s i u h => .ite (.trap h) ?_
  have h1 := h.enqueue (op := .mrel) (f := f) (u := u) (hdl := 0) (x := 0) (y := 0) (args := []) (ls := fun _ => [])
  split
  next e => exact .done (h1.get e).updEngine
  · exact h1

theorem State.Canon.execMwait {f} (h : s.Canon) : OutCanon (execMwait f s) :=
  h.once fun _ _ => .ite (.trap h) (h.releasing fun _ h => .ite (.done h.acquireAt) (.wait h.stayAs))

end Sys2Proof.Machine
end

section
/-! SUPPORT. Packets and links, the host's accesses, regions, launches and grids keep memory canonical. -/

namespace Sys2Proof.Machine

variable {s : State}

/-! ## Errors of the memory side -/

theorem State.Canon.freezePitch {p r} (h : s.Canon) : (s.freezePitch p r).Canon := by
  unfold State.freezePitch
  split
  · exact h
  · exact .ite h h.reportError.updPitch.elsewhere

theorem State.Canon.freezeAll (h : s.Canon) : s.freezeAll.Canon := h.foldl fun _ _ h => h.freezePitch

theorem State.Canon.retireFrame {pa} (h : s.Canon) : (s.retireFrame pa).1.Canon := by
  unfold State.retireFrame
  dsimp only
  split
  · exact h
  split
  · exact h
  · exact h.elsewhere

theorem Mem.Canon.poisonHalf {m : Mem} {pa} (h : m.Canon) : (m.poisonHalf pa).Canon := h.setWords

theorem State.Canon.upsetDirty {p owner pa way} (h : s.Canon) : (s.upsetDirty p owner pa way).Canon := by
  have h1 {l2} : (State.retireFrame { s with mem := s.mem.poisonHalf pa, l2 := l2 } pa).1.Canon :=
    State.Canon.retireFrame ⟨h.mem.poisonHalf, h.pads, h.saved⟩
  unfold State.upsetDirty
  dsimp only
  have h2 {p : Prop} [Decidable p] {quar} : (if p then { (State.retireFrame { s with
      mem := s.mem.poisonHalf pa, l2 := s.l2.filter fun e => e.line != pa / 128 } pa).1 with quar := quar }
      else (State.retireFrame { s with
      mem := s.mem.poisonHalf pa, l2 := s.l2.filter fun e => e.line != pa / 128 } pa).1).Canon := .ite h1.elsewhere h1
  exact .ite h2.freezePitch (.ite h2.reportError h2.reportError.kill)

theorem State.Canon.upset {cls core ctx pa} (h : s.Canon) : (s.upset cls core ctx pa).Canon := by
  unfold State.upset
  dsimp only
  split
  · exact h
  split
  · exact h.reportError
  · split
    · exact h
    split
    · exact h.dropL2.reportError
    · exact h.upsetDirty
  · split
    · exact h
    · exact State.Canon.ucerr (State.Canon.retireFrame ⟨h.mem.poisonHalf, h.pads, h.saved⟩)
  · exact .ite h h.homeWord.ucerr
  · exact h.freezePitch
  · exact h

/-! ## Packets -/

theorem State.Canon.deliver {k} (h : s.Canon) : (s.deliver k).Canon := by
  unfold State.deliver
  dsimp only
  split
  · exact h
  split
  · have h1 {t off size ws} : (s.updWg t fun g => g.store off size ws).Canon :=
      h.updWg fun _ hg => Workgroup.store_pad_canon hg
    exact .ite h (.ite h1.ucerr h1)
  · exact .ite h (.ite h.ucerr h.padAdd)
  · exact .ite h.ucerr h.memAdd.updCore
  · exact .ite h.postEvents h

theorem State.Canon.acceptPacket {n} (h : s.Canon) : (s.acceptPacket n).Canon := by
  unfold State.acceptPacket
  split
  · exact h
  · exact .ite h (.ite h.deliver.elsewhere (.ite h.elsewhere h))

theorem State.Canon.execPacketAccept {n} (h : s.Canon) : OutCanon (execPacketAccept n s) := .next h.acceptPacket

theorem State.Canon.execPacketAck {n} (h : s.Canon) : OutCanon (execPacketAck n s) := .next h.elsewhere

theorem State.Canon.execFlitCrcFailure {link} (h : s.Canon) : OutCanon (execFlitCrcFailure link s) :=
  .next (.ite h.logRecord.elsewhere h.logRecord.elsewhere)

theorem State.Canon.flitPassed {link} (h : s.Canon) : (s.flitPassed link).Canon := h.elsewhere

theorem State.Canon.badHeader {n} (h : s.Canon) : (s.badHeader n).Canon := h.elsewhere

theorem State.Canon.replay {src} (h : s.Canon) : (s.replay src).Canon := h.elsewhere

theorem State.Canon.trainPort {port own peer} (h : s.Canon) : (s.trainPort port own peer).Canon := h.elsewhere

theorem State.Canon.linkAdvance {tether} (h : s.Canon) : (s.linkAdvance tether).Canon := h.elsewhere

theorem State.Canon.execLinkDeath {tether lost} (h : s.Canon) : OutCanon (execLinkDeath tether lost s) :=
  .next (.ite h.linkAdvance.elsewhere (.ite h.linkAdvance h.linkAdvance.freezeAll))

theorem State.Canon.execRouteLossTimeout {d} (h : s.Canon) : OutCanon (execRouteLossTimeout d s) := by
  unfold Machine.execRouteLossTimeout
  split
  · exact .next h
  split
  · exact .next h
  · refine .next (h.elsewhere.foldl fun s k h => ?_)
    split
    · exact .ite h h.ucerr
    · exact h

theorem State.Canon.execGenerationSweep {core slot} (h : s.Canon) : OutCanon (execGenerationSweep core slot s) := by
  unfold Machine.execGenerationSweep
  split
  · exact .next h
  · exact .next (.ite h h.updCore)

theorem State.Canon.peerAccess {port dev src p iwin off op} (h : s.Canon) :
    (s.peerAccess port dev src p iwin off op).Canon := by
  unfold State.peerAccess
  split
  · exact h
  split
  · exact h.report
  extract_lets c core pas b s1 who old arrive put swap s2
  split
  · exact h
  have h1 : s1.Canon := h.pay.foldl fun _ _ h => h.l2Access
  have h2 : s2.Canon := by
    unfold s2
    split
    · exact h1
    · exact h1.physWrites
    · exact h1.memAdd
    · exact .ite h1.physWrites h1
    · exact .ite h1.physWrites h1
  exact h2.report

theorem State.Canon.peerMemory {pa ws} (h : s.Canon) : (s.peerMemory pa ws).Canon := .ite ⟨h.mem.setWords, h.pads, h.saved⟩ h

/-! ## The host -/

theorem State.Canon.execHostWrite {p off ws} (h : s.Canon) : OutCanon (execHostWrite p off ws s) := by
  refine .ite (.next h.report) (.next (h.foldl fun s x h => ?_))
  split
  · exact h.report
  · exact .ite h.reportError h.homeWord

theorem State.Canon.execHostRead {p off n} (h : s.Canon) : OutCanon (execHostRead p off n s) := by
  refine .ite (.next h.report) (.ite (.next h.report) (.next (State.Canon.report (h.foldl fun s x h => ?_))))
  split
  · exact h.l2Access
  · exact h

theorem State.Canon.execHostCompletion {pa ws error} (h : s.Canon) : OutCanon (execHostCompletion pa ws error s) :=
  .next (.ite ⟨h.mem.setWords, h.pads, h.saved⟩ h)

/-! ## Regions -/

theorem State.Canon.pokePhys {p pa ws} (h : s.Canon) : (s.pokePhys p pa ws).Canon := h.foldl fun _ _ h => .ite h.placeWords h

theorem State.Canon.resolveAll (h : s.Canon) : s.resolveAll.Canon := h.elsewhere

theorem State.Canon.setRes {p res} (h : s.Canon) : (s.setRes p res).Canon := h.updPitch

theorem State.Canon.rlink {p v} (h : s.Canon) : (s.rlink p v).Canon := by
  unfold State.rlink
  extract_lets a cs ws
  split
  · exact h.setRes
  split
  · exact h.setRes
  split
  · exact h.setRes
  · exact h.elsewhere.resolveAll.pokePhys.setRes

theorem State.Canon.rsync {p v} (h : s.Canon) : (s.rsync p v).Canon := by
  unfold State.rsync
  dsimp only
  split
  · exact h.setRes
  · exact .ite h.setRes (.ite h.setRes (.ite h.setRes (.ite h.setRes (.ite h.setRes h.elsewhere.resolveAll.setRes))))

theorem State.Canon.runlink {p v} (h : s.Canon) : (s.runlink p v).Canon := by
  unfold State.runlink
  dsimp only
  split
  · exact h.setRes
  · exact .ite h.setRes (.ite h.setRes h.elsewhere.pokePhys.setRes)

theorem State.Canon.execRlink {p v} (h : s.Canon) : OutCanon (execRlink p v s) := .next h.rlink

theorem State.Canon.execRsync {p v} (h : s.Canon) : OutCanon (execRsync p v s) := .next h.rsync

theorem State.Canon.execRunlink {p v} (h : s.Canon) : OutCanon (execRunlink p v s) := .next h.runlink

theorem State.Canon.qdoor {p v} (h : s.Canon) : (s.qdoor p v).Canon := by
  unfold State.qdoor
  dsimp only
  split
  · exact h
  · exact .ite h (.ite h.updRegion h)

theorem State.Canon.execQdoor {p v} (h : s.Canon) : OutCanon (execQdoor p v s) := .next h.qdoor

/-- Events posted in the workgroups of every saved context change no memory. -/
theorem State.Canon.edoor {p v} (h : s.Canon) : (s.edoor p v).Canon := by
  unfold State.edoor
  extract_lets a bits hit post
  split
  · exact h
  split
  · exact h
  have hp k g (hg : g.pad.Canon) : (post k g).pad.Canon := by
    unfold post
    split
    · exact hg
    · exact hg
  refine ⟨h.mem, h.pads.mapv hp, fun x hx => ?_⟩
  obtain ⟨y, hy, rfl⟩ := List.mem_map.1 hx
  exact (h.saved y hy).mapv hp

theorem State.Canon.execEdoor {p v} (h : s.Canon) : OutCanon (execEdoor p v s) := .next h.edoor

theorem State.Canon.execBudgetPeriod (h : s.Canon) : OutCanon (execBudgetPeriod s) := .next h.elsewhere

/-! ## Launch, admission and placement -/

theorem State.Canon.enqueueRecord {a cs} (h : s.Canon) : (s.enqueueRecord a cs).1.Canon := by
  unfold State.enqueueRecord
  split
  · exact h
  dsimp only
  split
  · exact h
  split
  · exact h
  split
  · exact h
  split
  · exact h
  · exact h.pokePhys.pokePhys.updRegion

theorem State.Canon.execLaunch {f} (h : s.Canon) : OutCanon (execLaunch f s) := by
  refine h.once fun i is => ?_
  dsimp only
  refine .ite (.trap h) (.ite (.trap h) (.ite (.trap h) (.ite (.trap h) ?_)))
  split
  · exact .stall
  next e =>
    have h1 := h.chargeAccess.get e
    split
    · exact .trap h1
    · exact .trap h1
    · exact h1.releasing fun _ h => .done h.enqueueRecord.give

theorem State.Canon.admitNext {a} (h : s.Canon) : (s.admitNext a).Canon := by
  unfold State.admitNext
  split
  · exact h
  · exact .ite h (.ite h.updRegion.pokePhys.elsewhere h.updRegion.pokePhys.complete)

theorem State.Canon.execAdmission {rcb} (h : s.Canon) : OutCanon (execAdmission rcb s) := .next h.admitNext

theorem State.Canon.placeOne {gid g linear gang k} (h : s.Canon) : (s.placeOne gid g linear gang k).Canon :=
  State.Canon.acquireAt ((h.setWg .empty).foldl fun _ _ h => h.setWarp)

theorem State.Canon.placeAll {gid g gang ks} (h : s.Canon) : (s.placeAll gid g gang ks).1.Canon := by
  induction ks generalizing s with
  | nil => exact h
  | cons k ks ih =>
    unfold State.placeAll
    have h1 := h.pinPad (core := coreOf k.1) (slot := k.1 % 16) (lines := g.slines)
    split
    next e =>
      rw [e] at h1
      exact ih h1.placeOne
    next e =>
      rwa [e] at h1

theorem State.Canon.placeGrid {p gid g} (h : s.Canon) : (s.placeGrid p gid g).1.Canon := by
  unfold State.placeGrid
  split
  · exact h
  extract_lets keys gang
  have h1 := h.placeAll (gid := gid) (g := g) (gang := gang) (ks := keys.zipIdx)
  split
  next e =>
    rw [e] at h1
    dsimp only at h1 ⊢
    exact h1.updGrid.updPitch
  next e =>
    rw [e] at h1
    exact State.Canon.foldl ⟨h1.mem, h1.pads.filter, h1.saved⟩ fun _ _ h => h.updCore

theorem State.Canon.placeFirst {p es} (h : s.Canon) : (s.placeFirst p es).Canon := by
  induction es generalizing s with
  | nil => exact h
  | cons e es ih =>
    unfold State.placeFirst
    refine .ite (ih h) ?_
    have h1 := h.placeGrid (p := p) (gid := e.1) (g := e.2)
    split
    next e => rwa [e] at h1
    next e => exact ih (by rwa [e] at h1)

theorem State.Canon.execWorkgroupPlacement {p} (h : s.Canon) : OutCanon (execWorkgroupPlacement p s) :=
  .ite (.next h) (.next h.placeFirst)

theorem State.Canon.writeBackCtx {c} (h : s.Canon) : (s.writeBackCtx c).Canon := h.foldl fun _ _ h => h.writeBacks

theorem State.Canon.execGridCompletion {gid} (h : s.Canon) : OutCanon (execGridCompletion gid s) := by
  unfold Machine.execGridCompletion
  split
  · exact .next h
  · exact .ite (.next h) (.next h.writeBackCtx.complete.elsewhere)

end Sys2Proof.Machine
end

section
/-! SUPPORT. Pre-emption, pitches, partition commands and the management of the device keep memory canonical. -/

namespace Sys2Proof.Machine

variable {s : State}

/-! ## Pre-emption -/

theorem State.Canon.closeRequest {p fail why n} (h : s.Canon) : (s.closeRequest p fail why n).Canon := h.updPitch.report

theorem State.Canon.notify {c} (h : s.Canon) : (s.notify c).Canon := h.foldl fun _ _ h => h.updWarp

theorem State.Canon.execPreempt {p} (h : s.Canon) : OutCanon (execPreempt p s) :=
  .ite (.next h) (.ite (.next h.closeRequest) (.ite (.next h.updCtx.closeRequest)
    (.next (State.Canon.elsewhere (.ite h.updCtx.notify h.updCtx)))))

theorem State.Canon.freeWords {n} (h : s.Canon) : (s.freeWords n).2.Canon := h.elsewhere

/-- A fold that collects words and draws free ones from the state. -/
theorem State.Canon.foldl_snd {α β : Type} {f : β × State → α → β × State} {xs : List α} {x : β × State} (h : x.2.Canon)
    (hf : ∀ x a, x.2.Canon → (f x a).2.Canon) : (xs.foldl f x).2.Canon := by
  induction xs generalizing x with
  | nil => exact h
  | cons a xs ih => exact ih (hf x a h)

theorem State.Canon.recordWords {k} (h : s.Canon) : (s.recordWords k).2.Canon := by
  unfold State.recordWords
  dsimp only
  have h1 {α : Type} {xs : List α} {f : List CWord × State → α → List CWord × State} {ws : List CWord} {m n : Nat}
      (hf : ∀ x a, x.2.Canon → (f x a).2.Canon) :
      (xs.foldl f (ws, ((s.freeWords m).2.freeWords n).2)).2.Canon := State.Canon.foldl_snd h.freeWords.freeWords hf
  split
  · exact State.Canon.freeWords (h1 fun _ _ h => h.freeWords)
  · exact h1 fun _ _ h => h.freeWords

theorem State.Canon.saveImage {c ks} (h : s.Canon) : (s.saveImage c ks).2.Canon := by
  unfold State.saveImage
  extract_lets sizes head words first
  refine State.Canon.foldl_snd h fun x k h => ?_
  dsimp only
  exact h.recordWords

theorem State.Canon.flushAll {c} (h : s.Canon) : (s.flushAll c).1.Canon := by
  refine h.foldl_fst fun x a h => ?_
  dsimp only
  split
  · exact h
  · exact h.flush

theorem PadsCanon.capture {p base ks} (h : PadsCanon s.wgs) : PadsCanon (s.capture p base ks).wgs := h.filter

theorem State.Canon.putSaved {c v} (h : s.Canon) (hv : PadsCanon v.wgs) : State.Canon { s with saved := s.saved.put c v } := by
  refine ⟨h.mem, h.pads, fun x hx => ?_⟩
  rcases KMap.mem_put hx with rfl | hx
  · exact hv
  · exact h.saved x hx

theorem State.Canon.trySave {p} (h : s.Canon) : (s.trySave p).Canon := by
  unfold State.trySave
  extract_lets q c ks s1 base
  split
  · exact h
  split
  · exact h
  have h1 : s1.Canon := h.foldl fun _ _ h => h.drainSfu
  have h2 : (s1.flushAll c).1.Canon := h1.flushAll
  dsimp only
  split
  · exact h2.closeRequest
  split
  · exact h2.closeRequest
  split
  · exact h2.closeRequest
  · refine State.Canon.closeRequest (State.Canon.foldl (State.Canon.putSaved ?_ h2.pads.capture) fun _ _ h => h.freeWg)
    exact h2.saveImage.foldl fun _ _ h => h.physWrite

theorem State.Canon.execPreemptionDone {p} (h : s.Canon) : OutCanon (execPreemptionDone p s) := .next h.trySave

theorem State.Canon.execHandlerBudgetExpiry {wid gid} (h : s.Canon) : OutCanon (execHandlerBudgetExpiry wid gid s) :=
  .next (.ite h.trySave h)

theorem State.Canon.execKill {p} (h : s.Canon) : OutCanon (execKill p s) :=
  .ite (.next h) (.ite (.next h.closeRequest) (.next h.kill))

theorem State.Canon.execKillDone {c} (h : s.Canon) : OutCanon (execKillDone c s) :=
  .ite (.next h) (.next h.elsewhere.updPitch.report)

/-! ## Resumption -/

theorem State.Canon.execResume {p} (h : s.Canon) : OutCanon (execResume p s) := by
  refine .ite (.next h) (.ite (.next h.closeRequest) ?_)
  split
  · exact .next h.closeRequest
  · exact .next h.reportError.kill
  · exact .next h.elsewhere

theorem State.Canon.pinned {core slot lines b} {t : State} (h : s.Canon) (e : s.pinPad core slot lines = (t, b)) :
    t.Canon := by
  have h1 := h.pinPad (core := core) (slot := slot) (lines := lines)
  rwa [e] at h1

/-- A workgroup that takes its seat again keeps its canonical scratchpad. -/
theorem State.Canon.seat {p v die apart k g t x} (h : s.Canon) (hg : g.pad.Canon)
    (e : s.seat p v die apart k g = some (t, x)) : t.Canon := by
  unfold State.seat at e
  obtain ⟨c, -, e⟩ := List.exists_of_findSome?_eq_some e
  dsimp only at e
  split at e
  · split at e
    · cases e
    · split at e
      next e1 =>
        cases e
        exact State.Canon.acquireAt (State.Canon.setWg (h.setCore.pinned e1) hg)
      · cases e
  · cases e

/-- One member seated after another. (The generated equation of `seatGang` cannot be used: making it evaluates the list of all
cores in `seat`, which is therefore made opaque first.) -/
theorem State.seatGang_cons {p v die apart k g gs m} : s.seatGang p v die apart ((k, g) :: gs) m =
    (s.seat p v die apart k g).bind fun x =>
      State.seatGang x.1 p v die (coreOf x.2.1 :: apart) gs (m ++ [(k, x.2)]) := by
  delta State.seatGang State.seatGang._f
  generalize State.seat = f
  conv_lhs => whnf
  cases f s p v die apart k g <;> rfl

theorem State.Canon.seatGang {p v die apart gs m t m'} (h : s.Canon) (hg : ∀ e ∈ gs, e.2.pad.Canon)
    (e : s.seatGang p v die apart gs m = some (t, m')) : t.Canon := by
  induction gs generalizing s apart m with
  | nil =>
    cases e
    exact h
  | cons g gs ih =>
    obtain ⟨k, g⟩ := g
    rw [State.seatGang_cons] at e
    obtain ⟨x, e1, e⟩ := Option.bind_eq_some_iff.1 e
    exact ih (h.seat (hg _ (List.mem_cons_self ..)) e1) (fun x hx => hg x (List.mem_cons_of_mem _ hx)) e

theorem State.Canon.seatAll {p v n gs m t m'} (h : s.Canon) (hg : ∀ e ∈ gs, e.2.pad.Canon)
    (e : s.seatAll p v n gs m = some (t, m')) : t.Canon := by
  induction n generalizing s gs m with
  | zero =>
    cases gs with
    | nil =>
      cases e
      exact h
    | cons => cases e
  | succ n ih =>
    cases gs with
    | nil =>
      cases e
      exact h
    | cons g gs =>
      unfold State.seatAll at e
      dsimp only at e
      split at e
      · cases e
      next e1 =>
        obtain ⟨die, -, e1⟩ := List.exists_of_findSome?_eq_some e1
        refine ih (h.seatGang (fun x hx => hg x (List.mem_of_mem_filter hx)) e1) (fun x hx => ?_) e
        exact hg x (List.mem_cons_of_mem _ (List.mem_of_mem_filter hx))

theorem State.Canon.putBack {v m old new g ws} (h : s.Canon) : (s.putBack v m old new g ws).Canon := by
  unfold State.putBack
  exact State.Canon.updCore ((h.setWg Mem.Canon.empty.setWords).foldl fun _ _ h => h.setWarp)

theorem State.Canon.restoreAll {p} (h : s.Canon) : (s.restoreAll p).Canon := by
  unfold State.restoreAll
  extract_lets q c
  split
  · exact h
  split
  · exact h.reportError.kill
  · exact h.closeRequest
  · exact h
  next v _ ev =>
    split
    · exact h
    next e =>
      have hv : PadsCanon v.wgs := h.saved _ (KMap.mem_of_get? ev)
      extract_lets offs s2
      have h2 : s2.Canon := (h.seatAll hv e).foldl fun _ _ h => h.putBack
      exact State.Canon.closeRequest
        ⟨h2.updCtx.mem, h2.updCtx.pads, fun x hx => h2.saved x (List.mem_of_mem_filter hx)⟩

theorem State.Canon.execResumptionDone {p} (h : s.Canon) : OutCanon (execResumptionDone p s) := .next h.restoreAll

end Sys2Proof.Machine
end

section
/-! SUPPORT. Pitches, partition commands and the management of the device keep memory canonical. -/

namespace Sys2Proof.Machine

variable {s : State}

/-! ## Contexts and apertures -/

theorem State.Canon.closeCx {p res} (h : s.Canon) : (s.closeCx p res).Canon := h.updPitch

theorem State.Canon.cxRun {p op values bind idle body} (h : s.Canon) (hb : ∀ c q, (body s c q).Canon) :
    (s.cxRun p op values bind idle body).Canon := by
  unfold State.cxRun
  dsimp only
  split
  · exact h
  split
  · exact (hb _ _).closeCx
  · exact h.closeCx

theorem State.Canon.execContextBind {p} (h : s.Canon) : OutCanon (execContextBind p s) := .next (h.cxRun fun _ _ => h.elsewhere)

theorem State.Canon.execContextRelease {p} (h : s.Canon) : OutCanon (execContextRelease p s) :=
  .next (h.cxRun fun _ _ => h.dropTlbs.elsewhere)

theorem State.Canon.execContextWrite {p} (h : s.Canon) : OutCanon (execContextWrite p s) := .next (h.cxRun fun _ _ => h.updCtx)

theorem State.Canon.execContextRead {p} (h : s.Canon) : OutCanon (execContextRead p s) := .next (h.cxRun fun _ _ => h.updPitch)

theorem State.Canon.execTlbinv {p v} (h : s.Canon) : OutCanon (execTlbinv p v s) := .next (.ite h h.dropTlbs)

theorem State.Canon.closeAperture {p n} (h : s.Canon) : (s.closeAperture p n).Canon := by
  unfold State.closeAperture
  extract_lets a s1
  have h1 : s1.Canon := h.foldl fun _ _ h => h.viewOut
  exact .ite h1 h1.metaOut

theorem State.Canon.execApertureWrite {p n word v} (h : s.Canon) : OutCanon (execApertureWrite p n word v s) :=
  .next (State.Canon.updPitch (.ite h h.closeAperture))

/-! ## Registers -/

theorem State.Canon.writePcreq {p v} (h : s.Canon) : (s.writePcreq p v).Canon :=
  .ite h (.ite h.updPitch.elsewhere h.updPitch)

theorem State.Canon.writeCxcmd {p v} (h : s.Canon) : (s.writeCxcmd p v).Canon := by
  unfold State.writeCxcmd
  dsimp only
  split
  · exact h
  split
  · exact h.updPitch
  split
  case h_5 => exact h.updPitch.updPitch.closeCx
  all_goals exact h.updPitch.updPitch.elsewhere

theorem State.Canon.writePitchReg {p off v} (h : s.Canon) : (s.writePitchReg p off v).Canon := by
  unfold State.writePitchReg
  dsimp only
  split
  case h_4 => exact .ite h h.updPitch
  case h_8 => exact h.writeCxcmd
  case h_15 => exact h.writePcreq
  case h_17 => exact h
  all_goals exact h.updPitch

theorem State.Canon.mailPut {off ws} (h : s.Canon) : (s.mailPut off ws).Canon := ⟨h.mem.setWords, h.pads, h.saved⟩

theorem State.Canon.closeMail {result} (h : s.Canon) : (s.closeMail result).Canon := h.elsewhere.report

theorem State.Canon.putStatus {st} (h : s.Canon) : (s.putStatus st).Canon := h.mailPut

theorem State.Canon.writeMbcmd {v} (h : s.Canon) : (s.writeMbcmd v).Canon := by
  unfold State.writeMbcmd
  extract_lets l1 s1 l2 s2
  have h1 : s1.Canon := h.elsewhere
  have h2 : s2.Canon := h1.elsewhere
  refine .ite h (.ite h1 (.ite h2.closeMail ?_))
  split
  · exact h2.elsewhere
  · exact .ite h2.putStatus.closeMail h2.closeMail

theorem State.Canon.writeMailReg {off v} (h : s.Canon) : (s.writeMailReg off v).Canon := by
  unfold State.writeMailReg
  split
  · exact .ite h h.elsewhere
  · exact h.writeMbcmd
  · exact h.elsewhere
  · exact h.elsewhere
  · exact h

theorem State.Canon.execRegisterWrite {b off v} (h : s.Canon) : OutCanon (execRegisterWrite b off v s) := by
  unfold Machine.execRegisterWrite
  split
  · exact .next (.ite h h.writePitchReg)
  · exact .next h.writeMailReg

/-! ## Partition commands -/

theorem State.Canon.closePart {st} (h : s.Canon) : (s.closePart st).Canon := h.putStatus.closeMail.elsewhere

theorem State.Canon.refreshUnits (h : s.Canon) : s.refreshUnits.Canon := h.elsewhere

theorem State.Canon.giveUnits {p m} (h : s.Canon) : (s.giveUnits p m).Canon := h.elsewhere.refreshUnits

theorem State.Canon.execPitchCreate (h : s.Canon) : OutCanon (execPitchCreate s) :=
  .ite (.next h) (.ite (.next h.closePart) (.ite (.next h.closePart) (.ite (.next h.closePart) (.ite (.next h.closePart)
    (.next h.elsewhere.giveUnits.closePart)))))

theorem State.Canon.execPitchAddUnits (h : s.Canon) : OutCanon (execPitchAddUnits s) :=
  .ite (.next h) (.ite (.next h.closePart) (.ite (.next h.closePart) (.ite (.next h.closePart) (.ite (.next h.closePart)
    (.next h.giveUnits.closePart)))))

theorem State.Canon.advanceCores {m} (h : s.Canon) : (s.advanceCores m).Canon := h.elsewhere

theorem State.Canon.clearCores {m} (h : s.Canon) : (s.clearCores m).Canon := h.elsewhere

theorem State.Canon.clearSlices {m} (h : s.Canon) : (s.clearSlices m).Canon := h.dropL2.elsewhere

theorem State.Canon.detach {p m} (h : s.Canon) : (s.detach p m).Canon := by
  unfold State.detach
  extract_lets leaves s0 s1 s2 s3 s4
  have h0 : s0.Canon := h.foldl fun _ _ h => h.closeAperture
  have h1 : s1.Canon := h0.updPitch
  have h2 : s2.Canon := h1.foldl fun _ _ h => h.writeBacks
  have h3 : s3.Canon := h2.foldl fun _ _ h => h.updCore
  have h4 : s4.Canon := h3.elsewhere.refreshUnits
  exact h4.advanceCores.updPitch

theorem State.Canon.execPitchRemoveUnits (h : s.Canon) : OutCanon (execPitchRemoveUnits s) := by
  have h1 {p f l} : State.Canon { s.updPitch p f with lantern := l } := h.updPitch.elsewhere
  exact .ite (.next h) (.ite (.ite (.next h.closePart) (.ite (.next h.closePart) (.ite (.next h.closePart)
    (.ite (.next h.closePart) (.next (.ite h1.detach h1)))))) (.next (.ite h.detach h)))

theorem State.Canon.execDrainTimeout (h : s.Canon) : OutCanon (execDrainTimeout s) := by
  unfold Machine.execDrainTimeout
  split
  · exact .next h
  · exact .ite (.next h) (.next h.updPitch.closePart)

theorem State.Canon.unbind {c} (h : s.Canon) : (s.unbind c).Canon := h.elsewhere

theorem State.Canon.stopPitch {p} (h : s.Canon) : (s.stopPitch p).Canon := by
  unfold State.stopPitch
  extract_lets s1 s2 gone
  have h1 : s1.Canon := h.foldl fun _ _ h => State.Canon.unbind (.ite h h.killOne)
  exact h1.advanceCores.elsewhere

theorem State.Canon.clearPitch {p m} (h : s.Canon) : (s.clearPitch p m).Canon := h.clearCores.clearSlices.elsewhere

theorem State.Canon.resetBlock {p} (h : s.Canon) : (s.resetBlock p).Canon := h.updPitch

theorem State.Canon.endReset {p m} (h : s.Canon) : (s.endReset p m).Canon := .ite h.clearPitch.resetBlock.closePart h

theorem State.Canon.resetPitch {op scrub} (h : s.Canon) : (s.resetPitch op scrub).Canon := by
  unfold State.resetPitch
  dsimp only
  split
  · exact h
  split
  · exact .ite h.endReset h
  · exact .ite h.closePart (.ite h.closePart (.ite h.stopPitch.elsewhere h.stopPitch.elsewhere.endReset))

theorem State.Canon.execPitchReset (h : s.Canon) : OutCanon (execPitchReset s) := .next h.resetPitch

theorem State.Canon.execPitchDestroy (h : s.Canon) : OutCanon (execPitchDestroy s) := .next h.resetPitch

theorem State.Canon.scrub {m bad} (h : s.Canon) : (s.scrub m bad).Canon := by
  unfold State.scrub
  extract_lets inM s0 s1 s2
  have h0 : s0.Canon := h.clearSlices
  have h1 : s1.Canon := ⟨h0.mem.filter, h0.pads, h0.saved⟩
  have h2 : s2.Canon := h1.foldl fun _ _ h => h.retireFrame
  exact h2.elsewhere

theorem State.Canon.execScrubComplete {bad} (h : s.Canon) : OutCanon (execScrubComplete bad s) := by
  unfold Machine.execScrubComplete
  split
  · exact .next h
  · refine .ite (.next h) (.next ?_)
    split
    · exact State.Canon.closePart (State.Canon.scrub (.ite h.clearCores.clearSlices h.clearPitch))
    · exact State.Canon.closePart (State.Canon.resetBlock (State.Canon.scrub (.ite h.clearCores.clearSlices h.clearPitch)))
    · exact State.Canon.closePart (State.Canon.elsewhere (State.Canon.scrub (.ite h.clearCores.clearSlices h.clearPitch)))

/-! ## The dump -/

theorem State.Canon.dumpUnit {u} (h : s.Canon) : (s.dumpUnit u).2.Canon := by
  unfold State.dumpUnit
  extract_lets ws
  exact State.Canon.freeWords (State.Canon.foldl_snd h fun _ _ h => h.freeWords)

theorem State.Canon.execDumpComplete {p} (h : s.Canon) : OutCanon (execDumpComplete p s) := by
  unfold Machine.execDumpComplete
  extract_lets q fits s1 s2
  refine .ite (.next h) (.next (State.Canon.updPitch ?_))
  have h1 : s1.Canon := by
    refine .ite ?_ h.logRecord
    extract_lets
    exact State.Canon.homeWords (State.Canon.foldl_snd h.freeWords fun _ _ h => h.dumpUnit)
  exact h1.foldl fun _ _ h => .ite h h.killOne

/-! ## Management -/

theorem State.Canon.loadRennet {ws} (h : s.Canon) : (s.loadRennet ws).Canon := h.elsewhere

theorem State.Canon.logEvent {cls} (h : s.Canon) : (s.logEvent cls).Canon := h.logRecord

theorem State.Canon.execRennetImageLoad (h : s.Canon) : OutCanon (execRennetImageLoad s) :=
  .ite (.next h) (.ite (.next h.closeMail) (.ite (.next h.closeMail) (.ite (.next h.closeMail)
    (.ite (.next h.elsewhere) (.next h.loadRennet.logEvent.closeMail)))))

theorem State.Canon.execFirmwareUpdate (h : s.Canon) : OutCanon (execFirmwareUpdate s) :=
  .ite (.next h) (.ite (.next h.closeMail) (.ite (.next h.closeMail) (.ite (.next h.closeMail)
    (.next h.elsewhere.logEvent.closeMail))))

theorem State.Canon.execSensorSample {x} (h : s.Canon) : OutCanon (execSensorSample x s) := by
  unfold Machine.execSensorSample
  extract_lets l powers avg steps s1 s2 s3
  have h2 : s2.Canon := h.elsewhere
  have h3 : s3.Canon := .ite h2 h2.logEvent
  exact .next (.ite h3.logEvent.freezeAll h3)

theorem State.Canon.execSensorSnapshot (h : s.Canon) : OutCanon (execSensorSnapshot s) :=
  .ite (.next h) (.ite (.next h.closeMail) (.next h.mailPut.closeMail))

theorem State.Canon.execLogRead (h : s.Canon) : OutCanon (execLogRead s) :=
  .ite (.next h) (.ite (.next h.closeMail) (.next h.mailPut.closeMail))

theorem State.Canon.execGetMeasurements {index} (h : s.Canon) : OutCanon (execGetMeasurements index s) := by
  unfold Machine.execGetMeasurements
  dsimp only
  split
  case h_6 => exact .next h
  all_goals exact .next h.report

theorem State.Canon.reset : State.reset.Canon := ⟨.empty, fun _ h => (List.not_mem_nil h).elim, fun _ h => (List.not_mem_nil h).elim⟩

/-- Of the device only what lies outside its stacks remains, and it was canonical. -/
theorem Mem.Canon.outside {m : Mem} (h : m.Canon) : m.outside.Canon := h.filter

theorem State.Canon.broughtUp {bank} (h : s.Canon) : (s.broughtUp bank).Canon :=
  State.Canon.logEvent ⟨h.mem.outside, State.Canon.reset.pads, State.Canon.reset.saved⟩

theorem State.Canon.execBringUp (h : s.Canon) : OutCanon (execBringUp s) :=
  .ite (.next h) (.ite (.next h.broughtUp) (.ite (.next h.logEvent.broughtUp) (.next h.logRecord.elsewhere)))

theorem State.Canon.execPowerLoss (h : s.Canon) : OutCanon (execPowerLoss s) :=
  .next ⟨h.mem.outside, State.Canon.reset.pads, State.Canon.reset.saved⟩

end Sys2Proof.Machine
end

section
/-! SUPPORT. Every instruction and event keeps memory canonical. -/

namespace Sys2Proof.Machine

variable {s : State}

theorem State.Canon.sfuOp {op f} (h : s.Canon) : OutCanon (sfuOp op f s) :=
  h.issue (.ite (.next h) (.next h.afterInjection.updCore.updWarp.commit))

theorem State.Canon.exec {i : Instr} (h : s.Canon) : OutCanon (exec i s) := by
  cases i
  case add | addCompact | sub | subCompact | addc | subb | neg | negCompact | absI | minI | minCompact | maxI | maxCompact |
      mul | mulCompact | mulh | mad | madh | mulw | madw | sad | idp4 | add64 | sub64 | neg64 | mul64 | lea | lea64 | clamp |
      avg =>
    dsimp only [Machine.exec, execAdd, intAdd, typedInt, execAddCompact, execSub, intSub, execSubCompact, execAddc, carryInt,
      execSubb, execNeg, intNeg, execNegCompact, execAbsI, execMinI, intMin, chooseInt, execMinCompact, execMaxI, intMax,
      execMaxCompact, execMul, intMul, execMulCompact, execMulh, productInt, execMad, execMadh, execMulw, execMadw, execSad,
      execIdp4, execAdd64, pairInt, execSub64, execNeg64, execMul64, execLea, execLea64, execClamp, execAvg, State.lanePure,
      State.lanewise]
    exact h.lanewiseOn
  case andB | andCompact | orB | orCompact | xorB | xorCompact | notB | notCompact | andn | bitfn | shl | shlCompact | shr |
      shrCompact | rol | shl64 | shr64 | bfx | bfi | popc | popcCompact | clz | brev =>
    dsimp only [Machine.exec, execAndB, bitAnd, wordOp, execAndCompact, execOrB, bitOr, execOrCompact, execXorB, bitXor,
      execXorCompact, execNotB, bitNot, execNotCompact, execAndn, execBitfn, execShl, bitShl, execShlCompact, execShr, bitShr,
      execShrCompact, execRol, execShl64, execShr64, execBfx, execBfi, execPopc, bitPopc, execPopcCompact, execClz, execBrev,
      State.lanePure, State.lanewise]
    exact h.lanewiseOn
  case mov | movCompact | movw | sel | ext | bsel | mov64 | cmp | cmp64 | cmpFloat | classF | pcomb | pmov | pset =>
    dsimp only [Machine.exec, execMov, moveWord, execMovCompact, execMovw, execSel, execExt, execBsel, execMov64, execCmp,
      execCmp64, execCmpFloat, execClassF, execPcomb, execPmov, execPset, State.lanePure, State.lanewise]
    exact h.lanewiseOn
  case addFloat | addFloatCompact | subFloat | subFloatCompact | mulFloat | mulFloatCompact | fma | minFloat | minFloatCompact
      | maxFloat | maxFloatCompact | absFloat | absFloatCompact | negFloat | negFloatCompact | scaleb | rnd | dot2 | cpys |
      frc | lerp =>
    dsimp only [Machine.exec, execAddFloat, floatAdd, floatOp, floatBits, execAddFloatCompact, execSubFloat, floatSub,
      execSubFloatCompact, execMulFloat, floatMul, execMulFloatCompact, execFma, execMinFloat, floatMin, execMinFloatCompact,
      execMaxFloat, floatMax, execMaxFloatCompact, execAbsFloat, floatAbs, floatSign, execAbsFloatCompact, execNegFloat,
      floatNeg, execNegFloatCompact, execScaleb, execRnd, execDot2, execCpys, execFrc, execLerp, State.lanePure,
      State.lanewise]
    exact h.lanewiseOn
  case cvt | cvtf | cvtx | pack | unpk | sysr =>
    dsimp only [Machine.exec, execCvt, execCvtf, execCvtx, execPack, execUnpk, execSysr, State.lanePure, State.lanewise]
    exact h.lanewiseOn
  case imad24 | fmac =>
    dsimp only [Machine.exec, execImad24, execFmac]
    exact h.deprecatedLanes
  case rcp | rcpCompact | rsq | rsqCompact | sqrt | exp2 | exp2Compact | log2 | log2Compact | sin | cos | tanh | sigm | erf |
      sinpi | cospi | expm1 | log1p =>
    dsimp only [Machine.exec, execRcp, sfuRcp, execRcpCompact, execRsq, sfuRsq, execRsqCompact, execSqrt, execExp2, sfuExp2,
      execExp2Compact, execLog2, sfuLog2, execLog2Compact, execSin, execCos, execTanh, execSigm, execErf, execSinpi,
      execCospi, execExpm1, execLog1p]
    exact h.sfuOp
  case mlds | mmul | mcnt | mdrain | mst | mlda =>
    dsimp only [Machine.exec, execMlds, execMmul, execMcnt, execMdrain, execMst, execMlda]
    exact h.tensorOp
  case mswap | cdrain | cclr | mzero | mchk =>
    dsimp only [Machine.exec, execMswap, execCdrain, execCclr, execMzero, execMchk]
    exact h.plainEntry
  case cmerge | mstBank =>
    dsimp only [Machine.exec, execCmerge, execMstBank]
    exact h.imageOp
  case mrd | mwr | crd =>
    dsimp only [Machine.exec, execMrd, execMwr, execCrd]
    exact h.laneEntry
  case msave | mrest =>
    dsimp only [Machine.exec, execMsave, execMrest]
    exact h.saveOp
  case vote | shfl | red | scan | matchL | elect | setpart | cvtb =>
    dsimp only [Machine.exec, execVote, execShfl, execRed, execScan, execMatchL, execElect, execSetpart, execCvtb]
    exact h.laneInstr
  case bra | brc | brx | meet =>
    dsimp only [Machine.exec, execBra, execBrc, execBrx, execMeet]
    exact h.branchTo
  case ld | lds | ldr | ldp | ldu =>
    dsimp only [Machine.exec, execLd, execLds, execLdr, execLdp, execLdu]
    exact h.load
  case st | sts | stp =>
    dsimp only [Machine.exec, execSt, execSts, execStp]
    exact h.plainStore
  case atom | cas | atoms | cass =>
    dsimp only [Machine.exec, execAtom, execCas, execAtoms, execCass]
    exact h.atomic
  case waitEvaluation => exact .next h.reevaluate
  case loadReturn => exact .next h.returnLoad
  case notAnInstruction => exact .next h.trapActive
  case macq => exact h.execMacq
  case mrel => exact h.execMrel
  case mwait => exact h.execMwait
  case call => exact h.execCall
  case calli => exact h.execCalli
  case ret => exact h.execRet
  case exitT => exact h.execExitT
  case nop => exact h.execNop
  case prefi => exact h.execPrefi
  case launch => exact h.execLaunch
  case yield => exact h.execYield
  case brcx => exact h.execBrcx
  case bari => exact h.execBari
  case bara => exact h.execBara
  case bars => exact h.execBars
  case barx => exact h.execBarx
  case post => exact h.execPost
  case waitC => exact h.execWaitC
  case trap => exact h.execTrap
  case tret => exact h.execTret
  case sysw => exact h.execSysw
  case tinv => exact h.execTinv
  case cgenReg => exact h.execCgenReg
  case cgenLive => exact h.execCgenLive
  case cgenDrop => exact h.execCgenDrop
  case str => exact h.execStr
  case fence => exact h.execFence
  case cmo => exact h.execCmo
  case hbind => exact h.execHbind
  case stm => exact h.execStm
  case gath => exact h.execGath
  case pref => exact h.execPref
  case rlck => exact h.execRlck
  case rlrel => exact h.execRlrel
  case radd => exact h.execRadd
  case raddg => exact h.execRaddg
  case acc => exact h.execAcc
  case kick => exact h.execKick
  case cancel => exact h.execCancel
  case clauseHeader => exact h.execClauseHeader
  case regroupPoint => exact h.execRegroupPoint
  case yieldExpiry => exact h.execYieldExpiry
  case waitTimeout => exact h.execWaitTimeout
  case handlerBudgetExpiry => exact h.execHandlerBudgetExpiry
  case emulationTimeout => exact h.execEmulationTimeout
  case sfuWriteBack => exact h.execSfuWriteBack
  case engineEntryPerform => exact h.execEngineEntryPerform
  case copyChunk => exact h.execCopyChunk
  case instructionFetch => exact h.execInstructionFetch
  case pageWalk => exact h.execPageWalk
  case packetAccept => exact h.execPacketAccept
  case packetAck => exact h.execPacketAck
  case flitCrcFailure => exact h.execFlitCrcFailure
  case linkDeath => exact h.execLinkDeath
  case routeLossTimeout => exact h.execRouteLossTimeout
  case hostWrite => exact h.execHostWrite
  case hostRead => exact h.execHostRead
  case hostCompletion => exact h.execHostCompletion
  case generationSweep => exact h.execGenerationSweep
  case admission => exact h.execAdmission
  case workgroupPlacement => exact h.execWorkgroupPlacement
  case gridCompletion => exact h.execGridCompletion
  case asyncEntry => exact h.execAsyncEntry
  case rlink => exact h.execRlink
  case rsync => exact h.execRsync
  case runlink => exact h.execRunlink
  case qdoor => exact h.execQdoor
  case edoor => exact h.execEdoor
  case preempt => exact h.execPreempt
  case kill => exact h.execKill
  case resume => exact h.execResume
  case preemptionDone => exact h.execPreemptionDone
  case killDone => exact h.execKillDone
  case resumptionDone => exact h.execResumptionDone
  case tlbinv => exact h.execTlbinv
  case contextBind => exact h.execContextBind
  case contextRelease => exact h.execContextRelease
  case contextWrite => exact h.execContextWrite
  case contextRead => exact h.execContextRead
  case apertureWrite => exact h.execApertureWrite
  case registerWrite => exact h.execRegisterWrite
  case getMeasurements => exact h.execGetMeasurements
  case sensorSample => exact h.execSensorSample
  case dumpComplete => exact h.execDumpComplete
  case scrubComplete => exact h.execScrubComplete
  case budgetPeriod => exact h.execBudgetPeriod
  case pitchCreate => exact h.execPitchCreate
  case pitchAddUnits => exact h.execPitchAddUnits
  case pitchRemoveUnits => exact h.execPitchRemoveUnits
  case drainTimeout => exact h.execDrainTimeout
  case pitchReset => exact h.execPitchReset
  case pitchDestroy => exact h.execPitchDestroy
  case rennetImageLoad => exact h.execRennetImageLoad
  case firmwareUpdate => exact h.execFirmwareUpdate
  case sensorSnapshot => exact h.execSensorSnapshot
  case logRead => exact h.execLogRead
  case bringUp => exact h.execBringUp
  case powerLoss => exact h.execPowerLoss

end Sys2Proof.Machine
end

section
/-! SUPPORT. Rennet's actions, the issue of bundles and the other moves keep memory canonical, and so does every step. -/

namespace Sys2Proof.Machine

variable {s : State}

/-! ## Rennet's actions -/

theorem State.Canon.passBy {m next} (h : s.Canon) : (s.passBy m next).Canon := h.updWarp

theorem State.Canon.closeWindow {m} (h : s.Canon) : (s.closeWindow m).Canon := h.updWarp

theorem State.Canon.count (h : s.Canon) : s.count.Canon := h.updCore

theorem State.Canon.claimTrap {k} (h : s.Canon) : (s.claimTrap k).Canon := h.trapActive

theorem State.Canon.claimEmulate {k} (h : s.Canon) : (s.claimEmulate k).Canon := by
  unfold State.claimEmulate
  extract_lets q bad next s0 s1 s2
  have h1 : s1.Canon := h.count.drainUpTo.passBy
  have h2 : s2.Canon := State.Canon.updWarp (.ite h1 h1.closeWindow)
  exact h2.trapLanes

theorem State.Canon.claimBoot {k} (h : s.Canon) : OutCanon (s.claimBoot k) := by
  unfold State.claimBoot
  extract_lets i q s1 refuse
  have hr e : (refuse e).Canon := h.count.passBy.closeWindow.trapLanes
  clear_value i
  split
  · exact .next (hr _)
  split
  · split
    · exact .next (hr _)
    split
    · exact .next h
    next e => exact (h.dependOn.get e).exec
  · exact h.exec

theorem State.Canon.runEntry {i done tam} (h : s.Canon) : OptCanon ((s.runEntry i done tam).map (·.1)) := by
  unfold State.runEntry
  extract_lets wid w0
  split
  · exact .none
  next e =>
    split
    next e1 =>
      have h2 := (h.dependOn.get e).exec.get e1
      split
      · exact .some h2
      split
      · exact .none
      extract_lets w2 bad ok
      split
      · exact .none
      · exact .some h2.updWarp
    · exact .none

theorem State.Canon.runBody {k tam n xs} (h : s.Canon) : (s.runBody k tam n xs).1.Canon := by
  induction xs generalizing s n with
  | nil => exact h
  | cons x xs ih =>
    unfold State.runBody
    split
    · exact h
    have h1 := h.runEntry (i := s.bodyInstr k x.1 x.2) (done := n + 1) (tam := tam)
    split
    · exact h
    next e =>
      rw [e] at h1
      exact ih (h1.get rfl).elsewhere

theorem State.Canon.claimRewrite {k} (h : s.Canon) : (s.claimRewrite k).Canon := by
  unfold State.claimRewrite
  extract_lets wid begun q bad next entries
  have h1 : (State.runBody { s with cur := ⟨wid, q, s.cur.pc⟩ } k s.cur.mask begun entries).1.Canon := h.elsewhere.runBody
  split
  next s1 waits e =>
    rw [e] at h1
    extract_lets left s2 s3 s4 t s5 lost s6 s7
    have h2 : s2.Canon := h1.elsewhere
    have h4 : s4.Canon := h2.updCore.passBy
    have h5 : s5.Canon := .ite h4.updWarp (.ite h4.passBy.deprecated h4.passBy)
    have h6 : s6.Canon := .ite h5.closeWindow h5
    have h7 : s7.Canon := h6.trapLanes
    exact .ite h2 (.ite h (.ite h7.park h7))

theorem State.Canon.patched {k} (h : s.Canon) : OutCanon (s.patched k) := by
  unfold State.patched
  split
  · exact h.claimBoot
  split
  · exact .next h.claimTrap
  · exact .next h.claimRewrite
  · exact .next h.claimEmulate

/-! ## Issue -/

theorem State.Canon.pendingTraps {ts} (h : s.Canon) : (s.pendingTraps ts).Canon := h.count.closeWindow.trapLanes

theorem State.Canon.takeEngine {xs} (h : s.Canon) : (s.takeEngine xs).Canon := h.updWarp.pendingTraps.updWarp

theorem State.Canon.runOne {i} (h : s.Canon) : OutCanon (s.runOne i) := by
  unfold State.runOne
  split
  · exact .next h.reportError.kill
  split
  · exact .next h
  next e => exact (h.dependOn.get e).exec

theorem State.Canon.issueWords {ws} (h : s.Canon) : OutCanon (s.issueWords ws) := by
  unfold State.issueWords
  refine .ite (.next h) ?_
  split
  · exact h.patched
  · exact h.runOne

theorem State.Canon.issueNext (h : s.Canon) : OutCanon s.issueNext := by
  have h0 : OptCanon (if s.waitMask = 0 then some s else s.clauseWait s.waitMask) := by
    split
    · exact .some h
    · exact h.clauseWait
  unfold State.issueNext
  split
  · exact .next h
  next e =>
    have h1 := (h0.get e).fetch
    split
    next e1 =>
      rw [e1] at h1
      exact .next h1.fetchFails
    · exact .next h
    next e1 =>
      rw [e1] at h1
      exact h1.issueWords

theorem State.Canon.issueBundle {wid bid} (h : s.Canon) : OutCanon (s.issueBundle wid bid) :=
  .ite (.next h) (.ite h.exec (.ite (.next h) (.ite h.atBundle.issueNext (.ite (.next h.atBundle.pendingTraps)
    (.ite (.next h.atBundle.takeEngine) h.atBundle.issueNext)))))

theorem State.Canon.aged {wid bid mask} (h : s.Canon) : (s.aged wid bid mask).Canon := h.elsewhere

theorem State.Canon.settled {t wid bid} (h : s.Canon) : (s.settled t wid bid).Canon := .ite h.aged.updCore.releaseHeld h

theorem State.Canon.issueNow {wid bid} (h : s.Canon) : OutCanon (s.issueNow wid bid) := by
  have h1 := h.issueBundle (wid := wid) (bid := bid)
  refine .ite ?_ (.next h)
  split
  next e => exact .next (h1.get e).settled
  · exact h1

/-! ## Other moves -/

theorem State.Canon.writeBytes {p off v bytes} (h : s.Canon) : OutCanon (s.writeBytes p off v bytes) := by
  unfold State.writeBytes
  extract_lets x q run
  have hr t (h : t.Canon) : (run t).Canon := h.elsewhere
  refine .ite (.next h) ?_
  split
  case h_4 => exact .next (.ite h (hr _ h.updPitch))
  case h_5 => exact h.exec
  all_goals exact .next (.ite h (hr _ h.updPitch))

theorem State.Canon.runReg {p off v} (h : s.Canon) : OutCanon (s.runReg p off v) := h.updPitch.exec

theorem State.Canon.readReg {p off} (h : s.Canon) : (s.readReg p off).Canon := .ite h.report h.report

theorem State.Canon.perform {p} (h : s.Canon) : OutCanon (s.perform p) := by
  cases p with
  | issue => exact h.issueNow
  | event => exact .ite (.next h) h.exec
  | elapse => exact .next h
  | evict => exact .next h.evictWord
  | viewOut => exact .next h.viewOut
  | badHeader => exact .next h.badHeader
  | replay => exact .next h.replay
  | flitPassed => exact .next h.flitPassed
  | trainPort => exact .next h.trainPort
  | peerAccess => exact .next h.peerAccess
  | peerMemory => exact .next h.peerMemory
  | regBytes => exact h.writeBytes
  | regRun => exact h.runReg
  | regRead => exact .next h.readReg
  | mailRead => exact .next h.report
  | fetchAhead => exact .next (.ite h h.fetchAhead)
  | upset => exact .next h.upset
  | sfuFault => exact .next h.failSfu
  | lockUpset => exact .next h.updCore
  | predUpset => exact .next h.updWarp

theorem State.Canon.nextPick (h : s.Canon) : s.nextPick.2.Canon := by
  unfold State.nextPick
  split
  · exact h.elsewhere
  · split
    · exact h.elsewhere
    · exact h.elsewhere

theorem State.Canon.tick {n} (h : s.Canon) : (s.tick n).Canon := h.elsewhere

theorem State.Canon.step (h : s.Canon) : OutCanon (step s) := by
  have h1 := h.nextPick.perform (p := s.nextPick.1)
  refine .ite .fault ?_
  dsimp only
  split
  next e => exact .next (h1.get e).tick
  · exact h1

/-- Settles O60: every operation of the model keeps the form, so that every step does. -/
theorem memoryStaysCanonical : Obligations.MemoryStaysCanonical := by
  unfold Obligations.MemoryStaysCanonical
  have hr := State.Canon.reset
  refine ⟨⟨hr.mem, hr.pads, hr.saved⟩, fun s t ⟨hm, hp, hs⟩ e => ?_⟩
  obtain ⟨hm', hp', hs'⟩ := (State.Canon.step ⟨hm, hp, hs⟩).get e
  exact ⟨hm', hp', hs'⟩

end Sys2Proof.Machine
end

section
/-!
SUPPORT. A pitch put again as it is (R381): the table of pitches may change its form, where its keys do not rise, but no read of
it changes, so that the operations on regions run as on the state itself.
-/

namespace Sys2Proof.Machine

variable {s : State} {p : Nat}

/-- The state with a pitch of it put again as it is. -/
def State.again (s : State) (p : Nat) : State :=
  { s with pitches := match s.pitches.get? p with
      | some q => s.pitches.put p q
      | none => s.pitches }

theorem State.updPitch_same {f : Pitch → Pitch} (hf : ∀ q, f q = q) : s.updPitch p f = s.again p := by
  unfold State.updPitch State.again
  cases s.pitches.get? p with
  | none => rfl
  | some q =>
    dsimp only
    rw [hf]

@[simp] theorem State.again_pitch {r} : (s.again p).pitch r = s.pitch r := by
  unfold State.pitch KMap.getD State.again
  dsimp only
  split
  next q e =>
    rw [KMap.get?_put]
    split
    next hr => rw [hr, e]
    · rfl
  · rfl

/-- What is then written to the pitch hides that it was put again. -/
theorem State.again_updPitch {f} : (s.again p).updPitch p f = s.updPitch p f := by
  unfold State.updPitch State.again
  cases e : s.pitches.get? p with
  | none => simp [e]
  | some q => simp [KMap.put_put]

/-! ## Reads -/

@[simp] theorem State.again_regValue {r off} : (s.again p).regValue r off = s.regValue r off := by
  unfold State.regValue
  rw [State.again_pitch]
  rfl

@[simp] theorem State.again_tetherOk {r win wr} : (s.again p).tetherOk r win wr = s.tetherOk r win wr := by
  unfold State.tetherOk
  rw [State.again_pitch]
  rfl

@[simp] theorem State.again_carried {r win w} : (s.again p).carried r win w = s.carried r win w := by
  unfold State.carried State.peerOf
  rw [State.again_pitch]
  rfl

@[simp] theorem State.again_apertureAt {r n off} : (s.again p).apertureAt r n off = s.apertureAt r n off := by
  unfold State.apertureAt
  rw [State.again_pitch]
  rfl

@[simp] theorem State.again_physWord {r priv pa} : (s.again p).physWord r priv pa = s.physWord r priv pa := by
  unfold State.physWord
  simp only [State.again_tetherOk, State.again_carried, State.again_apertureAt, State.again_regValue]
  rfl

@[simp] theorem State.again_physWords {r pa n} : (s.again p).physWords r pa n = s.physWords r pa n := by
  unfold State.physWords
  simp only [State.again_physWord]

@[simp] theorem State.again_isData {r pa} : (s.again p).isData r pa = s.isData r pa := by
  unfold State.isData State.physRefused
  simp only [State.again_tetherOk, State.again_apertureAt]
  rfl

/-! ## Writes -/

theorem State.again_l2Touch {n} : (s.again p).l2Touch n = (s.l2Touch n).again p := by
  unfold State.l2Touch
  simp only [show (s.again p).l2Line n = s.l2Line n from rfl, show (s.again p).usableWays n = s.usableWays n from rfl,
    show (s.again p).l2 = s.l2 from rfl]
  split
  · rfl
  · split
    · rfl
    · split <;> rfl

theorem State.again_l2Access {pa} : (s.again p).l2Access pa = (s.l2Access pa).again p := by
  unfold State.l2Access
  split
  · exact State.again_l2Touch
  · rfl

theorem State.again_l2Claim {o pa} : (s.again p).l2Claim o pa = (s.l2Claim o pa).again p := by
  unfold State.l2Claim
  split
  · rw [State.again_l2Touch]
    rfl
  · rfl

theorem State.again_homeWord {o pa w} : (s.again p).homeWord o pa w = (s.homeWord o pa w).again p := by
  unfold State.homeWord
  rw [State.again_l2Claim]
  rfl

/-- A fold of operations that commute with it. -/
theorem State.again_foldl {α : Type} {f : State → α → State} {xs : List α} (hf : ∀ s x, f (s.again p) x = (f s x).again p) :
    xs.foldl f (s.again p) = (xs.foldl f s).again p := by
  induction xs generalizing s with
  | nil => rfl
  | cons x xs ih => rw [List.foldl_cons, hf, ih, List.foldl_cons]

theorem State.again_homeWords {o pa ws} : (s.again p).homeWords o pa ws = (s.homeWords o pa ws).again p :=
  State.again_foldl fun _ _ => State.again_homeWord

theorem State.again_bufferWords {o xs} : (s.again p).bufferWords o xs = (s.bufferWords o xs).again p :=
  State.again_foldl fun _ _ => State.again_homeWord

theorem State.again_cleanL2 {f} : (s.again p).cleanL2 f = (s.cleanL2 f).again p := rfl

theorem State.again_viewBack {key} : (s.again p).viewBack key = (s.viewBack key).again p := by
  unfold State.viewBack
  rw [State.again_pitch, show (s.again p).views = s.views from rfl]
  split
  · rfl
  split
  · rfl
  · dsimp only
    rw [State.again_foldl fun s k => ?_]
    · rfl
    · split
      · rw [show (s.again p).hbmWord = s.hbmWord from rfl, State.again_bufferWords]
        rfl
      · rfl

theorem State.again_viewWords {o r a xs} : (s.again p).viewWords o r a xs = (s.viewWords o r a xs).again p := by
  unfold State.viewWords
  split
  · rfl
  · dsimp only
    rw [show (s.again p).views = s.views from rfl, State.again_viewBack]
    split <;> rfl

theorem State.again_metaBack {e} : (s.again p).metaBack e = (s.metaBack e).again p := by
  unfold State.metaBack
  split
  · exact State.again_homeWords
  · rfl

theorem State.again_metaPut {n e} : (s.again p).metaPut n e = (s.metaPut n e).again p :=
  State.again_foldl (s := { s with metas := _ }) fun _ _ => State.again_metaBack

theorem State.again_chunkWords {o a off xs} :
    (s.again p).chunkWords o a off xs = ((s.chunkWords o a off xs).1.again p, (s.chunkWords o a off xs).2) := by
  unfold State.chunkWords
  rw [show (s.again p).metaAt a off = s.metaAt a off from rfl, show (s.again p).mem = s.mem from rfl]
  dsimp only
  split
  · rw [State.again_homeWords, State.again_metaPut]
  · rw [State.again_metaPut]

theorem State.again_placeWords {o r priv xs} : ((s.again p).placeWords o r priv xs).1 = (s.placeWords o r priv xs).1.again p := by
  unfold State.placeWords
  split
  · rfl
  rw [show (s.again p).target = s.target from rfl]
  split
  · rw [State.again_apertureAt]
    split
    · rfl
    split
    · rw [State.again_viewWords]
    · rw [State.again_chunkWords]
  · exact State.again_foldl fun s x => by rw [State.again_carried, State.again_homeWord]
  · refine State.again_foldl fun s x => ?_
    split
    · exact State.again_homeWord
    · rw [State.again_homeWord]
      rfl
  · exact State.again_foldl fun _ _ => State.again_homeWord

theorem State.again_pokePhys {r pa ws} : (s.again p).pokePhys r pa ws = (s.pokePhys r pa ws).again p := by
  refine State.again_foldl fun s x => ?_
  rw [State.again_isData]
  split
  · exact State.again_placeWords
  · rfl

/-! ## The operations on regions -/

theorem State.again_setRes {res} : (s.again p).setRes p res = s.setRes p res := State.again_updPitch

theorem State.again_resolve {n a} : (s.again p).resolve n a = s.resolve n a := by
  induction n generalizing a with
  | zero => rfl
  | succ n ih =>
    unfold State.resolve
    simp only [ih]
    rfl

theorem State.again_resolveAll : (s.again p).resolveAll = s.resolveAll.again p := by
  unfold State.resolveAll
  simp only [State.again_resolve]
  rfl

theorem State.again_rlink {v} : (s.again p).rlink p v = s.rlink p v := by
  have hr : (s.again p).regions = s.regions := rfl
  have hl ws : (s.again p).linkCheck p ws = s.linkCheck p ws := rfl
  have hu (t : KMap Region) : ({ s.again p with regions := t } : State) = State.again { s with regions := t } p := rfl
  dsimp only at hu
  unfold State.rlink
  simp -zeta only [State.again_physWords, State.again_setRes, hr, hl, hu, State.again_resolveAll, State.again_pokePhys]

theorem State.again_rsync {v} : (s.again p).rsync p v = s.rsync p v := by
  have hr : (s.again p).regions = s.regions := rfl
  have hu (t : KMap Region) : ({ s.again p with regions := t } : State) = State.again { s with regions := t } p := rfl
  dsimp only at hu
  unfold State.rsync
  simp -zeta only [State.again_physWords, State.again_setRes, hr, hu, State.again_resolveAll]

theorem State.again_runlink {v} : (s.again p).runlink p v = s.runlink p v := by
  have hr : (s.again p).regions = s.regions := rfl
  have hg a : ((s.again p).grids.any fun g => g.2.region == a) = s.grids.any fun g => g.2.region == a := rfl
  have hu (t : KMap Region) : ({ s.again p with regions := t } : State) = State.again { s with regions := t } p := rfl
  dsimp only at hu
  unfold State.runlink State.tailOf
  simp -zeta only [State.again_physWord, State.again_setRes, hr, hg, hu, State.again_pokePhys]

end Sys2Proof.Machine
end

section
/-!
SUPPORT. What a write of a register changes (R9, R381): the table of pitches in one place; and what closing an aperture changes
(R372): memory, the L2 slices, and what they hold of views and metadata.
-/

namespace Sys2Proof.Machine

variable {s t u : State} {p : Nat}

/-! ## A pitch changed -/

theorem State.updPitch_eq {f} : s.updPitch p f = { s with pitches := (s.updPitch p f).pitches } := by
  unfold State.updPitch
  split <;> rfl

theorem State.updPitch_pitch {f} (h : (s.pitches.get? p).isSome = true) : (s.updPitch p f).pitch p = f (s.pitch p) := by
  obtain ⟨q, hq⟩ := Option.isSome_iff_exists.1 h
  simp [State.updPitch, State.pitch, KMap.getD, hq]

theorem State.updPitch_isSome {f} (h : (s.pitches.get? p).isSome = true) :
    ((s.updPitch p f).pitches.get? p).isSome = true := by
  obtain ⟨q, hq⟩ := Option.isSome_iff_exists.1 h
  simp [State.updPitch, hq]

theorem State.updPitch_pitch_ne {f r} (h : r ≠ p) : (s.updPitch p f).pitch r = s.pitch r := by
  unfold State.updPitch State.pitch KMap.getD
  split
  · rw [KMap.get?_put_ne _ _ h]
  · rfl

/-! ## An aperture closed -/

/-- A state that differs from `s` at most in memory, the L2 slices, and what they hold of views and metadata. -/
inductive State.SameButHome (s : State) : State → Prop where
  | mk (views : KMap View) (metas : KMap (List MetaEntry)) (mem : Mem) (l2 : List L2Line) :
      State.SameButHome s { s with views := views, metas := metas, mem := mem, l2 := l2 }

theorem State.SameButHome.eq (h : s.SameButHome t) :
    t = { s with views := t.views, metas := t.metas, mem := t.mem, l2 := t.l2 } := by
  cases h
  rfl

theorem State.SameButHome.refl : s.SameButHome s := .mk _ _ _ _

theorem State.SameButHome.trans (h : s.SameButHome t) (h' : t.SameButHome u) : s.SameButHome u := by
  cases h
  cases h'
  exact .mk _ _ _ _

theorem State.SameButHome.foldl {α : Type} {f : State → α → State} {xs : List α}
    (hf : ∀ (s : State) x, s.SameButHome (f s x)) : s.SameButHome (xs.foldl f s) := by
  induction xs generalizing s with
  | nil => exact .refl
  | cons x xs ih => exact (hf s x).trans ih

theorem State.sameButHome_homeWord {c pa w} : s.SameButHome (s.homeWord c pa w) := by
  rw [s.homeWord_eq]
  exact .mk _ _ _ _

theorem State.sameButHome_viewBack {key} : s.SameButHome (s.viewBack key) := by
  unfold State.viewBack
  split
  · exact .refl
  split
  · exact .refl
  · refine .trans (.foldl fun s k => ?_) (.mk _ _ _ _)
    split
    · exact .trans (.foldl fun _ _ => State.sameButHome_homeWord) (.mk _ _ _ _)
    · exact .refl

theorem State.sameButHome_viewOut {key} : s.SameButHome (s.viewOut key) := State.sameButHome_viewBack.trans (.mk _ _ _ _)

theorem State.sameButHome_metaBack {e} : s.SameButHome (s.metaBack e) := by
  unfold State.metaBack
  split
  · exact .foldl fun _ _ => State.sameButHome_homeWord
  · exact .refl

theorem State.sameButHome_metaOut {f} : s.SameButHome (s.metaOut f) :=
  .trans (.mk _ _ _ _) (.foldl fun _ _ => .foldl fun _ _ => State.sameButHome_metaBack)

theorem State.sameButHome_closeAperture {n} : s.SameButHome (s.closeAperture p n) := by
  unfold State.closeAperture
  extract_lets a s1
  have h1 : s.SameButHome s1 := .foldl fun _ _ => State.sameButHome_viewOut
  split
  · exact h1
  · exact h1.trans State.sameButHome_metaOut

end Sys2Proof.Machine
end

section
/-! SUPPORT. Writes of the registers of pitches, of the mailbox and of apertures, case by case (R9, R339, R372, R443, R468). -/

namespace Sys2Proof.Machine

variable {s : State} {p : Nat} {v : BitVec 64}

/-! ## Registers of a pitch -/

theorem exec_registerWrite_frozen {off} (h : (s.pitch p).frozen = true) :
    exec (.registerWrite (.pitch p) off v) s = .next s := by
  show Host.Outcome.next (if (s.pitch p).frozen then s else _) = _
  rw [if_pos h]

theorem exec_registerWrite {off} (h : (s.pitch p).frozen = false) :
    exec (.registerWrite (.pitch p) off v) s = .next (s.writePitchReg p off v) := by
  show Host.Outcome.next (if (s.pitch p).frozen then s else _) = _
  rw [if_neg (by simp [h])]

/-- A register write that changes its pitch and nothing else. -/
theorem registerWrite_updPitch {off f} (hp : (s.pitches.get? p).isSome = true) (hf : (s.pitch p).frozen = false)
    (e : s.writePitchReg p off v = s.updPitch p f) :
    ∃ t, exec (.registerWrite (.pitch p) off v) s = .next t ∧ t = { s with pitches := t.pitches } ∧
      t.pitch p = f (s.pitch p) ∧ ∀ r, r ≠ p → t.pitch r = s.pitch r := by
  refine ⟨s.updPitch p f, ?_, State.updPitch_eq, State.updPitch_pitch hp, fun r hr => State.updPitch_pitch_ne hr⟩
  rw [exec_registerWrite hf, e]

theorem writePcreq_busy {w} (h : (s.pitch p).pcstat.getLsbD 0 = true) : s.writePcreq p w = s := if_pos h

theorem writePcreq_kill {w : Word} (hb : (s.pitch p).pcstat.getLsbD 0 = false) (hg : w.getLsbD 15 = true)
    (ho : w.toNat / 4096 % 4 = 2) :
    s.writePcreq p w = { s.updPitch p fun q => { q with pcreq := w &&& 0xFFFF, pcstat := q.pcstat ||| 1 } with
      agenda := s.agenda ++ [.event (.kill p)] } := by
  unfold State.writePcreq
  simp only [hb, hg, ho, State.updPitch_agenda]
  rfl

theorem writeCxcmd_bind {w : Word} (hb : (s.pitch p).cxstat.getLsbD 0 = false) (hg : w.getLsbD 15 = true)
    (ho : w.toNat / 4096 % 8 = 1) :
    s.writeCxcmd p w = { (s.updPitch p fun q => { q with cxcmd := w &&& 0xFFFF }).updPitch p fun q => { q with cxstat := 1 } with
      agenda := s.agenda ++ [.event (.contextBind p)] } := by
  unfold State.writeCxcmd
  simp only [hb, hg, ho, State.updPitch_agenda]
  rfl

/-! ## Writes of some bytes -/

/-- The bits of the bytes that a write names. -/
def byteMask (bytes : BitVec 8) : BitVec 64 :=
  (List.range 8).foldl (fun m k => if bytes.getLsbD k then m ||| (0xFF <<< (8 * k)) else m) 0

theorem State.mergeReg_eq {off bytes} : s.mergeReg p off v bytes =
    (v &&& byteMask bytes) ||| (s.regValue p off &&& ~~~(onesOf off) &&& ~~~(byteMask bytes)) := rfl

theorem byteMask_all : byteMask 0xFF = BitVec.allOnes 64 := by decide

theorem byteMask_low (i : Nat) : (byteMask 0x0F).getLsbD i = decide (i < 32) := by
  rw [show byteMask 0x0F = (BitVec.allOnes 32).setWidth 64 by decide, BitVec.getLsbD_setWidth, BitVec.getLsbD_allOnes]
  simp only [Bool.and_eq_right_iff_imp, decide_eq_true_eq]
  omega

theorem byteMask_high : byteMask 0xF0 = ~~~(byteMask 0x0F) := by decide

/-- A write of all bytes is the value. -/
theorem State.mergeReg_all {off} : s.mergeReg p off v 0xFF = v := by
  rw [State.mergeReg_eq, byteMask_all, BitVec.and_allOnes, BitVec.not_allOnes, BitVec.and_zero, BitVec.or_zero]

/-- The low half written: the high half is as the register read. -/
theorem State.mergeReg_low {off} (h : onesOf off = 0) :
    s.mergeReg p off v 0x0F = (s.regValue p off).extractLsb' 32 32 ++ v.extractLsb' 0 32 := by
  rw [State.mergeReg_eq, h]
  apply BitVec.eq_of_getLsbD_eq
  intro i hi
  simp only [BitVec.getLsbD_or, BitVec.getLsbD_and, BitVec.getLsbD_not, byteMask_low, BitVec.getLsbD_append,
    BitVec.getLsbD_extractLsb']
  by_cases hl : i < 32
  · simp [hl]
  · have hh : i - 32 < 32 := by omega
    have hs : 32 + (i - 32) = i := by omega
    simp [hl, hi, hh, hs]

/-- The high half written: of the low half, what clears by writing 1 is written 0. -/
theorem State.mergeReg_high {off} :
    (s.mergeReg p off v 0xF0).extractLsb' 0 32 = (s.regValue p off &&& ~~~(onesOf off)).extractLsb' 0 32 := by
  rw [State.mergeReg_eq, byteMask_high]
  apply BitVec.eq_of_getLsbD_eq
  intro i hi
  have hi' : i < 64 := by omega
  simp only [BitVec.getLsbD_or, BitVec.getLsbD_and, BitVec.getLsbD_not, byteMask_low, BitVec.getLsbD_extractLsb', Nat.zero_add]
  simp [hi, hi']

/-- The low half, with bits cleared that the whole lacks as well. -/
theorem extractLsb'_and_not (x m : Word) :
    (x.zeroExtend 64 &&& ~~~(m.zeroExtend 64)).extractLsb' 0 32 = x &&& ~~~m := by
  apply BitVec.eq_of_getLsbD_eq
  intro i hi
  have hi' : i < 64 := by omega
  simp only [BitVec.getLsbD_extractLsb', Nat.zero_add, BitVec.getLsbD_and, BitVec.getLsbD_not, BitVec.getLsbD_setWidth,
    hi, hi', decide_true, Bool.true_and]

theorem w1c_kept (old x mask : Word) : w1c old (x &&& ~~~mask) mask = old := by
  unfold w1c
  ext i hi
  simp only [BitVec.getElem_and, BitVec.getElem_not]
  cases mask[i] <;> simp

/-- A frozen pitch, or one whose link is down, takes no write. -/
theorem regBytes_closed {off bytes} (h : (s.pitch p).frozen = true ∨ s.linkDown p = true) :
    s.perform (.regBytes p off v bytes) = .next s :=
  if_pos (Bool.or_eq_true_iff.2 h)

/-- BUSY of a region operation is set: the write is ignored. -/
theorem regBytes_region_busy {off} (ho : off ∈ [0x000, 0x008, 0x010]) (hb : (s.pitch p).rlstat.getLsbD 4 = true) :
    s.perform (.regBytes p off v 0xFF) = .next s := by
  show s.writeBytes p off v 0xFF = .next s
  unfold State.writeBytes
  simp only [List.mem_cons, List.not_mem_nil, or_false] at ho
  obtain rfl | rfl | rfl := ho <;> simp only [hb, ite_self, if_true]

theorem regBytes_region_free {off} (ho : off ∈ [0x000, 0x008, 0x010]) (hb : (s.pitch p).rlstat.getLsbD 4 = false)
    (hf : (s.pitch p).frozen = false) (hl : s.linkDown p = false) :
    s.perform (.regBytes p off v 0xFF) =
      .next { s.updPitch p fun q => { q with rlstat := q.rlstat ||| 0x10 } with agenda := s.agenda ++ [.regRun p off v] } := by
  show s.writeBytes p off v 0xFF = _
  unfold State.writeBytes
  simp only [List.mem_cons, List.not_mem_nil, or_false] at ho
  obtain rfl | rfl | rfl := ho <;> simp only [hb, hf, hl, State.mergeReg_all, State.updPitch_agenda] <;> rfl

theorem regBytes_tlbinv_busy (hb : (s.pitch p).tlbBusy = true) : s.perform (.regBytes p 0x030 v 0xFF) = .next s := by
  show s.writeBytes p 0x030 v 0xFF = .next s
  unfold State.writeBytes
  simp only [hb, ite_self, if_true]

theorem regBytes_tlbinv_free (hb : (s.pitch p).tlbBusy = false) (hf : (s.pitch p).frozen = false)
    (hl : s.linkDown p = false) :
    s.perform (.regBytes p 0x030 v 0xFF) =
      .next { s.updPitch p fun q => { q with tlbBusy := true } with agenda := s.agenda ++ [.regRun p 0x030 v] } := by
  show s.writeBytes p 0x030 v 0xFF = _
  unfold State.writeBytes
  simp only [hb, hf, hl, State.mergeReg_all, State.updPitch_agenda]
  rfl

/-- The low half of `pcsave` written. -/
theorem regBytes_pcsave_low (hf : (s.pitch p).frozen = false) (hl : s.linkDown p = false) :
    s.perform (.regBytes p 0x100 v 0x0F) = .next (s.updPitch p fun q =>
      { q with pcsave := (s.pitch p).pcsave.extractLsb' 32 32 ++ v.extractLsb' 0 32 }) := by
  have hm : s.mergeReg p 0x100 v 0x0F = (s.pitch p).pcsave.extractLsb' 32 32 ++ v.extractLsb' 0 32 := State.mergeReg_low rfl
  show s.writeBytes p 0x100 v 0x0F = _
  unfold State.writeBytes
  simp only [hf, hl, hm]
  exact exec_registerWrite hf

/-- A write of the high half of `pcstat` clears none of its bits. -/
theorem regBytes_pcstat_high (hf : (s.pitch p).frozen = false) (hl : s.linkDown p = false) :
    s.perform (.regBytes p 0x118 v 0xF0) = .next (s.updPitch p fun q =>
      { q with pcstat := w1c q.pcstat ((s.pitch p).pcstat &&& ~~~6) 6 }) := by
  have hm : (s.mergeReg p 0x118 v 0xF0).extractLsb' 0 32 = (s.pitch p).pcstat &&& ~~~6 := by
    rw [State.mergeReg_high]
    exact extractLsb'_and_not (s.pitch p).pcstat 6
  show s.writeBytes p 0x118 v 0xF0 = _
  unfold State.writeBytes
  simp only [hf, hl]
  rw [← hm]
  exact exec_registerWrite hf

/-! ## Operations that run -/

theorem regRun_region {off : Nat} (ho : off ≠ 0x030) :
    s.perform (.regRun p off v) = exec (regEvent p off v) (s.again p) := by
  show exec (regEvent p off v) (s.updPitch p _) = _
  rw [State.updPitch_same fun q => if_neg ho]

theorem regRun_tlbinv : s.perform (.regRun p 0x030 v) =
    exec (.tlbinv p v) (s.updPitch p fun q => { q with tlbBusy := false }) := rfl

theorem regRun_rlink : s.perform (.regRun p 0x000 v) = exec (.rlink p v) s := by
  rw [regRun_region (by decide)]
  exact congrArg Host.Outcome.next State.again_rlink

theorem regRun_rsync : s.perform (.regRun p 0x008 v) = exec (.rsync p v) s := by
  rw [regRun_region (by decide)]
  exact congrArg Host.Outcome.next State.again_rsync

theorem regRun_runlink : s.perform (.regRun p 0x010 v) = exec (.runlink p v) s := by
  rw [regRun_region (by decide)]
  exact congrArg Host.Outcome.next State.again_runlink

/-! ## The mailbox -/

theorem registerWrite_mbaddr (h : s.lantern.mbstat.getLsbD 0 = false) : exec (.registerWrite .mailbox 0x000 v) s =
    .next { s with lantern := { s.lantern with mbaddr := v &&& 0xFFFFFFFFFFFFFF80 } } := by
  show Host.Outcome.next (if s.lantern.mbstat.getLsbD 0 then s else _) = _
  rw [if_neg (by simp only [h]; decide)]

/-- The limit of the power is held between 1,000 and what the package bears. -/
theorem registerWrite_pwrlim : exec (.registerWrite .mailbox 0x018 v) s = .next { s with lantern := { s.lantern with
    pwrlim := BitVec.ofNat 32 (min s.code.packageLimit (max 1000 (v.toNat % 65536))) } } := rfl

theorem packageLimit_8 (h : s.code ≠ .zlm4P) : s.code.packageLimit = 6500 := if_neg h

theorem and_mod_256 (h : v.toNat % 256 = 4) : (v &&& 0x8000FFFFFFFF00FF).toNat % 256 = 4 := by
  rw [BitVec.toNat_and, show 256 = 2 ^ 8 from rfl, Nat.and_mod_two_pow, show v.toNat % 2 ^ 8 = 4 from h]
  rfl

/-- GO of `mbcmd` with OP 4 starts the snapshot of the sensors. -/
theorem registerWrite_mbcmd_snapshot (hb : s.lantern.mbstat.getLsbD 0 = false) (hg : v.getLsbD 63 = true)
    (ho : v.toNat % 256 = 4) : exec (.registerWrite .mailbox 0x008 v) s = .next { s with
      lantern := { s.lantern with mbcmd := v &&& 0x8000FFFFFFFF00FF, mbstat := 1 }
      agenda := s.agenda ++ [.event .sensorSnapshot] } := by
  have h63 : (v &&& 0x8000FFFFFFFF00FF).getLsbD 63 = true := by
    rw [BitVec.getLsbD_and, hg]
    rfl
  have hop : State.mailOp { s with lantern := { s.lantern with mbcmd := v &&& 0x8000FFFFFFFF00FF, mbstat := 1 } } = 4 := by
    unfold State.mailOp
    dsimp only
    rw [if_pos h63, and_mod_256 ho]
  show Host.Outcome.next (s.writeMbcmd v) = _
  unfold State.writeMbcmd State.mailEvent
  simp only [hb, hg, hop]
  rfl

/-! ## Apertures -/

variable {a : Aperture} {n word : Nat}

/-- While EN is set, only EN can change. -/
theorem Aperture.set_enabled (h : a.en = true) (hw : word < 4) :
    a.set word v = { a with en := if word = 2 then v.getLsbD 32 else true } := by
  have ha : { a with en := true } = a := by
    rw [← h]
  obtain rfl | rfl | rfl | rfl : word = 0 ∨ word = 1 ∨ word = 2 ∨ word = 3 := by omega
  · exact (if_pos h).trans ha.symm
  · exact (if_pos h).trans ha.symm
  · exact if_pos h
  · exact (if_pos h).trans ha.symm

theorem Aperture.set_buf (h : a.en = false) : a.set 0 v = { a with buf := v.toNat / 2 ^ 12 % 2 ^ 40 * 2 ^ 12 } :=
  if_neg (Bool.eq_false_iff.1 h)

theorem Aperture.set_md (h : a.en = false) : a.set 1 v = { a with md := v.toNat / 2 ^ 5 % 2 ^ 47 * 2 ^ 5 } :=
  if_neg (Bool.eq_false_iff.1 h)

theorem Aperture.set_size (h : a.en = false) :
    a.set 3 v = { a with rows := v.toNat % 2 ^ 20, cols := v.toNat / 2 ^ 32 % 2 ^ 20 } :=
  if_neg (Bool.eq_false_iff.1 h)

/-- EN is set where XF and ESZ are not reserved. -/
theorem Aperture.set_en (h : a.en = false) (hv : v.getLsbD 32 = true) (hx : v.toNat / 2 ^ 33 % 8 < 5)
    (he : v.toNat / 2 ^ 36 % 4 < 3) : a.set 2 v =
      { a with len := v.toNat % 2 ^ 24, xf := v.toNat / 2 ^ 33 % 8, esz := v.toNat / 2 ^ 36 % 4, en := true } := by
  have hr : ¬ (5 ≤ v.toNat / 2 ^ 33 % 8 ∨ v.toNat / 2 ^ 36 % 4 = 3) := by omega
  simp only [Aperture.set, h, hv, Bool.false_eq_true, if_false, Bool.true_and, Bool.or_eq_true, decide_eq_true_eq,
    beq_iff_eq, if_neg hr]

/-- A write of an aperture changes that aperture of its pitch, and what closing it changes. -/
theorem exec_apertureWrite (hp : (s.pitches.get? p).isSome = true) : ∃ t, exec (.apertureWrite p n word v) s = .next t ∧
    t = { s with pitches := t.pitches, views := t.views, metas := t.metas, mem := t.mem, l2 := t.l2 } ∧
    t.pitch p = { s.pitch p with
      apert := KMap.set (s.pitch p).apert n (((s.pitch p).apert.getD n .off).set word v) .off } := by
  show ∃ t, execApertureWrite p n word v s = _ ∧ _
  unfold execApertureWrite
  extract_lets a s1
  have hs : s.SameButHome s1 := by
    unfold s1
    split
    · exact .refl
    · exact State.sameButHome_closeAperture
  clear_value s1
  cases hs
  refine ⟨_, rfl, ?_, State.updPitch_pitch hp⟩
  unfold State.updPitch
  split <;> rfl

end Sys2Proof.Machine
end

section
/-! Writes of registers that are reached from outside, put together clause by clause. -/

namespace Sys2Proof.Machine

/-- Settles O51: each register's write is computed from the model (`exec_registerWrite`, `regBytes_…`, `registerWrite_…`,
`exec_apertureWrite`), and a pitch that is written reads as the write left it (`State.updPitch_pitch`). -/
theorem registerWrites : Obligations.RegisterWrites := by
  unfold Obligations.RegisterWrites
  intro s p v hp q w wr
  have written {f} : (s.updPitch p f).pitch p = f q := State.updPitch_pitch hp
  refine ⟨fun hf off => exec_registerWrite_frozen hf, fun hf => ?_, ?_, registerWrite_mbaddr, rfl, ?_,
    fun hb hg ho => ⟨_, registerWrite_mbcmd_snapshot hb hg ho, rfl, rfl, rfl⟩, fun n word hw => ?_⟩
  case refine_1 =>
    have wrote {off x} (f) (e : s.writePitchReg p off v = s.updPitch p f) (hx : f q = x) : wr off x :=
      hx ▸ registerWrite_updPitch hp hf e
    refine ⟨wrote _ rfl rfl, wrote _ rfl rfl, wrote _ rfl rfl, wrote _ rfl rfl, wrote _ rfl rfl, wrote _ rfl rfl, wrote _ rfl rfl, wrote _ rfl rfl, wrote _ rfl rfl, wrote _ rfl rfl,
      wrote _ rfl rfl, wrote _ rfl rfl, fun hb => ?_, fun hb hg ho => ?_, fun hb hg ho => ?_⟩
    · exact ⟨s, (exec_registerWrite hf).trans (congrArg _ (writePcreq_busy hb)), rfl, rfl, fun _ _ => rfl⟩
    · exact ⟨_, (exec_registerWrite hf).trans (congrArg _ (writePcreq_kill hb hg ho)), rfl, written⟩
    · refine ⟨_, (exec_registerWrite hf).trans (congrArg _ (writeCxcmd_bind hb hg ho)), rfl, ?_⟩
      refine (State.updPitch_pitch (State.updPitch_isSome hp)).trans ?_
      rw [written]
  case refine_2 =>
    refine ⟨fun off ho => ⟨regBytes_region_busy ho, fun hb hf hl => ⟨_, regBytes_region_free ho hb hf hl, rfl, written⟩⟩,
      regBytes_tlbinv_busy, fun hb hf hl => ⟨_, regBytes_tlbinv_free hb hf hl, rfl, written⟩,
      regRun_rlink, regRun_rsync, regRun_runlink, ⟨_, written, regRun_tlbinv⟩, fun h off => regBytes_closed h,
      fun hf hl => ⟨⟨_, regBytes_pcsave_low hf hl, written⟩, _, regBytes_pcstat_high hf hl, ?_⟩⟩
    rw [written, w1c_kept]
  case refine_3 =>
    refine ⟨_, registerWrite_pwrlim, rfl, fun hc hv => ?_⟩
    have hw : w.toNat % 65536 = v.toNat % 65536 := by
      rw [BitVec.extractLsb'_toNat, Nat.shiftRight_zero, Nat.mod_mod_of_dvd _ (by decide)]
    rw [hw] at hv ⊢
    rw [packageLimit_8 hc, max_eq_right hv, BitVec.toNat_ofNat, Nat.mod_eq_of_lt (by omega)]
  case refine_4 =>
    obtain ⟨t, ht, hs, ha⟩ := exec_apertureWrite (n := n) (word := word) (v := v) hp
    refine ⟨t, ht, hs, ?_⟩
    have hx : (t.pitch p).apert = KMap.set q.apert n ((q.apert.getD n .off).set word v) .off := congrArg Pitch.apert ha
    have same : (t.pitch p).apert.getD n .off = (q.apert.getD n .off).set word v := by
      rw [hx, KMap.getD_set, if_pos rfl]
    refine ⟨?_, fun m hm => ?_, ?_⟩
    · rw [hx]
      exact ha
    · rw [hx, KMap.getD_set_ne _ _ _ _ hm]
    · rw [same]
      exact ⟨fun h => Aperture.set_enabled h hw, fun h e => e ▸ Aperture.set_buf h, fun h e => e ▸ Aperture.set_md h,
        fun h e => e ▸ Aperture.set_size h, fun h e hv hx => e ▸ Aperture.set_en h hv hx.1 hx.2⟩

end Sys2Proof.Machine
end

section
/-! The state after reset: what each table and memory read there, put together clause by clause. -/

namespace Sys2Proof.Machine

@[simp] theorem KMap.getD_nil {α : Type} (k : Nat) (d : α) : KMap.getD ([] : KMap α) k d = d := by
  rw [KMap.getD, KMap.get?_nil, Option.getD_none]

/-- A byte that nothing has written reads 0 (DESIGN CHOICE, log 31). -/
@[simp] theorem Mem.byte_empty (a : Nat) : Mem.empty.byte a = 0 := KMap.getD_nil a 0

@[simp] theorem State.reset_core (k : Nat) : State.reset.core k = Core.reset := KMap.getD_nil k _
@[simp] theorem State.reset_pitch (p : Nat) : State.reset.pitch p = Pitch.reset := KMap.getD_nil p _
@[simp] theorem State.reset_ctx (c : Nat) : State.reset.ctx c = Context.absent := KMap.getD_nil c _

/-- Every aperture of a pitch is off at reset (R372). -/
theorem Pitch.reset_apert (n : Nat) : Pitch.reset.apert.getD n .off = .off := KMap.getD_nil n _

/-- Every bound register of a context reads −∞, +∞ and ACT 0 until it is written (R34). -/
theorem Context.absent_bounds (n : Nat) : KMap.getD Context.absent.bounds n Bound.reset = ⟨0xFF800000, 0x7F800000, 0⟩ :=
  KMap.getD_nil n _

/-- Settles O59: no table of the state lists an entry, so every read of a core, a pitch or a context gives that part's reset
value (`State.reset_core`, `State.reset_pitch`, `State.reset_ctx`), whose registers then read as the rules give them. -/
theorem resetState : Obligations.ResetState := by
  unfold Obligations.ResetState
  extract_lets s
  refine ⟨rfl, rfl, rfl, rfl, rfl, rfl, rfl, rfl, rfl, rfl, rfl, rfl, rfl, rfl, rfl, rfl, rfl, rfl, rfl,
    Mem.wf_empty, Mem.byte_empty, rfl, rfl, rfl, rfl, rfl, fun k => ?core, fun p => ?pitch, fun c n => ?bounds⟩
  case core =>
    rw [State.reset_core]
    exact ⟨rfl, rfl, rfl, rfl⟩
  case pitch =>
    rw [State.reset_pitch]
    exact ⟨rfl, rfl, rfl, rfl, rfl, rfl, Pitch.reset_apert⟩
  case bounds =>
    rw [State.reset_ctx]
    exact Context.absent_bounds n

end Sys2Proof.Machine
end

section
/-! A change of one warp, and its lanes: rules that several of the proofs below use. -/

namespace Sys2Proof.Machine

/-- A change of one warp, as a change of the table of warps alone. -/
theorem State.updWarp_eq (s : State) (wid : Nat) (f : Warp → Warp) : s.updWarp wid f = { s with warps := (s.updWarp wid f).warps } := by
  unfold State.updWarp
  split <;> rfl

theorem State.updWarp_there {s : State} {wid : Nat} (h : (s.warps.get? wid).isSome = true) (f : Warp → Warp) :
    s.updWarp wid f = s.setWarp wid (f (s.warp wid)) := by
  obtain ⟨w, hw⟩ := Option.isSome_iff_exists.1 h
  simp only [State.updWarp, State.warp, KMap.getD, hw, Option.getD_some]

theorem Warp.lane_mem {w : Warp} {l : Nat} (h : l < w.lanes.length) : w.lane l ∈ w.lanes := by
  simp [Warp.lane, h]

end Sys2Proof.Machine
end

section
/-! A step that issues a bundle (R55, R122, R138, R331, R394): what it runs, and what follows the instruction. -/

namespace Sys2Proof.Machine

/-! ## What follows an instruction -/

/-- A lane that differs only in what follows an instruction: its age, its meeting point, and the bundle it is in. -/
def Thread.Settles (t u : Thread) : Prop := u = { t with age := u.age, mr := u.mr, status := u.status, bid := u.bid }

theorem Thread.Settles.refl (t : Thread) : t.Settles t := rfl

theorem Thread.Settles.trans {t u v : Thread} (h : t.Settles u) (h' : u.Settles v) : t.Settles v := by
  unfold Thread.Settles at h h' ⊢
  rw [h', h]

/-- A warp that differs only in what follows an instruction of its core. -/
def Warp.Settles (w x : Warp) : Prop := x = { w with lanes := x.lanes, next := x.next } ∧ ∀ l, (w.lane l).Settles (x.lane l)

theorem Warp.Settles.trans {w x y : Warp} (h : w.Settles x) (h' : x.Settles y) : w.Settles y :=
  ⟨by rw [h'.1, h.1], fun l => (h.2 l).trans (h'.2 l)⟩

theorem Warp.Settles.refl (w : Warp) : w.Settles w := ⟨rfl, fun _ => rfl⟩

theorem Warp.settles_mapLanes {w : Warp} {f : Nat → Thread → Thread} (hf : ∀ (l : Nat) (t : Thread), t.Settles (f l t)) (n : Nat) :
    w.Settles { w.mapLanes f with next := n } := by
  refine ⟨rfl, fun l => ?_⟩
  by_cases h : l < w.lanes.length
  · rw [show Warp.lane { w.mapLanes f with next := n } l = _ from Warp.lane_mapLanes w f l h]
    exact hf l _
  · have out (x : Warp) (hx : x.lanes.length = w.lanes.length) : x.lane l = .absent := by
      simp [Warp.lane, hx, Nat.le_of_not_lt h]
    rw [out w rfl, out { w.mapLanes f with next := n } (Warp.length_mapLanes w f)]
    exact Thread.Settles.refl _

/-- Meeting points looked at again: threads that nobody awaits are set free (R57). -/
theorem Warp.settles_release (w : Warp) (now : Nat) : w.Settles (w.release now) :=
  Warp.settles_mapLanes (fun l t => by dsimp only; split <;> rfl) _

theorem State.settles_updWarp {s : State} {wid : Nat} {f : Warp → Warp} (hf : ∀ w : Warp, w.Settles (f w)) (v : Nat) :
    (s.warp v).Settles ((s.updWarp wid f).warp v) := by
  by_cases hv : v = wid
  · subst hv
    cases h : (s.warps.get? v).isSome with
    | true =>
      rw [State.warp_updWarp s v f h]
      exact hf _
    | false =>
      rw [State.updWarp, Option.isSome_eq_false_iff.1 h |> Option.isNone_iff_eq_none.1]
      exact Warp.Settles.refl _
  · rw [State.warp_updWarp_ne s f hv]
    exact Warp.Settles.refl _

/-- The ages of the threads of a core after an issue (R394). -/
theorem State.settles_aged (s : State) (wid bid : Nat) (m : Word) (v : Nat) :
    (s.warp v).Settles ((s.aged wid bid m).warp v) := by
  unfold State.warp KMap.getD State.aged
  dsimp only
  rw [KMap.get?_mapv]
  cases s.warps.get? v with
  | none => exact Warp.Settles.refl _
  | some w =>
    dsimp only [Option.map_some, Option.getD_some]
    split
    · refine Warp.settles_mapLanes (fun l t => ?_) _
      split
      · rfl
      · split <;> rfl
    · exact Warp.Settles.refl _

section
variable (t s : State) (wid bid : Nat)

theorem State.settled_rest : t.settled s wid bid =
    { t with warps := (t.settled s wid bid).warps, cores := (t.settled s wid bid).cores } := by
  unfold State.settled State.releaseHeld
  split
  · rw [State.updWarp_eq]
    rfl
  · rfl

theorem State.settled_core (c : Nat) :
    (t.settled s wid bid).core c = { t.core c with taken := ((t.settled s wid bid).core c).taken } := by
  unfold State.settled State.releaseHeld
  split
  · rw [State.core_updWarp, State.core_updCore]
    split
    next h => rw [h]; rfl
    next => rfl
  · rfl

theorem State.settled_warp (w : Nat) : (t.warp w).Settles ((t.settled s wid bid).warp w) := by
  unfold State.settled State.releaseHeld
  split
  · exact (State.settles_aged t wid bid _ w).trans (State.settles_updWarp (fun x => x.settles_release _) w)
  · exact Warp.Settles.refl _

end

/-! ## The instruction that a step runs -/

/-- What a step makes of an outcome of the bundle that issues: ages, slots and meeting points, and one cycle. -/
def State.stepped (u : State) (wid bid : Nat) (o : Out) : Out :=
  match o with
  | .next t => .next ((t.settled u wid bid).tick 1)
  | x => x

/-- A step whose turn it is to issue a bundle that may issue. -/
theorem step_issue {s : State} {wid bid : Nat} {rest : List Pick} (ha : s.agenda = .issue wid bid :: rest) (hl : s.life ≠ .dead)
    (hm : State.mayIssue { s with agenda := rest } wid bid = true) :
    step s = State.stepped { s with agenda := rest } wid bid (State.issueBundle { s with agenda := rest } wid bid) := by
  have live : (s.life == .dead) = false := by simpa using hl
  have pick : s.nextPick = (.issue wid bid, { s with agenda := rest }) := by rw [State.nextPick, ha]
  simp only [step, live, Bool.false_and, Bool.false_eq_true, if_false, pick, State.perform, State.issueNow, hm, if_true]
  cases State.issueBundle { s with agenda := rest } wid bid <;> rfl

/-- A bundle with nothing due before its instruction (R331) and no clause wait issues what it fetches. -/
theorem State.issueBundle_fetched {u v : State} {wid bid : Nat} {ws : List Word} (hf : u.frozenCore (warpCore wid) = false)
    (hh : u.halted wid = false) (ha : (u.warp wid).asyncDue = false) (hm : (u.atBundle wid bid).cur.mask ≠ 0)
    (hw : (u.atBundle wid bid).waitMask = 0) (hb : (u.atBundle wid bid).leader.body = 0) (hs : (u.atBundle wid bid).sfuPending = [])
    (he : (u.atBundle wid bid).engPending = []) (hfetch : (u.atBundle wid bid).fetch = (v, .ok ws)) :
    u.issueBundle wid bid = v.issueWords ws := by
  simp only [State.issueBundle, hf, hh, ha, hb, hs, he, State.issueNext, hw, hfetch, Bool.or_self, Bool.false_eq_true, if_false,
    if_neg hm, bne_self_eq_false, List.isEmpty_nil, Bool.not_true, if_true]

/-- Words that no slot of Rennet stalls or claims (R143, R466). -/
theorem State.issueWords_unclaimed {v : State} {ws : List Word} (hl : v.loadStalls (bitsOfWords ws) = false)
    (hc : v.claim (bitsOfWords ws) = none) : v.issueWords ws = v.runOne (unclaimed (v.decoded (bitsOfWords ws))) := by
  simp [State.issueWords, hl, hc]

theorem State.decoded_eq {v : State} {x : BitVec 96} (h : ∀ e, decode x ≠ .notAnInstruction e) : v.decoded x = decode x := by
  unfold State.decoded
  split
  next e he => exact absurd he (h e)
  next => rfl

/-- The forms that only Rennet executes are the only ones that are illegal where no slot claims them (R467). -/
theorem unclaimed_eq {i : Instr} (h : ∀ f, i ≠ .fmac f ∧ i ≠ .brcx f) : unclaimed i = i := by
  unfold unclaimed
  split
  next f => exact absurd rfl (h f).1
  next f => exact absurd rfl (h f).2
  next => rfl

theorem State.runOne_depend {v : State} {i : Instr} (h : v.badLock i = none) :
    v.runOne i = match v.dependOn i with
      | none => .next v
      | some w => exec i w := by
  rw [State.runOne, h] <;> rfl

/-- Settles O57: `State.settled` changes what `Thread.Settles` and `Warp.Settles` name, and the step runs what the words decode
to (`step_issue`, `State.issueBundle_fetched`, `State.issueWords_unclaimed`). -/
theorem stepRunsDecoded : Obligations.StepRunsDecoded := by
  unfold Obligations.StepRunsDecoded
  refine ⟨fun s t wid bid => ⟨t.settled_rest s wid bid, t.settled_core s wid bid, t.settled_warp s wid bid⟩, ?_⟩
  intro s v wid bid rest ws hagenda hlife u b i after hmay hfrozen hhalted hasync hmask hwait hbody hsfu heng hfetch hstall hclaim
  have run : step s = u.stepped wid bid (v.runOne (unclaimed (v.decoded (bitsOfWords ws)))) := by
    rw [step_issue hagenda hlife hmay, State.issueBundle_fetched hfrozen hhalted hasync hmask hwait hbody hsfu heng hfetch,
      State.issueWords_unclaimed hstall hclaim]
  have instr (hi : ∀ e, i ≠ .notAnInstruction e) (hr : ∀ f, i ≠ .fmac f ∧ i ≠ .brcx f) (hb : v.badLock i = none) :
      step s = u.stepped wid bid (match v.dependOn i with
        | none => .next v
        | some w => exec i w) := by
    rw [run, State.decoded_eq hi, unclaimed_eq hr, State.runOne_depend hb]
  refine ⟨fun w hi hr hb hd => ?_, fun hi hr hb hd => ?_, fun f => ⟨fun hi => ?_, fun hi => ?_⟩⟩
  · rw [instr hi hr hb, hd]
    rfl
  · rw [instr hi hr hb, hd]
    rfl
  · have decoded : v.decoded (bitsOfWords ws) = .fmac f := (State.decoded_eq fun e he => by simp [i, he] at hi).trans hi
    rw [run, decoded]
    rfl
  · have decoded : v.decoded (bitsOfWords ws) = .brcx f := (State.decoded_eq fun e he => by simp [i, he] at hi).trans hi
    rw [run, decoded]
    rfl

end Sys2Proof.Machine
end

section
/-! Regroup points and the end of a `YIELD` (R54, R55, R57, R133, R208): what each lane of the warp becomes. -/

namespace Sys2Proof.Machine

/-! ## The bundle former -/

/-- The addresses of the threads that the bundle former places, each once. -/
def Warp.places (w : Warp) : List (BitVec 64) := firsts ((w.lanes.filter Thread.placeable).map Thread.fullPc)

/-- The threads that the bundle former places at an address. -/
def Warp.gathered (w : Warp) (a : BitVec 64) : List Thread := (w.lanes.filter Thread.placeable).filter fun t => t.fullPc == a

/-- The threads at the `k`-th address are one whole bundle that keeps its number. -/
def Warp.keeps (w : Warp) (k : Nat) (a : BitVec 64) : Bool :=
  match w.gathered a with
  | [] => true
  | t :: ts =>
    t.status == .ready && (ts.all fun u => u.status == .ready && u.bid == t.bid) &&
      !((w.places.take k).any fun b => (w.gathered b).any fun u => u.bid == t.bid)

theorem Warp.regroup_lane (w : Warp) {l : Nat} (h : l < w.lanes.length) :
    w.regroup.lane l = if (w.lane l).placeable then
        if w.keeps (w.places.idxOf (w.lane l).fullPc) (w.lane l).fullPc then w.lane l
        else { w.lane l with status := .ready, bid := w.next + w.places.idxOf (w.lane l).fullPc }
      else w.lane l :=
  Warp.lane_mapLanes w _ l h

theorem Warp.mem_gathered {w : Warp} {l : Nat} (h : l < w.lanes.length) (hp : (w.lane l).placeable = true) :
    w.lane l ∈ w.gathered (w.lane l).fullPc := by
  simp [Warp.gathered, Warp.lane_mem h, hp]

theorem Warp.mem_places {w : Warp} {l : Nat} (h : l < w.lanes.length) (hp : (w.lane l).placeable = true) :
    (w.lane l).fullPc ∈ w.places := by
  rw [Warp.places, mem_firsts]
  exact List.mem_map_of_mem (List.mem_filter.2 ⟨Warp.lane_mem h, hp⟩)

/-- A bundle that keeps its number: its threads are ready, have one number, and no earlier address has a thread of that number. -/
theorem Warp.keeps_spec {w : Warp} {k : Nat} {a : BitVec 64} (h : w.keeps k a = true) {t : Thread} (ht : t ∈ w.gathered a) :
    t.status = .ready ∧ (∀ u ∈ w.gathered a, u.bid = t.bid) ∧ ∀ b ∈ w.places.take k, ∀ u ∈ w.gathered b, u.bid ≠ t.bid := by
  unfold Warp.keeps at h
  split at h
  next e =>
    rw [e] at ht
    exact absurd ht List.not_mem_nil
  next v vs e =>
    simp only [Bool.and_eq_true, beq_iff_eq, List.all_eq_true, Bool.not_eq_true', Bool.not_eq_true, List.any_eq_false] at h
    obtain ⟨⟨hv, hvs⟩, hb⟩ := h
    have same : ∀ u ∈ w.gathered a, u.status = .ready ∧ u.bid = v.bid := by
      rw [e]
      exact List.forall_mem_cons.2 ⟨⟨hv, rfl⟩, hvs⟩
    rw [(same t ht).2]
    exact ⟨(same t ht).1, fun u hu => (same u hu).2, hb⟩

/-! ## The lanes after a regroup -/

section
variable {w : Warp} {l k : Nat} (hl : l < w.lanes.length) (hk : k < w.lanes.length)
include hl

theorem Warp.regroup_lane_stays (hp : (w.lane l).placeable = false) : w.regroup.lane l = w.lane l := by
  rw [Warp.regroup_lane w hl, hp]
  rfl

theorem Warp.regroup_lane_placed (hp : (w.lane l).placeable = true) :
    w.regroup.lane l = { w.lane l with status := .ready, bid := (w.regroup.lane l).bid } := by
  rw [Warp.regroup_lane w hl, if_pos hp]
  split
  next h => rw [← (Warp.keeps_spec h (Warp.mem_gathered hl hp)).1]
  next => rfl

theorem Warp.regroup_bid (hp : (w.lane l).placeable = true) :
    (w.regroup.lane l).bid = if w.keeps (w.places.idxOf (w.lane l).fullPc) (w.lane l).fullPc then (w.lane l).bid
      else w.next + w.places.idxOf (w.lane l).fullPc := by
  rw [Warp.regroup_lane w hl, if_pos hp]
  split <;> rfl

include hk

theorem Warp.regroup_bid_same (hpl : (w.lane l).placeable = true) (hpk : (w.lane k).placeable = true)
    (ha : (w.lane l).fullPc = (w.lane k).fullPc) : (w.regroup.lane l).bid = (w.regroup.lane k).bid := by
  rw [Warp.regroup_bid hl hpl, Warp.regroup_bid hk hpk, ha]
  split
  next h => exact (Warp.keeps_spec h (Warp.mem_gathered hk hpk)).2.1 _ (ha ▸ Warp.mem_gathered hl hpl)
  next => rfl

/-- Threads at an earlier address get another number: a new one lies above the old ones, and of two bundles of one number the later
does not keep it. -/
theorem Warp.regroup_bid_lt (hpl : (w.lane l).placeable = true) (hpk : (w.lane k).placeable = true)
    (hbl : (w.lane l).bid < w.next) (hbk : (w.lane k).bid < w.next)
    (hi : w.places.idxOf (w.lane l).fullPc < w.places.idxOf (w.lane k).fullPc) :
    (w.regroup.lane l).bid ≠ (w.regroup.lane k).bid := by
  rw [Warp.regroup_bid hl hpl, Warp.regroup_bid hk hpk]
  split <;> split
  next _ h =>
    have before : (w.lane l).fullPc ∈ w.places.take (w.places.idxOf (w.lane k).fullPc) :=
      List.mem_take_iff_idxOf_lt (Warp.mem_places hl hpl) |>.2 hi
    exact (Warp.keeps_spec h (Warp.mem_gathered hk hpk)).2.2 _ before _ (Warp.mem_gathered hl hpl)
  all_goals omega

theorem Warp.regroup_bid_iff (hpl : (w.lane l).placeable = true) (hpk : (w.lane k).placeable = true)
    (hbl : (w.lane l).bid < w.next) (hbk : (w.lane k).bid < w.next) :
    (w.regroup.lane l).bid = (w.regroup.lane k).bid ↔ (w.lane l).fullPc = (w.lane k).fullPc := by
  refine ⟨fun h => ?_, Warp.regroup_bid_same hl hk hpl hpk⟩
  by_contra hne
  have hi : w.places.idxOf (w.lane l).fullPc ≠ w.places.idxOf (w.lane k).fullPc := fun e =>
    hne ((List.idxOf_inj (Warp.mem_places hl hpl)).1 e)
  rcases Nat.lt_or_gt_of_ne hi with hlt | hgt
  · exact Warp.regroup_bid_lt hl hk hpl hpk hbl hbk hlt h
  · exact Warp.regroup_bid_lt hk hl hpk hpl hbk hbl hgt h.symm

end

/-! ## The events -/

/-- The warp at a regroup point before the bundle former runs: parked bundles set free, meeting points looked at again. -/
theorem State.beforeRegroup_eq (s : State) (wid : Nat) :
    ∃ f g, (s.unpark wid).releaseHeld wid = s.updWarp wid fun w => (w.mapLanes f).release g :=
  ⟨_, _, State.updWarp_updWarp _ _ _ _⟩

@[simp] theorem Warp.length_release (w : Warp) (now : Nat) : (w.release now).lanes.length = w.lanes.length :=
  Warp.length_mapLanes w _

/-- A `YIELD` that is over makes its thread ready again. -/
def Thread.endYield (t : Thread) (issued cycle : Nat) : Thread :=
  match t.status with
  | .yielded n since => if yieldOver n since cycle issued then t.wake cycle else t
  | _ => t

theorem exec_yieldExpiry (wid : Nat) (s : State) :
    exec (.yieldExpiry wid) s =
      .next (s.updWarp wid fun w => w.mapLanes fun _ t => t.endYield (s.core (warpCore wid)).issued s.cycle) := rfl

/-- A `YIELD` is over after another bundle's issue or 32 cycles (R208); a switch marker then parks the thread (R133). -/
theorem Thread.endYield_eq (t : Thread) (issued cycle : Nat) :
    t.endYield issued cycle = match t.status with
      | .yielded n since =>
        if n < issued ∨ since + 32 ≤ cycle then
          { t with status := if t.parks = true then .parked else if t.frames = [] then .joining else .ready,
                   parks := false, age := cycle }
        else t
      | _ => t := by
  unfold Thread.endYield
  split
  next n since _ =>
    have hover : yieldOver n since cycle issued = true ↔ n < issued ∨ since + 32 ≤ cycle := by simp [yieldOver]
    simp only [hover]
    split
    · unfold Thread.wake Thread.inHandler
      cases t.frames <;> simp
    · rfl
  next => rfl

/-- Settles O43: both events change the lanes of one warp, by `Warp.regroup` after the releases and by `Thread.endYield`. -/
theorem regrouping : Obligations.Regrouping := by
  unfold Obligations.Regrouping
  intro s wid hw hlen
  refine ⟨?point, ?yield⟩
  case point =>
    obtain ⟨f, g, e⟩ := s.beforeRegroup_eq wid
    have run : exec (.regroupPoint wid) s = .next (((s.unpark wid).releaseHeld wid).updWarp wid Warp.regroup) := rfl
    rw [run, e]
    extract_lets u
    intro hbid
    have hu : u.lanes.length = 32 := by
      rw [show u = _ from State.warp_updWarp s wid _ hw, Warp.length_release, Warp.length_mapLanes, hlen]
    have after : ((s.updWarp wid fun w => (w.mapLanes f).release g).updWarp wid Warp.regroup).warp wid = u.regroup :=
      State.warp_updWarp _ _ _ (State.isSome_updWarp s wid wid _ hw)
    refine ⟨_, rfl, ?_, fun v hv => ?_, fun l hl hp => ?_, fun l hl hp => ?_, fun l hl k hk hpl hpk => ?_⟩
    · rw [State.updWarp_updWarp]
      exact s.updWarp_eq wid _
    · rw [State.warp_updWarp_ne _ _ hv, State.warp_updWarp_ne _ _ hv]
    · rw [after]
      exact Warp.regroup_lane_stays (hu ▸ hl) hp
    · rw [after]
      exact Warp.regroup_lane_placed (hu ▸ hl) hp
    · rw [after]
      exact Warp.regroup_bid_iff (hu ▸ hl) (hu ▸ hk) hpl hpk (hbid l hl) (hbid k hk)
  case yield =>
    refine ⟨_, exec_yieldExpiry wid s, s.updWarp_eq wid _, fun v hv => State.warp_updWarp_ne s _ hv, fun l hl => ?_⟩
    rw [State.warp_updWarp s wid _ hw, Warp.lane_mapLanes _ _ _ (hlen ▸ hl)]
    exact Thread.endYield_eq _ _ _

end Sys2Proof.Machine
end

section
/-!
Taking a trap (R327, R329, R331): what a bundle's lanes become by changes that only touch them (`State.LanesTo`), and the entry of
one trap group into its handler (`State.LanesTo.enters`).
-/

namespace Sys2Proof.Machine

/-! ## Reads that lanes do not change -/

/-- A handler's address is read through the core's data translations and L1 alone: changes of warps, and of the rest of the cores,
do not matter. -/
theorem State.vector_congr {s t : State} (h : s.SameDevice t) {k : Nat} (hl : (t.core k).dtlb = (s.core k).dtlb)
    (hd : (t.core k).dirty = (s.core k).dirty) (hc : (t.core k).clean = (s.core k).clean) (c cause : Nat) :
    t.vector k c cause = s.vector k c cause := by
  obtain ⟨w, cs, rfl⟩ := State.sameDevice_iff.1 h
  have held (pa : Nat) : (State.core { s with warps := w, cores := cs } k).held? pa = (s.core k).held? pa := by
    rw [Core.held?, hd, hc]
    rfl
  have look (va : Nat) : State.lookup { s with warps := w, cores := cs } k c va false = s.lookup k c va false := by
    simp only [State.lookup, Bool.false_eq_true, if_false, hl]
    rfl
  have read (p pa : Nat) : State.coreWord { s with warps := w, cores := cs } k p true pa = s.coreWord k p true pa := by
    rw [State.coreWord, held]
    rfl
  simp only [State.vector, State.vectorEntry, State.translate, look, read]
  rfl

/-- Writing back none of the queued SFU results changes nothing that is read. -/
theorem State.drainSfu_idle {s : State} {k : Nat} {p : SfuEntry → Bool} (h : ∀ e ∈ (s.core k).sfu, p e = false) :
    s.drainSfu k p = s.setCore k (s.core k) := by
  have none : (s.core k).sfu.filter p = [] := List.filter_eq_nil_iff.2 fun e he => by simp [h e he]
  have all : ((s.core k).sfu.filter fun e => !p e) = (s.core k).sfu := List.filter_eq_self.2 fun e he => by simp [h e he]
  rw [State.drainSfu, none, List.foldl_nil, State.updCore, all]

@[simp] theorem State.core_setCore_self (s : State) (k c : Nat) : (s.setCore k (s.core k)).core c = s.core c := by
  rw [State.core_setCore]
  split
  next h => rw [h]
  next => rfl

@[simp] theorem State.vector_setCore_self (s : State) (k core c cause : Nat) :
    (s.setCore k (s.core k)).vector core c cause = s.vector core c cause :=
  have same := State.core_setCore_self s k core
  State.vector_congr (State.sameDevice_iff.2 ⟨s.warps, _, rfl⟩) (congrArg Core.dtlb same) (congrArg Core.dirty same)
    (congrArg Core.clean same) c cause

/-! ## The lanes of a bundle -/

/-- A state that differs from another in the bundle's lanes, which are as `h` names, in the numbers that its warp has given out, `n`
being the next, and in the count of bundles that the core has issued. -/
structure State.LanesTo (s t : State) (n : Nat) (h : Nat → Thread) : Prop where
  device : s.SameDevice t
  elsewhere : s.SameElsewhere t
  there : (t.warps.get? s.cur.wid).isSome = true
  warp : t.warp s.cur.wid = { s.curWarp with lanes := (t.warp s.cur.wid).lanes, next := n }
  size : (t.warp s.cur.wid).lanes.length = 32
  lane : ∀ l < 32, (t.warp s.cur.wid).lane l = h l

namespace State.LanesTo

theorem refl {s : State} (hb : s.Bundled) : s.LanesTo s s.curWarp.next s.curWarp.lane :=
  ⟨rfl, ⟨fun _ _ => rfl, fun _ _ => rfl, rfl⟩, hb.1, rfl, hb.2, fun _ _ => rfl⟩

variable {s t : State} {n : Nat} {h : Nat → Thread}

theorem cur (e : s.LanesTo t n h) : t.cur = s.cur := by rw [e.device]

theorem curCore (e : s.LanesTo t n h) : t.curCore = s.curCore := by rw [State.curCore, e.cur, State.curCore]

theorem active (e : s.LanesTo t n h) (l : Nat) : t.active l = s.active l := by rw [State.active, e.cur, State.active]

theorem pc64 (e : s.LanesTo t n h) : t.pc64 = s.pc64 := by rw [State.pc64, e.cur, State.pc64]

theorem curCtx (e : s.LanesTo t n h) : t.curCtx = s.curCtx := by rw [e.device]; rfl

theorem ctx (e : s.LanesTo t n h) (c : Nat) : t.ctx c = s.ctx c := by rw [e.device]; rfl

theorem bundled (e : s.LanesTo t n h) : t.Bundled := by
  rw [State.Bundled, State.curWarp, e.cur]
  exact ⟨e.there, e.size⟩

theorem congr (e : s.LanesTo t n h) {h' : Nat → Thread} (hh : ∀ l < 32, h l = h' l) : s.LanesTo t n h' :=
  ⟨e.device, e.elsewhere, e.there, e.warp, e.size, fun l hl => (e.lane l hl).trans (hh l hl)⟩

/-- The lanes changed once more, and numbers given out. -/
theorem map (e : s.LanesTo t n h) (k : Nat → Thread → Thread) (m : Nat) :
    s.LanesTo (t.updWarp s.cur.wid fun w => { w.mapLanes k with next := m }) m fun l => k l (h l) := by
  have after := State.warp_updWarp t s.cur.wid (fun w => { w.mapLanes k with next := m }) e.there
  obtain ⟨others, cores, core⟩ := e.elsewhere
  refine ⟨e.device.trans ?_, ⟨fun v hv => ?_, fun c hc => ?_, ?_⟩, State.isSome_updWarp _ _ _ _ e.there, ?_, ?_, fun l hl => ?_⟩
  · exact State.sameDevice_iff.2 ⟨_, t.cores, t.updWarp_eq _ _⟩
  · rw [State.warp_updWarp_ne _ _ hv, others v hv]
  · rw [State.core_updWarp, cores c hc]
  · rw [State.core_updWarp]
    exact core
  · rw [after, e.warp]
    rfl
  · rw [after]
    exact (Warp.length_mapLanes _ _).trans e.size
  · rw [after, ← e.lane l hl]
    exact Warp.lane_mapLanes _ _ _ (e.size ▸ hl)

theorem lanes (e : s.LanesTo t n h) (k : Nat → Thread → Thread) :
    s.LanesTo (t.updWarp s.cur.wid fun w => w.mapLanes k) n fun l => k l (h l) := by
  have same : (t.updWarp s.cur.wid fun w => w.mapLanes k) = t.updWarp s.cur.wid fun w => { w.mapLanes k with next := n } := by
    refine State.updWarp_congr _ _ ?_
    rw [e.warp]
    rfl
  rw [same]
  exact e.map k n

/-- The core counts one more bundle issued, or stays as it is. -/
theorem core (e : s.LanesTo t n h) (x : Nat) :
    s.LanesTo (t.updCore s.curCore fun c => { c with issued := x }) n h := by
  obtain ⟨others, cores, same⟩ := e.elsewhere
  refine ⟨e.device.trans (State.sameDevice_iff.2 ⟨t.warps, _, rfl⟩), ⟨others, fun c hc => ?_, ?_⟩, e.there, e.warp, e.size, e.lane⟩
  · rw [State.core_updCore, if_neg hc, cores c hc]
  · rw [State.core_updCore_self, same]

theorem count (e : s.LanesTo t n h) : s.LanesTo (t.updCore t.curCore fun c => { c with issued := c.issued + 1 }) n h := by
  rw [e.curCore]
  exact e.core _

theorem otherKeep (e : s.LanesTo t n h) (hh : ∀ l < 32, s.active l = false → h l = s.curWarp.lane l) : s.OthersKeep t :=
  fun l hl ha => (e.lane l hl).trans (hh l hl ha)

end State.LanesTo

/-! ## One trap group -/

/-- Lanes that trap alike form one group (R329). -/
theorem trapGroups_alike (x : Trap) (l : Nat) (ls : List Nat) : trapGroups ((l :: ls).map fun k => (k, x)) = [(x, l :: ls)] := by
  induction ls generalizing l with
  | nil => rfl
  | cons k ks ih =>
    rw [List.map_cons, trapGroups, ih k]
    simp

theorem Warp.sfuSwap_none {w : Warp} {ts : List (Nat × Trap)} (h : ∀ e ∈ ts, (w.lane e.1).sfuFails = []) :
    (w.sfuSwap ts).1 = [] := by
  refine List.filterMap_eq_nil_iff.2 fun e he => ?_
  rw [h e he]

theorem State.trapLanes_calm {s : State} {wid : Nat} {ts : List (Nat × Trap)} (h : ∀ e ∈ ts, ((s.warp wid).lane e.1).sfuFails = [])
    (tam : Word) (pc tpc : BitVec 64) : s.trapLanes wid tam pc tpc ts = s.enterTraps wid tam tpc ts := by
  simp only [State.trapLanes, Warp.sfuSwap_none h, List.isEmpty_nil, if_true]

@[simp] theorem State.trapLanes_nil (s : State) (wid : Nat) (tam : Word) (pc tpc : BitVec 64) : s.trapLanes wid tam pc tpc [] = s := rfl

theorem getLsbD_bit (l k : Nat) : ((1 <<< l : Nat) : Word).getLsbD k = (decide (k < 32) && decide (l = k)) := by
  rw [Nat.one_shiftLeft, BitVec.natCast_eq_ofNat, BitVec.getLsbD_ofNat, Nat.testBit_two_pow]

theorem getLsbD_maskOfLanes {ls : List Nat} {l : Nat} (hl : l ∈ ls) (h32 : l < 32) : (maskOfLanes ls).getLsbD l = true := by
  have fold (ks : List Nat) (m : Word) (h : m.getLsbD l = true ∨ l ∈ ks) :
      (ks.foldl (fun (m : Word) k => m ||| ((1 <<< k : Nat) : Word)) m).getLsbD l = true := by
    induction ks generalizing m with
    | nil => simpa using h
    | cons k ks ih =>
      refine ih _ ?_
      rw [BitVec.getLsbD_or, getLsbD_bit]
      rcases h with hm | hk
      · simp [hm]
      · rcases List.mem_cons.1 hk with rfl | hk
        · simp [h32]
        · exact .inr hk
  exact fold ls 0 (.inr hl)

/-- The mask of lanes as the sum of their bits. -/
theorem maskOfLanes_eq {ls : List Nat} (hn : ls.Nodup) : maskOfLanes ls = BitVec.ofNat 32 ((ls.map fun k => 2 ^ k).sum) := by
  have fold (m : Word) (hm : ∀ l ∈ ls, m.getLsbD l = false) :
      ls.foldl (fun (m : Word) l => m ||| ((1 <<< l : Nat) : Word)) m = m + BitVec.ofNat 32 ((ls.map fun k => 2 ^ k).sum) := by
    induction ls generalizing m with
    | nil => simp
    | cons l ls ih =>
      obtain ⟨hl, hn⟩ := List.nodup_cons.1 hn
      have disjoint : m &&& ((1 <<< l : Nat) : Word) = 0#32 := by
        refine BitVec.eq_of_getLsbD_eq fun i _ => ?_
        rw [BitVec.getLsbD_and, getLsbD_bit, BitVec.getLsbD_zero]
        by_cases h : l = i
        · rw [← h, hm l List.mem_cons_self, Bool.false_and]
        · simp [h]
      have rest : ∀ k ∈ ls, (m ||| ((1 <<< l : Nat) : Word)).getLsbD k = false := fun k hk => by
        rw [BitVec.getLsbD_or, hm k (List.mem_cons_of_mem _ hk), getLsbD_bit]
        have ne : l ≠ k := fun e => hl (e ▸ hk)
        simp [ne]
      rw [List.foldl_cons, ih hn _ rest, ← BitVec.add_eq_or_of_and_eq_zero _ _ disjoint, List.map_cons, List.sum_cons,
        BitVec.ofNat_add, BitVec.add_assoc, Nat.one_shiftLeft, BitVec.natCast_eq_ofNat]
  exact (fold 0 fun _ _ => BitVec.getLsbD_zero).trans (BitVec.zero_add _)

theorem Thread.routines_nil {t : Thread} (h : ∀ g ∈ t.frames, g.emu = none) : t.routines = [] := by
  refine List.takeWhile_eq_nil_iff.2 fun hl => ?_
  rw [h _ (List.get_mem _ _)]
  exact Bool.false_ne_true

/-- A lane outside any routine enters a handler as itself (R462). -/
theorem Thread.leaveEmulation_eq {t : Thread} (h : ∀ g ∈ t.frames, g.emu = none) : t.leaveEmulation = t := by
  rw [Thread.leaveEmulation, Thread.routines_nil h]
  rfl

theorem Thread.trapPc_eq {t : Thread} (h : ∀ g ∈ t.frames, g.emu = none) (pc : BitVec 64) : t.trapPc pc = pc := by
  rw [Thread.trapPc, Thread.routines_nil h]
  rfl

theorem Thread.depth_eq {t : Thread} (h : ∀ g ∈ t.frames, g.emu = none) : t.depth = t.frames.length := by
  rw [Thread.depth, List.filter_eq_self.2 fun g hg => by rw [h g hg]; rfl]

/-- The entry of one group, where nothing of its lanes is queued: its frame is the one that `State.entered` names (R329). -/
theorem State.enterGroup_eq {s : State} {ls : List Nat} {x : Trap} {pc : Addr} (h : s.Enters ls x.cause pc) (hn : ls.Nodup)
    (tpc : BitVec 64) :
    s.enterGroup s.cur.wid s.cur.mask tpc x ls = (s.setCore s.curCore (s.core s.curCore)).setWarp s.cur.wid
      { (s.curWarp.mapLanes fun l t => if ls.contains l then s.entered ls x tpc pc l else t) with next := s.curWarp.next + 1 } := by
  obtain ⟨hne, hb, -, hre, hv, hq, hls⟩ := h
  have idle : ∀ e ∈ (s.core s.curCore).sfu, (e.wid == s.cur.wid && ls.contains e.lane) = false := fun e he => by simp [hq e he]
  obtain ⟨k, ks, hk⟩ := List.exists_cons_of_ne_nil hne
  have hd : ls.headD 0 = k := by rw [hk]; rfl
  rw [hd] at hls
  obtain ⟨-, -, -, hdeep, -, hemu⟩ := hls k (hk ▸ List.mem_cons_self)
  have first : ¬ 2 ≤ (s.curWarp.lane k).depth := by
    rw [Thread.depth_eq hemu]
    omega
  have calm : (s.curWarp.lane k).leaveEmulation = s.curWarp.lane k := Thread.leaveEmulation_eq hemu
  have hre0 : (s.setCore s.curCore (s.core s.curCore)).reclassify s.curCtx x.cause = (x.cause, 0) := hre
  have w0 : (s.setCore s.curCore (s.core s.curCore)).warp s.cur.wid = s.curWarp := rfl
  have core : warpCore s.cur.wid = s.curCore := rfl
  have ctx : s.ctxOf s.cur.wid = s.curCtx := rfl
  simp only [State.enterGroup, core, ctx, State.drainSfu_idle idle, hd, w0, calm, if_neg first, hre0, State.vector_setCore_self, hv]
  refine congrArg (fun w : Warp => State.setWarp _ _ { w with next := _ }) (Warp.mapLanes_congr _ fun l _ => ?_)
  split
  next hl =>
    obtain ⟨-, -, -, -, hlen, hemul⟩ := hls l (by simpa using hl)
    have zero : (s.curWarp.lane k).depth = 0 ↔ (s.curWarp.lane l).frames = [] := by
      rw [Thread.depth_eq hemu, ← hlen, List.length_eq_zero_iff]
    simp only [Thread.leaveEmulation_eq hemul, Thread.trapPc_eq hemu, zero, beq_self_eq_true, if_true, maskOfLanes_eq hn]
    rfl
  next => rfl

/-- Lanes of a bundle that trap alike enter their handler in one group: of their lanes only the clause window may have changed
before. -/
theorem State.LanesTo.enters {s t : State} {h : Nat → Thread} {ls : List Nat} {x : Trap} {pc : Addr}
    (e : s.LanesTo t s.curWarp.next h) (he : s.Enters ls x.cause pc) (hn : ls.Nodup)
    (hh : ∀ l ∈ ls, ∃ n m, h l = { s.curWarp.lane l with window := n, wmask := m }) (pc0 tpc : BitVec 64) :
    s.LanesTo (t.trapLanes s.cur.wid s.cur.mask pc0 tpc (ls.map fun l => (l, x))) (s.curWarp.next + 1)
      fun l => if l ∈ ls then s.entered ls x tpc pc l else h l := by
  obtain ⟨hne, hb, hret, hre, hv, hq, hls⟩ := he
  have same : t.core s.curCore = { s.core s.curCore with issued := (t.core s.curCore).issued } := e.elsewhere.2.2
  have lane : ∀ l ∈ ls, ∃ n m, t.curWarp.lane l = { s.curWarp.lane l with window := n, wmask := m } := fun l hl => by
    rw [State.curWarp, e.cur, e.lane l (hls l hl).2.1]
    exact hh l hl
  have frames : ∀ l ∈ ls, (t.curWarp.lane l).frames = (s.curWarp.lane l).frames ∧
      (t.curWarp.lane l).sfuFails = (s.curWarp.lane l).sfuFails := fun l hl => by
    obtain ⟨n, m, hlane⟩ := lane l hl
    rw [hlane]
    exact ⟨rfl, rfl⟩
  have there : t.Enters ls x.cause pc := by
    refine ⟨hne, e.bundled, ?_, ?_, ?_, ?_, fun l hl => ?_⟩
    · rw [e.curCtx, e.ctx, hret]
    · rw [e.curCtx, ← hre, e.device]
      rfl
    · rw [e.curCore, e.curCtx, ← hv]
      exact State.vector_congr e.device (by rw [same]) (by rw [same]) (by rw [same]) _ _
    · rw [e.curCore, same, e.cur]
      exact hq
    · obtain ⟨ha, h32, hf, hd, hsame, hemu⟩ := hls l hl
      have head : ls.headD 0 ∈ ls := by
        obtain ⟨k, ks, rfl⟩ := List.exists_cons_of_ne_nil hne
        exact List.mem_cons_self
      rw [(frames l hl).1, (frames l hl).2, (frames _ head).1, e.active]
      exact ⟨ha, h32, hf, hd, hsame, hemu⟩
  have next : t.curWarp.next = s.curWarp.next := by rw [State.curWarp, e.cur, e.warp]
  have time : t.time = s.time := by rw [e.device]; rfl
  have entered : ∀ l ∈ ls, t.entered ls x tpc pc l = s.entered ls x tpc pc l := fun l hl => by
    obtain ⟨n, m, hlane⟩ := lane l hl
    simp only [State.entered, hlane, next, time, e.cur]
  have run : t.trapLanes s.cur.wid s.cur.mask pc0 tpc (ls.map fun l => (l, x)) =
      (t.setCore s.curCore (t.core s.curCore)).updWarp s.cur.wid fun w =>
        { (w.mapLanes fun l u => if ls.contains l then t.entered ls x tpc pc l else u) with next := s.curWarp.next + 1 } := by
    have calm : ∀ k ∈ ls.map fun l => (l, x), ((t.warp s.cur.wid).lane k.1).sfuFails = [] := by
      intro k hk
      obtain ⟨l, hl, rfl⟩ := List.mem_map.1 hk
      rw [← e.cur]
      exact (frames l hl).2.trans (hls l hl).2.2.1
    have groups : trapGroups (ls.map fun l => (l, x)) = [(x, ls)] := by
      obtain ⟨k, ks, rfl⟩ := List.exists_cons_of_ne_nil hne
      exact trapGroups_alike x k ks
    have alive : (t.ctx (t.ctxOf s.cur.wid)).retired = false := by
      rw [← e.cur]
      exact there.2.2.1
    have enter := State.enterGroup_eq there hn tpc
    rw [e.cur, e.curCore, next, State.curWarp, e.cur] at enter
    rw [State.trapLanes_calm calm, State.enterTraps, groups, List.foldl_cons, List.foldl_nil, alive, if_neg Bool.false_ne_true, enter,
      State.updWarp_there]
    · rfl
    · exact e.there
  rw [run]
  refine ((e.core (t.core s.curCore).issued).map _ _).congr fun l hl => ?_
  by_cases hm : l ∈ ls
  · rw [if_pos hm, if_pos (by simpa using hm), entered l hm]
  · rw [if_neg hm, if_neg (by simpa using hm)]

/-- What is left of a bundle when some of its lanes trap alike: they enter the handler, and the others' clause window closes; a
switch marker may park those. -/
theorem State.LanesTo.finishAt {s t : State} {h : Nat → Thread} {ls : List Nat} {x : Trap} {pc : Addr}
    (e : s.LanesTo t s.curWarp.next h) (he : s.Enters ls x.cause pc) (hn : ls.Nodup)
    (hh : ∀ l ∈ ls, ∃ n m, h l = { s.curWarp.lane l with window := n, wmask := m }) (f : Fields) (tpc : BitVec 64) :
    ∃ h', s.LanesTo (t.finishAt f tpc (ls.map fun l => (l, x))) (s.curWarp.next + 1) h' ∧
      (∀ l ∈ ls, h' l = s.entered ls x tpc pc l) ∧ (∀ l < 32, s.active l = false → h' l = h l) ∧
      ∀ l < 32, s.active l = true → l ∉ ls →
        ∃ st pk, h' l = { h l with window := 0, wmask := 0, status := st, parks := pk } := by
  have nonempty : (ls.map fun l => (l, x)).isEmpty = false := by simpa using he.1
  have names : (ls.map fun l => (l, x)).map (·.1) = ls := by simp [Function.comp_def]
  have closed := e.count.lanes fun l u => if s.active l then { u with window := 0, wmask := 0 } else u
  have entered := closed.enters he hn (fun l hl => by
    obtain ⟨n, m, hlane⟩ := hh l hl
    rw [hlane, if_pos (he.2.2.2.2.2.2 l hl).1]
    exact ⟨0, 0, rfl⟩) s.pc64 tpc
  simp only [State.finishAt, nonempty, names, e.cur, e.pc64, e.active, Bool.false_eq_true, if_false]
  split
  · refine ⟨_, entered.lanes _, fun l hl => ?_, fun l h32 ha => ?_, fun l h32 ha hl => ?_⟩
    · have trapped : (s.cur.mask &&& ~~~maskOfLanes ls).getLsbD l = false := by
        have h32 := (he.2.2.2.2.2.2 l hl).2.1
        simp [getLsbD_maskOfLanes hl h32]
      simp only [if_pos hl, trapped, Bool.false_eq_true, if_false]
    · have out : l ∉ ls := fun hl => by simp [(he.2.2.2.2.2.2 l hl).1] at ha
      have idle : (s.cur.mask &&& ~~~maskOfLanes ls).getLsbD l = false := by
        have hm : s.cur.mask.getLsbD l = false := ha
        simp [hm]
      simp only [if_neg out, ha, idle, Bool.false_eq_true, if_false]
    · simp only [if_neg hl, ha, if_true]
      split
      · exact ⟨_, _, (Thread.marked_eq _ _).1⟩
      · exact ⟨_, _, rfl⟩
  · refine ⟨_, entered, fun l hl => if_pos hl, fun l h32 ha => ?_, fun l h32 ha hl => ?_⟩
    · have out : l ∉ ls := fun hl => by simp [(he.2.2.2.2.2.2 l hl).1] at ha
      simp only [if_neg out, ha, Bool.false_eq_true, if_false]
    · simp only [if_neg hl, ha, if_true]
      exact ⟨_, _, rfl⟩

end Sys2Proof.Machine
end

section
/-! Traps at an instruction (R137, R141, R142, R233, R329): `TRAP`, the checks at decode of every instruction, and `ADD` on bad sources. -/

namespace Sys2Proof.Machine

/-- The bundle after some of its lanes trapped alike, where the others took no trap. -/
theorem State.LanesTo.tookTrap {s t : State} {h : Nat → Thread} {ls : List Nat} {x : Trap} {tpc : BitVec 64} {pc : Addr}
    (e : s.LanesTo t (s.curWarp.next + 1) h) (h32 : ∀ l ∈ ls, l < 32) (hin : ∀ l ∈ ls, h l = s.entered ls x tpc pc l)
    (hidle : ∀ l < 32, s.active l = false → h l = s.curWarp.lane l)
    (hout : ∀ l < 32, s.active l = true → l ∉ ls → (s.curWarp.lane l).KeptAll (h l)) : s.TookTrap t ls x tpc pc := by
  refine ⟨e.device, e.elsewhere, e.otherKeep hidle, e.warp, fun l hl => ?_, fun l hl ha hm => ?_⟩
  · rw [e.lane l (h32 l hl), hin l hl]
  · rw [e.lane l hl]
    exact hout l hl ha hm

theorem State.nodup_lanesOf (m : Word) : (lanesOf m).Nodup := List.nodup_range.filter _

/-! ## `TRAP` -/

/-- A trap of every active lane (R137, R142). -/
theorem State.tookTrap_trapActive {s : State} {x : Trap} {pc : Addr} (h : s.Enters (lanesOf s.cur.mask) x.cause pc) :
    s.TookTrap (s.trapActive x) (lanesOf s.cur.mask) x s.pc64 pc := by
  have ends := (State.LanesTo.refl h.2.1).count.enters h (State.nodup_lanesOf _) (fun l _ => ⟨_, _, rfl⟩) s.pc64 s.pc64
  have active {l : Nat} (hl : l < 32) (ha : s.active l = true) : l ∈ lanesOf s.cur.mask := mem_lanesOf.2 ⟨hl, ha⟩
  have out {l : Nat} (ha : s.active l = false) : l ∉ lanesOf s.cur.mask := fun hm => by
    simp [State.active, (mem_lanesOf.1 hm).2] at ha
  exact ends.tookTrap (fun l hl => (mem_lanesOf.1 hl).1) (fun l hl => if_pos hl) (fun l _ ha => if_neg (out ha))
    fun l hl ha hm => absurd (active hl ha) hm

/-- What `TRAP` does with the lanes that do not run, before the others trap: they go on. -/
def State.passLanes (s : State) (f : Fields) : State :=
  s.updWarp s.cur.wid fun w => w.mapLanes fun l t => if s.active l && !t.guard f.g then t.goto (s.nextPc f) else t

theorem exec_trap {s : State} {f : Fields} (h : s.Clear .trap f) :
    exec (.trap f) s = .next ((s.passLanes f).finishAt f ((s.nextPc f).zeroExtend 64)
      ((s.running f).map fun l => (l, ⟨14, f.a.zeroExtend 32, s.pc64⟩))) := by
  obtain ⟨-, hd, hg, -⟩ := h
  have reads : s.Reads f fun _ => [] := fun _ _ _ => rfl
  change execTrap f s = _
  rw [execTrap, State.issue_next hd]
  simp only [State.gather_ok hg reads, List.any_nil, Bool.not_false, Bool.and_true, State.trapLanes_nil, List.map_map]
  rfl

/-- `TRAP` enters the handler in the lanes that run; the others go on (R233). -/
theorem exec_trap_enters {s : State} {f : Fields} {pc : Addr} (h : s.Clear .trap f) (he : s.Enters (s.running f) 14 pc) :
    ∃ t, exec (.trap f) s = .next t ∧
      s.TookTrap t (s.running f) ⟨14, f.a.zeroExtend 32, s.pc64⟩ ((s.nextPc f).zeroExtend 64) pc ∧
      ∀ l < 32, s.active l = true → l ∉ s.running f → ((t.warp s.cur.wid).lane l).pc = s.nextPc f := by
  have runs {l : Nat} (hl : l ∈ s.running f) : s.active l = true ∧ (s.curWarp.lane l).guard f.g = true := (State.mem_running.1 hl).2
  have passes {l : Nat} (hl : l < 32) (ha : s.active l = true) (hm : l ∉ s.running f) : (s.curWarp.lane l).guard f.g = false := by
    by_contra hg
    exact hm (State.mem_running.2 ⟨hl, ha, by simpa using hg⟩)
  have pass : s.LanesTo (s.passLanes f) s.curWarp.next _ := (State.LanesTo.refl h.1).lanes _
  obtain ⟨h', ends, hin, hidle, hout⟩ := pass.finishAt (x := ⟨14, f.a.zeroExtend 32, s.pc64⟩) he (State.nodup_lanesOf _)
    (fun l hl => ⟨_, _, by simp [runs hl]; rfl⟩) f ((s.nextPc f).zeroExtend 64)
  refine ⟨_, exec_trap h, ends.tookTrap (fun l hl => (State.mem_running.1 hl).1) hin (fun l hl ha => ?_) fun l hl ha hm => ?_,
    fun l hl ha hm => ?_⟩
  · rw [hidle l hl ha]
    simp [ha]
  · obtain ⟨st, pk, hlane⟩ := hout l hl ha hm
    rw [hlane]
    simp [ha, passes hl ha hm, Thread.KeptAll, Thread.goto]
  · obtain ⟨st, pk, hlane⟩ := hout l hl ha hm
    rw [ends.lane l hl, hlane]
    simp [ha, passes hl ha hm]

/-- A `TRAP` that no lane runs only moves on. -/
theorem exec_trap_none {s : State} {f : Fields} (h : s.Clear .trap f) (hn : s.running f = []) :
    ∃ t, exec (.trap f) s = .next t ∧ s.OnlyMoved t (s.nextPc f) := by
  have same : (s.passLanes f).finishAt f ((s.nextPc f).zeroExtend 64) [] = s.advanceBut f [] := by
    have lanes : s.passLanes f = s.updWarp s.cur.wid fun w => w.mapLanes fun l t =>
        if s.active l && !(([] : List (Nat × Trap)).any fun x => x.1 == l) then t.goto (s.nextPc f) else t := by
      refine State.updWarp_congr _ _ (Warp.mapLanes_congr _ fun l hl => ?_)
      have hl : l < 32 := h.1.2 ▸ hl
      have passes (ha : s.active l = true) : (s.curWarp.lane l).guard f.g = false := by
        by_contra hg
        exact absurd (State.mem_running.2 ⟨hl, ha, by simpa using hg⟩) (hn ▸ List.not_mem_nil)
      rw [List.any_nil]
      cases ha : s.active l with
      | false => rfl
      | true =>
        have hg : ((s.warp s.cur.wid).lane l).guard f.g = false := passes ha
        rw [hg]
    rw [lanes]
    rfl
  refine ⟨_, exec_trap h, ?_⟩
  rw [hn, List.map_nil, same]
  exact State.onlyMoved_advanceBut f h.1

end Sys2Proof.Machine
end

section
/-! The checks at decode (R137, R141, R142): every instruction begins with them. -/

namespace Sys2Proof.Machine

/-- An outcome that begins with the checks of an opcode and its fields; further checks of the instruction are of WHY 10. -/
def State.Issues (s : State) (op : Op) (f : Fields) (o : Out) : Prop :=
  ∃ more k, o = s.issue op f more k ∧ ∀ w ∈ more, w = 10 ∧ op ∈ [Op.cvtb, .setpart, .tret]

namespace State.Issues

variable {s : State} {op : Op} {f : Fields}

theorem of_issue (s : State) (op : Op) (f : Fields) (k : State → Out) : s.Issues op f (s.issue op f [] k) :=
  ⟨[], k, rfl, fun _ h => absurd h List.not_mem_nil⟩

theorem lanewiseOn {k src body} : s.Issues op f (s.lanewiseOn op f k src body) := of_issue s op f _
theorem deprecatedLanes {k body} : s.Issues op f (deprecatedLanes op k body f s) := of_issue s op f _
theorem sfuOp : s.Issues op f (sfuOp op f s) := of_issue s op f _
theorem once {whole src body} : s.Issues op f (s.once op f [] whole src body) := of_issue s op f _
theorem guarded {k} : s.Issues op f (s.guarded op f k) := of_issue s op f _
theorem byUnit {units body} : s.Issues op f (s.byUnit op f units body) := of_issue s op f _
theorem laneEntry {limit val} : s.Issues op f (s.laneEntry op f limit val) := of_issue s op f _
theorem segmentEnd {src body} : s.Issues op f (segmentEnd op src body f s) := of_issue s op f _
theorem spillEnd {push k} : s.Issues op f (spillEnd op push k f s) := of_issue s op f _
theorem load {count} : s.Issues op f (load op count f s) := of_issue s op f _
theorem store {α : Type} {scope src place vas pads perform} : s.Issues op f (store (α := α) op scope src place vas pads perform f s) :=
  of_issue s op f _
theorem atomic {pad size g} : s.Issues op f (atomic op pad size g f s) := of_issue s op f _
theorem remoteAdd {α : Type} {place vas x} : s.Issues op f (remoteAdd (α := α) op place vas x f s) := of_issue s op f _

/-- A lane instruction begins with the checks; those that set the partition or convert a block have one more (R141, R222). -/
theorem laneInstr {more : Fields → State → List Nat} (h : ∀ w ∈ more f s, w = 10 ∧ op ∈ [Op.cvtb, .setpart, .tret]) :
    s.Issues op f (laneInstr op more f s) := ⟨more f s, _, rfl, h⟩

end State.Issues

theorem issues_exec {i : Instr} {op : Op} {f : Fields} (h : partsOf i = some (op, f)) (s : State) : s.Issues op f (exec i s) := by
  cases i <;> cases h
  case add | addCompact | sub | subCompact | addc | subb | neg | negCompact | absI | minI | minCompact | maxI | maxCompact |
      mul | mulCompact | mulh | mad | madh | mulw | madw | sad | idp4 | add64 | sub64 | neg64 | mul64 | lea | lea64 | clamp |
      avg =>
    dsimp only [exec, execAdd, execAddCompact, intAdd, execSub, execSubCompact, intSub, execAddc, execSubb, carryInt, execNeg,
      execNegCompact, intNeg, execAbsI, execMinI, execMinCompact, intMin, execMaxI, execMaxCompact, intMax, execMul, execMulCompact,
      intMul, execMulh, execMad, execMadh, execMulw, execMadw, execSad, execIdp4, execAdd64, execSub64, execNeg64, execMul64, execLea,
      execLea64, execClamp, execAvg, typedInt, chooseInt, productInt, pairInt, State.lanePure, State.lanewise]
    exact .lanewiseOn
  case andB | andCompact | orB | orCompact | xorB | xorCompact | notB | notCompact | andn | bitfn | shl | shlCompact | shr |
      shrCompact | rol | shl64 | shr64 | bfx | bfi | popc | popcCompact | clz | brev =>
    dsimp only [exec, execAndB, execAndCompact, bitAnd, execOrB, execOrCompact, bitOr, execXorB, execXorCompact, bitXor, execNotB,
      execNotCompact, bitNot, execAndn, execBitfn, execShl, execShlCompact, bitShl, execShr, execShrCompact, bitShr, execRol, execShl64,
      execShr64, execBfx, execBfi, execPopc, execPopcCompact, bitPopc, execClz, execBrev, wordOp, State.lanePure, State.lanewise]
    exact .lanewiseOn
  case mov | movCompact | movw | sel | ext | bsel | mov64 | cmp | cmp64 | cmpFloat | classF | pcomb | pmov | pset =>
    dsimp only [exec, execMov, execMovCompact, moveWord, execMovw, execSel, execExt, execBsel, execMov64, execCmp, execCmp64,
      execCmpFloat, execClassF, execPcomb, execPmov, execPset, State.lanePure, State.lanewise]
    exact .lanewiseOn
  case addFloat | addFloatCompact | subFloat | subFloatCompact | mulFloat | mulFloatCompact | fma | minFloat | minFloatCompact |
      maxFloat | maxFloatCompact | absFloat | absFloatCompact | negFloat | negFloatCompact | scaleb | rnd | dot2 | cpys | frc | lerp =>
    dsimp only [exec, execAddFloat, execAddFloatCompact, floatAdd, execSubFloat, execSubFloatCompact, floatSub, execMulFloat,
      execMulFloatCompact, floatMul, execFma, execMinFloat, execMinFloatCompact, floatMin, execMaxFloat, execMaxFloatCompact, floatMax,
      execAbsFloat, execAbsFloatCompact, floatAbs, execNegFloat, execNegFloatCompact, floatNeg, execScaleb, execRnd, execDot2, execCpys,
      execFrc, execLerp, floatOp, floatBits, floatSign, State.lanePure, State.lanewise]
    exact .lanewiseOn
  case cvt | cvtf | cvtx | pack | unpk | sysr =>
    dsimp only [exec, execCvt, execCvtf, execCvtx, execPack, execUnpk, execSysr, State.lanePure, State.lanewise]
    exact .lanewiseOn
  case imad24 | fmac =>
    dsimp only [exec, execImad24, execFmac]
    exact .deprecatedLanes
  case rcp | rcpCompact | rsq | rsqCompact | sqrt | exp2 | exp2Compact | log2 | log2Compact | sin | cos | tanh | sigm | erf |
      sinpi | cospi | expm1 | log1p =>
    dsimp only [exec, execRcp, execRcpCompact, sfuRcp, execRsq, execRsqCompact, sfuRsq, execSqrt, execExp2, execExp2Compact, sfuExp2,
      execLog2, execLog2Compact, sfuLog2, execSin, execCos, execTanh, execSigm, execErf, execSinpi, execCospi, execExpm1, execLog1p]
    exact .sfuOp
  case vote | shfl | red | scan | matchL | elect =>
    dsimp only [exec, execVote, execShfl, execRed, execScan, execMatchL, execElect]
    exact .laneInstr fun _ h => absurd h List.not_mem_nil
  case setpart | cvtb =>
    dsimp only [exec, execSetpart, execCvtb]
    exact .laneInstr fun w h => by simp_all [failsIf]
  case bra | brc | brx | meet =>
    dsimp only [exec, execBra, execBrc, execBrx, execMeet, branchTo]
    exact .segmentEnd
  case call | calli | ret =>
    dsimp only [exec, execCall, execCalli, execRet]
    exact .spillEnd
  case ld | lds | ldr | ldp | ldu =>
    dsimp only [exec, execLd, execLds, execLdr, execLdp, execLdu]
    exact .load
  case st | sts | stp | str | stm =>
    dsimp only [exec, execSt, execSts, execStp, execStr, execStm, plainStore]
    exact .store
  case atom | cas | atoms | cass =>
    dsimp only [exec, execAtom, execCas, execAtoms, execCass]
    exact .atomic
  case radd | raddg =>
    dsimp only [exec, execRadd, execRaddg]
    exact .remoteAdd
  case nop | prefi | yield =>
    dsimp only [exec, execNop, execPrefi, execYield]
    exact .guarded
  case mlds | mmul | mcnt | mdrain | mst | mlda | mswap | cdrain | cclr | mzero | mchk | cmerge | mstBank | msave | mrest | mrel =>
    dsimp only [exec, execMlds, execMmul, execMcnt, execMdrain, execMst, execMlda, execMswap, execCdrain, execCclr, execMzero, execMchk,
      execCmerge, execMstBank, execMsave, execMrest, execMrel, State.tensorOp, State.plainEntry, State.imageOp, State.saveOp]
    exact .byUnit
  case mrd | mwr | crd =>
    dsimp only [exec, execMrd, execMwr, execCrd]
    exact .laneEntry
  case macq | mwait | launch | bari | bara | bars | post | waitC | tinv | cgenReg | cgenLive | cgenDrop | fence | cmo | hbind | gath |
      pref | rlck | rlrel | acc | kick | cancel =>
    dsimp only [exec, execMacq, execMwait, execLaunch, execBari, execBara, execBars, execPost, execWaitC, execTinv, execCgenReg,
      execCgenLive, execCgenDrop, execFence, execCmo, execHbind, execGath, execPref, execRlck, execRlrel, execAcc, execKick, execCancel]
    exact .once
  case exitT | brcx | barx | trap | sysw =>
    dsimp only [exec, execExitT, execBrcx, execBarx, execTrap, execSysw]
    exact .of_issue s _ f _
  case tret =>
    dsimp only [exec, execTret]
    exact ⟨failsIf (!s.curHandler) 10, _, rfl, fun w h => by simp_all [failsIf]⟩

end Sys2Proof.Machine
end

section
/-! Bad sources (R21, R110, R112, R329): the lanes whose sources hold a bad word trap and write nothing, and the others complete. -/

namespace Sys2Proof.Machine

/-! ## The lowest WHY -/

theorem lowest_eq_none {ws : List Nat} : lowest ws = none ↔ ws = [] := by
  cases ws <;> simp [lowest]

theorem lowest_eq_some {ws : List Nat} {w : Nat} : lowest ws = some w ↔ w ∈ ws ∧ ∀ v ∈ ws, w ≤ v := by
  induction ws generalizing w with
  | nil => simp [lowest]
  | cons x xs ih =>
    rw [lowest]
    cases hx : lowest xs with
    | none =>
      rw [lowest_eq_none] at hx
      subst hx
      simp only [Option.elim_none, Option.some.injEq, List.mem_singleton, forall_eq]
      exact ⟨fun h => ⟨h.symm, h.ge⟩, fun h => h.1.symm⟩
    | some m =>
      obtain ⟨hm, hle⟩ := ih.1 hx
      simp only [Option.elim_some, Option.some.injEq, List.mem_cons, forall_eq_or_imp]
      constructor
      · rintro rfl
        refine ⟨?_, Nat.min_le_left _ _, fun v hv => (Nat.min_le_right _ _).trans (hle v hv)⟩
        rcases Nat.le_total x m with h | h
        · exact .inl (Nat.min_eq_left h)
        · exact .inr ((Nat.min_eq_right h).symm ▸ hm)
      · rintro ⟨rfl | hw, hwx, hwv⟩
        · exact Nat.min_eq_left (hwv m hm)
        · have := hle w hw
          have := hwv m hm
          omega

/-- What the checks at decode raise (R141, R142). -/
theorem State.Issues.illegal {s : State} {op : Op} {f : Fields} {o : Out} (h : s.Issues op f o) {w : Nat}
    (hw : lowest (f.whys op ++ nWhys op f s.curWg.nreg) = some w) (hl : op ∉ [Op.cvtb, .setpart, .tret] ∨ w < 10) :
    o = .next (s.trapActive (illegalTrap op f w s.pc64)) := by
  obtain ⟨more, k, rfl, hmore⟩ := h
  obtain ⟨hm, hle⟩ := lowest_eq_some.1 hw
  have all : lowest (f.whys op ++ nWhys op f s.curWg.nreg ++ more) = some w := by
    refine lowest_eq_some.2 ⟨List.mem_append_left _ hm, fun v hv => ?_⟩
    rcases List.mem_append.1 hv with hv | hv
    · exact hle v hv
    · obtain ⟨rfl, hop⟩ := hmore v hv
      rcases hl with hl | hl
      · exact absurd hop hl
      · omega
  rw [State.issue, all]

/-- A privileged instruction in user mode, where the fields pass the checks (R137). -/
theorem State.Issues.priv {s : State} {op : Op} {f : Fields} {o : Out} (h : s.Issues op f o)
    (hw : lowest (f.whys op ++ nWhys op f s.curWg.nreg) = none) (hop : op ∉ [Op.cvtb, .setpart, .tret])
    (hp : op.privileged = true) (hu : s.curPriv = false) : o = .next (s.trapActive (privTrap s.pc64)) := by
  obtain ⟨more, k, rfl, hmore⟩ := h
  obtain rfl : more = [] := List.eq_nil_iff_forall_not_mem.2 fun w h => hop (hmore w h).2
  rw [State.issue, List.append_nil, hw]
  simp [hp, hu]

/-! ## Lanes that trap -/

theorem Thread.Took.window {t u : Thread} {f : Fields} {r : Res} (h : t.Took u f r) (n : Nat) (m : BitVec 16) :
    t.Took { u with window := n, wmask := m } f r := by
  obtain ⟨kept, rest⟩ := h
  refine ⟨?_, rest⟩
  unfold Thread.KeptBut at kept ⊢
  rw [kept]

theorem trapsOf_eq {xs : List Lane} {p : Nat → Bool} {x : Trap}
    (h : ∀ l < xs.length, ∀ t, xs.getD l .idle = .trap t ↔ p l = true ∧ t = x) :
    trapsOf xs = ((List.range xs.length).filter p).map fun l => (l, x) := by
  have each : xs.zipIdx = (List.range xs.length).map fun l => (xs.getD l .idle, l) := by
    refine List.ext_getElem (by simp) fun l hl _ => ?_
    simp at hl
    simp [hl]
  rw [trapsOf, each, List.filterMap_map, ← List.filterMap_eq_map, List.filterMap_filter]
  refine List.filterMap_congr fun l hl => ?_
  have hx := h l (List.mem_range.1 hl)
  dsimp only [Function.comp_apply]
  cases e : xs.getD l .idle with
  | trap t =>
    obtain ⟨hp, rfl⟩ := (hx t).1 e
    simp [hp]
  | _ =>
    have hp : p l ≠ true := fun hp => nomatch e.symm.trans ((hx x).2 ⟨hp, rfl⟩)
    simp [hp]

theorem State.running_eq (s : State) (f : Fields) (p : Nat → Bool) :
    (s.running f).filter p = (List.range 32).filter fun l => decide (s.Runs f l) && p l := by
  rw [State.running, lanesOf, List.filter_filter]
  refine List.filter_congr fun l hl => ?_
  rw [State.getLsbD_qualifying _ _ _ (List.mem_range.1 hl), Bool.and_comm]
  congr 1
  simp [State.Runs]

/-- What a lane of an instruction comes to where the sources of some lanes that run are bad. -/
def State.laneOf (s : State) (f : Fields) (bad : Nat → Bool) (x : Trap) (g : Nat → Res) (l : Nat) : Lane :=
  if s.active l then if (s.curWarp.lane l).guard f.g then if bad l then .trap x else .done (g l) else .skip else .idle

section
variable {s : State} {op : Op} {f : Fields} {src : Thread → List Source} {body : Ins → Except Trap Res} {g : Nat → Res}
  {bad : Nat → Bool} {x : Trap}

theorem State.laneOf_trap {l : Nat} {t : Trap} : s.laneOf f bad x g l = .trap t ↔ (s.Runs f l ∧ bad l = true) ∧ t = x := by
  cases ha : s.active l <;> cases hg : (s.curWarp.lane l).guard f.g <;> cases hb : bad l <;>
    simp [State.laneOf, State.Runs, ha, hg, hb, @eq_comm _ t x]

theorem State.laneOf_done {l : Nat} {r : Res} : s.laneOf f bad x g l = .done r ↔ (s.Runs f l ∧ bad l = false) ∧ r = g l := by
  cases ha : s.active l <;> cases hg : (s.curWarp.lane l).guard f.g <;> cases hb : bad l <;>
    simp [State.laneOf, State.Runs, ha, hg, hb, @eq_comm _ r (g l)]

theorem runLane_bad (hc : s.Clear op f)
    (hsrc : ∀ l < 32, s.Runs f l → checkSources (src (s.curWarp.lane l)) s.pc64 = if bad l then some x else none)
    (hb : ∀ l < 32, s.Runs f l → bad l = false → body (insOf l (s.curWarp.lane l) (src (s.curWarp.lane l))) = .ok (g l))
    (l : Nat) (hl : l < 32) :
    runLane f s.cur.mask s.pc64 src body l (s.curWarp.lane l) = s.laneOf f bad x g l := by
  unfold runLane State.laneOf
  have hm : s.cur.mask.getLsbD l = s.active l := rfl
  rw [hm]
  cases ha : s.active l with
  | false => rfl
  | true =>
    rw [hc.2.2.1 l hl ha]
    cases hg : (s.curWarp.lane l).guard f.g with
    | false => rfl
    | true =>
      rw [hsrc l hl ⟨ha, hg⟩]
      cases hx : bad l with
      | true => rfl
      | false =>
        simp [hb l hl ⟨ha, hg⟩ hx]

/-- A lane-wise instruction with a vector destination, some of whose lanes find a bad source: those trap, the others complete (R21). -/
theorem State.lanewiseOn_traps {k : RClass} {src : State → Thread → List Source} {pc : Addr} (hc : s.Clear op f) (hu : f.ud = false)
    (hsrc : ∀ l < 32, s.Runs f l → checkSources (src s (s.curWarp.lane l)) s.pc64 = if bad l then some x else none)
    (hb : ∀ l < 32, s.Runs f l → bad l = false → body (insOf l (s.curWarp.lane l) (src s (s.curWarp.lane l))) = .ok (g l))
    (hp : ∀ l, ((g l).preds.map (·.1)).Nodup)
    (hw : ∀ l < 32, s.Runs f l → bad l = false → k = .p ∨ k = .c → ∀ w ∈ (g l).covered, w.wellFormed = true)
    (he : s.Enters ((s.running f).filter bad) x.cause pc) :
    ∃ t, s.lanewiseOn op f k src body = .next t ∧ s.SameDevice t ∧ s.SameElsewhere t ∧ s.OthersKeep t ∧
      ∀ l < 32, s.Runs f l →
        if bad l then (t.warp s.cur.wid).lane l = s.entered ((s.running f).filter bad) x s.pc64 pc l
        else ((t.warp s.cur.wid).lane l).pc = s.nextPc f ∧ (s.curWarp.lane l).Took ((t.warp s.cur.wid).lane l) f (g l) := by
  obtain ⟨hbun, hd, -, hq⟩ := id hc
  have lanes : s.runLanes f (src s) body = (List.range 32).map (s.laneOf f bad x g) := by
    refine List.ext_getElem (by simp [State.runLanes, hbun.2]) fun l hl _ => ?_
    have hl : l < 32 := by simpa [State.runLanes, hbun.2] using hl
    have lane : s.curWarp.lanes[l]'(hbun.2.symm ▸ hl) = s.curWarp.lane l := by simp [Warp.lane, hbun.2, hl]
    simp only [State.runLanes, List.getElem_mapIdx, List.getElem_map, List.getElem_range, lane]
    exact runLane_bad hc hsrc hb l hl
  let xs := (List.range 32).map (s.laneOf f bad x g)
  have get (l : Nat) (hl : l < 32) : xs.getD l .idle = s.laneOf f bad x g l := by simp [xs, hl]
  have clean : s.verify k false none xs = xs := by
    refine State.verify_none (fun y hy r e => ?_) false
    obtain ⟨l, hl, rfl⟩ := List.mem_map.1 hy
    obtain ⟨⟨hr, hbad⟩, rfl⟩ := State.laneOf_done.1 e
    exact hw l (List.mem_range.1 hl) hr hbad
  have traps : trapsOf xs = ((s.running f).filter bad).map fun l => (l, x) := by
    have length : xs.length = 32 := by simp [xs]
    rw [State.running_eq, ← length]
    refine trapsOf_eq fun l hl t => ?_
    rw [get l (length ▸ hl), State.laneOf_trap]
    simp
  have run : s.lanewiseOn op f k src body =
      .next ((s.updWarp s.cur.wid fun w => w.mapLanes fun l t => (xs.getD l .idle).apply f (s.nextPc f) t).finishAt f s.pc64
        (((s.running f).filter bad).map fun l => (l, x))) := by
    rw [State.lanewiseOn, State.issue_next hd]
    dsimp only
    rw [lanes, State.shot_quiet hq, State.afterInjection_none, clean, State.commit, traps]
    simp only [Warp.commit, hu, Bool.false_eq_true, if_false]
    rw [State.finish, State.pc64, State.updWarp_cur]
    rfl
  have pass : s.LanesTo (s.updWarp s.cur.wid fun w => w.mapLanes fun l t => (xs.getD l .idle).apply f (s.nextPc f) t)
      s.curWarp.next _ := (State.LanesTo.refl hbun).lanes _
  obtain ⟨h', ends, hin, hidle, hout⟩ := pass.finishAt he ((State.nodup_lanesOf _).filter _) (fun l hl => by
    obtain ⟨hr, hbad⟩ := List.mem_filter.1 hl
    obtain ⟨h32, hr⟩ := State.mem_running.1 hr
    rw [get l h32, State.laneOf_trap.2 ⟨⟨hr, hbad⟩, rfl⟩]
    exact ⟨_, _, rfl⟩) f s.pc64
  refine ⟨_, run, ends.device, ends.elsewhere, ends.otherKeep fun l hl ha => ?_, fun l hl hr => ?_⟩
  · rw [hidle l hl ha, get l hl, State.laneOf, ha]
    rfl
  · rw [ends.lane l hl]
    cases hbad : bad l with
    | true =>
      rw [if_pos rfl]
      exact hin l (List.mem_filter.2 ⟨State.mem_running.2 ⟨hl, hr⟩, hbad⟩)
    | false =>
      obtain ⟨st, pk, hlane⟩ := hout l hl hr.1 fun hm => by simp [(List.mem_filter.1 hm).2] at hbad
      rw [get l hl, State.laneOf_done.2 ⟨⟨hr, hbad⟩, rfl⟩] at hlane
      rw [if_neg Bool.false_ne_true, hlane]
      exact ⟨rfl, (Thread.took_write _ f (g l) (s.nextPc f) st pk (hp l)).window 0 0⟩

end

/-! ## `ADD` -/

/-- A lane of `ADD` whose sources are good takes the sum (R163). -/
theorem add_word {s : State} {f : Fields} {l : Nat}
    (h : checkSources (sources .add f s.curWarp (s.curWarp.lane l) false) s.pc64 = none) :
    ((exactOf f.ty (c0 (s.opA .add f l))).add (exactOf f.ty (c0 (s.opB .add f l)))).typed f.ty f.sat =
      .gen (tyWrite f.ty f.sat (s.iA .add f l + s.iB .add f l)) := by
  have good : ∀ y ∈ sources .add f s.curWarp (s.curWarp.lane l) false, ∀ w ∈ y.words, w.wellFormed = true :=
    fun y hy w hw => checkSources_none h hy hw
  have a : (c0 (s.opA .add f l)).wellFormed = true := c0_wellFormed (good _ List.mem_cons_self)
  have b : (c0 (s.opB .add f l)).wellFormed = true := c0_wellFormed (good _ (List.mem_cons_of_mem _ List.mem_cons_self))
  exact ((exactOf_ok a f.ty).add (exactOf_ok b f.ty)).typed f.ty f.sat

/-- Settles O24: a trap of some lanes changes the bundle's lanes as `State.LanesTo.finishAt` says, and every instruction begins with
the checks at decode (`issues_exec`). -/
theorem trapsAreTaken : Obligations.TrapsAreTaken := by
  unfold Obligations.TrapsAreTaken
  refine ⟨fun s f pc => ⟨exec_trap_enters, exec_trap_none, fun x => State.tookTrap_trapActive⟩, fun s i op f h => ?_, ?_⟩
  · have checks := issues_exec h s
    exact ⟨fun w hw hl => checks.illegal hw hl, fun hw hop hp hu => checks.priv hw hop hp hu⟩
  · intro s f bad x pc hc hu hsrc ls he
    have run : exec (.add f) s = s.lanewiseOn .add f .p (fun s t => sources .add f s.curWarp t false) fun i =>
        .ok { dst := [((exactOf f.ty (c0 i.a)).add (exactOf f.ty (c0 i.b))).typed f.ty f.sat] } := rfl
    rw [run]
    refine State.lanewiseOn_traps hc hu hsrc (fun l hl hr hbad => ?_) (fun l => List.nodup_nil) (fun l hl hr hbad _ w hw => ?_) he
    · rw [State.insOf_sources s .add f l (by decide), add_word (by rw [hsrc l hl hr, hbad]; rfl)]
    · rw [List.mem_singleton.1 hw]
      exact CWord.gen_wellFormed _

end Sys2Proof.Machine
end

section
/-! Placement (R48, R52, R360, R391): the order of arbitration, the first grid that fits, and what a placed grid finds. -/

namespace Sys2Proof.Machine

/-! ## The order of arbitration -/

/-- The place of a grid number in a round robin that goes on after `n`: numbers up to `n` come last. -/
def turnRank (n i : Nat) : Nat := if n < i then i else i + 2 ^ 64

/-- The order in which a pitch that served the numbers `turns` last takes its grids. -/
def turnsBefore (turns : KMap Nat) (a b : Nat × Grid) : Bool :=
  b.2.prio < a.2.prio ||
    (a.2.prio == b.2.prio && turnRank (turns.getD a.2.prio 0) a.1 ≤ turnRank (turns.getD b.2.prio 0) b.1)

theorem State.arbitration_eq (s : State) (p : Nat) : s.arbitration p =
    (s.grids.filter fun e => s.gridReady p e.1 e.2).mergeSort (turnsBefore (s.pitch p).turns) := rfl

theorem turnsBefore_iff (turns : KMap Nat) (a b : Nat × Grid) : turnsBefore turns a b = true ↔
    b.2.prio < a.2.prio ∨
      a.2.prio = b.2.prio ∧ turnRank (turns.getD a.2.prio 0) a.1 ≤ turnRank (turns.getD b.2.prio 0) b.1 := by
  simp [turnsBefore]

theorem turnsBefore_trans (turns : KMap Nat) (a b c : Nat × Grid) (hab : turnsBefore turns a b = true)
    (hbc : turnsBefore turns b c = true) : turnsBefore turns a c = true := by
  rw [turnsBefore_iff] at hab hbc ⊢
  omega

theorem turnsBefore_total (turns : KMap Nat) (a b : Nat × Grid) : (turnsBefore turns a b || turnsBefore turns b a) = true := by
  rw [Bool.or_eq_true, turnsBefore_iff, turnsBefore_iff]
  omega

/-- Round robin: a number after the one served last comes before the others, and of two alike the lower comes first. -/
theorem turnRank_le {n i j : Nat} (h : turnRank n i ≤ turnRank n j) :
    n < i ∧ ¬ n < j ∨ (n < i ↔ n < j) ∧ i ≤ j ∨ 2 ^ 64 ≤ i + j := by
  simp only [turnRank] at h
  split at h <;> split at h <;> omega

theorem State.arbitration_sorted (s : State) (p : Nat) :
    (s.arbitration p).Pairwise fun a b => turnsBefore (s.pitch p).turns a b = true :=
  List.pairwise_mergeSort (turnsBefore_trans _) (turnsBefore_total _) _

theorem State.mem_arbitration {s : State} {p : Nat} {e : Nat × Grid} :
    e ∈ s.arbitration p ↔ e ∈ s.grids ∧ s.gridReady p e.1 e.2 = true := by
  rw [State.arbitration_eq, List.mem_mergeSort, List.mem_filter]

/-- What a ready grid of a pitch satisfies (R48, R389). -/
theorem State.gridReady_spec {s : State} {p i : Nat} {g : Grid} (h : s.gridReady p i g = true) :
    g.placed < g.total ∧ g.killed = false ∧ (s.ctx g.ctx).retired = false ∧ (s.ctx g.ctx).stopped = false ∧
      ∀ d ∈ s.grids, d.2.region = g.region → d.1 < i → d.2.total ≤ d.2.placed := by
  simp only [State.gridReady, Bool.and_eq_true, Bool.not_eq_true', decide_eq_true_eq, List.all_eq_true, List.mem_filter,
    beq_iff_eq] at h
  obtain ⟨⟨⟨⟨⟨⟨⟨-, hroom⟩, hkilled⟩, hretired⟩, hstopped⟩, hbefore⟩, -⟩, -⟩ := h
  exact ⟨hroom, hkilled, hretired, hstopped, fun d hd hr hi => hbefore d ⟨hd, hr, hi⟩⟩

/-! ## The first grid that can be placed -/

theorem KMap.get?_isSome_of_mem {α : Type} {m : KMap α} {k : Nat} {v : α} (h : (k, v) ∈ m) : (m.get? k).isSome = true := by
  induction m with
  | nil => simp at h
  | cons e m ih =>
    obtain ⟨j, w⟩ := e
    rw [KMap.get?]
    split
    · rfl
    · next hj =>
      rcases List.mem_cons.1 h with he | hm
      · cases he
        exact absurd rfl hj
      · exact ih hm

/-- Grids that cannot be placed are passed over. -/
theorem State.placeFirst_append (s : State) (p : Nat) (xs ys : List (Nat × Grid))
    (h : ∀ e ∈ xs, s.placeGrid p e.1 e.2 = (s, false)) : s.placeFirst p (xs ++ ys) = s.placeFirst p ys := by
  induction xs with
  | nil => rfl
  | cons e xs ih =>
    have hxs := ih fun d hd => h d (List.mem_cons_of_mem _ hd)
    rw [List.cons_append, State.placeFirst, h e (by simp)]
    split <;> exact hxs

theorem State.placeFirst_placed (s u : State) (p i : Nat) (g : Grid) (ys : List (Nat × Grid))
    (hi : (s.grids.get? i).isSome = true) (h : s.placeGrid p i g = (u, true)) : s.placeFirst p ((i, g) :: ys) = u := by
  rw [State.placeFirst, h, if_neg (by rw [Option.isNone_iff_eq_none, ← Option.not_isSome_iff_eq_none, hi]; decide)]

theorem execWorkgroupPlacement_thawed {s : State} {p : Nat} (h : (s.pitch p).frozen = false) :
    execWorkgroupPlacement p s = .next (s.placeFirst p (s.arbitration p)) := by
  rw [execWorkgroupPlacement, if_neg (by simp [h])]

theorem execWorkgroupPlacement_none {s : State} {p : Nat}
    (h : (s.pitch p).frozen = true ∨ ∀ e ∈ s.arbitration p, s.placeGrid p e.1 e.2 = (s, false)) :
    execWorkgroupPlacement p s = .next s := by
  cases hf : (s.pitch p).frozen with
  | true => rw [execWorkgroupPlacement, if_pos hf]
  | false =>
    have hall := h.resolve_left (by simp [hf])
    have hfirst := s.placeFirst_append p (s.arbitration p) [] hall
    rw [List.append_nil] at hfirst
    rw [execWorkgroupPlacement_thawed hf, hfirst, State.placeFirst]

/-! ## The cores of a grid's next workgroup or gang (R50, R391) -/

theorem State.freeSlot_spec {s : State} {core slot : Nat} (h : s.freeSlot core = some slot) :
    slot < 16 ∧ s.wgs.get? (core * 16 + slot) = none := by
  have hp := List.find?_some h
  have hm := List.mem_of_find?_eq_some h
  rw [Bool.and_eq_true] at hp
  exact ⟨List.mem_range.1 hm, by simpa using hp.1⟩

theorem State.freeSlot_of_eligible {s : State} {core p : Nat} {g : Grid} (h : s.eligible core p g = true) :
    ∃ slot, s.freeSlot core = some slot := by
  unfold State.eligible at h
  simp only [Bool.and_eq_true] at h
  obtain ⟨⟨⟨⟨⟨⟨hs, -⟩, -⟩, -⟩, -⟩, -⟩, -⟩ := h
  exact Option.isSome_iff_exists.1 hs

/-- The cores picked for a gang: as many as it has members, all different, each with a slot free. -/
theorem State.pickCores_spec {s : State} {p : Nat} {closed : BitVec 16} {g : Grid} {cs : List Nat}
    (h : s.pickCores p closed g = some cs) :
    cs.length = g.gang ∧ cs.Nodup ∧ ∀ c ∈ cs, ∃ slot, s.freeSlot c = some slot := by
  obtain ⟨c, -, hc⟩ := List.exists_of_findSome?_eq_some h
  dsimp only at hc
  split at hc
  · next hlen =>
    rw [Option.some.injEq] at hc
    subst hc
    refine ⟨by simpa using hlen, ?_, ?_⟩
    · refine List.Nodup.sublist ((List.take_sublist _ _).trans List.filter_sublist) ?_
      exact (List.mergeSort_perm _ _).nodup_iff.2 ((List.nodup_range.filter _).filter _)
    · intro d hd
      have hm := List.mem_mergeSort.1 (List.mem_of_mem_filter (List.mem_of_mem_take hd))
      have he := (List.mem_filter.1 hm).2
      rw [Bool.and_eq_true] at he
      exact State.freeSlot_of_eligible he.2
  · cases hc

end Sys2Proof.Machine
end

section
/-! What placing workgroups changes: the cores, and the workgroups and warps of the places taken. -/

namespace Sys2Proof.Machine

/-! ## Pinning lines on a core without dirty words (R360) -/

/-- Nothing but cores has changed, and a core without dirty words has none still. -/
structure State.CoresTo (s t : State) : Prop where
  only : t = { s with cores := t.cores }
  clean : ∀ c, (s.core c).dirty = [] → (t.core c).dirty = []

theorem State.CoresTo.refl (s : State) : s.CoresTo s := ⟨rfl, fun _ h => h⟩

theorem State.CoresTo.trans {s t u : State} (h : s.CoresTo t) (k : t.CoresTo u) : s.CoresTo u :=
  ⟨by rw [k.only, h.only], fun c hc => k.clean c (h.clean c hc)⟩

theorem State.CoresTo.updCore (s : State) (c : Nat) {f : Core → Core} (h : ∀ k : Core, k.dirty = [] → (f k).dirty = []) :
    s.CoresTo (s.updCore c f) := by
  refine ⟨rfl, fun d hd => ?_⟩
  rw [State.core_updCore]
  split
  · next he => exact h _ (he ▸ hd)
  · exact hd

theorem State.CoresTo.acquireAt (s : State) (c scope : Nat) : s.CoresTo (s.acquireAt c scope) := by
  unfold State.acquireAt
  split
  · exact .refl s
  · exact .updCore s c fun _ h => h

theorem State.dirtyInLine_clean {s : State} {c : Nat} (h : (s.core c).dirty = []) (pa : Nat) : s.dirtyInLine c pa = [] := by
  simp [State.dirtyInLine, h]

/-- Without dirty words there is nothing to write back. -/
theorem State.cleanLine_clean {s : State} {c : Nat} (h : (s.core c).dirty = []) (n : Nat) : s.cleanLine c n = s := by
  simp only [State.cleanLine, State.dirtyInLine_clean h]
  exact ite_self _

theorem State.CoresTo.evictLine {s : State} {c : Nat} (h : (s.core c).dirty = []) (n : Nat) : s.CoresTo (s.evictLine c n).1 := by
  simp only [State.evictLine, State.cleanLine_clean h]
  split
  · exact .refl s
  · refine State.CoresTo.updCore s c (f := fun k => k.dropL1 n) fun k hk => ?_
    simp [Core.dropL1, Core.tidy, hk]

theorem State.CoresTo.makeRoom {s : State} {c : Nat} (h : (s.core c).dirty = []) (ns : List Nat) :
    s.CoresTo (s.makeRoom c ns).1 := by
  induction ns generalizing s with
  | nil => exact .refl s
  | cons n ns ih =>
    have he := State.CoresTo.evictLine h n
    rw [State.makeRoom]
    split
    · next heq => rw [heq] at he; exact he
    · next heq => rw [heq] at he; exact he.trans (ih (he.clean c h))

theorem State.CoresTo.freeWay {s : State} {c : Nat} (h : (s.core c).dirty = []) (set : Nat) : s.CoresTo (s.freeWay c set).1 := by
  simp only [State.freeWay]
  split
  · exact .makeRoom h _
  · exact .refl s

theorem State.CoresTo.pinLines {s : State} {c : Nat} (h : (s.core c).dirty = []) (slot fuel n : Nat) (counts : List Nat) :
    s.CoresTo (s.pinLines c slot fuel n counts).1 := by
  induction fuel generalizing s n counts with
  | zero => cases n <;> exact .refl s
  | succ fuel ih =>
    cases n with
    | zero => exact .refl s
    | succ n =>
      rw [State.pinLines]
      split
      · exact .refl s
      · next k hk =>
        have hw := State.CoresTo.freeWay h k
        split
        · next heq => rw [heq] at hw; exact hw.trans (ih (hw.clean c h) _ _)
        · next t heq =>
          rw [heq] at hw
          refine hw.trans (State.CoresTo.trans ?_ (ih ?_ _ _))
          · exact State.CoresTo.updCore t c (f := fun d => { d with pins := d.pins.put slot (d.pins.getD slot [] ++ [k]) })
              fun _ hd => hd
          rw [State.core_updCore_self]
          exact hw.clean c h

theorem State.CoresTo.pinPad {s : State} {c slot lines : Nat} (h : lines = 0 ∨ (s.core c).dirty = []) :
    s.CoresTo (s.pinPad c slot lines).1 := by
  unfold State.pinPad
  split
  · exact .refl s
  · next hl => exact .pinLines (h.resolve_left hl) _ _ _ _

/-! ## Places taken (R364, R391) -/

/-- Outside the places `ks` the workgroups and their warps are as they were. -/
def State.sameOff (s t : State) (ks : List Nat) : Prop :=
  ∀ k ∉ ks, t.wg k = s.wg k ∧ ∀ w < 32, t.warp (k * 32 + w) = s.warp (k * 32 + w)

/-- The workgroup `n` of grid `gid` stands at place `k` as it is launched in cycle `now`. -/
def State.holds (t : State) (gid : Nat) (g : Grid) (gang : List GangEntry) (now k n : Nat) : Prop :=
  t.wg k = Workgroup.launched g gid n gang ∧ ∀ w < g.warpsN, t.warp (k * 32 + w) = Warp.launched g n w now

theorem State.wg_setWg (s : State) (k j : Nat) (g : Workgroup) : (s.setWg k g).wg j = if j = k then g else s.wg j := by
  simp only [State.wg, State.setWg, KMap.getD, KMap.get?_put]
  split <;> rfl

/-- The warps launched at place `k`, one after the other. -/
def State.launchWarps (s : State) (g : Grid) (linear k n : Nat) : State :=
  (List.range n).foldl (fun s w => s.setWarp (k * 32 + w) (Warp.launched g linear w s.cycle)) s

theorem State.launchWarps_succ (s : State) (g : Grid) (linear k n : Nat) : s.launchWarps g linear k (n + 1) =
    (s.launchWarps g linear k n).setWarp (k * 32 + n) (Warp.launched g linear n (s.launchWarps g linear k n).cycle) := by
  simp only [State.launchWarps, List.range_succ, List.foldl_append, List.foldl_cons, List.foldl_nil]

theorem State.launchWarps_only (s : State) (g : Grid) (linear k n : Nat) :
    s.launchWarps g linear k n = { s with warps := (s.launchWarps g linear k n).warps } := by
  induction n with
  | zero => rfl
  | succ n ih => rw [State.launchWarps_succ, ih]; rfl

theorem State.launchWarps_warp (s : State) (g : Grid) (linear k n v : Nat) : (s.launchWarps g linear k n).warp v =
    if k * 32 ≤ v ∧ v < k * 32 + n then Warp.launched g linear (v - k * 32) s.cycle else s.warp v := by
  induction n with
  | zero => rw [if_neg (by omega)]; rfl
  | succ n ih =>
    have hcycle : (s.launchWarps g linear k n).cycle = s.cycle := by rw [s.launchWarps_only]
    rw [State.launchWarps_succ, hcycle]
    by_cases hv : v = k * 32 + n
    · rw [hv, State.warp_setWarp, if_pos (by omega), Nat.add_sub_cancel_left]
    · rw [State.warp_setWarp_ne _ _ hv, ih]
      exact if_congr (by omega) rfl rfl

theorem State.placeOne_eq (s : State) (gid : Nat) (g : Grid) (linear : Nat) (gang : List GangEntry) (k : Nat) :
    s.placeOne gid g linear gang k =
      ((s.setWg k (Workgroup.launched g gid linear gang)).launchWarps g linear k g.warpsN).acquireAt (coreOf k) 5 := rfl

/-- What a list of places taken leaves: grids, pitches and time, and the cores without dirty words. -/
structure State.PlacedTo (s t : State) : Prop where
  only : t = { s with wgs := t.wgs, warps := t.warps, cores := t.cores }
  clean : ∀ c, (s.core c).dirty = [] → (t.core c).dirty = []

theorem State.PlacedTo.trans {s t u : State} (h : s.PlacedTo t) (k : t.PlacedTo u) : s.PlacedTo u :=
  ⟨by rw [k.only, h.only], fun c hc => k.clean c (h.clean c hc)⟩

theorem State.CoresTo.placed {s t : State} (h : s.CoresTo t) : s.PlacedTo t := ⟨by rw [h.only], h.clean⟩

theorem State.CoresTo.sameOff {s t : State} (h : s.CoresTo t) (ks : List Nat) : s.sameOff t ks := by
  rw [h.only]
  exact fun _ _ => ⟨rfl, fun _ _ => rfl⟩

/-- A place taken: its workgroup and its warps are launched, and the other places stay as they were. -/
theorem State.placeOne_spec (s : State) (gid : Nat) (g : Grid) (linear : Nat) (gang : List GangEntry) (k : Nat)
    (hw : g.warpsN ≤ 32) : s.PlacedTo (s.placeOne gid g linear gang k) ∧ s.sameOff (s.placeOne gid g linear gang k) [k] ∧
      (s.placeOne gid g linear gang k).holds gid g gang s.cycle k linear := by
  have ha := State.CoresTo.acquireAt ((s.setWg k (Workgroup.launched g gid linear gang)).launchWarps g linear k g.warpsN)
    (coreOf k) 5
  rw [← State.placeOne_eq] at ha
  have hl := (s.setWg k (Workgroup.launched g gid linear gang)).launchWarps_only g linear k g.warpsN
  have hwg (j : Nat) : (s.placeOne gid g linear gang k).wg j = if j = k then Workgroup.launched g gid linear gang else s.wg j := by
    rw [ha.only, hl]
    exact s.wg_setWg k j _
  have hwarp (v : Nat) : (s.placeOne gid g linear gang k).warp v =
      if k * 32 ≤ v ∧ v < k * 32 + g.warpsN then Warp.launched g linear (v - k * 32) s.cycle else s.warp v := by
    rw [ha.only]
    exact State.launchWarps_warp _ g linear k _ v
  refine ⟨⟨by rw [ha.only, hl]; rfl, fun c hc => ha.clean c (by rw [hl]; exact hc)⟩, fun j hj => ?_, ?_, fun w hlt => ?_⟩
  · rw [List.mem_singleton] at hj
    exact ⟨by rw [hwg, if_neg hj], fun w hlt => by rw [hwarp, if_neg (by omega)]⟩
  · rw [hwg, if_pos rfl]
  · rw [hwarp, if_pos (by omega), Nat.add_sub_cancel_left]

theorem State.sameOff.holds {s t : State} {ks : List Nat} {gid : Nat} {g : Grid} {gang : List GangEntry} {now k n : Nat}
    (h : s.sameOff t ks) (hk : k ∉ ks) (hw : g.warpsN ≤ 32) (hs : s.holds gid g gang now k n) : t.holds gid g gang now k n := by
  obtain ⟨hwg, hwarp⟩ := h k hk
  exact ⟨hwg.trans hs.1, fun w hlt => (hwarp w (by omega)).trans (hs.2 w hlt)⟩

/-- Every place of a list taken: each holds its workgroup, and the other places stay as they were. -/
theorem State.placeAll_spec {s u : State} {gid : Nat} {g : Grid} {gang : List GangEntry} {ks : List (Nat × Nat)}
    (hw : g.warpsN ≤ 32) (hd : (ks.map (·.1)).Nodup) (hclean : g.slines = 0 ∨ ∀ e ∈ ks, (s.core (coreOf e.1)).dirty = [])
    (h : s.placeAll gid g gang ks = (u, true)) : s.PlacedTo u ∧ s.sameOff u (ks.map (·.1)) ∧
      ∀ e ∈ ks, u.holds gid g gang s.cycle e.1 (g.placed + e.2) := by
  induction ks generalizing s with
  | nil =>
    rw [State.placeAll, Prod.mk.injEq] at h
    obtain ⟨rfl, -⟩ := h
    exact ⟨(State.CoresTo.refl s).placed, (State.CoresTo.refl s).sameOff _, by simp⟩
  | cons e ks ih =>
    obtain ⟨k, i⟩ := e
    rw [List.map_cons, List.nodup_cons] at hd
    have hpin := State.CoresTo.pinPad (s := s) (c := coreOf k) (slot := k % 16) (lines := g.slines)
      (hclean.imp_right fun hall => hall (k, i) (by simp))
    rw [State.placeAll] at h
    split at h
    · next s1 heq =>
      rw [heq] at hpin
      replace hpin : s.CoresTo s1 := hpin
      have hone := s1.placeOne_spec gid g (g.placed + i) gang k hw
      set s2 := s1.placeOne gid g (g.placed + i) gang k
      obtain ⟨hto, hoff, hheld⟩ := hone
      have hto2 : s.PlacedTo s2 := hpin.placed.trans hto
      have hcycle1 : s1.cycle = s.cycle := by rw [hpin.only]
      have hcycle2 : s2.cycle = s.cycle := by rw [hto2.only]
      obtain ⟨hto3, hoff3, hheld3⟩ := ih hd.2
        (hclean.imp_right fun hall e he => hto2.clean _ (hall e (List.mem_cons_of_mem _ he))) h
      refine ⟨hto2.trans hto3, fun j hj => ?_, fun e he => ?_⟩
      · rw [List.map_cons, List.mem_cons, not_or] at hj
        obtain ⟨hg1, hw1⟩ := hpin.sameOff [k] j (by simpa using hj.1)
        obtain ⟨hg2, hw2⟩ := hoff j (by simpa using hj.1)
        obtain ⟨hg3, hw3⟩ := hoff3 j hj.2
        exact ⟨hg3.trans (hg2.trans hg1), fun w hlt => (hw3 w hlt).trans ((hw2 w hlt).trans (hw1 w hlt))⟩
      · rcases List.mem_cons.1 he with rfl | he
        · exact hoff3.holds hd.1 hw (hcycle1 ▸ hheld)
        · exact hcycle2 ▸ hheld3 e he
    · cases h

end Sys2Proof.Machine
end

section
/-! Placement: what a placed grid finds at each of its places, and the obligation. -/

namespace Sys2Proof.Machine

/-- The place of a core's next workgroup: its free slot. -/
def State.placeKey (s : State) (c : Nat) : Nat := c * 16 + (s.freeSlot c).getD 0

/-- The gang that the workgroups at some places form. -/
def State.gangAt (s : State) (keys : List Nat) : List GangEntry :=
  keys.map fun k => GangEntry.mk k ((s.core (coreOf k)).gens.getD (k % 16) 0)

theorem State.placeKey_eq {s : State} {c slot : Nat} (h : s.freeSlot c = some slot) : s.placeKey c = c * 16 + slot := by
  rw [State.placeKey, h, Option.getD_some]

/-- A core has slots 0 to 15, so a place tells its core. -/
theorem State.coreOf_placeKey {s : State} {c slot : Nat} (h : s.freeSlot c = some slot) : coreOf (s.placeKey c) = c := by
  have hlt := (State.freeSlot_spec h).1
  rw [State.placeKey_eq h, coreOf]
  omega

theorem State.placeKeys_nodup {s : State} {cs : List Nat} (hd : cs.Nodup) (hf : ∀ c ∈ cs, ∃ slot, s.freeSlot c = some slot) :
    (cs.map s.placeKey).Nodup := by
  refine List.Nodup.map_on (fun c hc d hd h => ?_) hd
  obtain ⟨x, hx⟩ := hf c hc
  obtain ⟨y, hy⟩ := hf d hd
  rw [← State.coreOf_placeKey hx, h, State.coreOf_placeKey hy]

/-- A grid that has its cores is placed when every place is taken. -/
theorem State.placeGrid_placed {s u : State} {p i : Nat} {g : Grid} {cs : List Nat}
    (hc : s.pickCores p (s.pitch p).closed g = some cs) (h : s.placeGrid p i g = (u, true)) :
    ∃ t, s.placeAll i g (s.gangAt (cs.map s.placeKey)) (cs.map s.placeKey).zipIdx = (t, true) ∧
      u = (t.updGrid i fun g => { g with placed := g.placed + cs.length }).updPitch p fun q =>
        { q with turns := q.turns.put g.prio i } := by
  simp only [State.placeGrid, hc] at h
  split at h
  · next t heq =>
    rw [Prod.mk.injEq] at h
    refine ⟨t, heq, ?_⟩
    rw [← h.1, List.length_map]
  · cases h

theorem State.placeAll_zero {gid : Nat} {g : Grid} (hz : g.slines = 0) (gang : List GangEntry) (ks : List (Nat × Nat)) (s : State) :
    (s.placeAll gid g gang ks).2 = true := by
  induction ks generalizing s with
  | nil => rfl
  | cons e ks ih =>
    rw [State.placeAll, State.pinPad, if_pos hz]
    exact ih _

/-- Without scratchpad lines to pin nothing holds a placement back. -/
theorem State.placeGrid_zero {s : State} {p i : Nat} {g : Grid} {cs : List Nat}
    (hc : s.pickCores p (s.pitch p).closed g = some cs) (hz : g.slines = 0) : (s.placeGrid p i g).2 = true := by
  simp only [State.placeGrid, hc]
  split
  · rfl
  · next heq => exact absurd ((State.placeAll_zero hz _ _ s).symm.trans (congrArg Prod.snd heq)) Bool.noConfusion

theorem State.updGrid_grid {s : State} {i : Nat} {f : Grid → Grid} {g : Grid} (h : s.grids.get? i = some g) :
    (s.updGrid i f).grid i = f g := by
  simp [State.updGrid, h, State.grid]

/-- A thread of a workgroup begins at the entry, with its own stack (R18, R49, R385). -/
theorem Thread.launched_live {g : Grid} {t : Nat} (linear now : Nat) (h : t < g.threads) :
    (Thread.launched g linear t now).pc = g.entry ∧ (Thread.launched g linear t now).status = .joining ∧
      (Thread.launched g linear t now).csp = g.stack + BitVec.ofNat 64 (g.sstr * (linear * g.threads + t + 1)) := by
  rw [Thread.launched, if_neg (Nat.not_le.2 h)]
  exact ⟨rfl, rfl, rfl⟩

theorem Thread.launched_absent {g : Grid} {t : Nat} (linear now : Nat) (h : ¬ t < g.threads) :
    (Thread.launched g linear t now).live = false := by
  rw [Thread.launched, if_pos (Nat.not_lt.1 h)]
  rfl

theorem Warp.launched_lane (g : Grid) (linear w now : Nat) {l : Nat} (h : l < 32) :
    (Warp.launched g linear w now).lane l = Thread.launched g linear (32 * w + l) now := by
  simp [Warp.launched, Warp.lane, List.getD_eq_getElem?_getD, h]

theorem Grid.warpsN_le {g : Grid} (h : g.threads ≤ 1024) : g.warpsN ≤ 32 := by
  rw [Grid.warpsN]
  omega

/-- The state of a placement once its counts are kept has the workgroups and warps that the places hold. -/
theorem State.served_holds {t : State} {i p gid n now k : Nat} {g : Grid} {gang : List GangEntry} (f : Grid → Grid)
    (q : Pitch → Pitch) (h : t.holds gid g gang now k n) : ((t.updGrid i f).updPitch p q).holds gid g gang now k n := by
  simpa only [State.holds, State.wg, State.warp, State.updPitch_wgs, State.updGrid_wgs, State.updPitch_warps,
    State.updGrid_warps] using h

/-- Settles O48: an order that sorts the arbitration, an induction over the grids passed over, and one over the places taken. -/
theorem placement : Obligations.Placement := by
  refine ⟨fun s p h => execWorkgroupPlacement_none h, fun s u p i g xs ys hf ha hx hg => ?_, fun s p => ?_,
    fun s p e he => ?_, fun s p i g cs hi ht hc => ⟨State.placeGrid_zero hc, fun u hu hd => ?_⟩⟩
  · have hmem : (i, g) ∈ s.arbitration p := by simp [ha]
    have hthere := KMap.get?_isSome_of_mem (State.mem_arbitration.1 hmem).1
    show execWorkgroupPlacement p s = .next u
    rw [execWorkgroupPlacement_thawed hf, ha, State.placeFirst_append _ _ _ _ hx, State.placeFirst_placed _ _ _ _ _ _ hthere hg]
  · refine (s.arbitration_sorted p).imp fun {a b} h => ?_
    rw [turnsBefore_iff] at h
    refine h.imp_right fun ⟨hprio, hrank⟩ => ⟨hprio.symm, ?_⟩
    dsimp only
    rw [hprio] at hrank ⊢
    exact turnRank_le hrank
  · obtain ⟨hm, hr⟩ := State.mem_arbitration.1 he
    exact ⟨hm, State.gridReady_spec hr⟩
  · obtain ⟨hlen, hnodup, hfree⟩ := State.pickCores_spec hc
    obtain ⟨t, hall, rfl⟩ := State.placeGrid_placed hc hu
    have hkeys := State.placeKeys_nodup hnodup hfree
    have hclean : g.slines = 0 ∨ ∀ e ∈ (cs.map s.placeKey).zipIdx, (s.core (coreOf e.1)).dirty = [] := by
      refine hd.imp_right fun hcs e he => ?_
      obtain ⟨c, hm, hk⟩ := List.mem_map.1 (List.fst_mem_of_mem_zipIdx he)
      obtain ⟨slot, hs⟩ := hfree c hm
      rw [← hk, State.coreOf_placeKey hs]
      exact hcs c hm
    obtain ⟨hto, -, hheld⟩ := State.placeAll_spec (Grid.warpsN_le ht) (by rwa [List.zipIdx_map_fst]) hclean hall
    refine ⟨fun hp => ?_, ?_, hlen, hnodup, fun j hj c hjc => ?_⟩
    · rw [State.updPitch_pitch (by rw [State.updGrid_pitches, hto.only]; exact hp), KMap.get?_put_self]
    · have hgrid : t.grids.get? i = some g := by rw [hto.only]; exact hi
      have hu := State.updGrid_grid (f := fun g => { g with placed := g.placed + cs.length }) hgrid
      rw [State.grid, State.updPitch_grids, ← State.grid, hu]
    · obtain ⟨slot, hs⟩ := hfree c (List.mem_of_getElem? hjc)
      obtain ⟨hslot, hnone⟩ := State.freeSlot_spec hs
      have hkey : (c * 16 + slot, j) ∈ (cs.map s.placeKey).zipIdx := by
        rw [List.mk_mem_zipIdx_iff_getElem?, List.getElem?_map, hjc, Option.map_some, State.placeKey_eq hs]
      refine ⟨slot, hslot, hnone, ?_⟩
      obtain ⟨hwg, hwarp⟩ := State.served_holds (i := i) (p := p) (fun g => { g with placed := g.placed + cs.length })
        (fun q => { q with turns := q.turns.put g.prio i }) (hheld _ hkey)
      dsimp only at hwg hwarp ⊢
      rw [hwg]
      refine ⟨rfl, rfl, rfl, rfl, rfl, rfl, by simp [Workgroup.launched, State.gangAt], fun w hw l hl => ?_⟩
      rw [hwarp w hw, Warp.launched_lane _ _ _ _ hl]
      split
      · next hn => exact Thread.launched_live _ _ hn
      · next hn => exact Thread.launched_absent _ _ hn

end Sys2Proof.Machine
end

section
/-! The conditions of a wait record and one evaluation of them (R62–R66). -/

namespace Sys2Proof.Machine

theorem getLsbD_condBit (n k : Nat) : ((1 <<< n : Nat) : BitVec 4).getLsbD k = (decide (k < 4) && decide (n = k)) := by
  rw [Nat.one_shiftLeft, BitVec.natCast_eq_ofNat, BitVec.getLsbD_ofNat, Nat.testBit_two_pow]

theorem usedMask_append (cs : List Cond) (c : Cond) : usedMask (cs ++ [c]) = usedMask cs ||| ((1 <<< c.k : Nat) : BitVec 4) := by
  simp only [usedMask, List.foldl_append, List.foldl_cons, List.foldl_nil]

theorem getLsbD_usedMask (cs : List Cond) {k : Nat} (hk : k < 4) : (usedMask cs).getLsbD k = true ↔ ∃ c ∈ cs, c.k = k := by
  induction cs using List.reverseRecOn with
  | nil => simp [usedMask]
  | append_singleton cs c ih =>
    rw [usedMask_append, BitVec.getLsbD_or, Bool.or_eq_true, ih, getLsbD_condBit]
    simp only [hk, decide_true, Bool.true_and, decide_eq_true_eq, List.mem_append, List.mem_singleton, or_and_right, exists_or,
      exists_eq_left]

/-- Every condition of a record is satisfied when the mask of the used ones lies in that of the satisfied ones. -/
theorem usedMask_covered {cs : List Cond} (h : ∀ c ∈ cs, c.k < 4) (m : BitVec 4) :
    (m &&& usedMask cs == usedMask cs) = cs.all fun c => m.getLsbD c.k := by
  rw [Bool.eq_iff_iff, beq_iff_eq, List.all_eq_true]
  constructor
  · intro he c hc
    have hu : (usedMask cs).getLsbD c.k = true := (getLsbD_usedMask cs (h c hc)).2 ⟨c, hc, rfl⟩
    rw [← he, BitVec.getLsbD_and, Bool.and_eq_true] at hu
    exact hu.1
  · intro hall
    refine BitVec.eq_of_getLsbD_eq fun k hk => ?_
    rw [BitVec.getLsbD_and, Bool.and_eq_right_iff_imp]
    intro hu
    obtain ⟨c, hc, rfl⟩ := (getLsbD_usedMask cs hk).1 hu
    exact hall c hc

/-- One evaluation that meets no trap (R64): the mask of the conditions observed. -/
theorem State.evaluate_ok {s : State} {wid : Nat} {priv : Bool} {cs : List Cond} {b : Cond → Bool}
    (h : ∀ c ∈ cs, s.observe wid priv c = .ok (b c)) : s.evaluate wid priv cs = (usedMask (cs.filter b), none) := by
  induction cs using List.reverseRecOn with
  | nil => rfl
  | append_singleton cs c ih =>
    rw [State.evaluate, List.foldl_append, ← State.evaluate, ih fun d hd => h d (List.mem_append_left _ hd), List.foldl_cons,
      List.foldl_nil, h c (by simp), List.filter_append]
    cases hb : b c with
    | true => rw [List.filter_cons_of_pos hb, List.filter_nil, usedMask_append]
    | false => rw [List.filter_cons_of_neg (by simp [hb]), List.filter_nil, List.append_nil]

/-- A record that can be read has a used condition (R66). -/
theorem State.waitRecord_ne {s : State} {wid off : Nat} {cs : List Cond} (h : s.waitRecord wid off = .ok cs) : cs ≠ [] := by
  simp only [State.waitRecord] at h
  split at h
  · cases h
  split at h
  · cases h
  split at h
  · cases h
  split at h
  · cases h
  split at h
  · cases h
  split at h
  · cases h
  · next hne =>
    rw [Except.ok.injEq] at h
    rw [← h]
    exact fun he => hne (List.isEmpty_iff.2 he)

/-- The evaluation satisfies a wait: some condition now, and where all are asked for each of them at some time (R64). -/
def WaitInfo.enough (w : WaitInfo) (cs : List Cond) (now : BitVec 4) : Bool :=
  decide (now ≠ 0) && (!w.all || cs.all fun c => (w.seen ||| now).getLsbD c.k)

/-- The deadline of a wait has passed. -/
def WaitInfo.past (w : WaitInfo) (time : Nat) : Bool := w.deadline.any fun d => decide (d ≤ time)

/-- When a wait completes, and with TO when (R64, R65, R67). -/
theorem waitDone_eq {w : WaitInfo} {cs : List Cond} (h : ∀ c ∈ cs, c.k < 4) (now : BitVec 4) (time : Nat) :
    waitDone w (usedMask cs) now time =
      if w.enough cs now = true ∨ w.late = true ∨ w.past time = true then some (!(w.enough cs now && !w.late)) else none := by
  have he : (now != 0 && (!w.all || (w.seen ||| now) &&& usedMask cs == usedMask cs)) = w.enough cs now := by
    have hz : (now != 0) = decide (now ≠ 0) := Bool.eq_iff_iff.2 (by simp)
    rw [usedMask_covered h, hz, WaitInfo.enough]
  rw [waitDone, he]
  cases w.late with
  | true => simp
  | false =>
    cases w.enough cs now with
    | true => simp
    | false =>
      unfold WaitInfo.past
      cases w.deadline with
      | none => simp
      | some d => simp [Option.any]

/-- The result word of a wait (R64): the conditions satisfied, and TO in bit 4. -/
theorem waitWord_eq (now : BitVec 4) (tmo : Bool) : waitWord now tmo = .gen (BitVec.ofNat 32 (now.toNat + if tmo then 16 else 0)) := by
  unfold waitWord
  congr 1
  revert now tmo
  decide

theorem waitWord_done (now : BitVec 4) (sat : Bool) :
    waitWord now (!sat) = .gen (BitVec.ofNat 32 (now.toNat + if sat then 0 else 16)) := by
  rw [waitWord_eq]
  cases sat <;> rfl

theorem State.takeEvents_only (s : State) (wid : Nat) (cs : List Cond) (now : BitVec 4) :
    s.takeEvents wid cs now = { s with wgs := (s.takeEvents wid cs now).wgs } := by
  unfold State.takeEvents
  simp only [State.updWg]
  split
  · rfl
  · split <;> rfl

end Sys2Proof.Machine
end

section
/-! `WAIT` (R229): the bundle takes its result word, or waits. -/

namespace Sys2Proof.Machine

/-! ## Charging a bill -/

/-- Nothing but budgets, walkers and cores has changed. -/
abbrev State.BilledTo (s t : State) : Prop := t = { s with regions := t.regions, walkers := t.walkers, cores := t.cores }

theorem State.BilledTo.trans {s t u : State} (h : s.BilledTo t) (k : t.BilledTo u) : s.BilledTo u := by
  rw [State.BilledTo, k, h]

theorem State.BilledTo.cur {s t : State} (h : s.BilledTo t) : t.cur = s.cur := by rw [h]

theorem State.BilledTo.curCore {s t : State} (h : s.BilledTo t) : t.curCore = s.curCore := by rw [h]; rfl

theorem State.BilledTo.curPriv {s t : State} (h : s.BilledTo t) : t.curPriv = s.curPriv := by rw [h]; rfl

theorem State.BilledTo.time {s t : State} (h : s.BilledTo t) : t.time = s.time := by rw [h]; rfl

theorem State.BilledTo.gridOf {s t : State} (h : s.BilledTo t) (wid : Nat) : t.gridOf wid = s.gridOf wid := by rw [h]; rfl

theorem State.BilledTo.warps {s t : State} (h : s.BilledTo t) : t.warps = s.warps := by rw [h]

theorem State.BilledTo.foldl {α : Type} {f : State → α → State} (h : ∀ (s : State) x, s.BilledTo (f s x)) (s : State) (xs : List α) :
    s.BilledTo (xs.foldl f s) := by
  induction xs generalizing s with
  | nil => rfl
  | cons x xs ih => exact (h s x).trans (ih (f s x))

theorem State.billedTo_updRegion (s : State) (a : Nat) (f : Region → Region) : s.BilledTo (s.updRegion a f) := by
  unfold State.BilledTo State.updRegion
  split <;> rfl

theorem State.billedTo_charge (s : State) (g : Grid) (k n : Nat) : s.BilledTo (s.charge g k n) := by
  unfold State.charge
  split
  · rfl
  · exact State.BilledTo.foldl (fun s e => s.billedTo_updRegion _ _) s g.fields

theorem State.billedTo_walked (s : State) (die c va : Nat) : s.BilledTo (s.walked die c va) := by
  unfold State.BilledTo State.walked
  dsimp only
  split <;> rfl

theorem State.billedTo_touch (s : State) (core c va : Nat) (u : Access) : s.BilledTo (s.touch core c va u) := by
  have hw := s.billedTo_walked (dieOf core) c va
  unfold State.touch
  split
  · dsimp only
    split
    · split
      · exact hw
      · exact hw.trans rfl
    · exact hw
  · rfl

theorem State.billedTo_pay (s : State) (core c : Nat) (g : Grid) (b : Bill) : s.BilledTo (s.pay core c g b) :=
  (State.BilledTo.foldl (fun s (x : Nat × Nat) => s.billedTo_charge g x.1 x.2) s _).trans
    (State.BilledTo.foldl (fun s (x : Nat × Access) => s.billedTo_touch core c x.1 x.2) _ _)

theorem State.billedTo_chargeAccess {s v : State} {write : Bool} {recs faults vas : List Nat} {own : Bool}
    (h : s.chargeAccess write recs faults vas own = some v) : s.BilledTo v := by
  unfold State.chargeAccess at h
  dsimp only at h
  split at h
  · rw [Option.some.injEq] at h
    exact h ▸ s.billedTo_pay _ _ _ _
  · cases h

/-! ## A bundle that waits -/

/-- An instruction without traps leaves its lanes but for what a switch marker does (R133). -/
theorem State.LanesTo.finish {s t : State} {n : Nat} {h : Nat → Thread} (e : s.LanesTo t n h) (f : Fields) :
    ∃ h', s.LanesTo (t.finish f []) n h' ∧ (∀ l < 32, s.active l = false → h' l = h l) ∧
      ∀ l < 32, s.active l = true → h' l = h l ∨ ∃ busy, h' l = (h l).marked busy := by
  rcases State.finish_nil t f with he | ⟨busy, he⟩ <;> rw [he]
  · exact ⟨h, e.count, fun _ _ _ => rfl, fun _ _ _ => .inl rfl⟩
  · rw [e.cur]
    refine ⟨_, e.count.lanes _, fun l _ ha => ?_, fun l _ ha => ?_⟩
    · rw [e.active, ha, if_neg Bool.false_ne_true]
    · rw [e.active, ha, if_pos rfl]
      exact .inr ⟨_, rfl⟩

/-- A thread that waits is marked, and waits on (R133). -/
theorem Thread.marked_waiting {t : Thread} {w : WaitInfo} {b : Bool} (h : t.status = .waiting w b) (busy : Bool) :
    t.marked busy = { t with parks := true } := by
  rw [Thread.marked, h]

/-- A lane of the bundle put into a status. -/
def State.stayed (s : State) (st : Nat → Thread → Status) (l : Nat) : Thread :=
  if s.active l then { s.curWarp.lane l with status := st l (s.curWarp.lane l) } else s.curWarp.lane l

theorem State.LanesTo.stayAs {s : State} (hb : s.Bundled) (st : Nat → Thread → Status) :
    s.LanesTo (s.stayAs st) s.curWarp.next (s.stayed st) :=
  (State.LanesTo.refl hb).lanes fun l t => if s.active l then { t with status := st l t } else t

theorem State.stays_congr {s t : State} {st st' : Nat → Status} (h : s.Stays t st) (he : ∀ l < 32, st l = st' l) :
    s.Stays t st' := by
  obtain ⟨hdevice, helse, hother, hwarp, hlane⟩ := h
  exact ⟨hdevice, helse, hother, hwarp, fun l hl ha => he l hl ▸ hlane l hl ha⟩

/-- A bundle put to wait stays at its instruction (R63). -/
theorem State.stays_waiting {s : State} (hb : s.Bundled) (f : Fields) (w : WaitInfo) (b : Nat → Bool) :
    s.Stays ((s.stayAs fun l _ => .waiting w (b l)).finish f []) fun l => .waiting w (b l) := by
  obtain ⟨h, e, hout, hin⟩ := (State.LanesTo.stayAs hb fun l _ => .waiting w (b l)).finish f
  refine ⟨e.device, e.elsewhere, e.otherKeep fun l hl ha => ?_, e.warp, fun l hl ha => ?_⟩
  · rw [hout l hl ha, State.stayed, ha, if_neg Bool.false_ne_true]
  · have stayed : s.stayed (fun l _ => .waiting w (b l)) l = { s.curWarp.lane l with status := .waiting w (b l) } := by
      rw [State.stayed, ha, if_pos rfl]
    rcases hin l hl ha with hl' | ⟨busy, hl'⟩
    · rw [e.lane l hl, hl', stayed]
    · rw [e.lane l hl, hl', stayed, Thread.marked_waiting rfl]

/-- An instruction that acts once, and whose effect waits, leaves its bundle at the instruction. -/
theorem State.once_wait {s u : State} {op : Op} {f : Fields} {more : List Nat} {whole : Bool}
    {src : State → Thread → List Source} {body : State → Ins → List Ins → Did} {l : Nat} {ls : List Nat}
    (hc : s.Clear op f) (hm : more = []) (hr : s.Reads f (src s)) (hl : s.running f = l :: ls)
    (hb : body s (insOf l (s.curWarp.lane l) (src s (s.curWarp.lane l)))
      ((s.running f).map fun k => insOf k (s.curWarp.lane k) (src s (s.curWarp.lane k))) = .wait u) :
    s.once op f more whole src body = .next (u.finish f []) := by
  subst hm
  unfold State.once
  rw [State.issue_next hc.2.1]
  simp only [State.gather_ok hc.2.2.1 hr]
  rw [hl, List.map_cons] at hb ⊢
  simp only [hb]

end Sys2Proof.Machine
end

section
/-! `WAIT` at its issue (R229). -/

namespace Sys2Proof.Machine

/-- The wait that a `WAIT` of lane `l` starts, its first evaluation having satisfied `now` (R229). -/
def State.waitStart (s : State) (f : Fields) (l : Nat) (now : BitVec 4) : WaitInfo :=
  { off := s.wA .waitC f l, deadline := if s.wB .waitC f l = 0xFFFFFFFF then none else some (s.time + (s.wB .waitC f l).toNat),
    all := f.x, late := false, scope := f.scope, seen := now, uni := f.ud, dst := f.d.toNat }

/-- The wait as the instruction writes it, from the words of its operands. -/
theorem State.waitStart_eq (s : State) (f : Fields) (l : Nat) (now : BitVec 4) : s.waitStart f l now =
    { off := w0 (s.opA .waitC f l),
      deadline := if w0 (s.opB .waitC f l) == 0xFFFFFFFF then none else some (s.time + (w0 (s.opB .waitC f l)).toNat),
      all := f.x, late := false, scope := f.scope, seen := now, uni := f.ud, dst := f.d.toNat } := by
  simp only [State.waitStart, State.wA, State.wB, beq_iff_eq]
  congr

section
variable {s v : State} {f : Fields} {l : Nat} {ls : List Nat} {cs : List Cond} {now : BitVec 4}
  (hl : s.running f = l :: ls) (hc : s.Clear .waitC f) (hg : s.Good .waitC f)
  (hrec : s.waitRecord s.cur.wid (s.wA .waitC f l).toNat = .ok cs)
  (hpay : s.chargeAccess false [] [] (watchedVas cs) true = some v)
  (heval : v.evaluate s.cur.wid s.curPriv cs = (now, none))
include hl hc hg hrec hpay heval

/-- A `WAIT` that its first evaluation completes, or that may not wait, gives its result word. -/
theorem execWaitC_done {tmo : Bool} (h : waitDone (s.waitStart f l now) (usedMask cs) now s.time = some tmo) :
    execWaitC f s = .next ((((v.takeEvents s.cur.wid cs now).give f (s.running f) (waitWord now tmo)).acquireAt s.curCore
      (if tmo then 0 else f.scope)).advanceBut f []) := by
  have hbill : s.BilledTo v := State.billedTo_chargeAccess hpay
  rw [State.waitStart_eq] at h
  rw [State.wA] at hrec
  unfold execWaitC
  refine State.once_done hc rfl hg hl ?_
  simp only [onceSources, State.insOf_sources _ _ _ _ (show Op.waitC ≠ .bitfn by decide), List.map_map, hrec, hpay, hbill.cur,
    hbill.curPriv, hbill.time, hbill.curCore, heval, h, Function.comp_def, List.map_id']

/-- A `WAIT` that nothing completes leaves its whole bundle waiting. -/
theorem execWaitC_waits (h : waitDone (s.waitStart f l now) (usedMask cs) now s.time = none) :
    execWaitC f s = .next ((v.stayAs fun k _ => .waiting (s.waitStart f l now) (decide (k ∈ s.running f))).finish f []) := by
  have hbill : s.BilledTo v := State.billedTo_chargeAccess hpay
  have hany (k : Nat) : ((s.running f).any fun j => j == k) = decide (k ∈ s.running f) := by
    rw [Bool.eq_iff_iff, List.any_eq_true, decide_eq_true_eq]
    simp
  rw [State.waitStart_eq] at h ⊢
  rw [State.wA] at hrec
  unfold execWaitC
  refine State.once_wait hc rfl hg hl ?_
  simp only [onceSources, State.insOf_sources _ _ _ _ (show Op.waitC ≠ .bitfn by decide), List.any_map, hrec, hpay, hbill.cur,
    hbill.curPriv, hbill.time, heval, h, Function.comp_def, hany]

end

/-! ## The result of a `WAIT` -/

/-- A word given before an acquire is given after it. -/
theorem State.give_acquireAt (s : State) (f : Fields) (ls : List Nat) (x : CWord) (core scope : Nat) :
    (s.give f ls x).acquireAt core scope = (s.acquireAt core scope).give f ls x := by
  unfold State.acquireAt
  split
  · rfl
  · simp only [State.give, State.updWarp, State.updCore, State.setCore]
    split <;> rfl

/-- A wait of all conditions that are satisfied has one that is, as a record has a condition (R64, R66). -/
theorem WaitInfo.enough_first {w : WaitInfo} {cs : List Cond} {now : BitVec 4} (hs : w.seen = now) (hne : cs ≠ []) :
    w.enough cs now = if w.all then cs.all fun c => now.getLsbD c.k else decide (now ≠ 0) := by
  rw [WaitInfo.enough, hs, BitVec.or_self]
  cases w.all with
  | false => simp
  | true =>
    have hnow : (cs.all fun c => now.getLsbD c.k) = true → now ≠ 0 := by
      rintro hall rfl
      obtain ⟨c, hc⟩ := List.exists_mem_of_ne_nil cs hne
      exact absurd (List.all_eq_true.1 hall c hc) (by simp)
    simpa using hnow

/-- The deadline of a `WAIT` at its issue has passed when its time-out is 0. -/
theorem State.waitStart_past (s : State) (f : Fields) (l : Nat) (now : BitVec 4) :
    (s.waitStart f l now).past s.time = decide (s.wB .waitC f l = 0) := by
  have hz : (s.wB .waitC f l).toNat = 0 ↔ s.wB .waitC f l = 0 := by bv_omega
  simp only [WaitInfo.past, State.waitStart]
  split
  · next h => simp [h]
  · rw [Option.any_some, decide_eq_decide, ← hz]
    omega

section
variable {s v : State} {f : Fields} {l : Nat} {ls : List Nat} {cs : List Cond} {now : BitVec 4}
  (hl : s.running f = l :: ls) (hc : s.Clear .waitC f) (hg : s.Good .waitC f)
  (hrec : s.waitRecord s.cur.wid (s.wA .waitC f l).toNat = .ok cs)
  (hpay : s.chargeAccess false [] [] (watchedVas cs) true = some v)
  (heval : v.evaluate s.cur.wid s.curPriv cs = (now, none)) (hk : ∀ c ∈ cs, c.k < 4) {sat : Bool}
  (hsat : (s.waitStart f l now).enough cs now = sat)
include hl hc hg hrec hpay heval hk hsat

/-- `WAIT` gives its result word where its conditions are satisfied or its time-out is 0. -/
theorem exec_waitC_done (h : sat = true ∨ s.wB .waitC f l = 0) : ∃ t, exec (.waitC f) s = .next t ∧
    ((v.takeEvents s.cur.wid cs now).acquireAt s.curCore (if sat then f.scope else 0)).Wrote t f fun _ =>
      { dst := [.gen (BitVec.ofNat 32 (now.toNat + if sat then 0 else 16))] } := by
  have hbill : s.BilledTo v := State.billedTo_chargeAccess hpay
  have hdone : waitDone (s.waitStart f l now) (usedMask cs) now s.time = some !sat := by
    rw [waitDone_eq hk, State.waitStart_past, hsat, if_pos, State.waitStart, Bool.not_false, Bool.and_true]
    exact h.imp_right fun hz => .inr (decide_eq_true hz)
  have hexec := execWaitC_done hl hc hg hrec hpay heval hdone
  have hscope : (if (!sat) = true then 0 else f.scope) = if sat then f.scope else 0 := by cases sat <;> rfl
  rw [State.give_acquireAt, waitWord_done, hscope] at hexec
  have hrun : ((v.takeEvents s.cur.wid cs now).acquireAt s.curCore (if sat then f.scope else 0)).running f = s.running f := by
    rw [State.acquireAt_eq, State.takeEvents_only, hbill]
    rfl
  have hb : ((v.takeEvents s.cur.wid cs now).acquireAt s.curCore (if sat then f.scope else 0)).Bundled := by
    rw [State.acquireAt_eq, State.takeEvents_only, hbill]
    exact hc.1
  rw [← hrun] at hexec
  exact ⟨_, hexec, State.wrote_give _ hb (by rw [hrun, hl]; exact List.cons_ne_nil _ _)⟩

/-- Otherwise the whole bundle waits. -/
theorem exec_waitC_waits (h : ¬ (sat = true ∨ s.wB .waitC f l = 0)) : ∃ t, exec (.waitC f) s = .next t ∧
    v.Stays t fun k => .waiting (s.waitStart f l now) (decide (s.Runs f k)) := by
  have hbill : s.BilledTo v := State.billedTo_chargeAccess hpay
  have hnone : waitDone (s.waitStart f l now) (usedMask cs) now s.time = none := by
    rw [waitDone_eq hk, State.waitStart_past, hsat, if_neg]
    rintro (hs | hlate | hz)
    · exact h (.inl hs)
    · cases hlate
    · exact h (.inr (of_decide_eq_true hz))
  have hb : v.Bundled := by
    rw [hbill]
    exact hc.1
  refine ⟨_, execWaitC_waits hl hc hg hrec hpay heval hnone, State.stays_congr (State.stays_waiting hb f _ _) fun k h32 => ?_⟩
  have hmem : (k ∈ s.running f) = s.Runs f k := propext (State.mem_running.trans (and_iff_right h32))
  simp only [hmem]

end

end Sys2Proof.Machine
end

section
/-! A waiting bundle is evaluated again (R65, R67). -/

namespace Sys2Proof.Machine

/-- The state of an evaluation: its words charged (R393). -/
def State.reviewed (s : State) (wid : Nat) (cs : List Cond) : State :=
  s.pay (warpCore wid) (s.ctxOf wid) (s.gridOf wid)
    (s.accessBill (warpCore wid) (s.ctxOf wid) { user := !(s.gridOf wid).priv } (watchedVas cs) true)

/-- The conditions that an evaluation satisfies. -/
def State.reviewNow (s : State) (wid : Nat) (cs : List Cond) : BitVec 4 :=
  ((s.reviewed wid cs).evaluate wid (s.gridOf wid).priv cs).1

theorem State.billedTo_reviewed (s : State) (wid : Nat) (cs : List Cond) : s.BilledTo (s.reviewed wid cs) :=
  s.billedTo_pay _ _ _ _

/-- A thread that waits in the bundle `bid` has seen the conditions `now` too (R65). -/
def Thread.sees (t : Thread) (bid : Nat) (now : BitVec 4) : Thread :=
  match t.status with
  | .waiting j b => if t.bid = bid then { t with status := .waiting { j with seen := j.seen ||| now } b } else t
  | _ => t

section
variable {s : State} {wid bid : Nat} {i : WaitInfo} {cs : List Cond}
  (hw : (s.warp wid).waitOf bid = some i) (hrec : s.waitRecord wid i.off.toNat = .ok cs) (hk : ∀ c ∈ cs, c.k < 4)
include hw hrec hk

/-- An evaluation that completes the wait. -/
theorem State.reevaluate_done
    (h : i.enough cs (s.reviewNow wid cs) = true ∨ i.late = true ∨ i.past s.time = true) : ∃ scope, s.reevaluate wid bid =
      (((s.reviewed wid cs).takeEvents wid cs (s.reviewNow wid cs)).updWarp wid fun w =>
        w.endWait bid i (waitWord (s.reviewNow wid cs) (!(i.enough cs (s.reviewNow wid cs) && !i.late))) s.cycle).acquireAt
          (warpCore wid) scope := by
  have hdone := waitDone_eq (w := i) hk (s.reviewNow wid cs) s.time
  rw [if_pos h] at hdone
  have hne : cs.isEmpty = false := by simpa using State.waitRecord_ne hrec
  have htime : (s.reviewed wid cs).time = s.time := (s.billedTo_reviewed wid cs).time
  have hgrid : (s.reviewed wid cs).gridOf wid = s.gridOf wid := (s.billedTo_reviewed wid cs).gridOf wid
  have hcycle : (s.reviewed wid cs).cycle = s.cycle := by rw [s.billedTo_reviewed wid cs]
  simp only [State.reviewNow, State.reviewed] at hdone htime hgrid hcycle ⊢
  simp only [State.reevaluate, hw, hrec, hne, Bool.false_eq_true, if_false, htime, hgrid, hdone, hcycle]
  exact ⟨_, rfl⟩

/-- An evaluation that does not complete the wait. -/
theorem State.reevaluate_waits (he : i.enough cs (s.reviewNow wid cs) = false) (hl : i.late = false)
    (hp : i.past s.time = false) : s.reevaluate wid bid =
      (s.reviewed wid cs).updWarp wid fun w => w.mapLanes fun _ t => t.sees bid (s.reviewNow wid cs) := by
  have hdone := waitDone_eq (w := i) hk (s.reviewNow wid cs) s.time
  rw [if_neg (by simp [he, hl, hp])] at hdone
  have hne : cs.isEmpty = false := by simpa using State.waitRecord_ne hrec
  have htime : (s.reviewed wid cs).time = s.time := (s.billedTo_reviewed wid cs).time
  have hgrid : (s.reviewed wid cs).gridOf wid = s.gridOf wid := (s.billedTo_reviewed wid cs).gridOf wid
  simp only [State.reviewNow, State.reviewed] at hdone htime hgrid ⊢
  simp only [State.reevaluate, hw, hrec, hne, Bool.false_eq_true, if_false, htime, hgrid, hdone]
  rfl

end

theorem Thread.sees_pc (t : Thread) (bid : Nat) (now : BitVec 4) : (t.sees bid now).pc = t.pc := by
  unfold Thread.sees
  split
  · split <;> rfl
  · rfl

theorem Thread.sees_regs (t : Thread) (bid : Nat) (now : BitVec 4) : (t.sees bid now).regs = t.regs := by
  unfold Thread.sees
  split
  · split <;> rfl
  · rfl

/-! ## The end of a wait -/

/-- A thread waits in the bundle `bid`. -/
def Thread.waitsIn (t : Thread) (bid : Nat) : Prop := ∃ j b, t.status = .waiting j b ∧ t.bid = bid

/-- A thread that waits takes the result. -/
def Thread.awaitsWord (t : Thread) : Bool := match t.status with
  | .waiting _ b => b
  | _ => false

/-- What the end of a wait makes of a lane (R64, R229). -/
def Thread.waitEnded (t : Thread) (bid : Nat) (i : WaitInfo) (x : CWord) (now : Nat) : Thread :=
  match t.status with
  | .waiting _ writes =>
    if t.bid = bid then ((if writes && !i.uni then t.setReg i.dst x else t).goto (t.pc + 8)).wake now else t
  | _ => t

theorem Warp.endWait_lane {w : Warp} {l : Nat} (h : l < w.lanes.length) (bid : Nat) (i : WaitInfo) (x : CWord) (now : Nat) :
    (w.endWait bid i x now).lane l = (w.lane l).waitEnded bid i x now := by
  unfold Warp.endWait
  split
  · rw [Warp.lane_setWreg, Warp.lane_mapLanes _ _ _ h]
    rfl
  · rw [Warp.lane_mapLanes _ _ _ h]
    rfl

theorem Warp.endWait_wreg (w : Warp) (bid : Nat) {i : WaitInfo} (x : CWord) (now : Nat) (h : i.uni = true) :
    (w.endWait bid i x now).wreg (i.dst % 64) = x := by
  simp only [Warp.endWait, h, if_true, Warp.wreg, Warp.setWreg, KMap.getD_set]

theorem Thread.waitEnded_other {t : Thread} {bid : Nat} (h : ¬ t.waitsIn bid) (i : WaitInfo) (x : CWord) (now : Nat) :
    t.waitEnded bid i x now = t := by
  unfold Thread.waitEnded
  split
  · next j b hs => exact if_neg fun hb => h ⟨j, b, hs, hb⟩
  · rfl

theorem Thread.waitEnded_self {t : Thread} {bid : Nat} (h : t.waitsIn bid) (i : WaitInfo) (x : CWord) (now : Nat) :
    (t.waitEnded bid i x now).pc = t.pc + 8 ∧ ∀ r, (t.waitEnded bid i x now).reg r =
      if i.uni = false ∧ r = i.dst ∧ t.awaitsWord = true then x else t.reg r := by
  obtain ⟨j, b, hs, hb⟩ := h
  have he : t.waitEnded bid i x now = ((if b && !i.uni then t.setReg i.dst x else t).goto (t.pc + 8)).wake now := by
    rw [Thread.waitEnded, hs]
    exact if_pos hb
  have ha : t.awaitsWord = b := by rw [Thread.awaitsWord, hs]
  rw [he, ha]
  refine ⟨rfl, fun r => ?_⟩
  show (if b && !i.uni then t.setReg i.dst x else t).reg r = _
  cases b <;> cases i.uni <;> simp [Thread.reg_setReg]

@[simp] theorem State.warp_acquireAt (s : State) (core scope v : Nat) : (s.acquireAt core scope).warp v = s.warp v := by
  rw [State.acquireAt_eq]
  rfl

/-! ## `WAIT_EVALUATION` and `WAIT_TIMEOUT` -/

section
variable {s : State} {wid bid : Nat} {i : WaitInfo} {cs : List Cond}
  (hthere : (s.warps.get? wid).isSome = true) (h32 : (s.warp wid).lanes.length = 32)
  (hw : (s.warp wid).waitOf bid = some i) (hrec : s.waitRecord wid i.off.toNat = .ok cs) (hk : ∀ c ∈ cs, c.k < 4)
include hthere h32 hw hrec hk

/-- The lanes of the bundle complete with the result word. -/
theorem exec_waitEvaluation_done
    (h : i.enough cs (s.reviewNow wid cs) = true ∨ i.late = true ∨ i.past s.time = true) {x : CWord}
    (hx : x = .gen (BitVec.ofNat 32 ((s.reviewNow wid cs).toNat + if i.enough cs (s.reviewNow wid cs) && !i.late then 0 else 16))) :
    ∃ t, exec (.waitEvaluation wid bid) s = .next t ∧ (i.uni = true → (t.warp wid).wreg (i.dst % 64) = x) ∧
      ∀ l < 32, (¬ ((s.warp wid).lane l).waitsIn bid → (t.warp wid).lane l = (s.warp wid).lane l) ∧
        (((s.warp wid).lane l).waitsIn bid → ((t.warp wid).lane l).pc = ((s.warp wid).lane l).pc + 8 ∧
          ∀ r, ((t.warp wid).lane l).reg r =
            if i.uni = false ∧ r = i.dst ∧ ((s.warp wid).lane l).awaitsWord = true then x else ((s.warp wid).lane l).reg r) := by
  obtain ⟨scope, he⟩ := State.reevaluate_done hw hrec hk h
  rw [waitWord_done, ← hx] at he
  have hwarp : (s.reevaluate wid bid).warp wid = (s.warp wid).endWait bid i x s.cycle := by
    rw [he, State.warp_acquireAt, State.warp_updWarp, State.takeEvents_only, s.billedTo_reviewed wid cs]
    · rfl
    · rw [State.takeEvents_only, s.billedTo_reviewed wid cs]
      exact hthere
  refine ⟨s.reevaluate wid bid, rfl, fun hu => ?_, fun l hl => ?_⟩
  · rw [hwarp]
    exact Warp.endWait_wreg _ _ _ _ hu
  · rw [hwarp, Warp.endWait_lane (h32 ▸ hl)]
    exact ⟨fun hn => Thread.waitEnded_other hn _ _ _, fun hs => Thread.waitEnded_self hs _ _ _⟩

/-- Before its deadline a bundle whose conditions do not hold waits on. -/
theorem exec_waitEvaluation_waits (he : i.enough cs (s.reviewNow wid cs) = false) (hl : i.late = false)
    (hp : i.past s.time = false) : ∃ t, exec (.waitEvaluation wid bid) s = .next t ∧
      t = { s.reviewed wid cs with warps := t.warps } ∧ ∀ l < 32, ((t.warp wid).lane l).pc = ((s.warp wid).lane l).pc ∧
        ((t.warp wid).lane l).regs = ((s.warp wid).lane l).regs := by
  have heq := State.reevaluate_waits hw hrec hk he hl hp
  have hwarp : (s.reevaluate wid bid).warp wid =
      (s.warp wid).mapLanes fun _ t => t.sees bid (s.reviewNow wid cs) := by
    rw [heq, State.warp_updWarp]
    · rw [State.warp, (s.billedTo_reviewed wid cs).warps, ← State.warp]
    · rw [(s.billedTo_reviewed wid cs).warps]
      exact hthere
  refine ⟨s.reevaluate wid bid, rfl, ?_, fun l hl => ?_⟩
  · rw [heq]
    exact State.updWarp_eq _ _ _
  · rw [hwarp, Warp.lane_mapLanes _ _ _ (h32 ▸ hl)]
    exact ⟨Thread.sees_pc _ _ _, Thread.sees_regs _ _ _⟩

end

/-- At the deadline a time-out is an evaluation (R65). -/
theorem exec_waitTimeout_past {s : State} {wid bid : Nat} {i : WaitInfo} (hw : (s.warp wid).waitOf bid = some i)
    (hp : i.past s.time = true) : exec (.waitTimeout wid bid) s = exec (.waitEvaluation wid bid) s := by
  show execWaitTimeout wid bid s = execWaitEvaluation wid bid s
  obtain ⟨d, hd, hle⟩ := (Option.any_eq_true _ _).1 hp
  rw [execWaitTimeout, hw, Option.bind_some, hd]
  exact if_pos (of_decide_eq_true hle)

/-- Before the deadline it is nothing. -/
theorem exec_waitTimeout_early {s : State} {wid bid : Nat} {i : WaitInfo} (hw : (s.warp wid).waitOf bid = some i)
    (hp : i.past s.time = false) : exec (.waitTimeout wid bid) s = .next s := by
  show execWaitTimeout wid bid s = _
  rw [execWaitTimeout, hw, Option.bind_some]
  rw [WaitInfo.past] at hp
  cases hd : i.deadline with
  | none => rfl
  | some d =>
    rw [hd] at hp
    exact if_neg (of_decide_eq_false hp)

end Sys2Proof.Machine
end

section
/-! What a warp does by itself: SFU results, asynchronous causes, and the time-outs of its handlers (R203, R337, R338, R462). -/

namespace Sys2Proof.Machine

/-! ## The results of the SFU (R202, R203) -/

/-- A lane that takes a queued result. -/
def Thread.takesSfu (t : Thread) (x : SfuEntry) : Thread :=
  if t.live then
    ({ t with fflags := t.fflags ||| x.flags }).setReg x.dst.reg (sfuResult x.op x.ty x.rm x.src.data).1
  else t

/-- A queued result that checks, for a lane of its own. -/
abbrev SfuEntry.plain (x : SfuEntry) : Prop := x.lane < 32 ∧ x.value.wellFormed = true ∧ x.after = none ∧ x.dst.uni = false

theorem State.sfuWrite_plain {s : State} {x : SfuEntry} (h : x.plain) :
    s.sfuWrite x = s.updWarp x.wid fun w => w.updLane x.lane fun t => t.takesSfu x := by
  obtain ⟨-, hvalue, hafter, huni⟩ := h
  simp only [State.sfuWrite, hvalue, hafter, huni, Bool.false_and, Bool.false_eq_true, if_true, if_false]
  rfl

/-- Results for different lanes of a warp: each lane takes its own, and the others keep. -/
theorem State.foldl_sfuWrite {s : State} {wid : Nat} {xs : List SfuEntry} (hx : ∀ x ∈ xs, x.wid = wid ∧ x.plain)
    (hthere : (s.warps.get? wid).isSome = true) (h32 : (s.warp wid).lanes.length = 32) (hd : (xs.map (·.lane)).Nodup) :
    ((xs.foldl State.sfuWrite s).cores = s.cores) ∧
      (∀ l < 32, l ∉ xs.map (·.lane) → ((xs.foldl State.sfuWrite s).warp wid).lane l = (s.warp wid).lane l) ∧
      ∀ x ∈ xs, ((xs.foldl State.sfuWrite s).warp wid).lane x.lane = ((s.warp wid).lane x.lane).takesSfu x := by
  induction xs generalizing s with
  | nil => exact ⟨rfl, fun _ _ _ => rfl, by simp⟩
  | cons x xs ih =>
    obtain ⟨hwid, hplain⟩ := hx x (by simp)
    rw [List.map_cons, List.nodup_cons] at hd
    have hone := State.sfuWrite_plain (s := s) hplain
    rw [hwid] at hone
    have hwarp : (s.sfuWrite x).warp wid = (s.warp wid).updLane x.lane fun t => t.takesSfu x := by
      rw [hone, State.warp_updWarp _ _ _ hthere]
    have hlane (l : Nat) (hl : l < 32) : ((s.sfuWrite x).warp wid).lane l =
        if l = x.lane then ((s.warp wid).lane l).takesSfu x else (s.warp wid).lane l := by
      rw [hwarp, Warp.lane_updLane _ _ _ _ (h32 ▸ hl)]
    obtain ⟨hcores, hother, htook⟩ := ih (s := s.sfuWrite x) (fun y hy => hx y (List.mem_cons_of_mem _ hy))
      (by rw [hone, State.updWarp_isSome]; exact hthere) (by rw [hwarp, Warp.length_updLane]; exact h32) hd.2
    rw [List.foldl_cons]
    refine ⟨hcores.trans (by rw [hone, State.updWarp_eq]), fun l hl hn => ?_, fun y hy => ?_⟩
    · rw [List.map_cons, List.mem_cons, not_or] at hn
      rw [hother l hl hn.2, hlane l hl, if_neg hn.1]
    · rcases List.mem_cons.1 hy with rfl | hy
      · rw [hother _ hplain.1 hd.1, hlane _ hplain.1, if_pos rfl]
      · have hne : y.lane ≠ x.lane := fun he => hd.1 (he ▸ List.mem_map_of_mem hy)
        rw [htook y hy, hlane _ (hx y (List.mem_cons_of_mem _ hy)).2.1, if_neg hne]

/-- The queue's results that a test names leave it, and their lanes have taken them. -/
theorem State.drainSfu_spec {s : State} {core wid : Nat} {p : SfuEntry → Bool}
    (hx : ∀ x ∈ (s.core core).sfu, p x = true → x.wid = wid ∧ x.plain) (hthere : (s.warps.get? wid).isSome = true)
    (h32 : (s.warp wid).lanes.length = 32) (hd : (((s.core core).sfu.filter p).map (·.lane)).Nodup) :
    ((s.drainSfu core p).core core).sfu = (s.core core).sfu.filter (fun x => !p x) ∧
      ∀ x ∈ (s.core core).sfu, p x = true →
        ((s.drainSfu core p).warp wid).lane x.lane = ((s.warp wid).lane x.lane).takesSfu x := by
  obtain ⟨hcores, -, htook⟩ := State.foldl_sfuWrite (s := s) (wid := wid) (xs := (s.core core).sfu.filter p)
    (fun x hm => hx x (List.mem_of_mem_filter hm) (List.mem_filter.1 hm).2) hthere h32 hd
  rw [State.drainSfu]
  refine ⟨?_, fun x hm hp => ?_⟩
  · rw [State.core_updCore_self, State.core, hcores]
    rfl
  · rw [State.warp_updCore]
    exact htook x (List.mem_filter.2 ⟨hm, hp⟩)

/-! ## A whole warp enters a handler (R338) -/

/-- The frame with which a lane of a warp enters the handler of an asynchronous cause. -/
def State.asyncFrame (s : State) (wid : Nat) (a : Async) (t : Thread) : Frame :=
  let w := s.warp wid
  { gid := w.next, tfm := 0xFFFFFFFF, tam := w.live, tcause := BitVec.ofNat 16 (a.cause + 256), tinfo := a.info,
    tpc := (w.lane ((lowestLane w.live).getD 0)).fullPc, taddr := a.addr, mr := none, since := s.time, emu := none,
    async := some ⟨t.pc, t.hi, t.bid, t.parks, t.status⟩, wrote := false, entry := none }

theorem State.enterAsync_eq {s : State} {wid : Nat} {a : Async} {pc : Addr}
    (hsfu : ∀ e ∈ (s.core (warpCore wid)).sfu, e.wid ≠ wid) (hv : s.vector (warpCore wid) (s.ctxOf wid) a.cause = some pc) :
    s.enterAsync wid a = (s.setCore (warpCore wid) (s.core (warpCore wid))).setWarp wid
      { (s.warp wid).mapLanes fun _ t => t.enter (s.asyncFrame wid a t) pc (s.warp wid).next with
        next := (s.warp wid).next + 1 } := by
  have hidle : ∀ e ∈ (s.core (warpCore wid)).sfu, (e.wid == wid) = false := fun e he => beq_false_of_ne (hsfu e he)
  simp only [State.enterAsync, State.drainSfu_idle hidle, State.vector_setCore_self, hv]
  rfl

theorem exec_asyncEntry {s : State} {wid : Nat} {a : Async} {as : List Async} {pc : Addr} (ha : (s.warp wid).asyncs = a :: as)
    (hthere : (s.warps.get? wid).isSome = true) (h32 : (s.warp wid).lanes.length = 32) (hdue : (s.warp wid).asyncDue = true)
    (hsfu : ∀ e ∈ (s.core (warpCore wid)).sfu, e.wid ≠ wid) (hv : s.vector (warpCore wid) (s.ctxOf wid) a.cause = some pc) :
    ∃ t, exec (.asyncEntry wid) s = .next t ∧ (∀ v, v ≠ wid → t.warp v = s.warp v) ∧
      t.warp wid = { s.warp wid with lanes := (t.warp wid).lanes, asyncs := as, next := (s.warp wid).next + 1 } ∧
      ∀ l < 32, ∃ fr : Frame, (t.warp wid).lane l = ((s.warp wid).lane l).enter fr pc (s.warp wid).next ∧
        fr.tfm = 0xFFFFFFFF ∧ fr.tam = (s.warp wid).live ∧ fr.tcause = BitVec.ofNat 16 (a.cause + 256) ∧
        fr.tinfo = a.info ∧ fr.taddr = a.addr ∧
        fr.async = some ⟨((s.warp wid).lane l).pc, ((s.warp wid).lane l).hi, ((s.warp wid).lane l).bid,
          ((s.warp wid).lane l).parks, ((s.warp wid).lane l).status⟩ := by
  obtain ⟨s1, hs1⟩ : ∃ s1, s1 = s.setWarp wid { s.warp wid with asyncs := as } := ⟨_, rfl⟩
  have hexec : exec (.asyncEntry wid) s = .next (s1.enterAsync wid a) := by
    show execAsyncEntry wid s = _
    simp only [execAsyncEntry, ha, hdue, Bool.not_true, Bool.false_eq_true, if_false, State.updWarp_there hthere, hs1]
  have hwarp : s1.warp wid = { s.warp wid with asyncs := as } := by rw [hs1, State.warp_setWarp]
  have hne (v : Nat) (h : v ≠ wid) : s1.warp v = s.warp v := by rw [hs1, State.warp_setWarp_ne _ _ h]
  have hv1 : s1.vector (warpCore wid) (s1.ctxOf wid) a.cause = some pc := by
    rw [hs1]
    exact (State.vector_congr rfl rfl rfl rfl _ _).trans hv
  rw [State.enterAsync_eq (by rw [hs1]; exact hsfu) hv1] at hexec
  refine ⟨_, hexec, fun v h => ?_, ?_, fun l hl => ⟨s1.asyncFrame wid a ((s.warp wid).lane l), ?_, rfl, ?_, rfl, rfl, rfl, rfl⟩⟩
  · rw [State.warp_setWarp_ne _ _ h]
    exact hne v h
  · rw [State.warp_setWarp, hwarp]
    rfl
  · rw [State.warp_setWarp, hwarp]
    exact Warp.lane_mapLanes _ _ _ (h32 ▸ hl)
  · rw [State.asyncFrame, hwarp]
    rfl

/-! ## The time of a handler or a routine is over (R337, R462) -/

theorem State.foldl_ctxs {α : Type} {f : State → α → State} (h : ∀ (s : State) x, (f s x).ctxs = s.ctxs) (s : State) (xs : List α) :
    (xs.foldl f s).ctxs = s.ctxs := by
  induction xs generalizing s with
  | nil => rfl
  | cons x xs ih => exact (ih (f s x)).trans (h s x)

theorem State.l2Touch_ctxs (s : State) (n : Nat) : (s.l2Touch n).ctxs = s.ctxs := by
  unfold State.l2Touch
  dsimp only
  split
  · rfl
  · split
    · rfl
    · split <;> rfl

theorem State.homeWord_ctxs (s : State) (owner pa : Nat) (w : CWord) : (s.homeWord owner pa w).ctxs = s.ctxs := by
  have ht := s.l2Touch_ctxs (pa / 128)
  unfold State.homeWord State.l2Claim
  dsimp only
  split
  · exact ht
  · rfl

theorem State.homeWords_ctxs (s : State) (owner pa : Nat) (ws : List CWord) : (s.homeWords owner pa ws).ctxs = s.ctxs :=
  State.foldl_ctxs (fun s (x : CWord × Nat) => s.homeWord_ctxs owner (pa + 4 * x.2) x.1) s _

theorem State.metaBack_ctxs (s : State) (e : MetaEntry) : (s.metaBack e).ctxs = s.ctxs := by
  unfold State.metaBack
  split
  · exact s.homeWords_ctxs _ _ _
  · rfl

theorem State.metaPut_ctxs (s : State) (slice : Nat) (e : MetaEntry) : (s.metaPut slice e).ctxs = s.ctxs :=
  State.foldl_ctxs State.metaBack_ctxs _ _

theorem State.viewBack_ctxs (s : State) (key : Nat) : (s.viewBack key).ctxs = s.ctxs := by
  unfold State.viewBack
  split
  · rfl
  · split
    · rfl
    · refine State.foldl_ctxs (fun s k => ?_) s _
      split
      · exact State.foldl_ctxs (fun s (x : Nat × CWord) => s.homeWord_ctxs _ _ _) s _
      · rfl

theorem State.viewWords_ctxs (s : State) (owner p : Nat) (a : Aperture) (xs : List (Nat × CWord)) :
    (s.viewWords owner p a xs).ctxs = s.ctxs := by
  unfold State.viewWords
  split
  · rfl
  · dsimp only
    split
    · exact s.viewBack_ctxs _
    · rfl

theorem State.chunkWords_ctxs (s : State) (owner : Nat) (a : Aperture) (off : Nat) (xs : List (Nat × CWord)) :
    (s.chunkWords owner a off xs).1.ctxs = s.ctxs := by
  unfold State.chunkWords
  dsimp only
  split
  · exact (State.metaPut_ctxs _ _ _).trans (s.homeWords_ctxs _ _ _)
  · exact s.metaPut_ctxs _ _

/-- A write at a home changes no context. -/
theorem State.placeWords_ctxs (s : State) (owner p : Nat) (priv : Bool) (xs : List (Nat × CWord)) :
    (s.placeWords owner p priv xs).1.ctxs = s.ctxs := by
  unfold State.placeWords
  split
  · rfl
  split
  · split
    · rfl
    split
    · exact s.viewWords_ctxs _ _ _ _
    · exact s.chunkWords_ctxs _ _ _ _
  · exact State.foldl_ctxs (fun s (x : Nat × CWord) => s.homeWord_ctxs _ _ _) s _
  · refine State.foldl_ctxs (fun s (x : Nat × CWord) => ?_) s _
    split
    · exact s.homeWord_ctxs _ _ _
    · exact s.homeWord_ctxs owner x.1 (.poison x.2)
  · exact State.foldl_ctxs (fun s (x : Nat × CWord) => s.homeWord_ctxs _ _ _) s _

theorem State.complete_ctxs (s : State) (g : Grid) (st why : Nat) : (s.complete g st why).ctxs = s.ctxs := by
  unfold State.complete
  extract_lets c p written
  have hw : written.ctxs = s.ctxs := by
    unfold written
    split
    · rfl
    · split
      · rfl
      · split
        · exact s.placeWords_ctxs _ _ _ _
        · rfl
  split
  · exact hw
  · exact hw

/-- Of the contexts, a kill changes the killed one alone, which is then retired (R347). -/
theorem State.killOne_ctxs (s : State) (c why : Nat) : ∃ t : State, t.ctxs = s.ctxs ∧
    (s.killOne c why).ctxs = (t.updCtx c fun k => { k with retired := true, stopped := true }).ctxs := by
  unfold State.killOne
  dsimp only
  refine ⟨_, ?_, State.updPitch_ctxs _ _ _⟩
  exact (State.foldl_ctxs (fun s (e : Nat × Grid) => s.complete_ctxs e.2 2 why) _ _).trans
    (State.foldl_ctxs (f := fun s k => s.freeWg k) (fun _ _ => rfl) s (s.wgsOf c))

theorem State.killOne_retired {s : State} {c : Nat} (h : (s.ctxs.get? c).isSome = true) (why : Nat) :
    ((s.killOne c why).ctx c).retired = true := by
  obtain ⟨t, ht, hk⟩ := s.killOne_ctxs c why
  obtain ⟨x, hx⟩ := Option.isSome_iff_exists.1 h
  rw [State.ctx, hk, State.updCtx, ht, hx]
  simp

/-- A kill that is not an error's does not spread (R450). -/
theorem State.kill_eq_killOne {why : Nat} (h : why ≠ 2) (s : State) (c : Nat) : s.kill c why = s.killOne c why := by
  rw [State.kill, if_neg h]
  rfl

/-- A live lane of a warp is in the group `gid`, inside a routine when `emu` asks for that, and its time is over. -/
def Warp.overdue (w : Warp) (gid now : Nat) (emu : Bool) : Bool :=
  w.lanes.any fun t => t.live &&
    t.frames.any fun g => g.gid == gid && (!emu || g.emu.isSome) && decide (g.since + Config.handlerBudget ≤ now)

theorem Warp.overdue_routine (w : Warp) (gid now : Nat) : w.overdue gid now true =
    w.lanes.any fun t => t.live && t.frames.any fun g => g.gid == gid && g.emu.isSome && g.expired now := by
  simp only [Warp.overdue, Frame.expired, Bool.not_true, Bool.false_or]

theorem Warp.overdue_any (w : Warp) (gid now : Nat) : w.overdue gid now false =
    w.lanes.any fun t => t.live && t.frames.any fun g => g.gid == gid && g.expired now := by
  simp only [Warp.overdue, Frame.expired, Bool.not_false, Bool.true_or, Bool.and_true]

theorem exec_emulationTimeout (s : State) (wid gid : Nat) : exec (.emulationTimeout wid gid) s =
    if (s.warp wid).overdue gid s.time true then .next (s.kill (s.ctxOf wid) 5) else .next s := by
  show execEmulationTimeout wid gid s = _
  rw [Warp.overdue_routine, execEmulationTimeout]

theorem exec_handlerBudgetExpiry (s : State) (wid gid : Nat) : exec (.handlerBudgetExpiry wid gid) s =
    .next (if (s.warp wid).overdue gid s.time false then s.trySave (s.ctx (s.ctxOf wid)).pitch else s) := by
  show execHandlerBudgetExpiry wid gid s = _
  rw [Warp.overdue_any, execHandlerBudgetExpiry]

end Sys2Proof.Machine
end

section
/-! The waiting forms and what goes on by itself: the obligation. -/

namespace Sys2Proof.Machine

/-- The words that a condition compares (R62). -/
theorem compares_eq (x v : Word) : compares 0 x v = decide (x = v) ∧ compares 1 x v = decide (x ≠ v) ∧
    compares 2 x v = decide (x.toInt < v.toInt) ∧ compares 3 x v = decide (v.toInt ≤ x.toInt) ∧
    compares 4 x v = decide (x.toNat < v.toNat) ∧ compares 5 x v = decide (v.toNat ≤ x.toNat) := by
  refine ⟨?_, ?_, rfl, rfl, rfl, rfl⟩
  · exact beq_eq_decide _ _
  · exact Bool.eq_iff_iff.2 (by simp [compares])

/-- Settles O23: the first evaluation of a `WAIT` and a later one through one equation of their completion (`waitDone_eq`), the SFU queue
by induction over its results, a handler entry and a kill through what each writes. -/
theorem waitingForms : Obligations.WaitingForms := by
  refine ⟨⟨compares_eq, fun s wid priv cs b hk hb => ?_, fun s f l ls cs now v hl hc hg hrec hpay heval => ?_⟩,
    fun s wid bid i cs hthere h32 hw hrec => ?_, fun s core e q hq => ?_, fun s wid a as pc ha hthere h32 hdue hsfu hv => ?_,
    fun s wid gid => ?_⟩
  · rw [State.evaluate_ok hb]
    refine ⟨rfl, fun k h4 => ?_⟩
    simp only [getLsbD_usedMask _ h4, List.mem_filter]
    exact exists_congr fun c => by tauto
  · intro limit satisfied w hk
    have hsat : (s.waitStart f l now).enough cs now = satisfied := WaitInfo.enough_first rfl (State.waitRecord_ne hrec)
    split
    · next h => exact exec_waitC_done hl hc hg hrec hpay heval hk hsat h
    · next h => exact exec_waitC_waits hl hc hg hrec hpay heval hk hsat h
  · intro v now enough past waits writes hk
    exact ⟨fun h => exec_waitEvaluation_done hthere h32 hw hrec hk h rfl,
      fun he hl hp => exec_waitEvaluation_waits hthere h32 hw hrec hk he hl hp,
      fun hp => exec_waitTimeout_past hw hp, fun hp => exec_waitTimeout_early hw hp⟩
  · intro mine hthere h32 hplain hd
    have hmine (x : SfuEntry) : (x.wid == e.wid && x.id == e.id) = mine x := (Bool.decide_and _ _).symm
    have hexec : exec (.sfuWriteBack core) s = .next (s.drainSfu core mine) := by
      show execSfuWriteBack core s = _
      simp only [execSfuWriteBack, hq, hmine]
    have hwid (x : SfuEntry) (h : mine x = true) : x.wid = e.wid := (of_decide_eq_true h).1
    obtain ⟨hleft, htook⟩ := State.drainSfu_spec (s := s) (core := core) (wid := e.wid) (p := mine)
      (fun x hx hm => ⟨hwid x hm, hplain x (hq ▸ hx) hm⟩) hthere h32 (by rw [hq]; exact hd)
    rw [hq] at hleft htook
    exact ⟨_, hexec, hleft, htook⟩
  · obtain ⟨t, ht, hother, hwarp, hlane⟩ := exec_asyncEntry ha hthere h32 hdue hsfu hv
    refine ⟨t, ht, hother, hwarp, fun l hl => ?_⟩
    obtain ⟨fr, hfr, htfm, htam, hcause, hinfo, haddr, hasync⟩ := hlane l hl
    exact ⟨{ fr with mr := ((s.warp wid).lane l).mr }, hfr, htfm, htam, hcause, hinfo, haddr, rfl, hasync⟩
  · intro past
    refine ⟨fun h => ?_, fun h hc => ⟨s.kill (s.ctxOf wid) 5, ?_, ?_⟩, _, exec_handlerBudgetExpiry s wid gid, fun h => ?_, fun h => ?_⟩
    · rw [exec_emulationTimeout]
      exact if_neg (by rw [Bool.not_eq_true]; exact h)
    · rw [exec_emulationTimeout]
      exact if_pos h
    · rw [State.kill_eq_killOne (by decide)]
      exact State.killOne_retired hc 5
    · exact if_neg (by rw [Bool.not_eq_true]; exact h)
    · rw [if_pos (show (s.warp wid).overdue gid s.time false = true from h)]
      rfl

end Sys2Proof.Machine
end

section
/-!
Rounding into an IEEE format (R75, R97, R98). `roundMag` rounds to a multiple of a power of two and packs the multiple into a code.
Between two neighbours the codes and the multiples have the same values, so the rounding of one is the rounding of the other.
-/

namespace Sys2Proof.Machine

/-! ## The value that a mode names -/

/-- The mode may round a magnitude of this sign up (R97): to nearest, or toward the infinity of its sign. -/
def roundsAway (rm : Nat) (neg : Bool) : Bool := rm = 0 ∨ (rm = 2 ∧ neg = false) ∨ (rm = 3 ∧ neg = true)

/-- Between `v c` and `v (c + 1)` the mode names the upper one for the magnitude `x` (R97). -/
def RoundsUp (rm : Nat) (neg : Bool) (x : ℚ) (v : Nat → ℚ) (c : Nat) : Prop :=
  x ≠ v c ∧ roundsAway rm neg = true ∧ (rm = 0 → (v c + v (c + 1)) / 2 < x ∨ (x = (v c + v (c + 1)) / 2 ∧ c % 2 = 1))

/-- The place `b` is the rounding of `x` to the values of `v`, with `c` the last place at or below `x`. -/
structure Rounds (rm : Nat) (neg : Bool) (x : ℚ) (v : Nat → ℚ) (c b : Nat) (inexact : Bool) : Prop where
  le : v c ≤ x
  lt : x < v (c + 1)
  up : RoundsUp rm neg x v c → b = c + 1
  down : ¬ RoundsUp rm neg x v c → b = c
  inexact : inexact = true ↔ x ≠ v c

theorem Rounds.self {rm : Nat} {neg : Bool} {x : ℚ} {v : Nat → ℚ} {c : Nat} (h : x = v c) (hlt : v c < v (c + 1)) :
    Rounds rm neg x v c c false := by
  subst h
  exact ⟨le_rfl, hlt, fun h => absurd rfl h.1, fun _ => rfl, by simp⟩

/-- The rounding of a magnitude is one of the two neighbours. -/
theorem Rounds.eq_or {rm : Nat} {neg : Bool} {x : ℚ} {v : Nat → ℚ} {c b : Nat} {i : Bool} (h : Rounds rm neg x v c b i) :
    (b = c + 1 ∧ roundsAway rm neg = true ∧ x ≠ v c) ∨ b = c := by
  by_cases hu : RoundsUp rm neg x v c
  · have ⟨hne, haway, _⟩ := hu
    exact .inl ⟨h.up hu, haway, hne⟩
  · exact .inr (h.down hu)

/-- Two scales that agree on the two neighbours round alike when the places differ by an even number. -/
theorem Rounds.shift {rm : Nat} {neg : Bool} {x : ℚ} {v w : Nat → ℚ} {c b s : Nat} {i : Bool} (h : Rounds rm neg x v c b i)
    (hs : s % 2 = 0) (h₀ : w (s + c) = v c) (h₁ : w (s + c + 1) = v (c + 1)) : Rounds rm neg x w (s + c) (s + b) i := by
  have hodd : (s + c) % 2 = c % 2 := by omega
  have hiff : RoundsUp rm neg x w (s + c) ↔ RoundsUp rm neg x v c := by rw [RoundsUp, RoundsUp, h₀, h₁, hodd]
  obtain ⟨hle, hlt, hup, hdown, hi⟩ := h
  exact ⟨h₀ ▸ hle, h₁ ▸ hlt, fun h => by rw [hup (hiff.1 h), add_assoc], fun h => by rw [hdown (mt hiff.2 h)], h₀ ▸ hi⟩

/-! ## Rounding to a multiple of a power of two -/

/-- The multiples of `2^q`. -/
def multiples (q : Int) (n : Nat) : ℚ := n * (2 : ℚ) ^ q

theorem multiples_strictMono (q : Int) : StrictMono (multiples q) := fun a b h => by
  have hu : (0 : ℚ) < 2 ^ q := by positivity
  exact mul_lt_mul_of_pos_right (Nat.cast_lt.2 h) hu

theorem multiples_two_pow (q : Int) (j : Nat) : multiples q (2 ^ j) = (2 : ℚ) ^ (q + j) := by
  rw [multiples, Nat.cast_pow, Nat.cast_two, zpow_add₀ two_ne_zero, zpow_natCast, mul_comm]

/-- `x` stands `r` parts above `v c` where the next place stands `K` parts above it: what the mode names, from the remainder `r`. -/
theorem roundsUp_iff_remainder {rm : Nat} {neg : Bool} {x t : ℚ} {v : Nat → ℚ} {c r K : Nat} (ht : 0 < t) (hx : x = v c + r * t)
    (hv : v (c + 1) = v c + K * t) : RoundsUp rm neg x v c ↔
      r ≠ 0 ∧ roundsAway rm neg = true ∧ (rm = 0 → K < 2 * r ∨ (2 * r = K ∧ c % 2 = 1)) := by
  have hne : x ≠ v c ↔ r ≠ 0 := by simp [hx, ht.ne']
  have hmid : x - (v c + v (c + 1)) / 2 = (2 * r - K : ℚ) * (t / 2) := by rw [hx, hv]; ring
  have hlt : (v c + v (c + 1)) / 2 < x ↔ K < 2 * r := by
    rw [← sub_pos, hmid, mul_pos_iff_of_pos_right (half_pos ht), sub_pos]
    exact_mod_cast Iff.rfl
  have heq : x = (v c + v (c + 1)) / 2 ↔ 2 * r = K := by
    rw [← sub_eq_zero, hmid, mul_eq_zero_iff_right (half_pos ht).ne', sub_eq_zero]
    exact_mod_cast Iff.rfl
  rw [RoundsUp, hne, hlt, heq]

theorem two_zpow_eq_mul {a b : Int} (h : a ≤ b) : (2 : ℚ) ^ b = (2 ^ (b - a).toNat : Nat) * 2 ^ a := by
  rw [Nat.cast_pow, Nat.cast_two, ← zpow_natCast, ← zpow_add₀ two_ne_zero, Int.toNat_of_nonneg (sub_nonneg.2 h), sub_add_cancel]

/-- A magnitude that is a multiple already. -/
theorem roundQ_of_le (rm : Nat) (neg : Bool) (m : Nat) {e q : Int} (h : q ≤ e) :
    roundQ rm neg m e q = (m * 2 ^ (e - q).toNat, false) := if_pos h

/-- A magnitude between two multiples, by its remainder. -/
theorem roundQ_of_lt {rm : Nat} (hrm : rm < 4) (neg : Bool) (m : Nat) {e q : Int} (h : e < q) {n r K : Nat} (hK : 2 ^ (q - e).toNat = K)
    (hn : m / K = n) (hr : m % K = r) :
    roundQ rm neg m e q =
      (n + (decide (r ≠ 0 ∧ roundsAway rm neg = true ∧ (rm = 0 → K < 2 * r ∨ (2 * r = K ∧ n % 2 = 1)))).toNat,
        decide (r ≠ 0)) := by
  simp only [roundQ, if_neg h.not_ge, hK, hn, hr]
  split
  · next h0 => simp [h0]
  · next h0 => interval_cases rm <;> cases neg <;> simp [h0, roundsAway, beq_eq_decide]

/-- `roundQ` gives the multiple of `2^q` that the mode names (R97). -/
theorem roundQ_rounds {rm : Nat} (hrm : rm < 4) (neg : Bool) (m : Nat) (e q : Int) :
    ∃ n, Rounds rm neg (m * (2 : ℚ) ^ e) (multiples q) n (roundQ rm neg m e q).1 (roundQ rm neg m e q).2 := by
  rcases le_or_gt q e with h | h
  · rw [roundQ_of_le rm neg m h]
    refine ⟨_, .self ?_ (multiples_strictMono _ (Nat.lt_succ_self _))⟩
    rw [two_zpow_eq_mul h, multiples, Nat.cast_mul, mul_assoc]
  · obtain ⟨K, hK⟩ : ∃ K, 2 ^ (q - e).toNat = K := ⟨_, rfl⟩
    have hpow : (2 : ℚ) ^ q = K * 2 ^ e := by rw [← hK, two_zpow_eq_mul h.le]
    have ht : (0 : ℚ) < 2 ^ e := by positivity
    have hdiv : (m : ℚ) = K * (m / K : Nat) + (m % K : Nat) := by exact_mod_cast (Nat.div_add_mod m K).symm
    have hlt : ((m % K : Nat) : ℚ) < K := by exact_mod_cast Nat.mod_lt m (hK ▸ Nat.two_pow_pos _)
    have hx : m * (2 : ℚ) ^ e = multiples q (m / K) + (m % K : Nat) * 2 ^ e := by
      rw [multiples, hpow, hdiv]
      ring
    have hv : multiples q (m / K + 1) = multiples q (m / K) + K * 2 ^ e := by
      rw [multiples, multiples, hpow]
      push_cast
      ring
    have hup := roundsUp_iff_remainder (rm := rm) (neg := neg) ht hx hv
    rw [roundQ_of_lt hrm neg m h hK rfl rfl]
    refine ⟨m / K, ?_, ?_, fun hu => ?_, fun hu => ?_, ?_⟩
    · rw [hx]
      exact le_add_of_nonneg_right (by positivity)
    · rw [hx, hv]
      exact (add_lt_add_iff_left _).2 (mul_lt_mul_of_pos_right hlt ht)
    · simp [decide_eq_true (hup.1 hu)]
    · simp [decide_eq_false (mt hup.2 hu)]
    · simp [hx, ht.ne']

/-! ## The codes of a format -/

namespace Ieee

theorem magAt_subnormal (F : Ieee) {n : Nat} (hn : n < 2 ^ F.fb) : F.magAt n = multiples (F.emin - F.fb) n := if_pos hn

theorem magAt_normal (F : Ieee) (k : Nat) {j : Nat} (hj : j < 2 ^ F.fb) :
    F.magAt ((k + 1) * 2 ^ F.fb + j) = multiples (F.emin - F.fb + k) (2 ^ F.fb + j) := by
  obtain ⟨hdiv, hmod⟩ := (Nat.div_mod_unique (Nat.two_pow_pos F.fb)).2
    ⟨show j + 2 ^ F.fb * (k + 1) = (k + 1) * 2 ^ F.fb + j by ring, hj⟩
  have hexp : ((k + 1 : Nat) : Int) - F.bias - F.fb = F.emin - F.fb + k := by
    unfold emin
    push_cast
    ring
  rw [magAt, if_neg (by rw [Nat.add_one_mul]; omega), hdiv, hmod, hexp, multiples]

/-- A multiple in the binade of its exponent, or the end of that binade, is the value of the code that it is packed into. -/
theorem magAt_pack (F : Ieee) {k n : Nat} (hk : k = 0 ∨ 2 ^ F.fb ≤ n) (hn : n ≤ 2 ^ (F.fb + 1)) :
    F.magAt (k * 2 ^ F.fb + n) = multiples (F.emin - F.fb + k) n := by
  rcases lt_or_ge n (2 ^ F.fb) with h | h
  · obtain rfl : k = 0 := by omega
    simpa using F.magAt_subnormal h
  rcases hn.lt_or_eq with hlt | rfl
  · obtain ⟨j, rfl⟩ := Nat.exists_eq_add_of_le h
    rw [← F.magAt_normal k (by rw [pow_succ] at hlt; omega), Nat.add_one_mul, add_assoc]
  · have hend := F.magAt_normal (k + 1) (Nat.two_pow_pos F.fb)
    rw [add_zero, add_zero, multiples_two_pow] at hend
    rw [multiples_two_pow, show k * 2 ^ F.fb + 2 ^ (F.fb + 1) = (k + 1 + 1) * 2 ^ F.fb by ring, hend]
    congr 1
    push_cast
    ring

/-- The exponent field and the significand of a code. -/
theorem exists_pack (F : Ieee) (c : Nat) :
    ∃ k n, c = k * 2 ^ F.fb + n ∧ (k = 0 ∨ 2 ^ F.fb ≤ n) ∧ n + 1 ≤ 2 ^ (F.fb + 1) := by
  have hpos : 0 < 2 ^ F.fb := by positivity
  have hc := Nat.div_add_mod' c (2 ^ F.fb)
  have hlt := Nat.mod_lt c hpos
  rw [pow_succ]
  rcases Nat.eq_zero_or_eq_sub_one_add_one (n := c / 2 ^ F.fb) with h | h
  · rw [h] at hc
    exact ⟨0, c, by omega, .inl rfl, by omega⟩
  · rw [h, Nat.add_one_mul] at hc
    exact ⟨c / 2 ^ F.fb - 1, 2 ^ F.fb + c % 2 ^ F.fb, by omega, .inr (by omega), by omega⟩

theorem magAt_strictMono (F : Ieee) : StrictMono F.magAt := by
  refine strictMono_nat_of_lt_succ fun c => ?_
  obtain ⟨k, n, rfl, hk, hn⟩ := F.exists_pack c
  rw [F.magAt_pack hk (by omega), add_assoc, F.magAt_pack (by omega) hn]
  exact multiples_strictMono _ (Nat.lt_succ_self _)

/-- The one place of a code at or below a magnitude. -/
theorem magAt_unique (F : Ieee) {x : ℚ} {c d : Nat} (hc : F.magAt c ≤ x) (hc' : x < F.magAt (c + 1)) (hd : F.magAt d ≤ x)
    (hd' : x < F.magAt (d + 1)) : c = d := by
  have h₁ := F.magAt_strictMono.lt_iff_lt.1 (hc.trans_lt hd')
  have h₂ := F.magAt_strictMono.lt_iff_lt.1 (hd.trans_lt hc')
  omega

end Ieee

/-! ## Rounding into a format -/

/-- The bits and the flags of a code that a magnitude was rounded to (R98). -/
def packed (F : Ieee) (rm : Nat) (neg : Bool) (b : Nat) (inexact tiny : Bool) : Nat × BitVec 5 :=
  if F.infBits ≤ b then (if roundsAway rm neg then F.infBits else F.infBits - 1, flagOF ||| flagNX)
  else (b, if inexact then (if tiny then flagUF ||| flagNX else flagNX) else 0)

/-- `Nat.log2` gives the binade of a magnitude. -/
theorem two_zpow_log2_le {m : Nat} (hm : m ≠ 0) (e : Int) :
    (2 : ℚ) ^ (Nat.log2 m + e) ≤ m * 2 ^ e ∧ m * (2 : ℚ) ^ e < 2 ^ (Nat.log2 m + e + 1) := by
  have he : (0 : ℚ) < 2 ^ e := by positivity
  rw [add_right_comm, zpow_add₀ two_ne_zero, zpow_add₀ two_ne_zero (_ + 1)]
  exact ⟨mul_le_mul_of_nonneg_right (by exact_mod_cast Nat.log2_self_le hm) he.le,
    mul_lt_mul_of_pos_right (by exact_mod_cast Nat.lt_log2_self) he⟩

/-- The multiple below a magnitude fits the significand at the exponent that `roundMag` rounds at, `k` above the lowest. -/
theorem significand_fits {F : Ieee} {m n k : Nat} {e : Int} (hm : m ≠ 0)
    (hk : F.emin - F.fb + k = max (Nat.log2 m + e - F.fb) (F.emin - F.fb))
    (hle : multiples (F.emin - F.fb + k) n ≤ m * (2 : ℚ) ^ e) (hlt : m * (2 : ℚ) ^ e < multiples (F.emin - F.fb + k) (n + 1)) :
    (k = 0 ∨ 2 ^ F.fb ≤ n) ∧ n + 1 ≤ 2 ^ (F.fb + 1) := by
  obtain ⟨hlow, hhigh⟩ := two_zpow_log2_le hm e
  refine ⟨or_iff_not_imp_left.2 fun hk0 => ?_, ?_⟩
  · refine Nat.lt_succ_iff.1 ((multiples_strictMono _).lt_iff_lt.1 (lt_of_le_of_lt ?_ hlt))
    rw [multiples_two_pow]
    exact (zpow_le_zpow_right₀ one_le_two (by omega)).trans hlow
  · refine (multiples_strictMono _).lt_iff_lt.1 (hle.trans_lt (hhigh.trans_le ?_))
    rw [multiples_two_pow]
    exact zpow_le_zpow_right₀ one_le_two (by push_cast; omega)

/-- A place past the largest finite code overflows. -/
theorem packed_of_le {F : Ieee} {rm : Nat} {neg : Bool} {b : Nat} (i t : Bool) (h : F.infBits ≤ b) :
    packed F rm neg b i t = (if roundsAway rm neg then F.infBits else F.infBits - 1, flagOF ||| flagNX) := if_pos h

/-- A place that is finite, or that a finite magnitude was rounded up to, is its own code, and the flags say what befell it (R98). -/
theorem packed_code {F : Ieee} {rm : Nat} {neg : Bool} {b : Nat} {i : Bool} (t : Bool)
    (h : F.infBits ≤ b → b = F.infBits ∧ roundsAway rm neg = true ∧ i = true) :
    let r := packed F rm neg b i t
    r.1 = b ∧ (r.2.getLsbD 4 = true ↔ i = true) ∧ (r.2.getLsbD 2 = true ↔ b = F.infBits) ∧ r.2.getLsbD 0 = false ∧
      r.2.getLsbD 1 = false := by
  rcases le_or_gt F.infBits b with hb | hb
  · obtain ⟨rfl, haway, rfl⟩ := h hb
    simp only [packed_of_le _ _ hb, haway, if_true, true_and]
    decide
  · simp only [packed, if_neg hb.not_ge, hb.ne, iff_false, true_and]
    clear h
    revert i t
    decide

/-- `roundMag` packs the multiple that `roundQ` gives, `k` above the lowest exponent. -/
theorem roundMag_eq_packed {F : Ieee} {rm : Nat} (hrm : rm < 4) (neg : Bool) {m k : Nat} {e : Int} (hm : m ≠ 0)
    (hk : F.emin - F.fb + k = max (Nat.log2 m + e - F.fb) (F.emin - F.fb)) :
    ∃ t, roundMag F rm false neg m e = packed F rm neg (k * 2 ^ F.fb + (roundQ rm neg m e (F.emin - F.fb + k)).1)
      (roundQ rm neg m e (F.emin - F.fb + k)).2 t := by
  have hover : ((if (false || rm = 1 || (rm = 2 && neg) || (rm = 3 && !neg) : Bool) then F.infBits - 1 else F.infBits) : Nat) =
      if roundsAway rm neg then F.infBits else F.infBits - 1 := by
    interval_cases rm <;> cases neg <;> rfl
  simp only [roundMag, if_neg hm, ← hk, add_sub_cancel_left, Int.toNat_natCast, hover]
  exact ⟨_, rfl⟩

/-- `roundMag` gives the code that the mode names. -/
theorem roundMag_rounds {F : Ieee} (hF : 0 < F.infBits) (hfb : F.fb ≠ 0) {rm : Nat} (hrm : rm < 4) (neg : Bool) (m : Nat) (e : Int) :
    ∃ c b i t, Rounds rm neg (m * (2 : ℚ) ^ e) F.magAt c b i ∧ roundMag F rm false neg m e = packed F rm neg b i t := by
  rcases eq_or_ne m 0 with rfl | hm
  · refine ⟨0, 0, false, false, .self ?_ (F.magAt_strictMono Nat.one_pos), ?_⟩
    · simp [Ieee.magAt]
    · simp [roundMag, packed, hF.ne']
  obtain ⟨k, hk⟩ : ∃ k : Nat, F.emin - F.fb + k = max (Nat.log2 m + e - F.fb) (F.emin - F.fb) :=
    ⟨(max (Nat.log2 m + e - F.fb) (F.emin - F.fb) - (F.emin - F.fb)).toNat, by omega⟩
  obtain ⟨n, hround⟩ := roundQ_rounds hrm neg m e (F.emin - F.fb + k)
  obtain ⟨hnormal, hn⟩ := significand_fits hm hk hround.le hround.lt
  have heven : k * 2 ^ F.fb % 2 = 0 := Nat.even_iff.1 (((Nat.even_pow' hfb).2 even_two).mul_left k)
  have hcode := hround.shift heven (F.magAt_pack hnormal (by omega))
    (by rw [add_assoc]; exact F.magAt_pack (by omega) hn)
  obtain ⟨t, ht⟩ := roundMag_eq_packed hrm neg hm hk
  exact ⟨_, _, _, t, hcode, ht⟩

/-- Settles O7: `roundMag` gives the code that the mode names (`roundMag_rounds`), and only one code has the value at or below it. -/
theorem roundingModes : Obligations.RoundingModes := by
  unfold Obligations.RoundingModes
  intro F hF rm hrm neg m e x r away
  obtain ⟨hinf, hfb⟩ : 0 < F.infBits ∧ F.fb ≠ 0 := by
    revert F
    decide
  obtain ⟨c, b, i, t, hround, hr⟩ := roundMag_rounds hinf hfb hrm neg m e
  refine ⟨fun hover => ?_, fun d _ hle hlt => ?_⟩
  · have hc : F.infBits ≤ c := Nat.lt_succ_iff.1 (F.magAt_strictMono.lt_iff_lt.1 (hover.trans_lt hround.lt))
    exact hr.trans (packed_of_le i t (by have := hround.eq_or; omega))
  · obtain rfl := F.magAt_unique hround.le hround.lt hle hlt
    obtain ⟨hcode, hNX, hOF, hNV, hDZ⟩ := packed_code (F := F) (rm := rm) (neg := neg) (b := b) (i := i) t (fun hb => by
      rcases hround.eq_or with ⟨rfl, haway, hne⟩ | rfl
      · exact ⟨by omega, haway, hround.inexact.2 hne⟩
      · omega)
    rw [← hr] at hcode hNX hOF hNV hDZ
    exact ⟨fun hup => hcode.trans (hround.up hup), fun hup => hcode.trans (hround.down hup), hNX.trans hround.inexact,
      hOF.trans (by rw [← hcode]), hNV, hDZ⟩

end Sys2Proof.Machine
end

section
/-!
Residue arithmetic (R11, R106), and the counters and accumulator words that are checked by it (R102, R117, R283–R286, R294). A
counter's row agrees modulo 15 with its 24-bit pattern, so a true residue passes; a bank's counters then change one by one.
-/

namespace Sys2Proof.Machine

/-! ## Powers of 2 and complements modulo 15 -/

theorem two_pow_modEq (n : Nat) : 2 ^ n ≡ 2 ^ (n % 4) [MOD 15] := by exact_mod_cast pow2_mod n

theorem two_pow_four_mul_mod (j : Nat) : 2 ^ (4 * j) % 15 = 1 := by
  have h := two_pow_modEq (4 * j)
  rwa [Nat.mul_mod_right] at h

theorem two_pow_mod_four_mem (n : Nat) : 2 ^ (n % 4) ∈ [1, 2, 4, 8] := by
  have h : n % 4 < 4 := Nat.mod_lt n (by decide)
  interval_cases n % 4 <;> decide

theorem res_not_toNat (a : Word) : (res (~~~a)).toNat = (15 - (res a).toNat) % 15 := by
  rw [res_toNat, res_toNat, BitVec.toNat_not]
  omega

/-- Settles O1: powers of 2 go round after four modulo 15, and a word and its complement add up to a multiple of 15. -/
theorem residueArithmetic : Obligations.ResidueArithmetic := by
  unfold Obligations.ResidueArithmetic
  refine ⟨two_pow_four_mul_mod, fun n => ⟨two_pow_modEq n, two_pow_mod_four_mem n⟩, by decide, fun n => ⟨rfl, inv2_mul n⟩,
    by decide, fun a => ⟨?_, res_not_toNat a⟩⟩
  rw [res_toNat]
  exact Nat.mod_lt _ (by decide)

/-! ## Counters -/

/-- A counter's prediction is right when it agrees modulo 15 with the pattern. -/
theorem mod15_eq_res24 {x : Int} {v : BitVec 24} (h : x ≡ v.toNat [ZMOD 15]) : mod15 x = res24 v :=
  mod15_eq_res (by rwa [BitVec.toNat_setWidth_of_le (by decide)])

theorem res24_modEq (v : BitVec 24) : ((res24 v).toNat : Int) ≡ v.toNat [ZMOD 15] := by
  have h := resI_mod (v.zeroExtend 32)
  rwa [BitVec.toNat_setWidth_of_le (by decide)] at h

@[simp] theorem Counter.ok_mk_res24 (v : BitVec 24) : (Counter.mk v (res24 v)).ok = true := beq_self_eq_true _

theorem Counter.tag_modEq {c : Counter} (h : c.ok = true) : (c.tag.toNat : Int) ≡ c.value.toNat [ZMOD 15] := by
  rw [eq_of_beq h]
  exact res24_modEq _

/-- The carry of a 24-bit sum has the residue 1 of 2^24, which the row takes off. -/
theorem Counter.add_of_ok {c : Counter} (h : c.ok = true) (x : BitVec 24) :
    c.add x = some ⟨c.value + x, res24 (c.value + x)⟩ := by
  have hpred : mod15 (c.tag.toNat + (res24 x).toNat - if 2 ^ 24 ≤ c.value.toNat + x.toNat then 1 else 0) = res24 (c.value + x) := by
    refine mod15_eq_res24 (((Counter.tag_modEq h).add (res24_modEq x)).sub_right _ |>.trans ?_)
    rw [BitVec.toNat_add, Int.ModEq]
    split <;> omega
  rw [Counter.add, hpred]
  simp

/-- The bits shifted out stand for multiples of 2^24, whose residue is 1. -/
theorem Counter.shl_of_ok {c : Counter} (h : c.ok = true) (d : Nat) : c.shl d = some ⟨c.value <<< d, res24 (c.value <<< d)⟩ := by
  have hpred : mod15 (2 ^ d * c.tag.toNat - (c.value.toNat * 2 ^ d / 2 ^ 24 : Nat)) = res24 (c.value <<< d) := by
    refine mod15_eq_res24 (((Counter.tag_modEq h).mul_left _).sub_right _ |>.trans ?_)
    have hmul : (2 : Int) ^ d * c.value.toNat = (c.value.toNat * 2 ^ d : Nat) := by
      push_cast
      ring
    rw [BitVec.toNat_shiftLeft, Nat.shiftLeft_eq, hmul, Int.ModEq]
    omega
  rw [Counter.shl, hpred]
  simp

theorem inRange_iff {x : Int} : inRange x = true ↔ -2 ^ 23 ≤ x ∧ x < 2 ^ 23 := decide_eq_true_iff

/-- A sum in RANGE does not wrap (R284). -/
theorem toInt_add_ofInt_of_inRange {v : BitVec 24} {x : Int} (h : inRange (v.toInt + x) = true) :
    (v + BitVec.ofInt 24 x).toInt = v.toInt + x := by
  obtain ⟨hlo, hhi⟩ := inRange_iff.1 h
  rw [BitVec.toInt_add, BitVec.toInt_ofInt, Int.add_bmod_bmod]
  exact Int.bmod_eq_of_le (by omega) (by omega)

/-! ## Banks -/

/-- A fold over the numbers below `n` that never fails keeps what each of its steps carries on. -/
theorem foldl_range_eq_some {α : Type} {step : Option α → Nat → Option α} {P : Nat → α → Prop} {a : α} (n : Nat) (h0 : P 0 a)
    (hs : ∀ j < n, ∀ x, P j x → ∃ y, step (some x) j = some y ∧ P (j + 1) y) :
    ∃ c, (List.range n).foldl step (some a) = some c ∧ P n c := by
  induction n with
  | zero => exact ⟨a, rfl, h0⟩
  | succ n ih =>
    obtain ⟨x, hx, hP⟩ := ih fun j hj => hs j (by omega)
    rw [List.range_succ, List.foldl_append, hx]
    exact hs n (by omega) x hP

/-- The bank `c` is the bank `b` with the counters below `n` replaced by those of `g`. -/
def Bank.Replaced (b : Bank) (g : Nat → Counter) (n : Nat) (c : Bank) : Prop :=
  c = { b with cnt := c.cnt } ∧ ∀ j, c.get j = if j < n then g j else b.get j

theorem Bank.get_set (b : Bank) (j k : Nat) (c : Counter) :
    Bank.get { b with cnt := KMap.set b.cnt k c .zero } j = if j = k then c else b.get j := KMap.getD_set ..

theorem Bank.Replaced.succ {b c : Bank} {g : Nat → Counter} {n : Nat} (h : b.Replaced g n c) :
    b.Replaced g (n + 1) { c with cnt := KMap.set c.cnt n (g n) .zero } := by
  obtain ⟨hbank, hget⟩ := h
  refine ⟨by rw [hbank], fun j => ?_⟩
  rw [Bank.get_set, hget]
  split
  · next hj => rw [if_pos (by omega), hj]
  · next hj => simp only [show j < n + 1 ↔ j < n by omega]

theorem Bank.mapCounters_of_forall {b : Bank} {f : Nat → Counter → Option Counter} {g : Nat → Counter}
    (h : ∀ j < 18, f j (b.get j) = some (g j)) : ∃ c, b.mapCounters f = some c ∧ b.Replaced g 18 c := by
  refine foldl_range_eq_some 18 ⟨rfl, fun j => rfl⟩ fun j hj x hx => ⟨_, ?_, hx.succ⟩
  simp only [h j hj]

/-- A counter with `h` × 2^d added where `h` is not 0, and the residue of the new pattern. -/
def Counter.plus (c : Counter) (h : Int) (d : Nat) : Counter :=
  if h = 0 then c else ⟨c.value + BitVec.ofInt 24 (h * 2 ^ d), res24 (c.value + BitVec.ofInt 24 (h * 2 ^ d))⟩

theorem Counter.plus_ok {c : Counter} (hc : c.ok = true) (h : Int) (d : Nat) : (c.plus h d).ok = true := by
  unfold Counter.plus
  split
  · exact hc
  · exact Counter.ok_mk_res24 _

theorem Counter.plus_val {c : Counter} {h : Int} {d : Nat} (hr : inRange (c.val + h * 2 ^ d) = true) :
    (c.plus h d).val = c.val + h * 2 ^ d := by
  unfold Counter.plus
  split
  · next h0 => rw [h0, zero_mul, add_zero]
  · exact toInt_add_ofInt_of_inRange hr

theorem Bank.addHist_of_ok {b : Bank} (hok : ∀ j < 18, (b.get j).ok = true) (h : List Int) (d : Nat) :
    ∃ c, b.addHist h d = some c ∧ b.Replaced (fun j => (b.get j).plus (h.getD j 0) d) 18 c := by
  refine Bank.mapCounters_of_forall fun j hj => ?_
  unfold Counter.plus
  split
  · rfl
  · exact Counter.add_of_ok (hok j hj) _

theorem Bank.fits_iff {b : Bank} {a : Nat} {h : List Int} {d : Nat} :
    b.fits a h d = true ↔ ∀ j < 18, inRange ((b.get j).val * 2 ^ a + h.getD j 0 * 2 ^ d) = true := by
  simp only [Bank.fits, List.all_eq_true, List.mem_range]

/-- A block that fits adds its histogram to the counters, and their residues stay true (R117, R284). -/
theorem Bank.addHist_of_fits {b : Bank} {h : List Int} {d : Nat} (hok : ∀ j < 18, (b.get j).ok = true) (hf : b.fits 0 h d = true) :
    ∃ c, b.addHist h d = some c ∧ c = { b with cnt := c.cnt } ∧
      ∀ j < 18, (c.get j).ok = true ∧ (c.get j).val = (b.get j).val + h.getD j 0 * 2 ^ d := by
  obtain ⟨c, hc, hbank, hget⟩ := Bank.addHist_of_ok hok h d
  refine ⟨c, hc, hbank, fun j hj => ?_⟩
  have hr := Bank.fits_iff.1 hf j hj
  rw [pow_zero, mul_one] at hr
  rw [hget, if_pos hj]
  exact ⟨Counter.plus_ok (hok j hj) _ _, Counter.plus_val hr⟩

/-! ## The value of a bank -/

theorem curdWeights_length (el : Nat) : (curdWeights el).length = 18 := by
  unfold curdWeights
  split <;> rfl

theorem FVal.toRat_fin_natAbs (x e : Int) : (FVal.fin (x < 0) x.natAbs e).toRat = x * (2 : ℚ) ^ e := by
  rw [FVal.toRat, Nat.cast_natAbs]
  congr 1
  rcases lt_or_ge x 0 with h | h
  · simp [h, abs_of_neg h]
  · simp [h.not_gt, abs_of_nonneg h]

theorem map_zip_map_range {α β γ : Type} (v : Nat → α) (w : List β) (f : α × β → γ) (d : β) :
    (((List.range w.length).map v).zip w).map f = (List.range w.length).map fun j => f (v j, w.getD j d) :=
  List.ext_getElem (by simp) fun j h _ => by
    have hj : j < w.length := by simpa using h
    simp [hj]

/-- A bank stands for the weighted sum of its counters (R283, R286). -/
theorem bankValue_toRat (el : Nat) (b : Bank) : (bankValue el b).toRat =
    ((List.range 18).map fun j => ((b.get j).val : ℚ) * ((curdWeights el).getD j 0 : ℚ)).sum * (2 : ℚ) ^ (b.tag + curdExp el) := by
  have hz := map_zip_map_range (fun j => (b.get j).val) (curdWeights el) (fun y => y.1 * (y.2 : Int)) 0
  rw [curdWeights_length] at hz
  rw [bankValue, Bank.vals, hz]
  refine (FVal.toRat_fin_natAbs _ _).trans ?_
  simp [Function.comp_def]

/-! ## Accumulator words -/

theorem Bench.strike_of_inj_none {w : Bench} (h : w.inj = none) (row : Nat) (flip : Engine → Inj → Engine) :
    w.strike row flip = w := by
  rw [Bench.strike, h]

/-- A contribution that does not trap is rounded into its word once, and a suspect one is noted (R102, R294, R295). -/
theorem Bench.addTo_of_inj_none {w : Bench} {p : Pass} {t i n : Nat} {smax : Int} {v : FVal} (hinj : w.inj = none)
    (hword : (w.eng.tileWord t i).wellFormed = true) (hsus : p.ts = false ∨ suspect p v n smax = false) (kind row col blk : Nat) :
    ∃ u, w.addTo p kind t i row col blk n smax v = .ok u ∧
      u.eng = w.eng.setTileWord t i
        (.gen (BitVec.ofNat 32 (roundTo .f32 0 (addX 0 (Ieee.f32.decode (w.eng.tileWord t i).data.toNat) v).1).1)) ∧
      (suspect p v n smax = true → u.mstat.getLsbD 4 = true) := by
  have htrap : (suspect p v n smax && p.ts) = false := by
    rcases hsus with h | h <;> simp [h]
  simp only [Bench.addTo, hword, htrap, Bool.not_true, Bool.false_eq_true, if_false]
  refine ⟨_, congrArg _ (Bench.strike_of_inj_none ?_ _ _), ?_, fun hs => ?_⟩
  · split <;> split <;> exact hinj
  · split <;> split <;> rfl
  · simp only [hs, if_true]
    split <;> simp [Bench.note]

/-- Settles O41: each row's prediction is the residue of its result, each counter's row agrees with its pattern, and an accumulator
word is rounded once. -/
theorem residuesAndCounters : Obligations.ResiduesAndCounters := by
  unfold Obligations.ResiduesAndCounters
  refine ⟨fun a b c ci sat n t hn ha hb hc => ?_, fun c x h => Counter.add_of_ok h x, fun c d h => Counter.shl_of_ok h d,
    bankValue_toRat, fun b h d => Bank.addHist_of_fits,
    fun w p kind t i row col blk n smax v hinj hword hsus => Bench.addTo_of_inj_none hinj hword hsus kind row col blk⟩
  have hp := ((exactOf_ok ha t).mul (exactOf_ok hb t)).add (exactOf_ok hc t)
  exact ⟨predictAdd_eq ha hb ci, predictSub_eq ha hb ci, predictShl_eq ha hn, predictShr_eq ha hn, predictSar_eq ha hn,
    predictRol_eq ha hn, predictOr_eq ha hb, predictXor_eq ha hb, predictNot_eq ha, extWord_eq ha t, hp.typed t sat,
    fun k hk => hp.word hk, res_toNat _, CWord.gen_wellFormed _⟩

end Sys2Proof.Machine
end

section
/-!
The encoding of instructions (R122, R125, R129, R134, R136). The fields of an encoding are read back from its bits and written back
to the same bits; an opcode is found by its OP10 and, where several forms share it, by its fields; and decoding sees no bit past an
instruction's length.
-/

namespace Sys2Proof

/-! ## The opcode tables -/

/-- Which of the forms that share its OP10 an opcode is (R238, R304). -/
def Op.variant : Op → Nat
  | .mstBank | .cgenLive => 1
  | .cgenDrop => 2
  | _ => 0

/-- Which of the forms that share an OP10 the fields name. -/
def variantOf (code : Nat) (f : Fields) : Nat :=
  if code = 0x2AA then (f.d.getLsbD 2).toNat else if code = 0x3F5 then f.sub % 3 else 0

theorem Fields.sub_lt (f : Fields) : f.sub < 4 := (f.m.extractLsb' 5 2).isLt

theorem Op.picks_iff (op : Op) (f : Fields) : op.picks f = true ↔ op.variant = variantOf op.code f := by
  have four := f.sub_lt
  cases op
  case mst =>
    change (!f.d.getLsbD 2) = true ↔ 0 = (f.d.getLsbD 2).toNat
    cases f.d.getLsbD 2 <;> decide
  case mstBank =>
    change f.d.getLsbD 2 = true ↔ 1 = (f.d.getLsbD 2).toNat
    cases f.d.getLsbD 2 <;> decide
  case cgenReg | cgenLive | cgenDrop =>
    simp only [Op.picks, Op.variant, variantOf, Op.code, Bool.or_eq_true, beq_iff_eq]
    norm_num
    omega
  all_goals exact iff_of_true rfl rfl

theorem Op.mem_table (op : Op) : op ∈ Op.table := by cases op <;> decide

theorem Op.table_nodup : (Op.table.map fun op => (op.code, op.variant)).Nodup := by decide +kernel


theorem opOf_eq_some_iff {code : Nat} {f : Fields} {op : Op} : opOf code f = some op ↔ op.code = code ∧ op.picks f = true := by
  constructor
  · intro h
    simpa using List.find?_some h
  · rintro ⟨rfl, hp⟩
    obtain ⟨o, ho⟩ : ∃ o, opOf op.code f = some o :=
      Option.isSome_iff_exists.1 (List.find?_isSome.2 ⟨op, op.mem_table, by simp [hp]⟩)
    obtain ⟨hc, hq⟩ : o.code = op.code ∧ o.picks f = true := by simpa using List.find?_some ho
    have same : (o.code, o.variant) = (op.code, op.variant) := by
      rw [(o.picks_iff f).1 hq, (op.picks_iff f).1 hp, hc]
    rw [ho, List.inj_on_of_nodup_map Op.table_nodup o.mem_table op.mem_table same]

theorem COp.mem_table (op : COp) : op ∈ COp.table := by cases op <;> decide

theorem COp.table_nodup : (COp.table.map COp.code).Nodup := by decide

theorem copOf_eq_some_iff {code : Nat} {op : COp} : copOf code = some op ↔ op.code = code := by
  constructor
  · intro h
    simpa using List.find?_some h
  · rintro rfl
    obtain ⟨o, ho⟩ : ∃ o, copOf op.code = some o := Option.isSome_iff_exists.1 (List.find?_isSome.2 ⟨op, op.mem_table, by simp⟩)
    have same : o.code = op.code := by simpa using List.find?_some ho
    rw [ho, List.inj_on_of_nodup_map COp.table_nodup o.mem_table op.mem_table same]

theorem Op.code_lt (op : Op) : op.code < 2 ^ 10 := by cases op <;> decide

theorem COp.code_lt (op : COp) : op.code < 2 ^ 8 := by cases op <;> decide

/-! ## The checks of an encoding -/

theorem failsIf_eq_nil {c : Bool} {w : Nat} : failsIf c w = [] ↔ c = false := by cases c <;> simp [failsIf]

/-- Where no check of R141 refuses the fields, they name the form of the opcode. -/
theorem Op.picks_of_why {op : Op} {f : Fields} (h : f.why op = none) : op.picks f = true := by
  have checks := Machine.lowest_eq_none.1 h
  simp only [Fields.whys, List.append_eq_nil_iff] at checks
  obtain ⟨⟨⟨⟨⟨⟨-, hd⟩, -⟩, -⟩, -⟩, -⟩, hx⟩ := checks
  cases op
  case mst =>
    have low : f.d.toNat / 4 = 0 := by simpa [Op.form, fieldWhys, failsIf_eq_nil] using hd
    have bit : f.d.getLsbD 2 = false := Nat.testBit_lt_two_pow (show f.d.toNat < 2 ^ 2 by omega)
    simp only [Op.picks, bit, Bool.not_false]
  case mstBank =>
    have fields : (f.d.toNat % 4 != 0) = false ∧ (!f.d.getLsbD 2) = false := by
      simpa only [Op.extra, failsIf_eq_nil, Bool.or_eq_false_iff] using hx
    simpa only [Op.picks, Bool.not_eq_false'] using fields.2
  case cgenReg | cgenLive | cgenDrop =>
    have sub := failsIf_eq_nil.1 hx
    simp only [bne_eq_false_iff_eq] at sub
    simp [Op.picks, sub]
  all_goals rfl

/-! ## Fields and bits -/

theorem getLsbD_of_extractLsb' {w n s i : Nat} {v : BitVec w} {x : BitVec n} (h : v.extractLsb' s n = x) (hi : i < n) :
    v.getLsbD (s + i) = x.getLsbD i := by
  rw [← h, BitVec.getLsbD_extractLsb', decide_eq_true hi, Bool.true_and]

theorem extractLsb'_congr {w s n : Nat} {u v : BitVec w} (h : ∀ k < n, u.getLsbD (s + k) = v.getLsbD (s + k)) :
    u.extractLsb' s n = v.extractLsb' s n :=
  BitVec.eq_of_getLsbD_eq fun k hk => by rw [BitVec.getLsbD_extractLsb', BitVec.getLsbD_extractLsb', h k hk]

theorem ofBool_getLsbD {w : Nat} (v : BitVec w) (i : Nat) : BitVec.ofBool (v.getLsbD i) = v.extractLsb' i 1 := by
  refine BitVec.eq_of_getLsbD_eq fun k hk => ?_
  obtain rfl : k = 0 := by omega
  simp

/-- The places of the fields of an F64 or F96 encoding (R125). -/
theorem extract_packFull (len : BitVec 2) (code : BitVec 10) (f : Fields) :
    let v := packFull len code f
    v.extractLsb' 0 2 = len ∧ v.extractLsb' 2 1 = .ofBool f.s ∧ v.extractLsb' 3 4 = f.g ∧ v.extractLsb' 7 10 = code ∧
      v.extractLsb' 17 9 = f.d ∧ v.extractLsb' 26 9 = f.a ∧ v.extractLsb' 35 9 = f.b ∧ v.extractLsb' 44 9 = f.c ∧
      v.extractLsb' 53 11 = f.m := by
  refine ⟨?_, ?_, ?_, ?_, ?_, ?_, ?_, ?_, ?_⟩
  all_goals
    unfold packFull
    repeat rw [BitVec.extractLsb'_append_eq_of_le (by decide)]
    try rw [BitVec.extractLsb'_append_eq_of_add_le (by decide)]
    exact BitVec.extractLsb'_eq_self

/-- The places of the fields of an F32 encoding (R129). -/
theorem extract_packCompact (code : BitVec 8) (c : Compact) :
    let v := packCompact code c
    v.extractLsb' 0 2 = 0 ∧ v.extractLsb' 2 1 = .ofBool c.s ∧ v.extractLsb' 3 4 = c.g ∧ v.extractLsb' 7 8 = code ∧
      v.extractLsb' 15 7 = c.d7 ∧ v.extractLsb' 22 7 = c.a7 ∧ v.extractLsb' 29 3 = c.m3 := by
  refine ⟨?_, ?_, ?_, ?_, ?_, ?_, ?_⟩
  all_goals
    unfold packCompact
    repeat rw [BitVec.extractLsb'_append_eq_of_le (by decide)]
    try rw [BitVec.extractLsb'_append_eq_of_add_le (by decide)]
    exact BitVec.extractLsb'_eq_self

/-- The places of the fields of a clause header (R134). -/
theorem extract_packHeader (h : Header) :
    let v := packHeader h
    v.extractLsb' 0 2 = 0b11 ∧ v.extractLsb' 2 4 = h.cnt ∧ v.extractLsb' 6 3 = h.eng ∧ v.extractLsb' 9 16 = h.wmask ∧
      v.extractLsb' 25 39 = 0 := by
  refine ⟨?_, ?_, ?_, ?_, ?_⟩
  all_goals
    unfold packHeader
    repeat rw [BitVec.extractLsb'_append_eq_of_le (by decide)]
    try rw [BitVec.extractLsb'_append_eq_of_add_le (by decide)]
    exact BitVec.extractLsb'_eq_self

/-- The first two words of three. -/
theorem extract_low64 (hi : Word) (lo : BitVec 64) {s n : Nat} (h : s + n ≤ 64) :
    BitVec.extractLsb' s n (hi ++ lo : BitVec 96) = lo.extractLsb' s n := BitVec.extractLsb'_append_eq_of_add_le h

/-- The third word of three. -/
theorem extract_high32 (hi : Word) (lo : BitVec 64) : BitVec.extractLsb' 64 32 (hi ++ lo : BitVec 96) = hi :=
  (BitVec.extractLsb'_append_eq_of_le (by decide)).trans BitVec.extractLsb'_eq_self

/-- The first word of three. -/
theorem extract_low32 (hi : BitVec 64) (lo : Word) {s n : Nat} (h : s + n ≤ 32) :
    BitVec.extractLsb' s n (hi ++ lo : BitVec 96) = lo.extractLsb' s n := BitVec.extractLsb'_append_eq_of_add_le h

/-- The fields that are written are read (R125). -/
theorem fieldsOf_packFull (hi : Word) (len : BitVec 2) (code : BitVec 10) (f : Fields) :
    fieldsOf (hi ++ packFull len code f) = { f with fmt := if len.getLsbD 1 then .f96 hi else .f64 } := by
  obtain ⟨hlen, hs, hg, -, hd, ha, hb, hc, hm⟩ := extract_packFull len code f
  have bit1 := getLsbD_of_extractLsb' ((extract_low64 hi _ (by decide)).trans hlen) (show 1 < 2 by decide)
  have bit2 := getLsbD_of_extractLsb' ((extract_low64 hi _ (by decide)).trans hs) (show 0 < 1 by decide)
  simp only [Nat.zero_add, Nat.add_zero] at bit1 bit2
  rw [fieldsOf, bit1, bit2, extract_high32, extract_low64 _ _ (by decide), extract_low64 _ _ (by decide),
    extract_low64 _ _ (by decide), extract_low64 _ _ (by decide), extract_low64 _ _ (by decide), extract_low64 _ _ (by decide),
    hg, hd, ha, hb, hc, hm]
  simp

/-- The fields that are read are written to the same bits (R125). -/
theorem packFull_fieldsOf (v : BitVec 96) :
    packFull (v.extractLsb' 0 2) (v.extractLsb' 7 10) (fieldsOf v) = v.extractLsb' 0 64 := by
  simp only [packFull, fieldsOf, ofBool_getLsbD]
  repeat rw [BitVec.extractLsb'_append_extractLsb'_eq_extractLsb' (by rfl)]

theorem compactOf_packCompact (hi : BitVec 64) (code : BitVec 8) (c : Compact) :
    compactOf (hi ++ packCompact code c) = c := by
  obtain ⟨-, hs, hg, -, hd, ha, hm⟩ := extract_packCompact code c
  have bit2 := getLsbD_of_extractLsb' ((extract_low32 hi _ (by decide)).trans hs) (show 0 < 1 by decide)
  simp only [Nat.add_zero] at bit2
  rw [compactOf, bit2, extract_low32 _ _ (by decide), extract_low32 _ _ (by decide),
    extract_low32 _ _ (by decide), extract_low32 _ _ (by decide), hg, hd, ha, hm]
  simp

theorem packCompact_compactOf {v : BitVec 96} (h : v.extractLsb' 0 2 = 0) :
    packCompact (v.extractLsb' 7 8) (compactOf v) = v.extractLsb' 0 32 := by
  simp only [packCompact, compactOf, ofBool_getLsbD]
  rw [← h]
  repeat rw [BitVec.extractLsb'_append_extractLsb'_eq_extractLsb' (by rfl)]

theorem headerOf_packHeader (hi : Word) (h : Header) : headerOf (hi ++ packHeader h) = h := by
  obtain ⟨-, hcnt, heng, hmask, -⟩ := extract_packHeader h
  rw [headerOf, extract_low64 _ _ (by decide), extract_low64 _ _ (by decide), extract_low64 _ _ (by decide), hcnt, heng, hmask]

theorem packHeader_headerOf {v : BitVec 96} (h : v.extractLsb' 0 2 = 3) (high : v.extractLsb' 25 39 = 0) :
    packHeader (headerOf v) = v.extractLsb' 0 64 := by
  simp only [packHeader, headerOf]
  rw [← high, ← h]
  repeat rw [BitVec.extractLsb'_append_extractLsb'_eq_extractLsb' (by rfl)]

/-! ## Decoding by the length -/

theorem decode_compact {v : BitVec 96} (h : v.extractLsb' 0 2 = 0) :
    decode v = decodeCompact (v.extractLsb' 7 8) (compactOf v) := by
  rw [decode, h]
  rfl

theorem decode_header {v : BitVec 96} (h : v.extractLsb' 0 2 = 3) :
    decode v = decodeHeader (headerOf v) (v.extractLsb' 25 39) := by
  rw [decode, h]
  rfl

theorem decode_full {v : BitVec 96} (h : v.extractLsb' 0 2 = 1 ∨ v.extractLsb' 0 2 = 2) :
    decode v = decodeFull (v.extractLsb' 7 10) (fieldsOf v) := by
  rcases h with h | h <;> rw [decode, h] <;> rfl

theorem len_cases (x : BitVec 2) : x = 0 ∨ x = 3 ∨ x = 1 ∨ x = 2 := by
  revert x
  decide

theorem decodeFull_instr {op : Op} {f : Fields} (h : f.why op = none) : decodeFull (BitVec.ofNat 10 op.code) f = op.instr f := by
  have code : (BitVec.ofNat 10 op.code).toNat = op.code := by
    rw [BitVec.toNat_ofNat, Nat.mod_eq_of_lt op.code_lt]
  rw [decodeFull, code, opOf_eq_some_iff.2 ⟨rfl, Op.picks_of_why h⟩]
  simp only [h]

theorem decodeCompact_instr {op : COp} {c : Compact} (h : c.why op = none) :
    decodeCompact (BitVec.ofNat 8 op.code) c = op.instr c := by
  have code : (BitVec.ofNat 8 op.code).toNat = op.code := by
    rw [BitVec.toNat_ofNat, Nat.mod_eq_of_lt op.code_lt]
  rw [decodeCompact, code, copOf_eq_some_iff.2 rfl]
  simp only [h]

/-- What an F64 or F96 encoding is decoded to. -/
theorem decodeFull_cases (code : BitVec 10) (f : Fields) : (∃ e, decodeFull code f = .notAnInstruction e) ∨
    ∃ op, op.code = code.toNat ∧ f.why op = none ∧ decodeFull code f = op.instr f := by
  unfold decodeFull
  cases ho : opOf code.toNat f with
  | none => exact .inl ⟨_, rfl⟩
  | some op =>
    dsimp only
    cases hw : f.why op with
    | none => exact .inr ⟨op, (opOf_eq_some_iff.1 ho).1, hw, rfl⟩
    | some w => exact .inl ⟨_, rfl⟩

/-- What an F32 encoding is decoded to. -/
theorem decodeCompact_cases (code : BitVec 8) (c : Compact) : (∃ e, decodeCompact code c = .notAnInstruction e) ∨
    ∃ op, op.code = code.toNat ∧ c.why op = none ∧ decodeCompact code c = op.instr c := by
  unfold decodeCompact
  cases ho : copOf code.toNat with
  | none => exact .inl ⟨_, rfl⟩
  | some op =>
    dsimp only
    cases hw : c.why op with
    | none => exact .inr ⟨op, copOf_eq_some_iff.1 ho, hw, rfl⟩
    | some w => exact .inl ⟨_, rfl⟩

theorem Instr.eq_view (i : Instr) : i = match i.view with
    | .full op f => op.instr f
    | .compact op c => op.instr c
    | .header h => .clauseHeader h
    | .event => i := by cases i <;> rfl

theorem Op.view_instr (op : Op) (f : Fields) : (op.instr f).view = .full op f := by cases op <;> rfl

theorem COp.view_instr (op : COp) (c : Compact) : (op.instr c).view = .compact op c := by cases op <;> rfl

/-! ## Encoding by the format -/

theorem encodeBits_f64 {i : Instr} {op : Op} {f : Fields} (h : i.view = .full op f) (hf : f.fmt = .f64) :
    encodeBits i = (0 : Word) ++ packFull 1 (BitVec.ofNat 10 op.code) f := by
  simp only [encodeBits, h, hf]

theorem encodeBits_f96 {i : Instr} {op : Op} {f : Fields} {l : Word} (h : i.view = .full op f) (hf : f.fmt = .f96 l) :
    encodeBits i = l ++ packFull 2 (BitVec.ofNat 10 op.code) f := by
  simp only [encodeBits, h, hf]

theorem encodeBits_compact {i : Instr} {op : COp} {c : Compact} (h : i.view = .compact op c) :
    encodeBits i = (0 : BitVec 64) ++ packCompact (BitVec.ofNat 8 op.code) c := by
  simp only [encodeBits, h]

theorem encodeBits_header {i : Instr} {h : Header} (hv : i.view = .header h) : encodeBits i = (0 : Word) ++ packHeader h := by
  simp only [encodeBits, hv]

/-! ## Decoding the encoding -/

theorem decode_packFull {op : Op} {f : Fields} {len : BitVec 2} {hi : Word} (hlen : len = 1 ∨ len = 2)
    (hfmt : f.fmt = if len.getLsbD 1 then .f96 hi else .f64) (hw : f.why op = none) :
    decode (hi ++ packFull len (BitVec.ofNat 10 op.code) f) = op.instr f := by
  obtain ⟨rlen, -, -, rcode, -⟩ := extract_packFull len (BitVec.ofNat 10 op.code) f
  rw [decode_full (by rwa [extract_low64 _ _ (by decide), rlen]), extract_low64 _ _ (by decide), rcode, fieldsOf_packFull, ← hfmt,
    decodeFull_instr hw]

theorem decode_encodeBits {i : Instr} (he : i.isEvent = false) (hw : i.wf = true) : decode (encodeBits i) = i := by
  have hi := i.eq_view
  unfold Instr.wf at hw
  cases hv : i.view with
  | full op f =>
    simp only [hv, Bool.and_eq_true, bne_iff_ne, ne_eq, Option.isNone_iff_eq_none] at hi hw
    obtain ⟨hf, hwhy⟩ := hw
    cases hfmt : f.fmt with
    | f32 => exact absurd hfmt hf
    | f64 => rw [encodeBits_f64 hv hfmt, decode_packFull (.inl rfl) hfmt hwhy, ← hi]
    | f96 l => rw [encodeBits_f96 hv hfmt, decode_packFull (.inr rfl) hfmt hwhy, ← hi]
  | compact op c =>
    simp only [hv, Option.isNone_iff_eq_none] at hi hw
    obtain ⟨hlen, -, -, hcode, -⟩ := extract_packCompact (BitVec.ofNat 8 op.code) c
    rw [encodeBits_compact hv, decode_compact ((extract_low32 _ _ (by decide)).trans hlen), extract_low32 _ _ (by decide), hcode,
      compactOf_packCompact, decodeCompact_instr hw, ← hi]
  | header h =>
    simp only [hv, Option.isNone_iff_eq_none] at hi hw
    obtain ⟨hlen, -, -, -, hhigh⟩ := extract_packHeader h
    rw [encodeBits_header hv, decode_header ((extract_low64 _ _ (by decide)).trans hlen), extract_low64 _ _ (by decide), hhigh,
      headerOf_packHeader, decodeHeader, hw, hi]
    rfl
  | event => simp [Instr.isEvent, hv] at he

/-! ## The bits past an instruction -/

/-- Decoding sees only the words that LEN gives (R122). -/
theorem decode_congr {u v : BitVec 96} (h : ∀ k < 32 * wordsIn (v.extractLsb' 0 2), u.getLsbD k = v.getLsbD k) :
    decode u = decode v := by
  have words : 1 ≤ wordsIn (v.extractLsb' 0 2) := by
    unfold wordsIn
    split <;> decide
  have field {s n : Nat} (hn : s + n ≤ 32 * wordsIn (v.extractLsb' 0 2)) : u.extractLsb' s n = v.extractLsb' s n :=
    extractLsb'_congr fun k hk => h _ (by omega)
  have len : u.extractLsb' 0 2 = v.extractLsb' 0 2 := field (by omega)
  have bit {k : Nat} (hk : k < 32) : u.getLsbD k = v.getLsbD k := h k (by omega)
  rcases len_cases (v.extractLsb' 0 2) with hv | hv | hv | hv
  · rw [hv] at field len
    have field {s n : Nat} (hn : s + n ≤ 32) : u.extractLsb' s n = v.extractLsb' s n := field hn
    rw [decode_compact len, decode_compact hv, compactOf, compactOf, field (by decide), field (by decide), field (by decide),
      field (by decide), field (by decide), bit (by decide)]
  · rw [hv] at field len
    have field {s n : Nat} (hn : s + n ≤ 64) : u.extractLsb' s n = v.extractLsb' s n := field hn
    rw [decode_header len, decode_header hv, headerOf, headerOf, field (by decide), field (by decide), field (by decide),
      field (by decide)]
  · rw [hv] at field len
    have field {s n : Nat} (hn : s + n ≤ 64) : u.extractLsb' s n = v.extractLsb' s n := field hn
    have short : v.getLsbD 1 = false := getLsbD_of_extractLsb' (s := 0) (i := 1) hv (by decide)
    rw [decode_full (.inl len), decode_full (.inl hv), fieldsOf, fieldsOf, bit (k := 1) (by decide), bit (k := 2) (by decide), short,
      if_neg Bool.false_ne_true, if_neg Bool.false_ne_true, field (by decide), field (by decide), field (by decide),
      field (by decide), field (by decide), field (by decide), field (by decide)]
  · rw [hv] at h
    exact congrArg decode (BitVec.eq_of_getLsbD_eq h)

/-! ## Words and bytes -/

theorem wordOfBytes_bytesOfWord (w : Word) (bs : List (BitVec 8)) : wordOfBytes (bytesOfWord w ++ bs) = w := by
  change w.extractLsb' 24 8 ++ w.extractLsb' 16 8 ++ w.extractLsb' 8 8 ++ w.extractLsb' 0 8 = w
  repeat rw [BitVec.extractLsb'_append_extractLsb'_eq_extractLsb' (by rfl)]
  exact BitVec.extractLsb'_eq_self

/-- The words of a list are read back from their bytes, whatever follows (R7, R123). -/
theorem wordOfBytes_flatMap {ws : List Word} {k : Nat} (hk : k < ws.length) (rest : List (BitVec 8)) :
    wordOfBytes ((ws.flatMap bytesOfWord ++ rest).drop (4 * k)) = ws[k] := by
  induction ws generalizing k with
  | nil => exact absurd hk (Nat.not_lt_zero k)
  | cons w ws ih =>
    rw [List.flatMap_cons, List.append_assoc]
    cases k with
    | zero => exact wordOfBytes_bytesOfWord w _
    | succ k =>
      rw [Nat.mul_succ, Nat.add_comm, ← List.drop_drop, List.getElem_cons_succ]
      exact ih (Nat.lt_of_succ_lt_succ hk)

theorem getLsbD_bitsOfWords (w : Nat → Word) {k : Nat} (hk : k < 96) :
    (bitsOfWords [w 0, w 1, w 2]).getLsbD k = (w (k / 32)).getLsbD (k % 32) := by
  change (w 2 ++ w 1 ++ w 0).getLsbD k = _
  rw [BitVec.getLsbD_append, BitVec.getLsbD_append]
  split
  next h => rw [Nat.div_eq_of_lt h, Nat.mod_eq_of_lt h]
  next h =>
    split
    next h' => rw [show k / 32 = 1 by omega, show k % 32 = k - 32 by omega]
    next h' => rw [show k / 32 = 2 by omega, show k % 32 = k - 32 - 32 by omega]

/-- The bytes of an instruction decode as its bits do, whatever follows (R122, R123). -/
theorem decodeBytes_encode (i : Instr) (rest : List (BitVec 8)) :
    decodeBytes ((encode i).flatMap bytesOfWord ++ rest) = decode (encodeBits i) := by
  let w (k : Nat) : Word := wordOfBytes (((encode i).flatMap bytesOfWord ++ rest).drop (4 * k))
  have length : (encode i).length = wordsIn ((encodeBits i).extractLsb' 0 2) := by simp [encode]
  have words : wordsIn ((encodeBits i).extractLsb' 0 2) ≤ 3 := by
    unfold wordsIn
    split <;> decide
  refine decode_congr (u := bitsOfWords [w 0, w 1, w 2]) fun k hk => ?_
  have hk' : k / 32 < (encode i).length := by omega
  have word : w (k / 32) = (encodeBits i).extractLsb' (32 * (k / 32)) 32 := by
    rw [show w (k / 32) = (encode i)[k / 32] from wordOfBytes_flatMap hk' rest]
    simp [encode]
  rw [getLsbD_bitsOfWords w (by omega), word, BitVec.getLsbD_extractLsb', Nat.div_add_mod]
  simp [Nat.mod_lt]

/-- Settles O54: the fields that the encoder writes are those that the decoder reads, and the bytes that follow are not read. -/
theorem roundTrip : Obligations.RoundTrip := by
  unfold Obligations.RoundTrip
  exact fun i he hw => ⟨decode_encodeBits he hw, fun rest => (decodeBytes_encode i rest).trans (decode_encodeBits he hw)⟩

/-! ## Encoding what is decoded -/

theorem getLsbD_zero_append {w n : Nat} (v : BitVec 96) (k : Nat) :
    ((0 : BitVec w) ++ v.extractLsb' 0 n).getLsbD k = (decide (k < n) && v.getLsbD k) := by
  rw [BitVec.getLsbD_append, BitVec.getLsbD_extractLsb', Nat.zero_add]
  split
  next h => rfl
  next h => simp [h]

/-- The words of an encoding, and 0 past them. -/
def BitsOf (u v : BitVec 96) : Prop := ∀ k < 96, u.getLsbD k = (decide (k < 32 * wordsIn (v.extractLsb' 0 2)) && v.getLsbD k)

theorem bitsOf_full {v : BitVec 96} (hlen : v.extractLsb' 0 2 = 1 ∨ v.extractLsb' 0 2 = 2) {op : Op}
    (hcode : op.code = (v.extractLsb' 7 10).toNat) : BitsOf (encodeBits (op.instr (fieldsOf v))) v := by
  have bits := packFull_fieldsOf v
  have code : BitVec.ofNat 10 op.code = v.extractLsb' 7 10 := by rw [hcode, BitVec.ofNat_toNat, BitVec.setWidth_eq]
  intro k hk
  rcases hlen with h | h
  · have short : v.getLsbD 1 = false := getLsbD_of_extractLsb' (s := 0) (i := 1) h (by decide)
    have fmt : (fieldsOf v).fmt = .f64 := by rw [fieldsOf, short]; rfl
    rw [h, ← code] at bits
    rw [encodeBits_f64 (op.view_instr _) fmt, bits, h]
    exact getLsbD_zero_append v k
  · have long : v.getLsbD 1 = true := getLsbD_of_extractLsb' (s := 0) (i := 1) h (by decide)
    have fmt : (fieldsOf v).fmt = .f96 (v.extractLsb' 64 32) := by rw [fieldsOf, long]; rfl
    rw [h, ← code] at bits
    rw [encodeBits_f96 (op.view_instr _) fmt, bits, BitVec.extractLsb'_append_extractLsb'_eq_extractLsb' (by rfl),
      BitVec.getLsbD_extractLsb', Nat.zero_add, h]
    rfl

theorem bitsOf_compact {v : BitVec 96} (hlen : v.extractLsb' 0 2 = 0) {op : COp} (hcode : op.code = (v.extractLsb' 7 8).toNat) :
    BitsOf (encodeBits (op.instr (compactOf v))) v := by
  have code : BitVec.ofNat 8 op.code = v.extractLsb' 7 8 := by rw [hcode, BitVec.ofNat_toNat, BitVec.setWidth_eq]
  intro k hk
  rw [encodeBits_compact (op.view_instr _), code, packCompact_compactOf hlen, hlen]
  exact getLsbD_zero_append v k

theorem bitsOf_header {v : BitVec 96} (hlen : v.extractLsb' 0 2 = 3) (hhigh : v.extractLsb' 25 39 = 0) :
    BitsOf (encodeBits (.clauseHeader (headerOf v))) v := by
  intro k hk
  rw [encodeBits_header rfl, packHeader_headerOf hlen hhigh, hlen]
  exact getLsbD_zero_append v k

theorem Op.wf_instr {op : Op} {f : Fields} (hf : f.fmt ≠ .f32) (h : f.why op = none) : (op.instr f).wf = true := by
  simp [Instr.wf, op.view_instr f, hf, h]

theorem COp.wf_instr {op : COp} {c : Compact} (h : c.why op = none) : (op.instr c).wf = true := by
  simp [Instr.wf, op.view_instr c, h]

theorem fieldsOf_fmt_ne (v : BitVec 96) : (fieldsOf v).fmt ≠ .f32 := by
  unfold fieldsOf
  dsimp only
  split <;> exact Fmt.noConfusion

/-- What is decoded: no instruction, or a well-formed one with the bits that were read. -/
theorem decode_cases (v : BitVec 96) : (∃ e, decode v = .notAnInstruction e) ∨
    ((decode v).wf = true ∧ (decode v).isEvent = false ∧ BitsOf (encodeBits (decode v)) v) := by
  rcases len_cases (v.extractLsb' 0 2) with hv | hv | hv
  · rw [decode_compact hv]
    refine (decodeCompact_cases _ _).imp_right fun ⟨op, hcode, hwhy, hi⟩ => ?_
    rw [hi]
    exact ⟨op.wf_instr hwhy, by rw [Instr.isEvent, op.view_instr]; rfl, bitsOf_compact hv hcode⟩
  · rw [decode_header hv, decodeHeader]
    split
    next => exact .inl ⟨_, rfl⟩
    next h =>
      simp only [Bool.or_eq_true, bne_iff_ne, ne_eq, not_or, not_not, Bool.not_eq_true, Option.isSome_eq_false_iff] at h
      exact .inr ⟨h.2, rfl, bitsOf_header hv h.1⟩
  · rw [decode_full hv]
    refine (decodeFull_cases _ _).imp_right fun ⟨op, hcode, hwhy, hi⟩ => ?_
    rw [hi]
    exact ⟨op.wf_instr (fieldsOf_fmt_ne v) hwhy, by rw [Instr.isEvent, op.view_instr]; rfl, bitsOf_full hv hcode⟩

/-- Settles O55: the fields that the decoder reads are written back to the bits they came from. -/
theorem decodedIsEncoded : Obligations.DecodedIsEncoded := by
  unfold Obligations.DecodedIsEncoded
  exact decode_cases

/-- Settles O56: the decoder reads each word as the manual writes it out. -/
theorem manualWords : Obligations.ManualWords := by
  unfold Obligations.ManualWords
  exact ⟨rfl, rfl, rfl, rfl, rfl, rfl, rfl, rfl, rfl, rfl, rfl, rfl, rfl, rfl, rfl⟩

end Sys2Proof
end

section
/-!
Compact forms (R109, R130, R131): each runs the F64 form of its expansion, and the lane-wise forms with a compact form complete with
good words.
-/

namespace Sys2Proof.Machine

/-! ## Words of the residue rows -/

/-- A result of a duplicate circuit is a good word (R108). -/
theorem andWord_wellFormed (a b : CWord) : (andWord a b).wellFormed = true := CWord.gen_wellFormed _

/-! ## Signs of floats (R187) -/

theorem setSign_testBit (F : Ieee) (x : Nat) (b : Bool) (i : Nat) :
    (setSign F x b).testBit i = if i < F.eb + F.fb then x.testBit i else (decide (i = F.eb + F.fb) && b) := by
  have sum : setSign F x b = 2 ^ (F.eb + F.fb) * b.toNat + x % 2 ^ (F.eb + F.fb) := by
    cases b <;> simp [setSign, Ieee.signBit, Nat.add_comm]
  rw [sum, Nat.testBit_two_pow_mul_add _ (Nat.mod_lt _ (Nat.two_pow_pos _))]
  split
  next h => simp [Nat.testBit_mod_two_pow, h]
  next h =>
    rw [Nat.testBit_bool_toNat, decide_eq_decide.2 (show i - (F.eb + F.fb) = 0 ↔ i = F.eb + F.fb by omega)]

theorem Ieee.ofTy_sign {ty : Nat} (h : ty ≠ 0) : (Ieee.ofTy ty).eb + (Ieee.ofTy ty).fb = 15 := by
  unfold Ieee.ofTy
  split
  · exact absurd rfl h
  · rfl
  · rfl

/-- A TYPE that is neither whole nor packed works on the low half (R182). -/
theorem onType_low {ty : Nat} (h0 : ty ≠ 0) (h3 : ty ≠ 3) (g : FloatFn) (a b c : Word) :
    onType ty g a b c =
      { dst := [.gen (BitVec.ofNat 32 ((g (a.toNat % 2 ^ 16) (b.toNat % 2 ^ 16) (c.toNat % 2 ^ 16)).1 % 2 ^ 16))]
        flags := (g (a.toNat % 2 ^ 16) (b.toNat % 2 ^ 16) (c.toNat % 2 ^ 16)).2 } := by
  unfold onType
  split
  · exact absurd rfl h0
  · exact absurd rfl h3
  · rfl

/-- Every float form writes one word with a generated residue (R109, R182). -/
theorem onType_dst (ty : Nat) (g : FloatFn) (a b c : Word) : ∃ w fl, onType ty g a b c = { dst := [.gen w], flags := fl } := by
  by_cases h0 : ty = 0
  · subst h0
    exact ⟨_, _, rfl⟩
  · by_cases h3 : ty = 3
    · subst h3
      exact ⟨_, _, rfl⟩
    · exact ⟨_, _, onType_low h0 h3 g a b c⟩

/-- Bits of the masks of R187. -/
theorem getLsbD_magnitudeMask (ty i : Nat) (hi : i < 32) : (magnitudeMask ty).getLsbD i =
    if ty = 0 then decide (i ≠ 31) else if ty = 3 then decide (i ≠ 15 ∧ i ≠ 31) else decide (i < 15) := by
  unfold magnitudeMask
  split
  · revert i; decide
  · split
    · revert i; decide
    · revert i; decide

theorem getLsbD_signMask (ty i : Nat) (hi : i < 32) : (signMask ty).getLsbD i =
    if ty = 0 then decide (i = 31) else if ty = 3 then decide (i = 15 ∨ i = 31) else decide (i = 15) := by
  unfold signMask
  split
  · revert i; decide
  · split
    · revert i; decide
    · revert i; decide

theorem half_testBit {F : Ieee} (hF : F.eb + F.fb = 15) (x : Nat) (b : Bool) (i : Nat) :
    (setSign F x b % 2 ^ 16).testBit i = if i < 15 then x.testBit i else (decide (i = 15) && b) := by
  rw [Nat.testBit_mod_two_pow, setSign_testBit, hF]
  by_cases h : i < 15
  · rw [if_pos h, decide_eq_true (by omega), Bool.true_and]
  · by_cases h' : i = 15
    · simp [h']
    · simp [h, h']

theorem testBit_low_half (x : Nat) {i : Nat} (h : i < 16) : (x % 65536).testBit i = x.testBit i :=
  (Nat.testBit_mod_two_pow x 16 i).trans (by simp [h])

theorem testBit_high_half (x i : Nat) : (x / 65536).testBit i = x.testBit (i + 16) :=
  Nat.testBit_div_two_pow (n := 16) x i

/-- The signs of a TYPE's floats, each a function of the sign bits of A and B at its place, written by the AND and OR rows (R187). -/
theorem onType_setSign (ty : Nat) (p : Bool → Bool → Bool) (a b c : Word) {g : Word}
    (hg : ∀ i < 32, g.getLsbD i = p (a.getLsbD i) (b.getLsbD i)) :
    let F := Ieee.ofTy ty
    onType ty (fun x y _ => (setSign F x (p (x.testBit (F.eb + F.fb)) (y.testBit (F.eb + F.fb))), 0)) a b c =
      { dst := [.gen ((a &&& magnitudeMask ty) ||| (g &&& signMask ty))] } := by
  intro F
  have bit (i : Nat) (hi : i < 32) : ((a &&& magnitudeMask ty) ||| (g &&& signMask ty)).getLsbD i =
      (a.toNat.testBit i && (magnitudeMask ty).getLsbD i || (p (a.toNat.testBit i) (b.toNat.testBit i) && (signMask ty).getLsbD i)) := by
    rw [BitVec.getLsbD_or, BitVec.getLsbD_and, BitVec.getLsbD_and, hg i hi]
    rfl
  by_cases h0 : ty = 0
  · subst h0
    refine congrArg (fun w : Word => ({ dst := [.gen w] } : Res)) (BitVec.eq_of_getLsbD_eq fun i hi => ?_)
    rw [bit i hi, getLsbD_magnitudeMask _ _ hi, getLsbD_signMask _ _ hi, BitVec.getLsbD_ofNat, setSign_testBit,
      show F.eb + F.fb = 31 from rfl]
    by_cases h : i = 31
    · simp [h]
    · simp [h, hi, show i < 31 by omega]
  · have width : F.eb + F.fb = 15 := Ieee.ofTy_sign h0
    by_cases h3 : ty = 3
    · subst h3
      refine congrArg (fun w : Word => ({ dst := [.gen w] } : Res)) (BitVec.eq_of_getLsbD_eq fun i hi => ?_)
      rw [bit i hi, getLsbD_magnitudeMask _ _ hi, getLsbD_signMask _ _ hi, BitVec.getLsbD_ofNat, Nat.add_comm, Nat.mul_comm,
        Nat.testBit_two_pow_mul_add _ (Nat.mod_lt _ (by decide))]
      dsimp only
      rw [half_testBit width, half_testBit width, width]
      by_cases hl : i < 16
      · by_cases h : i = 15
        · simp [h, testBit_low_half]
        · simp [h, hi, hl, show i < 15 by omega, show i ≠ 31 by omega, testBit_low_half]
      · by_cases h : i = 31
        · simp [h, testBit_high_half]
        · simp [h, hi, hl, show i - 16 < 15 by omega, show i ≠ 15 by omega, testBit_high_half, show i - 16 + 16 = i by omega]
    · rw [onType_low h0 h3]
      refine congrArg (fun w : Word => ({ dst := [.gen w] } : Res)) (BitVec.eq_of_getLsbD_eq fun i hi => ?_)
      rw [bit i hi, getLsbD_magnitudeMask _ _ hi, getLsbD_signMask _ _ hi, BitVec.getLsbD_ofNat]
      dsimp only
      rw [half_testBit width, width]
      by_cases hl : i < 15
      · simp [hl, hi, h0, h3, show i ≠ 15 by omega, testBit_low_half, show i < 16 by omega]
      · by_cases h : i = 15
        · simp [h, h0, h3, testBit_low_half]
        · simp [h, hi, hl, h0, h3]

/-! ## Lane-wise forms that complete -/

/-- Where nothing stands in its way, an instruction completes, whatever its lanes take. -/
structure State.Completes (s : State) (op : Op) (f : Fields) (o : Out) : Prop where
  wrote : s.Clear op f → s.Good op f → ∃ t g, o = .next t ∧ s.Wrote t f g

section
variable {s : State} {op : Op} {f : Fields} (hop : op ≠ .bitfn)
include hop

/-- A form that writes one word in each lane, of good words a good one where its class is checked (R107). -/
theorem State.Completes.lanePure {k : RClass} {body : Ins → Res} (hbody : ∀ i, ∃ w fl, body i = { dst := [w], flags := fl } ∧
    ((k = .p ∨ k = .c) → (c0 i.a).wellFormed = true → (c0 i.b).wellFormed = true → (c0 i.c).wellFormed = true →
      w.wellFormed = true)) : s.Completes op f (s.lanePure op f k body) := by
  refine ⟨fun hc hg => ?_⟩
  have good (l : Nat) (hl : l < 32) (hr : s.Runs f l) {w : CWord} := hg.words hop hl hr (w := w)
  obtain ⟨t, ht, hw⟩ := State.lanePure_next (n := 1) hop hc hg (k := k) (body := body)
    (fun i => by obtain ⟨w, fl, e, -⟩ := hbody i; rw [e]; rfl) (fun i => by obtain ⟨w, fl, e, -⟩ := hbody i; rw [e]; exact List.nodup_nil)
    fun l hl hr hk v hv => by
      obtain ⟨w, fl, e, hwf⟩ := hbody ⟨l, s.curWarp.lane l, s.opA op f l, s.opB op f l, s.opC op f l, []⟩
      rw [e] at hv
      rw [List.mem_singleton.1 hv]
      exact hwf hk (c0_wellFormed fun w hw => good l hl hr (.inl hw)) (c0_wellFormed fun w hw => good l hl hr (.inr (.inl hw)))
        (c0_wellFormed fun w hw => good l hl hr (.inr (.inr hw)))
  exact ⟨t, _, ht, hw⟩

theorem State.Completes.typedInt {y : Exact → Exact → Exact → Exact} (hy : ∀ {a b c : Exact}, a.Ok → b.Ok → c.Ok → (y a b c).Ok) :
    s.Completes op f (typedInt op y f s) :=
  .lanePure hop fun i => ⟨_, _, rfl, fun _ ha hb hc => by
    rw [(hy (exactOf_ok ha _) (exactOf_ok hb _) (exactOf_ok hc _)).typed]
    exact CWord.gen_wellFormed _⟩

theorem State.Completes.chooseInt {pick : Nat → Ins → CWord} (hpick : ∀ t i, pick t i = c0 i.a ∨ pick t i = c0 i.b) :
    s.Completes op f (chooseInt op pick f s) :=
  .lanePure hop fun i => ⟨_, _, rfl, fun _ ha hb _ => by
    have good : (pick f.ty i).wellFormed = true := by rcases hpick f.ty i with e | e <;> rw [e] <;> assumption
    split
    · exact good
    · rw [extWord_eq good]
      exact CWord.gen_wellFormed _⟩

theorem State.Completes.wordOp {g : CWord → CWord → CWord → CWord}
    (hg : ∀ {a b c : CWord}, a.wellFormed = true → b.wellFormed = true → ∃ w, g a b c = .gen w) :
    s.Completes op f (wordOp op g f s) :=
  .lanePure hop fun i => ⟨_, _, rfl, fun _ ha hb _ => by
    obtain ⟨w, e⟩ := hg (c := c0 i.c) ha hb
    rw [e]
    exact CWord.gen_wellFormed w⟩

theorem State.Completes.floatBits {k : RClass} {g : Ieee → FloatFn} : s.Completes op f (floatBits op k g f s) :=
  .lanePure hop fun i => by
    obtain ⟨w, fl, e⟩ := onType_dst f.fty (g (.ofTy f.fty)) (w0 i.a) (w0 i.b) (w0 i.c)
    exact ⟨_, fl, e, fun _ _ _ _ => CWord.gen_wellFormed w⟩

theorem State.Completes.floatOp {y : Nat → FVal → FVal → FVal → FVal × BitVec 5} : s.Completes op f (floatOp op y f s) :=
  State.Completes.floatBits hop (k := .s)
    (g := fun F a b c => roundOnce F f.rm (y f.rm (F.decode a) (F.decode b) (F.decode c)))

/-- A form that changes signs: the words of its AND and OR rows are the result (R187). -/
theorem State.Completes.floatSign {sign : Ieee → Nat → Nat → Bool} {g : CWord → CWord → CWord} (p : Bool → Bool → Bool)
    (hsign : ∀ F x y, sign F x y = p (x.testBit (F.eb + F.fb)) (y.testBit (F.eb + F.fb)))
    (hg : ∀ (a b : CWord), ∀ i < 32, (g a b).data.getLsbD i = p (a.data.getLsbD i) (b.data.getLsbD i)) :
    s.Completes op f (floatSign op sign g f s) :=
  .lanePure hop fun i => by
    simp only [hsign]
    rw [onType_setSign f.fty p (w0 i.a) (w0 i.b) (w0 i.c) (hg (c0 i.a) (c0 i.b)),
      orWord_eq (andWord_wellFormed _ _) (andWord_wellFormed _ _)]
    exact ⟨_, _, rfl, fun _ _ _ _ => CWord.gen_wellFormed _⟩

end

theorem State.Completes.moveWord {s : State} {f : Fields} : s.Completes .mov f (moveWord f s) :=
  .lanePure (k := moveClass f) (by decide) fun _ => ⟨_, _, rfl, fun _ ha _ _ => ha⟩

/-! ## Expansion (R130) -/

/-- The F64 fields that a compact form stands for. -/
theorem Compact.expand_eq (c : Compact) (unary : Bool) : c.expand unary =
    { fmt := .f32, s := c.s, g := c.g, d := c.d7.zeroExtend 9, a := if unary then c.a7.zeroExtend 9 else c.d7.zeroExtend 9,
      b := if unary then 0 else c.a7.zeroExtend 9, c := 0, m := BitVec.ofNat 11 (c.m3.toNat * 32) } := by
  have m : c.m3.zeroExtend 11 <<< 5 = BitVec.ofNat 11 (c.m3.toNat * 32) := by
    refine BitVec.eq_of_toNat_eq ?_
    have := c.m3.isLt
    simp [Nat.shiftLeft_eq]
  rw [Compact.expand, m]

/-- A compact form and the F64 form of its expansion run alike, four bytes apart from the next instruction, and complete. -/
theorem Compact.same {s : State} {c : Compact} {i : Instr} {full : Fields → Instr} {op : Op} {unary : Bool} (run : Fields → State → Out)
    (hi : exec i s = run (c.expand unary) s) (hf : exec (full (c.expand unary)) s = run (c.expand unary) s)
    (hc : s.Completes op (c.expand unary) (run (c.expand unary) s)) :
    exec i s = exec (full (c.expand unary)) s ∧ s.nextPc (c.expand unary) = s.cur.pc + 4 ∧
      (s.Clear op (c.expand unary) → s.Good op (c.expand unary) → ∃ t g, exec i s = .next t ∧ s.Wrote t (c.expand unary) g) :=
  ⟨hi.trans hf.symm, rfl, hi ▸ hc.wrote⟩

/-- Settles O12: a compact form runs its expansion, and each of the F64 forms that it can stand for completes. -/
theorem compactForms : Obligations.CompactForms := by
  unfold Obligations.CompactForms
  intro s c fields same
  have hf : fields = fun unary => c.expand unary := funext fun unary => (Compact.expand_eq c unary).symm
  clear_value fields
  subst hf
  exact ⟨Compact.same intAdd rfl rfl (.typedInt (by decide) fun ha hb _ => ha.add hb),
    Compact.same intSub rfl rfl (.typedInt (by decide) fun ha hb _ => ha.sub hb),
    Compact.same intNeg rfl rfl (.typedInt (by decide) fun ha _ _ => ha.neg),
    Compact.same intMin rfl rfl (.chooseInt (by decide) fun t i => (ite_eq_or_eq _ _ _).symm),
    Compact.same intMax rfl rfl (.chooseInt (by decide) fun t i => (ite_eq_or_eq _ _ _).symm),
    Compact.same intMul rfl rfl (.typedInt (by decide) fun ha hb _ => ha.mul hb),
    Compact.same bitAnd rfl rfl (.wordOp (by decide) fun _ _ => ⟨_, rfl⟩),
    Compact.same bitOr rfl rfl (.wordOp (by decide) fun ha hb => ⟨_, orWord_eq ha hb⟩),
    Compact.same bitXor rfl rfl (.wordOp (by decide) fun ha hb => ⟨_, xorWord_eq ha hb⟩),
    Compact.same bitNot rfl rfl (.wordOp (by decide) fun ha _ => ⟨_, notWord_eq ha⟩),
    Compact.same bitShl rfl rfl (.wordOp (by decide) fun ha _ => ⟨_, shlWord_eq ha _⟩),
    Compact.same bitShr rfl rfl (.wordOp (by decide) fun ha _ => ⟨_, shrWord_eq ha _ _⟩),
    Compact.same bitPopc rfl rfl (.wordOp (by decide) fun _ _ => ⟨_, rfl⟩),
    Compact.same moveWord rfl rfl .moveWord,
    Compact.same floatAdd rfl rfl (.floatOp (by decide)),
    Compact.same floatSub rfl rfl (.floatOp (by decide)),
    Compact.same floatMul rfl rfl (.floatOp (by decide)),
    Compact.same floatMin rfl rfl (.floatBits (by decide)),
    Compact.same floatMax rfl rfl (.floatBits (by decide)),
    Compact.same floatAbs rfl rfl (.floatSign (by decide) (fun _ _ => false) (fun _ _ _ => rfl) fun _ _ _ _ => BitVec.getLsbD_zero),
    Compact.same floatNeg rfl rfl (.floatSign (by decide) (fun x _ => !x) (fun _ _ _ => rfl) fun a _ i hi => by simp [notWord, hi])⟩

end Sys2Proof.Machine
end

section
/-!
Fetching and headers (O42): the walk of a fetch that is denied, in a state whose walker's cache is full.
-/

namespace Sys2Proof.Machine

/-- Tables of level 2 at 0x10000 and of level 3 at 0x20000, with a leaf for the page at 0 that lacks X (R412). The table of
level 1, at 0, no longer names them. -/
def staleTables : Mem :=
  (Mem.empty.setWords 0x10000 [.gen 0x20001, .gen 0]).setWords 0x20000 [.gen 0x30003, .gen 0]

/-- A walker's cache of 256 entries: the oldest is the entry of level 1 that once stood at 0 (R414). -/
def fullWalker : List WalkEntry := List.replicate 255 (walkEntry 1 0 0 1 0) ++ [walkEntry 0 0 0 1 0x10001]

/-- The translation that the page has by these tables. -/
def stalePage : Tlb := tlbOf 0 0 false 0x30003

/-- A device with a live warp of context 0, whose walks use that cache and those tables. -/
def staleWalk : State :=
  { State.reset with
    warps := [(0, { Warp.absent with lanes := [{ Thread.absent with status := .ready }] })]
    ctxs := [(0, { Context.absent with ptroot := 1 })]
    units := [(0, 0)]
    mem := staleTables
    walkers := [(0, fullWalker)] }

theorem staleWalk_liveWarp : ((staleWalk.liveWarps 0).find? fun w => warpCore w == 0) = some 0 := by decide

theorem staleWalk_mayStart (k : Nat) : staleWalk.mayStart (staleWalk.gridOf 0) k = true := rfl

theorem staleWalk_walk : staleWalk.walk 0 0 0 = .ok stalePage := by rfl

theorem staleWalk_walked_walk : (staleWalk.walked 0 0 0).walk 0 0 0 = .error (0, 1) := by rfl

theorem staleWalk_needsWalk : staleWalk.needsWalk 0 0 0 true = true := rfl

theorem staleWalk_walkBill : staleWalk.walkBill 0 0 { fetch := true } [0] = { walks := [(0, { fetch := true })] } := by rfl

/-- R421: the leaf denies the fetch, so no buffer takes its translation; the walker's cache takes the entry of level 2. -/
theorem staleWalk_touch : staleWalk.touch 0 0 0 { fetch := true } = staleWalk.walked 0 0 0 := by
  have hdenied : (stalePage.denies { fetch := true }).isSome = true := rfl
  have hdie : dieOf 0 = 0 := rfl
  unfold State.touch
  simp [staleWalk_needsWalk, staleWalk_walk, hdie, hdenied]

theorem exec_pageWalk_staleWalk : exec (.pageWalk 0 0 0 true) staleWalk = .next (staleWalk.walked 0 0 0) := by
  have hcharge (k n : Nat) : staleWalk.charge (staleWalk.gridOf 0) k n = staleWalk := by
    unfold State.charge
    split <;> rfl
  have hpay : staleWalk.pay 0 0 (staleWalk.gridOf 0) { walks := [(0, { fetch := true })] } = staleWalk.walked 0 0 0 := by
    simp [State.pay, Bill.units, hcharge, staleWalk_touch]
  have hcan : staleWalk.canPay (staleWalk.gridOf 0) { walks := [(0, { fetch := true })] } = true := rfl
  change execPageWalk 0 0 0 true staleWalk = _
  unfold execPageWalk
  simp [staleWalk_liveWarp, staleWalk_walkBill, hcan, hpay]

/-- Refutes O42: the last clause asks that the address translates after its walk. A walk whose leaf denies the fetch puts
nothing into the buffer (R421), and where it finds the walker's cache full, the entry that it met of level 2 drives out the
one of level 1 that it used (R414): the next walk then reads level 1 from memory, which no longer holds it. -/
theorem not_fetchAndHeaders : ¬ Obligations.FetchAndHeaders := by
  unfold Obligations.FetchAndHeaders
  rintro ⟨-, -, -, -, -, walks⟩
  obtain ⟨-, paid⟩ := walks staleWalk 0 0 0 true
  obtain ⟨-, -, found⟩ := paid 0 staleWalk_liveWarp staleWalk_needsWalk
  obtain ⟨t, hexec, -, -, hlookup, -⟩ := found stalePage (staleWalk_mayStart _) staleWalk_walk
  rw [exec_pageWalk_staleWalk] at hexec
  obtain rfl : staleWalk.walked 0 0 0 = t := by injection hexec
  have hmiss : (staleWalk.walked 0 0 0).lookup 0 0 0 true = .error (0, 1) := by
    rw [← staleWalk_walked_walk]
    rfl
  have hcontra : Except.error (0, 1) = Except.ok stalePage := hmiss.symm.trans hlookup
  cases hcontra

end Sys2Proof.Machine
end

section
/-!
Claimed encodings (O58): the slot that `bestSlot` finds (R456), and the bundle after the emulate action (R461).
-/

namespace Sys2Proof.Machine

/-! ## The slot that claims -/

/-- A slot added at the end is the best one if it fits and has a higher priority than the best before it. -/
theorem bestSlot_concat (l : List Slot) (x : Slot) (p : Slot → Bool) :
    bestSlot (l ++ [x]) p =
      if p x then
        match bestSlot l p with
        | some (_, y) => if y.prio < x.prio then some (l.length, x) else bestSlot l p
        | none => some (l.length, x)
      else bestSlot l p := by
  simp only [bestSlot, List.zipIdx_append, List.foldl_append, List.zipIdx_singleton, List.foldl_cons, List.foldl_nil, Nat.zero_add]
  <;> rfl

theorem bestSlot_eq_none_iff {l : List Slot} {p : Slot → Bool} : bestSlot l p = none ↔ ∀ x ∈ l, p x = false := by
  induction l using List.reverseRecOn with
  | nil => simp [bestSlot]
  | append_singleton l x ih =>
    rw [bestSlot_concat]
    cases hx : p x with
    | false => simpa [hx, or_imp, forall_and] using ih
    | true =>
      have fits : ¬ ∀ y ∈ l ++ [x], p y = false := fun h => by simpa [hx] using h x (by simp)
      simp only [fits, iff_false, if_true]
      split
      · split
        · simp
        · simp [*]
      · simp

/-- `n`, `x` is the slot of highest priority, and of the lowest number among equals, that fits. -/
def IsBest (l : List Slot) (p : Slot → Bool) (n : Nat) (x : Slot) : Prop :=
  l[n]? = some x ∧ p x = true ∧ ∀ m y, l[m]? = some y → p y = true → y.prio < x.prio ∨ (y.prio = x.prio ∧ n ≤ m)

/-- A slot of the list with one more at the end is a slot of the list, or the last. -/
theorem getElem?_concat_cases {l : List Slot} {x y : Slot} {m : Nat} (h : (l ++ [x])[m]? = some y) :
    l[m]? = some y ∨ (m = l.length ∧ y = x) := by
  rw [List.getElem?_append] at h
  split at h
  · exact .inl h
  · right
    rw [List.getElem?_singleton] at h
    split at h
    · exact ⟨by omega, (Option.some.inj h).symm⟩
    · cases h

theorem getElem?_concat_left {l : List Slot} {x y : Slot} {m : Nat} (h : l[m]? = some y) : (l ++ [x])[m]? = some y := by
  rw [List.getElem?_append_left (List.getElem?_eq_some_iff.1 h).1, h]

/-- A last slot that does not fit, or has no higher priority, leaves the best one. -/
theorem IsBest.concat_old {l : List Slot} {p : Slot → Bool} {n : Nat} {x y : Slot} (h : IsBest l p n y)
    (hx : p x = true → x.prio ≤ y.prio) : IsBest (l ++ [x]) p n y := by
  obtain ⟨hn, hy, best⟩ := h
  have hlt : n < l.length := (List.getElem?_eq_some_iff.1 hn).1
  refine ⟨getElem?_concat_left hn, hy, fun m z hm hz => ?_⟩
  rcases getElem?_concat_cases hm with hm | ⟨rfl, rfl⟩
  · exact best m z hm hz
  · have := hx hz
    omega

/-- A last slot that fits and has a higher priority than all that fit before it is the best one. -/
theorem IsBest.concat_new {l : List Slot} {p : Slot → Bool} {x : Slot} (hx : p x = true)
    (h : ∀ y ∈ l, p y = true → y.prio < x.prio) : IsBest (l ++ [x]) p l.length x := by
  refine ⟨by simp, hx, fun m z hm hz => ?_⟩
  rcases getElem?_concat_cases hm with hm | ⟨rfl, rfl⟩
  · exact .inl (h z (List.mem_of_getElem? hm) hz)
  · exact .inr ⟨rfl, Nat.le_refl _⟩

/-- R456: the slot that claims. -/
theorem isBest_of_bestSlot {l : List Slot} {p : Slot → Bool} {n : Nat} {x : Slot} (h : bestSlot l p = some (n, x)) :
    IsBest l p n x := by
  induction l using List.reverseRecOn generalizing n x with
  | nil => cases h
  | append_singleton l z ih =>
    rw [bestSlot_concat] at h
    split at h
    next hz =>
      split at h
      next k y hy =>
        obtain ⟨hk, -, best⟩ := ih hy
        split at h
        next hlt =>
          cases h
          refine .concat_new hz fun u hu hpu => ?_
          obtain ⟨m, hm⟩ := List.getElem?_of_mem hu
          have := best m u hm hpu
          omega
        next hge =>
          rw [hy] at h
          cases h
          exact (ih hy).concat_old fun _ => by omega
      next hnone =>
        cases h
        refine .concat_new hz fun u hu hpu => ?_
        rw [bestSlot_eq_none_iff.1 hnone u hu] at hpu
        cases hpu
    next hz => exact (ih h).concat_old fun hz' => absurd hz' hz

/-- No slot claims an encoding that none matches. -/
theorem State.claim_eq_none_iff {s : State} {v : BitVec 96} :
    s.claim v = none ↔ ∀ x ∈ s.rennet.slots, s.matches s.curCtx v x = false := by
  rw [← bestSlot_eq_none_iff, State.claim]
  split <;> simp [*]

theorem State.isBest_of_claim {s : State} {v : BitVec 96} {k : Claim} (h : s.claim v = some k) :
    IsBest s.rennet.slots (s.matches s.curCtx v) k.n k.slot := by
  rw [State.claim] at h
  split at h
  next hb =>
    cases h
    exact isBest_of_bestSlot hb
  next => cases h

/-! ## The emulate action -/

/-- A lane of an emulation group at its routine, `n` being the group's number (R461, R464). -/
def State.emulated (s : State) (k : Claim) (n : Nat) (t : Thread) : Thread :=
  t.enter
    { gid := n, tfm := s.claimLanes k, tam := s.cur.mask, tcause := 0, tinfo := BitVec.ofNat 32 k.n,
      tpc := (k.next s.cur.pc).zeroExtend 64, taddr := s.pc64, mr := none, since := s.time,
      emu := some { slot := k.n, key := keyOf k.v, lit := k.f.lit.getD 0, rnmr := packMr t.mr, addr := s.cur.pc,
                    dep := k.slot.dep, inner := t.inHandler },
      async := none, wrote := false, entry := none }
    (BitVec.ofNat 55 (routineBase + 4 * k.slot.routine)) n

/-- The qualifying lanes of a warp put into a group at the routine. -/
def State.enterRoutine (s : State) (k : Claim) (w : Warp) : Warp :=
  { (w.mapLanes fun l t => if (s.claimLanes k).getLsbD l then s.emulated k w.next t else t) with next := w.next + 1 }

/-- A lane of a bundle after the emulate action: at the routine, after the encoding, or as it was. -/
def State.afterEmulate (s : State) (k : Claim) (l : Nat) (t : Thread) : Thread :=
  if (s.claimLanes k).getLsbD l then s.emulated k s.curWarp.next t
  else if s.active l then
    { t with pc := k.next s.cur.pc, window := if s.claimLanes k = s.cur.mask then t.window - 1 else 0, wmask := 0, body := 0 }
  else t

/-- Lanes qualify among the active ones (R457). -/
theorem State.active_of_claimLanes {s : State} {k : Claim} {l : Nat} (hl : l < 32) (h : (s.claimLanes k).getLsbD l = true) :
    s.active l = true := by
  unfold State.claimLanes at h
  split at h
  · exact h
  · rw [Warp.getLsbD_maskOf _ _ _ hl] at h
    simp only [Bool.and_eq_true] at h
    exact h.1.1

theorem State.claimTraps_nil {s : State} {k : Claim} (h : s.claimBad k = 0) : s.claimTraps k = [] := by
  have none : lanesOf (0 : Word) = [] := by decide
  rw [State.claimTraps, h, none, List.map_nil]

/-- With no SFU result of its warp queued, a bundle writes none back. -/
theorem State.drainUpTo_idle {s : State} (h : ∀ e ∈ (s.core s.curCore).sfu, e.wid ≠ s.cur.wid) (p : SfuEntry → Bool) :
    s.drainUpTo p = s := by
  have none : ((s.core s.curCore).sfu.filter fun e => e.wid == s.cur.wid && p e) = [] :=
    List.filter_eq_nil_iff.2 fun e he => by simp [h e he]
  rw [State.drainUpTo, none]
  rfl

/-- The emulate action of a claim whose guard is good in every lane, where no SFU result of the warp is queued. -/
theorem State.claimEmulate_eq {s : State} {k : Claim} (hbad : s.claimBad k = 0)
    (hsfu : ∀ e ∈ (s.core s.curCore).sfu, e.wid ≠ s.cur.wid) :
    s.claimEmulate k =
      let others := s.cur.mask &&& ~~~s.claimLanes k
      let s1 := s.count.passBy others (k.next s.cur.pc)
      (if s.claimLanes k = s.cur.mask then s1 else s1.closeWindow others).updWarp s.cur.wid (s.enterRoutine k) := by
  have queue : (s.count.core s.curCore).sfu = (s.core s.curCore).sfu := by
    rw [State.count, State.core_updCore_self]
  have drained (p : SfuEntry → Bool) : s.count.drainUpTo p = s.count := State.drainUpTo_idle (queue ▸ hsfu) p
  have others : s.cur.mask &&& ~~~s.claimLanes k &&& ~~~(0 : Word) = s.cur.mask &&& ~~~s.claimLanes k := BitVec.and_allOnes
  simp only [State.claimEmulate, drained, hbad, State.claimTraps_nil hbad, State.trapLanes_nil, others]
  rfl

section
variable {s u : State} {n : Nat} {h : Nat → Thread}

theorem State.LanesTo.passBy (e : s.LanesTo u n h) (m : Word) (next : Addr) :
    s.LanesTo (u.passBy m next) n fun l => if m.getLsbD l then { (h l).goto next with body := 0 } else h l := by
  rw [State.passBy, e.cur]
  exact e.lanes _

theorem State.LanesTo.closeWindow (e : s.LanesTo u n h) (m : Word) :
    s.LanesTo (u.closeWindow m) n fun l => if m.getLsbD l then { h l with window := 0, wmask := 0 } else h l := by
  rw [State.closeWindow, e.cur]
  exact e.lanes _

theorem State.LanesTo.enterRoutine (e : s.LanesTo u s.curWarp.next h) (k : Claim) :
    s.LanesTo (u.updWarp s.cur.wid (s.enterRoutine k)) (s.curWarp.next + 1)
      fun l => if (s.claimLanes k).getLsbD l then s.emulated k s.curWarp.next (h l) else h l := by
  have next : (u.warp s.cur.wid).next = s.curWarp.next := by rw [e.warp]
  have same := e.map (fun l t => if (s.claimLanes k).getLsbD l then s.emulated k s.curWarp.next t else t) (s.curWarp.next + 1)
  rwa [← State.updWarp_congr (f := s.enterRoutine k) u s.cur.wid (by rw [State.enterRoutine, next])] at same

end

/-- The emulate action puts the lanes that qualify at the routine, and the others go on (R457, R461). -/
theorem State.LanesTo.emulate {s : State} {k : Claim} (hb : s.Bundled) (hbad : s.claimBad k = 0)
    (hsfu : ∀ e ∈ (s.core s.curCore).sfu, e.wid ≠ s.cur.wid) :
    s.LanesTo (s.claimEmulate k) (s.curWarp.next + 1) fun l => s.afterEmulate k l (s.curWarp.lane l) := by
  have other {l : Nat} (hl : l < 32) :
      (s.cur.mask &&& ~~~s.claimLanes k).getLsbD l = (s.active l && !(s.claimLanes k).getLsbD l) := by
    simp [hl, State.active]
  have passed := (State.LanesTo.refl hb).count.passBy (s.cur.mask &&& ~~~s.claimLanes k) (k.next s.cur.pc)
  rw [State.claimEmulate_eq hbad hsfu]
  dsimp only
  split
  next all =>
    refine (passed.enterRoutine k).congr fun l hl => ?_
    simp only [other hl, State.afterEmulate, if_pos all]
    cases (s.claimLanes k).getLsbD l <;> cases s.active l <;> rfl
  next some =>
    refine ((passed.closeWindow _).enterRoutine k).congr fun l hl => ?_
    simp only [other hl, State.afterEmulate, if_neg some]
    cases (s.claimLanes k).getLsbD l <;> cases s.active l <;> rfl

/-! ## The obligation -/

/-- A form whose effect a boot slot gives is not an illegal encoding. -/
theorem State.claimBoot_eq_exec {s w : State} {k : Claim} {op : Op} {f : Fields} (hv : (s.decoded k.v).view = .full op f)
    (hn : lowest (nWhys op f s.curWg.nreg) = none) (hw : s.dependOn (s.decoded k.v) = some w) :
    s.claimBoot k = exec (s.decoded k.v) w := by
  unfold State.claimBoot
  dsimp only
  split
  next e he =>
    rw [he] at hv
    cases hv
  next => simp only [hv, hn, hw]

/-- A decode slot fits an encoding by its key, its context and its pitch (R456). -/
theorem State.matches_eq (s : State) (c : Nat) (v : BitVec 96) (x : Slot) :
    s.matches c v x = (x.kind == 1 && (keyOf v ^^^ x.match_) &&& x.mask == 0 && (x.anyc || x.ctx == c) &&
      x.pmask.getLsbD (s.ctx c).pitch) := by
  rw [State.matches, Slot.applies, Bool.and_assoc, Bool.and_assoc, Bool.and_assoc]

/-- Settles O58: the slot by induction on the slots (`isBest_of_bestSlot`), the emulate action by what it makes of each lane
(`State.LanesTo.emulate`). -/
theorem claimedEncodings : Obligations.ClaimedEncodings := by
  unfold Obligations.ClaimedEncodings
  refine ⟨fun s x => ?_, fun s k hb => ⟨fun hboot hact => ?_, fun i op f w hboot hi hv hn hw => ?_, fun hboot hact hbad hsfu => ?_⟩⟩
  · dsimp only
    refine ⟨?_, fun k hk => ?_⟩
    · rw [State.claim_eq_none_iff, List.forall_mem_iff_getElem]
      refine forall₂_congr fun n hn => ?_
      rw [List.getElem?_eq_getElem hn, State.matches_eq]
    · obtain ⟨hn, hfit, best⟩ := State.isBest_of_claim hk
      refine ⟨?_, by rw [List.getD_eq_getElem?_getD, hn]; rfl, fun m hm => ?_⟩
      · rw [State.matches_eq] at hfit
        rw [hn]
        exact hfit
      · split at hm
        next y hy =>
          rw [← State.matches_eq] at hm
          simpa [hn, hy] using best m y hy hm
        next => cases hm
  · simp only [State.patched, hboot, hact, Bool.false_eq_true, if_false]
    rfl
  · subst hi
    rw [State.patched, if_pos hboot, State.claimBoot_eq_exec hv hn hw]
  · have e := State.LanesTo.emulate hb hbad hsfu
    refine ⟨s.claimEmulate k, ?_, e.device, fun l hl => ?_⟩
    · simp only [State.patched, hboot, hact, Bool.false_eq_true, if_false]
    · dsimp only
      rw [e.lane l hl]
      refine ⟨fun idle => ?_, fun act out => ?_, fun qualifies => ?_⟩
      · have out : (s.claimLanes k).getLsbD l = false :=
          Bool.eq_false_iff.2 fun h => by simp [State.active_of_claimLanes hl h] at idle
        simp [State.afterEmulate, out, idle]
      · simp [State.afterEmulate, out, act]
      · rw [State.afterEmulate, if_pos qualifies]
        exact ⟨rfl, rfl, _, rfl, rfl, rfl, rfl, rfl, rfl, rfl⟩

end Sys2Proof.Machine
end

section
/-!
Typed integers (R158). A TYPE has 2^width integers, one for each pattern of the low bits: the integer of a word is the one in range
that is congruent to it, and the word that is written is the extension of an integer in range.
-/

namespace Sys2Proof.Machine

/-- The integer of a word is the one of the TYPE that is congruent to the word. -/
theorem tyExt_eq {t : Nat} {x : Word} {y : Int} (hy : tyMin t ≤ y ∧ y ≤ tyMax t) (h : y ≡ x.toNat [ZMOD 2 ^ tyWidth t]) :
    tyExt t x = y := by
  obtain ⟨hlo, hhi⟩ := tyExt_range t x
  have hx := tyExt_mod t x
  rw [Int.ModEq] at h
  simp only [tyMin, tyMax] at hy hlo hhi
  rcases tyWidth_cases t with hw | hw | hw <;> rw [hw] at hy hlo hhi hx h <;> cases hs : tySigned t <;>
    simp only [hs, Bool.false_eq_true, if_false, if_true] at hy hlo hhi <;> omega

/-- Bits above the width do not count (R158). -/
theorem tyExt_congr {t : Nat} {x z : Word} (h : z.toNat % 2 ^ tyWidth t = x.toNat % 2 ^ tyWidth t) : tyExt t z = tyExt t x := by
  have hz : (z.toNat : Int) ≡ x.toNat [ZMOD 2 ^ tyWidth t] := by exact_mod_cast h
  exact tyExt_eq (tyExt_range t x) ((show tyExt t x ≡ _ [ZMOD _] from tyExt_mod t x).trans hz.symm)

theorem ofInt_modEq (t : Nat) (y : Int) : ((BitVec.ofInt 32 y).toNat : Int) ≡ y [ZMOD 2 ^ tyWidth t] := by
  rw [ofInt_toNat, Int.ModEq]
  rcases tyWidth_cases t with hw | hw | hw <;> rw [hw] <;> omega

/-- An integer of the TYPE reads back from the word that holds it. -/
theorem tyExt_ofInt {t : Nat} {y : Int} (hy : tyMin t ≤ y ∧ y ≤ tyMax t) : tyExt t (BitVec.ofInt 32 y) = y :=
  tyExt_eq hy (ofInt_modEq t y).symm

theorem clampInt_range (t : Nat) (y : Int) : tyMin t ≤ clampInt (tyMin t) (tyMax t) y ∧ clampInt (tyMin t) (tyMax t) y ≤ tyMax t := by
  obtain ⟨hlo, hhi⟩ := tyExt_range t 0
  unfold clampInt
  split
  · omega
  · split <;> omega

/-- Both writes of R158 extend an integer of the TYPE to 32 bits. -/
theorem tyWrite_ofInt (t : Nat) (sat : Bool) (y : Int) :
    ∃ e, (tyMin t ≤ e ∧ e ≤ tyMax t) ∧ tyWrite t sat y = BitVec.ofInt 32 e := by
  cases sat with
  | false => exact ⟨_, tyExt_range t _, rfl⟩
  | true => exact ⟨_, clampInt_range t y, rfl⟩

/-- The written word read as a 32-bit integer of the TYPE's signedness is the integer of the TYPE: it is extended (R158). -/
theorem tyWrite_extended (t : Nat) (sat : Bool) (y : Int) :
    (if tySigned t then (tyWrite t sat y).toInt else (tyWrite t sat y).toNat) = tyExt t (tyWrite t sat y) := by
  obtain ⟨e, he, hw⟩ := tyWrite_ofInt t sat y
  have hn := ofInt_toNat e
  rw [hw, tyExt_ofInt he]
  unfold tyMin tyMax at he
  split
  next hs =>
    rw [BitVec.toInt_eq_toNat_cond]
    rcases tyWidth_cases t with h | h | h <;> rw [h] at he <;> simp only [hs, if_true] at he <;> split <;> omega
  next hs =>
    rcases tyWidth_cases t with h | h | h <;> rw [h] at he <;> simp only [hs, Bool.false_eq_true, if_false] at he <;> omega

/-- A wrapped result is congruent to its exact integer (R158). -/
theorem tyWrite_wrap_modEq (t : Nat) (y : Int) : tyExt t (tyWrite t false y) ≡ y [ZMOD 2 ^ tyWidth t] := by
  rw [show tyWrite t false y = BitVec.ofInt 32 (tyExt t (BitVec.ofInt 32 (y % 2 ^ tyWidth t))) from rfl, tyExt_ofInt (tyExt_range t _)]
  exact (show tyExt t _ ≡ _ [ZMOD _] from tyExt_mod t _).trans ((ofInt_modEq t _).trans (Int.mod_modEq y _))

/-- An integer of the TYPE is written unchanged by `wrap`. -/
theorem tyWrite_wrap_of_range {t : Nat} {y : Int} (hy : tyMin t ≤ y ∧ y ≤ tyMax t) : tyWrite t false y = BitVec.ofInt 32 y :=
  congrArg (BitVec.ofInt 32) (tyExt_eq hy ((ofInt_modEq t _).trans (Int.mod_modEq y _)).symm)

/-- At 32 bits a word is written as it was read (R162). -/
theorem tyWrap_tyExt {t : Nat} (ht : tyWidth t = 32) (x : Word) : tyWrap t (tyExt t x) = x := by
  refine (tyWrite_wrap_of_range (tyExt_range t x)).trans (BitVec.eq_of_toNat_eq ?_)
  have h := tyExt_mod t x
  have hn := ofInt_toNat (tyExt t x)
  rw [ht] at h
  omega

/-- `.SAT` of the integer range is OPM[3] (R127). -/
theorem Fields.sat_eq (f : Fields) : f.sat = f.opm.getLsbD 3 := by simp [Fields.sat, Fields.opm]

/-- Settles O2: the integer of a word is the one of its TYPE that is congruent to it (`tyExt_eq`), and both writes extend an integer of
the TYPE (`tyWrite_ofInt`). -/
theorem typedWrite : Obligations.TypedWrite := by
  unfold Obligations.TypedWrite
  intro t x y _
  obtain ⟨hlo, hhi⟩ := tyExt_range t x
  refine ⟨⟨hlo, hhi, ?_⟩, fun z => tyExt_congr, Fields.sat_eq, (tyWrite_wrap_modEq t y).symm.dvd, tyExt_ofInt (clampInt_range t y),
    fun sat => tyWrite_extended t sat y⟩
  exact (show tyExt t x ≡ _ [ZMOD _] from tyExt_mod t x).symm.dvd

end Sys2Proof.Machine
end

section
/-!
Lane-wise forms that give their results (R107, R110, R142): what the checks at decode leave of the opcode's own fields, and the rule
by which a form over good operands completes.
-/

namespace Sys2Proof.Machine

/-! ## What decoding leaves -/

/-- The checks of an opcode's own entry find nothing (R141). -/
theorem State.Decodes.extra {s : State} {op : Op} {f : Fields} (h : s.Decodes op f) : op.extra f = [] := by
  have none := lowest_eq_none.1 h.1
  simp only [Fields.whys, List.append_eq_nil_iff] at none
  exact none.1.2

/-! ## Operands -/

/-- What a lane reads through the opcode's form. -/
def State.operands (s : State) (op : Op) (f : Fields) (l : Nat) : Ins :=
  ⟨l, s.curWarp.lane l, s.opA op f l, s.opB op f l, s.opC op f l, []⟩

/-- Every word of the operands is good (R110). -/
def Ins.Good (i : Ins) : Prop := ∀ w, w ∈ i.a ∨ w ∈ i.b ∨ w ∈ i.c → w.wellFormed = true

section
variable {i : Ins} (h : i.Good)
include h

theorem Ins.Good.a0 : (c0 i.a).wellFormed = true := c0_wellFormed fun w hw => h w (.inl hw)
theorem Ins.Good.a1 : (c1 i.a).wellFormed = true := c1_wellFormed fun w hw => h w (.inl hw)
theorem Ins.Good.b0 : (c0 i.b).wellFormed = true := c0_wellFormed fun w hw => h w (.inr (.inl hw))
theorem Ins.Good.b1 : (c1 i.b).wellFormed = true := c1_wellFormed fun w hw => h w (.inr (.inl hw))
theorem Ins.Good.c0 : (Machine.c0 i.c).wellFormed = true := c0_wellFormed fun w hw => h w (.inr (.inr hw))
theorem Ins.Good.c1 : (Machine.c1 i.c).wellFormed = true := c1_wellFormed fun w hw => h w (.inr (.inr hw))

end

/-! ## The rule -/

section
variable {s : State} {i : Instr} {op : Op} {f : Fields} (hop : op ≠ .bitfn)
include hop

/-- A form that takes `g` from good operands completes with `g` in each lane that runs. -/
theorem State.gives_lanewise {k : RClass} {body : Ins → Except Trap Res} {g : Nat → Res} (n : Nat)
    (hi : exec i s = s.lanewise op f k false body)
    (h : op.extra f = [] → ∀ l < 32, s.Runs f l → (s.operands op f l).Good → body (s.operands op f l) = .ok (g l) ∧
      (g l).dst.length = n ∧ ((g l).preds.map (·.1)).Nodup ∧ (k = .p ∨ k = .c → ∀ w ∈ (g l).covered, w.wellFormed = true)) :
    s.Gives i op f g := by
  intro hc hg
  have each (l : Nat) (hl : l < 32) (hr : s.Runs f l) := h hc.2.1.extra l hl hr fun _ hw => hg.words hop hl hr hw
  rw [hi]
  exact State.lanewise_next hop hc hg (fun l hl hr => (each l hl hr).1) (fun l hl hr => (each l hl hr).2.1)
    (fun l hl hr => (each l hl hr).2.2.1) fun l hl hr => (each l hl hr).2.2.2

/-- As `gives_lanewise`, for one word with its own residue. -/
theorem State.givesWord_lanePure {k : RClass} {w : Ins → CWord} {g : Nat → Word}
    (hi : exec i s = s.lanePure op f k fun j => { dst := [w j] })
    (h : op.extra f = [] → ∀ l, (s.operands op f l).Good → w (s.operands op f l) = .gen (g l)) : s.GivesWord i op f g :=
  State.gives_lanewise hop 1 hi fun hx l _ _ hg =>
    ⟨congrArg (fun x => Except.ok (Res.mk [x] [] [] 0)) (h hx l hg), rfl, List.nodup_nil, fun _ x hw => by
      rw [List.mem_singleton.1 hw]
      exact CWord.gen_wellFormed _⟩

/-- As `gives_lanewise`, for a pair with its own residues. -/
theorem State.givesPair_lanePure {k : RClass} {w : Ins → List CWord} {g : Nat → BitVec 64}
    (hi : exec i s = s.lanePure op f k fun j => { dst := w j })
    (h : op.extra f = [] → ∀ l, (s.operands op f l).Good → w (s.operands op f l) = ofPair (g l)) : s.GivesPair i op f g :=
  State.gives_lanewise hop 2 hi fun hx l _ _ hg =>
    ⟨congrArg (fun xs => Except.ok (Res.mk xs [] [] 0)) (h hx l hg), rfl, List.nodup_nil, fun _ x hw => by
      rcases List.mem_pair.1 hw with rfl | rfl <;> exact CWord.gen_wellFormed _⟩

/-- As `gives_lanewise`, for a predicate pair and words that are formed and checked beside it (R107). -/
theorem State.givesPreds_lanePure {k : RClass} {p : Ins → Bool} {ws : Ins → List CWord} {g : Nat → Bool}
    (hi : exec i s = s.lanePure op f k fun j => { preds := predPair (f.d.toNat % 16) (p j), inner := ws j })
    (hws : ∀ j : Ins, j.Good → ∀ w ∈ ws j, w.wellFormed = true) (h : op.extra f = [] → ∀ l, p (s.operands op f l) = g l) :
    s.GivesPreds i op f g :=
  State.gives_lanewise hop (g := fun l => { preds := predPair (f.d.toNat % 16) (g l), inner := ws (s.operands op f l) }) 0 hi
    fun hx l _ _ hg => ⟨by rw [← h hx l], rfl, by simp [predPair], fun _ => hws _ hg⟩

end

end Sys2Proof.Machine
end

section
/-!
The add class and the carry chain (R163, R164).
-/

namespace Sys2Proof.Machine

/-! ## Typed forms and choices -/

section
variable {s : State} {i : Instr} {op : Op} {f : Fields} (hop : op ≠ .bitfn)
include hop

/-- A typed form writes its exact integer, wrapped or saturated (R158, R162). -/
theorem State.givesWord_typedInt (y : Exact → Exact → Exact → Exact) {v : Nat → Int} (sat : Bool) (hi : exec i s = typedInt op y f s)
    (hy : ∀ {a b c : Exact}, a.Ok → b.Ok → c.Ok → (y a b c).Ok) (hsat : op.extra f = [] → f.sat = sat)
    (hv : ∀ l, (y (exactOf f.ty (c0 (s.opA op f l))) (exactOf f.ty (c0 (s.opB op f l))) (exactOf f.ty (c0 (s.opC op f l)))).val = v l) :
    s.GivesWord i op f fun l => tyWrite f.ty sat (v l) :=
  State.givesWord_lanePure hop hi fun hx l hg => by
    rw [(hy (exactOf_ok hg.a0 f.ty) (exactOf_ok hg.b0 f.ty) (exactOf_ok hg.c0 f.ty)).typed, ← hsat hx, ← hv l]
    rfl

/-- A choice writes the integer of the word that it takes (R162). -/
theorem State.givesWord_chooseInt (pick : Nat → Ins → CWord) {v : Nat → Int} (hi : exec i s = chooseInt op pick f s)
    (hpick : ∀ j : Ins, j.Good → (pick f.ty j).wellFormed = true) (hv : ∀ l, tyExt f.ty (pick f.ty (s.operands op f l)).data = v l) :
    s.GivesWord i op f fun l => tyWrite f.ty false (v l) :=
  State.givesWord_lanePure hop hi fun _ l hg => by
    have good := hpick _ hg
    rw [← hv l]
    split
    next ht => rw [show tyWrite f.ty false _ = _ from tyWrap_tyExt ht _, ← CWord.eq_gen good]
    next => rw [extWord_eq good]; rfl

end

theorem minWord_wellFormed {t : Nat} {x y : CWord} (hx : x.wellFormed = true) (hy : y.wellFormed = true) :
    (minWord t x y).wellFormed = true := by
  unfold minWord
  split <;> assumption

theorem maxWord_wellFormed {t : Nat} {x y : CWord} (hx : x.wellFormed = true) (hy : y.wellFormed = true) :
    (maxWord t x y).wellFormed = true := by
  unfold maxWord
  split <;> assumption

@[simp] theorem tyExt_minWord (t : Nat) (x y : CWord) : tyExt t (minWord t x y).data = min (tyExt t x.data) (tyExt t y.data) := by
  unfold minWord
  split <;> omega

@[simp] theorem tyExt_maxWord (t : Nat) (x y : CWord) : tyExt t (maxWord t x y).data = max (tyExt t x.data) (tyExt t y.data) := by
  unfold maxWord
  split <;> omega

theorem avg_sat {f : Fields} (h : Op.avg.extra f = []) : f.sat = false := by
  simp only [Op.extra, failsIf_eq_nil, Bool.or_eq_false_iff] at h
  exact h.1.2

/-! ## The carry chain -/

/-- The carry in of a lane (R164). -/
def State.carryBit (s : State) (f : Fields) (l : Nat) : Nat := if f.cN % 16 = 15 then 0 else ((s.curWarp.lane l).pred (f.cN % 16)).toNat

/-- The predicates that a carry form writes: the carry out and its complement, or none (R164). -/
def carryPreds (f : Fields) (c : Bool) : List (Nat × Bool) :=
  if f.cN / 16 % 16 = 15 then [] else [(f.cN / 16 % 16, c), (f.cN / 16 % 16 + 1, !c)]

theorem carryPreds_nodup (f : Fields) (c : Bool) : ((carryPreds f c).map (·.1)).Nodup := by
  unfold carryPreds
  split <;> simp

/-- The carry in as the instruction reads it, from a good predicate. -/
theorem carryIn_eq {s : State} {f : Fields} {l : Nat}
    (h : f.cN % 16 ≠ 15 → (s.curWarp.lane l).predBad (f.cN % 16) = false) :
    ∃ ci : Bool, carryIn f (s.curWarp.lane l) = (ci, false) ∧ ci.toNat = s.carryBit f l := by
  unfold carryIn State.carryBit
  by_cases hn : f.cN % 16 = 15
  · exact ⟨false, if_pos hn, (if_pos hn).symm⟩
  · refine ⟨(s.curWarp.lane l).pred (f.cN % 16), (if_neg hn).trans ?_, (if_neg hn).symm⟩
    rw [h hn]

/-- A carry form completes with the result and the carry out of its row (R164). -/
theorem State.gives_carryInt {s : State} {i : Instr} {op : Op} {f : Fields} (g : CWord → CWord → Bool → CWord × Bool)
    {y : Nat → Word} {co : Nat → Bool} (hop : op ≠ .bitfn) (hi : exec i s = carryInt op g f s)
    (hp : ∀ l < 32, s.Runs f l → f.cN % 16 ≠ 15 → (s.curWarp.lane l).predBad (f.cN % 16) = false)
    (hg : ∀ l, (s.operands op f l).Good → ∀ ci : Bool, ci.toNat = s.carryBit f l →
      g (c0 (s.opA op f l)) (c0 (s.opB op f l)) ci = (.gen (y l), co l)) :
    s.Gives i op f fun l => { dst := [.gen (y l)], preds := carryPreds f (co l) } :=
  State.gives_lanewise hop 1 hi fun _ l hl hr good => by
    obtain ⟨ci, hci, hcarry⟩ := carryIn_eq (hp l hl hr)
    refine ⟨?_, rfl, carryPreds_nodup f _, fun _ w hw => ?_⟩
    · simp only [State.operands, hci, hg l good ci hcarry, Bool.false_eq_true, if_false]
      rfl
    · rw [List.mem_singleton.1 hw]
      exact CWord.gen_wellFormed _

/-- The result and the carry out of `ADDC` (R164). -/
def addCarry (a b : CWord) (ci : Bool) : CWord × Bool :=
  (⟨a.data + b.data + BitVec.ofNat 32 ci.toNat, predictAdd a b ci⟩, carryOut a.data b.data ci)

/-- The result and the borrow out of `SUBB` (R164). -/
def subBorrow (a b : CWord) (ci : Bool) : CWord × Bool :=
  (⟨a.data - b.data - BitVec.ofNat 32 ci.toNat, predictSub a b ci⟩, borrowOut a.data b.data ci)

section
variable {a b : CWord} (ha : a.wellFormed = true) (hb : b.wellFormed = true) {ci : Bool} {n : Nat} (hn : ci.toNat = n)
include ha hb hn

theorem addCarry_eq : addCarry a b ci =
    (.gen (BitVec.ofNat 32 (a.data.toNat + b.data.toNat + n)), decide (2 ^ 32 ≤ a.data.toNat + b.data.toNat + n)) := by
  subst hn
  rw [addCarry, predictAdd_eq ha hb, carryOut]
  congr 1
  rw [CWord.gen, BitVec.ofNat_add, BitVec.ofNat_add, BitVec.ofNat_toNat, BitVec.ofNat_toNat, BitVec.setWidth_eq, BitVec.setWidth_eq]

theorem subBorrow_eq : subBorrow a b ci = (.gen (BitVec.ofInt 32 (a.data.toNat - b.data.toNat - (n : Nat))),
    decide ((a.data.toNat : Int) - b.data.toNat - (n : Nat) < 0)) := by
  subst hn
  have word : a.data - b.data - BitVec.ofNat 32 ci.toNat = BitVec.ofInt 32 (a.data.toNat - b.data.toNat - (ci.toNat : Nat)) := by
    apply BitVec.eq_of_toNat_eq
    have hi := ofInt_toNat (a.data.toNat - b.data.toNat - (ci.toNat : Nat))
    have hci := Bool.toNat_le ci
    rw [BitVec.toNat_sub, BitVec.toNat_sub, BitVec.toNat_ofNat]
    omega
  rw [subBorrow, predictSub_eq ha hb, word, borrowOut]
  exact congrArg (Prod.mk _) (decide_eq_decide.2 (by omega))

end

/-- Settles O3: the typed forms and the choices write the integer of their row; a carry form its sum or difference and what goes out of
32 bits. -/
theorem additionForms : Obligations.AdditionForms := by
  unfold Obligations.AdditionForms
  refine ⟨fun s f => ⟨?_, ?_, ?_, ?_, ?_, ?_, ?_, ?_, ?_⟩, fun s f hp => ⟨?_, ?_⟩⟩
  · exact State.givesWord_typedInt (by decide) (fun a b _ => a.add b) f.sat rfl (fun ha hb _ => ha.add hb) (fun _ => rfl) fun _ => rfl
  · exact State.givesWord_typedInt (by decide) (fun a b _ => a.sub b) f.sat rfl (fun ha hb _ => ha.sub hb) (fun _ => rfl) fun _ => rfl
  · exact State.givesWord_typedInt (by decide) (fun a _ _ => a.neg) f.sat rfl (fun ha _ _ => ha.neg) (fun _ => rfl) fun _ => rfl
  · exact State.givesWord_typedInt (by decide) (fun a _ _ => a.abs) f.sat rfl (fun ha _ _ => ha.abs) (fun _ => rfl)
      fun _ => Exact.abs_val _
  · exact State.givesWord_chooseInt (by decide) (fun t i => minWord t (c0 i.a) (c0 i.b)) rfl
      (fun _ h => minWord_wellFormed h.a0 h.b0) fun _ => tyExt_minWord ..
  · exact State.givesWord_chooseInt (by decide) (fun t i => maxWord t (c0 i.a) (c0 i.b)) rfl
      (fun _ h => maxWord_wellFormed h.a0 h.b0) fun _ => tyExt_maxWord ..
  · refine State.givesWord_chooseInt (by decide) (fun t i => minWord t (maxWord t (c0 i.a) (c0 i.b)) (c0 i.c)) rfl
      (fun _ h => minWord_wellFormed (maxWord_wellFormed h.a0 h.b0) h.c0) fun _ => ?_
    rw [tyExt_minWord, tyExt_maxWord]
    rfl
  · exact State.givesWord_typedInt (by decide) (fun a b _ => ((a.add b).add (.const (if f.opm4 then 0 else 1))).half) false rfl
      (fun ha hb _ => ((ha.add hb).add (Exact.ok_const _)).half) avg_sat fun _ => rfl
  · refine State.givesWord_typedInt (by decide) (fun a b c => (a.sub b).abs.add c) f.sat rfl
      (fun ha hb hc => (ha.sub hb).abs.add hc) (fun _ => rfl) fun _ => ?_
    rw [Exact.add_val, Exact.abs_val]
    rfl
  · exact State.gives_carryInt addCarry (by decide) rfl hp fun l h ci hci => addCarry_eq h.a0 h.b0 hci
  · exact State.gives_carryInt subBorrow (by decide) rfl hp fun l h ci hci => subBorrow_eq h.a0 h.b0 hci

end Sys2Proof.Machine
end

section
/-!
The multiply, pair and scaled-address forms (R165, R168, R169).
-/

namespace Sys2Proof.Machine

/-! ## What decoding leaves -/

/-- With OPM[5:3] zero there is no `.SAT` (R127). -/
theorem Fields.sat_of_opm {f : Fields} (h : f.opm.toNat / 8 = 0) : f.sat = false := by
  rw [Fields.sat_eq]
  exact Nat.testBit_lt_two_pow (by omega)

theorem idp4_ty {f : Fields} (h : Op.idp4.extra f = []) : f.ty = 4 ∨ f.ty = 5 := by
  simp only [Op.extra, failsIf_eq_nil, Bool.or_eq_false_iff, Bool.and_eq_false_iff, bne_eq_false_iff_eq] at h
  exact h.1.1

theorem mul64_sat {f : Fields} (h : Op.mul64.extra f = []) : f.sat = false := by
  simp only [Op.extra, failsIf_eq_nil, Bool.or_eq_false_iff] at h
  exact Fields.sat_of_opm (by simpa using h.1.2)

/-! ## Products in full (R165, R166) -/

theorem lowPair_eq {e : Exact} (h : e.Ok) : lowPair e = ofPair (BitVec.ofInt 64 e.val) := by
  rw [lowPair, h.word (by decide), h.word (by decide), ofPair_eq, ofInt64_lo, ofInt64_hi]

theorem highWord_word {e : Exact} (h : e.Ok) : e.word 2 1 = .gen (BitVec.ofInt 32 (e.val / 2 ^ 32)) := h.word (by decide)

/-- B of a full-width multiply as an integer (R165). -/
def State.mulB (s : State) (op : Op) (f : Fields) (l : Nat) : Int := if f.opm4 then (s.wB op f l).toNat else s.iB op f l

/-- Under TYPE 1 a word is its own integer. -/
theorem tyExt_one (x : Word) : tyExt 1 x = x.toNat := congrArg Nat.cast (Nat.mod_eq_of_lt x.isLt)

/-- Under TYPE 0 a word is its signed integer. -/
theorem tyExt_zero (x : Word) : tyExt 0 x = x.toInt := by
  rw [← tyExt_ofInt (t := 0) (y := x.toInt) ⟨x.le_toInt, Int.le_sub_one_of_lt x.toInt_lt⟩, BitVec.ofInt_toInt]

theorem mulB_val (s : State) (op : Op) (f : Fields) (l : Nat) : (Machine.mulB f (c0 (s.opB op f l))).val = s.mulB op f l := by
  unfold Machine.mulB State.mulB
  split
  · exact tyExt_one _
  · rfl

/-- The exact integer of a full-width multiply with its addend (R165, R166). -/
theorem State.product_add {s : State} {op : Op} {f : Fields} {l : Nat} (h : (s.operands op f l).Good) {c : Exact} (hc : c.Ok) :
    let e := ((mulA f (c0 (s.opA op f l))).mul (Machine.mulB f (c0 (s.opB op f l)))).add c
    e.Ok ∧ e.val = s.iA op f l * s.mulB op f l + c.val :=
  ⟨((exactOf_ok h.a0 _).mul (exactOf_ok h.b0 _)).add hc, by rw [Exact.add_val, Exact.mul_val, mulB_val]; rfl⟩

section
variable {s : State} {i : Instr} {op : Op} {f : Fields} (hop : op ≠ .bitfn)
include hop

/-- A multiply that writes the high word of its exact integer (R165). -/
theorem State.givesWord_productInt (c : Fields → List CWord → Exact) {v : Nat → Int} (hi : exec i s = productInt op highWord c f s)
    (hc : ∀ l, (s.operands op f l).Good → (c f (s.opC op f l)).Ok)
    (hv : ∀ l, s.iA op f l * s.mulB op f l + (c f (s.opC op f l)).val = v l) :
    s.GivesWord i op f fun l => BitVec.ofInt 32 (v l / 2 ^ 32) :=
  State.givesWord_lanePure hop hi fun _ l hg => by
    obtain ⟨ok, val⟩ := State.product_add hg (hc l hg)
    rw [← hv, ← val]
    exact highWord_word ok

/-- A multiply that writes the low pair of its exact integer (R165). -/
theorem State.givesPair_productInt (c : Fields → List CWord → Exact) {v : Nat → BitVec 64} (hi : exec i s = productInt op lowPair c f s)
    (hc : ∀ l, (s.operands op f l).Good → (c f (s.opC op f l)).Ok)
    (hv : ∀ l, BitVec.ofInt 64 (s.iA op f l * s.mulB op f l + (c f (s.opC op f l)).val) = v l) : s.GivesPair i op f v :=
  State.givesPair_lanePure hop hi fun _ l hg => by
    obtain ⟨ok, val⟩ := State.product_add hg (hc l hg)
    rw [← hv, ← val, ← lowPair_eq ok]
    rfl

end

/-! ## `IDP4` (R165) -/

/-- A byte of a word as an integer. -/
def byteInt (signed : Bool) (x : Word) (k : Nat) : Int :=
  if signed then (x.extractLsb' (8 * k) 8).toInt else (x.extractLsb' (8 * k) 8).toNat

/-- The sum of `IDP4` as an integer. -/
theorem idp4Sum_val (f : Fields) (a b c : CWord) :
    let A := byteInt (tySigned f.ty) a.data
    let B := byteInt (tySigned f.ty && !f.opm4) b.data
    (idp4Sum f a b c).val = tyExt (if tySigned f.ty then 0 else 1) c.data + A 0 * B 0 + A 1 * B 1 + A 2 * B 2 + A 3 * B 3 := by
  simp only [idp4Sum, List.range_succ, List.range_zero, List.nil_append, List.foldl_append, List.foldl_cons, List.foldl_nil,
    Exact.add_val, Exact.mul_val, byteExact_val, exactOf_val, byteInt]

/-- The word that `IDP4` writes under `.I8` (TYPE 4) and `.U8` (TYPE 5). -/
theorem idp4_word {f : Fields} (hf : f.ty = 4 ∨ f.ty = 5) (a b : CWord) {c : CWord} (hc : c.wellFormed = true) :
    let C : Int := if f.ty = 4 then c.data.toInt else c.data.toNat
    let A := byteInt (decide (f.ty = 4)) a.data
    let B := byteInt (decide (f.ty = 4 ∧ f.opm4 = false)) b.data
    (idp4Sum f a b c).typed (if tySigned f.ty then 0 else 1) f.sat =
      .gen (tyWrite (if f.ty = 4 then 0 else 1) f.sat (C + A 0 * B 0 + A 1 * B 1 + A 2 * B 2 + A 3 * B 3)) := by
  intro C A B
  have hs : tySigned f.ty = decide (f.ty = 4) := by rcases hf with h | h <;> rw [h] <;> rfl
  have hC : tyExt (if f.ty = 4 then 0 else 1) c.data = C := by
    unfold C
    split
    · exact tyExt_zero _
    · exact tyExt_one _
  have hB : (decide (f.ty = 4) && !f.opm4) = decide (f.ty = 4 ∧ f.opm4 = false) := by cases f.opm4 <;> simp
  rw [(idp4Sum_ok f a.data b.data hc a.tag b.tag).typed, idp4Sum_val, hs, hB]
  simp only [decide_eq_true_eq]
  rw [hC]

/-! ## Pairs (R168) -/

theorem pairOf_eq (ws : List CWord) : pairOf ws = (c1 ws).data ++ (c0 ws).data := by
  rcases ws with _ | ⟨a, _ | ⟨b, ws⟩⟩ <;> rfl

section
variable {t : Nat} (ht : t ≤ 1)
include ht

/-- A pair as the integer of TYPE 0 or 1 (R168). -/
theorem ext64_ty (v : BitVec 64) : ext64 (tySigned t) v = if t = 0 then v.toInt else v.toNat := by
  interval_cases t <;> rfl

/-- An integer written to a pair of TYPE 0 or 1 (R168). -/
theorem write64_ty (sat : Bool) (y : Int) : write64 (tySigned t) sat y =
    BitVec.ofInt 64 (if sat then if t = 0 then max (-2 ^ 63) (min y (2 ^ 63 - 1)) else max 0 (min y (2 ^ 64 - 1)) else y) := by
  have clamp {lo hi : Int} (h : lo ≤ hi) : clampInt lo hi y = max lo (min y hi) := by
    unfold clampInt
    split
    · omega
    · split <;> omega
  rw [write64, clamp (by decide), clamp (by decide)]
  interval_cases t <;> rfl

end

theorem write64_wrap (signed : Bool) (y : Int) : write64 signed false y = BitVec.ofInt 64 y := rfl

theorem ofInt64_mul (signed : Bool) (a b : BitVec 64) : BitVec.ofInt 64 (ext64 signed a * ext64 signed b) = a * b := by
  apply mod64_eq
  rw [BitVec.toNat_mul]
  push_cast
  rw [Int.emod_emod]
  exact Int.ModEq.mul (ext64_mod signed a) (ext64_mod signed b)

/-- A pair form writes its integer, clamped with `.SAT`, where its predictor path forms the residues of the integer's words. -/
theorem State.givesPair_pairInt {s : State} {i : Instr} {op : Op} {f : Fields} (hop : op ≠ .bitfn) (y : Int → Int → Int)
    (p : Bool → CWord × CWord → CWord × CWord → CWord × CWord) {g : Nat → BitVec 64} (hi : exec i s = pairInt op y p f s)
    (hp : ∀ j : Ins, j.Good → ∀ sg, pairWith (BitVec.ofInt 64 (y (ext64 sg (pairOf j.a)) (ext64 sg (pairOf j.b)))) (p sg (c01 j.a) (c01 j.b)) =
      ofPair (BitVec.ofInt 64 (y (ext64 sg (pairOf j.a)) (ext64 sg (pairOf j.b)))))
    (hg : op.extra f = [] → ∀ l,
      write64 (tySigned f.ty) f.sat (y (ext64 (tySigned f.ty) (s.pA op f l)) (ext64 (tySigned f.ty) (s.pB op f l))) = g l) :
    s.GivesPair i op f g :=
  State.givesPair_lanePure hop hi fun hx l good => by
    rw [← hg hx l]
    exact pairInt_dst (hp _ good _)

theorem pair_ty {op : Op} {f : Fields} (hop : op = .add64 ∨ op = .sub64 ∨ op = .neg64) (h : op.extra f = []) : f.ty ≤ 1 := by
  rcases hop with rfl | rfl | rfl <;> simp only [Op.extra, failsIf_eq_nil, Bool.or_eq_false_iff, decide_eq_false_iff_not] at h <;> omega

/-! ## Scaled addresses (R169) -/

theorem shl_eq_ofNat {w : Nat} (x : BitVec w) (n : Nat) : x <<< n = BitVec.ofNat w (x.toNat * 2 ^ n) := by
  apply BitVec.eq_of_toNat_eq
  rw [BitVec.toNat_shiftLeft, BitVec.toNat_ofNat, Nat.shiftLeft_eq]

/-- `LEA` (R169): the shift row, then the add row. -/
theorem lea_word {a b : CWord} (ha : a.wellFormed = true) (hb : b.wellFormed = true) (n : Nat) :
    addWord a (shlWord b n) = .gen (BitVec.ofNat 32 (a.data.toNat + b.data.toNat * 2 ^ n)) := by
  have self : BitVec.ofNat 32 a.data.toNat = a.data := BitVec.ofNat_toNat 32 a.data
  rw [shlWord_eq hb, addWord_eq ha (CWord.gen_wellFormed _), CWord.gen_data, shl_eq_ofNat, BitVec.ofNat_add, self]

/-- B of `LEA64` extended to a pair. -/
theorem extend_eq_append (b : Word) (ux : Bool) :
    ((if !ux && b.msb then 0xFFFFFFFF else 0 : Word) ++ b : BitVec 64) = if ux then b.zeroExtend 64 else b.signExtend 64 := by
  cases ux with
  | true => exact (BitVec.setWidth_eq_append (by decide)).symm
  | false => exact (BitVec.signExtend_eq_append_of_le (by decide)).symm

/-- The scaled index as an integer (R169). -/
theorem scaledIndex_eq (ux : Bool) (b : Word) (n : Nat) :
    scaledIndex ux b n = BitVec.ofInt 64 ((if ux then (b.toNat : Int) else b.toInt) * 2 ^ n) := by
  have scale (x : BitVec 64) : x <<< n = x * BitVec.ofInt 64 (2 ^ n) := by
    rw [BitVec.shiftLeft_eq_mul_twoPow]
    congr 1
    exact BitVec.eq_of_toNat_eq (by rw [BitVec.toNat_twoPow, show (2 : Int) ^ n = ((2 ^ n : Nat) : Int) by simp, BitVec.ofInt_natCast,
      BitVec.toNat_ofNat])
  have extend : (if ux then b.zeroExtend 64 else b.signExtend 64 : BitVec 64) =
      BitVec.ofInt 64 (if ux then (b.toNat : Int) else b.toInt) := by
    cases ux with
    | true => exact (BitVec.ofNat_toNat 64 b).symm.trans (BitVec.ofInt_natCast 64 b.toNat).symm
    | false => rfl
  rw [scaledIndex, scale, BitVec.ofInt_mul, extend]

theorem halves_append (v : BitVec 64) : v.extractLsb' 32 32 ++ v.extractLsb' 0 32 = v :=
  (BitVec.extractLsb'_append_extractLsb'_eq_extractLsb' rfl).trans BitVec.extractLsb'_eq_self

/-- `LEA64` (R169): the shift row for the extended index, then the add row of a pair. -/
theorem lea64_words {a b : List CWord} (ha0 : (c0 a).wellFormed = true) (ha1 : (c1 a).wellFormed = true)
    (hb : (c0 b).wellFormed = true) (ux : Bool) (n : Nat) :
    pairWith (pairOf a + scaledIndex ux (w0 b) n)
        (chainWords .add (c01 a) (shlPair (c0 b) (.gen (if !ux && (w0 b).msb then 0xFFFFFFFF else 0)) n)) =
      ofPair (BitVec.ofInt 64 ((pairOf a).toNat + (if ux then ((w0 b).toNat : Int) else (w0 b).toInt) * 2 ^ n)) := by
  have sum : pairOf a + scaledIndex ux (w0 b) n = (c1 a).data ++ (c0 a).data + scaledIndex ux (w0 b) n := by rw [pairOf_eq]
  have self : BitVec.ofNat 64 (pairOf a).toNat = pairOf a := BitVec.ofNat_toNat 64 (pairOf a)
  rw [BitVec.ofInt_add, BitVec.ofInt_natCast, self, ← scaledIndex_eq, shlPair_gen hb (CWord.gen_wellFormed _)]
  refine chainWords_add ha0 ha1 (CWord.gen_wellFormed _) (CWord.gen_wellFormed _) _ (sum.trans ?_)
  simp only [CWord.gen_data]
  rw [halves_append, show (c0 b).data = w0 b from rfl, extend_eq_append]
  rfl

/-- Settles O4: the product forms write parts of the exact integer (`State.product_add`), the pair forms their integer clamped with
`.SAT`, the scaled additions the sum with the shifted index. -/
theorem multiplyForms : Obligations.MultiplyForms := by
  unfold Obligations.MultiplyForms
  refine ⟨fun s f => ⟨?_, ?_, ?_, ?_, ?_, ?_, ?_⟩, fun s f => ⟨?_, ?_, ?_, ?_, ?_, ?_⟩⟩
  · exact State.givesWord_typedInt (by decide) (fun a b _ => a.mul b) f.sat rfl (fun ha hb _ => ha.mul hb) (fun _ => rfl) fun _ => rfl
  · exact State.givesWord_productInt (by decide) noAddend rfl (fun _ _ => Exact.ok_const 0) fun _ => add_zero _
  · exact State.givesWord_typedInt (by decide) (fun a b c => (a.mul b).add c) f.sat rfl (fun ha hb hc => (ha.mul hb).add hc)
      (fun _ => rfl) fun _ => rfl
  · exact State.givesWord_productInt (by decide) (fun f c => exactOf f.ty (c0 c)) rfl (fun _ h => exactOf_ok h.c0 _) fun _ => rfl
  · exact State.givesPair_productInt (by decide) noAddend rfl (fun _ _ => Exact.ok_const 0) fun _ => congrArg _ (add_zero _)
  · refine State.givesPair_productInt (by decide) (fun _ c => exactPair false (c0 c) (c1 c)) rfl (fun _ h => exactPair_ok h.c0 h.c1 _)
      fun l => ?_
    rw [BitVec.ofInt_add, exactPair_val, ← pairOf_eq]
    exact congrArg _ ((BitVec.ofInt_natCast 64 _).trans (BitVec.ofNat_toNat _ _))
  · refine State.givesWord_lanePure (by decide) (show _ = execIdp4 f s from rfl) fun hx l h => ?_
    refine (idp4_word (idp4_ty hx) _ _ h.c0).trans ?_
    simp only [byteInt, decide_eq_true_eq]
    rfl
  · refine State.givesPair_pairInt (by decide) (fun a b => a + b) (fun _ => chainWords .add) rfl (fun j h sg => ?_) fun hx l => ?_
    · rw [ofInt64_add]
      exact chainWords_add h.a0 h.a1 h.b0 h.b1 _ (by rw [pairOf_eq, pairOf_eq]; rfl)
    · have ht := pair_ty (.inl rfl) hx
      rw [write64_ty ht, ext64_ty ht, ext64_ty ht]
  · refine State.givesPair_pairInt (by decide) (fun a b => a - b) (fun _ => chainWords .sub) rfl (fun j h sg => ?_) fun hx l => ?_
    · rw [ofInt64_sub]
      exact chainWords_sub h.a0 h.a1 h.b0 h.b1 _ (by rw [pairOf_eq, pairOf_eq]; rfl)
    · have ht := pair_ty (.inr (.inl rfl)) hx
      rw [write64_ty ht, ext64_ty ht, ext64_ty ht]
  · refine State.givesPair_pairInt (by decide) (fun a _ => -a) (fun _ a _ => chainWords .sub (.zero, .zero) a) rfl (fun j h sg => ?_)
      fun hx l => ?_
    · rw [ofInt64_neg]
      exact chainWords_sub (by decide) (by decide) h.a0 h.a1 _ (by rw [pairOf_eq]; rfl)
    · have ht := pair_ty (.inr (.inr rfl)) hx
      rw [write64_ty ht, ext64_ty ht]
  · refine State.givesPair_pairInt (by decide) (fun a b => a * b) productWords rfl (fun j h sg => ?_) fun hx l => ?_
    · rw [pairOf_eq, pairOf_eq]
      exact productWords_eq (a := c01 j.a) (b := c01 j.b) h.a0 h.a1 h.b0 h.b1 sg
    · rw [mul64_sat hx, write64_wrap, ofInt64_mul]
  · exact State.givesWord_lanePure (by decide) (show _ = execLea f s from rfl) fun _ l h =>
      lea_word h.a0 h.b0 _
  · exact State.givesPair_lanePure (by decide) (show _ = execLea64 f s from rfl) fun _ l h =>
      lea64_words h.a0 h.a1 h.b0 _ _

end Sys2Proof.Machine
end

section
/-!
Logic, shifts, bit fields and bit counts (R170–R174): each result bit by bit, or as the integer that its rule names.
-/

namespace Sys2Proof.Machine

/-! ## `BITFN` (R171) -/

/-- A bit of a union over a list. -/
theorem getLsbD_foldl_or (p : Nat → Bool) (m : Nat → Word) (rs : List Nat) (acc : Word) (k : Nat) :
    (rs.foldl (fun acc r => if p r then acc ||| m r else acc) acc).getLsbD k =
      (acc.getLsbD k || rs.any fun r => p r && (m r).getLsbD k) := by
  induction rs generalizing acc with
  | nil => simp
  | cons r rs ih =>
    rw [List.foldl_cons, ih, List.any_cons]
    cases p r <;> simp [Bool.or_assoc]

/-- A union over a range in which one number qualifies. -/
theorem any_range_eq {p q : Nat → Bool} {n m : Nat} (h : n < m) (hq : ∀ r < m, q r = decide (r = n)) :
    ((List.range m).any fun r => p r && q r) = p n := by
  rw [Bool.eq_iff_iff, List.any_eq_true]
  simp only [List.mem_range, Bool.and_eq_true]
  refine ⟨fun ⟨r, hr, hp, e⟩ => ?_, fun hp => ⟨n, h, hp, by rw [hq n h, decide_eq_true rfl]⟩⟩
  rw [hq r hr, decide_eq_true_eq] at e
  exact e ▸ hp

/-- The row of a truth table that three bits select. -/
def tableRow (x y z : Bool) : Nat := x.toNat + 2 * y.toNat + 4 * z.toNat

theorem tableRow_lt (x y z : Bool) : tableRow x y z < 8 := by
  cases x <;> cases y <;> cases z <;> decide

theorem eq_tableRow {r : Nat} (hr : r < 8) (x y z : Bool) :
    (r.testBit 0 == x && r.testBit 1 == y && r.testBit 2 == z) = decide (r = tableRow x y z) := by
  revert r x y z
  decide

/-- Each bit of `BITFN` is looked up in its table. -/
theorem getLsbD_bitfnWord (tbl : BitVec 8) (a b c : Word) {k : Nat} (hk : k < 32) : (bitfnWord tbl a b c).getLsbD k =
    tbl.getLsbD (tableRow (a.getLsbD k) (b.getLsbD k) (c.getLsbD k)) := by
  have side (x : Word) (v : Bool) : (if v then x else ~~~x).getLsbD k = (v == x.getLsbD k) := by
    cases v <;> simp [hk]
  have zero : (0 : Word).getLsbD k = false := BitVec.getLsbD_zero
  rw [bitfnWord, getLsbD_foldl_or, zero, Bool.false_or]
  refine any_range_eq (tableRow_lt _ _ _) fun r hr => ?_
  rw [BitVec.getLsbD_and, BitVec.getLsbD_and, side, side, side, eq_tableRow hr]

/-- `BITFN` reads a vector register by C9[6:0] (R171). -/
theorem State.givesWord_bitfn (s : State) (f : Fields) : s.GivesWord (.bitfn f) .bitfn f fun l =>
    bitfnWord (bitfnTable f) (s.wA .bitfn f l) (s.wB .bitfn f l) ((s.curWarp.lane l).reg (f.cN % 128)).data := by
  intro hc hg
  have run : exec (.bitfn f) s = s.lanewiseOn .bitfn f .p (fun s t => sources .bitfn f s.curWarp t false) fun i =>
      .ok { dst := [duplicated (bitfnWord (bitfnTable f)) (c0 i.a) (c0 i.b) (c0 i.c)] } := rfl
  rw [run]
  refine State.lanewiseOn_next (n := 1) hc hg (fun _ _ _ => rfl) (fun _ _ _ => rfl) (fun _ _ _ => List.nodup_nil) fun _ _ _ _ w hw => ?_
  rw [List.mem_singleton.1 hw]
  exact CWord.gen_wellFormed _

/-! ## Shifts (R172) -/

section
variable {w : Nat} (x : BitVec w) (n : Nat)

theorem shl_cases : x <<< n = if n < w then BitVec.ofNat w (x.toNat * 2 ^ n) else 0 := by
  split
  · exact shl_eq_ofNat x n
  · exact BitVec.shiftLeft_eq_zero (by omega)

theorem shr_cases : x >>> n = if n < w then BitVec.ofNat w (x.toNat / 2 ^ n) else 0 := by
  apply BitVec.eq_of_toNat_eq
  rw [BitVec.toNat_ushiftRight, Nat.shiftRight_eq_div_pow]
  split
  · rw [BitVec.toNat_ofNat, Nat.mod_eq_of_lt ((Nat.div_le_self _ _).trans_lt x.isLt)]
  · exact Nat.div_eq_of_lt (x.isLt.trans_le (Nat.pow_le_pow_right (by decide) (by omega)))

theorem sar_cases : x.sshiftRight n =
    if n < w then BitVec.ofInt w (x.toInt / 2 ^ n) else if x.msb then BitVec.allOnes w else 0 := by
  split
  · rw [← BitVec.ofInt_toInt (x := x.sshiftRight n), BitVec.toInt_sshiftRight, Int.shiftRight_eq_div_pow]
    simp
  · refine BitVec.eq_of_getLsbD_eq fun i hi => ?_
    rw [BitVec.getLsbD_sshiftRight, if_neg (by omega)]
    cases x.msb <;> simp [hi]

end

/-- The shift right of a TYPE: arithmetic for `.I32` (R172). -/
theorem shrBy_cases {w : Nat} (signed : Prop) [Decidable signed] (x : BitVec w) (n : Nat) :
    (if decide signed then x.sshiftRight n else x >>> n) =
      if signed then if n < w then BitVec.ofInt w (x.toInt / 2 ^ n) else if x.msb then BitVec.allOnes w else 0
      else if n < w then BitVec.ofNat w (x.toNat / 2 ^ n) else 0 := by
  simp only [decide_eq_true_eq]
  rw [sar_cases, shr_cases]

/-! ## Bit fields (R173) -/

theorem getLsbD_ones {n : Nat} (hn : n ≤ 32) (k : Nat) : (ones n).getLsbD k = decide (k < n) := by
  rw [ones, BitVec.getLsbD_ofNat, Nat.testBit_two_pow_sub_one]
  simp only [Bool.and_eq_right_iff_imp, decide_eq_true_eq]
  omega

/-- The position of a field (R173). -/
def fieldPos (b : Word) : Nat := b.toNat % 256
/-- The length that a field names (R173). -/
def fieldLen (b : Word) : Nat := b.toNat / 256 % 256

theorem fieldSpan_eq (b : Word) : fieldSpan b =
    if 32 ≤ fieldPos b ∨ fieldLen b = 0 then none else some (fieldPos b, min (fieldLen b) (32 - fieldPos b)) := rfl

theorem getLsbD_bfxWord (signed : Bool) (a b : Word) {k : Nat} (hk : k < 32) : (bfxWord signed a b).getLsbD k =
    if 32 ≤ fieldPos b ∨ fieldLen b = 0 then false
    else if k < min (fieldLen b) (32 - fieldPos b) then a.getLsbD (fieldPos b + k)
    else signed && a.getLsbD (fieldPos b + min (fieldLen b) (32 - fieldPos b) - 1) := by
  rw [bfxWord, fieldSpan_eq]
  by_cases he : 32 ≤ fieldPos b ∨ fieldLen b = 0
  · rw [if_pos he, if_pos he]
    exact BitVec.getLsbD_zero
  · rw [if_neg he, if_neg he]
    generalize hn : min (fieldLen b) (32 - fieldPos b) = n
    have bit (j : Nat) : ((a >>> fieldPos b) &&& ones n).getLsbD j = (a.getLsbD (fieldPos b + j) && decide (j < n)) := by
      rw [BitVec.getLsbD_and, BitVec.getLsbD_ushiftRight, getLsbD_ones (by omega)]
    have top : ((a >>> fieldPos b) &&& ones n).getLsbD (n - 1) = a.getLsbD (fieldPos b + n - 1) := by
      rw [bit, decide_eq_true (by omega), Bool.and_true, Nat.add_sub_assoc (by omega)]
    dsimp only
    rw [top]
    cases signed && a.getLsbD (fieldPos b + n - 1) with
    | true =>
      rw [if_pos rfl, BitVec.getLsbD_or, bit, BitVec.getLsbD_not, getLsbD_ones (by omega)]
      by_cases h : k < n <;> simp [h, hk]
    | false =>
      rw [if_neg Bool.false_ne_true, bit]
      by_cases h : k < n <;> simp [h]

/-- `BFI` (R173): C with A's low bits in the place of the field. -/
theorem getLsbD_bfiWord (a b c : Word) {k : Nat} (hk : k < 32) : (bfiWord a b c).getLsbD k =
    if (32 ≤ fieldPos b ∨ fieldLen b = 0) ∨ k < fieldPos b ∨ fieldPos b + min (fieldLen b) (32 - fieldPos b) ≤ k then c.getLsbD k
    else a.getLsbD (k - fieldPos b) := by
  rw [bfiWord, fieldSpan_eq]
  by_cases he : 32 ≤ fieldPos b ∨ fieldLen b = 0
  · rw [if_pos he, if_pos (.inl he)]
  · rw [if_neg he]
    generalize hn : min (fieldLen b) (32 - fieldPos b) = n
    dsimp only
    simp only [he, false_or, BitVec.getLsbD_or, BitVec.getLsbD_and, BitVec.getLsbD_not, BitVec.getLsbD_shiftLeft,
      getLsbD_ones (show n ≤ 32 by omega), hk]
    rcases lt_or_ge k (fieldPos b) with h | h
    · simp [h]
    · by_cases h' : k < fieldPos b + n
      · simp [show ¬ k < fieldPos b by omega, show ¬ fieldPos b + n ≤ k by omega, show k - fieldPos b < n by omega]
      · simp [show ¬ k < fieldPos b by omega, show fieldPos b + n ≤ k by omega, show ¬ k - fieldPos b < n by omega]

/-! ## Bit counts (R174) -/

theorem popWord_eq (a : Word) : popWord a = BitVec.ofNat 32 ((Finset.range 32).filter fun k => a.getLsbD k = true).card := by
  simp [popWord, Finset.card, Finset.filter, Finset.range, Multiset.range]

/-- The zeros above the highest 1 bit, which `Nat.log2` finds (R174). -/
theorem clzWord_eq (a : Word) : clzWord a = BitVec.ofNat 32 (if a = 0 then 32 else 31 - Nat.log2 a.toNat) := by
  rw [clzWord]
  congr 1
  split
  next h =>
    subst h
    decide
  next h =>
    have hn : a.toNat ≠ 0 := fun e => h (BitVec.eq_of_toNat_eq e)
    have hlog : Nat.log2 a.toNat < 32 := (Nat.log2_lt hn).2 a.isLt
    have found : (List.range 32).find? (fun i => a.getLsbD (31 - i)) = some (31 - Nat.log2 a.toNat) := by
      refine List.find?_range_eq_some.2 ⟨?_, List.mem_range.2 (by omega), fun j hj => ?_⟩
      · rw [show 31 - (31 - Nat.log2 a.toNat) = Nat.log2 a.toNat by omega]
        exact Nat.testBit_log2 hn
      · rw [Bool.not_eq_true']
        exact Nat.testBit_lt_two_pow ((Nat.log2_lt hn).1 (by omega))
    rw [found, Option.getD_some]

theorem getLsbD_brevWord (a : Word) {k : Nat} (hk : k < 32) : (brevWord a).getLsbD k = a.getLsbD (31 - k) := by
  refine (getLsbD_maskFold (fun i => a.getLsbD (31 - i)) 32 k 0 le_rfl hk).trans ?_
  simp [hk]

/-! ## The forms -/

/-- A form of one word writes it where its rows give it its own residue (R108). -/
theorem State.givesWord_wordOp {s : State} {i : Instr} {op : Op} {f : Fields} (hop : op ≠ .bitfn) {g : CWord → CWord → CWord → CWord}
    {v : Nat → Word} (hi : exec i s = wordOp op g f s)
    (h : ∀ l, (s.operands op f l).Good → g (c0 (s.opA op f l)) (c0 (s.opB op f l)) (c0 (s.opC op f l)) = .gen (v l)) :
    s.GivesWord i op f v :=
  State.givesWord_lanePure hop hi fun _ => h

theorem rolWord_eq {a : CWord} (ha : a.wellFormed = true) (n : Nat) :
    (⟨a.data.rotateLeft (n % 32), predictRol a (n % 32)⟩ : CWord) = .gen (a.data.rotateLeft (n % 32)) := by
  rw [predictRol_eq ha (Nat.mod_lt _ (by decide))]
  rfl

/-- `SHL64` (R172). -/
theorem shl64_words {a : List CWord} (ha0 : (c0 a).wellFormed = true) (ha1 : (c1 a).wellFormed = true) (n : Nat) :
    pairWith (pairOf a <<< n) (shlPair (c0 a) (c1 a) n) =
      ofPair (if n < 64 then BitVec.ofNat 64 ((pairOf a).toNat * 2 ^ n) else 0) := by
  rw [← shl_cases, pairOf_eq]
  exact shlPair_eq ha0 ha1 n

/-- `SHR64` (R172). -/
theorem shr64_words (signed : Prop) [Decidable signed] {a : List CWord} (ha0 : (c0 a).wellFormed = true)
    (ha1 : (c1 a).wellFormed = true) (n : Nat) :
    pairWith (if signed then (pairOf a).sshiftRight n else pairOf a >>> n) (shrPair (decide signed) (c0 a) (c1 a) n) =
      ofPair (if signed then if n < 64 then BitVec.ofInt 64 ((pairOf a).toInt / 2 ^ n) else if (pairOf a).msb then BitVec.allOnes 64 else 0
        else if n < 64 then BitVec.ofNat 64 ((pairOf a).toNat / 2 ^ n) else 0) := by
  rw [← shrBy_cases signed, pairOf_eq, ← shrPair_eq ha0 ha1 (decide signed) n]
  simp only [decide_eq_true_eq]

/-- Settles O5: each form writes the word of its row with the residue of that word, and each word is read bit by bit or as an integer. -/
theorem logicShiftsFields : Obligations.LogicShiftsFields := by
  unfold Obligations.LogicShiftsFields
  refine ⟨fun s f => ⟨?_, ?_, ?_, ?_, ?_, ?_⟩, fun s f => ⟨?_, ?_, ?_, ?_, ?_⟩, fun s f => ⟨?_, ?_, ?_, ?_, ?_⟩⟩
  · exact State.givesWord_wordOp (by decide) (show _ = bitAnd f s from rfl) fun _ _ => rfl
  · exact State.givesWord_wordOp (by decide) (show _ = bitOr f s from rfl) fun _ h => orWord_eq h.a0 h.b0
  · exact State.givesWord_wordOp (by decide) (show _ = bitXor f s from rfl) fun _ h => xorWord_eq h.a0 h.b0
  · exact State.givesWord_wordOp (by decide) (show _ = bitNot f s from rfl) fun _ h => notWord_eq h.a0
  · exact State.givesWord_wordOp (by decide) (show _ = execAndn f s from rfl) fun _ _ => rfl
  · exact ⟨fun l => bitfnWord (bitfnTable f) (s.wA .bitfn f l) (s.wB .bitfn f l) ((s.curWarp.lane l).reg (f.cN % 128)).data,
      fun _ _ _ hk => getLsbD_bitfnWord _ _ _ _ hk, State.givesWord_bitfn s f⟩
  · exact State.givesWord_wordOp (by decide) (show _ = bitShl f s from rfl) fun _ h =>
      (shlWord_eq h.a0 _).trans (congrArg CWord.gen (shl_cases _ _))
  · exact State.givesWord_wordOp (by decide) (show _ = bitShr f s from rfl) fun _ h =>
      (shrWord_eq h.a0 _ _).trans (congrArg CWord.gen (shrBy_cases (f.ty = 0) _ _))
  · exact State.givesWord_wordOp (by decide) (show _ = execRol f s from rfl) fun _ h => rolWord_eq h.a0 _
  · exact State.givesPair_lanePure (by decide) (show _ = execShl64 f s from rfl) fun _ _ h => shl64_words h.a0 h.a1 _
  · exact State.givesPair_lanePure (by decide) (show _ = execShr64 f s from rfl) fun _ _ h => shr64_words (f.ty = 0) h.a0 h.a1 _
  · exact ⟨fun l => bfxWord (f.ty = 0) (s.wA .bfx f l) (s.wB .bfx f l), fun _ _ _ hk => getLsbD_bfxWord _ _ _ hk,
      State.givesWord_wordOp (by decide) (show _ = execBfx f s from rfl) fun _ h => bfxChecked_eq h.a0 _⟩
  · exact ⟨fun l => bfiWord (s.wA .bfi f l) (s.wB .bfi f l) (s.wC .bfi f l), fun _ _ _ hk => getLsbD_bfiWord _ _ _ hk,
      State.givesWord_wordOp (by decide) (show _ = execBfi f s from rfl) fun _ h => bfiChecked_eq h.a0 h.c0⟩
  · exact State.givesWord_wordOp (by decide) (show _ = bitPopc f s from rfl) fun _ _ => congrArg CWord.gen (popWord_eq _)
  · exact State.givesWord_wordOp (by decide) (show _ = execClz f s from rfl) fun _ _ => congrArg CWord.gen (clzWord_eq _)
  · exact ⟨fun l => brevWord (s.wA .brev f l), fun _ _ _ hk => getLsbD_brevWord _ hk,
      State.givesWord_wordOp (by decide) (show _ = execBrev f s from rfl) fun _ _ => rfl⟩

end Sys2Proof.Machine
end

section
/-!
Moves, byte selection, compares and predicate forms (R175–R180).
-/

namespace Sys2Proof.Machine

/-! ## Moves (R175) -/

/-- The number of words of an operand that names registers. -/
theorem length_sourceOf (w : Warp) (t : Thread) (f : Fields) (n : Nat) (x : BitVec 9) (uni imm : Bool) (site : Nat) :
    (sourceOf w t f (.reg n) x uni imm site).words.length = n := by
  rw [sourceOf]
  cases imm <;> simp [immWords, regWords]

theorem eq_pair_of_length {ws : List CWord} (h : ws.length = 2) : ws = [ws.getD 0 .zero, ws.getD 1 .zero] := by
  obtain ⟨a, b, rfl⟩ := List.length_eq_two.1 h
  rfl

theorem getD_zero_eq_c0 (ws : List CWord) : ws.getD 0 .zero = c0 ws := by cases ws <;> rfl

/-- A good word passes the check of a source (R110). -/
theorem checkSources_of_wellFormed {x : CWord} (h : x.wellFormed = true) (site : Nat) (pc : BitVec 64) :
    checkSources [⟨[x], site⟩] pc = none := by
  have poisoned : x.poisoned = false := by
    have := res_toNat x.data
    rw [CWord.poisoned, wellFormed_iff.1 h, beq_eq_false_iff_ne]
    intro e
    rw [e] at this
    have : (15 : BitVec 4).toNat = 15 := rfl
    omega
  have mismatched : x.mismatched = false := by rw [CWord.mismatched, h, Bool.not_true, Bool.and_false]
  simp [checkSources, findWord, poisoned, mismatched]

/-! ## `BSEL` (R176) -/

/-- Four bytes put together, and taken apart. -/
theorem extractLsb'_bselWord (a b c : Word) {i : Nat} (hi : i < 4) :
    (bselWord a b c).extractLsb' (8 * i) 8 = BitVec.ofNat 8 (bselByte a b c i) := by
  have h0 := bselByte_lt a b c 0
  have h1 := bselByte_lt a b c 1
  have h2 := bselByte_lt a b c 2
  have h3 := bselByte_lt a b c 3
  apply BitVec.eq_of_toNat_eq
  rw [bselWord, BitVec.extractLsb'_toNat, BitVec.toNat_ofNat, BitVec.toNat_ofNat, Nat.shiftRight_eq_div_pow]
  interval_cases i <;> omega

/-- The byte that a selector names, of A below C. -/
theorem bsel_source (a c : Word) {k : Nat} (hk : k < 8) :
    (if k < 4 then (a >>> (8 * k)).toNat % 256 else (c >>> (8 * (k - 4))).toNat % 256) =
      ((c ++ a : BitVec 64).extractLsb' (8 * k) 8).toNat := by
  split
  · rw [BitVec.extractLsb'_append_eq_of_add_le (by omega), BitVec.extractLsb'_toNat, BitVec.toNat_ushiftRight]
  · rw [BitVec.extractLsb'_append_eq_of_le (by omega), BitVec.extractLsb'_toNat, BitVec.toNat_ushiftRight,
      show 8 * (k - 4) = 8 * k - 32 by omega]

/-- A byte of `BSEL`: the source byte, zeros, its sign fill, or ones (R176). -/
theorem bselByte_eq (a b c : Word) (i : Nat) :
    let sel := b.extractLsb' (8 * i) 5
    let x := (c ++ a : BitVec 64).extractLsb' (8 * (sel.toNat % 8)) 8
    BitVec.ofNat 8 (bselByte a b c i) =
      if sel.toNat / 8 = 0 then x else if sel.toNat / 8 = 1 then 0 else if sel.toNat / 8 = 2 ∧ x.msb = false then 0 else 255 := by
  intro sel x
  have hsel : sel.toNat = (b >>> (8 * i)).toNat % 256 % 32 := by
    rw [BitVec.extractLsb'_toNat, BitVec.toNat_ushiftRight]
    omega
  have hlt : sel.toNat < 32 := sel.isLt
  have hk : (b >>> (8 * i)).toNat % 256 % 8 = sel.toNat % 8 := by omega
  have hm : (b >>> (8 * i)).toNat % 256 / 8 % 4 = sel.toNat / 8 := by omega
  have hmsb : x.msb = decide (128 ≤ x.toNat) := BitVec.msb_eq_decide x
  rw [bselByte, hk, hm, bsel_source a c (Nat.mod_lt _ (by decide)), show BitVec.extractLsb' _ 8 (c ++ a) = x from rfl, hmsb]
  obtain h | h | h | h : sel.toNat / 8 = 0 ∨ sel.toNat / 8 = 1 ∨ sel.toNat / 8 = 2 ∨ sel.toNat / 8 = 3 := by omega
  · simp [h]
  · simp [h]
  · by_cases h' : 128 ≤ x.toNat <;> simp [h, h']
  · simp [h]

/-! ## Compares (R177) -/

theorem condInt_eq {k : Nat} (hk : k ≤ 5) (a b : Int) : condInt k a b =
    [decide (a = b), decide (a ≠ b), decide (a < b), decide (a ≤ b), decide (a > b), decide (a ≥ b)].getD k false := by
  interval_cases k
  · exact beq_eq_decide a b
  · exact (congrArg not (beq_eq_decide a b)).trans (decide_not (p := a = b)).symm
  all_goals rfl

theorem cmp_cond {f : Fields} (h : Op.cmp.extra f = []) : condOf f ≤ 5 := by
  simp only [Op.extra, failsIf_eq_nil, Bool.or_eq_false_iff, decide_eq_false_iff_not, not_lt] at h
  exact h.2

theorem cmp64_cond {f : Fields} (h : Op.cmp64.extra f = []) : f.ty ≤ 1 ∧ condOf f ≤ 5 := by
  simp only [Op.extra, failsIf_eq_nil, Bool.or_eq_false_iff, decide_eq_false_iff_not, not_lt, Bool.and_eq_false_iff] at h
  exact ⟨h.1.1, h.2.resolve_left (by decide)⟩

/-- The difference that a compare checks is a good word (R107, R108). -/
theorem difference_wellFormed (t : Nat) {a b : List CWord} (ha : (c0 a).wellFormed = true) (hb : (c0 b).wellFormed = true) :
    ∀ w ∈ difference t a b, w.wellFormed = true := by
  intro w hw
  have ea : (extWord t (c0 a)).wellFormed = true := by rw [extWord_eq ha]; exact CWord.gen_wellFormed _
  have eb : (extWord t (c0 b)).wellFormed = true := by rw [extWord_eq hb]; exact CWord.gen_wellFormed _
  rw [List.mem_singleton.1 hw, predictSub_eq ea eb false, wellFormed_iff, Bool.toNat_false, show BitVec.ofNat 32 0 = 0#32 from rfl,
    BitVec.sub_zero]

/-- The difference of two pairs of good words is a pair of good words. -/
theorem chainWords_sub_wellFormed {a b : List CWord} (ha0 : (c0 a).wellFormed = true) (ha1 : (c1 a).wellFormed = true)
    (hb0 : (c0 b).wellFormed = true) (hb1 : (c1 b).wellFormed = true) :
    ∀ w ∈ [(chainWords .sub (c01 a) (c01 b)).1, (chainWords .sub (c01 a) (c01 b)).2], w.wellFormed = true := by
  have ok {w : CWord} (h : w.wellFormed = true) : Exact.Ok ⟨w.data.toNat, srcRes w⟩ := srcRes_mod h
  intro w hw
  rcases List.mem_pair.1 hw with rfl | rfl
  · rw [show (chainWords .sub (c01 a) (c01 b)).1 = _ from ((ok ha0).sub (ok hb0)).word (n := 1) (by decide)]
    exact CWord.gen_wellFormed _
  · rw [show (chainWords .sub (c01 a) (c01 b)).2 = _ from
      (((ok ha1).sub (ok hb1)).add (Exact.ok_const _)).word (n := 1) (by decide)]
    exact CWord.gen_wellFormed _

/-! ## The forms -/

section
variable {s : State} {f : Fields}

theorem State.gives_mov : s.Gives (.mov f) .mov f fun l => { dst := [(s.opA .mov f l).getD 0 .zero] } :=
  State.gives_lanewise (by decide) 1 (show _ = s.lanePure .mov f (moveClass f) fun i => { dst := [c0 i.a] } from rfl) fun _ l _ _ h => by
    rw [getD_zero_eq_c0]
    refine ⟨rfl, rfl, List.nodup_nil, fun _ w hw => ?_⟩
    rw [List.mem_singleton.1 hw]
    exact h.a0

theorem State.gives_mov64 :
    s.Gives (.mov64 f) .mov64 f fun l => { dst := [(s.opA .mov64 f l).getD 0 .zero, (s.opA .mov64 f l).getD 1 .zero] } :=
  State.gives_lanewise (by decide) 2 (show _ = s.lanePure .mov64 f (moveClass f) fun i => { dst := i.a } from rfl) fun _ l _ _ h => by
    have pair := eq_pair_of_length (ws := s.opA .mov64 f l) (length_sourceOf _ _ f 2 f.a f.ua _ 0)
    rw [← pair]
    refine ⟨rfl, length_sourceOf _ _ f 2 f.a f.ua _ 0, List.nodup_nil, fun _ w hw => ?_⟩
    rw [Res.covered, List.append_nil] at hw
    exact h w (.inl hw)

theorem State.gives_movw
    (hw : ∀ l < 32, s.Runs f l → (s.wA .movw f l).toNat < 64 ∧ (s.curWarp.wreg (s.wA .movw f l).toNat).wellFormed = true) :
    s.Gives (.movw f) .movw f fun l => { dst := [s.curWarp.wreg (s.wA .movw f l).toNat] } :=
  State.gives_lanewise (by decide) 1 (show _ = execMovw f s from rfl) fun _ l hl hr h => by
    obtain ⟨hlt, hgood⟩ := hw l hl hr
    refine ⟨?_, rfl, List.nodup_nil, fun _ w hw => ?_⟩
    · refine (if_neg (not_le.2 hlt)).trans ?_
      dsimp only
      split
      next e => exact nomatch e.symm.trans (checkSources_of_wellFormed hgood 6 s.pc64)
      next => rfl
    · rw [List.mem_singleton.1 hw]
      exact hgood

theorem State.gives_sel (hp : ∀ l < 32, s.Runs f l → (s.curWarp.lane l).predBad (f.cN % 16) = false) :
    s.Gives (.sel f) .sel f fun l =>
      { dst := [if (s.curWarp.lane l).pred (f.cN % 16) then (s.opA .sel f l).getD 0 .zero else (s.opB .sel f l).getD 0 .zero] } :=
  State.gives_lanewise (by decide) 1 (show _ = execSel f s from rfl) fun _ l hl hr h => by
    rw [getD_zero_eq_c0, getD_zero_eq_c0]
    refine ⟨if_neg (by rw [State.operands, hp l hl hr]; exact Bool.false_ne_true), rfl, List.nodup_nil, fun _ w hw => ?_⟩
    rw [List.mem_singleton.1 hw]
    split
    · exact h.a0
    · exact h.b0

/-- The truth table of `PCOMB` (R178). -/
theorem pcomb_lut (a b : BitVec 9) :
    a.toNat / 16 % 16 + b.toNat / 16 % 16 * 16 = (b.extractLsb' 4 4 ++ a.extractLsb' 4 4 : BitVec 8).toNat := by
  rw [BitVec.toNat_append, ← Nat.shiftLeft_add_eq_or_of_lt (BitVec.isLt _), BitVec.extractLsb'_toNat, BitVec.extractLsb'_toNat,
    Nat.shiftLeft_eq, Nat.shiftRight_eq_div_pow, Nat.shiftRight_eq_div_pow]
  omega

theorem pcombBad_eq_false {t : Thread} {x : BitVec 9} (h : x.toNat % 16 ≠ 15 → t.predBad (x.toNat % 16) = false) :
    pcombBad t x = false := by
  rw [pcombBad]
  by_cases hx : x.toNat % 16 = 15
  · rw [hx]
    rfl
  · rw [h hx, Bool.and_false]

/-- The value of `PCOMB` in a lane (R178). -/
def State.pcombValue (s : State) (f : Fields) (l : Nat) : Bool :=
  (f.b.extractLsb' 4 4 ++ f.a.extractLsb' 4 4 : BitVec 8).getLsbD ((pcombSrc (s.curWarp.lane l) f.a).toNat +
    2 * (pcombSrc (s.curWarp.lane l) f.b).toNat + 4 * (pcombSrc (s.curWarp.lane l) f.c).toNat)

theorem State.gives_pcomb
    (hp : ∀ l < 32, s.Runs f l → ∀ x ∈ [f.a, f.b, f.c], x.toNat % 16 ≠ 15 → (s.curWarp.lane l).predBad (x.toNat % 16) = false) :
    s.Gives (.pcomb f) .pcomb f fun l =>
      { preds := (f.d.toNat % 16, s.pcombValue f l) :: if f.opm4 then [(f.d.toNat % 16 + 1, !s.pcombValue f l)] else [] } :=
  State.gives_lanewise (by decide) 0 (show _ = execPcomb f s from rfl) fun _ l hl hr _ => by
    have good {x : BitVec 9} (hx : x ∈ [f.a, f.b, f.c]) : pcombBad (s.curWarp.lane l) x = false :=
      pcombBad_eq_false (hp l hl hr x hx)
    have value : (f.a.toNat / 16 % 16 + f.b.toNat / 16 % 16 * 16).testBit ((pcombSrc (s.curWarp.lane l) f.a).toNat +
        2 * (pcombSrc (s.curWarp.lane l) f.b).toNat + 4 * (pcombSrc (s.curWarp.lane l) f.c).toNat) = s.pcombValue f l := by
      rw [pcomb_lut]
      rfl
    refine ⟨?_, rfl, ?_, fun _ _ hw => nomatch hw⟩
    · simp only [State.operands, good List.mem_cons_self, good (List.mem_cons_of_mem _ List.mem_cons_self),
        good (List.mem_cons_of_mem _ (List.mem_cons_of_mem _ List.mem_cons_self)), value]
      cases f.opm4 <;> rfl
    · cases f.opm4 <;> simp

/-- `PMOV.TOV` reads all twelve predicates (R179). -/
theorem State.givesWord_pmov (hm : f.opm4 = false) (hp : ∀ l < 32, s.Runs f l → ∀ k < 12, (s.curWarp.lane l).predBad k = false) :
    s.GivesWord (.pmov f) .pmov f fun l => (s.curWarp.lane l).preds.zeroExtend 32 :=
  State.gives_lanewise (by decide) 1 (show _ = execPmov f s from rfl) fun _ l hl hr _ => by
    have copies : (s.curWarp.lane l).preds = (s.curWarp.lane l).preds' :=
      BitVec.eq_of_getLsbD_eq fun k hk => bne_eq_false_iff_eq.1 (hp l hl hr k hk)
    refine ⟨?_, rfl, List.nodup_nil, fun hk _ _ => by rcases hk with hk | hk <;> cases hk⟩
    simp [State.operands, hm, copies]

/-- `PMOV.FROMV` writes the predicates that A[27:16] selects (R179). -/
theorem State.gives_pmov (hm : f.opm4 = true) : s.Gives (.pmov f) .pmov f fun l =>
    { preds := ((List.range 12).filter fun k => (s.wA .pmov f l).getLsbD (16 + k)).map fun k => (k, (s.wA .pmov f l).getLsbD k) } :=
  State.gives_lanewise (by decide) 0 (show _ = execPmov f s from rfl) fun _ l _ _ _ => by
    refine ⟨if_pos hm, rfl, ?_, fun _ _ hw => nomatch hw⟩
    rw [List.map_map]
    simpa [Function.comp_def] using List.nodup_range.filter _

end

/-- Settles O6: the moves carry their words, `BSEL` puts bytes together, and each compare and predicate form writes the predicates of its
row. -/
theorem movesAndPredicates : Obligations.MovesAndPredicates := by
  unfold Obligations.MovesAndPredicates
  refine ⟨fun s f => ⟨State.gives_mov, State.gives_mov64, State.gives_movw, State.gives_sel, ?_, ?_⟩,
    fun s f => ⟨?_, ?_, ?_, State.gives_pcomb, State.givesWord_pmov, State.gives_pmov⟩⟩
  · exact State.givesWord_lanePure (by decide) (show _ = execExt f s from rfl) fun _ _ h => extWord_eq h.a0 _
  · refine ⟨fun l => bselWord (s.wA .bsel f l) (s.wB .bsel f l) (s.wC .bsel f l), fun l _ i hi => ?_,
      State.givesWord_lanePure (by decide) (show _ = execBsel f s from rfl) fun _ _ _ => congrArg (CWord.mk _) (bsel_tag _ _ _)⟩
    exact (extractLsb'_bselWord _ _ _ hi).trans (bselByte_eq _ _ _ i)
  · exact State.givesPreds_lanePure (by decide) (show _ = execCmp f s from rfl) (fun _ h => difference_wellFormed f.ty h.a0 h.b0)
      fun hx l => condInt_eq (cmp_cond hx) _ _
  · refine State.givesPreds_lanePure (by decide) (show _ = execCmp64 f s from rfl)
      (fun _ h => chainWords_sub_wellFormed h.a0 h.a1 h.b0 h.b1) fun hx l => ?_
    obtain ⟨ht, hc⟩ := cmp64_cond hx
    rw [condInt_eq hc, ext64_ty ht, ext64_ty ht]
    rfl
  · exact State.givesPreds_lanePure (by decide) (show _ = execPset f s from rfl)
      (fun _ h w hw => by rw [List.mem_singleton.1 hw]; exact h.a0) fun _ _ => rfl

end Sys2Proof.Machine
end

section
/-!
The forms that count in `depcnt` (R139, R140, R167, R189): the count comes first, and the lanes then take their results in the state that
it leaves.
-/

namespace Sys2Proof.Machine

/-! ## The count (R139, R140) -/

/-- The advisory interrupt is due: lanes have run, ADVISORY is set and PENDING is not (R140). -/
def Context.tells (k : Context) (n : Nat) : Bool := n ≠ 0 ∧ k.depctl.getLsbD 0 = true ∧ k.depctl.getLsbD 1 = false

theorem State.updCtx_updCtx (s : State) (c : Nat) (f g : Context → Context) :
    (s.updCtx c f).updCtx c g = s.updCtx c fun k => g (f k) := by
  unfold State.updCtx
  cases h : s.ctxs.get? c with
  | none => simp [h]
  | some k => simp [KMap.put_put]

/-- What the count does to the context, and what it reports (R139, R140). -/
theorem State.deprecated_eq_updCtx (s : State) (c n : Nat) : s.deprecated c n =
    let tell := (s.ctx c).tells n
    let s1 := s.updCtx c fun k =>
      { k with depcnt := k.depcnt + BitVec.ofNat 64 n, depctl := if tell then k.depctl ||| 2 else k.depctl }
    if tell then s1.report (.irq (s.ctx c).pitch 2) else s1 := by
  have cond : (n != 0 && (s.ctx c).depctl.getLsbD 0 && !(s.ctx c).depctl.getLsbD 1) = (s.ctx c).tells n := by
    rw [Context.tells, Bool.eq_iff_iff]
    simp [and_assoc]
  simp only [State.deprecated, cond, State.updCtx_updCtx]
  cases (s.ctx c).tells n <;> rfl

theorem State.updCtx_only (s : State) (c : Nat) (f : Context → Context) : s.updCtx c f = { s with ctxs := (s.updCtx c f).ctxs } := by
  unfold State.updCtx
  split <;> rfl

/-- The count changes the context and the reports alone. -/
theorem State.deprecated_only (s : State) (c n : Nat) :
    s.deprecated c n = { s with ctxs := (s.deprecated c n).ctxs, reports := (s.deprecated c n).reports } := by
  rw [State.deprecated_eq_updCtx]
  dsimp only
  split
  · rw [State.updCtx_only]
    rfl
  · rw [State.updCtx_only]

/-! ## The lanes -/

/-- What a lane of an instruction comes to where nothing traps. -/
def State.doneLane (s : State) (f : Fields) (g : Nat → Res) (l : Nat) : Lane :=
  if s.active l then if (s.curWarp.lane l).guard f.g then .done (g l) else .skip else .idle

theorem State.doneLane_eq_done {s : State} {f : Fields} {g : Nat → Res} {l : Nat} {r : Res} :
    s.doneLane f g l = .done r ↔ s.Runs f l ∧ r = g l := by
  cases ha : s.active l <;> cases hg : (s.curWarp.lane l).guard f.g <;> simp [State.doneLane, State.Runs, ha, hg, @eq_comm _ r]

theorem State.runLanes_eq {s : State} {op : Op} {f : Fields} {src : Thread → List Source} {body : Ins → Except Trap Res} {g : Nat → Res}
    (hc : s.Clear op f) (hr : s.Reads f src)
    (hb : ∀ l < 32, s.Runs f l → body (insOf l (s.curWarp.lane l) (src (s.curWarp.lane l))) = .ok (g l)) :
    s.runLanes f src body = (List.range 32).map (s.doneLane f g) := by
  have h32 : s.curWarp.lanes.length = 32 := hc.1.2
  refine List.ext_getElem (by simp [State.runLanes, h32]) fun l hl _ => ?_
  have hl : l < 32 := by simpa [State.runLanes, h32] using hl
  have lane : s.curWarp.lanes[l]'(h32.symm ▸ hl) = s.curWarp.lane l := by simp [Warp.lane, h32, hl]
  simp only [State.runLanes, List.getElem_mapIdx, List.getElem_map, List.getElem_range, lane]
  exact runLane_ok hc hr hb l hl

/-- As many lanes complete as run. -/
theorem State.doneLanes_map (s : State) (f : Fields) (g : Nat → Res) :
    doneLanes ((List.range 32).map (s.doneLane f g)) = (s.running f).length := by
  have runs := s.running_eq f fun _ => true
  rw [List.filter_true] at runs
  rw [doneLanes, List.filter_map, List.length_map, runs]
  refine congrArg List.length (List.filter_congr fun l _ => ?_)
  by_cases ha : s.active l = true <;> by_cases hg : (s.curWarp.lane l).guard f.g = true <;>
    simp [State.doneLane, State.Runs, ha, hg]

/-- A form that counts completes: the lanes that run are counted, and then take their results. -/
theorem State.deprecatedLanes_next {s : State} {i : Instr} {op : Op} {f : Fields} {k : RClass} {body : Ins → Res} {w : Nat → Word}
    {fl : Nat → BitVec 5}
    (hop : op ≠ .bitfn) (hi : exec i s = deprecatedLanes op k body f s) (hc : s.Clear op f) (hr : s.Good op f)
    (hb : ∀ l, (s.operands op f l).Good → body (s.operands op f l) = { dst := [.gen (w l)], flags := fl l }) :
    ∃ t, exec i s = .next t ∧
      (s.deprecated s.curCtx (s.running f).length).Wrote t f fun l => { dst := [.gen (w l)], flags := fl l } := by
  obtain ⟨hbun, hd, -, hq⟩ := id hc
  let res : Nat → Res := fun l => { dst := [.gen (w l)], flags := fl l }
  have lanes : s.runLanes f (fun t => sources op f s.curWarp t false) (fun i => .ok (body i)) = (List.range 32).map (s.doneLane f res) :=
    State.runLanes_eq hc hr fun l hl hrun => by
      rw [State.insOf_sources s op f l hop]
      exact congrArg _ (hb l fun _ hw => hr.words hop hl hrun hw)
  have clean : s.verify k false none ((List.range 32).map (s.doneLane f res)) = (List.range 32).map (s.doneLane f res) := by
    refine State.verify_none (fun x hx r e _ y hy => ?_) false
    obtain ⟨l, -, rfl⟩ := List.mem_map.1 hx
    obtain ⟨-, rfl⟩ := State.doneLane_eq_done.1 e
    rw [List.mem_singleton.1 hy]
    exact CWord.gen_wellFormed _
  refine ⟨(s.deprecated s.curCtx (s.running f).length).commit f ((List.range 32).map (s.doneLane f res)), ?_, ?_⟩
  · rw [hi, deprecatedLanes, State.issue_next hd]
    dsimp only
    rw [lanes, State.shot_quiet hq, State.afterInjection_none, clean, State.doneLanes_map]
  · rw [State.deprecated_only]
    exact State.commit_wrote (n := 1) _ hbun (by simp) (fun l hl => by simp [State.doneLane]; rfl) (fun _ _ _ => rfl)
      fun _ _ _ => List.nodup_nil

/-! ## The results -/

/-- The low 24 bits as an integer (R167). -/
theorem exact24_val (x : Word) : (exact24 x).val = (x.extractLsb' 0 24).toInt := by
  have low : (x.extractLsb' 0 24).toNat = x.toNat % 2 ^ 24 := by rw [BitVec.extractLsb'_toNat, Nat.shiftRight_zero]
  rw [exact24, BitVec.toInt_eq_toNat_cond, low]
  dsimp only [sextN]
  split <;> split <;> omega

/-- The word of `IMAD24` (R167). -/
theorem imad24_word (a b : Word) {c : CWord} (hc : c.wellFormed = true) :
    (((exact24 a).mul (exact24 b)).add (exactOf 1 c)).word 1 0 =
      .gen (BitVec.ofInt 32 ((a.extractLsb' 0 24).toInt * (b.extractLsb' 0 24).toInt + c.data.toInt)) := by
  have self : BitVec.ofInt 32 (c.data.toNat : Int) = c.data := (BitVec.ofInt_natCast 32 _).trans (BitVec.ofNat_toNat 32 c.data)
  rw [(((exact24_ok a).mul (exact24_ok b)).add (exactOf_ok hc 1)).word (by decide), intWord_zero, Exact.add_val, Exact.mul_val,
    exact24_val, exact24_val, exactOf_val, tyExt_one, BitVec.ofInt_add, self, BitVec.ofInt_add, BitVec.ofInt_toInt]

/-- Settles O13: a form that counts leaves the count of R139 and the advisory of R140 (`State.deprecated_eq_updCtx`), and its lanes take
their results there. -/
theorem deprecatedForms : Obligations.DeprecatedForms := by
  unfold Obligations.DeprecatedForms
  intro s f n k tell s1 u low F
  have hu : u = s.deprecated s.curCtx (s.running f).length := (s.deprecated_eq_updCtx _ _).symm
  rw [hu]
  refine ⟨fun hc hg => ?_, fun hc hg => ?_⟩
  · exact State.deprecatedLanes_next (by decide) (show _ = execImad24 f s from rfl) hc hg fun l h =>
      congrArg (fun w => ({ dst := [w] } : Res)) (imad24_word _ _ h.c0)
  · exact State.deprecatedLanes_next (by decide) (show _ = execFmac f s from rfl) hc hg fun l h => rfl

end Sys2Proof.Machine
end
